-- ==== Sys2Proof/Word.lean ====
section
/-! DEFINITION. Word.lean: the widths of the GH-2416's words, the numbers of its units, and the type of its sparse tables. -/

namespace Sys2Proof

/-- A byte of a record or of a burst (11.1). -/
abbrev Byte := BitVec 8

/-- A 16-bit field of a record (11.1). -/
abbrev Half := BitVec 16

/-- A 32-bit field of a record, an index word, a tick count (0.5). -/
abbrev Word := BitVec 32

/-- A 40-bit address of either port (0.5). -/
abbrev Addr := BitVec 40

/-- A record channel, RC0 to RC7. -/
abbrev ChanId := Fin 8

/-- A play head, PH0 to PH3. -/
abbrev HeadId := Fin 4

/-- A panel port: 0 is PA, 1 is PB (7.1). -/
abbrev PortId := Fin 2

/-- A table of records by number, held as the list of the records that differ from the default.
Used for the 16,384 slot records, the 16,384 index entries and the 256 clip records. -/
abbrev Tbl (α : Type) := List (Nat × α)

end Sys2Proof
end

