-- ==== Sys2Proof/Syntax.lean ====
section
/-! DEFINITION. Syntax.lean: the commands the block takes, one constructor of `Instr` per row of the table of operations and
events, with the operands each row carries. -/

namespace Sys2Proof

/-- Direction of a burst or of an own request (8.1). -/
inductive Dir where
  | read
  | write
  deriving DecidableEq, Repr

/-- Completion status of a burst or of an own request (8.1). -/
inductive Status where
  | good
  | error
  deriving DecidableEq, Repr

/-- One byte of a write burst with its byte enable (8.1). -/
structure WriteByte where
  en  : Bool
  val : Byte
  deriving DecidableEq, Repr

/-- A burst at the engine port: direction, start address, length in beats of 32 bytes, and for a write its bytes (8.1). -/
structure Burst where
  dir   : Dir
  addr  : Addr
  beats : Nat
  data  : List WriteByte
  deriving DecidableEq, Repr

/-- The fields of a fetched command record that are read, less its kind (11.3). -/
structure CmdArgs where
  flags  : Byte
  tag    : Half
  target : Half
  a      : Word
  b      : Word
  c      : Word
  d      : Word
  deriving DecidableEq, Repr

/-- The two start-up writes (R173). -/
inductive StartWrite where
  | cmdConsumer
  | evtProducer
  deriving DecidableEq, Repr

/-- Why an own request leaves the queue unfinished (R160). -/
inductive TimeoutCause where
  | elapsed
  | error
  deriving DecidableEq, Repr

/-- The mark keys of a panel port (7.1). -/
inductive Key where
  | kin
  | kout
  | kqk
  deriving DecidableEq, Repr

/-! ## Events of other blocks inside a row

The manual takes some rows in several operations and lets other blocks' operations and events fall between them (R5, R20, R44,
R90, R151, R182). Those rows carry, as their operand `turns`, what falls between their operations; the empty list stands for
nothing. -/

/-- A part of a snapshot: the record of one block (R182). -/
inductive SnapPart where
  | decoder
  | reference
  | processor
  | events
  | channel (c : ChanId)
  | head (h : HeadId)
  | port (p : PortId)
  deriving DecidableEq, Repr

/-- An event that a block takes while a row is carried out: what each row but RESET_N stands for.
`command` is the fetch that completes with a record of that kind. -/
inductive BlockEvent where
  | startUpWriteComplete (w : StartWrite) (st : Status)
  | engineBurst (b : Burst) (portFree : Bool)
  | strayWriteReport (c : ChanId)
  | storePortIssue (time : Nat)
  | passBurstComplete (k : Nat) (st : Status) (data : List Byte)
  | cmdProducer
  | evtConsumer
  | ownRequestTimeout (k : Nat) (cause : TimeoutCause)
  | command (kind : Byte) (r : CmdArgs)
  | statusSnapshot (r : CmdArgs) (order : List SnapPart)
  | curveFetchComplete (data : List Byte) (st : Status)
  | reportWriteComplete (st : Status)
  | writeBackComplete (st : Status)
  | cmdConsumerWriteComplete (st : Status)
  | syncInEdge (level : Bool) (time : Nat)
  | syncPulse
  | flywheelExpiry
  | channelTick (c : ChanId)
  | headTick (h : HeadId)
  | takeoverNotice (p : PortId)
  | portLostNotice (p : PortId)
  | attachNotice (h : HeadId)
  | headDetachNotice (h : HeadId)
  | clipDetachNotice (h : HeadId)
  | panelMark (p : PortId)
  | arrival (c : ChanId)
  | stopNotice (c : ChanId)
  | levEdge (p : PortId) (level : Bool) (time : Nat)
  | noEdgeTimerExpiry (p : PortId)
  | jogLineChange (p : PortId) (ja jb : Bool) (time : Nat)
  | jogFilterExpiry (p : PortId)
  | keyLineChange (p : PortId) (key : Key) (level : Bool) (time : Nat)
  | keyDebounceExpiry (p : PortId) (key : Key)
  | eventRecordWrite
  | eventRecordWriteComplete (st : Status)
  | evtProducerWriteComplete (st : Status)
  deriving DecidableEq, Repr

/-- A block whose event may be made in several operations, and which takes no other event before the last of them (R20, R44, R90,
R167). -/
inductive Agent where
  | head (h : HeadId)
  | channel (c : ChanId)
  | clips
  | processor
  deriving DecidableEq, Repr

/-- What falls next between the operations of a row: an event begins with its first operation, or the next operation of an event
begun is made: a head's tick goes on as `move (.head h)`, a key mark or an arrival as `move .clips`, a command as
`move .processor`. -/
inductive Turn where
  | event (e : BlockEvent)
  | move (a : Agent)
  deriving DecidableEq, Repr

/-- The commands of the block. Operands: `time` is the timebase count at which an outside edge or an issue happens (R116);
`k` is a place in a list of outstanding requests, 0 the oldest; `r` is the fetched command record; `turns` is what falls between
the operations of the row, the empty list for nothing; `order` is the order in which a snapshot's parts are read. -/
inductive Instr where
  /-- RESET_N, with the strap levels and which block queues its start-up write first (R161, R162, R173). -/
  | resetN (cbsel : BitVec 4) (evtFirst : Bool)
  /-- A start-up write ends (R173, R174). -/
  | startUpWriteComplete (w : StartWrite) (st : Status)
  /-- A burst at the engine port; `portFree` says that the store port can take a further burst (R146). -/
  | engineBurst (b : Burst) (portFree : Bool)
  /-- A channel takes its oldest stray-write report (R41). -/
  | strayWriteReport (c : ChanId)
  /-- The store port can take a burst: the arbiter issues the next one (R159). -/
  | storePortIssue (time : Nat)
  /-- The store port completes its `k`-th outstanding pass burst; a read brings its bytes (R147). -/
  | passBurstComplete (k : Nat) (st : Status) (data : List Byte)
  /-- The command processor takes the oldest CMD_PRODUCER word handed on (R165). -/
  | cmdProducer
  /-- The event unit takes the oldest EVT_CONSUMER word handed on (R180). -/
  | evtConsumer
  /-- The `k`-th own request of the queue times out or completes with ERROR (R160). -/
  | ownRequestTimeout (k : Nat) (cause : TimeoutCause)
  /-- The fetch completes with a record whose kind is no command (R167). -/
  | unknownKind (kind : Byte) (r : CmdArgs)
  | engage (r : CmdArgs)
  | disengage (r : CmdArgs) (turns : List Turn)
  | refRestart (r : CmdArgs)
  | channelSetup (r : CmdArgs)
  | channelArm (r : CmdArgs)
  | channelStop (r : CmdArgs)
  | channelAbort (r : CmdArgs)
  | channelClear (r : CmdArgs) (turns : List Turn)
  | headSource (r : CmdArgs)
  | headRate (r : CmdArgs)
  | headGoto (r : CmdArgs)
  | mark (r : CmdArgs) (turns : List Turn)
  | markSetup (r : CmdArgs)
  | clipClose (r : CmdArgs) (turns : List Turn)
  | clipDelete (r : CmdArgs) (turns : List Turn)
  | clipTag (r : CmdArgs)
  | clipQuery (r : CmdArgs)
  | panelBind (r : CmdArgs)
  | panelCurve (r : CmdArgs)
  | panelTiming (r : CmdArgs)
  | eventMask (r : CmdArgs)
  | statusSnapshot (r : CmdArgs) (order : List SnapPart) (turns : List Turn)
  /-- The curve read completes with the bytes of the record (R137). -/
  | curveFetchComplete (data : List Byte) (st : Status)
  /-- The oldest outstanding report write completes (R182, R183). -/
  | reportWriteComplete (st : Status)
  /-- The write-back completes (R169). -/
  | writeBackComplete (st : Status)
  /-- The CMD_CONSUMER write completes (R170). -/
  | cmdConsumerWriteComplete (st : Status)
  /-- SYNC_IN changes to `level` (R117). -/
  | syncInEdge (level : Bool) (time : Nat)
  /-- The reference unit takes the oldest pulse of the filter (R119, R120, R122). -/
  | syncPulse
  /-- The flywheel timer expires (R121, R122). -/
  | flywheelExpiry
  /-- A channel takes its oldest waiting tick (R29 to R34). -/
  | channelTick (c : ChanId)
  /-- A head takes its oldest waiting tick (R54). -/
  | headTick (h : HeadId) (turns : List Turn)
  /-- The oldest notice of a port, a takeover, is taken by its head (R52). -/
  | takeoverNotice (p : PortId)
  /-- The oldest notice of a port, a port-lost notice, is taken by its head (R53). -/
  | portLostNotice (p : PortId)
  /-- A head takes the clip manager's oldest notice, an attach (R58). -/
  | attachNotice (h : HeadId)
  /-- A head takes the clip manager's oldest notice, a detach (R58). -/
  | headDetachNotice (h : HeadId)
  /-- The clip manager takes a head's oldest detach notice (R114). -/
  | clipDetachNotice (h : HeadId)
  /-- The clip manager takes a port's oldest mark (R142). -/
  | panelMark (p : PortId) (turns : List Turn)
  /-- The clip manager takes a channel's oldest hand-over, an arrival (R105). -/
  | framesCommittedArrival (c : ChanId) (turns : List Turn)
  /-- The clip manager takes a channel's oldest hand-over, a stop notice (R110). -/
  | stopNotice (c : ChanId)
  /-- LEV changes to `level` (R131). -/
  | levEdge (p : PortId) (level : Bool) (time : Nat)
  /-- The no-edge timer expires (R132). -/
  | noEdgeTimerExpiry (p : PortId)
  /-- JA and JB take these levels (R139). -/
  | jogLineChange (p : PortId) (ja jb : Bool) (time : Nat)
  /-- The jog qualifications due next complete (R139, R140). -/
  | jogFilterExpiry (p : PortId)
  /-- A key line takes this level (R141). -/
  | keyLineChange (p : PortId) (key : Key) (level : Bool) (time : Nat)
  /-- A key's debounce time is over (R141, R142). -/
  | keyDebounceExpiry (p : PortId) (key : Key)
  /-- The event unit begins the oldest staged record (R178). -/
  | eventRecordWrite
  /-- The event record write completes (R178). -/
  | eventRecordWriteComplete (st : Status)
  /-- The EVT_PRODUCER write completes (R179). -/
  | evtProducerWriteComplete (st : Status)
  deriving DecidableEq, Repr

end Sys2Proof
end

