-- ==== Sys2Proof/Decode.lean ====
section
/-! DEFINITION. Decode.lean: the byte order of records (R184), the command record of 11.3 read as a command of the table and
written from one, and the host's table decoder. The table gives no row bits, so the table decoder reads no word. -/

namespace Sys2Proof

/-- Byte `i` of a word, 0 the least significant (R184). -/
def byteAt {n : Nat} (w : BitVec n) (i : Nat) : Byte := w.extractLsb' (8 * i) 8

/-- The two bytes of a 16-bit field, lowest offset first (R184). -/
def bytes16 (w : Half) : List Byte := [byteAt w 0, byteAt w 1]

/-- The four bytes of a 32-bit field, lowest offset first (R184). -/
def bytes32 (w : Word) : List Byte := [byteAt w 0, byteAt w 1, byteAt w 2, byteAt w 3]

/-- The 16-bit field at offset `i` of a record; a byte beyond the record reads as 0 (R184). -/
def half (bs : List Byte) (i : Nat) : Half := bs.getD (i + 1) 0 ++ bs.getD i 0

/-- The 32-bit field at offset `i` of a record (R184). -/
def word (bs : List Byte) (i : Nat) : Word :=
  (bs.getD (i + 3) 0 ++ bs.getD (i + 2) 0 ++ bs.getD (i + 1) 0 ++ bs.getD i 0 : BitVec (8 + 8 + 8 + 8))

/-- The command a record of kind code `k` is (11.7); a code the table does not list is UNKNOWN_KIND (R167, R185). -/
def commandOf (k : Byte) (r : CmdArgs) : Instr :=
  match k.toNat with
  | 0x01 => .engage r
  | 0x02 => .disengage r []
  | 0x03 => .refRestart r
  | 0x04 => .channelSetup r
  | 0x05 => .channelArm r
  | 0x06 => .channelStop r
  | 0x07 => .channelAbort r
  | 0x08 => .channelClear r []
  | 0x09 => .headSource r
  | 0x0A => .headRate r
  | 0x0B => .headGoto r
  | 0x0C => .mark r []
  | 0x0D => .markSetup r
  | 0x0E => .clipClose r []
  | 0x0F => .clipDelete r []
  | 0x10 => .clipTag r
  | 0x11 => .clipQuery r
  | 0x12 => .panelBind r
  | 0x13 => .panelCurve r
  | 0x14 => .panelTiming r
  | 0x15 => .eventMask r
  | 0x16 => .statusSnapshot r [] []
  | _ => .unknownKind k r

/-- The kind code and the fields of a command row; none for a row that no record brings (11.7). -/
def recordOf : Instr → Option (Byte × CmdArgs)
  | .unknownKind k r => some (k, r)
  | .engage r => some (0x01, r)
  | .disengage r [] => some (0x02, r)
  | .disengage _ (_ :: _) => none
  | .refRestart r => some (0x03, r)
  | .channelSetup r => some (0x04, r)
  | .channelArm r => some (0x05, r)
  | .channelStop r => some (0x06, r)
  | .channelAbort r => some (0x07, r)
  | .channelClear r [] => some (0x08, r)
  | .channelClear _ (_ :: _) => none
  | .headSource r => some (0x09, r)
  | .headRate r => some (0x0A, r)
  | .headGoto r => some (0x0B, r)
  | .mark r [] => some (0x0C, r)
  | .mark _ (_ :: _) => none
  | .markSetup r => some (0x0D, r)
  | .clipClose r [] => some (0x0E, r)
  | .clipClose _ (_ :: _) => none
  | .clipDelete r [] => some (0x0F, r)
  | .clipDelete _ (_ :: _) => none
  | .clipTag r => some (0x10, r)
  | .clipQuery r => some (0x11, r)
  | .panelBind r => some (0x12, r)
  | .panelCurve r => some (0x13, r)
  | .panelTiming r => some (0x14, r)
  | .eventMask r => some (0x15, r)
  | .statusSnapshot r [] [] => some (0x16, r)
  | .statusSnapshot _ [] (_ :: _) => none
  | .statusSnapshot _ (_ :: _) _ => none
  | _ => none

/-- Whether a kind code is one of the command kinds of 11.7. -/
def isCommandKind (k : Byte) : Bool := decide (1 ≤ k.toNat) && decide (k.toNat ≤ 0x16)

/-- The command a fetched record of 32 bytes is (11.3); none for another length. -/
def decodeRecord (bs : List Byte) : Option Instr :=
  if bs.length = 32 then
    some (commandOf (bs.getD 0 0)
      { flags := bs.getD 3 0, tag := half bs 4, target := half bs 6,
        a := word bs 8, b := word bs 12, c := word bs 16, d := word bs 20 })
  else none

/-- The record software writes for a command, with status, reason, result and reserved word 0 (11.3). -/
def encodeRecord (i : Instr) : Option (List Byte) :=
  (recordOf i).map fun (k, r) =>
    [k, 0, 0, r.flags] ++ bytes16 r.tag ++ bytes16 r.target ++ bytes32 r.a ++ bytes32 r.b ++ bytes32 r.c ++ bytes32 r.d
      ++ bytes32 0 ++ bytes32 0

/-- The command that a table word spells: the table gives no row bits, so no word spells one. -/
def decodeTableWord (_nbits _w : Nat) : Option Instr := none

end Sys2Proof
end

