-- ==== Sys2Proof/Config.lean ====
section
/-! DEFINITION. Config.lean: the fixed numbers of section 0.5 and of the chapters. The manual leaves no value of a running
operation open, so this file holds no open constant. -/

namespace Sys2Proof.Config

/-- Slots, and entries of the index pool (0.5). -/
abbrev slotCount : Nat := 16384

/-- Smallest loop length (0.5, R23). -/
abbrev minLoop : Nat := 64

/-- The RFN limit, 2^32 - 256 (R34). No next RFN passes it, and no frame has this number or above. -/
abbrev rfnLimit : Nat := 4294967040

/-- Clip records (5.1). -/
abbrev clipCount : Nat := 256

/-- Extents one clip record can list (R87). -/
abbrev maxExtents : Nat := 16

/-- Largest lock count of a slot (R3, R9). -/
abbrev maxLocks : Nat := 256

/-- Largest pin count of a slot (R3, R12). -/
abbrev maxPins : Nat := 8

/-- Largest magnitude of a rate (0.5). -/
abbrev maxRate : Nat := 2048

/-- Largest pre-roll and post-roll (R102). -/
abbrev maxRoll : Nat := 1023

/-- One past the last address of either port (0.5). -/
abbrev addrEnd : Nat := 2 ^ 40

/-- Bytes of the control block (R162). -/
abbrev controlSize : Nat := 65536

/-- Windows of the window region (8.3). -/
abbrev windowCount : Nat := 128

/-- Smallest and largest reference period accepted, in microseconds (R119). -/
abbrev minPeriod : Nat := 8000
abbrev maxPeriod : Nat := 50000

/-- Low time of SYNC_IN that makes a pulse, in microseconds (R117). -/
abbrev syncHold : Nat := 2

/-- The no-edge time of LEV, in microseconds (R132). -/
abbrev noEdgeTime : Nat := 25000

/-- Smallest and largest period of a valid lever cycle, in microseconds (R131). -/
abbrev minLever : Nat := 200
abbrev maxLever : Nat := 10000

/-- Valid cycles that restore a faulted lever (R133). -/
abbrev restoreCycles : Nat := 4

/-- Own-request timeout, in microseconds (R160). -/
abbrev ownTimeout : Nat := 1000

/-- Entries of the own-request queue (R157) and pass bursts that may wait (R146). -/
abbrev ownQueueSize : Nat := 32
abbrev passQueueSize : Nat := 32

/-- Further pass bursts a waiting own request may see (R159). -/
abbrev fairness : Nat := 8

/-- Records of the staging FIFO (R177). -/
abbrev fifoSize : Nat := 32

/-- Unconsumed records the event ring can hold (10.2). -/
abbrev eventRoom : Nat := 511

/-- Commands that may be pending in the ring (R165). -/
abbrev ringSize : Nat := 128

/-- Largest value of the lost count, where it saturates (10.2). -/
abbrev lostMax : Nat := 4294967295

/-- The default curve, K0 to K16 (7.1). -/
def defaultKnots : List Nat :=
  [0, 8, 16, 32, 48, 64, 96, 128, 192, 256, 320, 384, 512, 768, 1024, 1536, 2048]

end Sys2Proof.Config
end

