-- ==== Sys2Proof/Machine/State.lean ====
section
/-! DEFINITION. State.lean: every piece of state the manual gives the GH-2416, as plain data, and the state right after reset. -/

namespace Sys2Proof.Machine

/-! ## Outcomes that stop -/

/-- The model's faults. -/
inductive Fault where
  /-- Raised by HEAD_TICK, and by a row in which a head's tick is named, when a pick of R55 or R56, repeated with the bounds read
  again, fails once more with nothing taken in between: the manual then repeats it for ever. Safe: no state that keeps R37 and R88
  shows it. -/
  | pickDoesNotEnd
  deriving DecidableEq, Repr

/-- The model's refusals. -/
inductive Refusal where
  /-- Raised by an arm of `exec` whose command has no meaning yet. Safe. No arm raises it in this model. -/
  | notModelled (mnemonic : String)
  deriving DecidableEq, Repr

/-! ## Codes (11.7) -/

/-- Reasons, shared by command records, event records and close reasons (11.7). -/
inductive Reason where
  | none | badArg | state | overlap | inUse | tableFull | noSource | noClip | order | lockFull | unknownKind | clamp
  | acquired | realigned | reverse | swept | outEnd | inEnd | quick | lever | jog | noEdge | badPeriod | badActive
  | stop | abort | rfnLimit | disengage | badIndex | timeout | mark | quickDone | frameGone | allowance | extents
  | channelStop | command | remark
  deriving DecidableEq, Repr

/-- Event kinds, in the order of their codes (11.7). -/
inductive EventKind where
  | resetDone | eventsLost | controlFault | refLocked | refLost | refGlitch | channelRecording | channelStopped
  | strayWrite | clipOpened | clipClosed | clipDeleted | markRefused | headAtLive | headAtEnd | headLooped
  | panelFault | panelRestored | panelTakeover | headAtTail
  deriving DecidableEq, Repr

/-- Event classes (10.1). -/
inductive EventClass where
  | off | log | logInt
  deriving DecidableEq, Repr

/-- Command statuses (R168). -/
inductive CmdStatus where
  | pending | done | doneClamped | refused
  deriving DecidableEq, Repr

/-! ## Slot table and index pool (chapter 1) -/

/-- State of a slot record (R3). -/
inductive SlotState where
  | empty | recording | held
  deriving DecidableEq, Repr

/-- A slot record (R3). -/
structure Slot where
  state : SlotState := .empty
  rfn   : Nat := 0
  locks : Nat := 0
  pins  : Nat := 0
  deriving DecidableEq, Repr

/-- An entry of the index pool (R14). -/
structure IndexEntry where
  valid : Bool := false
  slot  : Nat := 0
  deriving DecidableEq, Repr

/-! ## Record channels (chapter 2) -/

/-- State of a channel (2.2). -/
inductive ChanState where
  | off | ready | armed | recording | stopping
  deriving DecidableEq, Repr

/-- A channel record (2.1). `phaseSlots` is the phase slot list, entry j the slot of phase j; the empty list is 'all none'. -/
structure Channel where
  state      : ChanState := .off
  firstSlot  : Nat := 0
  len        : Nat := 0
  phases     : Nat := 1
  reserve    : Nat := 0
  cursor     : Nat := 0
  nextRfn    : Nat := 0
  tail       : Nat := 0
  locked     : Nat := 0
  phaseSlots : List Nat := []
  stray      : Bool := false
  deriving DecidableEq, Repr

/-- Cause of a stop notice, and reason of CHANNEL_STOPPED (R33, R34, R26, R27, R42). -/
inductive StopCause where
  | stop | abort | rfnLimit | disengage
  deriving DecidableEq, Repr

/-- What a channel hands the clip manager, in one order (R32). -/
inductive ChanNote where
  | arrival (firstRfn count : Nat)
  | stopped (cause : StopCause)
  deriving DecidableEq, Repr

/-- A stray-write report: phase and offset (R153). -/
structure Stray where
  phase  : Nat
  offset : Nat
  deriving DecidableEq, Repr

/-! ## Play heads (chapter 3) -/

/-- State and source of a head, together (3.1, 3.2). -/
inductive Src where
  | idle
  | live (c : ChanId)
  | clip (k : Nat)
  deriving DecidableEq, Repr

/-- End mode of a head (3.1). -/
inductive EndMode where
  | stop | loop
  deriving DecidableEq, Repr

/-- Owner of a head's target rate (3.5). -/
inductive Owner where
  | command | panel
  deriving DecidableEq, Repr

/-- A displayed frame: the source it was latched from, its channel, RFN and slot (3.1). -/
structure Shown where
  src  : Src
  chan : ChanId
  rfn  : Nat
  slot : Nat
  deriving DecidableEq, Repr

/-- A head record (3.1). `pos` is I*256 + f (R63). -/
structure Head where
  src      : Src := .idle
  endMode  : EndMode := .stop
  pos      : Nat := 0
  rate     : Int := 0
  target   : Int := 0
  slew     : Nat := 32
  owner    : Owner := .command
  goto     : Option Nat := none
  shown    : Option Shown := none
  trailing : Option Nat := none
  atLive   : Bool := false
  atTail   : Bool := false
  atEnd    : Bool := false
  attached : Option Nat := none
  deriving DecidableEq, Repr

/-- A notice of the clip manager to a head (R58). -/
inductive HeadNote where
  | attach (clip : Nat) (src : Src)
  | detach (clip : Nat)
  deriving DecidableEq, Repr

/-- A notice of a port to a head (R130, R134). -/
inductive PortNote where
  | takeover (h : HeadId)
  | portLost (h : HeadId)
  deriving DecidableEq, Repr

/-! ## Clips (chapter 5) -/

/-- State of a clip record (5.1). -/
inductive ClipState where
  | free | opened | closed
  deriving DecidableEq, Repr

/-- An extent: first RFN, first loop position, length (R87). -/
structure Extent where
  rfn : Nat
  pos : Nat
  len : Nat
  deriving DecidableEq, Repr

/-- A clip record (5.1). The id is its number in the table. -/
structure Clip where
  state      : ClipState := .free
  chan       : ChanId := 0
  inF        : Nat := 0
  outF       : Nat := 0
  extents    : List Extent := []
  growing    : Bool := false
  attached   : Option HeadId := none
  quick      : Option Nat := none
  inClamped  : Bool := false
  outClamped : Bool := false
  isQuick    : Bool := false
  isSub      : Bool := false
  tag        : Half := 0
  rating     : Nat := 0
  creation   : Word := 0
  reason     : Reason := .none
  deriving DecidableEq, Repr

/-- Kind of a mark (5.5). -/
inductive MarkKind where
  | markIn | markOut | markQuick
  deriving DecidableEq, Repr

/-- A mark of a key press: its head and kind (R142). -/
structure KeyMark where
  head : HeadId
  kind : MarkKind
  deriving DecidableEq, Repr

/-! ## Reference unit (chapter 6) -/

/-- State of the reference unit (6.3). -/
inductive RefState where
  | absent | locked | flywheel
  deriving DecidableEq, Repr

/-- The reference unit and the SYNC_IN filter (6.2, 6.3). `timer` is the time at which the flywheel timer expires. -/
structure Ref where
  state    : RefState := .absent
  period   : Nat := 0
  measure  : Option Nat := none
  lastTick : Option Nat := none
  timer    : Option Nat := none
  count    : Word := 0
  sync     : Bool := true
  qual     : Option Nat := none
  pulses   : List Nat := []
  deriving DecidableEq, Repr

/-! ## Panel ports (chapter 7) -/

/-- The open lever cycle: time of its active edge, and its active time once the inactive edge has come (7.1). -/
structure LevCycle where
  start  : Nat
  active : Option Nat := none
  deriving DecidableEq, Repr

/-- A jog line: its level, its filtered level, the start of a qualification (R139). -/
structure JogLine where
  level    : Bool := true
  filtered : Bool := true
  qual     : Option Nat := none
  deriving DecidableEq, Repr

/-- A key: the level of its line (low is pressed), its accepted state, the start of a qualification (R141). -/
structure KeyLine where
  level   : Bool := true
  pressed : Bool := false
  qual    : Option Nat := none
  deriving DecidableEq, Repr

/-- A port record (7.1). `noEdge` is the time the no-edge timer was last loaded (R132). -/
structure Port where
  binding         : Option HeadId := none
  lever           : Nat := 512
  fault           : Bool := false
  outside         : Bool := false
  restore         : Nat := 0
  cycle           : Option LevCycle := none
  knots           : List Nat := Config.defaultKnots
  centre          : Nat := 512
  dead            : Nat := 24
  panelSlew       : Nat := 32
  activeLow       : Bool := false
  filter          : Nat := 20
  quartersPerStep : Nat := 4
  outputUnit      : Bool := false
  quarters        : Int := 0
  jog             : Int := 0
  jogErrors       : Nat := 0
  debounce        : Nat := 8
  kin             : KeyLine := {}
  kout            : KeyLine := {}
  kqk             : KeyLine := {}
  ja              : JogLine := {}
  jb              : JogLine := {}
  lev             : Bool := true
  noEdge          : Nat := 0
  deriving DecidableEq, Repr

/-! ## Memory path (chapter 8) -/

/-- A watched word noted at acceptance: which, its value, and whether its four byte enables are set (R156, R163). -/
structure Watched where
  isCmd : Bool
  value : Word
  full  : Bool
  deriving DecidableEq, Repr

/-- A pass burst accepted at the engine port: its number in acceptance order and its form at the store port (R146). -/
structure PassBurst where
  no    : Nat
  dir   : Dir
  addr  : Addr
  beats : Nat
  data  : List WriteByte
  deriving DecidableEq, Repr

/-- A completion at the engine port: direction, status, and the bytes of a read (R146). -/
structure EngineDone where
  dir    : Dir
  status : Status
  data   : List Byte
  deriving DecidableEq, Repr

/-- An accepted burst whose completion the engine port owes: its number, the watched words it carries, and its completion
once it is known (R147, R156). -/
structure Owed where
  no      : Nat
  watched : List Watched
  result  : Option (Status × List Byte)
  deriving DecidableEq, Repr

/-- Requesters of own requests (R157). -/
inductive Requester where
  | startCmd | startEvt | fetch | writeBack | consumerWrite | curve | report | eventRecord | eventProducer
  deriving DecidableEq, Repr

/-- An own request (R157): `beats` is its length in beats of 32 bytes, `data` the bytes of a write's beats with their byte enables
(8.1); `after` is the number of pass bursts accepted before it was queued (R158); `issued` is the time of its issue (R160). -/
structure OwnReq where
  req    : Requester
  dir    : Dir
  addr   : Addr
  beats  : Nat
  data   : List WriteByte := []
  after  : Nat := 0
  issued : Option Nat := none
  deriving DecidableEq, Repr

/-- A burst on the store port: as at the engine port, and whether it is an own request (8.1). -/
structure StoreBurst where
  own   : Bool
  dir   : Dir
  addr  : Addr
  beats : Nat
  data  : List WriteByte
  deriving DecidableEq, Repr

/-- A burst held off at the engine port is the burst as presented (R146). The memory path of chapter 8. -/
structure MemPath where
  active     : Bool := false
  region     : Nat := 0
  slotBase   : Nat := 0
  stride     : Nat := 0
  slate      : Nat := 0
  passQ      : List PassBurst := []
  passOut    : List PassBurst := []
  engReads   : List Owed := []
  engWrites  : List Owed := []
  held       : List Burst := []
  burstNo    : Nat := 0
  ownQ       : List OwnReq := []
  ownWait    : List OwnReq := []
  runCounter : Nat := 0
  engineOut  : List EngineDone := []
  storeOut   : Option StoreBurst := none
  deriving DecidableEq, Repr

/-! ## Command processor (chapter 9) -/

/-- State of the command processor (9.3). -/
inductive ProcState where
  | idle | fetching | executing | writing | halted
  deriving DecidableEq, Repr

/-- The current record: the fields fetched, and the status, reason and result that execution fills in (9.3, 11.3). -/
structure CmdRecord where
  kind   : Byte
  args   : CmdArgs
  status : CmdStatus := .pending
  reason : Reason := .none
  result : Word := 0
  deriving DecidableEq, Repr

/-- The command processor (9.3). `reportFailed` is set when a write of the report in progress has failed (R182, R183). -/
structure Proc where
  state        : ProcState := .idle
  consumer     : Word := 0
  producer     : Word := 0
  halted       : Bool := false
  current      : Option CmdRecord := none
  reportFailed : Bool := false
  deriving DecidableEq, Repr

/-- The start-up writes: outstanding, and failed (R173, R174). -/
structure StartUp where
  cmdWait : Bool := true
  evtWait : Bool := true
  cmdFail : Bool := false
  evtFail : Bool := false
  deriving DecidableEq, Repr

/-! ## Event unit (chapter 10) -/

/-- An event, staged with its class (R177). -/
structure Event where
  kind   : EventKind
  reason : Reason
  obj    : Nat
  aux    : Nat
  value  : Word
  tick   : Word
  cls    : EventClass
  deriving DecidableEq, Repr

/-- The record whose write is outstanding (R178). -/
inductive Writing where
  | resetDone
  | lost (n : Nat) (cls : EventClass)
  | staged
  deriving DecidableEq, Repr

/-- Which write of the event unit is outstanding (R178). -/
inductive EventPhase where
  | idle
  | record (w : Writing)
  | producer
  deriving DecidableEq, Repr

/-- Classes of the event kinds after reset, in the order of `EventKind` (10.1, R175). -/
def defaultClasses : List EventClass :=
  [.logInt, .logInt, .logInt, .logInt, .logInt, .off, .logInt, .logInt, .off, .logInt, .logInt, .logInt, .logInt,
   .log, .log, .log, .log, .log, .log, .log]

/-- The event unit (10.2). `lostDone` says that step 1 of R178 is behind the staged record in hand. -/
structure EventUnit where
  fifo          : List Event := []
  producer      : Word := 0
  consumer      : Word := 0
  seq           : Half := 0
  lost          : Nat := 0
  intFlag       : Bool := false
  producerFault : Bool := false
  classes       : List EventClass := defaultClasses
  phase         : EventPhase := .idle
  resetDone     : Option Event := none
  lostDone      : Bool := false
  deriving DecidableEq, Repr

/-! ## Hand-overs between the blocks -/

/-- What one block has handed another and the other has not taken, oldest first. -/
structure Mail where
  chanTicks : Vector (List Word) 8 := Vector.replicate 8 []
  headTicks : Vector (List Word) 4 := Vector.replicate 4 []
  chanNotes : Vector (List ChanNote) 8 := Vector.replicate 8 []
  strays    : Vector (List Stray) 8 := Vector.replicate 8 []
  toHead    : Vector (List HeadNote) 4 := Vector.replicate 4 []
  fromHead  : Vector (List Nat) 4 := Vector.replicate 4 []
  portNotes : Vector (List PortNote) 2 := Vector.replicate 2 []
  portMarks : Vector (List KeyMark) 2 := Vector.replicate 2 []
  cmdWords  : List Word := []
  evtWords  : List Word := []
  deriving DecidableEq, Repr

end Sys2Proof.Machine

namespace Sys2Proof.Machine

/-- The state of the GH-2416. -/
structure State where
  pending  : List Instr
  now      : Nat
  cbsel    : BitVec 4
  startUp  : StartUp
  mem      : MemPath
  slots    : Tbl Slot
  index    : Tbl IndexEntry
  chans    : Vector Channel 8
  heads    : Vector Head 4
  clips    : Tbl Clip
  preRoll  : Nat
  postRoll : Nat
  ref      : Ref
  ports    : Vector Port 2
  proc     : Proc
  evt      : EventUnit
  mail     : Mail
  deriving DecidableEq, Repr

/-- Byte 0 of the control block, CBSEL * 2^36 (R162). -/
def controlBase (cbsel : BitVec 4) : Addr := cbsel.zeroExtend 40 <<< 36

/-- The one beat that writes 0 to the word `off` bytes above a multiple of 32 (8.1, assumption log 13). -/
def zeroWordBeat (off : Nat) : List WriteByte :=
  List.replicate off { en := false, val := 0 } ++ List.replicate 4 { en := true, val := 0 }
    ++ List.replicate (28 - off) { en := false, val := 0 }

/-- The start-up write of CMD_CONSUMER, control block + 0x4 (R173). -/
def startCmdWrite (cbsel : BitVec 4) : OwnReq :=
  { req := .startCmd, dir := .write, addr := controlBase cbsel, beats := 1, data := zeroWordBeat 0x4 }

/-- The start-up write of EVT_PRODUCER, control block + 0x8 (R173). -/
def startEvtWrite (cbsel : BitVec 4) : OwnReq :=
  { req := .startEvt, dir := .write, addr := controlBase cbsel, beats := 1, data := zeroWordBeat 0x8 }

/-- The machine right after reset: every field at the default its rule gives (R3, R14, R19, R43, R85, R118, R128, R148, R161,
R164, R176), the two start-up writes queued (R173). The straps read 0 and every input line is high (assumption log 6), and
the CMD_CONSUMER write is queued first (assumption log 7). -/
def State.reset : State :=
  { pending := []
    now := 0
    cbsel := 0
    startUp := {}
    mem := { ownQ := [startCmdWrite 0, startEvtWrite 0] }
    slots := []
    index := []
    chans := Vector.replicate 8 {}
    heads := Vector.replicate 4 {}
    clips := []
    preRoll := 60
    postRoll := 60
    ref := {}
    ports := Vector.replicate 2 {}
    proc := {}
    evt := {}
    mail := {} }

end Sys2Proof.Machine
end

