-- ==== Sys2Proof/Machine/Codes.lean ====
section
/-! DEFINITION. Codes.lean: the code tables of 11.7, as numbers. -/

namespace Sys2Proof.Machine

/-- Code of a reason (11.7). -/
def Reason.code : Reason → Nat
  | .none => 0x00
  | .badArg => 0x01
  | .state => 0x02
  | .overlap => 0x03
  | .inUse => 0x04
  | .tableFull => 0x05
  | .noSource => 0x06
  | .noClip => 0x07
  | .order => 0x08
  | .lockFull => 0x09
  | .unknownKind => 0x0A
  | .clamp => 0x0B
  | .acquired => 0x20
  | .realigned => 0x21
  | .reverse => 0x22
  | .swept => 0x23
  | .outEnd => 0x24
  | .inEnd => 0x25
  | .quick => 0x26
  | .lever => 0x27
  | .jog => 0x28
  | .noEdge => 0x29
  | .badPeriod => 0x2A
  | .badActive => 0x36
  | .stop => 0x2B
  | .abort => 0x2C
  | .rfnLimit => 0x2D
  | .disengage => 0x2E
  | .badIndex => 0x2F
  | .timeout => 0x30
  | .mark => 0x31
  | .quickDone => 0x32
  | .frameGone => 0x33
  | .allowance => 0x34
  | .extents => 0x35
  | .channelStop => 0x37
  | .command => 0x38
  | .remark => 0x39

/-- Place of an event kind in the class table; its code is one above (11.7). -/
def EventKind.index : EventKind → Nat
  | .resetDone => 0
  | .eventsLost => 1
  | .controlFault => 2
  | .refLocked => 3
  | .refLost => 4
  | .refGlitch => 5
  | .channelRecording => 6
  | .channelStopped => 7
  | .strayWrite => 8
  | .clipOpened => 9
  | .clipClosed => 10
  | .clipDeleted => 11
  | .markRefused => 12
  | .headAtLive => 13
  | .headAtEnd => 14
  | .headLooped => 15
  | .panelFault => 16
  | .panelRestored => 17
  | .panelTakeover => 18
  | .headAtTail => 19

/-- Code of an event kind (11.7). -/
def EventKind.code (k : EventKind) : Nat := k.index + 1

/-- Number of event kinds (11.7). -/
def eventKindCount : Nat := 20

/-- Code of a class (11.7). -/
def EventClass.code : EventClass → Nat
  | .off => 0
  | .log => 1
  | .logInt => 2

/-- The class of a code; none for a code the table does not list (R185). -/
def EventClass.ofCode : Nat → Option EventClass
  | 0 => some .off
  | 1 => some .log
  | 2 => some .logInt
  | _ => none

/-- Status byte of a command record (11.3). -/
def CmdStatus.code : CmdStatus → Nat
  | .pending => 0
  | .done => 1
  | .doneClamped => 2
  | .refused => 3

/-- Reason of CHANNEL_STOPPED for a stop cause (11.4). -/
def StopCause.reason : StopCause → Reason
  | .stop => .stop
  | .abort => .abort
  | .rfnLimit => .rfnLimit
  | .disengage => .disengage

/-- Close reason of the growing clips a stop notice closes (R110). -/
def StopCause.closeReason : StopCause → Reason
  | .stop => .channelStop
  | .abort => .channelStop
  | .disengage => .channelStop
  | .rfnLimit => .rfnLimit

/-- Mark kind codes (11.7). -/
def MarkKind.code : MarkKind → Nat
  | .markIn => 0
  | .markOut => 1
  | .markQuick => 2

/-- The mark kind of a code (11.7, R93). -/
def MarkKind.ofCode : Nat → Option MarkKind
  | 0 => some .markIn
  | 1 => some .markOut
  | 2 => some .markQuick
  | _ => none

/-- The mark a key sends (R142). -/
def markOfKey : Key → MarkKind
  | .kin => .markIn
  | .kout => .markOut
  | .kqk => .markQuick

/-- CONTROL_FAULT sources (11.7). -/
abbrev srcCmdProducer : Nat := 1
abbrev srcEvtConsumer : Nat := 2
abbrev srcFetch : Nat := 3
abbrev srcWriteBack : Nat := 4
abbrev srcConsumerWrite : Nat := 5
abbrev srcEventIndex : Nat := 6
abbrev srcSnapshotWrite : Nat := 7
abbrev srcQueryWrite : Nat := 8
abbrev srcCurveFetch : Nat := 9

/-- Kind codes of the two reports (11.7), which tell the source of a report fault. -/
abbrev kindClipQuery : Byte := 0x11
abbrev kindSnapshot : Byte := 0x16

end Sys2Proof.Machine
end

