-- ==== Sys2Proof/Machine/Flags.lean ====
section
/-! DEFINITION. Flags.lean: the flag words of the records and events (11.4, 11.6), and the lever's zone test. -/

namespace Sys2Proof.Machine

/-- A flag at a bit place. -/
def bit (b : Bool) (i : Nat) : Nat := if b then 2 ^ i else 0

/-- Head flags: bit 0 at_live, bit 1 at_tail, bit 2 at_end (11.4). -/
def headFlags (atLive atTail atEnd : Bool) : Nat := bit atLive 0 + bit atTail 1 + bit atEnd 2

/-- The head flags of a head record. -/
def Head.flags (h : Head) : Nat := headFlags h.atLive h.atTail h.atEnd

/-- Clip flags: bit 0 IN_CLAMPED, bit 1 OUT_CLAMPED, bit 2 QUICK, bit 3 SUB, bit 4 growing (11.4). -/
def Clip.flags (c : Clip) : Nat :=
  bit c.inClamped 0 + bit c.outClamped 1 + bit c.isQuick 2 + bit c.isSub 3 + bit c.growing 4

/-- Key states: bit 0 KIN, bit 1 KOUT, bit 2 KQK (11.6). -/
def Port.keyFlags (p : Port) : Nat := bit p.kin.pressed 0 + bit p.kout.pressed 1 + bit p.kqk.pressed 2

/-- The lever value lies outside the dead zone (R134). -/
def Port.leverOutside (p : Port) : Bool := decide (p.dead < ((p.lever : Int) - (p.centre : Int)).natAbs)

/-- The lever is at rest: faulted, or inside its dead zone (R63, R135). -/
def Port.atRest (p : Port) : Bool := p.fault || !p.outside

/-- INT_N: low while the interrupt flag is set (R181). -/
def State.intN (s : State) : Bool := !s.evt.intFlag

end Sys2Proof.Machine
end

