-- ==== Sys2Proof/Machine/Ops.lean ====
section
/-! DEFINITION. Ops.lean: the operations every block shares: tables, records and mailboxes, time, raising an event (R177),
queuing and leaving the own-request queue (R157, R160), and the life of one command in the processor (R166 to R170). -/

namespace Sys2Proof

/-! ## Tables -/

/-- The record of number `k`; the default for a number that is not listed. -/
def Tbl.read {α : Type} (d : α) : Tbl α → Nat → α
  | [], _ => d
  | (k', v) :: t, k => if k = k' then v else Tbl.read d t k

/-- The table with a record put in its place by number. -/
def Tbl.put {α : Type} : Tbl α → Nat → α → Tbl α
  | [], k, v => [(k, v)]
  | (k', v') :: t, k, v => if k < k' then (k, v) :: (k', v') :: t else (k', v') :: Tbl.put t k v

/-- The table with record `k` set; a record set to the default is not listed. -/
def Tbl.write {α : Type} [DecidableEq α] (d : α) (t : Tbl α) (k : Nat) (v : α) : Tbl α :=
  if v = d then t.filter (fun e => !decide (e.1 = k)) else Tbl.put (t.filter (fun e => !decide (e.1 = k))) k v

/-- The table with the records `lo` to `lo + n - 1` back at the default. -/
def Tbl.clear {α : Type} (t : Tbl α) (lo n : Nat) : Tbl α := t.filter (fun e => !(decide (lo ≤ e.1) && decide (e.1 < lo + n)))

/-- The one form of a table: numbers strictly rising, no record equal to the default. -/
abbrev Tbl.wf {α : Type} (d : α) (t : Tbl α) : Prop :=
  t.Pairwise (fun a b => a.1 < b.1) ∧ ∀ e ∈ t, e.2 ≠ d

namespace Machine

/-! ## Records and mailboxes -/

/-- The channel numbers, in order. -/
def allChans : List ChanId := [0, 1, 2, 3, 4, 5, 6, 7]

/-- The head numbers, in order. -/
def allHeads : List HeadId := [0, 1, 2, 3]

/-- The port numbers, in order. -/
def allPorts : List PortId := [0, 1]

def State.chan (s : State) (c : ChanId) : Channel := s.chans.get c
def State.head (s : State) (h : HeadId) : Head := s.heads.get h
def State.port (s : State) (p : PortId) : Port := s.ports.get p
def State.slot (s : State) (n : Nat) : Slot := Tbl.read {} s.slots n
def State.entry (s : State) (i : Nat) : IndexEntry := Tbl.read {} s.index i
def State.clip (s : State) (k : Nat) : Clip := Tbl.read {} s.clips k

def State.setChan (s : State) (c : ChanId) (x : Channel) : State := { s with chans := s.chans.set c.val x c.isLt }
def State.setHead (s : State) (h : HeadId) (x : Head) : State := { s with heads := s.heads.set h.val x h.isLt }
def State.setPort (s : State) (p : PortId) (x : Port) : State := { s with ports := s.ports.set p.val x p.isLt }
def State.setSlot (s : State) (n : Nat) (x : Slot) : State := { s with slots := Tbl.write {} s.slots n x }
def State.setEntry (s : State) (i : Nat) (x : IndexEntry) : State := { s with index := Tbl.write {} s.index i x }
def State.setClip (s : State) (k : Nat) (x : Clip) : State := { s with clips := Tbl.write {} s.clips k x }
def State.setMem (s : State) (m : MemPath) : State := { s with mem := m }
def State.setRef (s : State) (r : Ref) : State := { s with ref := r }
def State.setProc (s : State) (p : Proc) : State := { s with proc := p }
def State.setEvt (s : State) (e : EventUnit) : State := { s with evt := e }
def State.setStartUp (s : State) (u : StartUp) : State := { s with startUp := u }
def State.setMail (s : State) (m : Mail) : State := { s with mail := m }

/-- An outside event at timebase count `t`: time never runs back (R116, assumption log 3). -/
def State.setTime (s : State) (t : Nat) : State := { s with now := max s.now t }

/-- A row of mailboxes with one more item in mailbox `i`. -/
def pushAt {α : Type} {n : Nat} (v : Vector (List α) n) (i : Fin n) (x : α) : Vector (List α) n :=
  v.set i.val (v.get i ++ [x]) i.isLt

/-- A row of mailboxes with the oldest item of mailbox `i` taken. -/
def popAt {α : Type} {n : Nat} (v : Vector (List α) n) (i : Fin n) : Vector (List α) n :=
  v.set i.val (v.get i).tail i.isLt

/-- A channel hands the clip manager an arrival or a stop notice (R32). -/
def State.tellClips (s : State) (c : ChanId) (n : ChanNote) : State :=
  s.setMail { s.mail with chanNotes := pushAt s.mail.chanNotes c n }

/-- The clip manager hands a head a notice (R58). -/
def State.tellHead (s : State) (h : HeadId) (n : HeadNote) : State :=
  s.setMail { s.mail with toHead := pushAt s.mail.toHead h n }

/-- A head hands the clip manager a detach notice (R59). -/
def State.tellDetach (s : State) (h : HeadId) (k : Nat) : State :=
  s.setMail { s.mail with fromHead := pushAt s.mail.fromHead h k }

/-- A port hands a head a notice (R129). -/
def State.tellFromPort (s : State) (p : PortId) (n : PortNote) : State :=
  s.setMail { s.mail with portNotes := pushAt s.mail.portNotes p n }

/-! ## Raising events (R177) -/

/-- Class of an event kind. -/
def EventUnit.classOf (e : EventUnit) (k : EventKind) : EventClass := e.classes.getD k.index .off

/-- One event more counted lost; the count saturates (10.2). -/
def EventUnit.countLost (e : EventUnit) : EventUnit := { e with lost := min (e.lost + 1) Config.lostMax }

/-- An event that is not of class OFF joins the FIFO, or is counted lost when the FIFO is full (R177). -/
def EventUnit.stage (e : EventUnit) (x : Event) : EventUnit :=
  match x.cls with
  | .off => e
  | .log | .logInt => if e.fifo.length < Config.fifoSize then { e with fifo := e.fifo ++ [x] } else e.countLost

/-- A block raises an event in its work for the tick of count `tick` (R125, R177). -/
def State.raiseAt (s : State) (k : EventKind) (reason : Reason) (obj aux : Nat) (value tick : Word) : State :=
  s.setEvt (s.evt.stage { kind := k, reason, obj, aux, value, tick, cls := s.evt.classOf k })

/-- A block raises any other event: it carries the tick counter as it stands (R125). -/
def State.raise (s : State) (k : EventKind) (reason : Reason) (obj aux : Nat) (value : Word) : State :=
  s.raiseAt k reason obj aux value s.ref.count

/-- CONTROL_FAULT of a source (11.7). -/
def State.controlFault (s : State) (reason : Reason) (source : Nat) (value : Word) : State :=
  s.raise .controlFault reason 0 source value

/-! ## The own-request queue (R157, R160) -/

/-- A byte of a write beat that the write leaves alone. -/
def byteOff : WriteByte := { en := false, val := 0 }

/-- A byte of a write beat that the write sets. -/
def byteOn (v : Byte) : WriteByte := { en := true, val := v }

/-- An own write of some bytes to address `a`: the beats that hold these bytes, with these bytes enabled and no others (R157, 8.1).
DESIGN CHOICE (assumption log 13): the beats are those at multiples of 32, so that no own write crosses a 4 KiB boundary. -/
def OwnReq.write (q : Requester) (a : Addr) (bytes : List Byte) : OwnReq :=
  let low := a.toNat % 32
  let beats := (low + bytes.length + 31) / 32
  { req := q, dir := .write, addr := a - BitVec.ofNat 40 low, beats
    data := List.replicate low byteOff ++ bytes.map byteOn ++ List.replicate (32 * beats - low - bytes.length) byteOff }

/-- An own read of some beats (R157). -/
def OwnReq.read (q : Requester) (a : Addr) (beats : Nat) : OwnReq := { req := q, dir := .read, addr := a, beats }

/-- A requester queues an own request; where the queue is full it waits (R157). The request is behind every pass burst accepted
so far, as R158 gives. -/
def MemPath.queueOwn (m : MemPath) (r : OwnReq) : MemPath :=
  if m.ownQ.length < Config.ownQueueSize then { m with ownQ := m.ownQ ++ [{ r with after := m.burstNo, issued := none }] }
  else { m with ownWait := m.ownWait ++ [{ r with after := m.burstNo, issued := none }] }

def State.queueOwn (s : State) (r : OwnReq) : State := s.setMem (s.mem.queueOwn r)

/-- Entry `k` leaves the queue, and the oldest waiting request takes a place (R157, R160). -/
def MemPath.leave (m : MemPath) (k : Nat) : MemPath :=
  match m.ownWait with
  | [] => { m with ownQ := m.ownQ.eraseIdx k }
  | r :: rest =>
    if (m.ownQ.eraseIdx k).length < Config.ownQueueSize then
      { m with ownQ := m.ownQ.eraseIdx k ++ [{ r with after := m.burstNo }], ownWait := rest }
    else { m with ownQ := m.ownQ.eraseIdx k }

def State.leaveOwn (s : State) (k : Nat) : State := s.setMem (s.mem.leave k)

/-- The oldest issued own request of a requester (R157). -/
def MemPath.outstanding (m : MemPath) (q : Requester) : Option Nat :=
  m.ownQ.findIdx? (fun r => decide (r.req = q) && r.issued.isSome)

/-- Own request `k` was issued more than 1,000 us ago: it has timed out, and a completion for it comes too late (R160). -/
def State.overdue (s : State) (k : Nat) : Bool :=
  match s.mem.ownQ[k]? with
  | none => false
  | some r => r.issued.any (fun t => decide (t + Config.ownTimeout < s.now))

/-- The own request of a requester completes at the store port, if one is outstanding: it leaves the queue and the requester goes
on with `f` (R157, R160). After the timeout the completion is discarded and the requester is told TIMEOUT, which it handles as a
completion with ERROR (R160, assumption log 5). Nothing outstanding: a completion for it is discarded (R160, R161). -/
def State.ownComplete (s : State) (q : Requester) (st : Status) (f : Status → State → State) : State :=
  match s.mem.outstanding q with
  | none => s
  | some k => f (if s.overdue k then .error else st) (s.leaveOwn k)

/-! ## Index words and ring places (R162) -/

/-- Byte `off` of the control block (R162). -/
def State.control (s : State) (off : Nat) : Addr := controlBase s.cbsel + BitVec.ofNat 40 off

/-- Address of the command record of an index (R162, R166). -/
def State.commandAddr (s : State) (x : Word) : Addr := s.control (0x1000 + 32 * (x.toNat % 128))

/-- Address of the event record of an index (R162, R178). -/
def State.eventAddr (s : State) (x : Word) : Addr := s.control (0x2000 + 16 * (x.toNat % 512))

/-! ## One command in the processor (R166 to R170) -/

/-- Pending: the producer value less the consumer index, modulo 2^32 (9.3). -/
def pendingOf (producer consumer : Word) : Nat := (producer - consumer).toNat

/-- A fetch of the record of the consumer index begins (R166). -/
def State.startFetch (s : State) : State :=
  (s.setProc { s.proc with state := .fetching, current := none }).queueOwn
    (.read .fetch (s.commandAddr s.proc.consumer) 1)

/-- What an owning block answers for a command (R167, R168). -/
structure CmdResult where
  status : CmdStatus
  reason : Reason
  result : Word
  deriving DecidableEq, Repr

/-- DONE with a result word (R168). -/
def CmdResult.done (w : Word) : CmdResult := { status := .done, reason := .none, result := w }

/-- DONE_CLAMPED with reason CLAMP when a value was brought into its range, DONE otherwise (R168). -/
def CmdResult.fitted (clamped : Bool) (w : Word) : CmdResult :=
  if clamped then { status := .doneClamped, reason := .clamp, result := w } else CmdResult.done w

/-- REFUSED with a reason, result 0 (R168). -/
def CmdResult.refused (r : Reason) : CmdResult := { status := .refused, reason := r, result := 0 }

/-- The 32 bytes of a command record, with the given flags byte (11.3). -/
def CmdRecord.bytes (r : CmdRecord) (flags : Byte) : List Byte :=
  [r.kind, BitVec.ofNat 8 r.status.code, BitVec.ofNat 8 r.reason.code, flags] ++ bytes16 r.args.tag ++ bytes16 r.args.target
    ++ bytes32 r.args.a ++ bytes32 r.args.b ++ bytes32 r.args.c ++ bytes32 r.args.d ++ bytes32 r.result ++ bytes32 0

/-- The bytes written back: as fetched, with the outcome, and COMPLETE set in the flags byte (R169). -/
def CmdRecord.writeBackBytes (r : CmdRecord) : List Byte := r.bytes (r.args.flags ||| 1)

/-- The record with its outcome filled in (9.3). -/
def CmdRecord.filled (r : CmdRecord) (o : CmdResult) : CmdRecord :=
  { r with status := o.status, reason := o.reason, result := o.result }

/-- Execution ends: the processor enters WRITING and queues the write-back (R169). -/
def State.endCommand (s : State) (o : CmdResult) : State :=
  match s.proc.current with
  | none => s
  | some r =>
    (s.setProc { s.proc with state := .writing, current := some (r.filled o), reportFailed := false }).queueOwn
      (.write .writeBack (s.commandAddr s.proc.consumer) (r.filled o).writeBackBytes)

/-- The fetch fails: the processor halts (R166). -/
def State.fetchFail (s : State) : State :=
  if s.proc.state = .fetching then
    (s.setProc { s.proc with state := .halted, halted := true, current := none }).controlFault .timeout srcFetch s.proc.consumer
  else s

/-- The processor has a fetch outstanding, and it has not timed out (R160, R166). -/
def State.takesRecord (s : State) : Bool :=
  match s.proc.state, s.mem.outstanding .fetch with
  | .fetching, some k => !s.overdue k
  | _, _ => false

/-- The fetch completes with status GOOD and the processor, then EXECUTING, goes on with `run`; a fetch that has timed out halts it
(R160, R166). Where the processor has no fetch outstanding there is no such completion to take (assumption log 2). -/
def State.fetched (s : State) (kind : Byte) (args : CmdArgs) (run : State → State) : State :=
  match s.proc.state, s.mem.outstanding .fetch with
  | .fetching, some k =>
    if s.overdue k then (s.leaveOwn k).fetchFail
    else
      run ((s.leaveOwn k).setProc { s.proc with state := .executing, current := some { kind, args }, reportFailed := false })
  | _, _ => s

/-- A command that ends at its owning block as one event: fetch, execution, write-back queued (R167). -/
def State.carryOut (s : State) (kind : Byte) (args : CmdArgs) (own : State → State × CmdResult) : State :=
  s.fetched kind args (fun s1 => (own s1).1.endCommand (own s1).2)

/-- A command that may stay in EXECUTING until its own requests have ended (R167). -/
def State.carryOutLong (s : State) (kind : Byte) (args : CmdArgs) (own : State → State × Option CmdResult) : State :=
  s.fetched kind args (fun s1 =>
    match (own s1).2 with
    | none => (own s1).1
    | some o => (own s1).1.endCommand o)

end Machine
end Sys2Proof
end

