-- ==== Sys2Proof/Machine/Operands.lean ====
section
/-! DEFINITION. Operands.lean: how the owning blocks read the target id and the arguments of a command record (9.6, 11.3,
R184, R185). -/

namespace Sys2Proof.Machine

/-- The channel a target id names; none above 7 (R19). -/
def targetChan (r : CmdArgs) : Option ChanId := if h : r.target.toNat < 8 then some ⟨r.target.toNat, h⟩ else none

/-- The head a target id names; none above 3 (R43). -/
def targetHead (r : CmdArgs) : Option HeadId := if h : r.target.toNat < 4 then some ⟨r.target.toNat, h⟩ else none

/-- The port a target id names; none above 1 (R130). -/
def targetPort (r : CmdArgs) : Option PortId := if h : r.target.toNat < 2 then some ⟨r.target.toNat, h⟩ else none

/-- The clip a target id names; none above 255 (R85). -/
def targetClip (r : CmdArgs) : Option Nat := if r.target.toNat < Config.clipCount then some r.target.toNat else none

/-- The channel an argument names; none above 7 (R45). -/
def chanArg (w : Word) : Option ChanId := if h : w.toNat < 8 then some ⟨w.toNat, h⟩ else none

/-- The head an argument names; none above 3 (R130). -/
def headArg (w : Word) : Option HeadId := if h : w.toNat < 4 then some ⟨w.toNat, h⟩ else none

/-- The 40-bit address in arguments A and B: the low 8 bits of B are the high bits, the upper 24 are ignored (9.6, R184). -/
def addrArg (r : CmdArgs) : Addr := (r.b.extractLsb' 0 8 ++ r.a : BitVec (8 + 32))

/-- An address given as a count of MiB (R149). -/
def mibArg (w : Word) : Nat := w.toNat * 2 ^ 20

/-- The nearest value of a range (0.7). -/
def clampNat (lo hi v : Nat) : Nat := if v < lo then lo else if hi < v then hi else v

/-- The nearest value of a range, for signed values (0.7). -/
def clampInt (lo hi v : Int) : Int := if v < lo then lo else if hi < v then hi else v

/-- The next member of 1, 2, 3, 4, 6, 8 at or above a requested phase count, 8 above 8 (R24). -/
def fitPhases (n : Nat) : Nat :=
  if n ≤ 1 then 1 else if n ≤ 4 then n else if n ≤ 6 then 6 else 8

/-- The quarters per step that fit a request (R143). -/
def fitQuarters (n : Nat) : Nat := if n ≤ 1 then 1 else if n = 2 then 2 else 4

end Sys2Proof.Machine
end

