-- ==== Sys2Proof/Machine/Prog.lean ====
section
/-! DEFINITION. Prog.lean: an event that a block takes in several operations, as the operations one by one, so that other blocks'
events can be taken between them (R5, R20, R44, R90, R151, R182). -/

namespace Sys2Proof.Machine

/-- Operations still to be made, with an answer at their end. `op blocks f next`: one operation. It changes the state by `f`, and
what follows it depends on the state it was made in. It is part of an event of each of `blocks`, and waits while another event is
in progress there. `never`: nothing more is ever made, and no answer comes. -/
inductive Prog (α : Type) where
  | done (a : α)
  | never
  | op (blocks : List Agent) (f : State → State) (next : State → Prog α)

/-- One program after another. -/
def Prog.bind {α β : Type} : Prog α → (α → Prog β) → Prog β
  | .done a, g => g a
  | .never, _ => .never
  | .op b f next, g => .op b f (fun s => (next s).bind g)

/-- An operation that changes the state alone. -/
def Prog.act (b : List Agent) (f : State → State) : Prog Unit := .op b f (fun _ => .done ())

/-- An operation that only reads. -/
def Prog.read {α : Type} (b : List Agent) (f : State → Prog α) : Prog α := .op b id f

/-- Operations in turn, one for each item. -/
def Prog.each {ι : Type} (b : ι → List Agent) (f : ι → State → State) : List ι → Prog Unit
  | [] => .done ()
  | i :: is => .op (b i) (f i) (fun _ => Prog.each b f is)

/-- The operations made in turn with nothing between them: the state after them and their answer; none where they have no end. -/
def Prog.run {α : Type} : Prog α → State → Option (State × α)
  | .done a, s => some (s, a)
  | .never, _ => none
  | .op _ f next, s => (next s).run (f s)

/-- The operations on a clip table of their own, `cl` at first: the other blocks read the table as it stood before the event until
its last operation is made (R90). -/
def Prog.onTable {α : Type} : Prog α → Tbl Clip → Prog α
  | .done a, _ => .done a
  | .never, _ => .never
  | .op b f next, cl =>
    .op b
      (fun s =>
        match next { s with clips := cl } with
        | .done _ => f { s with clips := cl }
        | .never | .op _ _ _ => { f { s with clips := cl } with clips := s.clips })
      (fun s => (next { s with clips := cl }).onTable (f { s with clips := cl }).clips)

end Sys2Proof.Machine
end

