-- ==== Sys2Proof/Machine/SlotTable.lean ====
section
/-! DEFINITION. SlotTable.lean: the seven slot operations and the two lookups of chapter 1, and the index clear. -/

namespace Sys2Proof.Machine

/-- Why a slot operation is declined (R5). -/
inductive Cause where
  | noOwner | inRecording | notRecording | notHeld | locked | pinned | noAllowance | atLimit | atZero
  deriving DecidableEq, Repr

/-- Outcome of a slot operation; a take hands back the lost RFN (R5, R6). -/
inductive SlotAnswer where
  | done (lost : Option Nat)
  | declined (c : Cause)
  deriving DecidableEq, Repr

/-- Slot `n` lies in the channel's loop (R2). -/
def Channel.owns (ch : Channel) (n : Nat) : Bool :=
  decide (ch.state ≠ .off) && decide (ch.firstSlot ≤ n) && decide (n < ch.firstSlot + ch.len)

/-- The channel a slot belongs to, read from the loop geometry (R2). -/
def State.ownerOf (s : State) (n : Nat) : Option ChanId := allChans.find? (fun c => (s.chan c).owns n)

/-- Number of the index entry of a frame of a channel (1.9). -/
def Channel.entryOf (ch : Channel) (r : Nat) : Nat := ch.firstSlot + r % ch.len

/-- Take for recording (R6). -/
def State.take (s : State) (n r : Nat) : State × SlotAnswer :=
  if s.ownerOf n = none then (s, .declined .noOwner)
  else if (s.slot n).state = .recording then (s, .declined .inRecording)
  else if (s.slot n).locks ≠ 0 then (s, .declined .locked)
  else if (s.slot n).pins ≠ 0 then (s, .declined .pinned)
  else (s.setSlot n { state := .recording, rfn := r, locks := 0, pins := 0 },
        .done (if (s.slot n).state = .held then some (s.slot n).rfn else none))

/-- The index entry a commit writes: that of the owning channel's loop for the frame (R7). -/
def State.indexCommit (s : State) (n : Nat) : State :=
  match s.ownerOf n with
  | none => s
  | some c => s.setEntry ((s.chan c).entryOf (s.slot n).rfn) { valid := true, slot := n }

/-- Commit (R7). -/
def State.commit (s : State) (n : Nat) : State × SlotAnswer :=
  if (s.slot n).state = .recording then
    ((s.indexCommit n).setSlot n { s.slot n with state := .held }, .done none)
  else (s, .declined .notRecording)

/-- Empty (R8). -/
def State.empty (s : State) (n : Nat) : State × SlotAnswer :=
  match (s.slot n).state with
  | .empty => (s, .done none)
  | .recording => (s.setSlot n {}, .done none)
  | .held =>
    if (s.slot n).locks ≠ 0 then (s, .declined .locked)
    else if (s.slot n).pins ≠ 0 then (s, .declined .pinned)
    else (s.setSlot n {}, .done none)

/-- Room for a new lock in the loop of the slot's owner (R9, 1.7). -/
def State.hasAllowance (s : State) (n : Nat) : Bool :=
  match s.ownerOf n with
  | none => false
  | some c => decide ((s.chan c).locked < (s.chan c).len - (s.chan c).reserve)

/-- The owner's locked count after a slot's lock count has left 0 or come to it (R9, R10). -/
def State.countLocked (s : State) (n : Nat) (f : Nat → Nat) : State :=
  match s.ownerOf n with
  | none => s
  | some c => s.setChan c { s.chan c with locked := f (s.chan c).locked }

/-- Lock (R9). -/
def State.lock (s : State) (n r : Nat) : State × SlotAnswer :=
  if (s.slot n).state ≠ .held ∨ (s.slot n).rfn ≠ r then (s, .declined .notHeld)
  else if Config.maxLocks ≤ (s.slot n).locks then (s, .declined .atLimit)
  else if (s.slot n).locks = 0 then
    if s.hasAllowance n then
      ((s.countLocked n (· + 1)).setSlot n { s.slot n with locks := 1 }, .done none)
    else (s, .declined .noAllowance)
  else (s.setSlot n { s.slot n with locks := (s.slot n).locks + 1 }, .done none)

/-- Unlock (R10). -/
def State.unlock (s : State) (n : Nat) : State × SlotAnswer :=
  if (s.slot n).locks = 0 then (s, .declined .atZero)
  else if (s.slot n).locks = 1 then
    ((s.countLocked n (· - 1)).setSlot n { s.slot n with locks := 0 }, .done none)
  else (s.setSlot n { s.slot n with locks := (s.slot n).locks - 1 }, .done none)

/-- Pin (R12). -/
def State.pin (s : State) (n r : Nat) : State × SlotAnswer :=
  if (s.slot n).state ≠ .held ∨ (s.slot n).rfn ≠ r then (s, .declined .notHeld)
  else if Config.maxPins ≤ (s.slot n).pins then (s, .declined .atLimit)
  else (s.setSlot n { s.slot n with pins := (s.slot n).pins + 1 }, .done none)

/-- Unpin (R13). -/
def State.unpin (s : State) (n : Nat) : State × SlotAnswer :=
  if (s.slot n).pins = 0 then (s, .declined .atZero)
  else (s.setSlot n { s.slot n with pins := (s.slot n).pins - 1 }, .done none)

/-- Unpin a slot a head names, if any (R48, R54, R62). -/
def State.unpinIf (s : State) (o : Option Nat) : State :=
  match o with
  | none => s
  | some n => (s.unpin n).1

/-- Slot `n` is HELD with frame `r`. -/
def State.holds (s : State) (n r : Nat) : Bool := decide ((s.slot n).state = .held) && decide ((s.slot n).rfn = r)

/-- Index lookup: the slot of frame `r`, or ABSENT (R15). -/
def State.indexLookup (s : State) (c : ChanId) (r : Nat) : Option Nat :=
  if (s.chan c).state = .off then none
  else if (s.entry ((s.chan c).entryOf r)).valid && s.holds (s.entry ((s.chan c).entryOf r)).slot r then
    some (s.entry ((s.chan c).entryOf r)).slot
  else none

/-- Position lookup: the slot of loop position `p`, when it holds frame `r` (R16). -/
def State.positionLookup (s : State) (c : ChanId) (p r : Nat) : Option Nat :=
  if (s.chan c).state = .off then none
  else if s.holds ((s.chan c).firstSlot + p % (s.chan c).len) r then some ((s.chan c).firstSlot + p % (s.chan c).len)
  else none

/-- Index clear of the entries `lo` to `lo + n - 1` (R17). -/
def State.indexClear (s : State) (lo n : Nat) : State := { s with index := Tbl.clear s.index lo n }

/-- Each of the slots is emptied in turn (R27, R28, R42). -/
def State.emptyAll (s : State) (ns : List Nat) : State := ns.foldl (fun t n => (t.empty n).1) s

/-- Each of the slots is unlocked in turn (R92, R112). -/
def State.unlockEach (s : State) (ns : List Nat) : State := ns.foldl (fun t n => (t.unlock n).1) s

/-- Each of the slots is committed in turn (R31). -/
def State.commitAll (s : State) (ns : List Nat) : State := ns.foldl (fun t n => (t.commit n).1) s

end Sys2Proof.Machine
end

