-- ==== Sys2Proof/Machine/Channels.lean ====
section
/-! DEFINITION. Channels.lean: the record channels of chapter 2: setup, arm, stop, abort, clear, the tick with its commit and
allocation walk, the stray-write report. -/

namespace Sys2Proof.Machine

/-! ## The tick -/

/-- The tail rule for a lost RFN (R36). -/
def State.moveTail (s : State) (c : ChanId) (n : Nat) (lost : Option Nat) : State :=
  match lost with
  | none => s
  | some q =>
    if (s.chan c).tail ≤ q ∧ q < (s.chan c).nextRfn ∧ s.entry ((s.chan c).entryOf q) = { valid := true, slot := n } then
      s.setChan c { s.chan c with tail := q + 1 }
    else s

/-- The allocation walk from loop position `pos` (R35): `need` are the RFNs still without a slot, `got` the slots taken. -/
def walk : (fuel : Nat) → ChanId → (fresh : List Nat) → (pos : Nat) → (need got : List Nat) → State → State × List Nat
  | 0, _, _, _, _, got, s => (s, got)
  | _ + 1, _, _, _, [], got, s => (s, got)
  | fuel + 1, c, fresh, pos, r :: rs, got, s =>
    if (s.chan c).firstSlot + pos ∈ fresh then
      walk fuel c fresh ((pos + 1) % (s.chan c).len) (r :: rs) got s
    else
      match s.take ((s.chan c).firstSlot + pos) r with
      | (t, .done lost) =>
        walk fuel c fresh ((pos + 1) % (s.chan c).len) rs (got ++ [(s.chan c).firstSlot + pos])
          ((t.moveTail c ((s.chan c).firstSlot + pos) lost).setChan c
            { (t.moveTail c ((s.chan c).firstSlot + pos) lost).chan c with cursor := (pos + 1) % (s.chan c).len })
      | (t, .declined _) => walk fuel c fresh ((pos + 1) % (s.chan c).len) (r :: rs) got t

/-- The RFNs of the next period (R35). -/
def Channel.period (ch : Channel) : List Nat := (List.range ch.phases).map (ch.nextRfn + ·)

/-- Allocation of the next period: one circuit at most, the fresh slots passed over; the list replaces the old one (R35). -/
def State.allocate (s : State) (c : ChanId) (fresh : List Nat) : State :=
  (walk (s.chan c).len c fresh (s.chan c).cursor (s.chan c).period [] s).1.setChan c
    { (walk (s.chan c).len c fresh (s.chan c).cursor (s.chan c).period [] s).1.chan c with
      phaseSlots := (walk (s.chan c).len c fresh (s.chan c).cursor (s.chan c).period [] s).2 }

/-- Commit of the period just ended: its slots become HELD, next RFN rises by P, and the arrival is handed on (R31, R32). -/
def State.commitPeriod (s : State) (c : ChanId) : State :=
  ((s.commitAll (s.chan c).phaseSlots).setChan c
    { (s.commitAll (s.chan c).phaseSlots).chan c with nextRfn := (s.chan c).nextRfn + (s.chan c).phases }).tellClips c
      (.arrival (s.chan c).nextRfn (s.chan c).phases)

/-- The channel's recording ends: the list becomes all none, the state READY, CHANNEL_STOPPED is posted with the given tick
count, and the clip manager is handed a stop notice (R26, R27, R33, R34, R42). -/
def State.endRecording (s : State) (c : ChanId) (cause : StopCause) (tick : Word) : State :=
  ((s.setChan c { s.chan c with phaseSlots := [], state := .ready }).raiseAt .channelStopped cause.reason c.val 0
    (BitVec.ofNat 32 (s.chan c).nextRfn) tick).tellClips c (.stopped cause)

/-- The next period's last frame would reach the RFN limit (R25, R34). -/
def Channel.atLimit (ch : Channel) : Bool := decide (Config.rfnLimit ≤ ch.nextRfn + ch.phases - 1)

/-- The channel's work for the tick of count `t`, by its state (R29 to R34). -/
def State.tickChannel (s : State) (c : ChanId) (t : Word) : State :=
  let s := s.setChan c { s.chan c with stray := false }
  match (s.chan c).state with
  | .off => s
  | .ready => s
  | .armed =>
    let s1 := s.allocate c []
    (s1.setChan c { s1.chan c with state := .recording }).raiseAt .channelRecording .none c.val (s.chan c).phases
      (BitVec.ofNat 32 (s.chan c).nextRfn) t
  | .recording =>
    let s1 := s.commitPeriod c
    if (s1.chan c).atLimit then s1.endRecording c .rfnLimit t
    else s1.allocate c (s.chan c).phaseSlots
  | .stopping => (s.commitPeriod c).endRecording c .stop t

/-- The channel takes its oldest waiting tick (R126); nothing waits: nothing is taken. -/
def State.channelTick (s : State) (c : ChanId) : State :=
  match s.mail.chanTicks.get c with
  | [] => s
  | t :: _ => (s.setMail { s.mail with chanTicks := popAt s.mail.chanTicks c }).tickChannel c t

/-- CHANNEL_TICK (R29 to R36). -/
def execChannelTick (c : ChanId) (s : State) : Host.Outcome State Fault Refusal := .next (s.channelTick c)

/-! ## The stray-write report -/

/-- The channel takes its oldest stray-write report: the first of the period sets the flag and posts STRAY_WRITE (R41). -/
def State.strayReport (s : State) (c : ChanId) : State :=
  match s.mail.strays.get c with
  | [] => s
  | x :: _ =>
    let s1 := s.setMail { s.mail with strays := popAt s.mail.strays c }
    if (s1.chan c).stray then s1
    else (s1.setChan c { s1.chan c with stray := true }).raise .strayWrite .none c.val x.phase (BitVec.ofNat 32 x.offset)

/-- STRAY_WRITE_REPORT (R41). -/
def execStrayWriteReport (c : ChanId) (s : State) : Host.Outcome State Fault Refusal := .next (s.strayReport c)

/-! ## Channel commands -/

/-- Some clip of the channel is OPEN or CLOSED (R21, R28). -/
def State.hasClip (s : State) (c : ChanId) : Bool :=
  (List.range Config.clipCount).any (fun k => decide ((s.clip k).state ≠ .free) && decide ((s.clip k).chan = c))

/-- Some head is sourced LIVE on the channel (R21, R28). -/
def State.hasLiveHead (s : State) (c : ChanId) : Bool := allHeads.any (fun h => decide ((s.head h).src = .live c))

/-- The slots of the channel's loop, in loop order. -/
def Channel.loopSlots (ch : Channel) : List Nat := (List.range ch.len).map (ch.firstSlot + ·)

/-- CHANNEL_SETUP may be taken (R21). -/
def State.mayResetLoop (s : State) (c : ChanId) : Bool :=
  match (s.chan c).state with
  | .off => true
  | .ready =>
    decide ((s.chan c).nextRfn = 0) && decide ((s.chan c).tail = 0) &&
      (s.chan c).loopSlots.all (fun n => decide ((s.slot n).state = .empty)) && !s.hasClip c && !s.hasLiveHead c
  | .armed => false
  | .recording => false
  | .stopping => false

/-- A loop of `n` slots from `f` meets the loop of another channel that is not OFF (R23). -/
def State.loopOverlaps (s : State) (c : ChanId) (f n : Nat) : Bool :=
  allChans.any (fun d => decide (d ≠ c) && decide ((s.chan d).state ≠ .off) &&
    decide (f < (s.chan d).firstSlot + (s.chan d).len) && decide ((s.chan d).firstSlot < f + n))

/-- CHANNEL_SETUP at its channel (R21 to R24). -/
def channelSetup (r : CmdArgs) (s : State) : State × CmdResult :=
  match targetChan r with
  | none => (s, .refused .badArg)
  | some c =>
    if !s.mayResetLoop c then (s, .refused .state)
    else if r.b.toNat = 0 then
      (s.setChan c { s.chan c with state := .off, firstSlot := 0, len := 0, reserve := 0, cursor := 0, nextRfn := 0, tail := 0,
                                   phases := 1, phaseSlots := [] }, .done 0)
    else if r.b.toNat < Config.minLoop ∨ Config.slotCount < r.b.toNat ∨ Config.slotCount < r.a.toNat + r.b.toNat then
      (s, .refused .badArg)
    else if s.loopOverlaps c r.a.toNat r.b.toNat then (s, .refused .overlap)
    else
      let p := fitPhases r.c.toNat
      let v := clampNat (2 * p + 8) (r.b.toNat / 2) r.d.toNat
      ((s.indexClear r.a.toNat r.b.toNat).setChan c
        { s.chan c with state := .ready, firstSlot := r.a.toNat, len := r.b.toNat, phases := p, reserve := v, cursor := 0,
                        nextRfn := 0, tail := 0, phaseSlots := [] },
       .fitted (decide (p ≠ r.c.toNat) || decide (v ≠ r.d.toNat)) (BitVec.ofNat 32 v))

/-- CHANNEL_ARM at its channel (R25). -/
def channelArm (r : CmdArgs) (s : State) : State × CmdResult :=
  match targetChan r with
  | none => (s, .refused .badArg)
  | some c =>
    let ch := s.chan c
    if !s.mem.active then (s, .refused .state)
    else if ch.atLimit then (s, .refused .state)
    else match ch.state with
      | .off => (s, .refused .state)
      | .ready => (s.setChan c { ch with state := .armed }, .done (BitVec.ofNat 32 ch.nextRfn))
      | .armed => (s, .done (BitVec.ofNat 32 ch.nextRfn))
      | .recording => (s, .done (BitVec.ofNat 32 ch.nextRfn))
      | .stopping => (s.setChan c { ch with state := .recording }, .done (BitVec.ofNat 32 ch.nextRfn))

/-- CHANNEL_STOP at its channel (R26). -/
def channelStop (r : CmdArgs) (s : State) : State × CmdResult :=
  match targetChan r with
  | none => (s, .refused .badArg)
  | some c =>
    let ch := s.chan c
    match ch.state with
    | .off => (s, .refused .state)
    | .ready => (s, .done (BitVec.ofNat 32 ch.nextRfn))
    | .armed => (s.endRecording c .stop s.ref.count, .done (BitVec.ofNat 32 ch.nextRfn))
    | .recording => (s.setChan c { ch with state := .stopping }, .done (BitVec.ofNat 32 ch.nextRfn))
    | .stopping => (s, .done (BitVec.ofNat 32 ch.nextRfn))

/-- The channel is ARMED, RECORDING or STOPPING (R27, R42). -/
def Channel.busy (ch : Channel) : Bool :=
  match ch.state with
  | .off => false
  | .ready => false
  | .armed => true
  | .recording => true
  | .stopping => true

/-- Recording ends at once: the slots of the list are emptied (R27, R42). -/
def State.abortChannel (s : State) (c : ChanId) (cause : StopCause) : State :=
  (s.emptyAll (s.chan c).phaseSlots).endRecording c cause s.ref.count

/-- CHANNEL_ABORT at its channel (R27). -/
def channelAbort (r : CmdArgs) (s : State) : State × CmdResult :=
  match targetChan r with
  | none => (s, .refused .badArg)
  | some c =>
    if (s.chan c).state = .off then (s, .refused .state)
    else (if (s.chan c).busy then s.abortChannel c .abort else s, .done (BitVec.ofNat 32 (s.chan c).nextRfn))

/-- CHANNEL_CLEAR may be taken (R28). DESIGN CHOICE (assumption log 30): the check is that of R28, which names no locks, so it passes
over slots that a mark still in the making has locked already; their empties are declined. -/
def State.mayClear (s : State) (c : ChanId) : Bool :=
  decide ((s.chan c).state = .ready) && !s.hasClip c && !s.hasLiveHead c &&
    (s.chan c).loopSlots.all (fun n => decide ((s.slot n).pins = 0))

/-- The channel's record after a clear (R28 step 3). -/
def State.clearRecord (s : State) (c : ChanId) : State :=
  s.setChan c { s.chan c with nextRfn := 0, tail := 0, cursor := 0 }

/-- CHANNEL_CLEAR at its channel, operation by operation: the check, the slots emptied one by one, the index entries cleared, the
record (R28). A slot that a clip in the making has locked, before the check or since (assumption log 30), declines its empty and
stays HELD (R8). -/
def channelClear (r : CmdArgs) : Prog CmdResult :=
  match targetChan r with
  | none => .done (.refused .badArg)
  | some c =>
    .read [.channel c] (fun s =>
      if !s.mayClear c then .done (.refused .inUse)
      else
        (Prog.each (fun _ => [.channel c]) (fun n u => (u.empty n).1) (s.chan c).loopSlots).bind (fun _ =>
          .op [.channel c] (fun u => u.indexClear (s.chan c).firstSlot (s.chan c).len) (fun _ =>
            .op [.channel c] (fun u => u.clearRecord c) (fun _ =>
              .done (.done (BitVec.ofNat 32 ((s.chan c).nextRfn - (s.chan c).tail)))))))

/-- CHANNEL_SETUP (R21 to R24). -/
def execChannelSetup (r : CmdArgs) (s : State) : Host.Outcome State Fault Refusal := .next (s.carryOut 0x04 r (channelSetup r))

/-- CHANNEL_ARM (R25). -/
def execChannelArm (r : CmdArgs) (s : State) : Host.Outcome State Fault Refusal := .next (s.carryOut 0x05 r (channelArm r))

/-- CHANNEL_STOP (R26). -/
def execChannelStop (r : CmdArgs) (s : State) : Host.Outcome State Fault Refusal := .next (s.carryOut 0x06 r (channelStop r))

/-- CHANNEL_ABORT (R27). -/
def execChannelAbort (r : CmdArgs) (s : State) : Host.Outcome State Fault Refusal := .next (s.carryOut 0x07 r (channelAbort r))

end Sys2Proof.Machine
end

