-- ==== Sys2Proof/Machine/Motion.lean ====
section
/-! DEFINITION. Motion.lean: the motion computation of chapter 4, in exact integers, and the lever target of 7.5 that it uses. -/

namespace Sys2Proof.Machine

/-! ## The lever target (R135) -/

/-- Magnitude of the lever target `m` steps outside the dead zone (R135 steps 2 and 3). -/
def curveAt (knots : List Nat) (m : Nat) : Int :=
  if m / 32 = 16 then (knots.getD 16 0 : Int)
  else (knots.getD (m / 32) 0 : Int) + (((knots.getD (m / 32 + 1) 0 : Int) - (knots.getD (m / 32) 0 : Int)) * (m % 32 : Nat)) / 32

/-- The lever target: 0 at rest, else the curve's magnitude with the sign of u - c (R135). -/
def Port.leverTarget (p : Port) : Int :=
  if p.atRest then 0
  else
    let delta : Int := (p.lever : Int) - (p.centre : Int)
    let mag := curveAt p.knots (min (delta.natAbs - p.dead) 512)
    if delta < 0 then -mag else mag

/-! ## Inputs (R63) -/

/-- What a head takes from its port at its tick (R54, R63). `port` is the port's number, for PANEL_TAKEOVER. -/
structure PanelInput where
  port       : Nat := 0
  steps      : Int := 0
  atRest     : Bool := true
  target     : Int := 0
  slew       : Nat := 0
  outputUnit : Bool := false
  deriving DecidableEq, Repr

/-- The bounds of a head's source as read (4.5). -/
inductive View where
  | liveEmpty (tail : Nat)
  | live (tail newest : Nat)
  | opened (lo hi : Nat)
  | stopAt (lo hi : Nat)
  | loopOver (lo hi : Nat)
  deriving DecidableEq, Repr

/-- What the candidate position came from (4.1). -/
inductive Origin where
  | advance | goto | jog
  deriving DecidableEq, Repr

/-- The computation before the bounds step: owner, T, R, the candidate, its origin and the tick rate (4.1 to 4.4). -/
structure Moved where
  owner    : Owner
  target   : Int
  rate     : Int
  cand     : Int
  origin   : Origin
  tickRate : Int
  deriving DecidableEq, Repr

/-- The bounds step's answer (4.5, 4.6): position, R, T, flags, the displayed frame and the event it would post. -/
structure Fit where
  pos    : Nat
  rate   : Int
  target : Int
  atLive : Bool
  atTail : Bool
  atEnd  : Bool
  frame  : Option Nat
  event  : Option (EventKind × Reason × Nat)
  deriving DecidableEq, Repr

/-! ## Target, goto, jog, slew, advance (R64 to R68) -/

/-- R moved toward T by at most the slew (R67). -/
def slewToward (target rate : Int) (slew : Nat) : Int :=
  if (target - rate).natAbs ≤ slew then target else if rate < target then rate + slew else rate - slew

/-- The jog takeover's condition (R52). -/
def Head.jogTakeover (h : Head) (i : PanelInput) : Bool :=
  decide (h.owner = .command) && decide (i.steps ≠ 0) && i.atRest && decide (h.rate = 0)

/-- Steps 1 to 4 of the computation, after the jog takeover (R64 to R68). -/
def Head.move (h : Head) (i : PanelInput) (phases : Nat) : Moved :=
  let owner := if h.jogTakeover i then .panel else h.owner
  let target := match owner with
    | .panel => i.target
    | .command => h.target
  let slew := match owner with
    | .panel => i.slew
    | .command => h.slew
  match h.goto with
  | some g => { owner, target := 0, rate := 0, cand := (g * 256 : Nat), origin := .goto, tickRate := 0 }
  | none =>
    if owner = .panel ∧ i.atRest ∧ h.rate = 0 ∧ i.steps ≠ 0 then
      { owner, target := target, rate := 0,
        cand := ((h.pos / 256 : Nat) + i.steps * (if i.outputUnit then (phases : Int) else 1)) * 256,
        origin := .jog, tickRate := 0 }
    else
      let rate := slewToward target h.rate slew
      { owner, target, rate, cand := (h.pos : Int) + rate * phases, origin := .advance, tickRate := rate }

/-! ## Bounds, flags and entry events (R69 to R80) -/

/-- T after a stop or a reverse clamp: 0 for a COMMAND owner, kept for a PANEL owner (R71, R74). -/
def stoppedTarget (owner : Owner) (target : Int) : Int :=
  match owner with
  | .command => 0
  | .panel => target

/-- at_live that stays set: within P frames of live (R78). -/
def staysLive (before : Head) (pos newest phases : Nat) : Bool :=
  before.atLive && decide (newest * 256 ≤ pos + phases * 256)

/-- at_tail that stays set: within P frames of the lower bound (R78). -/
def staysTail (before : Head) (pos lo phases : Nat) : Bool :=
  before.atTail && decide (pos ≤ lo * 256 + phases * 256)

/-- The clamp at the lower bound of a LIVE source or an OPEN clip (R71, R73). -/
def fitLow (before : Head) (m : Moved) (rate target : Int) (lo : Nat) (live : Bool) (newest phases : Nat) : Fit :=
  { pos := lo * 256
    rate := if m.tickRate < 0 then 0 else rate
    target := if m.tickRate < 0 then stoppedTarget m.owner target else target
    atLive := live && staysLive before (lo * 256) newest phases
    atTail := true
    atEnd := false
    frame := some lo
    event := if before.atTail then none else some (.headAtTail, if m.tickRate < 0 then .reverse else .swept, lo) }

/-- The stop at an end of a CLOSED clip in STOP mode (R74, R79). -/
def fitStop (before : Head) (m : Moved) (target : Int) (o : Nat) (why : Reason) : Fit :=
  { pos := o * 256
    rate := 0
    target := stoppedTarget m.owner target
    atLive := false
    atTail := false
    atEnd := true
    frame := some o
    event := if before.atEnd ∧ before.shown.map (·.rfn) = some o then none else some (.headAtEnd, why, o) }

/-- One bounds step on candidate `cand` with R and T as they stand (R69 to R76). `before` is the head at the start of the
tick, whose flags and displayed frame decide the flags and the entry events (R78, R79). -/
def boundsStep (v : View) (phases : Nat) (before : Head) (m : Moved) (cand rate target : Int) : Fit :=
  match v with
  | .liveEmpty tail =>
    { pos := tail * 256, rate, target, atLive := false, atTail := false, atEnd := false, frame := none, event := none }
  | .live tail newest =>
    if (newest * 256 : Nat) < cand then
      { pos := newest * 256, rate, target, atLive := true, atTail := staysTail before (newest * 256) tail phases,
        atEnd := false, frame := some newest, event := if before.atLive then none else some (.headAtLive, .none, newest) }
    else if cand < (tail * 256 : Nat) then fitLow before m rate target tail true newest phases
    else
      { pos := cand.toNat, rate, target, atLive := staysLive before cand.toNat newest phases,
        atTail := staysTail before cand.toNat tail phases, atEnd := false, frame := some (cand.toNat / 256), event := none }
  | .opened lo hi =>
    if (hi * 256 : Nat) < cand then
      { pos := hi * 256, rate, target, atLive := false, atTail := staysTail before (hi * 256) lo phases, atEnd := false,
        frame := some hi, event := none }
    else if cand < (lo * 256 : Nat) then fitLow before m rate target lo false 0 phases
    else
      { pos := cand.toNat, rate, target, atLive := false, atTail := staysTail before cand.toNat lo phases, atEnd := false,
        frame := some (cand.toNat / 256), event := none }
  | .stopAt lo hi =>
    if (hi * 256 + 255 : Nat) < cand then fitStop before m target hi .outEnd
    else if cand < (lo * 256 : Nat) then fitStop before m target lo .inEnd
    else
      { pos := cand.toNat, rate, target, atLive := false, atTail := false,
        atEnd := before.atEnd && (decide (cand.toNat / 256 = lo) || decide (cand.toNat / 256 = hi)),
        frame := some (cand.toNat / 256), event := none }
  | .loopOver lo hi =>
    let fit (pos : Nat) (event : Option (EventKind × Reason × Nat)) : Fit :=
      { pos, rate, target, atLive := false, atTail := false, atEnd := false, frame := some (pos / 256), event }
    let wrapped := ((lo * 256 : Nat) + (cand - (lo * 256 : Nat)) % (((hi : Int) - lo + 1) * 256)).toNat
    if (hi * 256 + 255 : Nat) < cand then
      match m.origin with
      | .goto => fit (hi * 256) none
      | .advance => fit wrapped (some (.headLooped, .outEnd, wrapped / 256))
      | .jog => fit wrapped (some (.headLooped, .outEnd, wrapped / 256))
    else if cand < (lo * 256 : Nat) then
      match m.origin with
      | .goto => fit (lo * 256) none
      | .advance => fit wrapped (some (.headLooped, .inEnd, wrapped / 256))
      | .jog => fit wrapped (some (.headLooped, .inEnd, wrapped / 256))
    else fit cand.toNat none

/-- The bounds of a source as it stands (R63); an IDLE head has none. -/
def State.viewOf (s : State) (src : Src) (e : EndMode) : View :=
  match src with
  | .idle => .liveEmpty 0
  | .live c =>
    if (s.chan c).nextRfn = (s.chan c).tail then .liveEmpty (s.chan c).tail
    else .live (s.chan c).tail ((s.chan c).nextRfn - 1)
  | .clip k =>
    if (s.clip k).state = .opened then .opened (s.clip k).inF (s.clip k).outF
    else
      match e with
      | .stop => .stopAt (s.clip k).inF (s.clip k).outF
      | .loop => .loopOver (s.clip k).inF (s.clip k).outF

/-- What a head reads of its source at one moment: the bounds, and of a clip its extents with them (R56, R63). -/
structure Sight where
  view    : View
  extents : List Extent
  deriving DecidableEq, Repr

/-- The source of a head as it stands (R63). -/
def State.sightOf (s : State) (src : Src) (e : EndMode) : Sight :=
  { view := s.viewOf src e
    extents := match src with
      | .idle => []
      | .live _ => []
      | .clip k => (s.clip k).extents }

/-- Channel of a source: the channel itself, or the clip's (R63). -/
def State.chanOf (s : State) (src : Src) : ChanId :=
  match src with
  | .idle => 0
  | .live c => c
  | .clip k => (s.clip k).chan

end Sys2Proof.Machine
end

