-- ==== Sys2Proof/Machine/HeadTick.lean ====
section
/-! DEFINITION. HeadTick.lean: the tick of a play head (R54 to R56), operation by operation. -/

namespace Sys2Proof.Machine

/-! ## What the head takes from its port (R54, R63) -/

/-- The port bound to a head (R130). -/
def State.boundPort (s : State) (h : HeadId) : Option PortId := allPorts.find? (fun p => decide ((s.port p).binding = some h))

/-- A port whose port-lost notice for the head still waits (R53). DESIGN CHOICE (assumption log 15): where the notices of both ports
wait for a head that no port holds, this is the port of the lower number, PA; R64 does not say whose lever such a head reads. -/
def State.leavingPort (s : State) (h : HeadId) : Option PortId :=
  allPorts.find? (fun p => decide (PortNote.portLost h ∈ s.mail.portNotes.get p))

/-- What a port answers a head's tick request, with the given steps (R63, R135). -/
def Port.answer (pt : Port) (p : PortId) (steps : Int) : PanelInput :=
  { port := p.val, steps, atRest := pt.atRest, target := pt.leverTarget, slew := pt.panelSlew, outputUnit := pt.outputUnit }

/-- What a head takes from its port at its tick (R54, R63). DESIGN CHOICE (assumption log 15): a head that a port holds reads that
port, also where the port-lost notice of another port still waits, as when PANEL_BIND has moved the head to it: R61 names the
lost port there, R63, R64 and R135 the bound one. A head no port holds any longer, whose notice still waits, reads the lost
port's lever with no steps. -/
def State.panelInput (s : State) (h : HeadId) : PanelInput :=
  match s.boundPort h with
  | some p => (s.port p).answer p (s.port p).jog
  | none =>
    match s.leavingPort h with
    | some p => (s.port p).answer p 0
    | none => { slew := (s.head h).slew }

/-- The head's tick request clears its port's accumulator (R138). -/
def State.clearJog (s : State) (h : HeadId) : State :=
  match s.boundPort h with
  | none => s
  | some p => s.setPort p { s.port p with jog := 0 }

/-! ## The pick (R55, R56, R87) -/

/-- The extent covers frame `r` (R87). -/
def Extent.covers (e : Extent) (r : Nat) : Bool := decide (e.rfn ≤ r) && decide (r < e.rfn + e.len)

/-- Loop position that the extents give frame `r`; none when no extent covers it (R87, R56). -/
def positionOf (es : List Extent) (len r : Nat) : Option Nat :=
  (es.find? (fun e => e.covers r)).map (fun e => (e.pos + (r - e.rfn)) % len)

/-- Where the pick looks for frame `d` of a source, by the extents read with its bounds (R55, R56). -/
def State.locateShown (s : State) (src : Src) (es : List Extent) (d : Nat) : Option Nat :=
  match src with
  | .idle => none
  | .live c => s.indexLookup c d
  | .clip k =>
    match positionOf es (s.chan (s.clip k).chan).len d with
    | none => none
    | some p => s.positionLookup (s.clip k).chan p d

/-- The bounds step of a repeat: the source is read again, and the step is applied to the position the last one left, with R and T
as it left them and the tick rate unchanged (R55, R56, R77). -/
def State.refit (s : State) (before : Head) (m : Moved) (f : Fit) : Sight × Fit :=
  let v := s.sightOf before.src before.endMode
  (v, boundsStep v.view (s.chan (s.chanOf before.src)).phases before m f.pos f.rate f.target)

/-- The pick of head `h` within the bounds just read: the lookup, the pin, and the bounds read again where either fails (R55, R56).
Answered are the last bounds step and the frame latched, or no frame for an empty loop. `fuel` bounds the repeats: see
`headTickProg`. -/
def pickFrame (h : HeadId) (before : Head) (m : Moved) : (fuel : Nat) → Sight → Fit → Prog (Fit × Option Shown)
  | 0, _, _ => .never
  | fuel + 1, v, f =>
    let again : Prog (Fit × Option Shown) :=
      .read [.head h] (fun s => pickFrame h before m fuel (s.refit before m f).1 (s.refit before m f).2)
    match f.frame with
    | none => .done (f, none)
    | some d =>
      .read [.head h] (fun s =>
        match s.locateShown before.src v.extents d with
        | none => again
        | some n =>
          .op [.head h] (fun t => (t.pin n d).1) (fun t =>
            match (t.pin n d).2 with
            | .done _ => .done (f, some { src := before.src, chan := s.chanOf before.src, rfn := d, slot := n })
            | .declined _ => again))

/-! ## The tick (R54) -/

/-- The head's record when its tick ends (R54 step 5, R81). -/
def Head.ticked (h : Head) (m : Moved) (f : Fit) (x : Option Shown) : Head :=
  { h with pos := f.pos, rate := f.rate, target := f.target, owner := m.owner, goto := none, shown := x,
           trailing := h.shown.map (·.slot), atLive := f.atLive, atTail := f.atTail, atEnd := f.atEnd }

/-- The entry event of the last bounds step, posted when the tick ends (R79, R80). -/
def State.postFit (s : State) (h : HeadId) (f : Fit) (t : Word) : State :=
  match f.event with
  | none => s
  | some (k, why, v) => s.raiseAt k why h.val (headFlags f.atLive f.atTail f.atEnd) (BitVec.ofNat 32 v) t

/-- Step 1 of a sourced head's tick: the steps are taken, and a jog takeover is posted (R52, R54). -/
def State.tickInput (s : State) (h : HeadId) (t : Word) : State :=
  let i := s.panelInput h
  if (s.head h).jogTakeover i then (s.clearJog h).raiseAt .panelTakeover .jog h.val i.port 0 t else s.clearJog h

/-- Step 2 of a sourced head's tick: the source is read at one moment, and the first bounds step is made; `i` is what step 1 took
from the port (R54, R63). -/
def State.firstMove (s : State) (h : HeadId) (i : PanelInput) : Moved × Sight × Fit :=
  let hd := s.head h
  let p := (s.chan (s.chanOf hd.src)).phases
  let m := hd.move i p
  let v := s.sightOf hd.src hd.endMode
  (m, v, boundsStep v.view p hd m m.cand m.rate m.target)

/-- Step 5: the head's record changes once, and the entry event is posted (R44, R54, R79). -/
def State.endTick (s : State) (h : HeadId) (m : Moved) (f : Fit) (x : Option Shown) (t : Word) : State :=
  (s.setHead h ((s.head h).ticked m f x)).postFit h f t

/-- Steps 2 to 5 of a sourced head's tick: the bounds are read, the trailing slot is unpinned, the frame is picked, and the record
changes (R54). -/
def tickSourced (h : HeadId) (fuel : Nat) (t : Word) (i : PanelInput) : Prog Unit :=
  .read [.head h] (fun s =>
    .op [.head h] (fun u => u.unpinIf (u.head h).trailing) (fun _ =>
      (pickFrame h (s.head h) (s.firstMove h i).1 fuel (s.firstMove h i).2.1 (s.firstMove h i).2.2).bind (fun x =>
        .act [.head h] (fun u => u.endTick h (s.firstMove h i).1 x.1 x.2 t))))

/-- The tick of an IDLE head (R54). -/
def State.tickIdle (s : State) (h : HeadId) : State :=
  ((s.clearJog h).unpinIf (s.head h).trailing).setHead h { s.head h with trailing := none }

/-- What a head does first at its oldest waiting tick: step 1 of R54, or all that an IDLE head does (R54, R126). -/
def State.beginTick (s : State) (h : HeadId) : State :=
  match s.mail.headTicks.get h with
  | [] => s
  | t :: _ =>
    let s1 := s.setMail { s.mail with headTicks := popAt s.mail.headTicks h }
    match (s.head h).src with
    | .idle => s1.tickIdle h
    | .live _ | .clip _ => s1.tickInput h t

/-- The head takes its oldest waiting tick (R54, R126); nothing waits: nothing is taken. A pick that fails again with nothing taken
in between is repeated for ever (assumption log 16); `fuel`, the number of its bounds steps after which it is given up, is above
what the operations between can make it need. -/
def headTickProg (h : HeadId) (fuel : Nat) : Prog Unit :=
  .op [.head h] (fun s => s.beginTick h) (fun s =>
    match s.mail.headTicks.get h with
    | [] => .done ()
    | t :: _ =>
      match (s.head h).src with
      | .idle => .done ()
      | .live _ | .clip _ => tickSourced h fuel t (s.panelInput h))

end Sys2Proof.Machine
end

