-- ==== Sys2Proof/Machine/Clips.lean ====
section
/-! DEFINITION. Clips.lean: the clip manager of chapter 5: extents and joins, the backward build, marks, closing, growth, stop
notices, detach notices and the clip commands but CLIP_QUERY. An event with slot operations is given operation by operation, and
stands on a clip table of its own until its last operation (R90). -/

namespace Sys2Proof.Machine

/-! ## Slots and joins (R87, R89) -/

/-- Slot of frame `r` of a clip, as its extents give it (R87). -/
def State.clipSlot (s : State) (k : Clip) (r : Nat) : Option Nat :=
  (positionOf k.extents (s.chan k.chan).len r).map ((s.chan k.chan).firstSlot + ·)

/-- Slots of the frames `lo` to `hi` of a clip, in RFN order. -/
def State.clipSlots (s : State) (k : Clip) (lo hi : Nat) : List Nat :=
  (List.range (hi + 1 - lo)).filterMap (fun i => s.clipSlot k (lo + i))

/-- Frame `r` at position `p` joins at the bottom: the first extent grows, or a new one begins (R89). -/
def joinBottom (len : Nat) (es : List Extent) (r p : Nat) : List Extent :=
  match es with
  | [] => [{ rfn := r, pos := p, len := 1 }]
  | e :: rest =>
    if (p + 1) % len = e.pos then { rfn := r, pos := p, len := e.len + 1 } :: rest
    else { rfn := r, pos := p, len := 1 } :: e :: rest

/-- The bottom join would need a seventeenth extent (R89, R96). -/
def bottomFull (len : Nat) (es : List Extent) (p : Nat) : Bool :=
  match es with
  | [] => false
  | e :: _ => decide ((p + 1) % len ≠ e.pos) && decide (Config.maxExtents ≤ es.length)

/-- Frame `r` at position `p` joins at the top: the last extent grows, or a new one is added (R89). -/
def joinTop (len : Nat) : List Extent → (r p : Nat) → List Extent
  | [], r, p => [{ rfn := r, pos := p, len := 1 }]
  | [e], r, p =>
    if p = (e.pos + e.len) % len then [{ e with len := e.len + 1 }] else [e, { rfn := r, pos := p, len := 1 }]
  | e :: f :: rest, r, p => e :: joinTop len (f :: rest) r p

/-- The top join would need a seventeenth extent (R89, R106). -/
def topFull (len : Nat) (es : List Extent) (p : Nat) : Bool :=
  match es.getLast? with
  | none => false
  | some e => decide (p ≠ (e.pos + e.len) % len) && decide (Config.maxExtents ≤ es.length)

/-- The extents cut to end at frame `o` (R92 step 2). -/
def trimTop (es : List Extent) (o : Nat) : List Extent :=
  (es.filter (fun e => decide (e.rfn ≤ o))).map
    (fun e => if o < e.rfn + e.len then { e with len := o + 1 - e.rfn } else e)

/-! ## Closing and deleting (R92, R98, R112) -/

/-- The clip's attached head, if any, is handed a detach notice (R58, R92). -/
def State.detachClip (s : State) (k : Nat) (o : Option HeadId) : State :=
  match o with
  | none => s
  | some h => s.tellHead h (.detach k)

/-- The record of a clip closed at frame `o` (R92 steps 2 to 4). -/
def Clip.closedAt (c : Clip) (o : Nat) (why : Reason) : Clip :=
  { c with extents := trimTop c.extents o, outF := o, state := .closed, reason := why, growing := false, quick := none,
           attached := none }

/-- Steps 2 to 5 of closing clip `k` at frame `o` (R92). -/
def State.recordClose (s : State) (k o : Nat) (why : Reason) : State :=
  let c := s.clip k
  ((s.setClip k (c.closedAt o why)).detachClip k c.attached).raise
    .clipClosed why k (c.closedAt o why).flags (BitVec.ofNat 32 o)

/-- Closing clip `k` at its out, which unlocks nothing (R92). -/
def State.closeAtOut (s : State) (k : Nat) (why : Reason) : State := s.recordClose k (s.clip k).outF why

/-- The frames in the given slots are unlocked, one after another (R92, R98, R112). -/
def unlockAll (ns : List Nat) : Prog Unit := Prog.each (fun _ => [.clips]) (fun n s => (s.unlock n).1) ns

/-- Closing clip `k` at frame `o`, with the clip and its slots as they stand in `s` (R92). -/
def closeClip (s : State) (k o : Nat) (why : Reason) : Prog Unit :=
  (unlockAll (s.clipSlots (s.clip k) (o + 1) (s.clip k).outF)).bind (fun _ =>
    .act [.clips] (fun t => t.recordClose k o why))

/-- A deleted clip leaves the table: its head is told, CLIP_DELETED is posted, the record is FREE (R98, R112). -/
def State.recordDelete (s : State) (k : Nat) (why : Reason) : State :=
  let c := s.clip k
  ((s.detachClip k c.attached).raise
    .clipDeleted why k { c with growing := false }.flags (BitVec.ofNat 32 (c.outF - c.inF + 1))).setClip k {}

/-- Deleting clip `k`, with the clip and its slots as they stand in `s` (R98, R112). -/
def deleteClip (s : State) (k : Nat) (why : Reason) : Prog Unit :=
  (unlockAll (s.clipSlots (s.clip k) (s.clip k).inF (s.clip k).outF)).bind (fun _ =>
    .act [.clips] (fun t => t.recordDelete k why))

/-- Some head is in state CLIP with the clip as its source (R98, R112). -/
def State.hasClipHead (s : State) (k : Nat) : Bool := allHeads.any (fun h => decide ((s.head h).src = .clip k))

/-! ## Marks (R93 to R104) -/

/-- The lowest-numbered FREE id (R91). -/
def State.freeClip (s : State) : Option Nat := (List.range Config.clipCount).find? (fun k => decide ((s.clip k).state = .free))

/-- What a mark reads of its source at its arrival (R95): channel, window, and for a CLIP head the source clip's extents. -/
structure MarkSource where
  chan : ChanId
  lo   : Nat
  hi   : Nat
  sub  : Option (List Extent)
  deriving DecidableEq, Repr

/-- Where the build finds frame `r`: its slot and loop position (R96 step 1). -/
def State.locate (s : State) (m : MarkSource) (r : Nat) : Option (Nat × Nat) :=
  match m.sub with
  | none => (s.indexLookup m.chan r).map (fun n => (n, n - (s.chan m.chan).firstSlot))
  | some es =>
    match positionOf es (s.chan m.chan).len r with
    | none => none
    | some p => (s.positionLookup m.chan p r).map (fun n => (n, n - (s.chan m.chan).firstSlot))

/-- The backward build from frame `r` over at most `fuel` frames, gathering extents (R96). -/
def build (m : MarkSource) : (fuel r : Nat) → List Extent → Prog (List Extent)
  | 0, _, es => .done es
  | fuel + 1, r, es =>
    .read [.clips] (fun s =>
      match s.locate m r with
      | none => .done es
      | some (n, p) =>
        if bottomFull (s.chan m.chan).len es p then .done es
        else
          .op [.clips] (fun t => (t.lock n r).1) (fun t =>
            match (t.lock n r).2 with
            | .done _ => build m fuel (r - 1) (joinBottom (s.chan m.chan).len es r p)
            | .declined _ => .done es))

/-- A mark's answer: refused with a reason, or the clip's id and whether the mark set a clamp flag (R94). -/
inductive MarkAnswer where
  | refused (why : Reason)
  | made (k : Nat) (clamped : Bool)
  deriving DecidableEq, Repr

/-- What a mark reads of its head passes the checks of R93, and what its source gives (R60, R95). -/
def State.markSource (s : State) (h : HeadId) : Option (Shown × MarkSource) :=
  match (s.head h).src, (s.head h).shown with
  | .idle, _ => none
  | _, none => none
  | .live c, some d =>
    if d.src = .live c then
      some (d, { chan := c, lo := (s.chan c).tail, hi := (s.chan c).nextRfn - 1, sub := none })
    else none
  | .clip x, some d =>
    if d.src = .clip x then
      some (d, { chan := (s.clip x).chan, lo := (s.clip x).inF, hi := (s.clip x).outF, sub := some (s.clip x).extents })
    else none

/-- An attach notice for clip `k` that the head has not taken yet (R58). -/
def State.attachWaits (s : State) (h : HeadId) (k : Nat) : Bool :=
  (s.mail.toHead.get h).any (fun
    | .attach j _ => decide (j = k)
    | .detach _ => false)

/-- Clip `k` is OPEN and attached to head `h` by its own record, and the head has taken its attach notice (R101). A head record may
name a clip that is not: one closed, freed or detached, or one whose id a REMARK has freed and the new clip has taken again. -/
def State.openFor (s : State) (h : HeadId) (k : Nat) : Bool :=
  decide ((s.clip k).state = .opened ∧ (s.clip k).attached = some h) && !s.attachWaits h k

/-- The head's attached clip as a mark reads it from the head record (R60, R98, R101). DESIGN CHOICE (assumption log 14): where the
clip named is not OPEN for the head, the mark finds none. -/
def State.attachedOpen (s : State) (h : HeadId) : Option Nat :=
  match (s.head h).attached with
  | none => none
  | some k => if s.openFor h k then some k else none

/-- The clip of the newest of the head's own detach notices that wait and name a clip still OPEN for it (R59, R115). -/
def State.detachWaits (s : State) (h : HeadId) : Option Nat := (s.mail.fromHead.get h).reverse.find? (s.openFor h)

/-- The clip that a MARK OUT closes: the head's attached clip (R101), or the one that it has detached and whose notice the clip
manager has not taken (R59, R115). DESIGN CHOICE (assumption log 14): for the latter R101, whose head record names none, has the
mark refused; the newest of several notices counts, and a notice that answers an attach (R58) counts as one. -/
def State.outClip (s : State) (h : HeadId) : Option Nat :=
  match s.attachedOpen h with
  | none => s.detachWaits h
  | some k => some k

/-- REMARK: the head's attached clip is deleted, or closed where a head is sourced on it (R98). -/
def remark (s : State) (h : HeadId) : Prog Unit :=
  match s.attachedOpen h with
  | none => .done ()
  | some k => if s.hasClipHead k then closeClip s k (s.clip k).outF .remark else deleteClip s k .remark

/-- CLIP_OPENED for a clip just built (R97). -/
def State.postOpened (s : State) (k : Nat) (why : Reason) : State :=
  s.raise .clipOpened why k (s.clip k).flags (BitVec.ofNat 32 (s.clip k).inF)

/-- The record of a clip just built from the extents gathered (R91, R97). -/
def builtClip (m : MarkSource) (es : List Extent) (inF outF : Nat) (raw : Int) (tick : Word) : Clip :=
  { state := .opened, chan := m.chan, inF, outF, extents := es, inClamped := decide ((inF : Int) ≠ raw),
    isSub := m.sub.isSome, creation := tick }

/-- The clip of a MARK IN is made (R91, R97, R99, R100). -/
def State.makeIn (s : State) (h : HeadId) (k : Nat) (c : Clip) (src : Src) : State :=
  ((s.setClip k c).tellHead h (.attach k src)).postOpened k .inEnd

/-- MARK IN, `s` being the state at its arrival (R98 to R100). -/
def markIn (s : State) (h : HeadId) (d : Shown) (m : MarkSource) : Prog MarkAnswer :=
  (remark s h).bind (fun _ =>
    .read [.clips] (fun u =>
      match u.freeClip with
      | none => .done (.refused .tableFull)
      | some k =>
        let a := clampNat m.lo m.hi d.rfn
        (build m (m.hi + 1 - a) m.hi []).bind (fun es =>
          match es with
          | [] => .done (.refused .lockFull)
          | e :: es =>
            let c := { builtClip m (e :: es) e.rfn m.hi d.rfn s.ref.count with
                       growing := m.sub.isNone, attached := some h }
            .op [.clips] (fun t => t.makeIn h k c (s.head h).src) (fun _ => .done (.made k c.inClamped)))))

/-- MARK OUT, `s` being the state at its arrival (R59, R101, R115). -/
def markOut (s : State) (h : HeadId) (d : Shown) : Prog MarkAnswer :=
  match s.outClip h with
  | none => .done (.refused .noClip)
  | some k =>
    let c := s.clip k
    if d.rfn < c.inF then .done (.refused .order)
    else
      let o := min d.rfn c.outF
      (unlockAll (s.clipSlots c (o + 1) c.outF)).bind (fun _ =>
        .op [.clips]
          (fun t => (t.setClip k { c with outClamped := c.outClamped || decide (c.outF < d.rfn) }).recordClose k o .mark)
          (fun _ => .done (.made k (decide (c.outF < d.rfn)))))

/-- A quick clip that does not wait is made and closed at once (R104). DESIGN CHOICE (assumption log 36): its CLIP_OPENED carries no
OUT_CLAMPED, and on a LIVE source no growing bit, for R104 sets the growing flag only where the target is above the window. -/
def State.makeQuick (s : State) (k b target : Nat) (c : Clip) : State :=
  (((s.setClip k c).postOpened k .quick).setClip k { c with outClamped := decide (b ≠ target) }).recordClose k b .quickDone

/-- MARK QUICK, `s` being the state at its arrival (R103, R104). -/
def markQuick (s : State) (d : Shown) (m : MarkSource) : Prog MarkAnswer :=
  match s.freeClip with
  | none => .done (.refused .tableFull)
  | some k =>
    let p := (s.chan m.chan).phases
    let raw : Int := (d.rfn : Int) - (s.preRoll * p : Nat)
    let target := min (d.rfn + s.postRoll * p) (Config.rfnLimit - 1)
    let a := clampNat m.lo m.hi raw.toNat
    let b := clampNat m.lo m.hi target
    (build m (b + 1 - a) b []).bind (fun es =>
      match es with
      | [] => .done (.refused .lockFull)
      | e :: es =>
        let c := { builtClip m (e :: es) e.rfn b raw s.ref.count with isQuick := true }
        if m.hi < target ∧ m.sub.isNone then
          .op [.clips] (fun t => (t.setClip k { c with growing := true, quick := some target }).postOpened k .quick)
            (fun _ => .done (.made k c.inClamped))
        else
          .op [.clips] (fun t => t.makeQuick k b target c) (fun _ => .done (.made k (c.inClamped || decide (b ≠ target)))))

/-- A mark of a kind on a head, with its checks, `s` being the state at its arrival (R93). -/
def markAt (s : State) (h : HeadId) (kind : MarkKind) : Prog MarkAnswer :=
  if !s.mem.active then .done (.refused .state)
  else
    match s.markSource h with
    | none => .done (.refused .noSource)
    | some (d, m) =>
      match kind with
      | .markIn => markIn s h d m
      | .markOut => markOut s h d
      | .markQuick => markQuick s d m

/-- The outcome of a MARK command (R94). -/
def MarkAnswer.result : MarkAnswer → CmdResult
  | .refused why => .refused why
  | .made k clamped => .fitted clamped (BitVec.ofNat 32 k)

/-- The MARK command at the clip manager (R93, R94). -/
def markCommand (r : CmdArgs) : Prog CmdResult :=
  match targetHead r, MarkKind.ofCode r.a.toNat with
  | some h, some kind =>
    .read [.clips] (fun s => ((markAt s h kind).onTable s.clips).bind (fun x => .done x.result))
  | _, _ => .done (.refused .badArg)

/-- MARK_REFUSED for a key mark; the displayed frame is the one its head had at the mark's arrival, in `s` (R94). -/
def State.postRefused (t s : State) (p : PortId) (x : KeyMark) (why : Reason) : State :=
  t.raise .markRefused why x.head.val (x.kind.code + 256 * p.val)
    (match (s.head x.head).shown with
      | none => 0
      | some d => BitVec.ofNat 32 d.rfn)

/-- The oldest mark of a port leaves its mailbox (R142). -/
def State.popMark (s : State) (p : PortId) : State := s.setMail { s.mail with portMarks := popAt s.mail.portMarks p }

/-- The clip manager takes a port's oldest mark; a refused one posts MARK_REFUSED (R94, R142). -/
def panelMarkProg (p : PortId) : Prog Unit :=
  .op [.clips] (fun s => s.popMark p) (fun s =>
    match s.mail.portMarks.get p with
    | [] => .done ()
    | x :: _ =>
      ((markAt s x.head x.kind).onTable s.clips).bind (fun ans =>
        match ans with
        | .made _ _ => .done ()
        | .refused why => .act [.clips] (fun t => t.postRefused s p x why)))

/-! ## Growth (R105 to R109) -/

/-- The growing OPEN clips of channel `c` for which `f` holds, in id order (R105, R110). -/
def State.growers (s : State) (c : ChanId) (f : Clip → Bool) : List Nat :=
  (List.range Config.clipCount).filter (fun k =>
    decide ((s.clip k).state = .opened) && (s.clip k).growing && decide ((s.clip k).chan = c) && f (s.clip k))

/-- Each of the clips is closed at its out (R107, R108, R110). -/
def State.closeAll (s : State) (ks : List Nat) (why : Reason) : State := ks.foldl (fun t k => t.closeAtOut k why) s

/-- Frame `r` at position `p` joins taker `k` at the top, and the quick target is looked at (R106, R109). -/
def State.growClip (s : State) (k r p : Nat) : State :=
  let c := s.clip k
  let s1 := s.setClip k { c with extents := joinTop (s.chan c.chan).len c.extents r p, outF := r }
  if c.quick = some r then s1.recordClose k r .quickDone else s1

/-- Taker `k` of frame `r`, at slot `n` and position `p`, takes it or is closed; `ks` are the takers after it, closed with it where
the lock is declined. Answered is the cause of a declined lock (R106 to R108). -/
def State.growTaker (s : State) (k : Nat) (ks : List Nat) (r n p : Nat) : State × Option Cause :=
  if topFull (s.chan (s.clip k).chan).len (s.clip k).extents p then (s.closeAtOut k .extents, none)
  else
    match s.lock n r with
    | (t, .done _) => (t.growClip k r p, none)
    | (t, .declined .notHeld) => (t.closeAll (k :: ks) .frameGone, some .notHeld)
    | (t, .declined x) => (t.closeAll (k :: ks) .allowance, some x)

/-- The takers of frame `r`, in id order, an operation each, up to a declined lock (R106 to R108). -/
def growTakers : List Nat → (r n p : Nat) → Prog Unit
  | [], _, _, _ => .done ()
  | k :: ks, r, n, p =>
    .op [.clips] (fun s => (s.growTaker k ks r n p).1) (fun s =>
      match (s.growTaker k ks r n p).2 with
      | none => growTakers ks r n p
      | some _ => .done ())

/-- The takers of frame `r` of channel `c`, in id order (R105). -/
def State.takers (s : State) (c : ChanId) (r : Nat) : List Nat := s.growers c (fun k => decide (k.outF + 1 = r))

/-- What the lookup of frame `r` does: its takers are closed where it is gone (R106, R107). -/
def State.growLookup (s : State) (c : ChanId) (r : Nat) : State :=
  match s.indexLookup c r with
  | none => s.closeAll (s.takers c r) .frameGone
  | some _ => s

/-- Growth by frame `r` of channel `c`: one lookup, then the takers (R105 to R107). -/
def growFrame (c : ChanId) (r : Nat) : Prog Unit :=
  .op [.clips] (fun s => s.growLookup c r) (fun s =>
    match s.indexLookup c r with
    | none => .done ()
    | some n => growTakers (s.takers c r) r n (n - (s.chan c).firstSlot))

/-- Growth by the frames of an arrival, in RFN order (R105). -/
def growFrames (c : ChanId) : List Nat → Prog Unit
  | [] => .done ()
  | r :: rs => (growFrame c r).bind (fun _ => growFrames c rs)

/-- The oldest hand-over of a channel leaves its mailbox when it is an arrival (R105). -/
def State.popArrival (s : State) (c : ChanId) : State :=
  match s.mail.chanNotes.get c with
  | .arrival _ _ :: _ => s.setMail { s.mail with chanNotes := popAt s.mail.chanNotes c }
  | .stopped _ :: _ => s
  | [] => s

/-- The clip manager takes a channel's oldest hand-over when it is an arrival (R105). -/
def arrivalProg (c : ChanId) : Prog Unit :=
  .op [.clips] (fun s => s.popArrival c) (fun s =>
    match s.mail.chanNotes.get c with
    | .arrival f n :: _ => (growFrames c ((List.range n).map (f + ·))).onTable s.clips
    | .stopped _ :: _ => .done ()
    | [] => .done ())

/-- The clip manager takes a channel's oldest hand-over when it is a stop notice (R110). A close at the out unlocks nothing, so no
slot operation is issued, and the event is one operation (R92). -/
def State.takeStop (s : State) (c : ChanId) : State :=
  match s.mail.chanNotes.get c with
  | .stopped cause :: _ =>
    (s.setMail { s.mail with chanNotes := popAt s.mail.chanNotes c }).closeAll (s.growers c (fun _ => true)) cause.closeReason
  | .arrival _ _ :: _ => s
  | [] => s

/-- STOP_NOTICE (R110). -/
def execStopNotice (c : ChanId) (s : State) : Host.Outcome State Fault Refusal := .next (s.takeStop c)

/-- The clip manager takes a head's oldest detach notice (R114). -/
def State.takeDetach (s : State) (h : HeadId) : State :=
  match s.mail.fromHead.get h with
  | [] => s
  | k :: _ =>
    let s1 := s.setMail { s.mail with fromHead := popAt s.mail.fromHead h }
    if (s1.clip k).attached = some h then s1.setClip k { s1.clip k with attached := none } else s1

/-- CLIP_DETACH_NOTICE (R114). -/
def execClipDetachNotice (h : HeadId) (s : State) : Host.Outcome State Fault Refusal := .next (s.takeDetach h)

/-! ## Clip commands (R102, R111 to R113) -/

/-- MARK_SETUP (R102). -/
def markSetup (r : CmdArgs) (s : State) : State × CmdResult :=
  ({ s with preRoll := min r.a.toNat Config.maxRoll, postRoll := min r.b.toNat Config.maxRoll },
   .fitted (decide (Config.maxRoll < r.a.toNat) || decide (Config.maxRoll < r.b.toNat)) 0)

/-- CLIP_CLOSE at the clip manager (R111). -/
def clipClose (r : CmdArgs) : Prog CmdResult :=
  match targetClip r with
  | none => .done (.refused .badArg)
  | some k =>
    .read [.clips] (fun s =>
      match (s.clip k).state with
      | .free => .done (.refused .noClip)
      | .closed => .done (.refused .state)
      | .opened =>
        let o := clampNat (s.clip k).inF (s.clip k).outF r.a.toNat
        ((closeClip s k o .command).onTable s.clips).bind (fun _ =>
          .done (.fitted (decide (o ≠ r.a.toNat)) (BitVec.ofNat 32 o))))

/-- CLIP_DELETE at the clip manager (R112). -/
def clipDelete (r : CmdArgs) : Prog CmdResult :=
  match targetClip r with
  | none => .done (.refused .badArg)
  | some k =>
    .read [.clips] (fun s =>
      if (s.clip k).state = .free then .done (.refused .noClip)
      else if s.hasClipHead k then .done (.refused .inUse)
      else
        ((deleteClip s k .command).onTable s.clips).bind (fun _ =>
          .done (.done (BitVec.ofNat 32 ((s.clip k).outF - (s.clip k).inF + 1)))))

/-- CLIP_TAG at the clip manager (R113). -/
def clipTag (r : CmdArgs) (s : State) : State × CmdResult :=
  match targetClip r with
  | none => (s, .refused .badArg)
  | some k =>
    if (s.clip k).state = .free then (s, .refused .noClip)
    else if 65535 < r.a.toNat then (s, .refused .badArg)
    else
      (s.setClip k { s.clip k with tag := BitVec.ofNat 16 r.a.toNat, rating := min r.b.toNat 3 },
       .fitted (decide (3 < r.b.toNat)) 0)

/-- MARK_SETUP (R102). -/
def execMarkSetup (r : CmdArgs) (s : State) : Host.Outcome State Fault Refusal := .next (s.carryOut 0x0D r (markSetup r))

/-- CLIP_TAG (R113). -/
def execClipTag (r : CmdArgs) (s : State) : Host.Outcome State Fault Refusal := .next (s.carryOut 0x10 r (clipTag r))

end Sys2Proof.Machine
end

