-- ==== Sys2Proof/Machine/Heads.lean ====
section
/-! DEFINITION. Heads.lean: the commands and notices of the play heads of chapter 3, and their part of DISENGAGE. -/

namespace Sys2Proof.Machine

/-! ## Commands (R45 to R50) -/

/-- The effects of a taken HEAD_SOURCE in every case: R, T, owner, goto, flags, attached clip (R45). -/
def Head.resourced (h : Head) : Head :=
  { h with rate := 0, target := 0, owner := .command, goto := none, atLive := false, atTail := false, atEnd := false,
           attached := none }

/-- The head's own detach, handed to the clip manager (R59). -/
def State.detachHead (s : State) (h : HeadId) : State :=
  match (s.head h).attached with
  | none => s
  | some k => s.tellDetach h k

/-- HEAD_SOURCE LIVE (R46): `mode` is the start mode, `r` the start RFN. -/
def sourceLive (s : State) (h : HeadId) (c : ChanId) (mode r : Nat) : State × CmdResult :=
  let ch := s.chan c
  let start :=
    if ch.nextRfn = ch.tail then ch.tail
    else match mode with
      | 0 => ch.nextRfn - 1
      | 1 => ch.tail
      | _ => clampNat ch.tail (ch.nextRfn - 1) r
  ((s.detachHead h).setHead h { (s.head h).resourced with src := .live c, pos := start * 256 },
   .fitted (decide (mode = 2) && decide (start ≠ r)) (BitVec.ofNat 32 start))

/-- HEAD_SOURCE CLIP (R47). -/
def sourceClip (s : State) (h : HeadId) (k : Nat) (e : EndMode) : State × CmdResult :=
  ((s.detachHead h).setHead h { (s.head h).resourced with src := .clip k, endMode := e, pos := (s.clip k).inF * 256 },
   .done (BitVec.ofNat 32 (s.clip k).inF))

/-- HEAD_SOURCE IDLE (R48): the displayed slot becomes the trailing slot. -/
def sourceIdle (s : State) (h : HeadId) : State × CmdResult :=
  let hd := s.head h
  (((s.unpinIf hd.trailing).detachHead h).setHead h
     { hd.resourced with src := .idle, shown := none, trailing := hd.shown.map (·.slot) },
   .done 0)

/-- HEAD_SOURCE at its head (R45 to R48). -/
def headSource (r : CmdArgs) (s : State) : State × CmdResult :=
  match targetHead r with
  | none => (s, .refused .badArg)
  | some h =>
    if !s.mem.active then (s, .refused .state)
    else match r.a.toNat with
      | 0 => sourceIdle s h
      | 1 =>
        match chanArg r.b with
        | none => (s, .refused .badArg)
        | some c =>
          if 2 < r.c.toNat then (s, .refused .badArg)
          else if (s.chan c).state = .off then (s, .refused .state)
          else sourceLive s h c r.c.toNat r.d.toNat
      | 2 =>
        if Config.clipCount ≤ r.b.toNat ∨ 1 < r.c.toNat then (s, .refused .badArg)
        else if (s.clip r.b.toNat).state = .free then (s, .refused .noClip)
        else sourceClip s h r.b.toNat (if r.c.toNat = 0 then .stop else .loop)
      | _ => (s, .refused .badArg)

/-- HEAD_RATE at its head (R49). -/
def headRate (r : CmdArgs) (s : State) : State × CmdResult :=
  match targetHead r with
  | none => (s, .refused .badArg)
  | some h =>
    if !s.mem.active then (s, .refused .state)
    else if (s.head h).src = .idle then (s, .refused .noSource)
    else
      let t := clampInt (-2048) 2048 r.a.toInt
      let w := clampNat 1 2048 r.b.toNat
      (s.setHead h { s.head h with target := t, slew := w, owner := .command },
       .fitted (decide (t ≠ r.a.toInt) || decide (w ≠ r.b.toNat)) (BitVec.ofInt 32 t))

/-- HEAD_GOTO at its head (R50). -/
def headGoto (r : CmdArgs) (s : State) : State × CmdResult :=
  match targetHead r with
  | none => (s, .refused .badArg)
  | some h =>
    if !s.mem.active then (s, .refused .state)
    else if Config.rfnLimit ≤ r.a.toNat then (s, .refused .badArg)
    else if (s.head h).src = .idle then (s, .refused .noSource)
    else (s.setHead h { s.head h with goto := some r.a.toNat, owner := .command }, .done 0)

/-- HEAD_SOURCE (R45 to R48). -/
def execHeadSource (r : CmdArgs) (s : State) : Host.Outcome State Fault Refusal := .next (s.carryOut 0x09 r (headSource r))

/-- HEAD_RATE (R49). -/
def execHeadRate (r : CmdArgs) (s : State) : Host.Outcome State Fault Refusal := .next (s.carryOut 0x0A r (headRate r))

/-- HEAD_GOTO (R50). -/
def execHeadGoto (r : CmdArgs) (s : State) : Host.Outcome State Fault Refusal := .next (s.carryOut 0x0B r (headGoto r))

/-! ## DISENGAGE at a head (R62) -/

/-- The head becomes IDLE and its pins are released at once (R62). -/
def State.idleHead (s : State) (h : HeadId) : State :=
  let hd := s.head h
  match hd.src with
  | .idle => (s.unpinIf hd.trailing).setHead h { hd with trailing := none }
  | .live _ | .clip _ =>
    (((s.unpinIf (hd.shown.map (·.slot))).unpinIf hd.trailing).detachHead h).setHead h
      { hd.resourced with src := .idle, shown := none, trailing := none }

/-! ## Notices (R52, R53, R58) -/

/-- The oldest notice of port `p`, when it is a takeover, is taken by its head (R52). DESIGN CHOICE (assumption log 39): a negative
T stands in the unsigned Value field as its 32-bit two's complement (R184). -/
def State.takeTakeover (s : State) (p : PortId) : State :=
  match s.mail.portNotes.get p with
  | .takeover h :: _ =>
    let s1 := s.setMail { s.mail with portNotes := popAt s.mail.portNotes p }
    if (s1.head h).src ≠ .idle ∧ (s1.head h).owner = .command then
      (s1.setHead h { s1.head h with owner := .panel }).raise .panelTakeover .lever h.val p.val
        (BitVec.ofInt 32 (s1.head h).target)
    else s1
  | .portLost _ :: _ => s
  | [] => s

/-- The oldest notice of port `p`, when it is a port-lost notice, is taken by its head (R53). -/
def State.takePortLost (s : State) (p : PortId) : State :=
  match s.mail.portNotes.get p with
  | .portLost h :: _ =>
    let s1 := s.setMail { s.mail with portNotes := popAt s.mail.portNotes p }
    match (s1.head h).owner with
    | .panel => s1.setHead h { s1.head h with owner := .command, target := 0 }
    | .command => s1
  | .takeover _ :: _ => s
  | [] => s

/-- The head takes the clip manager's oldest notice, when it is an attach (R58). DESIGN CHOICE (assumption log 41): a head whose
record names another clip already, as after a second MARK IN taken before the first's attach notice, takes it with no detach of
that clip, whose own record goes on naming the head. -/
def State.takeAttach (s : State) (h : HeadId) : State :=
  match s.mail.toHead.get h with
  | .attach k src :: _ =>
    let s1 := s.setMail { s.mail with toHead := popAt s.mail.toHead h }
    if (s1.head h).src = src then s1.setHead h { s1.head h with attached := some k } else s1.tellDetach h k
  | .detach _ :: _ => s
  | [] => s

/-- The head takes the clip manager's oldest notice, when it is a detach (R58). -/
def State.takeHeadDetach (s : State) (h : HeadId) : State :=
  match s.mail.toHead.get h with
  | .detach k :: _ =>
    let s1 := s.setMail { s.mail with toHead := popAt s.mail.toHead h }
    if (s1.head h).attached = some k then s1.setHead h { s1.head h with attached := none } else s1
  | .attach _ _ :: _ => s
  | [] => s

/-- TAKEOVER_NOTICE (R52). -/
def execTakeoverNotice (p : PortId) (s : State) : Host.Outcome State Fault Refusal := .next (s.takeTakeover p)

/-- PORT_LOST_NOTICE (R53). -/
def execPortLostNotice (p : PortId) (s : State) : Host.Outcome State Fault Refusal := .next (s.takePortLost p)

/-- ATTACH_NOTICE (R58). -/
def execAttachNotice (h : HeadId) (s : State) : Host.Outcome State Fault Refusal := .next (s.takeAttach h)

/-- HEAD_DETACH_NOTICE (R58). -/
def execHeadDetachNotice (h : HeadId) (s : State) : Host.Outcome State Fault Refusal := .next (s.takeHeadDetach h)

end Sys2Proof.Machine
end

