-- ==== Sys2Proof/Machine/MemoryPath.lean ====
section
/-! DEFINITION. MemoryPath.lean: the memory path of chapter 8: acceptance and decoding of engine-port bursts, completions in order,
watched words, the arbiter, and ENGAGE. -/

namespace Sys2Proof.Machine

/-! ## Decoding (R152 to R154) -/

/-- Outcome of a burst at its acceptance (R146); an absorbed stray write names its channel, phase and offset (R153). -/
inductive Route where
  | pass
  | substituted (addr : Nat)
  | absorbed
  | stray (c : ChanId) (phase offset : Nat)
  deriving DecidableEq, Repr

/-- Bytes of a slot and of a window, S = 2^s (R1). -/
def MemPath.slotBytes (m : MemPath) : Nat := 2 ^ m.stride

/-- Address of offset `o` in slot `n` (R1). -/
def MemPath.slotAddr (m : MemPath) (n o : Nat) : Nat := m.slotBase + n * m.slotBytes + o

/-- A burst in record window 8c + j at offset `o` (R153). -/
def State.routeRecord (s : State) (c : ChanId) (j o : Nat) (dir : Dir) : Route :=
  match (s.chan c).state with
  | .off => .absorbed
  | .ready => .absorbed
  | .armed => .absorbed
  | .recording | .stopping =>
    if j < (s.chan c).phases then
      match (s.chan c).phaseSlots[j]? with
      | some n => .substituted (s.mem.slotAddr n o)
      | none => .absorbed
    else
      match dir with
      | .read => .absorbed
      | .write => .stray c j o

/-- A burst in play window 64 + h at offset `o` (R154, R57). -/
def State.routePlay (s : State) (h : HeadId) (o : Nat) (dir : Dir) : Route :=
  match dir with
  | .write => .absorbed
  | .read =>
    match (s.head h).shown with
    | some d => .substituted (s.mem.slotAddr d.slot o)
    | none => .substituted (s.mem.slate + o)

/-- A burst in window `w` at offset `o` (8.3). -/
def State.routeWindow (s : State) (w o : Nat) (dir : Dir) : Route :=
  if h : w / 8 < 8 then s.routeRecord ⟨w / 8, h⟩ (w % 8) o dir
  else if h : w - 64 < 4 then s.routePlay ⟨w - 64, h⟩ o dir
  else .absorbed

/-- Classification of a burst by its start address, in either mode (R148, R152). -/
def State.route (s : State) (b : Burst) : Route :=
  let a := b.addr.toNat
  if !s.mem.active then .pass
  else if a < s.mem.region ∨ s.mem.region + Config.windowCount * s.mem.slotBytes ≤ a then .pass
  else s.routeWindow ((a - s.mem.region) / s.mem.slotBytes) ((a - s.mem.region) % s.mem.slotBytes) b.dir

/-! ## Watched words (R156, R163) -/

/-- The watched word at offset `off` of the control block that a passed write carries, if its bytes include it (R156). -/
def State.watchedAt (s : State) (b : Burst) (isCmd : Bool) (off : Nat) : List Watched :=
  let w := (s.control off).toNat
  let i := w - b.addr.toNat
  if b.addr.toNat ≤ w ∧ w + 4 ≤ b.addr.toNat + 32 * b.beats then
    let bytes := (b.data.drop i).take 4
    [{ isCmd, value := word (bytes.map (·.val)) 0, full := decide (bytes.length = 4) && bytes.all (·.en) }]
  else []

/-- The watched words of a passed burst (R156). -/
def State.watchedOf (s : State) (b : Burst) : List Watched :=
  match b.dir with
  | .read => []
  | .write => s.watchedAt b true 0x0 ++ s.watchedAt b false 0xC

/-- Both start-up writes have ended (R173). -/
def StartUp.over (u : StartUp) : Bool := !u.cmdWait && !u.evtWait

/-- A watched word is handed on; it is taken when its four enables are set and the start-up writes have ended (R163). -/
def State.handOn (s : State) (w : Watched) : State :=
  if w.full && s.startUp.over then
    if w.isCmd then s.setMail { s.mail with cmdWords := s.mail.cmdWords ++ [w.value] }
    else s.setMail { s.mail with evtWords := s.mail.evtWords ++ [w.value] }
  else s

/-- The watched words of a completed burst; a completion with ERROR hands on nothing (R156). -/
def State.handOnAll (s : State) (st : Status) (ws : List Watched) : State :=
  match st with
  | .good => ws.foldl State.handOn s
  | .error => s

/-! ## Completions at the engine port (R147) -/

/-- The completions now due, in acceptance order, and what the port still owes (R147). -/
def dueCompletions : List Owed → List (Owed × Status × List Byte) × List Owed
  | [] => ([], [])
  | o :: os =>
    match o.result with
    | none => ([], o :: os)
    | some (st, data) => ((o, st, data) :: (dueCompletions os).1, (dueCompletions os).2)

/-- What the port owes in one direction. -/
def MemPath.owed (m : MemPath) : Dir → List Owed
  | .read => m.engReads
  | .write => m.engWrites

/-- The path with what the port owes in one direction replaced. -/
def MemPath.setOwed (m : MemPath) (d : Dir) (os : List Owed) : MemPath :=
  match d with
  | .read => { m with engReads := os }
  | .write => { m with engWrites := os }

/-- The engine port returns every completion of a direction that is due, handing on the watched words (R147, R156). -/
def State.flush (s : State) (d : Dir) : State :=
  let due := (dueCompletions (s.mem.owed d)).1
  due.foldl (fun t x => t.handOnAll x.2.1 x.1.watched)
    (s.setMem { s.mem.setOwed d (dueCompletions (s.mem.owed d)).2 with
                engineOut := s.mem.engineOut ++ due.map (fun x => { dir := d, status := x.2.1, data := x.2.2 }) })

/-! ## Acceptance (R146) -/

/-- A burst accepted for the store port at an address, with the watched words it carries (R146). -/
def State.acceptPass (s : State) (b : Burst) (addr : Addr) (ws : List Watched) : State :=
  s.setMem
    { s.mem.setOwed b.dir (s.mem.owed b.dir ++ [{ no := s.mem.burstNo, watched := ws, result := none }]) with
      passQ := s.mem.passQ ++ [{ no := s.mem.burstNo, dir := b.dir, addr, beats := b.beats, data := b.data }],
      burstNo := s.mem.burstNo + 1 }

/-- An absorbed burst: the part completes it itself with GOOD, a read with zero data, in its direction's order (R146, R147). -/
def State.acceptAbsorbed (s : State) (b : Burst) : State :=
  let data : List Byte := match b.dir with
    | .read => List.replicate (32 * b.beats) 0
    | .write => []
  (s.setMem
    { s.mem.setOwed b.dir (s.mem.owed b.dir ++ [{ no := s.mem.burstNo, watched := [], result := some (.good, data) }]) with
      burstNo := s.mem.burstNo + 1 }).flush b.dir

/-- The window decoder reports a stray write to its channel (R153). -/
def State.reportStray (s : State) (c : ChanId) (phase offset : Nat) : State :=
  s.setMail { s.mail with strays := pushAt s.mail.strays c { phase, offset } }

/-- Acceptance of a burst: it is classified once, for good (R146, R155). -/
def State.accept (s : State) (b : Burst) : State :=
  match s.route b with
  | .pass => s.acceptPass b b.addr (s.watchedOf b)
  | .substituted a => s.acceptPass b (BitVec.ofNat 40 a) []
  | .absorbed => s.acceptAbsorbed b
  | .stray c j o => (s.acceptAbsorbed b).reportStray c j o

/-- The bursts held off are accepted in order while room is left for pass bursts (R146). -/
def acceptHeld : List Burst → State → State
  | [], s => s.setMem { s.mem with held := [] }
  | b :: bs, s =>
    if s.mem.passQ.length < Config.passQueueSize then acceptHeld bs (s.accept b)
    else s.setMem { s.mem with held := b :: bs }

/-- The output latch of the engine port is cleared at the start of a memory-path step. -/
def State.clearOut (s : State) : State := s.setMem { s.mem with engineOut := [] }

/-- A burst is presented at the engine port. It is held off while the store port cannot take a further burst, while 32 pass
bursts wait, and behind a burst already held off (R146). -/
def State.present (s : State) (b : Burst) (portFree : Bool) : State :=
  let s1 := s.clearOut
  if portFree && s1.mem.held.isEmpty && decide (s1.mem.passQ.length < Config.passQueueSize) then s1.accept b
  else s1.setMem { s1.mem with held := s1.mem.held ++ [b] }

/-- ENGINE_BURST (R146, R152 to R156). -/
def execEngineBurst (b : Burst) (portFree : Bool) (s : State) : Host.Outcome State Fault Refusal := .next (s.present b portFree)

/-- The entry of number `no` has its completion. -/
def settleOwed (no : Nat) (st : Status) (data : List Byte) (os : List Owed) : List Owed :=
  os.map (fun o => if o.no = no then { o with result := some (st, data) } else o)

/-- The store port completes its `k`-th outstanding pass burst (R147). Data come with a read alone (R146). -/
def State.passComplete (s : State) (k : Nat) (st : Status) (data : List Byte) : State :=
  match s.mem.passOut[k]? with
  | none => s
  | some b =>
    let s1 := s.clearOut
    (s1.setMem
      { s1.mem.setOwed b.dir (settleOwed b.no st (match b.dir with
          | .read => data
          | .write => []) (s1.mem.owed b.dir)) with
        passOut := s1.mem.passOut.eraseIdx k }).flush b.dir

/-- PASS_BURST_COMPLETE (R147, R156). -/
def execPassBurstComplete (k : Nat) (st : Status) (data : List Byte) (s : State) : Host.Outcome State Fault Refusal :=
  .next (s.passComplete k st data)

/-! ## The arbiter (R157 to R159) -/

/-- Place of the oldest own request that waits unissued (R157, R159). -/
def MemPath.unissued (m : MemPath) : Option Nat := m.ownQ.findIdx? (fun r => r.issued.isNone)

/-- R158 places the pass burst before the own request. -/
def goesBefore (b : PassBurst) (r : OwnReq) : Bool :=
  decide (b.no < r.after) && (match r.dir with
    | .read => decide (b.dir = .write)
    | .write => true)

/-- A pass burst as the store port carries it. -/
def PassBurst.onPort (b : PassBurst) : StoreBurst :=
  { own := false, dir := b.dir, addr := b.addr, beats := b.beats, data := b.data }

/-- An own request as the store port carries it: as given (R157). -/
def OwnReq.onPort (r : OwnReq) : StoreBurst :=
  { own := true, dir := r.dir, addr := r.addr, beats := r.beats, data := r.data }

/-- The oldest waiting pass burst is issued (R159). -/
def MemPath.issuePass (m : MemPath) (counter : Nat) : MemPath :=
  match m.passQ with
  | [] => m
  | b :: bs => { m with passQ := bs, passOut := m.passOut ++ [b], storeOut := some b.onPort, runCounter := counter }

/-- Own request `k` is issued, and its timeout starts (R159, R160). -/
def MemPath.issueOwn (m : MemPath) (k : Nat) (time : Nat) : MemPath :=
  match m.ownQ[k]? with
  | none => m
  | some r =>
    { m with ownQ := m.ownQ.set k { r with issued := some time }, storeOut := some r.onPort, runCounter := 0 }

/-- The arbiter's choice (R159). -/
def MemPath.arbitrate (m : MemPath) (time : Nat) : MemPath :=
  match m.unissued with
  | none => { m.issuePass 0 with runCounter := 0 }
  | some k =>
    match m.ownQ[k]?, m.passQ with
    | none, _ => m
    | some _, [] => m.issueOwn k time
    | some r, _ :: _ =>
      if m.passQ.any (fun b => goesBefore b r) then m.issuePass m.runCounter
      else if m.runCounter < Config.fairness then m.issuePass (m.runCounter + 1)
      else m.issueOwn k time

/-- The store port can take a burst at `time`: the arbiter issues one, and bursts held off at the engine port are accepted where
there is room (R146, R159). -/
def State.issue (s : State) (time : Nat) : State :=
  let s1 := (s.setTime time).clearOut
  let s2 := s1.setMem (s1.mem.arbitrate s1.now)
  acceptHeld s2.mem.held s2

/-- STORE_PORT_ISSUE (R158, R159). -/
def execStorePortIssue (time : Nat) (s : State) : Host.Outcome State Fault Refusal := .next (s.issue time)

/-! ## ENGAGE (R149, R150) -/

/-- Two areas, each a base and a size, share a byte. -/
def overlaps (a n b k : Nat) : Bool := decide (a < b + k) && decide (b < a + n)

/-- ENGAGE's argument checks (R149 step 2): s, region base, slot area base, slate address. -/
def engageArgsBad (st region base slate : Nat) : Bool :=
  decide (st < 20) || decide (25 < st) || decide (region % (128 * 2 ^ st) ≠ 0) || decide (base % 2 ^ st ≠ 0) ||
    decide (Config.addrEnd < region + 128 * 2 ^ st) || decide (Config.addrEnd < base + 16384 * 2 ^ st) ||
    decide (Config.addrEnd < slate + 2 ^ st)

/-- ENGAGE's overlap checks (R149 step 3). -/
def engageOverlaps (control st region base slate : Nat) : Bool :=
  overlaps region (128 * 2 ^ st) control Config.controlSize || overlaps region (128 * 2 ^ st) base (16384 * 2 ^ st) ||
    overlaps slate (2 ^ st) region (128 * 2 ^ st)

/-- ENGAGE at the window decoder (R149, R150). -/
def engage (r : CmdArgs) (s : State) : State × CmdResult :=
  let st := r.d.toNat
  let region := mibArg r.a
  let base := mibArg r.b
  let slate := mibArg r.c
  if s.mem.active then (s, .refused .state)
  else if engageArgsBad st region base slate then (s, .refused .badArg)
  else if engageOverlaps (controlBase s.cbsel).toNat st region base slate then (s, .refused .overlap)
  else if s.mem.stride ≠ 0 ∧ (st ≠ s.mem.stride ∨ base ≠ s.mem.slotBase) ∧ allChans.any (fun c => decide ((s.chan c).state ≠ .off)) then
    (s, .refused .state)
  else (s.setMem { s.mem with active := true, region, slotBase := base, stride := st, slate }, .done 0)

/-- ENGAGE (R149, R150). -/
def execEngage (r : CmdArgs) (s : State) : Host.Outcome State Fault Refusal := .next (s.carryOut 0x01 r (engage r))

end Sys2Proof.Machine
end

