-- ==== Sys2Proof/Machine/EventRing.lean ====
section
/-! DEFINITION. EventRing.lean: the event unit of chapter 10: writing the event ring, the producer word, the consumer word, and
EVENT_MASK. -/

namespace Sys2Proof.Machine

/-- Records the ring has room for: 511 less the unconsumed (10.2). -/
def EventUnit.free (e : EventUnit) : Nat := Config.eventRoom - (e.producer - e.consumer).toNat

/-- The 16 bytes of an event record with its sequence number (11.4). -/
def Event.bytes (e : Event) (seq : Half) : List Byte :=
  [BitVec.ofNat 8 e.kind.code, BitVec.ofNat 8 e.reason.code] ++ bytes16 seq ++ bytes16 (BitVec.ofNat 16 e.obj)
    ++ bytes16 (BitVec.ofNat 16 e.aux) ++ bytes32 e.value ++ bytes32 e.tick

/-- Step 3 of R178: the record's write is queued at the ring place of the producer index, and is outstanding from then on. -/
def State.writeRecord (s : State) (x : Event) (w : Writing) : State :=
  (s.setEvt { s.evt with phase := .record w }).queueOwn
    (.write .eventRecord (s.eventAddr s.evt.producer) (x.bytes s.evt.seq))

/-- The EVENTS_LOST record for a count (R178 step 1). -/
def State.lostRecord (s : State) (n : Nat) : Event :=
  { kind := .eventsLost, reason := .none, obj := 0, aux := 0, value := BitVec.ofNat 32 n, tick := s.ref.count,
    cls := s.evt.classOf .eventsLost }

/-- The oldest staged record is removed unwritten and counted lost (R178 steps 1 and 2). -/
def EventUnit.dropFront (e : EventUnit) : EventUnit := { e.countLost with fifo := e.fifo.tail, lostDone := false }

/-- The event unit begins its oldest staged record (R178 steps 1 to 3). Nothing is begun while the start-up writes or a write of
its own are outstanding, or with nothing staged. -/
def State.beginRecord (s : State) : State :=
  match s.evt.phase, s.evt.fifo with
  | .idle, x :: _ =>
    if !s.startUp.over then s
    else if 0 < s.evt.lost ∧ s.evt.lostDone = false then
      if 2 ≤ s.evt.free then s.writeRecord (s.lostRecord s.evt.lost) (.lost s.evt.lost (s.evt.classOf .eventsLost))
      else s.setEvt s.evt.dropFront
    else if s.evt.free = 0 then s.setEvt s.evt.dropFront
    else s.writeRecord x .staged
  | _, _ => s

/-- EVENT_RECORD_WRITE (R178). -/
def execEventRecordWrite (s : State) : Host.Outcome State Fault Refusal := .next s.beginRecord

/-- The interrupt flag is set when a record of class LOG_INT is written (R178 step 4). -/
def flagAfter (old : Bool) (c : EventClass) : Bool :=
  match c with
  | .off => old
  | .log => old
  | .logInt => true

/-- Step 4 of R178 in the unit's record: indexes rise, the record leaves its place, the flag is set for LOG_INT. -/
def EventUnit.written (e : EventUnit) (w : Writing) : EventUnit :=
  let up := { e with producer := e.producer + 1, seq := e.seq + 1, phase := .producer }
  match w with
  | .resetDone =>
    { up with resetDone := none, intFlag := flagAfter e.intFlag (e.resetDone.map (·.cls) |>.getD .off) }
  | .lost n c => { up with lost := e.lost - n, lostDone := true, intFlag := flagAfter e.intFlag c }
  | .staged => { up with fifo := e.fifo.tail, lostDone := false, intFlag := flagAfter e.intFlag (e.fifo.head?.map (·.cls) |>.getD .off) }

/-- Steps 4 and 5 of R178: the record is written, and the write of EVT_PRODUCER is queued. -/
def State.recordWritten (s : State) (w : Writing) : State :=
  let e := s.evt.written w
  (s.setEvt e).queueOwn
    (.write .eventProducer (s.control 0x8) (bytes32 e.producer))

/-- The write of RESET_DONE is queued (R176, R178). -/
def State.writeResetDone (s : State) : State :=
  match s.evt.resetDone with
  | none => s
  | some x => s.writeRecord x .resetDone

/-- The write of step 3 fails: the ring place and the number are kept. A staged record is lost, EVENTS_LOST begins again at step 1,
RESET_DONE is tried again (R178). -/
def State.recordFailed (s : State) (w : Writing) : State :=
  match w with
  | .resetDone => s.writeResetDone
  | .lost _ _ => s.setEvt { s.evt with phase := .idle, lostDone := false }
  | .staged => s.setEvt { s.evt.dropFront with phase := .idle }

/-- An event record write ends (R178). -/
def State.recordEnd (s : State) (st : Status) : State :=
  match s.evt.phase with
  | .record w =>
    match st with
    | .good => s.recordWritten w
    | .error => s.recordFailed w
  | .idle => s
  | .producer => s

/-- The EVT_PRODUCER write ends: a run of failures raises one CONTROL_FAULT until one succeeds (R179). -/
def State.producerEnd (s : State) (st : Status) : State :=
  match s.evt.phase with
  | .producer =>
    match st with
    | .good => s.setEvt { s.evt with phase := .idle, producerFault := false }
    | .error =>
      let s1 := s.setEvt { s.evt with phase := .idle, producerFault := true }
      if s.evt.producerFault then s1 else s1.controlFault .timeout srcEventIndex s.evt.producer
  | .idle => s
  | .record _ => s

/-- The write completes at the store port, in time or not (R160). -/
def State.eventRecordEnd (s : State) (st : Status) : State := s.ownComplete .eventRecord st (fun x t => t.recordEnd x)

/-- EVENT_RECORD_WRITE_COMPLETE (R178). -/
def execEventRecordWriteComplete (st : Status) (s : State) : Host.Outcome State Fault Refusal :=
  .next (s.eventRecordEnd st)

/-- The write completes at the store port, in time or not (R160). -/
def State.evtProducerEnd (s : State) (st : Status) : State := s.ownComplete .eventProducer st (fun x t => t.producerEnd x)

/-- EVT_PRODUCER_WRITE_COMPLETE (R179). -/
def execEvtProducerWriteComplete (st : Status) (s : State) : Host.Outcome State Fault Refusal :=
  .next (s.evtProducerEnd st)

/-- The event unit takes the oldest EVT_CONSUMER word handed on (R180). -/
def State.takeConsumer (s : State) : State :=
  match s.mail.evtWords with
  | [] => s
  | x :: rest =>
    let s1 := s.setMail { s.mail with evtWords := rest }
    if Config.eventRoom < (s1.evt.producer - x).toNat then s1.controlFault .badIndex srcEvtConsumer x
    else s1.setEvt { s1.evt with consumer := x, intFlag := s1.evt.intFlag && decide (x ≠ s1.evt.producer) }

/-- EVT_CONSUMER (R180). -/
def execEvtConsumer (s : State) : Host.Outcome State Fault Refusal := .next s.takeConsumer

/-- The kinds that cannot be set below LOG: RESET_DONE, EVENTS_LOST, CONTROL_FAULT, codes 1 to 3 (R175). -/
def isKeptKind (code : Nat) : Bool := decide (1 ≤ code) && decide (code ≤ 3)

/-- EVENT_MASK at the event unit (R175). -/
def eventMask (r : CmdArgs) (s : State) : State × CmdResult :=
  let code := r.target.toNat
  match EventClass.ofCode r.a.toNat with
  | none => (s, .refused .badArg)
  | some c =>
    if code = 0 ∨ eventKindCount < code then (s, .refused .badArg)
    else
      let fit := if isKeptKind code ∧ c = .off then .log else c
      (s.setEvt { s.evt with classes := s.evt.classes.set (code - 1) fit },
       .fitted (decide (fit ≠ c)) (BitVec.ofNat 32 (s.evt.classes.getD (code - 1) .off).code))

/-- EVENT_MASK (R175). -/
def execEventMask (r : CmdArgs) (s : State) : Host.Outcome State Fault Refusal := .next (s.carryOut 0x15 r (eventMask r))

end Sys2Proof.Machine
end

