-- ==== Sys2Proof/Machine/Reports.lean ====
section
/-! DEFINITION. Reports.lean: the reports of 10.6, with the byte layouts of 11.6. -/

namespace Sys2Proof.Machine

/-- A one-byte field. -/
def u8 (n : Nat) : List Byte := [BitVec.ofNat 8 n]

/-- A two-byte field. -/
def u16 (n : Nat) : List Byte := bytes16 (BitVec.ofNat 16 n)

/-- A four-byte field. -/
def u32 (n : Nat) : List Byte := bytes32 (BitVec.ofNat 32 n)

/-- A flag as a byte. -/
def flagByte (b : Bool) : List Byte := u8 (if b then 1 else 0)

/-- A one-byte field that can hold none: all ones (R184). -/
def u8OrNone (o : Option Nat) : List Byte := u8 (o.getD 0xFF)

/-- A two-byte field that can hold none (R184). -/
def u16OrNone (o : Option Nat) : List Byte := u16 (o.getD 0xFFFF)

/-- A four-byte field that can hold none (R184). -/
def u32OrNone (o : Option Nat) : List Byte := u32 (o.getD 0xFFFFFFFF)

/-! ## The clip query record (11.6) -/

def ClipState.code : ClipState → Nat
  | .free => 0
  | .opened => 1
  | .closed => 2

/-- An extent entry. -/
def Extent.bytes (e : Extent) : List Byte := u32 e.rfn ++ u16 e.pos ++ u16 e.len

/-- The sixteen extent entries, the unused ones 0 (R183). -/
def extentBytes (es : List Extent) : List Byte :=
  ((es.take Config.maxExtents).map Extent.bytes).flatten ++ List.replicate (8 * (Config.maxExtents - es.length)) 0

/-- The 160 bytes of a clip's report (R183, 11.6). -/
def Clip.bytes (c : Clip) (k : Nat) : List Byte :=
  u8 k ++ u8 c.state.code ++ u8 c.chan.val ++ u8 c.extents.length ++ u32 c.inF ++ u32 c.outF ++ u8 c.flags
    ++ u8OrNone (c.attached.map (·.val)) ++ u8 c.rating ++ u8 c.reason.code ++ bytes16 c.tag ++ u16 0
    ++ u32OrNone c.quick ++ bytes32 c.creation ++ u32 (c.outF - c.inF + 1) ++ extentBytes c.extents

/-! ## The snapshot record (11.6) -/

def RefState.code : RefState → Nat
  | .absent => 0
  | .locked => 1
  | .flywheel => 2

def ProcState.code : ProcState → Nat
  | .idle => 0
  | .fetching => 1
  | .executing => 2
  | .writing => 3
  | .halted => 4

def ChanState.code : ChanState → Nat
  | .off => 0
  | .ready => 1
  | .armed => 2
  | .recording => 3
  | .stopping => 4

/-- The general part, 48 bytes: `d`, `r`, `p` and `e` are the states in which the window decoder, the reference unit, the command
processor and the event unit are read. -/
def generalBytes (d r p e : State) : List Byte :=
  flagByte d.mem.active ++ u8 r.ref.state.code ++ u8 d.mem.stride ++ u8 p.proc.state.code
    ++ u32 (d.mem.region / 2 ^ 20) ++ u32 (d.mem.slotBase / 2 ^ 20) ++ u32 (d.mem.slate / 2 ^ 20)
    ++ u32 r.ref.period ++ bytes32 r.ref.count ++ bytes32 e.evt.producer ++ bytes32 e.evt.consumer ++ u32 e.evt.lost
    ++ u8 e.evt.fifo.length ++ flagByte e.evt.intFlag ++ flagByte e.evt.producerFault ++ flagByte p.proc.halted
    ++ bytes32 p.proc.consumer ++ bytes32 p.proc.producer

/-- The current record, as fetched, with status, reason and result as they stand; 0 when none. -/
def State.currentBytes (s : State) : List Byte :=
  match s.proc.current with
  | none => List.replicate 32 0
  | some r => r.bytes r.args.flags

/-- A channel entry, 24 bytes. -/
def Channel.bytes (c : Channel) : List Byte :=
  u8 c.state.code ++ u8 c.phases ++ u16 c.firstSlot ++ u16 c.len ++ u16 c.reserve ++ u16 c.cursor ++ u16 c.locked
    ++ u32 c.nextRfn ++ u32 c.tail ++ u32 0

/-- State code of a source. -/
def Src.kind : Src → Nat
  | .idle => 0
  | .live _ => 1
  | .clip _ => 2

/-- Channel or clip id of a source; 0 for IDLE. -/
def Src.object : Src → Nat
  | .idle => 0
  | .live c => c.val
  | .clip k => k

/-- A head entry, 32 bytes. -/
def Head.bytes (h : Head) : List Byte :=
  u8 h.src.kind ++ u8 h.src.object
    ++ u8 (match h.endMode with
        | .stop => 0
        | .loop => 1)
    ++ u8 (match h.owner with
        | .command => 0
        | .panel => 1)
    ++ u8 (h.flags + bit h.attached.isSome 3) ++ u8 (h.attached.getD 0) ++ u8 (h.pos % 256)
    ++ u8OrNone (h.shown.map (·.chan.val)) ++ u32 (h.pos / 256) ++ u32OrNone h.goto
    ++ bytes16 (BitVec.ofInt 16 h.rate) ++ bytes16 (BitVec.ofInt 16 h.target) ++ u16 h.slew
    ++ u16OrNone (h.shown.map (·.slot)) ++ u32OrNone (h.shown.map (·.rfn)) ++ u16OrNone h.trailing
    ++ u8OrNone (h.shown.map (·.src.kind)) ++ u8 ((h.shown.map (·.src.object)).getD 0)

/-- A port entry, 56 bytes. -/
def Port.bytes (p : Port) : List Byte :=
  u8OrNone (p.binding.map (·.val)) ++ flagByte p.fault ++ flagByte p.outside ++ u8 p.restore ++ flagByte p.activeLow
    ++ flagByte p.outputUnit ++ u8 p.quartersPerStep ++ u8 p.filter ++ u8 p.debounce ++ [BitVec.ofInt 8 p.jog] ++ u8 p.jogErrors
    ++ u8 p.keyFlags ++ u16 p.lever ++ u16 p.centre ++ u16 p.dead ++ u16 p.panelSlew
    ++ ((List.range 17).map (fun i => u16 (p.knots.getD i 0))).flatten ++ u16 0

/-- The 512 bytes of a snapshot whose parts are read in the given states (R182, 11.6). -/
def snapshotOf (seen : SnapPart → State) : List Byte :=
  generalBytes (seen .decoder) (seen .reference) (seen .processor) (seen .events) ++ (seen .processor).currentBytes
    ++ (allChans.map (fun c => ((seen (.channel c)).chan c).bytes)).flatten
    ++ (allHeads.map (fun h => ((seen (.head h)).head h).bytes)).flatten
    ++ (allPorts.map (fun p => ((seen (.port p)).port p).bytes)).flatten

/-- The 512 bytes of a snapshot whose parts are all read in one state. -/
def State.snapshotBytes (s : State) : List Byte := snapshotOf (fun _ => s)

/-! ## Report writes, and CLIP_QUERY (R182, R183) -/

/-- A report is queued as own writes, split at a 4 KiB boundary it crosses (R182, R183). -/
def State.queueReport (s : State) (a : Addr) (bytes : List Byte) : State :=
  let room := 4096 - a.toNat % 4096
  if bytes.length ≤ room then
    s.queueOwn (.write .report a bytes)
  else
    (s.queueOwn (.write .report a (bytes.take room))).queueOwn (.write .report (a + BitVec.ofNat 40 room) (bytes.drop room))

/-- A report address is taken: a multiple of 64 with room below 2^40 (R182, R183). -/
def reportFits (a : Addr) (n : Nat) : Bool := decide (a.toNat % 64 = 0) && decide (a.toNat + n ≤ Config.addrEnd)

/-- CLIP_QUERY at the clip manager (R183). -/
def clipQuery (r : CmdArgs) (s : State) : State × Option CmdResult :=
  match targetClip r with
  | none => (s, some (.refused .badArg))
  | some k =>
    if !reportFits (addrArg r) 160 then (s, some (.refused .badArg))
    else if (s.clip k).state = .free then (s, some (.refused .noClip))
    else (s.queueReport (addrArg r) ((s.clip k).bytes k), none)

/-- CLIP_QUERY (R183). -/
def execClipQuery (r : CmdArgs) (s : State) : Host.Outcome State Fault Refusal := .next (s.carryOutLong 0x11 r (clipQuery r))

/-- Source of a report fault: the snapshot's or the query's writes (11.7). -/
def State.reportSource (s : State) : Nat :=
  match s.proc.current with
  | none => srcSnapshotWrite
  | some r => if r.kind = kindClipQuery then srcQueryWrite else srcSnapshotWrite

/-- A failed report write posts CONTROL_FAULT, once for the command (R182, R183, assumption log 20). DESIGN CHOICE (assumption log
38): the "consumer index" it carries is the command processor's (9.3), whose command fails, and not the event unit's (10.2). -/
def State.reportFail (s : State) : State :=
  if s.proc.reportFailed then s
  else (s.setProc { s.proc with reportFailed := true }).controlFault .timeout s.reportSource s.proc.consumer

/-- A write of the report has ended. The command completes when no write of it is left: with result 1, or 0 after a failure
(R182, R183). -/
def State.reportEnd (s : State) (st : Status) : State :=
  let s1 := match st with
    | .good => s
    | .error => s.reportFail
  match s1.proc.state with
  | .executing =>
    if s1.mem.ownQ.any (fun r => decide (r.req = .report)) || s1.mem.ownWait.any (fun r => decide (r.req = .report)) then s1
    else s1.endCommand (.done (if s1.proc.reportFailed then 0 else 1))
  | .idle => s1
  | .fetching => s1
  | .writing => s1
  | .halted => s1

/-- REPORT_WRITE_COMPLETE (R182, R183). -/
def execReportWriteComplete (st : Status) (s : State) : Host.Outcome State Fault Refusal :=
  .next (s.ownComplete .report st (fun x t => t.reportEnd x))

end Sys2Proof.Machine
end

