-- ==== Sys2Proof/Machine/Panels.lean ====
section
/-! DEFINITION. Panels.lean: the panel ports of chapter 7: lever measurement, faults, the dead zone, curve installation, jog
decoding, keys, and the commands PANEL_BIND, PANEL_CURVE, PANEL_TIMING. -/

namespace Sys2Proof.Machine

/-! ## The lever (R131 to R134) -/

/-- Why a closed cycle is not valid: the reason and the value PANEL_FAULT carries; none for a valid cycle (R131, R132). -/
def cycleFault (period active : Nat) : Option (Reason × Nat) :=
  if period < Config.minLever ∨ Config.maxLever < period then some (.badPeriod, period)
  else if active = 0 ∨ active = period then some (.badActive, active)
  else none

/-- Lever value of a valid cycle (R131). -/
def leverValue (period active : Nat) : Nat := min 1023 (1024 * active / period)

/-- The lever is faulted (R132). -/
def State.faultLever (s : State) (p : PortId) (why : Reason) (value : Nat) : State :=
  if (s.port p).fault then s.setPort p { s.port p with restore := 0 }
  else
    (s.setPort p { s.port p with fault := true, restore := 0, outside := false }).raise .panelFault why p.val 0
      (BitVec.ofNat 32 value)

/-- A takeover notice to the bound head, if any (R134). -/
def State.noticeTakeover (s : State) (p : PortId) : State :=
  match (s.port p).binding with
  | none => s
  | some h => s.tellFromPort p (.takeover h)

/-- A valid cycle in fault: the restore count rises, and at 4 the lever is restored (R133). -/
def State.restoreLever (s : State) (p : PortId) : State :=
  if (s.port p).restore + 1 < Config.restoreCycles then s.setPort p { s.port p with restore := (s.port p).restore + 1 }
  else
    (s.setPort p { s.port p with fault := false, restore := 0, outside := (s.port p).leverOutside }).raise
      .panelRestored .none p.val 0 (BitVec.ofNat 32 (s.port p).lever)

/-- A valid cycle out of fault: the zone is decided, and a move from INSIDE to OUTSIDE is told to the bound head (R134). -/
def State.zoneCycle (s : State) (p : PortId) : State :=
  let s1 := s.setPort p { s.port p with outside := (s.port p).leverOutside }
  if (s.port p).outside = false ∧ (s.port p).leverOutside then s1.noticeTakeover p else s1

/-- A valid cycle gives the lever value, and then the restore or the zone check (R131). -/
def State.validCycle (s : State) (p : PortId) (u : Nat) : State :=
  let s1 := s.setPort p { s.port p with lever := u }
  if (s1.port p).fault then s1.restoreLever p else s1.zoneCycle p

/-- A closed cycle is judged (R131). -/
def State.closeCycle (s : State) (p : PortId) (period active : Nat) : State :=
  match cycleFault period active with
  | some (why, value) => s.faultLever p why value
  | none => s.validCycle p (leverValue period active)

/-- The no-edge timer expires at time `due`: the open cycle is dropped, the timer loaded again, the lever faulted (R132). -/
def State.noEdge (s : State) (p : PortId) (due : Nat) : State :=
  (s.setPort p { s.port p with cycle := none, noEdge := due }).faultLever p .noEdge Config.noEdgeTime

/-- Time at which the no-edge timer of a port is due (R132). -/
def State.noEdgeDue (s : State) (p : PortId) : Nat := (s.port p).noEdge + Config.noEdgeTime

/-- The timer expires at the time it is due. -/
def State.noEdgeExpiry (s : State) (p : PortId) : State := (s.setTime (s.noEdgeDue p)).noEdge p (s.noEdgeDue p)

/-- NO_EDGE_TIMER_EXPIRY (R132). -/
def execNoEdgeTimerExpiry (p : PortId) (s : State) : Host.Outcome State Fault Refusal := .next (s.noEdgeExpiry p)

/-- An active edge at the time `now`: it closes the open cycle, if any, and opens the next one (R131). -/
def State.activeEdge (s : State) (p : PortId) : State :=
  let opened := s.setPort p { s.port p with cycle := some { start := s.now } }
  match (s.port p).cycle with
  | none => opened
  | some c => opened.closeCycle p (s.now - c.start) (c.active.getD 0)

/-- An inactive edge at the time `now`: it sets the active time of the open cycle, if any (R131). -/
def State.inactiveEdge (s : State) (p : PortId) : State :=
  match (s.port p).cycle with
  | none => s
  | some c => s.setPort p { s.port p with cycle := some { c with active := some (s.now - c.start) } }

/-- LEV changes to `level` at the time `now`: every edge loads the no-edge timer (R131, R132). -/
def State.edge (s : State) (p : PortId) (level : Bool) : State :=
  let s1 := s.setPort p { s.port p with lev := level, noEdge := s.now }
  if level = !(s.port p).activeLow then s1.activeEdge p else s1.inactiveEdge p

/-- An edge at `time`; an expiry of the no-edge timer that was due before it is taken first (assumption log 5). A level that is
no change is no edge. -/
def State.levEdge (s : State) (p : PortId) (level : Bool) (time : Nat) : State :=
  if level = (s.port p).lev then s
  else
    let s1 := if s.noEdgeDue p < max s.now time then s.noEdgeExpiry p else s
    (s1.setTime time).edge p level

/-- LEV_EDGE (R131 to R134). -/
def execLevEdge (p : PortId) (level : Bool) (time : Nat) (s : State) : Host.Outcome State Fault Refusal :=
  .next (s.levEdge p level time)

/-! ## The jog wheel (R138 to R140) -/

/-- Place of a pair of filtered levels in the forward order (R140). -/
def jogPlace (ja jb : Bool) : Nat :=
  match ja, jb with
  | false, false => 0
  | true, false => 1
  | true, true => 2
  | false, true => 3

/-- A step formed by the decoder: to the accumulator of a bound port, clamped; discarded on an unbound one (R138). -/
def Port.step (p : Port) (d : Int) : Port :=
  match p.binding with
  | none => p
  | some _ => { p with jog := clampInt (-127) 127 (p.jog + d) }

/-- A quarter counted, and the step it may form (R140). -/
def Port.quarter (p : Port) (d : Int) : Port :=
  if (p.quartersPerStep : Int) ≤ p.quarters + d then { p with quarters := 0 }.step 1
  else if p.quarters + d ≤ -(p.quartersPerStep : Int) then { p with quarters := 0 }.step (-1)
  else { p with quarters := p.quarters + d }

/-- The decoder takes a change of the filtered pair `turn` places forward, modulo 4 (R140). -/
def Port.decode (p : Port) (turn : Nat) : Port :=
  match turn with
  | 0 => p
  | 1 => p.quarter 1
  | 2 => { p with jogErrors := min (p.jogErrors + 1) 255 }
  | _ => p.quarter (-1)

/-- The jog lines take new records, and the decoder takes the change of the filtered pair (R140). -/
def Port.setJog (p : Port) (ja jb : JogLine) : Port :=
  { p with ja, jb }.decode ((jogPlace ja.filtered jb.filtered + 4 - jogPlace p.ja.filtered p.jb.filtered) % 4)

/-- Time at which a line's qualification completes, held `f` microseconds (R139). -/
def JogLine.due (l : JogLine) (f : Nat) : Option Nat := l.qual.map (· + f)

/-- The line's filtered level becomes its level (R139). -/
def JogLine.accepted (l : JogLine) : JogLine := { l with filtered := l.level, qual := none }

/-- Time at which the next qualification of the port's jog lines completes (R139). -/
def Port.jogDue (p : Port) : Option Nat :=
  match p.ja.due p.filter, p.jb.due p.filter with
  | none, d => d
  | some d, none => some d
  | some d, some e => some (min d e)

/-- The qualifications due at that time complete together (R139, R140). -/
def Port.jogComplete (p : Port) : Port :=
  match p.jogDue with
  | none => p
  | some d =>
    p.setJog (if p.ja.due p.filter = some d then p.ja.accepted else p.ja)
      (if p.jb.due p.filter = some d then p.jb.accepted else p.jb)

/-- A completion due by time `t` is taken (R139). -/
def Port.jogSettle (p : Port) (t : Nat) : Port := if p.jogDue.any (fun d => decide (d ≤ t)) then p.jogComplete else p

/-- A line takes a level at time `t`: away from its filtered level a qualification starts, back at it the qualification is dropped
(R139). -/
def JogLine.change (l : JogLine) (level : Bool) (t : Nat) : JogLine :=
  if level = l.level then l
  else if level = l.filtered then { l with level, qual := none }
  else { l with level, qual := some t }

/-- JA and JB take levels at time `t`. Completions due by then are taken first, and with F = 0 the change counts at once (R139,
assumption log 28). -/
def Port.jogChange (p : Port) (ja jb : Bool) (t : Nat) : Port :=
  let p1 := (p.jogSettle t).jogSettle t
  { p1 with ja := p1.ja.change ja t, jb := p1.jb.change jb t }.jogSettle t

/-- The jog lines take levels at `time` (R139, R140). -/
def State.jogLines (s : State) (p : PortId) (ja jb : Bool) (time : Nat) : State :=
  (s.setTime time).setPort p ((s.port p).jogChange ja jb (s.setTime time).now)

/-- JOG_LINE_CHANGE (R139, R140). -/
def execJogLineChange (p : PortId) (ja jb : Bool) (time : Nat) (s : State) : Host.Outcome State Fault Refusal :=
  .next (s.jogLines p ja jb time)

/-- The qualifications due next complete, at their own time; with none in progress nothing is taken (R139). -/
def State.jogExpiry (s : State) (p : PortId) : State :=
  match (s.port p).jogDue with
  | none => s
  | some d => (s.setTime d).setPort p (s.port p).jogComplete

/-- JOG_FILTER_EXPIRY (R139, R140). -/
def execJogFilterExpiry (p : PortId) (s : State) : Host.Outcome State Fault Refusal := .next (s.jogExpiry p)

/-! ## Keys (R141, R142) -/

/-- A key of a port. -/
def Port.key (p : Port) : Key → KeyLine
  | .kin => p.kin
  | .kout => p.kout
  | .kqk => p.kqk

/-- The port with a key's record set. -/
def Port.setKey (p : Port) (k : Key) (x : KeyLine) : Port :=
  match k with
  | .kin => { p with kin := x }
  | .kout => { p with kout := x }
  | .kqk => { p with kqk := x }

/-- Time at which a key's qualification completes (R141). -/
def Port.keyDue (p : Port) (k : Key) : Option Nat := (p.key k).qual.map (· + p.debounce * 1000)

/-- A press on a bound port sends a mark for the bound head; on an unbound one it is discarded (R142). -/
def State.press (s : State) (p : PortId) (k : Key) : State :=
  match (s.port p).binding with
  | none => s
  | some h => s.setMail { s.mail with portMarks := pushAt s.mail.portMarks p { head := h, kind := markOfKey k } }

/-- The key's accepted state becomes that of its line (R141, R142). -/
def State.keyAccept (s : State) (p : PortId) (k : Key) : State :=
  let x := (s.port p).key k
  let s1 := s.setPort p ((s.port p).setKey k { x with pressed := !x.level, qual := none })
  if x.level = false ∧ x.pressed = false then s1.press p k else s1

/-- The key's qualification completes, at its own time; with none in progress nothing is taken (R141). -/
def State.keyExpiry (s : State) (p : PortId) (k : Key) : State :=
  match (s.port p).keyDue k with
  | none => s
  | some d => (s.setTime d).keyAccept p k

/-- KEY_DEBOUNCE_EXPIRY (R141, R142). -/
def execKeyDebounceExpiry (p : PortId) (key : Key) (s : State) : Host.Outcome State Fault Refusal := .next (s.keyExpiry p key)

/-- A key line takes a level at time `t`: away from the accepted state a qualification starts, back at it the qualification is
dropped (R141). -/
def KeyLine.change (x : KeyLine) (level : Bool) (t : Nat) : KeyLine :=
  if level = x.level then x
  else if x.pressed = !level then { x with level, qual := none }
  else { x with level, qual := some t }

/-- A key line changes at `time`; a completion due by then is taken first (R141, assumption log 5). -/
def State.keyChange (s : State) (p : PortId) (k : Key) (level : Bool) (time : Nat) : State :=
  let t := max s.now time
  let s1 := if ((s.port p).keyDue k).any (fun d => decide (d ≤ t)) then s.keyExpiry p k else s
  (s1.setTime time).setPort p ((s1.port p).setKey k (((s1.port p).key k).change level t))

/-- KEY_LINE_CHANGE (R141). -/
def execKeyLineChange (p : PortId) (key : Key) (level : Bool) (time : Nat) (s : State) : Host.Outcome State Fault Refusal :=
  .next (s.keyChange p key level time)

/-! ## PANEL_BIND (R130) -/

/-- The head PANEL_BIND names in argument A: some none for 0xFFFFFFFF, none for a value that is neither (R130). -/
def bindArg (w : Word) : Option (Option HeadId) :=
  if w = 0xFFFFFFFF then some none else (headArg w).map some

/-- The result word of PANEL_BIND (R130). -/
def bindingWord (o : Option HeadId) : Word :=
  match o with
  | none => 0xFFFFFFFF
  | some h => BitVec.ofNat 32 h.val

/-- A head is handed a port-lost notice from a port (R53, R130). -/
def State.noticeLost (s : State) (p : PortId) (o : Option HeadId) : State :=
  match o with
  | none => s
  | some h => s.tellFromPort p (.portLost h)

/-- The other port. -/
def otherPort (p : PortId) : PortId := if p = 0 then 1 else 0

/-- Step 2 of R130: the other port, when it is bound to the new head, becomes unbound. -/
def State.takeFromOther (s : State) (p : PortId) (o : Option HeadId) : State :=
  match o with
  | none => s
  | some h =>
    if (s.port (otherPort p)).binding = some h then
      (s.setPort (otherPort p) { s.port (otherPort p) with binding := none, jog := 0 }).noticeLost (otherPort p) (some h)
    else s

/-- Steps 1 to 3 of R130. -/
def State.bind (s : State) (p : PortId) (o : Option HeadId) : State :=
  let s1 := (s.noticeLost p (s.port p).binding).takeFromOther p o
  s1.setPort p { s1.port p with binding := o, jog := 0 }

/-- PANEL_BIND at its port (R130). -/
def panelBind (r : CmdArgs) (s : State) : State × CmdResult :=
  match targetPort r, bindArg r.a with
  | some p, some o =>
    (if o = (s.port p).binding then s else s.bind p o, .done (bindingWord (s.port p).binding))
  | _, _ => (s, .refused .badArg)

/-- PANEL_BIND (R130). -/
def execPanelBind (r : CmdArgs) (s : State) : Host.Outcome State Fault Refusal := .next (s.carryOut 0x12 r (panelBind r))

/-! ## PANEL_TIMING (R143, R144) -/

/-- A code of two values: 0 or 1 (11.7). -/
def codeBit (n : Nat) : Option Bool :=
  match n with
  | 0 => some false
  | 1 => some true
  | _ => none

/-- A jog line's qualification starts again at time `t` (R139). -/
def JogLine.restart (l : JogLine) (t : Nat) : JogLine := { l with qual := if l.level = l.filtered then none else some t }

/-- A key's qualification starts again at time `t` (R141). -/
def KeyLine.restart (x : KeyLine) (t : Nat) : KeyLine := { x with qual := if x.pressed = !x.level then none else some t }

/-- The port with new timings, fitted, at time `t`; the qualifications in progress are dropped and started again (R139, R141, R143,
R144). DESIGN CHOICE (assumption log 31): so is a jog or key qualification that was due before `t` and whose expiry row has not
been sent; it is not completed first. -/
def Port.retime (p : Port) (r : CmdArgs) (output low : Bool) (t : Nat) : Port :=
  { p with
    filter := min r.a.toNat 255
    quartersPerStep := fitQuarters r.b.toNat
    outputUnit := output
    activeLow := low
    debounce := clampNat 1 64 r.d.toNat
    jogErrors := 0
    quarters := 0
    ja := p.ja.restart t
    jb := p.jb.restart t
    kin := p.kin.restart t
    kout := p.kout.restart t
    kqk := p.kqk.restart t
    cycle := if low = p.activeLow then p.cycle else none }

/-- Some value of PANEL_TIMING changes in fitting (R143). -/
def timingFits (r : CmdArgs) : Bool :=
  decide (r.a.toNat ≤ 255) && decide (fitQuarters r.b.toNat = r.b.toNat) && decide (clampNat 1 64 r.d.toNat = r.d.toNat)

/-- PANEL_TIMING at its port (R143, R144). -/
def panelTiming (r : CmdArgs) (s : State) : State × CmdResult :=
  match targetPort r, codeBit (r.c.toNat % 65536), codeBit (r.c.toNat / 65536) with
  | some p, some output, some low =>
    (s.setPort p ((s.port p).retime r output low s.now), .fitted (!timingFits r) (BitVec.ofNat 32 (s.port p).jogErrors))
  | _, _, _ => (s, .refused .badArg)

/-- PANEL_TIMING (R143, R144). -/
def execPanelTiming (r : CmdArgs) (s : State) : Host.Outcome State Fault Refusal := .next (s.carryOut 0x14 r (panelTiming r))

/-! ## PANEL_CURVE (R136, R137) -/

/-- PANEL_CURVE at the processor: a 64-byte read is queued, and the command stays in execution (R136). -/
def panelCurve (r : CmdArgs) (s : State) : State × Option CmdResult :=
  match targetPort r with
  | none => (s, some (.refused .badArg))
  | some _ =>
    if reportFits (addrArg r) 64 then (s.queueOwn (.read .curve (addrArg r) 2), none)
    else (s, some (.refused .badArg))

/-- PANEL_CURVE (R136). -/
def execPanelCurve (r : CmdArgs) (s : State) : Host.Outcome State Fault Refusal :=
  .next (s.carryOutLong 0x13 r (panelCurve r))

/-- The knots with each one below the knot before it raised to it (R137 step 2). -/
def raiseKnots : (floor : Nat) → List Nat → List Nat
  | _, [] => []
  | floor, k :: ks => max floor k :: raiseKnots (max floor k) ks

/-- A field of a curve record, 16 bits (11.5). -/
def curveField (data : List Byte) (off : Nat) : Nat := (half data off).toNat

/-- The 17 knots of a record as they stand in it (11.5). -/
def curveKnots (data : List Byte) : List Nat := (List.range 17).map (fun i => curveField data (2 * i))

/-- The fitted knots (R137 steps 1 and 2). -/
def fitKnots (ks : List Nat) : List Nat := raiseKnots 0 (ks.map (fun k => min k Config.maxRate))

/-- Some value of a record changes in fitting (R137). -/
def curveClamped (data : List Byte) : Bool :=
  decide (fitKnots (curveKnots data) ≠ curveKnots data) ||
    decide (clampNat 256 767 (curveField data 0x22) ≠ curveField data 0x22) ||
    decide (clampNat 0 127 (curveField data 0x24) ≠ curveField data 0x24) ||
    decide (clampNat 1 2048 (curveField data 0x26) ≠ curveField data 0x26)

/-- The port with the fitted record installed (R137). -/
def Port.withCurve (p : Port) (data : List Byte) : Port :=
  { p with knots := fitKnots (curveKnots data), centre := clampNat 256 767 (curveField data 0x22),
           dead := clampNat 0 127 (curveField data 0x24), panelSlew := clampNat 1 2048 (curveField data 0x26) }

/-- The port sets its zone from its u; a faulted lever stays INSIDE (R137). -/
def Port.rezone (p : Port) : Port := { p with outside := !p.fault && p.leverOutside }

/-- The port of the command in progress. -/
def State.curvePort (s : State) : Option PortId :=
  match s.proc.current with
  | none => none
  | some r => targetPort r.args

/-- The curve read is GOOD: the record is installed and the command completes with result 1 (R136, R137). -/
def State.installCurve (s : State) (data : List Byte) : State :=
  match s.proc.state, s.curvePort with
  | .executing, some p => (s.setPort p ((s.port p).withCurve data).rezone).endCommand (.fitted (curveClamped data) 1)
  | _, _ => s

/-- The curve read fails: no curve is installed, and the command completes with result 0 (R136). DESIGN CHOICE (assumption
log 38): the "consumer index" that its CONTROL_FAULT carries is the command processor's (9.3), and not the event unit's (10.2). -/
def State.curveFail (s : State) : State :=
  if s.proc.state = .executing then (s.controlFault .timeout srcCurveFetch s.proc.consumer).endCommand (.done 0) else s

/-- The curve read ends (R136). -/
def State.curveEnd (s : State) (data : List Byte) (st : Status) : State :=
  match st with
  | .good => s.installCurve data
  | .error => s.curveFail

/-- CURVE_FETCH_COMPLETE (R136, R137). -/
def execCurveFetchComplete (data : List Byte) (st : Status) (s : State) : Host.Outcome State Fault Refusal :=
  .next (s.ownComplete .curve st (fun x t => t.curveEnd data x))

end Sys2Proof.Machine
end

