-- ==== Sys2Proof/Machine/Processor.lean ====
section
/-! DEFINITION. Processor.lean: the command processor of chapter 9, the end of the start-up writes, and the timeout of an own
request at each requester (R160). -/

namespace Sys2Proof.Machine

/-! ## The producer word (R165) -/

/-- Pending lies in 1..128. -/
def Proc.hasWork (p : Proc) : Bool :=
  decide (1 ≤ pendingOf p.producer p.consumer) && decide (pendingOf p.producer p.consumer ≤ Config.ringSize)

/-- With no command in progress the processor fetches the next record, or is IDLE (R165, R170). -/
def State.fetchOrIdle (s : State) : State :=
  if s.proc.hasWork then s.startFetch else s.setProc { s.proc with state := .idle, current := none }

/-- A producer value is in place: IDLE and HALTED go on from it (R165). -/
def State.resume (s : State) : State :=
  match s.proc.state with
  | .idle => s.fetchOrIdle
  | .halted => (s.setProc { s.proc with halted := false }).fetchOrIdle
  | .fetching => s
  | .executing => s
  | .writing => s

/-- The processor judges a producer value (R165). -/
def State.producerWord (s : State) (v : Word) : State :=
  if Config.ringSize < pendingOf v s.proc.consumer then s.controlFault .badIndex srcCmdProducer v
  else (s.setProc { s.proc with producer := v }).resume

/-- The processor takes the oldest CMD_PRODUCER word handed on (R163, R165). -/
def State.takeProducer (s : State) : State :=
  match s.mail.cmdWords with
  | [] => s
  | v :: rest => (s.setMail { s.mail with cmdWords := rest }).producerWord v

/-- CMD_PRODUCER (R165). -/
def execCmdProducer (s : State) : Host.Outcome State Fault Refusal := .next s.takeProducer

/-! ## Fetch, write-back and consumer update (R166 to R170) -/

/-- UNKNOWN_KIND: refused, no block reached (R167). A kind that is a command is no such row. -/
def execUnknownKind (kind : Byte) (r : CmdArgs) (s : State) : Host.Outcome State Fault Refusal :=
  .next (if isCommandKind kind then s else s.carryOut kind r (fun t => (t, .refused .unknownKind)))

/-- The consumer update: the index rises and its write is queued (R170). -/
def State.consumerUpdate (s : State) : State :=
  (s.setProc { s.proc with consumer := s.proc.consumer + 1 }).queueOwn
    (.write .consumerWrite (s.control 0x4) (bytes32 (s.proc.consumer + 1)))

/-- The write-back ends (R169). -/
def State.writeBackEnd (s : State) (st : Status) : State :=
  if s.proc.state = .writing then
    match st with
    | .good => s.consumerUpdate
    | .error => (s.controlFault .timeout srcWriteBack s.proc.consumer).consumerUpdate
  else s

/-- WRITE_BACK_COMPLETE (R169, R170). -/
def execWriteBackComplete (st : Status) (s : State) : Host.Outcome State Fault Refusal :=
  .next (s.ownComplete .writeBack st (fun x t => t.writeBackEnd x))

/-- The CMD_CONSUMER write ends, and the processor leaves WRITING (R170). -/
def State.consumerEnd (s : State) (st : Status) : State :=
  if s.proc.state = .writing then
    match st with
    | .good => s.fetchOrIdle
    | .error => (s.controlFault .timeout srcConsumerWrite s.proc.consumer).fetchOrIdle
  else s

/-- CMD_CONSUMER_WRITE_COMPLETE (R170). -/
def execCmdConsumerWriteComplete (st : Status) (s : State) : Host.Outcome State Fault Refusal :=
  .next (s.ownComplete .consumerWrite st (fun x t => t.consumerEnd x))

/-! ## Start-up (R173, R174) -/

/-- A start-up write is over, good or not. -/
def StartUp.ended (u : StartUp) (w : StartWrite) (st : Status) : StartUp :=
  match w with
  | .cmdConsumer => { u with cmdWait := false, cmdFail := decide (st = .error) }
  | .evtProducer => { u with evtWait := false, evtFail := decide (st = .error) }

/-- The event RESET_DONE (R176). -/
def State.resetDoneEvent (s : State) : Event :=
  { kind := .resetDone, reason := .none, obj := 0, aux := 0, value := 0, tick := s.ref.count, cls := s.evt.classOf .resetDone }

/-- RESET_DONE is raised, and its write is queued at once (R173, R176). -/
def State.raiseResetDone (s : State) : State := (s.setEvt { s.evt with resetDone := some s.resetDoneEvent }).writeResetDone

/-- CONTROL_FAULT for each start-up write that failed (R174). DESIGN CHOICE (assumption log 37): where both have failed, the one
with aux CONSUMER_WRITE is staged first, the one with aux EVENT_INDEX second; R174 gives no order. -/
def State.startUpFaults (s : State) : State :=
  let s1 := if s.startUp.cmdFail then s.controlFault .timeout srcConsumerWrite 0 else s
  if s.startUp.evtFail then s1.controlFault .timeout srcEventIndex 0 else s1

/-- A start-up write ends; when both have ended, RESET_DONE is raised and the failures are posted (R173, R174). -/
def State.startUpEnd (s : State) (w : StartWrite) (st : Status) : State :=
  let s1 := s.setStartUp (s.startUp.ended w st)
  if s1.startUp.over then s1.raiseResetDone.startUpFaults else s1

/-- The requester of a start-up write. -/
def startRequester : StartWrite → Requester
  | .cmdConsumer => .startCmd
  | .evtProducer => .startEvt

/-- START_UP_WRITE_COMPLETE (R173, R174). -/
def execStartUpWriteComplete (w : StartWrite) (st : Status) (s : State) : Host.Outcome State Fault Refusal :=
  .next (s.ownComplete (startRequester w) st (fun x t => t.startUpEnd w x))

/-! ## Timeouts (R160) -/

/-- What a requester does when it is told TIMEOUT (R160). -/
def State.told (s : State) (q : Requester) : State :=
  match q with
  | .startCmd => s.startUpEnd .cmdConsumer .error
  | .startEvt => s.startUpEnd .evtProducer .error
  | .fetch => s.fetchFail
  | .writeBack => s.writeBackEnd .error
  | .consumerWrite => s.consumerEnd .error
  | .curve => s.curveFail
  | .report => s.reportEnd .error
  | .eventRecord => s.recordEnd .error
  | .eventProducer => s.producerEnd .error

/-- Time of an own request's end: 1,000 us after its issue for a timeout, at once for a completion with ERROR (R160). -/
def State.endTime (s : State) (cause : TimeoutCause) (issued : Nat) : State :=
  match cause with
  | .elapsed => s.setTime (issued + Config.ownTimeout)
  | .error => s

/-- Own request `k` leaves the queue unfinished, and its requester is told TIMEOUT; a request not yet issued has no timeout
(R160). -/
def State.ownTimeout (s : State) (k : Nat) (cause : TimeoutCause) : State :=
  match s.mem.ownQ[k]? with
  | none => s
  | some r =>
    match r.issued with
    | none => s
    | some t => ((s.endTime cause t).leaveOwn k).told r.req

/-- OWN_REQUEST_TIMEOUT (R160). -/
def execOwnRequestTimeout (k : Nat) (cause : TimeoutCause) (s : State) : Host.Outcome State Fault Refusal :=
  .next (s.ownTimeout k cause)

end Sys2Proof.Machine
end

