-- ==== Sys2Proof/Machine/Reset.lean ====
section
/-! DEFINITION. Reset.lean: RESET_N (R161, R3, R14, R19, R43, R85, R117, R118, R128, R148, R162, R164, R173, R175, R176). -/

namespace Sys2Proof.Machine

/-- The start-up writes for latched straps, in the order they are queued (R173, assumption log 7). -/
def startUpWrites (cbsel : BitVec 4) (evtFirst : Bool) : List OwnReq :=
  if evtFirst then [startEvtWrite cbsel, startCmdWrite cbsel] else [startCmdWrite cbsel, startEvtWrite cbsel]

/-- A jog line at the release: the filtered level becomes the line's level (R139). -/
def JogLine.released (l : JogLine) : JogLine := { level := l.level, filtered := l.level }

/-- A key at the release: a low line starts a qualification at that moment (R141). -/
def KeyLine.released (x : KeyLine) : KeyLine := { level := x.level, qual := if x.level then none else some 0 }

/-- A port at the release: every field at its default, the lines at the levels they have (R128). -/
def Port.released (p : Port) : Port :=
  { lev := p.lev, ja := p.ja.released, jb := p.jb.released, kin := p.kin.released, kout := p.kout.released,
    kqk := p.kqk.released }

/-- The machine at the release of RESET_N: the state right after reset, with the straps latched, the timebase at 0, the input
lines at the levels they have, and what the sender and the engine port still present (assumption logs 6 and 9). DESIGN CHOICE
(assumption log 40): a pass burst that was accepted and has not been issued is dropped; R161 says only that it receives no
completion. -/
def State.released (s : State) (cbsel : BitVec 4) (evtFirst : Bool) : State :=
  { State.reset with
    pending := s.pending
    cbsel
    mem := { ownQ := startUpWrites cbsel evtFirst, held := s.mem.held }
    ref := { sync := s.ref.sync }
    ports := s.ports.map Port.released }

/-- RESET_N (R161). -/
def execResetN (cbsel : BitVec 4) (evtFirst : Bool) (s : State) : Host.Outcome State Fault Refusal :=
  .next (s.released cbsel evtFirst)

end Sys2Proof.Machine
end

