-- ==== Sys2Proof/Machine/Reference.lean ====
section
/-! DEFINITION. Reference.lean: the reference unit and the SYNC_IN filter of chapter 6. -/

namespace Sys2Proof.Machine

/-! ## The filter (R117) -/

/-- SYNC_IN changes to `level` at `time`: a fall starts a qualification; a rise drops one that is not complete, and a complete one
hands on its pulse (R117). A level that is no change is no edge. -/
def State.syncEdge (s : State) (level : Bool) (time : Nat) : State :=
  if level = s.ref.sync then s
  else
    let s1 := s.setTime time
    match level, s1.ref.qual with
    | false, _ => s1.setRef { s1.ref with sync := false, qual := some s1.now }
    | true, none => s1.setRef { s1.ref with sync := true }
    | true, some e =>
      if s1.now < e + Config.syncHold then s1.setRef { s1.ref with sync := true, qual := none }
      else s1.setRef { s1.ref with sync := true, qual := none, pulses := s1.ref.pulses ++ [e + Config.syncHold] }

/-- SYNC_IN_EDGE (R117). -/
def execSyncInEdge (level : Bool) (time : Nat) (s : State) : Host.Outcome State Fault Refusal := .next (s.syncEdge level time)

/-! ## Ticks (R125, R126) -/

/-- A tick: the counter rises by 1, and the tick is handed to each channel and each head (R125, R126). -/
def State.issueTick (s : State) : State :=
  let n := s.ref.count + 1
  (s.setRef { s.ref with count := n }).setMail
    { s.mail with chanTicks := s.mail.chanTicks.map (fun q => q ++ [n]), headTicks := s.mail.headTicks.map (fun q => q ++ [n]) }

/-- Tolerance W (6.3). -/
def Ref.tolerance (r : Ref) : Nat := r.period / 8

/-- Half period H (6.3). -/
def Ref.half (r : Ref) : Nat := r.period / 2

/-- Elapsed time from the last tick (6.3). -/
def Ref.elapsed (r : Ref) (time : Nat) : Nat := time - r.lastTick.getD 0

/-! ## Pulses (R119, R120, R122) -/

/-- A pulse in ABSENT: it starts a measurement, or ends one (R119). -/
def State.pulseAbsent (s : State) (time : Nat) : State :=
  match s.ref.measure with
  | none => s.setRef { s.ref with measure := some time }
  | some m =>
    let p := time - m
    if Config.minPeriod ≤ p ∧ p ≤ Config.maxPeriod then
      ((s.setRef { s.ref with state := .locked, period := p, measure := none, lastTick := some time,
                              timer := some (time + p + p / 8) }).issueTick).raise .refLocked .acquired 0 0 (BitVec.ofNat 32 p)
    else s.setRef { s.ref with measure := some time }

/-- A pulse rejected: REF_GLITCH with the elapsed time (R120, R122). -/
def State.glitch (s : State) (time : Nat) : State :=
  s.raise .refGlitch .none 0 0 (BitVec.ofNat 32 (s.ref.elapsed time))

/-- A pulse in LOCKED (R120). -/
def State.pulseLocked (s : State) (time : Nat) : State :=
  if s.ref.elapsed time < s.ref.period - s.ref.tolerance then s.glitch time
  else
    (s.setRef { s.ref with lastTick := some time, timer := some (time + s.ref.period + s.ref.tolerance) }).issueTick

/-- A pulse in FLYWHEEL (R122). -/
def State.pulseFlywheel (s : State) (time : Nat) : State :=
  if s.ref.elapsed time < s.ref.half then s.glitch time
  else
    ((s.setRef { s.ref with state := .locked, lastTick := some time,
                            timer := some (time + s.ref.period + s.ref.tolerance) }).issueTick).raise
      .refLocked .realigned 0 0 (BitVec.ofNat 32 s.ref.period)

/-- A pulse judged by state and elapsed time (R119, R120, R122). -/
def State.judge (s : State) (time : Nat) : State :=
  match s.ref.state with
  | .absent => s.pulseAbsent time
  | .locked => s.pulseLocked time
  | .flywheel => s.pulseFlywheel time

/-- Time of the oldest pulse that waits, or that a qualification in progress completes (R117). -/
def Ref.nextPulse (r : Ref) : Option Nat :=
  match r.pulses with
  | p :: _ => some p
  | [] => r.qual.map (· + Config.syncHold)

/-- The unit's record without that pulse. -/
def Ref.dropPulse (r : Ref) : Ref :=
  match r.pulses with
  | _ :: ps => { r with pulses := ps }
  | [] => { r with qual := none }

/-- The reference unit takes the oldest pulse, at the pulse's own time. A pulse later than an expiry of the timer waits for it
(R118, assumption log 5). -/
def State.syncPulse (s : State) : State :=
  match s.ref.nextPulse with
  | none => s
  | some p =>
    if s.ref.timer.any (fun d => decide (d < p)) then s
    else ((s.setTime p).setRef s.ref.dropPulse).judge p

/-- SYNC_PULSE (R119, R120, R122). -/
def execSyncPulse (s : State) : Host.Outcome State Fault Refusal := .next s.syncPulse

/-! ## The flywheel timer (R121, R122) -/

/-- The timer expires at time `d`: a tick; from LOCKED the unit enters FLYWHEEL (R121, R122). -/
def State.expire (s : State) (d : Nat) : State :=
  match s.ref.state with
  | .absent => s
  | .locked =>
    ((s.setRef { s.ref with state := .flywheel, lastTick := some d, timer := some (d + s.ref.period) }).issueTick).raise
      .refLost .none 0 0 (BitVec.ofNat 32 s.ref.period)
  | .flywheel => (s.setRef { s.ref with lastTick := some d, timer := some (d + s.ref.period) }).issueTick

/-- The flywheel timer expires, at the time it is due; a pulse that came before that is taken first (R118, R121). -/
def State.flywheel (s : State) : State :=
  match s.ref.timer with
  | none => s
  | some d =>
    if s.ref.nextPulse.any (fun p => decide (p < d)) then s
    else (s.setTime d).expire d

/-- FLYWHEEL_EXPIRY (R121, R122). -/
def execFlywheelExpiry (s : State) : Host.Outcome State Fault Refusal := .next s.flywheel

/-! ## REF_RESTART (R123) -/

/-- REF_RESTART at the reference unit; the tick counter and the filter's qualification are kept (R123). -/
def refRestart (s : State) : State × CmdResult :=
  (s.setRef { s.ref with state := .absent, period := 0, measure := none, lastTick := none, timer := none },
   .done (BitVec.ofNat 32 s.ref.period))

/-- REF_RESTART (R123, R124). -/
def execRefRestart (r : CmdArgs) (s : State) : Host.Outcome State Fault Refusal := .next (s.carryOut 0x03 r refRestart)

end Sys2Proof.Machine
end

