-- ==== Sys2Proof/Machine/Parts.lean ====
section
/-! DEFINITION. Parts.lean: a command of the ring operation by operation (R167), and the two commands that are taken part by part,
DISENGAGE (R151) and STATUS_SNAPSHOT (R182). -/

namespace Sys2Proof.Machine

/-! ## A command operation by operation (R167) -/

/-- A command that may stay in EXECUTING until its own requests have ended: the fetch completes, its owning block carries it out,
and where that answers, the write-back is queued (R166 to R169). -/
def longCommandProg (kind : Byte) (r : CmdArgs) (own : Prog (Option CmdResult)) : Prog Unit :=
  .op [] (fun s => s.fetched kind r id) (fun s =>
    if s.takesRecord then
      own.bind (fun
        | none => .done ()
        | some o => .act [] (fun t => t.endCommand o))
    else .done ())

/-- A command that its owning block answers (R167). -/
def commandProg (kind : Byte) (r : CmdArgs) (own : Prog CmdResult) : Prog Unit :=
  longCommandProg kind r (own.bind (fun o => .done (some o)))

/-! ## DISENGAGE (R151) -/

/-- Part 1 of DISENGAGE (R151). -/
def State.goTransparent (s : State) : State := s.setMem { s.mem with active := false }

/-- A channel's part of DISENGAGE (R42). -/
def State.stopChannel (s : State) (c : ChanId) : State := if (s.chan c).busy then s.abortChannel c .disengage else s

/-- The channels take their parts of DISENGAGE in turn; `n` counts those that were recording (R42, R151). -/
def disengageChannels : List ChanId → (n : Nat) → Prog Nat
  | [], n => .done n
  | c :: cs, n =>
    .op [.channel c] (fun s => s.stopChannel c) (fun s => disengageChannels cs (if (s.chan c).busy then n + 1 else n))

/-- DISENGAGE at the decoder, the channels and the heads, in this order, each part an event of its block (R151, R42, R62). -/
def disengage : Prog CmdResult :=
  .op [] State.goTransparent (fun _ =>
    (disengageChannels allChans 0).bind (fun n =>
      (Prog.each (fun h => [.head h]) (fun h s => s.idleHead h) allHeads).bind (fun _ => .done (.done (BitVec.ofNat 32 n)))))

/-! ## STATUS_SNAPSHOT (R182) -/

/-- The parts of a snapshot. -/
def allParts : List SnapPart :=
  [.decoder, .reference, .processor, .events] ++ allChans.map .channel ++ allHeads.map .head ++ allPorts.map .port

/-- The parts are read one by one; answered is the state in which each was read. -/
def readParts : List SnapPart → Prog (List (SnapPart × State))
  | [] => .done []
  | p :: ps => .read [] (fun s => (readParts ps).bind (fun got => .done ((p, s) :: got)))

/-- The state in which a part was read first; `s` for a part that was not read. -/
def readAt (got : List (SnapPart × State)) (s : State) (p : SnapPart) : State :=
  ((got.find? (fun x => decide (x.1 = p))).map (·.2)).getD s

/-- STATUS_SNAPSHOT at the processor: the parts are read in the given order, and those it does not name after them (R182). -/
def statusSnapshot (r : CmdArgs) (order : List SnapPart) : Prog (Option CmdResult) :=
  if reportFits (addrArg r) 512 then
    (readParts (order ++ allParts)).bind (fun got =>
      .op [] (fun s => s.queueReport (addrArg r) (snapshotOf (readAt got s))) (fun _ => .done none))
  else .done (some (.refused .badArg))

end Sys2Proof.Machine
end

