-- ==== Sys2Proof/Machine/Weave.lean ====
section
/-! DEFINITION. Weave.lean: the events of the blocks woven into one another, operation by operation (R5, R20, R44, R90, R151, R167,
R182), and the nine rows that carry such a weaving as their operand. -/

namespace Sys2Proof.Machine

/-! ## The course of an event -/

/-- The course of an event. `once`: one operation, an event of each of `blocks`, which waits while another event is in progress at
one of them. `steps`: the operations of a program, which goes on under the name `who`. -/
inductive Course where
  | once (blocks : List Agent) (f : State → State)
  | steps (who : Agent) (p : Prog Unit)

/-- A row taken as an event: its next state. -/
def takeRow (row : State → Host.Outcome State Fault Refusal) (s : State) : State :=
  match row s with
  | .next t => t
  | .fault _ => s
  | .refused _ => s

/-- The course of an event of one block, made in one operation. -/
def onceAt (a : Agent) (row : State → Host.Outcome State Fault Refusal) : Course := .once [a] (takeRow row)

/-- The course of an event that touches no block whose events have several operations. -/
def onceFree (row : State → Host.Outcome State Fault Refusal) : Course := .once [] (takeRow row)

/-- The head that the oldest notice of a port is for. -/
def State.noticed (s : State) (p : PortId) : List Agent :=
  match s.mail.portNotes.get p with
  | .takeover h :: _ | .portLost h :: _ => [.head h]
  | [] => []

/-- The target head of a command, if any. -/
def headBlock (r : CmdArgs) : List Agent := ((targetHead r).map Agent.head).toList

/-- The target channel of a command, if any. -/
def chanBlock (r : CmdArgs) : List Agent := ((targetChan r).map Agent.channel).toList

/-- The course of a fetch that completes with a record of a kind: the command of 9.6, or UNKNOWN_KIND (R167). HEAD_SOURCE CLIP reads
the clip table before or after any event of the clip manager, so it waits for the one in progress (R47, R90). -/
def commandCourse (kind : Byte) (r : CmdArgs) : Course :=
  match kind.toNat with
  | 0x01 => onceFree (execEngage r)
  | 0x02 => .steps .processor (commandProg kind r disengage)
  | 0x03 => onceFree (execRefRestart r)
  | 0x04 => .once (chanBlock r) (takeRow (execChannelSetup r))
  | 0x05 => .once (chanBlock r) (takeRow (execChannelArm r))
  | 0x06 => .once (chanBlock r) (takeRow (execChannelStop r))
  | 0x07 => .once (chanBlock r) (takeRow (execChannelAbort r))
  | 0x08 => .steps .processor (commandProg kind r (channelClear r))
  | 0x09 => .once (headBlock r ++ (if r.a = 2 then [.clips] else [])) (takeRow (execHeadSource r))
  | 0x0A => .once (headBlock r) (takeRow (execHeadRate r))
  | 0x0B => .once (headBlock r) (takeRow (execHeadGoto r))
  | 0x0C => .steps .processor (commandProg kind r (markCommand r))
  | 0x0D => onceAt .clips (execMarkSetup r)
  | 0x0E => .steps .processor (commandProg kind r (clipClose r))
  | 0x0F => .steps .processor (commandProg kind r (clipDelete r))
  | 0x10 => onceAt .clips (execClipTag r)
  | 0x11 => onceFree (execClipQuery r)
  | 0x12 => onceFree (execPanelBind r)
  | 0x13 => onceFree (execPanelCurve r)
  | 0x14 => onceFree (execPanelTiming r)
  | 0x15 => onceFree (execEventMask r)
  | 0x16 => .steps .processor (longCommandProg kind r (statusSnapshot r []))
  | _ => onceFree (execUnknownKind kind r)

/-- The course of an event from state `s`; `fuel` bounds the repeats of a head's pick (`headTickProg`). -/
def courseOf (fuel : Nat) (s : State) : BlockEvent → Course
  | .startUpWriteComplete w st => onceFree (execStartUpWriteComplete w st)
  | .engineBurst b portFree => onceFree (execEngineBurst b portFree)
  | .strayWriteReport c => onceAt (.channel c) (execStrayWriteReport c)
  | .storePortIssue time => onceFree (execStorePortIssue time)
  | .passBurstComplete k st data => onceFree (execPassBurstComplete k st data)
  | .cmdProducer => onceFree execCmdProducer
  | .evtConsumer => onceFree execEvtConsumer
  | .ownRequestTimeout k cause => onceFree (execOwnRequestTimeout k cause)
  | .command kind r => commandCourse kind r
  | .statusSnapshot r order => .steps .processor (longCommandProg 0x16 r (statusSnapshot r order))
  | .curveFetchComplete data st => onceFree (execCurveFetchComplete data st)
  | .reportWriteComplete st => onceFree (execReportWriteComplete st)
  | .writeBackComplete st => onceFree (execWriteBackComplete st)
  | .cmdConsumerWriteComplete st => onceFree (execCmdConsumerWriteComplete st)
  | .syncInEdge level time => onceFree (execSyncInEdge level time)
  | .syncPulse => onceFree execSyncPulse
  | .flywheelExpiry => onceFree execFlywheelExpiry
  | .channelTick c => onceAt (.channel c) (execChannelTick c)
  | .headTick h => .steps (.head h) (headTickProg h fuel)
  | .takeoverNotice p => .once (s.noticed p) (takeRow (execTakeoverNotice p))
  | .portLostNotice p => .once (s.noticed p) (takeRow (execPortLostNotice p))
  | .attachNotice h => onceAt (.head h) (execAttachNotice h)
  | .headDetachNotice h => onceAt (.head h) (execHeadDetachNotice h)
  | .clipDetachNotice h => onceAt .clips (execClipDetachNotice h)
  | .panelMark p => .steps .clips (panelMarkProg p)
  | .arrival c => .steps .clips (arrivalProg c)
  | .stopNotice c => onceAt .clips (execStopNotice c)
  | .levEdge p level time => onceFree (execLevEdge p level time)
  | .noEdgeTimerExpiry p => onceFree (execNoEdgeTimerExpiry p)
  | .jogLineChange p ja jb time => onceFree (execJogLineChange p ja jb time)
  | .jogFilterExpiry p => onceFree (execJogFilterExpiry p)
  | .keyLineChange p key level time => onceFree (execKeyLineChange p key level time)
  | .keyDebounceExpiry p key => onceFree (execKeyDebounceExpiry p key)
  | .eventRecordWrite => onceFree execEventRecordWrite
  | .eventRecordWriteComplete st => onceFree (execEventRecordWriteComplete st)
  | .evtProducerWriteComplete st => onceFree (execEvtProducerWriteComplete st)

/-- An event with nothing taken between its operations; none where a pick does not end. -/
def takeAlone (fuel : Nat) (e : BlockEvent) (s : State) : Option State :=
  match courseOf fuel s e with
  | .once _ f => some (f s)
  | .steps _ p => (p.run s).map (·.1)

/-! ## Events in progress -/

/-- An event in progress: its name, the blocks it is in progress at, and the operations still to be made. -/
structure Thread where
  who  : Agent
  inAt : List Agent
  rest : Prog Unit

/-- An event is in progress at a block. -/
def busyAt (ts : List Thread) (a : Agent) : Bool := ts.any (fun x => decide (a ∈ x.inAt))

/-- The event in progress of a name, and the others. -/
def threadOf (ts : List Thread) (a : Agent) : Option Thread := ts.find? (fun x => decide (x.who = a))

def othersOf (ts : List Thread) (a : Agent) : List Thread := ts.filter (fun x => !decide (x.who = a))

/-- The state and the events in progress. -/
abbrev Weft := State × List Thread

/-- The next operation of an event beside the events `ts`, unless it has to wait: the event stays in progress at those of the
operation's blocks that its next operation is for. -/
def goOnce (ts : List Thread) (who : Agent) (s : State) : Prog Unit → Option Weft
  | .done _ => none
  | .never => none
  | .op b f next =>
    if b.any (busyAt ts) then none
    else
      some (f s,
        match next s with
        | .done _ => ts
        | .never => { who, inAt := [], rest := .never } :: ts
        | .op b' f' next' => { who, inAt := b.filter (fun a => decide (a ∈ b')), rest := .op b' f' next' } :: ts)

/-- The operations of an event beside the events `ts`, up to its end or to one that has to wait. -/
def goOn (ts : List Thread) : Prog Unit → State → State × Prog Unit
  | .done a, s => (s, .done a)
  | .never, s => (s, .never)
  | .op b f next, s => if b.any (busyAt ts) then (s, .op b f next) else goOn ts (next s) (f s)

/-- An event begins, unless it has to wait. -/
def begin (x : Weft) (c : Course) : Weft :=
  match c with
  | .once b f => if b.any (busyAt x.2) then x else (f x.1, x.2)
  | .steps who p => if (threadOf x.2 who).isSome then x else (goOnce x.2 who x.1 p).getD x

/-- A turn is taken (R5, R20, R44, R90). -/
def takeTurn (fuel : Nat) (x : Weft) : Turn → Weft
  | .event e => begin x (courseOf fuel x.1 e)
  | .move a =>
    match threadOf x.2 a with
    | none => x
    | some th => (goOnce (othersOf x.2 a) a x.1 th.rest).getD x

/-- The event of a name goes on to its end, or to where it has to wait. -/
def finish (x : Weft) (a : Agent) : Weft :=
  match threadOf x.2 a with
  | none => x
  | some th =>
    match goOn (othersOf x.2 a) th.rest x.1 with
    | (t, .done _) => (t, othersOf x.2 a)
    | (t, p) => (t, { who := a, inAt := [], rest := p } :: othersOf x.2 a)

/-- A command whose event at a block is in progress goes on to its end. -/
def finishCommand (x : Weft) : Weft :=
  match threadOf x.2 .processor with
  | none => x
  | some th => if th.inAt = [] then x else finish x .processor

/-- After the last turn: the event of the clip manager, that of a command in progress at a block, the heads' ticks and then a
command between two of its parts go on to their ends (assumption log 1). -/
def finishAll (x : Weft) : Weft :=
  finish (allHeads.foldl (fun y h => finish y (.head h)) (finishCommand (finish x .clips))) .processor

/-- Bounds steps that a pick may make: more than the turns can make fail (assumption log 16). -/
def pickFuel (turns : List Turn) : Nat := turns.length + 2

/-- An event with what falls between its operations. A pick that never ends is a fault (assumption log 16). -/
def weave (e : BlockEvent) (turns : List Turn) (s : State) : Host.Outcome State Fault Refusal :=
  match finishAll (turns.foldl (takeTurn (pickFuel turns)) (begin (s, []) (courseOf (pickFuel turns) s e))) with
  | (t, []) => .next t
  | (_, _ :: _) => .fault .pickDoesNotEnd

/-! ## The rows -/

/-- HEAD_TICK (R54 to R56, R63 to R81). -/
def execHeadTick (h : HeadId) (turns : List Turn) (s : State) : Host.Outcome State Fault Refusal := weave (.headTick h) turns s

/-- MARK (R93, R94). -/
def execMark (r : CmdArgs) (turns : List Turn) (s : State) : Host.Outcome State Fault Refusal := weave (.command 0x0C r) turns s

/-- PANEL_MARK (R142). -/
def execPanelMark (p : PortId) (turns : List Turn) (s : State) : Host.Outcome State Fault Refusal := weave (.panelMark p) turns s

/-- FRAMES_COMMITTED_ARRIVAL (R105). -/
def execFramesCommittedArrival (c : ChanId) (turns : List Turn) (s : State) : Host.Outcome State Fault Refusal :=
  weave (.arrival c) turns s

/-- CLIP_CLOSE (R111). -/
def execClipClose (r : CmdArgs) (turns : List Turn) (s : State) : Host.Outcome State Fault Refusal :=
  weave (.command 0x0E r) turns s

/-- CLIP_DELETE (R112). -/
def execClipDelete (r : CmdArgs) (turns : List Turn) (s : State) : Host.Outcome State Fault Refusal :=
  weave (.command 0x0F r) turns s

/-- CHANNEL_CLEAR (R28). -/
def execChannelClear (r : CmdArgs) (turns : List Turn) (s : State) : Host.Outcome State Fault Refusal :=
  weave (.command 0x08 r) turns s

/-- DISENGAGE (R151). -/
def execDisengage (r : CmdArgs) (turns : List Turn) (s : State) : Host.Outcome State Fault Refusal :=
  weave (.command 0x02 r) turns s

/-- STATUS_SNAPSHOT (R182). -/
def execStatusSnapshot (r : CmdArgs) (order : List SnapPart) (turns : List Turn) (s : State) :
    Host.Outcome State Fault Refusal :=
  weave (.statusSnapshot r order) turns s

end Sys2Proof.Machine
end

