-- ==== Sys2Proof/Machine/Dispatch.lean ====
section
/-! DEFINITION. Dispatch.lean: the meaning of each command, one arm per constructor. -/

namespace Sys2Proof.Machine

def exec (i : Instr) (s : State) : Host.Outcome State Fault Refusal :=
  match i with
  | .resetN cbsel evtFirst => Sys2Proof.Machine.execResetN cbsel evtFirst s
  | .startUpWriteComplete w st => Sys2Proof.Machine.execStartUpWriteComplete w st s
  | .engineBurst b portFree => Sys2Proof.Machine.execEngineBurst b portFree s
  | .strayWriteReport c => Sys2Proof.Machine.execStrayWriteReport c s
  | .storePortIssue time => Sys2Proof.Machine.execStorePortIssue time s
  | .passBurstComplete k st data => Sys2Proof.Machine.execPassBurstComplete k st data s
  | .cmdProducer => Sys2Proof.Machine.execCmdProducer s
  | .evtConsumer => Sys2Proof.Machine.execEvtConsumer s
  | .ownRequestTimeout k cause => Sys2Proof.Machine.execOwnRequestTimeout k cause s
  | .unknownKind kind r => Sys2Proof.Machine.execUnknownKind kind r s
  | .engage r => Sys2Proof.Machine.execEngage r s
  | .disengage r turns => Sys2Proof.Machine.execDisengage r turns s
  | .refRestart r => Sys2Proof.Machine.execRefRestart r s
  | .channelSetup r => Sys2Proof.Machine.execChannelSetup r s
  | .channelArm r => Sys2Proof.Machine.execChannelArm r s
  | .channelStop r => Sys2Proof.Machine.execChannelStop r s
  | .channelAbort r => Sys2Proof.Machine.execChannelAbort r s
  | .channelClear r turns => Sys2Proof.Machine.execChannelClear r turns s
  | .headSource r => Sys2Proof.Machine.execHeadSource r s
  | .headRate r => Sys2Proof.Machine.execHeadRate r s
  | .headGoto r => Sys2Proof.Machine.execHeadGoto r s
  | .mark r turns => Sys2Proof.Machine.execMark r turns s
  | .markSetup r => Sys2Proof.Machine.execMarkSetup r s
  | .clipClose r turns => Sys2Proof.Machine.execClipClose r turns s
  | .clipDelete r turns => Sys2Proof.Machine.execClipDelete r turns s
  | .clipTag r => Sys2Proof.Machine.execClipTag r s
  | .clipQuery r => Sys2Proof.Machine.execClipQuery r s
  | .panelBind r => Sys2Proof.Machine.execPanelBind r s
  | .panelCurve r => Sys2Proof.Machine.execPanelCurve r s
  | .panelTiming r => Sys2Proof.Machine.execPanelTiming r s
  | .eventMask r => Sys2Proof.Machine.execEventMask r s
  | .statusSnapshot r order turns => Sys2Proof.Machine.execStatusSnapshot r order turns s
  | .curveFetchComplete data st => Sys2Proof.Machine.execCurveFetchComplete data st s
  | .reportWriteComplete st => Sys2Proof.Machine.execReportWriteComplete st s
  | .writeBackComplete st => Sys2Proof.Machine.execWriteBackComplete st s
  | .cmdConsumerWriteComplete st => Sys2Proof.Machine.execCmdConsumerWriteComplete st s
  | .syncInEdge level time => Sys2Proof.Machine.execSyncInEdge level time s
  | .syncPulse => Sys2Proof.Machine.execSyncPulse s
  | .flywheelExpiry => Sys2Proof.Machine.execFlywheelExpiry s
  | .channelTick c => Sys2Proof.Machine.execChannelTick c s
  | .headTick h turns => Sys2Proof.Machine.execHeadTick h turns s
  | .takeoverNotice p => Sys2Proof.Machine.execTakeoverNotice p s
  | .portLostNotice p => Sys2Proof.Machine.execPortLostNotice p s
  | .attachNotice h => Sys2Proof.Machine.execAttachNotice h s
  | .headDetachNotice h => Sys2Proof.Machine.execHeadDetachNotice h s
  | .clipDetachNotice h => Sys2Proof.Machine.execClipDetachNotice h s
  | .panelMark p turns => Sys2Proof.Machine.execPanelMark p turns s
  | .framesCommittedArrival c turns => Sys2Proof.Machine.execFramesCommittedArrival c turns s
  | .stopNotice c => Sys2Proof.Machine.execStopNotice c s
  | .levEdge p level time => Sys2Proof.Machine.execLevEdge p level time s
  | .noEdgeTimerExpiry p => Sys2Proof.Machine.execNoEdgeTimerExpiry p s
  | .jogLineChange p ja jb time => Sys2Proof.Machine.execJogLineChange p ja jb time s
  | .jogFilterExpiry p => Sys2Proof.Machine.execJogFilterExpiry p s
  | .keyLineChange p key level time => Sys2Proof.Machine.execKeyLineChange p key level time s
  | .keyDebounceExpiry p key => Sys2Proof.Machine.execKeyDebounceExpiry p key s
  | .eventRecordWrite => Sys2Proof.Machine.execEventRecordWrite s
  | .eventRecordWriteComplete st => Sys2Proof.Machine.execEventRecordWriteComplete st s
  | .evtProducerWriteComplete st => Sys2Proof.Machine.execEvtProducerWriteComplete st s

end Sys2Proof.Machine
end

