-- ==== Sys2Proof/WellFormed.lean ====
section
/-! DEFINITION. WellFormed.lean: which commands the ports can present. The meanings are total: an ill-formed command has an
effect too, but none of the manual's rules speaks of it. -/

namespace Sys2Proof

/-- A burst has 1 to 64 beats, a write brings 32 bytes a beat and a read brings none (8.1). -/
def Burst.wf (b : Burst) : Bool :=
  decide (1 ≤ b.beats) && decide (b.beats ≤ 64) &&
    (match b.dir with
      | .write => b.data.length == 32 * b.beats
      | .read => b.data.isEmpty)

/-- A burst that keeps the rule of 8.1: it does not cross a 4 KiB boundary. -/
def Burst.legal (b : Burst) : Bool :=
  b.wf && decide (b.addr.toNat % 4096 + 32 * b.beats ≤ 4096)

/-- What an event that falls inside a row asks of its operands. -/
def BlockEvent.wf : BlockEvent → Bool
  | .engineBurst b _ => b.wf
  | .curveFetchComplete data .good => data.length == 64
  | .passBurstComplete _ _ data => data.length % 32 == 0
  | _ => true

/-- Every event that falls inside a row is well formed. -/
def turnsWf (turns : List Turn) : Bool :=
  turns.all (fun
    | .event e => e.wf
    | .move _ => true)

/-- What each row asks of its operands. -/
def Instr.wf : Instr → Bool
  | .engineBurst b _ => b.wf
  | .unknownKind k _ => !isCommandKind k
  | .curveFetchComplete data .good => data.length == 64
  | .passBurstComplete _ _ data => data.length % 32 == 0
  | .disengage _ turns => turnsWf turns
  | .channelClear _ turns => turnsWf turns
  | .mark _ turns => turnsWf turns
  | .clipClose _ turns => turnsWf turns
  | .clipDelete _ turns => turnsWf turns
  | .statusSnapshot _ _ turns => turnsWf turns
  | .headTick _ turns => turnsWf turns
  | .panelMark _ turns => turnsWf turns
  | .framesCommittedArrival _ turns => turnsWf turns
  | _ => true

end Sys2Proof
end

