-- ==== Sys2Proof/Safety.lean ====
section
/-! DEFINITION. Safety.lean: the words the claims use: the invariants of the records, block by block, and what it means that a
command of the ring has ended. -/

namespace Sys2Proof.Machine

/-! ## Tables -/

/-- The slot table, the index pool and the clip table are in their one form. -/
def State.tablesWf (s : State) : Prop := Tbl.wf {} s.slots ∧ Tbl.wf {} s.index ∧ Tbl.wf {} s.clips

/-! ## Slots (R3, R4) -/

/-- The laws of R4 and the ranges of R3 that hold in every state of a slot record. -/
def Slot.lawful (x : Slot) : Prop :=
  (x.state ≠ .held → x.locks = 0 ∧ x.pins = 0) ∧ (x.state = .empty → x.rfn = 0) ∧ x.locks ≤ Config.maxLocks ∧
    x.pins ≤ Config.maxPins

/-- Every slot record obeys the laws. -/
def State.slotsLawful (s : State) : Prop := ∀ n, (s.slot n).lawful

/-- Pins a head holds on slot `n`: one for its displayed slot, one for its trailing slot (1.8). -/
def Head.pinsOn (h : Head) (n : Nat) : Nat :=
  (if h.shown.map (·.slot) = some n then 1 else 0) + (if h.trailing = some n then 1 else 0)

/-- Each slot's pin count is the number of pins the heads hold on it (1.8). -/
def State.pinsAgree (s : State) : Prop := ∀ n, (s.slot n).pins = (allHeads.map (fun h => (s.head h).pinsOn n)).sum

/-! ## Channels (R2, R11, R19, R24, R34) -/

/-- The geometry of a channel (R23, R24). -/
def Channel.shaped (ch : Channel) : Prop :=
  ch.phases ∈ [1, 2, 3, 4, 6, 8] ∧
    match ch.state with
    | .off => ch.len = 0
    | .ready | .armed | .recording | .stopping =>
      Config.minLoop ≤ ch.len ∧ ch.firstSlot + ch.len ≤ Config.slotCount ∧ 2 * ch.phases + 8 ≤ ch.reserve ∧
        ch.reserve ≤ ch.len / 2 ∧ ch.cursor < ch.len

/-- No slot belongs to two channels (R2). -/
def State.loopsApart (s : State) : Prop :=
  ∀ c d n, c ≠ d → ¬((s.chan c).owns n = true ∧ (s.chan d).owns n = true)

/-- Every loop is as CHANNEL_SETUP may leave it. -/
def State.geometryOk (s : State) : Prop := (∀ c, (s.chan c).shaped) ∧ s.loopsApart

/-- The numbering of a channel keeps the RFN limit, and in ARMED, RECORDING and STOPPING its next period fits (R25, R34). -/
def Channel.numbered (ch : Channel) : Prop :=
  ch.tail ≤ ch.nextRfn ∧ ch.nextRfn ≤ Config.rfnLimit ∧ (ch.busy = true → ch.nextRfn + ch.phases ≤ Config.rfnLimit)

/-- Number of slots of a channel's loop with lock count 1 or more (1.7). -/
def State.lockedSlots (s : State) (c : ChanId) : Nat :=
  ((s.chan c).loopSlots.filter (fun n => decide ((s.slot n).locks ≠ 0))).length

/-- Locked counts count the locked slots and stay within the allowance; a locked slot lies in a loop (1.7, R11). -/
def State.locksAgree (s : State) : Prop :=
  (∀ c, (s.chan c).locked = s.lockedSlots c ∧ (s.chan c).locked ≤ (s.chan c).len - (s.chan c).reserve) ∧
    ∀ n, (s.slot n).locks ≠ 0 → s.ownerOf n ≠ none

/-! ## Heads (R43, R62, R67) -/

/-- Rates and slew of a head in their ranges (R67), and the fields an IDLE head has (R54, R62). -/
def Head.inRange (h : Head) : Prop :=
  h.rate.natAbs ≤ Config.maxRate ∧ h.target.natAbs ≤ Config.maxRate ∧ 1 ≤ h.slew ∧ h.slew ≤ Config.maxRate ∧
    (h.src = .idle → h.rate = 0 ∧ h.target = 0 ∧ h.owner = .command ∧ h.goto = none ∧ h.shown = none)

/-! ## Ports (R128) -/

/-- The fields of a port in the ranges of R128, an unbound port with nothing accumulated (R138), a faulted lever INSIDE (R132). -/
def Port.inRange (p : Port) : Prop :=
  p.lever ≤ 1023 ∧ p.restore ≤ 4 ∧ p.knots.length = 17 ∧ (∀ k ∈ p.knots, k ≤ Config.maxRate) ∧
    p.knots.Pairwise (· ≤ ·) ∧ 256 ≤ p.centre ∧ p.centre ≤ 767 ∧ p.dead ≤ 127 ∧ 1 ≤ p.panelSlew ∧
    p.panelSlew ≤ Config.maxRate ∧ p.filter ≤ 255 ∧ p.quartersPerStep ∈ [1, 2, 4] ∧
    p.quarters.natAbs < p.quartersPerStep ∧ p.jog.natAbs ≤ 127 ∧ p.jogErrors ≤ 255 ∧ 1 ≤ p.debounce ∧ p.debounce ≤ 64 ∧
    (p.binding = none → p.jog = 0) ∧ (p.fault = true → p.outside = false)

/-- Every port in range, and no head bound to both (R130). -/
def State.portsInRange (s : State) : Prop :=
  (∀ p, (s.port p).inRange) ∧ ∀ h, ¬((s.port 0).binding = some h ∧ (s.port 1).binding = some h)

/-- Every head in range. -/
def State.headsInRange (s : State) : Prop := ∀ h, (s.head h).inRange

/-! ## The other blocks -/

/-- The event unit: the FIFO's size, no staged record of class OFF, the number in step with the producer index, the lost count's
range, the classes, the kept kinds above OFF (R175 to R178). -/
def EventUnit.sound (e : EventUnit) : Prop :=
  e.fifo.length ≤ Config.fifoSize ∧ (∀ x ∈ e.fifo, x.cls ≠ .off) ∧ e.seq = e.producer.setWidth 16 ∧
    e.lost ≤ Config.lostMax ∧ e.classes.length = eventKindCount ∧ ∀ i, i < 3 → e.classes.getD i .off ≠ .off

/-- The memory path: the queues' sizes and the run counter's range; a requester waits only behind a full queue (R146, R157,
R159). -/
def MemPath.sound (m : MemPath) : Prop :=
  m.passQ.length ≤ Config.passQueueSize ∧ m.ownQ.length ≤ Config.ownQueueSize ∧ m.runCounter ≤ Config.fairness ∧
    (m.ownWait ≠ [] → m.ownQ.length = Config.ownQueueSize)

/-- The command processor: a current record in EXECUTING and WRITING alone, the HALTED flag in HALTED alone (9.3). -/
def Proc.sound (p : Proc) : Prop :=
  (p.current.isSome = true ↔ p.state = .executing ∨ p.state = .writing) ∧ (p.halted = true ↔ p.state = .halted)

/-- The reference unit: no period, no timer and no last tick in ABSENT; a period in range, a timer and a last tick otherwise
(R118 to R123). -/
def Ref.sound (r : Ref) : Prop :=
  match r.state with
  | .absent => r.period = 0 ∧ r.timer = none ∧ r.lastTick = none
  | .locked | .flywheel =>
    Config.minPeriod ≤ r.period ∧ r.period ≤ Config.maxPeriod ∧ r.timer.isSome = true ∧ r.lastTick.isSome = true ∧
      r.measure = none

/-! ## Commands of the ring (R166 to R169) -/

/-- Own request `k` is the oldest one a requester has outstanding, and at most 1,000 us have passed since its issue (R160). -/
def State.inTime (s : State) (q : Requester) (k : Nat) : Prop :=
  s.mem.outstanding q = some k ∧ ∃ r t, s.mem.ownQ[k]? = some r ∧ r.issued = some t ∧ s.now ≤ t + 1000

/-- Own request `k` is the oldest one a requester has outstanding, and more than 1,000 us have passed since its issue (R160). -/
def State.tooLate (s : State) (q : Requester) (k : Nat) : Prop :=
  s.mem.outstanding q = some k ∧ ∃ r t, s.mem.ownQ[k]? = some r ∧ r.issued = some t ∧ t + 1000 < s.now

/-- The processor waits for a record: FETCHING, with its read outstanding and in time. -/
def State.awaits (s : State) : Prop := s.proc.state = .fetching ∧ ∃ k, s.inTime .fetch k

/-- The current record of a command that ended with an outcome. -/
def endedRecord (kind : Byte) (r : CmdArgs) (o : CmdResult) : CmdRecord :=
  { kind, args := r, status := o.status, reason := o.reason, result := o.result }

/-- The write-back request of a command of state `s` that ended with an outcome (R169). -/
def State.writeBackOf (s : State) (kind : Byte) (r : CmdArgs) (o : CmdResult) : OwnReq :=
  .write .writeBack (s.control (0x1000 + 32 * (s.proc.consumer.toNat % 128))) ((endedRecord kind r o).bytes (r.flags ||| 1))

/-- From `s` to `t` a fetched command has ended with an outcome: the processor is WRITING with the record filled in, the fetch has
left the own-request queue and the write-back has been queued (R167 to R169). -/
def State.commandEnded (s t : State) (kind : Byte) (r : CmdArgs) (o : CmdResult) : Prop :=
  t.proc = { s.proc with state := .writing, current := some (endedRecord kind r o), reportFailed := false } ∧
    ∃ k, s.mem.outstanding .fetch = some k ∧
      t.mem.ownQ = ((s.mem.leave k).queueOwn (s.writeBackOf kind r o)).ownQ ∧
      t.mem.ownWait = ((s.mem.leave k).queueOwn (s.writeBackOf kind r o)).ownWait

/-- From `s` to `t` a fetched command has been taken and stays in execution: the processor is EXECUTING with the record, the fetch
has left the own-request queue and the listed requests have been queued (R167). -/
def State.commandHeld (s t : State) (kind : Byte) (r : CmdArgs) (qs : List OwnReq) : Prop :=
  t.proc = { s.proc with state := .executing, current := some { kind, args := r }, reportFailed := false } ∧
    ∃ k, s.mem.outstanding .fetch = some k ∧
      t.mem.ownQ = (qs.foldl MemPath.queueOwn (s.mem.leave k)).ownQ ∧
      t.mem.ownWait = (qs.foldl MemPath.queueOwn (s.mem.leave k)).ownWait

/-- From `s` to `t` the command in execution, with record `cur`, has ended as own request `k` ended (R136, R182, R183): the
processor is WRITING, the request has left the queue, and the write-back has been queued (R169). -/
def State.executionEnded (s t : State) (cur : CmdRecord) (k : Nat) (o : CmdResult) : Prop :=
  t.proc = { s.proc with
    state := .writing, current := some { cur with status := o.status, reason := o.reason, result := o.result }
    reportFailed := false } ∧
    ∃ q : OwnReq, q = .write .writeBack (s.control (0x1000 + 32 * (s.proc.consumer.toNat % 128)))
        (CmdRecord.bytes { cur with status := o.status, reason := o.reason, result := o.result } (cur.args.flags ||| 1)) ∧
      t.mem.ownQ = ((s.mem.leave k).queueOwn q).ownQ ∧ t.mem.ownWait = ((s.mem.leave k).queueOwn q).ownWait

/-- The event unit after one event is raised (R177). -/
def EventUnit.posted (e : EventUnit) (k : EventKind) (reason : Reason) (obj aux : Nat) (value tick : Word) : EventUnit :=
  e.stage { kind := k, reason, obj, aux, value, tick, cls := e.classOf k }

/-- The memory path with its own-request queue replaced by that of another. -/
def MemPath.withOwn (m : MemPath) (x : MemPath) : MemPath := { m with ownQ := x.ownQ, ownWait := x.ownWait }

/-! ## Words of the command rules -/

/-- `p` is the phase count fixed for a request `q` (R24): the least member of the set at or above it, 8 above 8. -/
def fittedPhases (q p : Nat) : Prop :=
  p ∈ [1, 2, 3, 4, 6, 8] ∧ ((q ≤ p ∧ ∀ x ∈ [1, 2, 3, 4, 6, 8], q ≤ x → p ≤ x) ∨ (8 < q ∧ p = 8))

/-- `v` is the request `q` clamped into `lo..hi` (0.7). -/
def fittedTo (lo hi q v : Nat) : Prop :=
  lo ≤ v ∧ v ≤ hi ∧ (lo ≤ q → q ≤ hi → v = q) ∧ (q < lo → v = lo) ∧ (hi < q → v = hi)

/-- `v` is the signed request `q` clamped into `-m..m` (0.7). -/
def fittedRate (m q v : Int) : Prop := -m ≤ v ∧ v ≤ m ∧ (-m ≤ q → q ≤ m → v = q) ∧ (q < -m → v = -m) ∧ (m < q → v = m)

/-- DONE, or DONE_CLAMPED with reason CLAMP, with a result word (R168). -/
def doneOrClamped (changed : Prop) [Decidable changed] (w : Word) : CmdResult :=
  if changed then { status := .doneClamped, reason := .clamp, result := w } else { status := .done, reason := .none, result := w }

/-- REFUSED with a reason and result 0 (R168). -/
def refusedFor (why : Reason) : CmdResult := { status := .refused, reason := why, result := 0 }

/-- CHANNEL_SETUP is taken on the channel (R21). -/
def State.setupTaken (s : State) (c : ChanId) : Prop :=
  (s.chan c).state = .off ∨
    ((s.chan c).state = .ready ∧ (s.chan c).nextRfn = 0 ∧ (s.chan c).tail = 0 ∧
      (∀ n, (s.chan c).firstSlot ≤ n → n < (s.chan c).firstSlot + (s.chan c).len → (s.slot n).state = .empty) ∧
      (∀ k, k < 256 → (s.clip k).state ≠ .free → (s.clip k).chan ≠ c) ∧ ∀ h, (s.head h).src ≠ .live c)

/-- CHANNEL_CLEAR is taken on the channel (R28). -/
def State.clearTaken (s : State) (c : ChanId) : Prop :=
  (s.chan c).state = .ready ∧ (∀ k, k < 256 → (s.clip k).state ≠ .free → (s.clip k).chan ≠ c) ∧
    (∀ h, (s.head h).src ≠ .live c) ∧
    ∀ n, (s.chan c).firstSlot ≤ n → n < (s.chan c).firstSlot + (s.chan c).len → (s.slot n).pins = 0

/-- A loop of `n` slots from `f` meets no loop of another channel that is not OFF (R23). -/
def State.loopFree (s : State) (c : ChanId) (f n : Nat) : Prop :=
  ∀ d, d ≠ c → (s.chan d).state ≠ .off → f + n ≤ (s.chan d).firstSlot ∨ (s.chan d).firstSlot + (s.chan d).len ≤ f

/-- A slot record after an empty (R8). -/
def Slot.emptied (x : Slot) : Slot :=
  if x.state = .recording ∨ (x.state = .held ∧ x.locks = 0 ∧ x.pins = 0) then {} else x

/-- A slot record after an unpin (R13). -/
def Slot.unpinned (x : Slot) : Slot := { x with pins := x.pins - 1 }

/-- The mail after a head's own detach, handed when the head has an attached clip (R59). -/
def State.mailDetached (s : State) (h : HeadId) : Mail :=
  match (s.head h).attached with
  | none => s.mail
  | some k => { s.mail with fromHead := pushAt s.mail.fromHead h k }

/-- The record of a head that takes HEAD_SOURCE, but for its source, position and end mode (R45). -/
def Head.cleared (h : Head) : Head :=
  { h with rate := 0, target := 0, owner := .command, goto := none, atLive := false, atTail := false, atEnd := false,
           attached := none }

/-! ## Words of the recording and clip rules -/

/-- The phase slot list of a recording channel names P distinct RECORDING slots of its loop, the slot of phase `j` taken for RFN
next RFN + j (R31, R35). -/
def State.periodTaken (s : State) (c : ChanId) : Prop :=
  (s.chan c).phaseSlots.length = (s.chan c).phases ∧ (s.chan c).phaseSlots.Nodup ∧
    ∀ j n, (s.chan c).phaseSlots[j]? = some n →
      s.ownerOf n = some c ∧ (s.slot n).state = .recording ∧ (s.slot n).rfn = (s.chan c).nextRfn + j

/-- Every valid index entry of the channel's loop names a slot of that loop (R14). -/
def State.entriesInLoop (s : State) (c : ChanId) : Prop :=
  ∀ i, (s.chan c).owns i = true → (s.entry i).valid = true → (s.chan c).owns (s.entry i).slot = true

/-- Extents that cover the frames `lo` to `hi` once each, in RFN order (R87). -/
def extentsCover : List Extent → (lo hi : Nat) → Prop
  | [], lo, hi => lo = hi + 1
  | e :: es, lo, hi => e.rfn = lo ∧ 1 ≤ e.len ∧ lo ≤ hi ∧ extentsCover es (lo + e.len) hi

/-- A slot record after `n` unlocks (R10). -/
def Slot.unlockedBy (x : Slot) (n : Nat) : Slot := { x with locks := x.locks - n }

/-- From `s` to `t` the OPEN clip `k`, with record `c`, is closed at frame `o` (R92): its frames above `o` are unlocked, its extents
end at `o`, its attached head is told, CLIP_CLOSED is posted. -/
def State.clipClosed (s t : State) (k o : Nat) (c : Clip) (why : Reason) : Prop :=
  t.clip k = { c with extents := (t.clip k).extents, outF := o, state := .closed, reason := why, growing := false,
                      quick := none, attached := none } ∧
    (∀ lo, extentsCover c.extents lo c.outF → lo ≤ o → o ≤ c.outF → extentsCover (t.clip k).extents lo o) ∧
    (∀ j, j ≠ k → t.clip j = s.clip j) ∧
    (∀ n, t.slot n = (s.slot n).unlockedBy ((s.clipSlots c (o + 1) c.outF).count n)) ∧
    (∀ d, t.chan d = { s.chan d with locked := (t.chan d).locked }) ∧
    t.mail = (match c.attached with
      | none => s.mail
      | some h => { s.mail with toHead := pushAt s.mail.toHead h (.detach k) }) ∧
    t.evt = s.evt.posted .clipClosed why k { c with growing := false }.flags (BitVec.ofNat 32 o) s.ref.count

/-- Slot `n` can be locked for frame `r` (R9). -/
def State.lockable (s : State) (n r : Nat) : Prop :=
  (s.slot n).state = .held ∧ (s.slot n).rfn = r ∧ (s.slot n).locks < 256 ∧
    ((s.slot n).locks = 0 → ∃ c, s.ownerOf n = some c ∧ (s.chan c).locked < (s.chan c).len - (s.chan c).reserve)

/-- From `s` to `t` one lock is taken on slot `n` (R9). -/
def State.lockTaken (s t : State) (n : Nat) : Prop :=
  (∀ m, t.slot m = if m = n then { s.slot n with locks := (s.slot n).locks + 1 } else s.slot m) ∧
    (∀ d, t.chan d = if s.ownerOf n = some d ∧ (s.slot n).locks = 0 then
                       { s.chan d with locked := (s.chan d).locked + 1 } else s.chan d)

/-- `k` is the lowest-numbered FREE clip (R91). -/
def State.lowestFree (s : State) (k : Nat) : Prop :=
  k < 256 ∧ (s.clip k).state = .free ∧ ∀ j, j < k → (s.clip j).state ≠ .free

/-- Frame `r` of channel `c` is present in slot `n` of its loop, by the index (R15). -/
def State.presentAt (s : State) (c : ChanId) (r n : Nat) : Prop :=
  (s.chan c).state ≠ .off ∧ s.entry ((s.chan c).firstSlot + r % (s.chan c).len) = { valid := true, slot := n } ∧
    (s.slot n).state = .held ∧ (s.slot n).rfn = r

/-! ## The window and the clip table (R37, R87, R88) -/

/-- The slots in RECORDING are those of the phase slot lists, a list is full in RECORDING and STOPPING and empty otherwise, and a slot
of no loop is EMPTY (R4, R31, R35). -/
def State.recordingOk (s : State) : Prop :=
  (∀ c, if (s.chan c).state = .recording ∨ (s.chan c).state = .stopping then s.periodTaken c else (s.chan c).phaseSlots = []) ∧
    (∀ n, (s.slot n).state = .recording → ∃ c, n ∈ (s.chan c).phaseSlots) ∧ ∀ n, s.ownerOf n = none → s.slot n = {}

/-- The live window of a channel: at most L frames, each HELD in a slot of the loop that its index entry names (R37). -/
def State.windowOk (s : State) (c : ChanId) : Prop :=
  (s.chan c).nextRfn ≤ (s.chan c).tail + (s.chan c).len ∧
    ∀ r, (s.chan c).tail ≤ r → r < (s.chan c).nextRfn → ∃ n, s.presentAt c r n ∧ (s.chan c).owns n = true

/-- A clip record that is not FREE: a channel that is not OFF; in at most out; 1 to 16 extents, in the loop, that cover in..out;
every frame HELD where its extent says; and a CLOSED clip that neither grows nor is attached (R86, R87, R88, R92). -/
def State.clipOk (s : State) (c : Clip) : Prop :=
  (s.chan c.chan).state ≠ .off ∧ c.inF ≤ c.outF ∧ 1 ≤ c.extents.length ∧ c.extents.length ≤ 16 ∧
    extentsCover c.extents c.inF c.outF ∧
    (∀ e ∈ c.extents, e.pos < (s.chan c.chan).len ∧ e.len ≤ (s.chan c.chan).len) ∧
    (∀ r, c.inF ≤ r → r ≤ c.outF → ∃ p, positionOf c.extents (s.chan c.chan).len r = some p ∧
      (s.slot ((s.chan c.chan).firstSlot + p)).state = .held ∧ (s.slot ((s.chan c.chan).firstSlot + p)).rfn = r) ∧
    (c.state = .closed → c.growing = false ∧ c.quick = none ∧ c.attached = none)

/-- One of the clip's frames lies in slot `n`, as its extents give it (R88). -/
def State.clipHolds (s : State) (c : Clip) (n : Nat) : Bool := decide (n ∈ s.clipSlots c c.inF c.outF)

/-- The clip table: every record FREE, with the defaults, or as R87 says; and each slot's lock count is the number of the clips that
cover it (R85, R88). -/
def State.clipsTrue (s : State) : Prop :=
  (∀ k, (s.clip k).state = .free → s.clip k = {}) ∧ (∀ k, 256 ≤ k → s.clip k = {}) ∧
    (∀ k, (s.clip k).state ≠ .free → s.clipOk (s.clip k)) ∧
    ∀ n, (s.slot n).locks = ((List.range 256).filter (fun k => s.clipHolds (s.clip k) n)).length

/-! ## Words of the marks and of growth (R89, R92, R95, R106, R112) -/

/-- Frame `r` of a mark's source lies in slot `n`: by the index on a LIVE source, by the source clip's extents on a CLIP source (R96
step 1). -/
def State.foundAt (s : State) (m : MarkSource) (r n : Nat) : Prop :=
  (m.sub = none → s.presentAt m.chan r n) ∧
    ∀ es, m.sub = some es → (s.chan m.chan).state ≠ .off ∧ (s.slot n).state = .held ∧ (s.slot n).rfn = r ∧
      ∃ p, positionOf es (s.chan m.chan).len r = some p ∧ n = (s.chan m.chan).firstSlot + p

/-- Clip `k` is OPEN, its record names head `h`, and no attach notice of it waits at the head (R101). -/
def State.heldOpen (s : State) (h : HeadId) (k : Nat) : Prop :=
  (s.clip k).state = .opened ∧ (s.clip k).attached = some h ∧ ∀ src, HeadNote.attach k src ∉ s.mail.toHead.get h

/-- Head `h` has no attached clip that a mark can act on: its record names none, or one whose attach notice it has not taken, or one
that is not OPEN or whose own record does not name the head (R101, assumption log 14). -/
def State.noneAttached (s : State) (h : HeadId) : Prop := ∀ k, (s.head h).attached = some k → ¬s.heldOpen h k

/-- A MARK OUT on head `h` acts on clip `k`: the head's attached clip, or, where it has none, the clip of the newest of its detach
notices that still wait and name a clip held open (R59, R101, R115, assumption log 14). -/
def State.outActsOn (s : State) (h : HeadId) (k : Nat) : Prop :=
  s.heldOpen h k ∧ ((s.head h).attached = some k ∨
    s.noneAttached h ∧ ∃ older newer, s.mail.fromHead.get h = older ++ k :: newer ∧ ∀ j ∈ newer, ¬s.heldOpen h j)

/-- What a mark on a head of source `src` works within: the live window, or the source clip's frames (R95). -/
def State.markWindow (s : State) (src : Src) (m : MarkSource) : Prop :=
  m.lo ≤ m.hi ∧
    ((∃ c, src = .live c ∧ (s.chan c).nextRfn = m.hi + 1 ∧ m = { chan := c, lo := (s.chan c).tail, hi := m.hi, sub := none }) ∨
      ∃ y, src = .clip y ∧ (s.clip y).state ≠ .free ∧
        m = { chan := (s.clip y).chan, lo := (s.clip y).inF, hi := (s.clip y).outF, sub := some (s.clip y).extents })

/-- From `s` to `t` the clip `k` is deleted (R98, R112): its frames are unlocked, its attached head is told, CLIP_DELETED is posted,
and the record is FREE. -/
def State.clipFreed (s t : State) (k : Nat) (why : Reason) : Prop :=
  t.clip k = {} ∧ (∀ j, j ≠ k → t.clip j = s.clip j) ∧
    (∀ n, t.slot n = (s.slot n).unlockedBy ((s.clipSlots (s.clip k) (s.clip k).inF (s.clip k).outF).count n)) ∧
    (∀ d, t.chan d = { s.chan d with locked := (t.chan d).locked }) ∧
    t.mail = (match (s.clip k).attached with
      | none => s.mail
      | some h => { s.mail with toHead := pushAt s.mail.toHead h (.detach k) }) ∧
    t.evt = s.evt.posted .clipDeleted why k { s.clip k with growing := false }.flags
      (BitVec.ofNat 32 ((s.clip k).outF - (s.clip k).inF + 1)) s.ref.count

/-- Only the clip manager's doing separates `t` from `s`. -/
def State.clipWork (s t : State) : Prop :=
  t = { s with slots := t.slots, chans := t.chans, clips := t.clips, evt := t.evt, mail := t.mail }

/-- Loop position `p` follows the last frame of the extents (R89). -/
def joinsLast (len : Nat) (es : List Extent) (p : Nat) : Prop := ∃ front e, es = front ++ [e] ∧ p = (e.pos + e.len) % len

/-- `new` are the extents `es` with frame `f`, at loop position `p`, joined at the top (R89). -/
def joinedTop (len : Nat) (es new : List Extent) (f p : Nat) : Prop :=
  (∀ front e, es = front ++ [e] → p = (e.pos + e.len) % len → new = front ++ [{ e with len := e.len + 1 }]) ∧
    (¬joinsLast len es p → new = es ++ [{ rfn := f, pos := p, len := 1 }])

/-- From `s` to `t` each of the clips is closed at its out, in turn (R92). -/
def closesEach (why : Reason) : List Nat → State → State → Prop
  | [], s, t => t = s
  | k :: ks, s, t => ∃ u, s.clipClosed u k (s.clip k).outF (s.clip k) why ∧ s.clipWork u ∧ closesEach why ks u t

/-- From `s` to `t` frame `f` in slot `n`, locked already for clip `k`, joins it at the top; at the quick target the clip closes
(R106, R109). -/
def State.grown (s t : State) (k f n : Nat) : Prop :=
  ∃ c, c = { s.clip k with outF := f, extents := c.extents } ∧
    joinedTop (s.chan (s.clip k).chan).len (s.clip k).extents c.extents f (n - (s.chan (s.clip k).chan).firstSlot) ∧
    ((s.clip k).quick ≠ some f → t.clip k = c ∧ (∀ j, j ≠ k → t.clip j = s.clip j) ∧ t = { s with clips := t.clips }) ∧
    ((s.clip k).quick = some f → s.clipClosed t k f c .quickDone ∧ s.clipWork t)

/-- From `s` to `t` the takers of frame `f`, HELD in slot `n`, take it in turn (R106, R108). -/
def growsEach (f n : Nat) : List Nat → State → State → Prop
  | [], s, t => t = s
  | k :: ks, s, t =>
    let full := 16 ≤ (s.clip k).extents.length ∧
      ¬joinsLast (s.chan (s.clip k).chan).len (s.clip k).extents (n - (s.chan (s.clip k).chan).firstSlot)
    (full → ∃ u, s.clipClosed u k (s.clip k).outF (s.clip k) .extents ∧ s.clipWork u ∧ growsEach f n ks u t) ∧
      (¬full → s.lockable n f → ∃ u v, s.lockTaken u n ∧ u = { s with slots := u.slots, chans := u.chans } ∧ u.grown v k f n ∧
        growsEach f n ks v t) ∧
      (¬full → (s.slot n).locks = 0 → ¬s.lockable n f → closesEach .allowance (k :: ks) s t)

/-- The growing OPEN clips of channel `c` whose out is the frame below `f`, in id order (R105). -/
def State.takersOf (s : State) (c : ChanId) (f : Nat) : List Nat :=
  (List.range 256).filter (fun k => decide ((s.clip k).state = .opened ∧ (s.clip k).growing = true ∧ (s.clip k).chan = c ∧
    (s.clip k).outF + 1 = f))

/-! ## Words of the jog wheel and of a head's tick -/

/-- From `p` to `t` the decoder takes a change of the filtered pair `turn` places forward, modulo 4: an error for the opposite
corner, a quarter for a neighbour, and Q quarters of one direction make a step, which a bound port counts (R138, R140). -/
def Port.turned (p t : Port) (turn : Nat) : Prop :=
  (turn = 2 → t.jogErrors = min (p.jogErrors + 1) 255) ∧ (turn ≠ 2 → t.jogErrors = p.jogErrors) ∧
    (turn = 0 ∨ turn = 2 → t.quarters = p.quarters ∧ t.jog = p.jog) ∧
    ∀ dir : Int, turn = 1 ∧ dir = 1 ∨ turn = 3 ∧ dir = -1 →
      (-(p.quartersPerStep : Int) < p.quarters + dir → p.quarters + dir < p.quartersPerStep →
        t.quarters = p.quarters + dir ∧ t.jog = p.jog) ∧
      (p.quarters + dir = dir * p.quartersPerStep → 1 ≤ p.quartersPerStep →
        t.quarters = 0 ∧ (p.binding = none → t.jog = p.jog) ∧ (p.binding ≠ none → fittedRate 127 (p.jog + dir) t.jog))

/-- `T` is the lever target of the port (R135). -/
def Port.leverGives (pt : Port) (T : Int) : Prop :=
  (pt.fault = true ∨ pt.outside = false → T = 0) ∧
    ∀ (δ mag : Int) (m : Nat), pt.fault = false → pt.outside = true → δ = (pt.lever : Int) - (pt.centre : Int) →
      m = min (δ.natAbs - pt.dead) 512 → (m = 512 → mag = (pt.knots.getD 16 0 : Nat)) →
      (m < 512 → mag = (pt.knots.getD (m / 32) 0 : Nat) +
        (((pt.knots.getD (m / 32 + 1) 0 : Nat) : Int) - (pt.knots.getD (m / 32) 0 : Nat)) * (m % 32 : Nat) / 32) →
      T = if δ < 0 then -mag else mag

/-- What port `p` gives a head at its tick but for the steps: the lever state, its target, the panel slew, the jog unit (R63,
R135). -/
def Port.gives (pt : Port) (p : PortId) (i : PanelInput) : Prop :=
  i.port = p.val ∧ i.slew = pt.panelSlew ∧ i.outputUnit = pt.outputUnit ∧
    (i.atRest = true ↔ pt.fault = true ∨ pt.outside = false) ∧ pt.leverGives i.target

/-- What a head takes from its ports at its tick (R54, R63): from the port bound to it, with the port's steps; unbound, no steps, and
while the notice of a port it has lost waits, that port's lever (R61, assumption log 15). -/
def State.portGives (s : State) (h : HeadId) (i : PanelInput) : Prop :=
  (∃ p, (s.port p).binding = some h ∧ (∀ q, q ≠ p → (s.port q).binding ≠ some h) ∧ (s.port p).gives p i ∧
      i.steps = (s.port p).jog) ∨
    ((∀ p, (s.port p).binding ≠ some h) ∧ i.steps = 0 ∧
      ((s.head h).owner = .command ∨
        ∃ p, PortNote.portLost h ∈ s.mail.portNotes.get p ∧ (∀ q, q ≠ p → PortNote.portLost h ∉ s.mail.portNotes.get q) ∧
          (s.port p).gives p i))

/-- The jog takeover's condition (R52). -/
def Head.takesOver (h : Head) (i : PanelInput) : Prop :=
  h.owner = .command ∧ i.steps ≠ 0 ∧ i.atRest = true ∧ h.rate = 0

/-- Owner, T, R and the candidate position of a head at its tick, on a source of phase count `phases` (R52, R64 to R68). -/
def Head.afterInput (h : Head) (i : PanelInput) (phases : Nat) (owner : Owner) (T R cand : Int) : Prop :=
  (owner = .panel ↔ h.owner = .panel ∨ h.takesOver i) ∧
    (∀ g : Nat, h.goto = some g → T = 0 ∧ R = 0 ∧ cand = (g : Int) * 256) ∧
    (h.goto = none → (owner = .command → T = h.target) ∧ (owner = .panel → T = i.target) ∧
      (owner = .panel ∧ i.atRest = true ∧ h.rate = 0 ∧ i.steps ≠ 0 →
        R = 0 ∧ cand = ((h.pos / 256 : Nat) + i.steps * (if i.outputUnit = true then (phases : Int) else 1)) * 256) ∧
      (¬(owner = .panel ∧ i.atRest = true ∧ h.rate = 0 ∧ i.steps ≠ 0) →
        cand = h.pos + R * phases ∧
        ∀ slew : Nat, (owner = .command → slew = h.slew) → (owner = .panel → slew = i.slew) →
          ((T - h.rate).natAbs ≤ slew → R = T) ∧
          (slew < (T - h.rate).natAbs → R = if h.rate < T then h.rate + slew else h.rate - slew)))

/-- The event unit after a jog takeover, if there is one, is posted (R52). -/
def State.afterTakeover (s : State) (h : HeadId) (i : PanelInput) (tick : Word) (e : EventUnit) : Prop :=
  ((s.head h).takesOver i → e = s.evt.posted .panelTakeover .jog h.val i.port 0 tick) ∧
    (¬(s.head h).takesOver i → e = s.evt)

/-- From `s` to `t` the steps of the port bound to head `h` are taken (R54, R138). -/
def State.stepsTaken (s t : State) (h : HeadId) : Prop :=
  ∀ p, t.port p = if (s.port p).binding = some h then { s.port p with jog := 0 } else s.port p

/-- Slot `m` can be pinned once a trailing pin is gone (R12, R54). -/
def State.pinnableAfter (s : State) (trailing : Option Nat) (m : Nat) : Prop :=
  (trailing = some m → (s.slot m).pins ≤ 8) ∧ (trailing ≠ some m → (s.slot m).pins < 8)

/-- From `s` to `t` the trailing pin goes and slot `m` is pinned (R54 steps 3 and 4). -/
def State.pinMoved (s t : State) (trailing : Option Nat) (m : Nat) : Prop :=
  ∀ j, t.slot j =
    { s.slot j with pins := (s.slot j).pins - (if trailing = some j then 1 else 0) + (if j = m then 1 else 0) }

/-- The event unit after an entry event, if there is one, is posted (R79). -/
def EventUnit.postedIf (e : EventUnit) (ev : Option (EventKind × Reason × Nat)) (obj aux : Nat) (tick : Word) : EventUnit :=
  match ev with
  | none => e
  | some (k, why, v) => e.posted k why obj aux (BitVec.ofNat 32 v) tick

/-! ## Words of the memory path and of the reports -/

/-- The state after burst `b` is accepted and waits for the store port with address `a` and watched words `ws` (R146). -/
def State.forwarded (s : State) (b : Burst) (a : Addr) (ws : List Watched) : State :=
  { s with mem := { s.mem with
      engineOut := []
      passQ := s.mem.passQ ++ [{ no := s.mem.burstNo, dir := b.dir, addr := a, beats := b.beats, data := b.data }]
      burstNo := s.mem.burstNo + 1
      engReads := s.mem.engReads ++ (if b.dir = .read then [{ no := s.mem.burstNo, watched := ws, result := none }] else [])
      engWrites := s.mem.engWrites ++
        (if b.dir = .write then [{ no := s.mem.burstNo, watched := ws, result := none }] else []) } }

/-- The completion of an absorbed burst: GOOD, a read with zero data (R146). -/
def absorbedData (b : Burst) : List Byte := if b.dir = .read then List.replicate (32 * b.beats) 0 else []

/-- The state after the part has completed burst `b` itself: at once when the engine port owes nothing older in its direction,
otherwise in its turn (R146, R147). -/
def State.selfCompleted (s : State) (b : Burst) : State :=
  { s with mem :=
      if s.mem.owed b.dir = [] then
        { s.mem with burstNo := s.mem.burstNo + 1
                     engineOut := [{ dir := b.dir, status := .good, data := absorbedData b }] }
      else
        { s.mem.setOwed b.dir
            (s.mem.owed b.dir ++ [{ no := s.mem.burstNo, watched := [], result := some (.good, absorbedData b) }]) with
          burstNo := s.mem.burstNo + 1, engineOut := [] } }

/-- The word that a write burst carries at byte `i`, with its byte enables (R156, R163). -/
def carriedWord (b : Burst) (isCmd : Bool) (i : Nat) : Watched :=
  { isCmd, value := word (b.data.map (·.val)) i, full := (List.range 4).all (fun j => (b.data[i + j]?).any (·.en)) }

/-- An own request writes some bytes to address `a` and nothing else: whole beats at a multiple of 32 that cross no 4 KiB boundary,
with these bytes enabled (R157, 8.1). -/
def OwnReq.carries (r : OwnReq) (a : Addr) (bytes : List Byte) : Prop :=
  r.dir = .write ∧ r.addr.toNat = 32 * (a.toNat / 32) ∧ 1 ≤ r.beats ∧ r.addr.toNat % 4096 + 32 * r.beats ≤ 4096 ∧
    r.data.length = 32 * r.beats ∧ a.toNat + bytes.length ≤ r.addr.toNat + 32 * r.beats ∧
    ∀ i x, r.data[i]? = some x →
      (x.en = true ↔ a.toNat ≤ r.addr.toNat + i ∧ r.addr.toNat + i < a.toNat + bytes.length) ∧
      (x.en = true → bytes[r.addr.toNat + i - a.toNat]? = some x.val)

/-- The memory path after the oldest waiting pass burst is issued (R159). -/
def MemPath.sendsPass (m : MemPath) (b : PassBurst) (rest : List PassBurst) (counter : Nat) : MemPath :=
  { m with
    engineOut := [], passQ := rest, passOut := m.passOut ++ [b], runCounter := counter
    storeOut := some { own := false, dir := b.dir, addr := b.addr, beats := b.beats, data := b.data } }

/-- From `s` to `t` the bursts held off are accepted in their order while room is left, each as if just presented, and their
completions join those of the step (R146, R147). -/
def takesHeld : List Burst → State → State → Prop
  | [], s, t => t = { s with mem := { s.mem with held := [] } }
  | b :: bs, s, t =>
    (32 ≤ s.mem.passQ.length → t = { s with mem := { s.mem with held := b :: bs } }) ∧
      (s.mem.passQ.length < 32 → ∃ u, exec (.engineBurst b true) { s with mem := { s.mem with held := [] } } = .next u ∧
        takesHeld bs { u with mem := { u.mem with engineOut := s.mem.engineOut ++ u.mem.engineOut } } t)

/-- The fields of the report on clip `k` (11.6). -/
def queryFields (c : Clip) (k : Nat) (bs : List Byte) : Prop :=
  bs.length = 160 ∧ bs.getD 0x00 0 = BitVec.ofNat 8 k ∧
    (c.state = .opened → bs.getD 0x01 0 = 1) ∧ (c.state = .closed → bs.getD 0x01 0 = 2) ∧
    bs.getD 0x02 0 = BitVec.ofNat 8 c.chan.val ∧ bs.getD 0x03 0 = BitVec.ofNat 8 c.extents.length ∧
    word bs 0x04 = BitVec.ofNat 32 c.inF ∧ word bs 0x08 = BitVec.ofNat 32 c.outF ∧ bs.getD 0x0C 0 = BitVec.ofNat 8 c.flags ∧
    bs.getD 0x0D 0 = (c.attached.map (fun h => BitVec.ofNat 8 h.val)).getD 0xFF ∧
    bs.getD 0x0E 0 = BitVec.ofNat 8 c.rating ∧ bs.getD 0x0F 0 = BitVec.ofNat 8 c.reason.code ∧ half bs 0x10 = c.tag ∧
    half bs 0x12 = 0 ∧ word bs 0x14 = (c.quick.map (BitVec.ofNat 32)).getD 0xFFFFFFFF ∧ word bs 0x18 = c.creation ∧
    word bs 0x1C = BitVec.ofNat 32 (c.outF - c.inF + 1) ∧
    (∀ j e, c.extents[j]? = some e → word bs (0x20 + 8 * j) = BitVec.ofNat 32 e.rfn ∧
      half bs (0x24 + 8 * j) = BitVec.ofNat 16 e.pos ∧ half bs (0x26 + 8 * j) = BitVec.ofNat 16 e.len) ∧
    ∀ i, 0x20 + 8 * c.extents.length ≤ i → bs.getD i 0 = 0

/-- A flag as a byte of a report. -/
def flagIs (b : Byte) (f : Bool) : Prop := b = if f then 1 else 0

/-- The fields of the general part of a snapshot: `d`, `r`, `p` and `e` are the states in which the window decoder, the reference
unit, the command processor and the event unit are read (11.6). -/
def generalFields (d r p e : State) (bs : List Byte) : Prop :=
  flagIs (bs.getD 0x00 0) d.mem.active ∧
    (r.ref.state = .absent → bs.getD 0x01 0 = 0) ∧ (r.ref.state = .locked → bs.getD 0x01 0 = 1) ∧
    (r.ref.state = .flywheel → bs.getD 0x01 0 = 2) ∧ bs.getD 0x02 0 = BitVec.ofNat 8 d.mem.stride ∧
    (p.proc.state = .executing → bs.getD 0x03 0 = 2) ∧ word bs 0x04 = BitVec.ofNat 32 (d.mem.region / 2 ^ 20) ∧
    word bs 0x08 = BitVec.ofNat 32 (d.mem.slotBase / 2 ^ 20) ∧ word bs 0x0C = BitVec.ofNat 32 (d.mem.slate / 2 ^ 20) ∧
    word bs 0x10 = BitVec.ofNat 32 r.ref.period ∧ word bs 0x14 = r.ref.count ∧ word bs 0x18 = e.evt.producer ∧
    word bs 0x1C = e.evt.consumer ∧ word bs 0x20 = BitVec.ofNat 32 e.evt.lost ∧
    bs.getD 0x24 0 = BitVec.ofNat 8 e.evt.fifo.length ∧ flagIs (bs.getD 0x25 0) e.evt.intFlag ∧
    flagIs (bs.getD 0x26 0) e.evt.producerFault ∧ flagIs (bs.getD 0x27 0) p.proc.halted ∧ word bs 0x28 = p.proc.consumer ∧
    word bs 0x2C = p.proc.producer ∧
    ∀ cur, p.proc.current = some cur → (bs.drop 0x30).take 32 = cur.bytes cur.args.flags

/-- The fields of a channel's entry of a snapshot (11.6). -/
def channelFields (c : Channel) (bs : List Byte) : Prop :=
  bs.getD 0x00 0 = (match c.state with
      | .off => 0
      | .ready => 1
      | .armed => 2
      | .recording => 3
      | .stopping => 4) ∧
    bs.getD 0x01 0 = BitVec.ofNat 8 c.phases ∧ half bs 0x02 = BitVec.ofNat 16 c.firstSlot ∧
    half bs 0x04 = BitVec.ofNat 16 c.len ∧ half bs 0x06 = BitVec.ofNat 16 c.reserve ∧ half bs 0x08 = BitVec.ofNat 16 c.cursor ∧
    half bs 0x0A = BitVec.ofNat 16 c.locked ∧ word bs 0x0C = BitVec.ofNat 32 c.nextRfn ∧ word bs 0x10 = BitVec.ofNat 32 c.tail ∧
    word bs 0x14 = 0

/-- The kind and the object of a source, as a report spells them (11.6). -/
def sourceFields (kind object : Byte) : Src → Prop
  | .idle => kind = 0 ∧ object = 0
  | .live c => kind = 1 ∧ object = BitVec.ofNat 8 c.val
  | .clip k => kind = 2 ∧ object = BitVec.ofNat 8 k

/-- The fields of a head's entry of a snapshot (11.6). -/
def headFields (h : Head) (bs : List Byte) : Prop :=
  sourceFields (bs.getD 0x00 0) (bs.getD 0x01 0) h.src ∧
    bs.getD 0x02 0 = (match h.endMode with
      | .stop => 0
      | .loop => 1) ∧
    bs.getD 0x03 0 = (match h.owner with
      | .command => 0
      | .panel => 1) ∧
    bs.getD 0x04 0 = BitVec.ofNat 8 (headFlags h.atLive h.atTail h.atEnd + if h.attached = none then 0 else 8) ∧
    bs.getD 0x05 0 = BitVec.ofNat 8 (h.attached.getD 0) ∧ bs.getD 0x06 0 = BitVec.ofNat 8 h.pos ∧
    bs.getD 0x07 0 = (h.shown.map (fun d => BitVec.ofNat 8 d.chan.val)).getD 0xFF ∧
    word bs 0x08 = BitVec.ofNat 32 (h.pos / 256) ∧ word bs 0x0C = (h.goto.map (BitVec.ofNat 32)).getD 0xFFFFFFFF ∧
    half bs 0x10 = BitVec.ofInt 16 h.rate ∧ half bs 0x12 = BitVec.ofInt 16 h.target ∧ half bs 0x14 = BitVec.ofNat 16 h.slew ∧
    half bs 0x16 = (h.shown.map (fun d => BitVec.ofNat 16 d.slot)).getD 0xFFFF ∧
    word bs 0x18 = (h.shown.map (fun d => BitVec.ofNat 32 d.rfn)).getD 0xFFFFFFFF ∧
    half bs 0x1C = (h.trailing.map (BitVec.ofNat 16)).getD 0xFFFF ∧
    (∀ d, h.shown = some d → sourceFields (bs.getD 0x1E 0) (bs.getD 0x1F 0) d.src) ∧
    (h.shown = none → bs.getD 0x1E 0 = 0xFF ∧ bs.getD 0x1F 0 = 0)

/-- The fields of a port's entry of a snapshot (11.6). -/
def portFields (p : Port) (bs : List Byte) : Prop :=
  bs.getD 0x00 0 = (p.binding.map (fun h => BitVec.ofNat 8 h.val)).getD 0xFF ∧ flagIs (bs.getD 0x01 0) p.fault ∧
    flagIs (bs.getD 0x02 0) p.outside ∧ bs.getD 0x03 0 = BitVec.ofNat 8 p.restore ∧ flagIs (bs.getD 0x04 0) p.activeLow ∧
    flagIs (bs.getD 0x05 0) p.outputUnit ∧ bs.getD 0x06 0 = BitVec.ofNat 8 p.quartersPerStep ∧
    bs.getD 0x07 0 = BitVec.ofNat 8 p.filter ∧ bs.getD 0x08 0 = BitVec.ofNat 8 p.debounce ∧
    bs.getD 0x09 0 = BitVec.ofInt 8 p.jog ∧ bs.getD 0x0A 0 = BitVec.ofNat 8 p.jogErrors ∧
    bs.getD 0x0B 0 = BitVec.ofNat 8 ((if p.kin.pressed then 1 else 0) + (if p.kout.pressed then 2 else 0) +
      (if p.kqk.pressed then 4 else 0)) ∧
    half bs 0x0C = BitVec.ofNat 16 p.lever ∧ half bs 0x0E = BitVec.ofNat 16 p.centre ∧ half bs 0x10 = BitVec.ofNat 16 p.dead ∧
    half bs 0x12 = BitVec.ofNat 16 p.panelSlew ∧
    (∀ i, i < 17 → half bs (0x14 + 2 * i) = BitVec.ofNat 16 (p.knots.getD i 0)) ∧ half bs 0x36 = 0

/-- The fields of a snapshot whose parts are read in the given states (R182, 11.6). -/
def snapshotFields (seen : SnapPart → State) (bs : List Byte) : Prop :=
  bs.length = 512 ∧ generalFields (seen .decoder) (seen .reference) (seen .processor) (seen .events) bs ∧
    (∀ c : ChanId, channelFields ((seen (.channel c)).chan c) (bs.drop (0x50 + 24 * c.val))) ∧
    (∀ h : HeadId, headFields ((seen (.head h)).head h) (bs.drop (0x110 + 32 * h.val))) ∧
    ∀ p : PortId, portFields ((seen (.port p)).port p) (bs.drop (0x190 + 56 * p.val))

/-- The own writes of a report: one, or two where it crosses a 4 KiB boundary (R182, R183). -/
def reportRequests (a : Addr) (bytes : List Byte) : List OwnReq :=
  if a.toNat % 4096 + bytes.length ≤ 4096 then [.write .report a bytes]
  else
    [.write .report a (bytes.take (4096 - a.toNat % 4096)),
     .write .report (a + BitVec.ofNat 40 (4096 - a.toNat % 4096)) (bytes.drop (4096 - a.toNat % 4096))]

end Sys2Proof.Machine
end

