-- ==== Sys2Proof/Certificates/Slice0/Obligations.lean ====
section
/-! DEFINITION. Obligations.lean: the statements for the provers. A frame is written as an equation: the next state is the old one
but for the fields named. -/

open Sys2Proof Sys2Proof.Machine

/-! ## The machine as a whole -/

/-- One step carries out the command at the front of the queue, with the queue's rest. The queue is the model's own (assumption
log 4). -/
def Obligations.StepRunsTheFrontCommand : Prop :=
  ∀ (c : Instr) (rest : List Instr) (s : State), s.pending = c :: rest → step s = exec c { s with pending := rest }

/-- The state after reset meets every invariant stated below. The strap setting and the line levels of reset are the model's
choice (assumption log 6); no clause rests on them. -/
def Obligations.ResetMeetsEveryInvariant : Prop :=
  State.reset.tablesWf ∧ State.reset.slotsLawful ∧ State.reset.pinsAgree ∧ State.reset.geometryOk ∧
    (∀ c, (State.reset.chan c).numbered) ∧ State.reset.recordingOk ∧
    (∀ c, (State.reset.chan c).state ≠ .off → State.reset.windowOk c) ∧ (∀ c, State.reset.entriesInLoop c) ∧
    State.reset.clipsTrue ∧ State.reset.locksAgree ∧ State.reset.headsInRange ∧ State.reset.portsInRange ∧
    State.reset.evt.sound ∧ State.reset.mem.sound ∧ State.reset.proc.sound ∧ State.reset.ref.sound

/-- RESET_N gives every field the default its rule names; the straps are latched and the two start-up writes queued in the order
of the operand (assumption log 7). The timebase starts at 0; the line levels, the waiting commands and the bursts still
presented at the engine port are outside the part (assumption logs 6 and 9). That a pass burst accepted and not issued is
dropped is the model's choice (assumption log 40). Which 32-byte beat carries a short own write is the model's choice
(assumption log 13). -/
def Obligations.ResetNReturnsEveryBlockToItsDefaults : Prop :=
  ∀ (s : State) (cb : BitVec 4) (ef : Bool), ∃ t, exec (.resetN cb ef) s = .next t ∧
    t.pending = s.pending ∧ t.now = 0 ∧ t.cbsel = cb ∧
    t.startUp = { cmdWait := true, evtWait := true, cmdFail := false, evtFail := false } ∧
    (∀ c, t.chan c = { state := .off, firstSlot := 0, len := 0, phases := 1, reserve := 0, cursor := 0, nextRfn := 0,
                       tail := 0, locked := 0, phaseSlots := [], stray := false }) ∧
    (∀ h, t.head h = { src := .idle, endMode := .stop, pos := 0, rate := 0, target := 0, slew := 32, owner := .command,
                       goto := none, shown := none, trailing := none, atLive := false, atTail := false, atEnd := false,
                       attached := none }) ∧
    (∀ n, t.slot n = { state := .empty, rfn := 0, locks := 0, pins := 0 }) ∧
    (∀ i, t.entry i = { valid := false, slot := 0 }) ∧
    (∀ k, t.clip k = { state := .free, chan := 0, inF := 0, outF := 0, extents := [], growing := false, attached := none,
                       quick := none, inClamped := false, outClamped := false, isQuick := false, isSub := false, tag := 0,
                       rating := 0, creation := 0, reason := .none }) ∧
    t.preRoll = 60 ∧ t.postRoll = 60 ∧
    t.ref = { state := .absent, period := 0, measure := none, lastTick := none, timer := none, count := 0,
              sync := s.ref.sync, qual := none, pulses := [] } ∧
    (∀ p, (t.port p).binding = none ∧ (t.port p).lever = 512 ∧ (t.port p).fault = false ∧ (t.port p).outside = false ∧
      (t.port p).restore = 0 ∧ (t.port p).cycle = none ∧
      (t.port p).knots = [0, 8, 16, 32, 48, 64, 96, 128, 192, 256, 320, 384, 512, 768, 1024, 1536, 2048] ∧
      (t.port p).centre = 512 ∧ (t.port p).dead = 24 ∧ (t.port p).panelSlew = 32 ∧ (t.port p).activeLow = false ∧
      (t.port p).filter = 20 ∧ (t.port p).quartersPerStep = 4 ∧ (t.port p).outputUnit = false ∧ (t.port p).quarters = 0 ∧
      (t.port p).jog = 0 ∧ (t.port p).jogErrors = 0 ∧ (t.port p).debounce = 8 ∧ (t.port p).noEdge = 0 ∧
      (t.port p).lev = (s.port p).lev ∧
      (t.port p).ja = { level := (s.port p).ja.level, filtered := (s.port p).ja.level, qual := none } ∧
      (t.port p).jb = { level := (s.port p).jb.level, filtered := (s.port p).jb.level, qual := none } ∧
      ∀ k, ((t.port p).key k) = { level := ((s.port p).key k).level, pressed := false,
                                  qual := if ((s.port p).key k).level = false then some 0 else none }) ∧
    t.proc = { state := .idle, consumer := 0, producer := 0, halted := false, current := none, reportFailed := false } ∧
    t.evt.fifo = [] ∧ t.evt.producer = 0 ∧ t.evt.consumer = 0 ∧ t.evt.seq = 0 ∧ t.evt.lost = 0 ∧ t.intN = true ∧
    t.evt.producerFault = false ∧ t.evt.phase = .idle ∧ t.evt.resetDone = none ∧ t.evt.lostDone = false ∧
    t.evt.classes = [.logInt, .logInt, .logInt, .logInt, .logInt, .off, .logInt, .logInt, .off, .logInt, .logInt, .logInt,
      .logInt, .log, .log, .log, .log, .log, .log, .log] ∧
    t.mail = {} ∧
    t.mem.active = false ∧ t.mem.region = 0 ∧ t.mem.slotBase = 0 ∧ t.mem.stride = 0 ∧ t.mem.slate = 0 ∧ t.mem.passQ = [] ∧
    t.mem.passOut = [] ∧ t.mem.engReads = [] ∧ t.mem.engWrites = [] ∧ t.mem.held = s.mem.held ∧ t.mem.ownWait = [] ∧
    t.mem.runCounter = 0 ∧ t.mem.burstNo = 0 ∧ t.mem.engineOut = [] ∧ t.mem.storeOut = none ∧
    ∃ x y, t.mem.ownQ = (if ef then [y, x] else [x, y]) ∧
      x = { OwnReq.write .startCmd (BitVec.ofNat 40 (cb.toNat * 2 ^ 36 + 4)) [0, 0, 0, 0] with after := 0, issued := none } ∧
      y = { OwnReq.write .startEvt (BitVec.ofNat 40 (cb.toNat * 2 ^ 36 + 8)) [0, 0, 0, 0] with after := 0, issued := none }

/-! ## Invariants that every step keeps -/

/-- The slot, index and clip tables stay in their one form. The form is the model's own (assumption log 24). -/
def Obligations.EveryStepKeepsTheTablesForm : Prop := ∀ s t : State, s.tablesWf → step s = .next t → t.tablesWf

/-- The three laws of R4, and the count ranges of R3, hold after every step. -/
def Obligations.EveryStepKeepsTheSlotLaws : Prop := ∀ s t : State, s.slotsLawful → step s = .next t → t.slotsLawful

/-- A slot's pin count stays the number of heads' pins on it, so no slot has more than eight and no head more than two. -/
def Obligations.EveryStepKeepsPinCountsTrue : Prop :=
  ∀ s t : State, s.slotsLawful → s.pinsAgree → step s = .next t → t.pinsAgree

/-- Every loop stays as CHANNEL_SETUP may leave it, and no slot comes to belong to two channels. -/
def Obligations.EveryStepKeepsTheLoopGeometry : Prop := ∀ s t : State, s.geometryOk → step s = .next t → t.geometryOk

/-- No channel's next RFN passes the RFN limit, and no tail passes its next RFN. The live window keeps at most L frames, each
HELD in a slot of the loop that its index entry names; with it, the slots in RECORDING stay those of the phase slot lists, which
hold P slots in RECORDING and STOPPING. -/
def Obligations.EveryStepKeepsTheRfnLimit : Prop :=
  (∀ s t : State, (∀ c, (s.chan c).numbered) → step s = .next t → ∀ c, (t.chan c).numbered) ∧
  ∀ s t : State, s.slotsLawful → s.pinsAgree → s.geometryOk → s.locksAgree → (∀ c, (s.chan c).numbered) → s.recordingOk →
    (∀ c, (s.chan c).state ≠ .off → s.windowOk c) → step s = .next t →
    t.recordingOk ∧ ∀ c, (t.chan c).state ≠ .off → t.windowOk c

/-- Each locked count stays the number of locked slots of its loop and within the allowance. The clip table stays true: a clip
that is not FREE has in at most out and 1 to 16 extents that cover in..out, each frame HELD in the slot its extent gives; each
slot's lock count is the number of clips that cover it; and a valid index entry of a loop names a slot of the loop. -/
def Obligations.EveryStepKeepsLockedCountsTrue : Prop :=
  (∀ s t : State, s.slotsLawful → s.geometryOk → s.locksAgree → step s = .next t → t.locksAgree) ∧
  ∀ s t : State, s.slotsLawful → s.geometryOk → s.locksAgree → (∀ c, s.entriesInLoop c) → s.clipsTrue → step s = .next t →
    t.clipsTrue ∧ ∀ c, t.entriesInLoop c

/-- Rates, targets and slews stay in their ranges; ports stay in the ranges of R128, and no head is bound to both. -/
def Obligations.EveryStepKeepsHeadsAndPortsInRange : Prop :=
  ∀ s t : State, s.headsInRange → s.portsInRange → step s = .next t → t.headsInRange ∧ t.portsInRange

/-- The event unit, the memory path, the command processor and the reference unit keep the ranges and agreements of their
records. -/
def Obligations.EveryStepKeepsTheUnitsSound : Prop :=
  ∀ s t : State, s.evt.sound → s.mem.sound → s.proc.sound → s.ref.sound → step s = .next t →
    t.evt.sound ∧ t.mem.sound ∧ t.proc.sound ∧ t.ref.sound

/-! ## Slot operations (chapter 1) -/

/-- A declined operation leaves everything as it was. -/
def Obligations.DeclinedSlotOperationsChangeNothing : Prop :=
  ∀ (s : State) (n r : Nat) (c : Cause),
    ((s.take n r).2 = .declined c → (s.take n r).1 = s) ∧ ((s.commit n).2 = .declined c → (s.commit n).1 = s) ∧
    ((s.empty n).2 = .declined c → (s.empty n).1 = s) ∧ ((s.lock n r).2 = .declined c → (s.lock n r).1 = s) ∧
    ((s.unlock n).2 = .declined c → (s.unlock n).1 = s) ∧ ((s.pin n r).2 = .declined c → (s.pin n r).1 = s) ∧
    ((s.unpin n).2 = .declined c → (s.unpin n).1 = s)

/-- Unpin is DONE when the pin count is 1 or more and lowers it by 1; it is DECLINED AT_ZERO otherwise; it checks no RFN and
changes nothing else. A HELD slot of a loop left with no pin and no lock may be taken. -/
def Obligations.UnpinLowersThePinCountAlone : Prop :=
  ∀ (s : State) (n : Nat),
    (1 ≤ (s.slot n).pins →
      (s.unpin n).2 = .done none ∧ ((s.unpin n).1.slot n) = { s.slot n with pins := (s.slot n).pins - 1 } ∧
      (∀ m, m ≠ n → (s.unpin n).1.slot m = s.slot m) ∧ (s.unpin n).1 = { s with slots := (s.unpin n).1.slots }) ∧
    ((s.slot n).pins = 0 → s.unpin n = (s, .declined .atZero)) ∧
    ((s.slot n).state = .held → (s.slot n).pins = 1 → (s.slot n).locks = 0 → s.ownerOf n ≠ none →
      ∀ r, ((s.unpin n).1.take n r).2 = .done (some (s.slot n).rfn))

/-- A position lookup answers PRESENT with the slot of the loop position exactly when that slot is HELD with the RFN, and it
does not read the index pool. -/
def Obligations.PositionLookupReadsTheSlotRecordAlone : Prop :=
  ∀ (s : State) (c : ChanId) (p r : Nat), (s.chan c).state ≠ .off →
    (∀ n, s.positionLookup c p r = some n ↔
      n = (s.chan c).firstSlot + p % (s.chan c).len ∧ (s.slot n).state = .held ∧ (s.slot n).rfn = r) ∧
    ∀ pool, State.positionLookup { s with index := pool } c p r = s.positionLookup c p r

/-- The outcomes of two operations on one slot, in either order. -/
def Obligations.TwoCallersOnOneSlotMeetAsTheTableSays : Prop :=
  ∀ (s : State) (n r q : Nat),
    -- a HELD frame r of a loop, no lock, no pin: take against pin, take against lock, empty against pin
    ((s.slot n).state = .held → (s.slot n).rfn = r → (s.slot n).locks = 0 → (s.slot n).pins = 0 → s.ownerOf n ≠ none →
      (s.take n q).2 = .done (some r) ∧ ((s.take n q).1.pin n r).2 = .declined .notHeld ∧
      (s.pin n r).2 = .done none ∧ ((s.pin n r).1.take n q).2 = .declined .pinned ∧
      ((s.take n q).1.lock n r).2 = .declined .notHeld ∧
      (s.hasAllowance n = true → (s.lock n r).2 = .done none ∧ ((s.lock n r).1.take n q).2 = .declined .locked) ∧
      (s.empty n).2 = .done none ∧ ((s.empty n).1.pin n r).2 = .declined .notHeld ∧
      ((s.pin n r).1.empty n).2 = .declined .pinned) ∧
    -- take against unpin, pin count 1
    ((s.slot n).state = .held → (s.slot n).rfn = r → (s.slot n).locks = 0 → (s.slot n).pins = 1 → s.ownerOf n ≠ none →
      (s.take n q).2 = .declined .pinned ∧ ((s.take n q).1.unpin n).2 = .done none ∧
      (s.unpin n).2 = .done none ∧ ((s.unpin n).1.take n q).2 = .done (some r)) ∧
    -- take against unlock, lock count 1
    ((s.slot n).state = .held → (s.slot n).rfn = r → (s.slot n).locks = 1 → (s.slot n).pins = 0 → s.ownerOf n ≠ none →
      (s.take n q).2 = .declined .locked ∧ ((s.take n q).1.unlock n).2 = .done none ∧
      (s.unlock n).2 = .done none ∧ ((s.unlock n).1.take n q).2 = .done (some r)) ∧
    -- a RECORDING slot of channel c taken for r: commit against lookup, pin and lock of r
    (∀ c, (s.slot n).state = .recording → (s.slot n).rfn = r → (s.slot n).locks = 0 → (s.slot n).pins = 0 →
      s.ownerOf n = some c → (∀ m, (s.chan c).owns m = true → (s.slot m).state = .held → (s.slot m).rfn ≠ r) →
      (∀ i, (s.entry i).valid = true → i = (s.chan c).entryOf r → (s.chan c).owns (s.entry i).slot = true) →
      s.indexLookup c r = none ∧ (s.commit n).1.indexLookup c r = some n ∧
      (s.pin n r).2 = .declined .notHeld ∧ ((s.commit n).1.pin n r).2 = .done none ∧
      (s.lock n r).2 = .declined .notHeld ∧
      (s.hasAllowance n = true → ((s.commit n).1.lock n r).2 = .done none)) ∧
    -- lock with pin, allowance permitting, and unlock with unpin: both DONE in either order
    ((s.slot n).state = .held → (s.slot n).rfn = r → 1 ≤ (s.slot n).locks ∨ s.hasAllowance n = true →
      (s.slot n).locks < 256 → (s.slot n).pins < 8 →
      (s.lock n r).2 = .done none ∧ ((s.lock n r).1.pin n r).2 = .done none ∧
      (s.pin n r).2 = .done none ∧ ((s.pin n r).1.lock n r).2 = .done none) ∧
    (1 ≤ (s.slot n).locks → 1 ≤ (s.slot n).pins →
      (s.unlock n).2 = .done none ∧ ((s.unlock n).1.unpin n).2 = .done none ∧
      (s.unpin n).2 = .done none ∧ ((s.unpin n).1.unlock n).2 = .done none)

/-! ## Record channels (chapter 2) -/

/-- A CHANNEL_SETUP that passes its checks fits the phase count and the reserve, gives the channel its loop, clears the loop's
index entries and makes it READY. -/
def Obligations.ChannelSetupGivesTheFittedLoop : Prop :=
  ∀ (s : State) (r : CmdArgs) (c : ChanId), s.awaits → r.target.toNat = c.val → s.setupTaken c →
    64 ≤ r.b.toNat → r.b.toNat ≤ 16384 → r.a.toNat + r.b.toNat ≤ 16384 → s.loopFree c r.a.toNat r.b.toNat →
    ∃ t p v, exec (.channelSetup r) s = .next t ∧ fittedPhases r.c.toNat p ∧
      fittedTo (2 * p + 8) (r.b.toNat / 2) r.d.toNat v ∧
      s.commandEnded t 0x04 r (doneOrClamped (p ≠ r.c.toNat ∨ v ≠ r.d.toNat) (BitVec.ofNat 32 v)) ∧
      t.chan c = { s.chan c with state := .ready, firstSlot := r.a.toNat, len := r.b.toNat, phases := p, reserve := v,
                                 cursor := 0, nextRfn := 0, tail := 0, phaseSlots := [] } ∧
      (∀ d, d ≠ c → t.chan d = s.chan d) ∧
      (∀ j, t.entry j = if r.a.toNat ≤ j ∧ j < r.a.toNat + r.b.toNat then { valid := false, slot := 0 } else s.entry j) ∧
      t = { s with proc := t.proc, mem := s.mem.withOwn t.mem, chans := t.chans, index := t.index }

/-- CHANNEL_SETUP with L = 0 returns the channel to OFF; the refusals come in the order of R19, R21, R23 and change nothing.
Every channel command refuses BAD_ARG for a target id above 7. -/
def Obligations.ChannelSetupTurnsOffOrRefuses : Prop :=
  ∀ (s : State) (r : CmdArgs), s.awaits →
    (∀ i kind, 7 < r.target.toNat →
      (i, kind) ∈ [(Instr.channelSetup r, (0x04 : Byte)), (.channelArm r, 0x05), (.channelStop r, 0x06), (.channelAbort r, 0x07),
        (.channelClear r [], 0x08)] →
      ∃ t, exec i s = .next t ∧ s.commandEnded t kind r (refusedFor .badArg) ∧
        t = { s with proc := t.proc, mem := s.mem.withOwn t.mem }) ∧
    ∀ c : ChanId, r.target.toNat = c.val →
      (¬s.setupTaken c → ∃ t, exec (.channelSetup r) s = .next t ∧ s.commandEnded t 0x04 r (refusedFor .state) ∧
        t = { s with proc := t.proc, mem := s.mem.withOwn t.mem }) ∧
      (s.setupTaken c → r.b = 0 → ∃ t, exec (.channelSetup r) s = .next t ∧
        s.commandEnded t 0x04 r { status := .done, reason := .none, result := 0 } ∧
        t.chan c = { s.chan c with state := .off, firstSlot := 0, len := 0, reserve := 0, cursor := 0, nextRfn := 0,
                                   tail := 0, phases := 1, phaseSlots := [] } ∧
        (∀ d, d ≠ c → t.chan d = s.chan d) ∧
        t = { s with proc := t.proc, mem := s.mem.withOwn t.mem, chans := t.chans }) ∧
      (s.setupTaken c → r.b ≠ 0 → r.b.toNat < 64 ∨ 16384 < r.b.toNat ∨ 16384 < r.a.toNat + r.b.toNat →
        ∃ t, exec (.channelSetup r) s = .next t ∧ s.commandEnded t 0x04 r (refusedFor .badArg) ∧
          t = { s with proc := t.proc, mem := s.mem.withOwn t.mem }) ∧
      (s.setupTaken c → 64 ≤ r.b.toNat → r.b.toNat ≤ 16384 → r.a.toNat + r.b.toNat ≤ 16384 →
        ¬s.loopFree c r.a.toNat r.b.toNat → ∃ t, exec (.channelSetup r) s = .next t ∧
          s.commandEnded t 0x04 r (refusedFor .overlap) ∧ t = { s with proc := t.proc, mem := s.mem.withOwn t.mem })

/-- CHANNEL_ARM: refused STATE in TRANSPARENT, in OFF and at the RFN limit; READY becomes ARMED, STOPPING returns to RECORDING,
ARMED and RECORDING stay; the result is the next RFN. -/
def Obligations.ChannelArmActsByState : Prop :=
  ∀ (s : State) (r : CmdArgs) (c : ChanId), s.awaits → r.target.toNat = c.val →
    (s.mem.active = false ∨ (s.chan c).state = .off ∨ 4294967040 ≤ (s.chan c).nextRfn + (s.chan c).phases - 1 →
      ∃ t, exec (.channelArm r) s = .next t ∧ s.commandEnded t 0x05 r (refusedFor .state) ∧
        t = { s with proc := t.proc, mem := s.mem.withOwn t.mem }) ∧
    (s.mem.active = true → (s.chan c).state ≠ .off → (s.chan c).nextRfn + (s.chan c).phases - 1 < 4294967040 →
      ∃ t, exec (.channelArm r) s = .next t ∧
        s.commandEnded t 0x05 r { status := .done, reason := .none, result := BitVec.ofNat 32 (s.chan c).nextRfn } ∧
        ((s.chan c).state = .ready → t.chan c = { s.chan c with state := .armed }) ∧
        ((s.chan c).state = .stopping → t.chan c = { s.chan c with state := .recording }) ∧
        ((s.chan c).state = .armed ∨ (s.chan c).state = .recording → t.chan c = s.chan c) ∧
        (∀ d, d ≠ c → t.chan d = s.chan d) ∧
        t = { s with proc := t.proc, mem := s.mem.withOwn t.mem, chans := t.chans })

/-- CHANNEL_STOP: refused STATE in OFF; ARMED becomes READY at once with CHANNEL_STOPPED and a stop notice; RECORDING becomes
STOPPING; READY and STOPPING stay. -/
def Obligations.ChannelStopActsByState : Prop :=
  ∀ (s : State) (r : CmdArgs) (c : ChanId), s.awaits → r.target.toNat = c.val →
    ((s.chan c).state = .off → ∃ t, exec (.channelStop r) s = .next t ∧ s.commandEnded t 0x06 r (refusedFor .state) ∧
      t = { s with proc := t.proc, mem := s.mem.withOwn t.mem }) ∧
    ((s.chan c).state ≠ .off → ∃ t, exec (.channelStop r) s = .next t ∧
      s.commandEnded t 0x06 r { status := .done, reason := .none, result := BitVec.ofNat 32 (s.chan c).nextRfn } ∧
      ((s.chan c).state = .armed → t.chan c = { s.chan c with state := .ready, phaseSlots := [] } ∧
        t.evt = s.evt.posted .channelStopped .stop c.val 0 (BitVec.ofNat 32 (s.chan c).nextRfn) s.ref.count ∧
        t.mail = { s.mail with chanNotes := pushAt s.mail.chanNotes c (.stopped .stop) }) ∧
      ((s.chan c).state = .recording → t.chan c = { s.chan c with state := .stopping }) ∧
      ((s.chan c).state = .ready ∨ (s.chan c).state = .stopping → t.chan c = s.chan c) ∧
      ((s.chan c).state ≠ .armed → t.evt = s.evt ∧ t.mail = s.mail) ∧
      (∀ d, d ≠ c → t.chan d = s.chan d) ∧
      t = { s with proc := t.proc, mem := s.mem.withOwn t.mem, chans := t.chans, evt := t.evt, mail := t.mail })

/-- CHANNEL_ABORT: refused STATE in OFF, nothing in READY; otherwise the slots of the phase slot list are emptied, the list
becomes all none, the state READY, CHANNEL_STOPPED and a stop notice follow; tail and cursor stay. -/
def Obligations.ChannelAbortEndsRecordingAtOnce : Prop :=
  ∀ (s : State) (r : CmdArgs) (c : ChanId), s.awaits → r.target.toNat = c.val →
    ((s.chan c).state = .off → ∃ t, exec (.channelAbort r) s = .next t ∧ s.commandEnded t 0x07 r (refusedFor .state) ∧
      t = { s with proc := t.proc, mem := s.mem.withOwn t.mem }) ∧
    ((s.chan c).state = .ready → ∃ t, exec (.channelAbort r) s = .next t ∧
      s.commandEnded t 0x07 r { status := .done, reason := .none, result := BitVec.ofNat 32 (s.chan c).nextRfn } ∧
      t = { s with proc := t.proc, mem := s.mem.withOwn t.mem }) ∧
    ((s.chan c).state = .armed ∨ (s.chan c).state = .recording ∨ (s.chan c).state = .stopping →
      ∃ t, exec (.channelAbort r) s = .next t ∧
        s.commandEnded t 0x07 r { status := .done, reason := .none, result := BitVec.ofNat 32 (s.chan c).nextRfn } ∧
        t.chan c = { s.chan c with state := .ready, phaseSlots := [] } ∧ (∀ d, d ≠ c → t.chan d = s.chan d) ∧
        (∀ n, t.slot n = if n ∈ (s.chan c).phaseSlots then (s.slot n).emptied else s.slot n) ∧
        t.evt = s.evt.posted .channelStopped .abort c.val 0 (BitVec.ofNat 32 (s.chan c).nextRfn) s.ref.count ∧
        t.mail = { s.mail with chanNotes := pushAt s.mail.chanNotes c (.stopped .abort) } ∧
        t = { s with proc := t.proc, mem := s.mem.withOwn t.mem, chans := t.chans, slots := t.slots, evt := t.evt,
                     mail := t.mail })

/-- CHANNEL_CLEAR: refused IN_USE unless it may be taken; then every slot of the loop is emptied, the loop's index entries are
cleared, and the numbering and the cursor start again from 0, nothing being taken between these operations. A slot locked
already declines its empty and stays as it was: that the check passes over it is the model's choice (assumption log 30). -/
def Obligations.ChannelClearEmptiesTheLoop : Prop :=
  ∀ (s : State) (r : CmdArgs) (c : ChanId), s.awaits → r.target.toNat = c.val →
    (¬s.clearTaken c → ∃ t, exec (.channelClear r []) s = .next t ∧ s.commandEnded t 0x08 r (refusedFor .inUse) ∧
      t = { s with proc := t.proc, mem := s.mem.withOwn t.mem }) ∧
    (s.clearTaken c → ∃ t, exec (.channelClear r []) s = .next t ∧
      s.commandEnded t 0x08 r
        { status := .done, reason := .none, result := BitVec.ofNat 32 ((s.chan c).nextRfn - (s.chan c).tail) } ∧
      t.chan c = { s.chan c with nextRfn := 0, tail := 0, cursor := 0 } ∧ (∀ d, d ≠ c → t.chan d = s.chan d) ∧
      (∀ n, t.slot n = if (s.chan c).firstSlot ≤ n ∧ n < (s.chan c).firstSlot + (s.chan c).len then (s.slot n).emptied
                       else s.slot n) ∧
      (∀ j, t.entry j = if (s.chan c).firstSlot ≤ j ∧ j < (s.chan c).firstSlot + (s.chan c).len then
                          { valid := false, slot := 0 } else s.entry j) ∧
      t = { s with proc := t.proc, mem := s.mem.withOwn t.mem, chans := t.chans, slots := t.slots, index := t.index })

/-- A tick in OFF or READY changes no field of the channel but the stray flag, which it clears; a tick in any other state clears
it too. The tick is taken from the channel's mail. -/
def Obligations.ChannelTickOutsideRecordingClearsTheStrayFlag : Prop :=
  ∀ (s : State) (c : ChanId) (n : Word) (rest : List Word), s.mail.chanTicks.get c = n :: rest →
    ((s.chan c).state = .off ∨ (s.chan c).state = .ready → ∃ t, exec (.channelTick c) s = .next t ∧
      t.chan c = { s.chan c with stray := false } ∧ (∀ d, d ≠ c → t.chan d = s.chan d) ∧
      t = { s with chans := t.chans, mail := { s.mail with chanTicks := popAt s.mail.chanTicks c } }) ∧
    ((s.chan c).state = .armed ∨ (s.chan c).state = .recording ∨ (s.chan c).state = .stopping →
      ∃ t, exec (.channelTick c) s = .next t ∧ (t.chan c).stray = false)

/-- An ARMED channel becomes RECORDING at its tick, commits nothing, and posts CHANNEL_RECORDING with the tick's count. It takes
the first P slots that the walk may take, in loop order from the cursor on, for the RFNs from its next RFN on; the cursor goes
past the last of them, and the tail past each frame of the live window that is lost. On an EMPTY loop these are the P positions
from the cursor on. -/
def Obligations.ArmedChannelStartsRecordingAtItsTick : Prop :=
  ∀ (s : State) (c : ChanId) (n : Word) (rest : List Word), s.mail.chanTicks.get c = n :: rest → s.geometryOk →
    (s.chan c).state = .armed →
    ∃ t, exec (.channelTick c) s = .next t ∧
      t.chan c = { s.chan c with state := .recording, stray := false, phaseSlots := (t.chan c).phaseSlots
                                 cursor := (t.chan c).cursor, tail := (t.chan c).tail } ∧
      (∀ d, d ≠ c → t.chan d = s.chan d) ∧
      -- the walk of R35: the first P slots it may take, in loop order from the cursor on; the cursor goes past the last
      (t.chan c).phaseSlots = (((List.range (s.chan c).len).map (fun i =>
          (s.chan c).firstSlot + ((s.chan c).cursor + i) % (s.chan c).len)).filter (fun m => decide
            ((s.slot m).state ≠ .recording ∧ (s.slot m).locks = 0 ∧ (s.slot m).pins = 0))).take (s.chan c).phases ∧
      ((t.chan c).phaseSlots = [] → (t.chan c).cursor = (s.chan c).cursor) ∧
      (∀ m, (t.chan c).phaseSlots.getLast? = some m →
        (t.chan c).cursor = (m - (s.chan c).firstSlot + 1) % (s.chan c).len) ∧
      -- the tail rule of R36, slot by slot
      (t.chan c).tail = (t.chan c).phaseSlots.foldl (fun tail m =>
        if (s.slot m).state = .held ∧ tail ≤ (s.slot m).rfn ∧ (s.slot m).rfn < (s.chan c).nextRfn ∧
            s.entry ((s.chan c).firstSlot + (s.slot m).rfn % (s.chan c).len) = { valid := true, slot := m }
        then (s.slot m).rfn + 1 else tail) (s.chan c).tail ∧
      (∀ j m, (t.chan c).phaseSlots[j]? = some m →
        t.slot m = { state := .recording, rfn := (s.chan c).nextRfn + j, locks := 0, pins := 0 }) ∧
      (∀ m, m ∉ (t.chan c).phaseSlots → t.slot m = s.slot m) ∧
      -- a loop that is EMPTY
      ((∀ m, (s.chan c).firstSlot ≤ m → m < (s.chan c).firstSlot + (s.chan c).len → s.slot m = {}) →
        (t.chan c).tail = (s.chan c).tail ∧ (t.chan c).cursor = ((s.chan c).cursor + (s.chan c).phases) % (s.chan c).len ∧
        (t.chan c).phaseSlots = (List.range (s.chan c).phases).map
          (fun j => (s.chan c).firstSlot + ((s.chan c).cursor + j) % (s.chan c).len)) ∧
      t.evt = s.evt.posted .channelRecording .none c.val (s.chan c).phases (BitVec.ofNat 32 (s.chan c).nextRfn) n ∧
      t = { s with chans := t.chans, slots := t.slots, evt := t.evt,
                   mail := { s.mail with chanTicks := popAt s.mail.chanTicks c } }

/-- A tick in STOPPING commits the period, raises the next RFN by P, hands the arrival and then the stop notice, and leaves the
channel READY with CHANNEL_STOPPED posted. -/
def Obligations.StoppingChannelCommitsAndStopsAtItsTick : Prop :=
  ∀ (s : State) (c : ChanId) (n : Word) (rest : List Word), s.mail.chanTicks.get c = n :: rest → s.geometryOk →
    (s.chan c).state = .stopping → s.periodTaken c →
    ∃ t, exec (.channelTick c) s = .next t ∧
      t.chan c = { s.chan c with state := .ready, stray := false, phaseSlots := [],
                                 nextRfn := (s.chan c).nextRfn + (s.chan c).phases } ∧
      (∀ d, d ≠ c → t.chan d = s.chan d) ∧
      (∀ m, t.slot m = if m ∈ (s.chan c).phaseSlots then { s.slot m with state := .held } else s.slot m) ∧
      (∀ j m, (s.chan c).phaseSlots[j]? = some m →
        t.entry ((s.chan c).firstSlot + ((s.chan c).nextRfn + j) % (s.chan c).len) = { valid := true, slot := m }) ∧
      (∀ i, (∀ j, j < (s.chan c).phases → i ≠ (s.chan c).firstSlot + ((s.chan c).nextRfn + j) % (s.chan c).len) →
        t.entry i = s.entry i) ∧
      t.evt = s.evt.posted .channelStopped .stop c.val 0 (BitVec.ofNat 32 ((s.chan c).nextRfn + (s.chan c).phases)) n ∧
      t.mail = { s.mail with
        chanTicks := popAt s.mail.chanTicks c
        chanNotes := pushAt (pushAt s.mail.chanNotes c (.arrival (s.chan c).nextRfn (s.chan c).phases)) c (.stopped .stop) } ∧
      t = { s with chans := t.chans, slots := t.slots, index := t.index, evt := t.evt, mail := t.mail }

/-- A tick in RECORDING commits the period and hands the arrival. At the RFN limit it stops the channel with RFN_LIMIT; below it
the channel goes on recording with the first P slots that the walk may take, in loop order from the cursor on, none of them just
committed; the cursor goes past the last of them, and the tail past each frame of the live window that is lost. -/
def Obligations.RecordingChannelCommitsAtItsTick : Prop :=
  ∀ (s : State) (c : ChanId) (n : Word) (rest : List Word), s.mail.chanTicks.get c = n :: rest → s.geometryOk →
    (s.chan c).state = .recording → s.periodTaken c →
    ∃ t, exec (.channelTick c) s = .next t ∧
      t.chan c = { s.chan c with state := (t.chan c).state, stray := false, phaseSlots := (t.chan c).phaseSlots
                                 nextRfn := (s.chan c).nextRfn + (s.chan c).phases, cursor := (t.chan c).cursor
                                 tail := (t.chan c).tail } ∧
      (∀ d, d ≠ c → t.chan d = s.chan d) ∧
      (∀ m, m ∉ (s.chan c).phaseSlots → m ∉ (t.chan c).phaseSlots → t.slot m = s.slot m) ∧
      (∀ i, (∀ j, j < (s.chan c).phases → i ≠ (s.chan c).firstSlot + ((s.chan c).nextRfn + j) % (s.chan c).len) →
        t.entry i = s.entry i) ∧
      (∀ j m, (s.chan c).phaseSlots[j]? = some m → t.slot m = { s.slot m with state := .held } ∧
        t.entry ((s.chan c).firstSlot + ((s.chan c).nextRfn + j) % (s.chan c).len) = { valid := true, slot := m }) ∧
      (4294967040 ≤ (s.chan c).nextRfn + 2 * (s.chan c).phases - 1 →
        (t.chan c).state = .ready ∧ (t.chan c).phaseSlots = [] ∧ (t.chan c).tail = (s.chan c).tail ∧
        (t.chan c).cursor = (s.chan c).cursor ∧
        t.evt = s.evt.posted .channelStopped .rfnLimit c.val 0
          (BitVec.ofNat 32 ((s.chan c).nextRfn + (s.chan c).phases)) n ∧
        t.mail = { s.mail with
          chanTicks := popAt s.mail.chanTicks c
          chanNotes := pushAt (pushAt s.mail.chanNotes c (.arrival (s.chan c).nextRfn (s.chan c).phases)) c
            (.stopped .rfnLimit) }) ∧
      ((s.chan c).nextRfn + 2 * (s.chan c).phases - 1 < 4294967040 →
        (t.chan c).state = .recording ∧ (t.chan c).phaseSlots.length ≤ (s.chan c).phases ∧
        (∀ m, m ∈ (t.chan c).phaseSlots → m ∉ (s.chan c).phaseSlots ∧ s.ownerOf m = some c ∧
          (s.slot m).state ≠ .recording ∧ (s.slot m).locks = 0 ∧ (s.slot m).pins = 0) ∧
        ((t.chan c).phaseSlots.length < (s.chan c).phases → ∀ m, s.ownerOf m = some c → m ∉ (s.chan c).phaseSlots →
          m ∉ (t.chan c).phaseSlots → (s.slot m).state = .recording ∨ (s.slot m).locks ≠ 0 ∨ (s.slot m).pins ≠ 0) ∧
        -- the walk of R35: the first P slots it may take, in loop order from the cursor on; the cursor goes past the last
        (t.chan c).phaseSlots = (((List.range (s.chan c).len).map (fun i =>
            (s.chan c).firstSlot + ((s.chan c).cursor + i) % (s.chan c).len)).filter (fun m => decide
              (m ∉ (s.chan c).phaseSlots ∧ (s.slot m).state ≠ .recording ∧ (s.slot m).locks = 0 ∧ (s.slot m).pins = 0))).take
          (s.chan c).phases ∧
        ((t.chan c).phaseSlots = [] → (t.chan c).cursor = (s.chan c).cursor) ∧
        (∀ m, (t.chan c).phaseSlots.getLast? = some m →
          (t.chan c).cursor = (m - (s.chan c).firstSlot + 1) % (s.chan c).len) ∧
        -- the tail rule of R36, slot by slot
        (t.chan c).tail = (t.chan c).phaseSlots.foldl (fun tail m =>
          if (s.slot m).state = .held ∧ tail ≤ (s.slot m).rfn ∧ (s.slot m).rfn < (s.chan c).nextRfn + (s.chan c).phases ∧
              t.entry ((s.chan c).firstSlot + (s.slot m).rfn % (s.chan c).len) = { valid := true, slot := m }
          then (s.slot m).rfn + 1 else tail) (s.chan c).tail ∧
        (∀ j m, (t.chan c).phaseSlots[j]? = some m →
          t.slot m = { state := .recording, rfn := (s.chan c).nextRfn + (s.chan c).phases + j, locks := 0, pins := 0 }) ∧
        t.evt = s.evt ∧
        t.mail = { s.mail with
          chanTicks := popAt s.mail.chanTicks c
          chanNotes := pushAt s.mail.chanNotes c (.arrival (s.chan c).nextRfn (s.chan c).phases) }) ∧
      t = { s with chans := t.chans, slots := t.slots, index := t.index, evt := t.evt, mail := t.mail }

/-! ## Play heads (chapter 3) -/

/-- A taken HEAD_SOURCE: LIVE at the start mode's frame, CLIP at the clip's in, IDLE with the displayed slot left trailing; R
and T become 0, the owner COMMAND, the goto, the flags and the attachment are cleared, and a detach is handed. -/
def Obligations.HeadSourceSetsSourceAndPosition : Prop :=
  ∀ (s : State) (r : CmdArgs) (h : HeadId), s.awaits → r.target.toNat = h.val → s.mem.active = true →
    (∀ c : ChanId, r.a = 1 → r.b.toNat = c.val → r.c.toNat ≤ 2 → (s.chan c).state ≠ .off →
      (s.chan c).tail ≤ (s.chan c).nextRfn → ∃ t p, exec (.headSource r) s = .next t ∧
        ((s.chan c).nextRfn = (s.chan c).tail → p = (s.chan c).tail) ∧
        ((s.chan c).nextRfn ≠ (s.chan c).tail → r.c = 0 → p = (s.chan c).nextRfn - 1) ∧
        ((s.chan c).nextRfn ≠ (s.chan c).tail → r.c = 1 → p = (s.chan c).tail) ∧
        ((s.chan c).nextRfn ≠ (s.chan c).tail → r.c = 2 →
          fittedTo (s.chan c).tail ((s.chan c).nextRfn - 1) r.d.toNat p) ∧
        s.commandEnded t 0x09 r (doneOrClamped (r.c = 2 ∧ p ≠ r.d.toNat) (BitVec.ofNat 32 p)) ∧
        t.head h = { (s.head h).cleared with src := .live c, pos := p * 256 } ∧ (∀ g, g ≠ h → t.head g = s.head g) ∧
        t = { s with proc := t.proc, mem := s.mem.withOwn t.mem, heads := t.heads, mail := s.mailDetached h }) ∧
    (∀ k e, r.a = 2 → r.b.toNat = k → k < 256 → (r.c = 0 ∧ e = EndMode.stop ∨ r.c = 1 ∧ e = EndMode.loop) →
      (s.clip k).state ≠ .free → ∃ t, exec (.headSource r) s = .next t ∧
        s.commandEnded t 0x09 r { status := .done, reason := .none, result := BitVec.ofNat 32 (s.clip k).inF } ∧
        t.head h = { (s.head h).cleared with src := .clip k, endMode := e, pos := (s.clip k).inF * 256 } ∧
        (∀ g, g ≠ h → t.head g = s.head g) ∧
        t = { s with proc := t.proc, mem := s.mem.withOwn t.mem, heads := t.heads, mail := s.mailDetached h }) ∧
    (r.a = 0 → ∃ t, exec (.headSource r) s = .next t ∧
      s.commandEnded t 0x09 r { status := .done, reason := .none, result := 0 } ∧
      t.head h = { (s.head h).cleared with src := .idle, shown := none, trailing := (s.head h).shown.map (·.slot) } ∧
      (∀ g, g ≠ h → t.head g = s.head g) ∧
      (∀ n, t.slot n = if (s.head h).trailing = some n then (s.slot n).unpinned else s.slot n) ∧
      t = { s with proc := t.proc, mem := s.mem.withOwn t.mem, heads := t.heads, slots := t.slots,
                   mail := s.mailDetached h })

/-- HEAD_RATE sets T and the slew, each clamped, and HEAD_GOTO the pending goto; both make the owner COMMAND and keep R. -/
def Obligations.HeadRateAndGotoTakeTheHead : Prop :=
  ∀ (s : State) (r : CmdArgs) (h : HeadId), s.awaits → r.target.toNat = h.val → s.mem.active = true →
    (s.head h).src ≠ .idle →
    (∃ t v w, exec (.headRate r) s = .next t ∧ fittedRate 2048 r.a.toInt v ∧ fittedTo 1 2048 r.b.toNat w ∧
      s.commandEnded t 0x0A r (doneOrClamped (v ≠ r.a.toInt ∨ w ≠ r.b.toNat) (BitVec.ofInt 32 v)) ∧
      t.head h = { s.head h with target := v, slew := w, owner := .command } ∧ (∀ g, g ≠ h → t.head g = s.head g) ∧
      t = { s with proc := t.proc, mem := s.mem.withOwn t.mem, heads := t.heads }) ∧
    (r.a.toNat ≤ 4294967039 → ∃ t, exec (.headGoto r) s = .next t ∧
      s.commandEnded t 0x0B r { status := .done, reason := .none, result := 0 } ∧
      t.head h = { s.head h with goto := some r.a.toNat, owner := .command } ∧ (∀ g, g ≠ h → t.head g = s.head g) ∧
      t = { s with proc := t.proc, mem := s.mem.withOwn t.mem, heads := t.heads })

/-- The refusals of the head commands, in their order; a refused command leaves every head as it was. -/
def Obligations.HeadCommandsAreRefusedInOrder : Prop :=
  ∀ (s : State) (r : CmdArgs), s.awaits →
    (∀ i kind, i = Instr.headSource r ∧ kind = (0x09 : Byte) ∨ i = Instr.headRate r ∧ kind = 0x0A ∨
        i = Instr.headGoto r ∧ kind = 0x0B →
      (3 < r.target.toNat → ∃ t, exec i s = .next t ∧ s.commandEnded t kind r (refusedFor .badArg) ∧
        t = { s with proc := t.proc, mem := s.mem.withOwn t.mem }) ∧
      (r.target.toNat ≤ 3 → s.mem.active = false → ∃ t, exec i s = .next t ∧
        s.commandEnded t kind r (refusedFor .state) ∧ t = { s with proc := t.proc, mem := s.mem.withOwn t.mem })) ∧
    ∀ h : HeadId, r.target.toNat = h.val → s.mem.active = true →
      (2 < r.a.toNat ∨ (r.a = 1 ∧ (7 < r.b.toNat ∨ 2 < r.c.toNat)) ∨ (r.a = 2 ∧ (255 < r.b.toNat ∨ 1 < r.c.toNat)) →
        ∃ t, exec (.headSource r) s = .next t ∧ s.commandEnded t 0x09 r (refusedFor .badArg) ∧
          t = { s with proc := t.proc, mem := s.mem.withOwn t.mem }) ∧
      (∀ c : ChanId, r.a = 1 → r.b.toNat = c.val → r.c.toNat ≤ 2 → (s.chan c).state = .off →
        ∃ t, exec (.headSource r) s = .next t ∧ s.commandEnded t 0x09 r (refusedFor .state) ∧
          t = { s with proc := t.proc, mem := s.mem.withOwn t.mem }) ∧
      (r.a = 2 → r.b.toNat ≤ 255 → r.c.toNat ≤ 1 → (s.clip r.b.toNat).state = .free →
        ∃ t, exec (.headSource r) s = .next t ∧ s.commandEnded t 0x09 r (refusedFor .noClip) ∧
          t = { s with proc := t.proc, mem := s.mem.withOwn t.mem }) ∧
      (4294967039 < r.a.toNat → ∃ t, exec (.headGoto r) s = .next t ∧ s.commandEnded t 0x0B r (refusedFor .badArg) ∧
        t = { s with proc := t.proc, mem := s.mem.withOwn t.mem }) ∧
      ((s.head h).src = .idle →
        (∃ t, exec (.headRate r) s = .next t ∧ s.commandEnded t 0x0A r (refusedFor .noSource) ∧
          t = { s with proc := t.proc, mem := s.mem.withOwn t.mem }) ∧
        (r.a.toNat ≤ 4294967039 → ∃ t, exec (.headGoto r) s = .next t ∧ s.commandEnded t 0x0B r (refusedFor .noSource) ∧
          t = { s with proc := t.proc, mem := s.mem.withOwn t.mem }))

/-- The tick of an IDLE head: its port's steps are discarded, its trailing slot is unpinned and becomes none; nothing else
changes. The tick is one operation: a channel's tick inside the row is one taken after it. -/
def Obligations.IdleHeadReleasesItsTrailingPin : Prop :=
  ∀ (s : State) (h : HeadId) (n : Word) (rest : List Word),
    s.mail.headTicks.get h = n :: rest → (s.head h).src = .idle →
    ∃ t, exec (.headTick h []) s = .next t ∧
      (∀ c, exec (.headTick h [.event (.channelTick c)]) s = exec (.channelTick c) t) ∧ t.head h = { s.head h with trailing := none } ∧
      (∀ g, g ≠ h → t.head g = s.head g) ∧
      (∀ m, t.slot m = if (s.head h).trailing = some m then (s.slot m).unpinned else s.slot m) ∧
      (∀ p, t.port p = if (s.port p).binding = some h ∧ (p = 0 ∨ (s.port 0).binding ≠ some h) then
                         { s.port p with jog := 0 } else s.port p) ∧
      t = { s with heads := t.heads, slots := t.slots, ports := t.ports,
                   mail := { s.mail with headTicks := popAt s.mail.headTicks h } }

/-- The tick of a LIVE head. It takes the steps and the lever of its port; a jog takeover makes it PANEL-owned and is posted. A
pending goto sets R and T to 0 and jumps; a jog override moves it by whole frames; otherwise R moves toward T, the lever's under
a PANEL owner, by at most the slew, and the position advances by R times P. On an empty loop it waits at the tail with no frame;
else the position is fitted into tail..newest with its flags and entry event, and the frame of the position is latched and
pinned. The old displayed slot becomes trailing. Where a tick of the channel between the bounds and the lookup takes the frame
and moves the tail past it, the frame is not shown: the pick is repeated, and the head shows the new tail. What a PANEL-owned
head takes while a port-lost notice waits is the model's choice (assumption log 15). -/
def Obligations.LiveHeadAdvancesAndLatchesItsFrame : Prop :=
  ∀ (s : State) (h : HeadId) (c : ChanId) (n : Word) (rest : List Word) (i : PanelInput) (owner : Owner) (T₀ R cand : Int)
    (e : EventUnit),
    s.mail.headTicks.get h = n :: rest → (s.head h).src = .live c → s.portGives h i →
    -- owner, T and R of the tick, and the candidate position
    (s.head h).afterInput i (s.chan c).phases owner T₀ R cand → s.afterTakeover h i n e →
    -- an empty loop
    ((s.chan c).nextRfn = (s.chan c).tail →
      ∃ t, exec (.headTick h []) s = .next t ∧
        t.head h = { s.head h with
          pos := (s.chan c).tail * 256, rate := R, target := T₀, owner := owner, goto := none, atLive := false
          atTail := false, atEnd := false, shown := none, trailing := (s.head h).shown.map (·.slot) } ∧
        (∀ g, g ≠ h → t.head g = s.head g) ∧
        (∀ m, t.slot m = if (s.head h).trailing = some m then (s.slot m).unpinned else s.slot m) ∧ s.stepsTaken t h ∧
        t = { s with heads := t.heads, slots := t.slots, ports := t.ports, evt := e,
                     mail := { s.mail with headTicks := popAt s.mail.headTicks h } }) ∧
    -- frame d of the bounds step is taken by the channel's tick before its lookup, and the pick is repeated at the new tail
    (∀ (w : State) (d tail m : Nat) (R' T : Int) (live : Bool) (ev : Option (EventKind × Reason × Nat)),
      (s.chan c).tail < (s.chan c).nextRfn → exec (.channelTick c) { s with evt := e } = .next w → tail = (w.chan c).tail →
      ((((s.chan c).nextRfn - 1 : Nat) : Int) * 256 < cand → d = (s.chan c).nextRfn - 1) →
      (cand < ((s.chan c).tail : Int) * 256 → d = (s.chan c).tail) →
      (((s.chan c).tail : Int) * 256 ≤ cand → cand ≤ (((s.chan c).nextRfn - 1 : Nat) : Int) * 256 → (d : Int) = cand / 256) →
      d < tail → (∀ x, ¬w.presentAt c d x) →
      (R < 0 → R' = 0 ∧ T = if owner = .command then 0 else T₀) → (0 ≤ R → R' = R ∧ T = T₀) →
      live = ((s.head h).atLive && decide ((w.chan c).nextRfn - 1 ≤ tail + (s.chan c).phases)) →
      ev = (if (s.head h).atTail then none else some (.headAtTail, if R < 0 then .reverse else .swept, tail)) →
      tail < (w.chan c).nextRfn → w.presentAt c tail m → w.pinnableAfter (s.head h).trailing m →
      ∃ t, exec (.headTick h [.move (.head h), .event (.channelTick c)]) s = .next t ∧
        t.head h = { s.head h with
          pos := tail * 256, rate := R', target := T, owner := owner, goto := none, atLive := live, atTail := true
          atEnd := false, shown := some { src := .live c, chan := c, rfn := tail, slot := m }
          trailing := (s.head h).shown.map (·.slot) } ∧
        (∀ g, g ≠ h → t.head g = s.head g) ∧ w.pinMoved t (s.head h).trailing m ∧ s.stepsTaken t h ∧
        t.evt = w.evt.postedIf ev h.val (headFlags live true false) n ∧
        t = { w with heads := t.heads, slots := t.slots, ports := t.ports, evt := t.evt,
                     mail := { w.mail with headTicks := popAt s.mail.headTicks h } }) ∧
    ∀ (pos T R' : Int) (live tail : Bool) (ev : Option (EventKind × Reason × Nat)) (m : Nat),
      (s.chan c).tail < (s.chan c).nextRfn →
      -- the fit into tail..newest
      ((((s.chan c).nextRfn - 1 : Nat) : Int) * 256 < cand →
        pos = (((s.chan c).nextRfn - 1 : Nat) : Int) * 256 ∧ R' = R ∧ T = T₀ ∧ live = true ∧
        tail = ((s.head h).atTail && decide (pos ≤ ((s.chan c).tail + (s.chan c).phases : Nat) * 256)) ∧
        ev = if (s.head h).atLive then none else some (.headAtLive, .none, (s.chan c).nextRfn - 1)) →
      (cand < ((s.chan c).tail : Int) * 256 →
        pos = ((s.chan c).tail : Int) * 256 ∧ (R < 0 → R' = 0 ∧ T = if owner = .command then 0 else T₀) ∧
        (0 ≤ R → R' = R ∧ T = T₀) ∧
        live = ((s.head h).atLive && decide ((((s.chan c).nextRfn - 1 : Nat) : Int) * 256 ≤ pos + (s.chan c).phases * 256)) ∧
        tail = true ∧
        ev = if (s.head h).atTail then none
             else some (.headAtTail, if R < 0 then .reverse else .swept, (s.chan c).tail)) →
      (((s.chan c).tail : Int) * 256 ≤ cand → cand ≤ (((s.chan c).nextRfn - 1 : Nat) : Int) * 256 →
        pos = cand ∧ R' = R ∧ T = T₀ ∧ ev = none ∧
        live = ((s.head h).atLive && decide ((((s.chan c).nextRfn - 1 : Nat) : Int) * 256 ≤ pos + (s.chan c).phases * 256)) ∧
        tail = ((s.head h).atTail && decide (pos ≤ ((s.chan c).tail + (s.chan c).phases : Nat) * 256))) →
      -- the frame is present, and can be pinned once the trailing pin is gone
      s.presentAt c (pos / 256).toNat m → s.pinnableAfter (s.head h).trailing m →
      ∃ t, exec (.headTick h []) s = .next t ∧
        t.head h = { s.head h with
          pos := pos.toNat, rate := R', target := T, owner := owner, goto := none, atLive := live, atTail := tail
          atEnd := false, shown := some { src := .live c, chan := c, rfn := (pos / 256).toNat, slot := m }
          trailing := (s.head h).shown.map (·.slot) } ∧
        (∀ g, g ≠ h → t.head g = s.head g) ∧ s.pinMoved t (s.head h).trailing m ∧ s.stepsTaken t h ∧
        t.evt = e.postedIf ev h.val (headFlags live tail false) n ∧
        t = { s with heads := t.heads, slots := t.slots, ports := t.ports, evt := t.evt,
                     mail := { s.mail with headTicks := popAt s.mail.headTicks h } }

/-- The tick of a CLIP head, with the steps and the lever of its port taken as by a LIVE head. An OPEN clip clamps it into
in..out; a CLOSED clip stops it at its ends in STOP mode, and in LOOP mode wraps it by the clip's span, a goto being clamped
instead. The frame of the position is latched by the clip's extents and pinned while the old displayed slot becomes trailing.
Where CLIP_CLOSE trims the clip between the bounds and the lookup, and a tick of the channel takes the frame, the pick is
repeated and stops the head at the new out. What a PANEL-owned head takes while a port-lost notice waits is the model's choice
(assumption log 15). -/
def Obligations.ClipHeadIsFittedIntoItsClip : Prop :=
  ∀ (s : State) (h : HeadId) (k : Nat) (x : Clip) (c : ChanId) (n : Word) (rest : List Word) (i : PanelInput) (owner : Owner)
    (T₀ R cand pos lo hi T R' : Int) (e : EventUnit) (tail atEnd : Bool) (ev : Option (EventKind × Reason × Nat)) (p m : Nat),
    s.mail.headTicks.get h = n :: rest → (s.head h).src = .clip k → s.portGives h i →
    x = s.clip k → c = x.chan → x.inF ≤ x.outF → lo = (x.inF : Int) * 256 → hi = (x.outF : Int) * 256 →
    (s.head h).afterInput i (s.chan c).phases owner T₀ R cand → s.afterTakeover h i n e →
    -- an OPEN clip
    (x.state = .opened → atEnd = false ∧
      (hi < cand → pos = hi ∧ R' = R ∧ T = T₀ ∧ ev = none) ∧
      (cand < lo → pos = lo ∧ (R < 0 → R' = 0 ∧ T = if owner = .command then 0 else T₀) ∧ (0 ≤ R → R' = R ∧ T = T₀) ∧ tail = true ∧
        ev = if (s.head h).atTail then none else some (.headAtTail, if R < 0 then .reverse else .swept, x.inF)) ∧
      (lo ≤ cand → cand ≤ hi → pos = cand ∧ R' = R ∧ T = T₀ ∧ ev = none) ∧
      (lo ≤ cand → tail = ((s.head h).atTail && decide (pos ≤ lo + (s.chan c).phases * 256)))) →
    -- a CLOSED clip in STOP mode
    (x.state = .closed → (s.head h).endMode = .stop → tail = false ∧
      (hi + 255 < cand → pos = hi ∧ R' = 0 ∧ (T = if owner = .command then 0 else T₀) ∧ atEnd = true ∧
        ev = if (s.head h).atEnd ∧ (s.head h).shown.map (·.rfn) = some x.outF then none
             else some (.headAtEnd, .outEnd, x.outF)) ∧
      (cand < lo → pos = lo ∧ R' = 0 ∧ (T = if owner = .command then 0 else T₀) ∧ atEnd = true ∧
        ev = if (s.head h).atEnd ∧ (s.head h).shown.map (·.rfn) = some x.inF then none
             else some (.headAtEnd, .inEnd, x.inF)) ∧
      (lo ≤ cand → cand ≤ hi + 255 → pos = cand ∧ R' = R ∧ T = T₀ ∧ ev = none ∧
        atEnd = ((s.head h).atEnd && (decide (pos < lo + 256) || decide (hi ≤ pos))))) →
    -- a CLOSED clip in LOOP mode
    (x.state = .closed → (s.head h).endMode = .loop → tail = false ∧ atEnd = false ∧ R' = R ∧ T = T₀ ∧
      (lo ≤ cand → cand ≤ hi + 255 → pos = cand ∧ ev = none) ∧
      ((s.head h).goto = none → cand < lo ∨ hi + 255 < cand →
        lo ≤ pos ∧ pos ≤ hi + 255 ∧ (hi + 256 - lo) ∣ (cand - pos) ∧
        ev = some (.headLooped, if cand < lo then .inEnd else .outEnd, (pos / 256).toNat)) ∧
      ((s.head h).goto ≠ none → (cand < lo → pos = lo ∧ ev = none) ∧ (hi + 255 < cand → pos = hi ∧ ev = none))) →
    x.state ≠ .free →
    -- the frame is unlocked by a trim and taken by a walk before its lookup
    (∀ (r : CmdArgs) (v w : State) (o q a : Nat) (ev' : Option (EventKind × Reason × Nat)), s.awaits → r.target.toNat = k → k ≤ 255 →
      x.state = .opened → (s.head h).endMode = .stop → exec (.clipClose r []) { s with evt := e } = .next v →
      exec (.channelTick c) v = .next w → o = (w.clip k).outF → lo ≤ cand → (o : Int) * 256 + 255 < pos → (s.chan c).state ≠ .off →
      (∀ a', positionOf x.extents (s.chan c).len (pos / 256).toNat = some a' →
        (w.slot ((s.chan c).firstSlot + a')).state ≠ .held ∨ (w.slot ((s.chan c).firstSlot + a')).rfn ≠ (pos / 256).toNat) →
      positionOf (w.clip k).extents (s.chan c).len o = some q → a = (s.chan c).firstSlot + q → (w.slot a).state = .held →
      (w.slot a).rfn = o → w.pinnableAfter (s.head h).trailing a →
      ev' = (if (s.head h).atEnd ∧ (s.head h).shown.map (·.rfn) = some o then none else some (.headAtEnd, .outEnd, o)) →
      ∃ t, exec (.headTick h ([.move (.head h), .event (.command 0x0E r)] ++ List.replicate (x.outF - o + 3) (.move .processor) ++
          [.event (.channelTick c)])) s = .next t ∧
        t.head h = { s.head h with
          pos := o * 256, rate := 0, target := if owner = .command then 0 else T₀, owner := owner, goto := none
          atLive := false, atTail := false, atEnd := true, shown := some { src := .clip k, chan := c, rfn := o, slot := a }
          trailing := (s.head h).shown.map (·.slot) } ∧
        (∀ g, g ≠ h → t.head g = s.head g) ∧ w.pinMoved t (s.head h).trailing a ∧ s.stepsTaken t h ∧
        t.evt = w.evt.postedIf ev' h.val (headFlags false false true) n ∧
        t = { w with heads := t.heads, slots := t.slots, ports := t.ports, evt := t.evt,
                     mail := { w.mail with headTicks := popAt s.mail.headTicks h } }) ∧
    -- the frame lies where the extents say, and can be pinned once the trailing pin is gone
    ((s.chan c).state ≠ .off → positionOf x.extents (s.chan c).len (pos / 256).toNat = some p → m = (s.chan c).firstSlot + p →
    (s.slot m).state = .held → (s.slot m).rfn = (pos / 256).toNat → s.pinnableAfter (s.head h).trailing m →
    ∃ t, exec (.headTick h []) s = .next t ∧
      t.head h = { s.head h with
        pos := pos.toNat, rate := R', target := T, owner := owner, goto := none, atLive := false
        atTail := tail, atEnd := atEnd
        shown := some { src := .clip k, chan := c, rfn := (pos / 256).toNat, slot := m }
        trailing := (s.head h).shown.map (·.slot) } ∧
      (∀ g, g ≠ h → t.head g = s.head g) ∧ s.pinMoved t (s.head h).trailing m ∧ s.stepsTaken t h ∧
      t.evt = e.postedIf ev h.val (headFlags false tail atEnd) n ∧
      t = { s with heads := t.heads, slots := t.slots, ports := t.ports, evt := t.evt,
                   mail := { s.mail with headTicks := popAt s.mail.headTicks h } })

/-- A lever takeover makes a sourced COMMAND-owned head PANEL-owned and posts PANEL_TAKEOVER; a port-lost notice makes a
PANEL-owned head COMMAND-owned with T = 0; any other head takes either notice without change. Attach and detach notices between
the clip manager and the heads: a head whose source is the notice's takes the clip, any other returns a detach; a detach clears
the side it names. That a negative T stands in the event as two's complement is the model's choice (assumption log 39), and so
is that a head whose record names another clip already takes an attach with no detach of that clip (assumption log 41). -/
def Obligations.NoticesReachTheHeadsAndTheClips : Prop :=
  (∀ (s : State) (p : PortId) (h : HeadId) (rest : List PortNote),
    (s.mail.portNotes.get p = .takeover h :: rest →
      ∃ t, exec (.takeoverNotice p) s = .next t ∧
        ((s.head h).src ≠ .idle → (s.head h).owner = .command →
          t.head h = { s.head h with owner := .panel } ∧
          t.evt = s.evt.posted .panelTakeover .lever h.val p.val (BitVec.ofInt 32 (s.head h).target) s.ref.count) ∧
        ((s.head h).src = .idle ∨ (s.head h).owner = .panel → t.head h = s.head h ∧ t.evt = s.evt) ∧
        (∀ g, g ≠ h → t.head g = s.head g) ∧
        t = { s with heads := t.heads, evt := t.evt, mail := { s.mail with portNotes := popAt s.mail.portNotes p } }) ∧
    (s.mail.portNotes.get p = .portLost h :: rest →
      ∃ t, exec (.portLostNotice p) s = .next t ∧
        ((s.head h).owner = .panel → t.head h = { s.head h with owner := .command, target := 0 }) ∧
        ((s.head h).owner = .command → t.head h = s.head h) ∧ (∀ g, g ≠ h → t.head g = s.head g) ∧
        t = { s with heads := t.heads, mail := { s.mail with portNotes := popAt s.mail.portNotes p } })) ∧
  ∀ (s : State) (h : HeadId) (k : Nat),
    (∀ src rest, s.mail.toHead.get h = .attach k src :: rest →
      ∃ t, exec (.attachNotice h) s = .next t ∧
        ((s.head h).src = src → t.head h = { s.head h with attached := some k } ∧
          t.mail = { s.mail with toHead := popAt s.mail.toHead h }) ∧
        ((s.head h).src ≠ src → t.head h = s.head h ∧
          t.mail = { s.mail with toHead := popAt s.mail.toHead h, fromHead := pushAt s.mail.fromHead h k }) ∧
        (∀ g, g ≠ h → t.head g = s.head g) ∧ t = { s with heads := t.heads, mail := t.mail }) ∧
    (∀ rest, s.mail.toHead.get h = .detach k :: rest →
      ∃ t, exec (.headDetachNotice h) s = .next t ∧
        t.head h = { s.head h with attached := if (s.head h).attached = some k then none else (s.head h).attached } ∧
        (∀ g, g ≠ h → t.head g = s.head g) ∧
        t = { s with heads := t.heads, mail := { s.mail with toHead := popAt s.mail.toHead h } }) ∧
    (∀ rest, s.mail.fromHead.get h = k :: rest →
      ∃ t, exec (.clipDetachNotice h) s = .next t ∧
        t.clip k = { s.clip k with attached := if (s.clip k).attached = some h then none else (s.clip k).attached } ∧
        (∀ j, j ≠ k → t.clip j = s.clip j) ∧
        t = { s with clips := t.clips, mail := { s.mail with fromHead := popAt s.mail.fromHead h } })

/-! ## Clips and marks (chapter 5) -/

/-- The backward build goes down from its start frame over the frames it finds. On a LIVE source it ends after the requested in,
at a frame that is ABSENT or that cannot be locked, or where a seventeenth extent would be needed; on a CLIP source whose frames
are locked it always reaches the requested in. The extents gathered, at most sixteen, cover the run; each slot of the run is
locked once more and no other slot changes. -/
def Obligations.BackwardBuildLocksTheRunItsExtentsCover : Prop :=
  (∀ (s u : State) (c : ChanId) (fuel lo hi start : Nat) (es : List Extent), s.geometryOk → s.entriesInLoop c →
    (s.chan c).state ≠ .off → fuel ≤ start + 1 → (build { chan := c, lo, hi, sub := none } fuel start []).run s = some (u, es) →
    ∃ j, j ≤ fuel ∧ es.length ≤ 16 ∧ extentsCover es (start + 1 - j) start ∧
      (∀ r, start + 1 - j ≤ r → r ≤ start → ∃ p, positionOf es (s.chan c).len r = some p ∧
        s.presentAt c r ((s.chan c).firstSlot + p) ∧
        u.slot ((s.chan c).firstSlot + p) =
          { s.slot ((s.chan c).firstSlot + p) with locks := (s.slot ((s.chan c).firstSlot + p)).locks + 1 }) ∧
      (∀ n, (∀ r, start + 1 - j ≤ r → r ≤ start → ¬s.presentAt c r n) → u.slot n = s.slot n) ∧
      u.chan c = { s.chan c with locked := (s.chan c).locked + ((List.range j).filter (fun i =>
        decide ((s.slot ((s.chan c).firstSlot + (positionOf es (s.chan c).len (start - i)).getD 0)).locks = 0))).length } ∧
      (∀ d, d ≠ c → u.chan d = s.chan d) ∧ u = { s with slots := u.slots, chans := u.chans } ∧
      -- why it ended: after the requested in, at a frame not found, or at one that cannot be locked or joined
      (j = fuel ∨ (∀ n, ¬s.presentAt c (start - j) n) ∨
        ∃ n, s.presentAt c (start - j) n ∧
          (¬u.lockable n (start - j) ∨
            es.length = 16 ∧ ∃ e rest, es = e :: rest ∧ (n - (s.chan c).firstSlot + 1) % (s.chan c).len ≠ e.pos))) ∧
  ∀ (s u : State) (c : ChanId) (fuel lo hi start xin xout : Nat) (xs es : List Extent), s.geometryOk →
    (s.chan c).state ≠ .off → fuel ≤ start + 1 → xs.length ≤ 16 → extentsCover xs xin xout → xin ≤ start + 1 - fuel →
    start ≤ xout →
    (∀ r, start + 1 - fuel ≤ r → r ≤ start → ∃ p, positionOf xs (s.chan c).len r = some p ∧
      (s.slot ((s.chan c).firstSlot + p)).state = .held ∧ (s.slot ((s.chan c).firstSlot + p)).rfn = r ∧
      1 ≤ (s.slot ((s.chan c).firstSlot + p)).locks ∧ (s.slot ((s.chan c).firstSlot + p)).locks < 256) →
    (build { chan := c, lo, hi, sub := some xs } fuel start []).run s = some (u, es) →
    es.length ≤ 16 ∧ extentsCover es (start + 1 - fuel) start ∧
      (∀ r p, start + 1 - fuel ≤ r → r ≤ start → positionOf xs (s.chan c).len r = some p →
        positionOf es (s.chan c).len r = some p ∧
        u.slot ((s.chan c).firstSlot + p) =
          { s.slot ((s.chan c).firstSlot + p) with locks := (s.slot ((s.chan c).firstSlot + p)).locks + 1 }) ∧
      (∀ n, (∀ r p, start + 1 - fuel ≤ r → r ≤ start → positionOf xs (s.chan c).len r = some p →
        n ≠ (s.chan c).firstSlot + p) → u.slot n = s.slot n) ∧
      u = { s with slots := u.slots }

/-- MARK_SETUP sets the pre-roll and the post-roll, each clamped into 0..1023, in either mode. A mark works within the live
window of a LIVE source or the in..out of a source clip, and runs the backward build down to its requested in; a build of one
frame locks it and makes one extent. MARK IN starts at the top of the window: the clip is OPEN and attached to the head, growing
on a LIVE source, a sub-clip on a CLIP source. MARK QUICK spans the pre-roll and the post-roll, counted in output frames: with
its target above a live window the clip is OPEN, growing towards it; else it closes at once. IN_CLAMPED and OUT_CLAMPED tell a
point that was moved. A key mark that is not refused does to the clips what the MARK command does. That CLIP_OPENED of a MARK
QUICK closed at once carries no OUT_CLAMPED and no growing bit is the model's choice (assumption log 36). So are that a MARK IN
leaves a clip of the same head whose attach notice still waits attached (assumption log 41), and that a head whose record names
a clip that is closed, freed or attached elsewhere counts as one with no attached clip (assumption log 14). -/
def Obligations.MarkSetupClampsAndMarksMakeClips : Prop :=
  (∀ (s : State) (r : CmdArgs), s.awaits → ∃ t p q, exec (.markSetup r) s = .next t ∧ fittedTo 0 1023 r.a.toNat p ∧
    fittedTo 0 1023 r.b.toNat q ∧ s.commandEnded t 0x0D r (doneOrClamped (p ≠ r.a.toNat ∨ q ≠ r.b.toNat) 0) ∧
    t = { s with proc := t.proc, mem := s.mem.withOwn t.mem, preRoll := p, postRoll := q }) ∧
  -- the build of one frame
  (∀ (s : State) (m : MarkSource) (d n : Nat), s.foundAt m d n → (s.chan m.chan).firstSlot ≤ n → s.lockable n d →
    ∃ u, (build m 1 d []).run s = some (u, [{ rfn := d, pos := n - (s.chan m.chan).firstSlot, len := 1 }]) ∧ s.lockTaken u n ∧
      u = { s with slots := u.slots, chans := u.chans }) ∧
  ∀ (s : State) (r : CmdArgs) (h : HeadId) (d : Shown) (m : MarkSource) (k : Nat), s.awaits → r.target.toNat = h.val →
    s.mem.active = true → (s.head h).shown = some d → d.src = (s.head h).src → s.markWindow (s.head h).src m → s.lowestFree k →
    -- MARK IN of a head with no attached clip
    (∀ (a : Nat) (u : State) (e : Extent) (es : List Extent), r.a = 0 → s.noneAttached h →
      fittedTo m.lo m.hi d.rfn a → (build m (m.hi + 1 - a) m.hi []).run s = some (u, e :: es) →
      ∃ t, exec (.mark r []) s = .next t ∧
        s.commandEnded t 0x0C r (doneOrClamped (e.rfn ≠ d.rfn) (BitVec.ofNat 32 k)) ∧
        t.clip k = { state := .opened, chan := m.chan, inF := e.rfn, outF := m.hi, extents := e :: es
                     growing := decide (m.sub = none), attached := some h, inClamped := decide (e.rfn ≠ d.rfn)
                     isSub := decide (m.sub ≠ none), creation := s.ref.count } ∧
        (∀ j, j ≠ k → t.clip j = s.clip j) ∧
        t.evt = s.evt.posted .clipOpened .inEnd k ((if e.rfn ≠ d.rfn then 1 else 0) + (if m.sub = none then 16 else 8))
          (BitVec.ofNat 32 e.rfn) s.ref.count ∧
        t = { s with proc := t.proc, mem := s.mem.withOwn t.mem, slots := u.slots, chans := u.chans, clips := t.clips
                     evt := t.evt, mail := { s.mail with toHead := pushAt s.mail.toHead h (.attach k (s.head h).src) } }) ∧
    -- MARK QUICK
    (∀ (a b target P : Nat) (raw : Int) (u : State) (e : Extent) (es : List Extent) (x : Clip), r.a = 2 →
      P = (s.chan m.chan).phases → raw = (d.rfn : Int) - (s.preRoll * P : Nat) →
      target = min (d.rfn + s.postRoll * P) 4294967039 → fittedTo m.lo m.hi raw.toNat a → fittedTo m.lo m.hi target b →
      (build m (b + 1 - a) b []).run s = some (u, e :: es) →
      x = { state := .opened, chan := m.chan, inF := e.rfn, outF := b, extents := e :: es
            inClamped := decide ((e.rfn : Int) ≠ raw), isQuick := true, isSub := decide (m.sub ≠ none)
            creation := s.ref.count } →
      ∃ t, exec (.mark r []) s = .next t ∧
        (m.hi < target → m.sub = none →
          s.commandEnded t 0x0C r (doneOrClamped ((e.rfn : Int) ≠ raw) (BitVec.ofNat 32 k)) ∧
          t.clip k = { x with growing := true, quick := some target } ∧
          t.evt = s.evt.posted .clipOpened .quick k ((if (e.rfn : Int) ≠ raw then 1 else 0) + 20) (BitVec.ofNat 32 e.rfn)
            s.ref.count) ∧
        (target ≤ m.hi ∨ m.sub ≠ none →
          s.commandEnded t 0x0C r (doneOrClamped ((e.rfn : Int) ≠ raw ∨ b ≠ target) (BitVec.ofNat 32 k)) ∧
          t.clip k = { x with state := .closed, outClamped := decide (b ≠ target), reason := .quickDone } ∧
          t.evt = (s.evt.posted .clipOpened .quick k
              ((if (e.rfn : Int) ≠ raw then 1 else 0) + 4 + (if m.sub = none then 0 else 8)) (BitVec.ofNat 32 e.rfn)
              s.ref.count).posted .clipClosed .quickDone k
              ((if (e.rfn : Int) ≠ raw then 1 else 0) + (if b ≠ target then 2 else 0) + 4 + (if m.sub = none then 0 else 8))
              (BitVec.ofNat 32 b) s.ref.count) ∧
        (∀ j, j ≠ k → t.clip j = s.clip j) ∧
        t = { s with proc := t.proc, mem := s.mem.withOwn t.mem, slots := u.slots, chans := u.chans, clips := t.clips
                     evt := t.evt }) ∧
    -- the same mark from a key
    ∀ (kind : MarkKind) (p : PortId) (rest : List KeyMark) (t : State), r.a.toNat = kind.code →
      s.mail.portMarks.get p = { head := h, kind := kind } :: rest → exec (.mark r []) s = .next t →
      (∀ cur, t.proc.current = some cur → cur.status ≠ .refused) →
      exec (.panelMark p []) s = .next
        { s with slots := t.slots, chans := t.chans, clips := t.clips, evt := t.evt
                 mail := { t.mail with portMarks := popAt s.mail.portMarks p } }

/-- A MARK OUT, by command or by key, closes the head's attached OPEN clip at the displayed frame, or at its out when that is
lower; where the head has just detached the clip and its detach notice still waits at the clip manager, the MARK OUT closes that
clip in the same way. A MARK IN of a head with an attached clip first removes that clip with reason REMARK: it is deleted, or
closed at its out where a head is sourced on it; the mark then goes on as that of a head with no attached clip. An attachment
whose attach notice the head has not taken is none. That the clip's own record must name the head too, and that a MARK OUT
before the detach notice follows R59 and R115 where R101 would refuse it, are the model's choices (assumption log 14). -/
def Obligations.MarkOutClosesTheAttachedClip : Prop :=
  ∀ (s : State) (h : HeadId) (d : Shown) (k : Nat), s.mem.active = true → (s.head h).src ≠ .idle →
    (s.head h).shown = some d → d.src = (s.head h).src →
    (s.outActsOn h k → (s.clip k).inF ≤ d.rfn → ∀ r : CmdArgs, s.awaits → r.target.toNat = h.val → r.a = 1 →
      ∃ t, exec (.mark r []) s = .next t ∧
        s.commandEnded t 0x0C r (doneOrClamped ((s.clip k).outF < d.rfn) (BitVec.ofNat 32 k)) ∧
        s.clipClosed t k (min d.rfn (s.clip k).outF)
          { s.clip k with outClamped := (s.clip k).outClamped || decide ((s.clip k).outF < d.rfn) } .mark ∧
        t = { s with proc := t.proc, mem := s.mem.withOwn t.mem, slots := t.slots, chans := t.chans, clips := t.clips
                     evt := t.evt, mail := t.mail }) ∧
    (s.outActsOn h k → (s.clip k).inF ≤ d.rfn → ∀ (p : PortId) (rest : List KeyMark),
      s.mail.portMarks.get p = { head := h, kind := .markOut } :: rest → ∃ t, exec (.panelMark p []) s = .next t ∧
        State.clipClosed { s with mail := { s.mail with portMarks := popAt s.mail.portMarks p } } t k
          (min d.rfn (s.clip k).outF)
          { s.clip k with outClamped := (s.clip k).outClamped || decide ((s.clip k).outF < d.rfn) } .mark ∧
        t = { s with slots := t.slots, chans := t.chans, clips := t.clips, evt := t.evt, mail := t.mail }) ∧
    -- REMARK
    ((s.head h).attached = some k → s.heldOpen h k → ∀ r : CmdArgs, s.awaits → r.target.toNat = h.val → r.a = 0 →
      (s.clip k).inF ≤ (s.clip k).outF →
      extentsCover (s.clip k).extents (s.clip k).inF (s.clip k).outF →
      ∃ u v, s.clipWork u ∧ ((∀ g, (s.head g).src ≠ .clip k) → s.clipFreed u k .remark) ∧
        ((∃ g, (s.head g).src = .clip k) → s.clipClosed u k (s.clip k).outF (s.clip k) .remark) ∧
        exec (.mark r []) (u.setHead h { s.head h with attached := none }) = .next v ∧
        exec (.mark r []) s = .next { v with heads := s.heads })

/-- A refused mark changes no clip, no slot and no head: a MARK command ends REFUSED, a key mark posts MARK_REFUSED with the
kind, the port and the displayed frame. The cases are TRANSPARENT, no source or nothing shown of it, no attached clip, a MARK
OUT before its clip's in, no FREE clip record, and a build whose first frame is gone or cannot be locked. A MARK command with
another head number or kind is refused BAD_ARG. A head has no attached clip where its record names none, where the attach notice
of the clip still waits, and, by the model's choice (assumption log 14), where the clip named is closed, freed or detached. A
MARK OUT is refused for want of an attached clip only where no waiting detach notice of the head names a clip still open for it:
following R59 and R115 there, and not R101, is the model's choice (assumption log 14). -/
def Obligations.RefusedMarksChangeNothing : Prop :=
  (∀ (s : State) (r : CmdArgs), s.awaits → 3 < r.target.toNat ∨ 2 < r.a.toNat →
    ∃ t, exec (.mark r []) s = .next t ∧ s.commandEnded t 0x0C r (refusedFor .badArg) ∧
      t = { s with proc := t.proc, mem := s.mem.withOwn t.mem }) ∧
  ∀ (s : State) (h : HeadId) (kind : MarkKind) (why : Reason),
    (s.mem.active = false ∧ why = .state ∨
      s.mem.active = true ∧ why = .noSource ∧ ((s.head h).src = .idle ∨ (s.head h).shown = none ∨
        ∃ d, (s.head h).shown = some d ∧ d.src ≠ (s.head h).src) ∨
      s.mem.active = true ∧ (s.head h).src ≠ .idle ∧ ∃ d, (s.head h).shown = some d ∧ d.src = (s.head h).src ∧
        (why = .noClip ∧ kind = .markOut ∧ s.noneAttached h ∧ (∀ k ∈ s.mail.fromHead.get h, ¬s.heldOpen h k) ∨
          why = .order ∧ kind = .markOut ∧ (∃ k, s.outActsOn h k ∧ d.rfn < (s.clip k).inF) ∨
          why = .tableFull ∧ kind ≠ .markOut ∧ (kind = .markIn → s.noneAttached h) ∧
            (∀ k, k < 256 → (s.clip k).state ≠ .free) ∨
          why = .lockFull ∧ kind ≠ .markOut ∧ (kind = .markIn → s.noneAttached h) ∧
            ∃ k m b, s.lowestFree k ∧ s.markWindow (s.head h).src m ∧ (kind = .markIn → b = m.hi) ∧
              (kind = .markQuick →
                fittedTo m.lo m.hi (min (d.rfn + s.postRoll * (s.chan m.chan).phases) 4294967039) b) ∧
              ((∀ n, ¬s.foundAt m b n) ∨ ∃ n, s.foundAt m b n ∧ ¬s.lockable n b))) →
    (∀ r : CmdArgs, s.awaits → r.target.toNat = h.val → r.a.toNat = kind.code → ∃ t, exec (.mark r []) s = .next t ∧
      s.commandEnded t 0x0C r (refusedFor why) ∧ t = { s with proc := t.proc, mem := s.mem.withOwn t.mem }) ∧
    ∀ (p : PortId) (rest : List KeyMark), s.mail.portMarks.get p = { head := h, kind := kind } :: rest →
      ∃ t, exec (.panelMark p []) s = .next t ∧
        t.evt = s.evt.posted .markRefused why h.val (kind.code + 256 * p.val)
          (((s.head h).shown.map (fun d => BitVec.ofNat 32 d.rfn)).getD 0) s.ref.count ∧
        t = { s with evt := t.evt, mail := { s.mail with portMarks := popAt s.mail.portMarks p } }

/-- CLIP_TAG: NO_CLIP for a FREE clip, BAD_ARG for a tag above 65,535; otherwise the tag and the rating are set, a rating above
3 lowered to 3. No event is posted and nothing else of the record changes, in either mode, on OPEN and CLOSED clips. -/
def Obligations.ClipTagSetsTagAndRatingAlone : Prop :=
  ∀ (s : State) (r : CmdArgs) (k : Nat), s.awaits → r.target.toNat = k → k ≤ 255 →
    ((s.clip k).state = .free → ∃ t, exec (.clipTag r) s = .next t ∧ s.commandEnded t 0x10 r (refusedFor .noClip) ∧
      t = { s with proc := t.proc, mem := s.mem.withOwn t.mem }) ∧
    ((s.clip k).state ≠ .free → 65535 < r.a.toNat → ∃ t, exec (.clipTag r) s = .next t ∧
      s.commandEnded t 0x10 r (refusedFor .badArg) ∧ t = { s with proc := t.proc, mem := s.mem.withOwn t.mem }) ∧
    ((s.clip k).state ≠ .free → r.a.toNat ≤ 65535 → ∃ t, exec (.clipTag r) s = .next t ∧
      s.commandEnded t 0x10 r (doneOrClamped (3 < r.b.toNat) 0) ∧
      t.clip k = { s.clip k with tag := BitVec.ofNat 16 r.a.toNat, rating := if 3 < r.b.toNat then 3 else r.b.toNat } ∧
      (∀ j, j ≠ k → t.clip j = s.clip j) ∧
      t = { s with proc := t.proc, mem := s.mem.withOwn t.mem, clips := t.clips })

/-- CLIP_CLOSE: NO_CLIP for a FREE clip, STATE for a CLOSED one; an OPEN clip is closed at the requested out clamped into
in..out. CLIP_DELETE: NO_CLIP for a FREE clip, IN_USE while a head is sourced on it; otherwise its frames are unlocked, its head
told, CLIP_DELETED posted, and the record is FREE again. Every clip command refuses BAD_ARG for a target id above 255. A
channel's tick that falls between the fetch and the clip manager's first operation is one taken before the command; one that
falls after its last operation is one taken after it. -/
def Obligations.ClipCloseAndDeleteReleaseTheFrames : Prop :=
  (∀ (s : State) (r : CmdArgs) i kind, s.awaits → 255 < r.target.toNat →
    (i, kind) ∈ [(Instr.clipClose r [], (0x0E : Byte)), (.clipDelete r [], 0x0F), (.clipTag r, 0x10),
      (.clipQuery r, 0x11)] →
    ∃ t, exec i s = .next t ∧ s.commandEnded t kind r (refusedFor .badArg) ∧
      t = { s with proc := t.proc, mem := s.mem.withOwn t.mem }) ∧
  (∀ (s : State) (r : CmdArgs) (k : Nat), s.awaits → r.target.toNat = k → k ≤ 255 →
    ((s.clip k).state = .free → ∃ t, exec (.clipClose r []) s = .next t ∧
      s.commandEnded t 0x0E r (refusedFor .noClip) ∧ t = { s with proc := t.proc, mem := s.mem.withOwn t.mem }) ∧
    ((s.clip k).state = .closed → ∃ t, exec (.clipClose r []) s = .next t ∧
      s.commandEnded t 0x0E r (refusedFor .state) ∧ t = { s with proc := t.proc, mem := s.mem.withOwn t.mem }) ∧
    ((s.clip k).state = .opened → (s.clip k).inF ≤ (s.clip k).outF → ∃ t o, exec (.clipClose r []) s = .next t ∧
      fittedTo (s.clip k).inF (s.clip k).outF r.a.toNat o ∧
      s.commandEnded t 0x0E r (doneOrClamped (o ≠ r.a.toNat) (BitVec.ofNat 32 o)) ∧
      s.clipClosed t k o (s.clip k) .command ∧
      (∀ c w, exec (.channelTick c) s = .next w →
        exec (.clipClose r [.event (.channelTick c)]) s = exec (.clipClose r []) w) ∧
      (∀ c, exec (.clipClose r (List.replicate ((s.clip k).outF - o + 3) (.move .processor) ++ [.event (.channelTick c)])) s =
        exec (.channelTick c) t) ∧
      t = { s with proc := t.proc, mem := s.mem.withOwn t.mem, slots := t.slots, chans := t.chans, clips := t.clips
                   evt := t.evt, mail := t.mail })) ∧
  ∀ (s : State) (r : CmdArgs) (k : Nat), s.awaits → r.target.toNat = k → k ≤ 255 →
    ((s.clip k).state = .free → ∃ t, exec (.clipDelete r []) s = .next t ∧
      s.commandEnded t 0x0F r (refusedFor .noClip) ∧ t = { s with proc := t.proc, mem := s.mem.withOwn t.mem }) ∧
    ((s.clip k).state ≠ .free → (∃ h, (s.head h).src = .clip k) → ∃ t, exec (.clipDelete r []) s = .next t ∧
      s.commandEnded t 0x0F r (refusedFor .inUse) ∧ t = { s with proc := t.proc, mem := s.mem.withOwn t.mem }) ∧
    ((s.clip k).state ≠ .free → (∀ h, (s.head h).src ≠ .clip k) → ∃ t, exec (.clipDelete r []) s = .next t ∧
      s.commandEnded t 0x0F r { status := .done, reason := .none,
                                result := BitVec.ofNat 32 ((s.clip k).outF - (s.clip k).inF + 1) } ∧
      (∀ c w, exec (.channelTick c) s = .next w →
        exec (.clipDelete r [.event (.channelTick c)]) s = exec (.clipDelete r []) w) ∧
      (∀ c, exec (.clipDelete r
          (List.replicate ((s.clip k).outF - (s.clip k).inF + 4) (.move .processor) ++ [.event (.channelTick c)])) s =
        exec (.channelTick c) t) ∧
      t.clip k = {} ∧ (∀ j, j ≠ k → t.clip j = s.clip j) ∧
      (∀ n, t.slot n = (s.slot n).unlockedBy ((s.clipSlots (s.clip k) (s.clip k).inF (s.clip k).outF).count n)) ∧
      (∀ d, t.chan d = { s.chan d with locked := (t.chan d).locked }) ∧
      t.mail = (match (s.clip k).attached with
        | none => s.mail
        | some h => { s.mail with toHead := pushAt s.mail.toHead h (.detach k) }) ∧
      t.evt = s.evt.posted .clipDeleted .command k { s.clip k with growing := false }.flags
        (BitVec.ofNat 32 ((s.clip k).outF - (s.clip k).inF + 1)) s.ref.count ∧
      t = { s with proc := t.proc, mem := s.mem.withOwn t.mem, slots := t.slots, chans := t.chans, clips := t.clips
                   evt := t.evt, mail := t.mail })

/-- The takers of a frame are the growing OPEN clips of its channel whose out is the frame below, in id order. An arrival of one
frame: with no taker nothing but the mailbox changes; a frame that is gone closes each taker with FRAME_GONE; a frame that is
there is taken by each taker in turn, which locks it and has it join at the top, closes with QUICK_DONE at its quick target,
closes alone with EXTENTS where a seventeenth extent would be needed, and closes with ALLOWANCE, the later ones with it, where
the allowance is used up. A walk that takes the frame between its lookup and its lock closes the takers with FRAME_GONE. An
arrival of more frames is one of its first frame and then one of the others. -/
def Obligations.ArrivalGrowsItsTaker : Prop :=
  (∀ (s w : State) (c : ChanId) (f : Nat) (rest : List ChanNote), s.mail.chanNotes.get c = .arrival f 1 :: rest →
    w = { s with mail := { s.mail with chanNotes := popAt s.mail.chanNotes c } } →
    (s.takersOf c f = [] → exec (.framesCommittedArrival c []) s = .next w) ∧
    ((∀ n, ¬s.presentAt c f n) → ∃ t, exec (.framesCommittedArrival c []) s = .next t ∧
      closesEach .frameGone (s.takersOf c f) w t) ∧
    ∀ n, s.presentAt c f n → (s.chan c).firstSlot ≤ n → (s.slot n).locks + (s.takersOf c f).length ≤ 256 →
      (∃ t, exec (.framesCommittedArrival c []) s = .next t ∧ growsEach f n (s.takersOf c f) w t) ∧
      ∀ k ks, s.takersOf c f = k :: ks → (16 ≤ (s.clip k).extents.length →
          joinsLast (s.chan c).len (s.clip k).extents (n - (s.chan c).firstSlot)) →
        ∀ u, exec (.channelTick c) w = .next u → (u.slot n).state ≠ .held ∨ (u.slot n).rfn ≠ f →
          ∃ t, exec (.framesCommittedArrival c [.move .clips, .event (.channelTick c)]) s = .next t ∧
            closesEach .frameGone (k :: ks) u t) ∧
  ∀ (s s₁ : State) (c : ChanId) (f m : Nat) (rest : List ChanNote), s.mail.chanNotes.get c = .arrival f (m + 1) :: rest →
    s₁.mail.chanNotes.get c = .arrival f 1 :: .arrival (f + 1) m :: rest →
    (∀ d, d ≠ c → s₁.mail.chanNotes.get d = s.mail.chanNotes.get d) →
    s₁ = { s with mail := { s.mail with chanNotes := s₁.mail.chanNotes } } →
    ∃ u, exec (.framesCommittedArrival c []) s₁ = .next u ∧
      exec (.framesCommittedArrival c []) s = exec (.framesCommittedArrival c []) u

/-- A stop notice closes the channel's growing OPEN clips at their outs, with CHANNEL_STOP or RFN_LIMIT; with no growing clip it
changes nothing but the mailbox. -/
def Obligations.StopNoticeClosesGrowingClips : Prop :=
  ∀ (s : State) (c : ChanId) (cause : StopCause) (rest : List ChanNote) (why : Reason) (growers : List Nat),
    s.mail.chanNotes.get c = .stopped cause :: rest →
    (cause = .rfnLimit → why = .rfnLimit) → (cause ≠ .rfnLimit → why = .channelStop) →
    growers = (List.range 256).filter (fun k =>
      decide ((s.clip k).state = .opened) && (s.clip k).growing && decide ((s.clip k).chan = c)) →
    ∃ t, exec (.stopNotice c) s = .next t ∧
      (∀ k, k ∈ growers →
        t.clip k = { s.clip k with extents := (t.clip k).extents, state := .closed, reason := why, growing := false
                                   quick := none, attached := none } ∧
        ∀ lo, extentsCover (s.clip k).extents lo (s.clip k).outF → lo ≤ (s.clip k).outF →
          extentsCover (t.clip k).extents lo (s.clip k).outF) ∧
      (∀ k, k ∉ growers → t.clip k = s.clip k) ∧
      t.evt = growers.foldl (fun e k =>
        e.posted .clipClosed why k { s.clip k with growing := false }.flags (BitVec.ofNat 32 (s.clip k).outF) s.ref.count) s.evt ∧
      (∀ h, t.mail.toHead.get h = s.mail.toHead.get h ++
        (growers.filter (fun k => decide ((s.clip k).attached = some h))).map HeadNote.detach) ∧
      t = { s with clips := t.clips, evt := t.evt,
                   mail := { s.mail with chanNotes := popAt s.mail.chanNotes c, toHead := t.mail.toHead } }

/-! ## Reference timing (chapter 6) -/

/-- The SYNC_IN filter: a fall starts a qualification, a rise before 2 us drops it, a rise later leaves one pulse timed 2 us
after the fall; the reference record is untouched. That a low of exactly 2 us is a pulse is the model's reading (assumption log
36). -/
def Obligations.SyncFilterNeedsTwoMicroseconds : Prop :=
  ∀ (s : State) (level : Bool) (time : Nat),
    (level = s.ref.sync → exec (.syncInEdge level time) s = .next s) ∧
    (level ≠ s.ref.sync → ∃ t, exec (.syncInEdge level time) s = .next t ∧ t.now = max s.now time ∧
      t.ref = { s.ref with sync := level, qual := t.ref.qual, pulses := t.ref.pulses } ∧
      (level = false → t.ref.qual = some t.now ∧ t.ref.pulses = s.ref.pulses) ∧
      (level = true → t.ref.qual = none) ∧
      (level = true → s.ref.qual = none → t.ref.pulses = s.ref.pulses) ∧
      (∀ e, level = true → s.ref.qual = some e → t.now < e + 2 → t.ref.pulses = s.ref.pulses) ∧
      (∀ e, level = true → s.ref.qual = some e → e + 2 ≤ t.now → t.ref.pulses = s.ref.pulses ++ [e + 2]) ∧
      t = { s with now := t.now, ref := t.ref })

/-- A pulse is judged by the state and the time since the last tick: in ABSENT it starts or ends a measurement, in LOCKED and
FLYWHEEL it is a tick, or a glitch when it comes too early. A tick joins every channel's and every head's mailbox. The pulse is
the oldest that waits or, while the line is still low, the one its qualification completes 2 us after the fall: a low gives one
pulse only, whatever its length. -/
def Obligations.PulsesAreJudgedByStateAndElapsedTime : Prop :=
  ∀ (s : State) (p : Nat) (ps : List Nat) (q : Option Nat),
    (s.ref.pulses = p :: ps ∧ q = s.ref.qual) ∨ (∃ e, s.ref.pulses = [] ∧ s.ref.qual = some e ∧ p = e + 2 ∧ ps = [] ∧ q = none) →
    (∀ d, s.ref.timer = some d → p ≤ d) →
    ∃ t, exec .syncPulse s = .next t ∧ t.now = max s.now p ∧ t.ref.pulses = ps ∧ t.ref.qual = q ∧
      t.ref.sync = s.ref.sync ∧
      -- no further pulse of the same low
      (s.ref.pulses = [] → exec .syncPulse t = .next t ∧
        ∀ time, ∃ v, exec (.syncInEdge true time) t = .next v ∧ v.ref.pulses = []) ∧
      -- ABSENT: a measurement starts, starts again, or gives the period and the first tick
      (s.ref.state = .absent → s.ref.measure = none →
        t.ref = { s.ref with pulses := ps, qual := q, measure := some p } ∧ t.mail = s.mail ∧ t.evt = s.evt) ∧
      (∀ m, s.ref.state = .absent → s.ref.measure = some m → p - m < 8000 ∨ 50000 < p - m →
        t.ref = { s.ref with pulses := ps, qual := q, measure := some p } ∧ t.mail = s.mail ∧ t.evt = s.evt) ∧
      (∀ m, s.ref.state = .absent → s.ref.measure = some m → 8000 ≤ p - m → p - m ≤ 50000 →
        t.ref = { s.ref with pulses := ps, qual := q, state := .locked, period := p - m, measure := none, lastTick := some p
                             timer := some (p + (p - m) + (p - m) / 8), count := s.ref.count + 1 } ∧
        t.evt = s.evt.posted .refLocked .acquired 0 0 (BitVec.ofNat 32 (p - m)) (s.ref.count + 1)) ∧
      -- LOCKED: rejected below T - W, a tick otherwise
      (∀ l, s.ref.state = .locked → s.ref.lastTick = some l → p - l < s.ref.period - s.ref.period / 8 →
        t.ref = { s.ref with pulses := ps, qual := q } ∧ t.mail = s.mail ∧
        t.evt = s.evt.posted .refGlitch .none 0 0 (BitVec.ofNat 32 (p - l)) s.ref.count) ∧
      (∀ l, s.ref.state = .locked → s.ref.lastTick = some l → s.ref.period - s.ref.period / 8 ≤ p - l →
        t.ref = { s.ref with pulses := ps, qual := q, lastTick := some p, timer := some (p + s.ref.period + s.ref.period / 8)
                             count := s.ref.count + 1 } ∧ t.evt = s.evt) ∧
      -- FLYWHEEL: rejected below H, a tick that realigns otherwise
      (∀ l, s.ref.state = .flywheel → s.ref.lastTick = some l → p - l < s.ref.period / 2 →
        t.ref = { s.ref with pulses := ps, qual := q } ∧ t.mail = s.mail ∧
        t.evt = s.evt.posted .refGlitch .none 0 0 (BitVec.ofNat 32 (p - l)) s.ref.count) ∧
      (∀ l, s.ref.state = .flywheel → s.ref.lastTick = some l → s.ref.period / 2 ≤ p - l →
        t.ref = { s.ref with pulses := ps, qual := q, state := .locked, lastTick := some p
                             timer := some (p + s.ref.period + s.ref.period / 8), count := s.ref.count + 1 } ∧
        t.evt = s.evt.posted .refLocked .realigned 0 0 (BitVec.ofNat 32 s.ref.period) (s.ref.count + 1)) ∧
      -- every tick is handed to each channel and each head, once
      (t.ref.count ≠ s.ref.count →
        (∀ c, t.mail.chanTicks.get c = s.mail.chanTicks.get c ++ [s.ref.count + 1]) ∧
        (∀ h, t.mail.headTicks.get h = s.mail.headTicks.get h ++ [s.ref.count + 1])) ∧
      t = { s with now := t.now, ref := t.ref, evt := t.evt,
                   mail := { s.mail with chanTicks := t.mail.chanTicks, headTicks := t.mail.headTicks } }

/-- An expiry of the flywheel timer is a tick at the time it is due: from LOCKED it enters FLYWHEEL and posts REF_LOST, in
FLYWHEEL it posts nothing, and the timer runs for another period. REF_RESTART drops the reference and keeps the tick counter and
the filter; its result is the period before it. -/
def Obligations.FlywheelTicksAndRestartDropsTheReference : Prop :=
  (∀ (s : State) (d : Nat), s.ref.timer = some d → s.ref.state ≠ .absent → (∀ p, s.ref.nextPulse = some p → d ≤ p) →
    ∃ t, exec .flywheelExpiry s = .next t ∧ t.now = max s.now d ∧
      t.ref = { s.ref with state := .flywheel, lastTick := some d, timer := some (d + s.ref.period)
                           count := s.ref.count + 1 } ∧
      (s.ref.state = .locked →
        t.evt = s.evt.posted .refLost .none 0 0 (BitVec.ofNat 32 s.ref.period) (s.ref.count + 1)) ∧
      (s.ref.state = .flywheel → t.evt = s.evt) ∧
      (∀ c, t.mail.chanTicks.get c = s.mail.chanTicks.get c ++ [s.ref.count + 1]) ∧
      (∀ h, t.mail.headTicks.get h = s.mail.headTicks.get h ++ [s.ref.count + 1]) ∧
      t = { s with now := t.now, ref := t.ref, evt := t.evt,
                   mail := { s.mail with chanTicks := t.mail.chanTicks, headTicks := t.mail.headTicks } }) ∧
  ∀ (s : State) (r : CmdArgs), s.awaits → ∃ t, exec (.refRestart r) s = .next t ∧
    s.commandEnded t 0x03 r { status := .done, reason := .none, result := BitVec.ofNat 32 s.ref.period } ∧
    t.ref = { s.ref with state := .absent, period := 0, measure := none, lastTick := none, timer := none } ∧
    t = { s with proc := t.proc, mem := s.mem.withOwn t.mem, ref := t.ref }

/-! ## Memory path (chapter 8) -/

/-- A burst at the engine port: held off behind a full queue, a busy store port or a burst held off already; otherwise accepted,
and either forwarded unchanged, forwarded with a substituted address, or completed by the part itself. A channel's stray-write
report: the first of a period sets the stray flag and posts STRAY_WRITE, a further one changes nothing. Whether the store port
takes the burst is an operand (assumption log 9); that a phase with no slot in the list is absorbed is the model's choice
(assumption log 23). -/
def Obligations.EngineBurstsAreRoutedAtAcceptance : Prop :=
  (∀ (s : State) (b : Burst),
    (∀ free : Bool, free = false ∨ s.mem.held ≠ [] ∨ 32 ≤ s.mem.passQ.length →
      exec (.engineBurst b free) s = .next { s with mem := { s.mem with engineOut := [], held := s.mem.held ++ [b] } }) ∧
    (s.mem.held = [] → s.mem.passQ.length < 32 → (∀ o, (s.mem.owed b.dir).head? = some o → o.result = none) →
      -- TRANSPARENT, or outside the window region: the burst passes as it is, with the watched words it carries
      (s.mem.active = false ∨ b.addr.toNat < s.mem.region ∨ s.mem.region + 128 * 2 ^ s.mem.stride ≤ b.addr.toNat →
        exec (.engineBurst b true) s = .next (s.forwarded b b.addr (s.watchedOf b))) ∧
      ∀ w o, s.mem.active = true → b.addr.toNat = s.mem.region + w * 2 ^ s.mem.stride + o → o < 2 ^ s.mem.stride →
        w < 128 →
        -- a record window in RECORDING or STOPPING, phase j in use, with a slot: the slot
        (∀ (c : ChanId) (j n : Nat), w = 8 * c.val + j → j < 8 → j < (s.chan c).phases →
          (s.chan c).state = .recording ∨ (s.chan c).state = .stopping → (s.chan c).phaseSlots[j]? = some n →
          exec (.engineBurst b true) s =
            .next (s.forwarded b (BitVec.ofNat 40 (s.mem.slotBase + n * 2 ^ s.mem.stride + o)) [])) ∧
        -- a play window, read: the displayed slot, or the slate
        (∀ h : HeadId, w = 64 + h.val → b.dir = .read → exec (.engineBurst b true) s =
          .next (s.forwarded b (BitVec.ofNat 40
            (((s.head h).shown.map (fun d => s.mem.slotBase + d.slot * 2 ^ s.mem.stride)).getD s.mem.slate + o)) [])) ∧
        -- a write to a phase at or above P while recording: absorbed, and reported to the channel
        (∀ (c : ChanId) (j : Nat), w = 8 * c.val + j → j < 8 → (s.chan c).phases ≤ j → b.dir = .write →
          (s.chan c).state = .recording ∨ (s.chan c).state = .stopping →
          exec (.engineBurst b true) s = .next
            { s.selfCompleted b with
                mail := { s.mail with strays := pushAt s.mail.strays c { phase := j, offset := o } } }) ∧
        -- every other burst in the region: absorbed
        ((∃ (c : ChanId) (j : Nat), w = 8 * c.val + j ∧ j < 8 ∧
            (((s.chan c).state ≠ .recording ∧ (s.chan c).state ≠ .stopping) ∨
             (j < (s.chan c).phases ∧ (s.chan c).phaseSlots[j]? = none) ∨ ((s.chan c).phases ≤ j ∧ b.dir = .read))) ∨
          (64 ≤ w ∧ w < 68 ∧ b.dir = .write) ∨ 68 ≤ w →
          exec (.engineBurst b true) s = .next (s.selfCompleted b)))) ∧
  ∀ (s : State) (c : ChanId) (x : Stray) (rest : List Stray), s.mail.strays.get c = x :: rest →
    ((s.chan c).stray = true → exec (.strayWriteReport c) s = .next
      { s with mail := { s.mail with strays := popAt s.mail.strays c } }) ∧
    ((s.chan c).stray = false → ∃ t, exec (.strayWriteReport c) s = .next t ∧
      t.chan c = { s.chan c with stray := true } ∧ (∀ d, d ≠ c → t.chan d = s.chan d) ∧
      t.evt = s.evt.posted .strayWrite .none c.val x.phase (BitVec.ofNat 32 x.offset) s.ref.count ∧
      t = { s with chans := t.chans, evt := t.evt, mail := { s.mail with strays := popAt s.mail.strays c } })

/-- The arbiter: with no own request waiting the oldest pass burst goes; a pass burst that R158 places before the oldest own
request goes without being counted; of the others eight may go before it; then the own request goes, as it was queued. Then the
bursts held off are accepted in their order while room is left. An own write is queued as whole beats of 32 bytes with exactly
its bytes enabled. That the bursts are accepted within the step is the model's choice (assumption log 9), and so is that the
beats of an own write lie at multiples of 32 (assumption log 13). -/
def Obligations.TheArbiterIssuesByAgeAndFairness : Prop :=
  -- what an own write carries
  (∀ (q : Requester) (a : Addr) (bytes : List Byte), bytes ≠ [] → a.toNat % 4096 + bytes.length ≤ 4096 →
    (OwnReq.write q a bytes).req = q ∧ (OwnReq.write q a bytes).carries a bytes) ∧
  ∀ (s : State) (time : Nat),
    (s.mem.held = [] →
      -- no own request waits
      ((∀ r ∈ s.mem.ownQ, r.issued ≠ none) →
        (s.mem.passQ = [] → exec (.storePortIssue time) s = .next
          { s with now := max s.now time, mem := { s.mem with engineOut := [], runCounter := 0 } }) ∧
        ∀ b bs, s.mem.passQ = b :: bs →
          exec (.storePortIssue time) s = .next { s with now := max s.now time, mem := s.mem.sendsPass b bs 0 }) ∧
      -- r, at place k, is the oldest that waits
      ∀ k r, s.mem.ownQ[k]? = some r → r.issued = none →
        (∀ j q, j < k → s.mem.ownQ[j]? = some q → q.issued ≠ none) →
        (∀ b bs, s.mem.passQ = b :: bs → (∃ x ∈ s.mem.passQ, x.no < r.after ∧ (r.dir = .read → x.dir = .write)) →
          exec (.storePortIssue time) s =
            .next { s with now := max s.now time, mem := s.mem.sendsPass b bs s.mem.runCounter }) ∧
        ((∀ x ∈ s.mem.passQ, ¬(x.no < r.after ∧ (r.dir = .read → x.dir = .write))) →
          (∀ b bs, s.mem.passQ = b :: bs → s.mem.runCounter < 8 →
            exec (.storePortIssue time) s =
              .next { s with now := max s.now time, mem := s.mem.sendsPass b bs (s.mem.runCounter + 1) }) ∧
          (s.mem.passQ = [] ∨ 8 ≤ s.mem.runCounter →
            exec (.storePortIssue time) s = .next
              { s with
                now := max s.now time
                mem := { s.mem with
                  engineOut := [], runCounter := 0, ownQ := s.mem.ownQ.set k { r with issued := some (max s.now time) }
                  storeOut := some { own := true, dir := r.dir, addr := r.addr, beats := r.beats, data := r.data } } }))) ∧
    -- the bursts held off
    ∀ bs u, s.mem.held = bs → exec (.storePortIssue time) { s with mem := { s.mem with held := [] } } = .next u →
      ∃ t, exec (.storePortIssue time) s = .next t ∧ takesHeld bs u t

/-- A completed pass burst that is the oldest of its direction is returned at the engine port, and with it, in acceptance order,
every burst behind it that already has its completion, up to the first that has none; each GOOD completion hands on its watched
words, taken once the start-up writes have ended. One that is not the oldest waits its turn. The watched words of a burst are
the little-endian words it writes at the two places of the control block, the CMD word first, and no others. Handing on at the
engine port is the model's reading (assumption log 11). -/
def Obligations.PassCompletionsReturnInOrder : Prop :=
  (∀ (s : State) (k : Nat) (st : Status) (data : List Byte) (b : PassBurst) (o : Owed) (os : List Owed),
    s.mem.passOut[k]? = some b → s.mem.owed b.dir = o :: os →
    -- the oldest, and the run of completed bursts behind it
    (∀ (run : List (Owed × Status × List Byte)) (rest : List Owed) (ws : List Watched), o.no = b.no →
      os = run.map (·.1) ++ rest → (∀ x ∈ os, x.no ≠ b.no) → (∀ x ∈ run, x.1.result = some x.2) →
      (∀ x, rest.head? = some x → x.result = none) →
      ws = (((o, st, []) :: run).filter (fun x => decide (x.2.1 = .good))).flatMap (fun x => x.1.watched) →
      exec (.passBurstComplete k st data) s = .next
        { s with
          mem := { s.mem.setOwed b.dir rest with
            passOut := s.mem.passOut.eraseIdx k
            engineOut := { dir := b.dir, status := st, data := if b.dir = .read then data else [] } ::
              run.map (fun x => { dir := b.dir, status := x.2.1, data := x.2.2 }) }
          mail := if s.startUp.cmdWait = false ∧ s.startUp.evtWait = false then
              { s.mail with
                cmdWords := s.mail.cmdWords ++ (ws.filter (fun x => x.full && x.isCmd)).map (·.value)
                evtWords := s.mail.evtWords ++ (ws.filter (fun x => x.full && !x.isCmd)).map (·.value) }
            else s.mail }) ∧
    (o.no ≠ b.no → o.result = none →
      exec (.passBurstComplete k st data) s = .next
        { s with mem := { s.mem.setOwed b.dir
            (o :: os.map (fun x => if x.no = b.no then
              { x with result := some (st, if b.dir = .read then data else []) } else x)) with
            passOut := s.mem.passOut.eraseIdx k, engineOut := [] } })) ∧
  ∀ (s : State) (b : Burst),
    (b.dir = .read → s.watchedOf b = []) ∧
    (b.dir = .write → s.watchedOf b =
      (if b.addr.toNat ≤ (s.control 0x0).toNat ∧ (s.control 0x0).toNat + 4 ≤ b.addr.toNat + 32 * b.beats then
        [carriedWord b true ((s.control 0x0).toNat - b.addr.toNat)] else []) ++
      (if b.addr.toNat ≤ (s.control 0xC).toNat ∧ (s.control 0xC).toNat + 4 ≤ b.addr.toNat + 32 * b.beats then
        [carriedWord b false ((s.control 0xC).toNat - b.addr.toNat)] else []))

/-- ENGAGE: refused STATE in ACTIVE, then BAD_ARG, then OVERLAP, then STATE when the slot area would move under a channel that
is not OFF; otherwise the areas are set and the mode is ACTIVE. -/
def Obligations.EngageChecksInOrderAndGoesActive : Prop :=
  ∀ (s : State) (r : CmdArgs) (st region base slate : Nat) (argsGood apart kept : Prop), s.awaits → r.d.toNat = st →
    region = r.a.toNat * 2 ^ 20 → base = r.b.toNat * 2 ^ 20 → slate = r.c.toNat * 2 ^ 20 →
    (argsGood ↔ 20 ≤ st ∧ st ≤ 25 ∧ region % (128 * 2 ^ st) = 0 ∧ base % 2 ^ st = 0 ∧
      region + 128 * 2 ^ st ≤ 2 ^ 40 ∧ base + 16384 * 2 ^ st ≤ 2 ^ 40 ∧ slate + 2 ^ st ≤ 2 ^ 40) →
    (apart ↔ (region + 128 * 2 ^ st ≤ (s.control 0).toNat ∨ (s.control 0).toNat + 65536 ≤ region) ∧
      (region + 128 * 2 ^ st ≤ base ∨ base + 16384 * 2 ^ st ≤ region) ∧
      (slate + 2 ^ st ≤ region ∨ region + 128 * 2 ^ st ≤ slate)) →
    (kept ↔ s.mem.stride = 0 ∨ (st = s.mem.stride ∧ base = s.mem.slotBase) ∨ ∀ c, (s.chan c).state = .off) →
    (∀ why, s.mem.active = true ∧ why = .state ∨ s.mem.active = false ∧ ¬argsGood ∧ why = .badArg ∨
        s.mem.active = false ∧ argsGood ∧ ¬apart ∧ why = .overlap ∨
        s.mem.active = false ∧ argsGood ∧ apart ∧ ¬kept ∧ why = .state →
      ∃ t, exec (.engage r) s = .next t ∧ s.commandEnded t 0x01 r (refusedFor why) ∧
        t = { s with proc := t.proc, mem := s.mem.withOwn t.mem }) ∧
    (s.mem.active = false → argsGood → apart → kept → ∃ t, exec (.engage r) s = .next t ∧
      s.commandEnded t 0x01 r { status := .done, reason := .none, result := 0 } ∧
      t = { s with proc := t.proc
                   mem := { s.mem.withOwn t.mem with
                     active := true, region := region, slotBase := base, stride := st, slate := slate } })

/-- DISENGAGE: the mode becomes TRANSPARENT with the areas kept; every ARMED, RECORDING or STOPPING channel loses its period and
becomes READY with CHANNEL_STOPPED DISENGAGE, in channel order; every head becomes IDLE with its pins released and its clip
detached. The order of the channels, and of the heads, is the model's (assumption log 27). Other blocks' events may fall between
the parts: a channel's tick before them is one taken before the command, and a key mark between the channels and the heads posts
MARK_REFUSED with STATE and the frame its head still shows. -/
def Obligations.DisengageStopsChannelsAndIdlesHeads : Prop :=
  (∀ (s : State) (r : CmdArgs) (busy : ChanId → Bool), s.awaits →
    (∀ c, busy c = true ↔ (s.chan c).state = .armed ∨ (s.chan c).state = .recording ∨ (s.chan c).state = .stopping) →
    ∃ t, exec (.disengage r []) s = .next t ∧
      s.commandEnded t 0x02 r { status := .done, reason := .none
                                result := BitVec.ofNat 32 (([0, 1, 2, 3, 4, 5, 6, 7] : List ChanId).filter busy).length } ∧
      (∀ c, t.chan c = if busy c then { s.chan c with state := .ready, phaseSlots := [] } else s.chan c) ∧
      (∀ h, t.head h = if (s.head h).src = .idle then { s.head h with trailing := none } else
                         { (s.head h).cleared with src := .idle, shown := none, trailing := none }) ∧
      (∀ n, (∀ c, busy c = true → n ∉ (s.chan c).phaseSlots) → (t.slot n).state = (s.slot n).state ∧
        (t.slot n).rfn = (s.slot n).rfn ∧ (t.slot n).locks = (s.slot n).locks ∧
        (s.slotsLawful → s.pinsAgree → (∀ h, (s.head h).src = .idle → (s.head h).shown = none) → (t.slot n).pins = 0)) ∧
      (∀ n c, busy c = true → n ∈ (s.chan c).phaseSlots → (s.slot n).state = .recording → t.slot n = {}) ∧
      t.evt = (([0, 1, 2, 3, 4, 5, 6, 7] : List ChanId).filter busy).foldl
        (fun e c => e.posted .channelStopped .disengage c.val 0 (BitVec.ofNat 32 (s.chan c).nextRfn) s.ref.count) s.evt ∧
      (∀ c, t.mail.chanNotes.get c = s.mail.chanNotes.get c ++ (if busy c then [.stopped .disengage] else [])) ∧
      (∀ h, t.mail.fromHead.get h =
        s.mail.fromHead.get h ++ (if (s.head h).src = .idle then [] else (s.head h).attached.toList)) ∧
      t = { s with
        proc := t.proc, mem := { s.mem.withOwn t.mem with active := false }, chans := t.chans, heads := t.heads
        slots := t.slots, evt := t.evt
        mail := { s.mail with chanNotes := t.mail.chanNotes, fromHead := t.mail.fromHead } }) ∧
  ∀ (s : State) (r : CmdArgs), s.awaits →
    (∀ (c : ChanId) (w : State), exec (.channelTick c) s = .next w →
      exec (.disengage r [.event (.channelTick c)]) s = exec (.disengage r []) w) ∧
    ∀ (p : PortId) (x : KeyMark) (rest : List KeyMark), s.mail.portMarks.get p = x :: rest →
      ∃ t u, exec (.disengage r []) s = .next u ∧
        exec (.disengage r (List.replicate 9 (.move .processor) ++ [.event (.panelMark p)])) s = .next t ∧
        t = { u with
          evt := u.evt.posted .markRefused .state x.head.val (x.kind.code + 256 * p.val)
            (((s.head x.head).shown.map (fun d => BitVec.ofNat 32 d.rfn)).getD 0) s.ref.count
          mail := { u.mail with portMarks := popAt s.mail.portMarks p } }

/-- An own request that times out, or completes with ERROR, leaves the queue, and its requester does what it does for a
completion of its own row with ERROR; a fetch halts the processor. A request not issued has no timeout. A request that leaves
lets the oldest waiting request into the queue. A completion later than 1,000 us after the issue is discarded, and the requester
is told the timeout. That ERROR acts as a timeout does is the model's reading (assumption log 12). That the late completion's
row makes the timeout in its own step, and that a timeout's row moves the count to 1,000 us past the issue, is the model's
choice (assumption log 5). -/
def Obligations.EndedRequestsAreToldToTheirRequester : Prop :=
  ∀ (s : State) (k : Nat) (r : OwnReq), s.mem.ownQ[k]? = some r →
    (r.issued = none → ∀ cause, exec (.ownRequestTimeout k cause) s = .next s) ∧
    (∀ i, r.issued = some i →
      exec (.ownRequestTimeout k .elapsed) s = exec (.ownRequestTimeout k .error) { s with now := max s.now (i + 1000) } ∧
      (r.req = .fetch → s.proc.state = .fetching → ∃ t, exec (.ownRequestTimeout k .error) s = .next t ∧
        t.proc = { s.proc with state := .halted, halted := true, current := none } ∧
        t.evt = s.evt.posted .controlFault .timeout 0 3 s.proc.consumer s.ref.count ∧
        t = { s with proc := t.proc, evt := t.evt, mem := s.mem.leave k }) ∧
      (s.mem.outstanding r.req = some k → ∀ row : Instr,
        (r.req, row) ∈ [(.startCmd, Instr.startUpWriteComplete .cmdConsumer .error),
          (.startEvt, Instr.startUpWriteComplete .evtProducer .error), (.writeBack, Instr.writeBackComplete .error),
          (.consumerWrite, Instr.cmdConsumerWriteComplete .error), (.curve, Instr.curveFetchComplete [] .error),
          (.report, Instr.reportWriteComplete .error), (.eventRecord, Instr.eventRecordWriteComplete .error),
          (.eventProducer, Instr.evtProducerWriteComplete .error)] →
        exec (.ownRequestTimeout k .error) s = exec row s) ∧
      -- a completion that comes later than 1,000 us after the issue is discarded: the request has timed out
      (s.tooLate r.req k → ∀ (row : Instr) (data : List Byte),
        (r.req, row) ∈ [(.startCmd, Instr.startUpWriteComplete .cmdConsumer .good),
          (.startEvt, Instr.startUpWriteComplete .evtProducer .good), (.writeBack, Instr.writeBackComplete .good),
          (.consumerWrite, Instr.cmdConsumerWriteComplete .good), (.curve, Instr.curveFetchComplete data .good),
          (.report, Instr.reportWriteComplete .good), (.eventRecord, Instr.eventRecordWriteComplete .good),
          (.eventProducer, Instr.evtProducerWriteComplete .good)] ∨
          (r.req = .fetch ∧ s.proc.state = .fetching ∧ (recordOf row).isSome = true) →
        exec row s = exec (.ownRequestTimeout k .error) s)) ∧
    (s.mem.ownQ.length ≤ 32 →
      (s.mem.ownWait = [] → s.mem.leave k = { s.mem with ownQ := s.mem.ownQ.eraseIdx k }) ∧
      ∀ w ws, s.mem.ownWait = w :: ws → s.mem.leave k =
        { s.mem with ownQ := s.mem.ownQ.eraseIdx k ++ [{ w with after := s.mem.burstNo }], ownWait := ws })

/-! ## Command ring (chapter 9) -/

/-- A start-up write ends: while the other is outstanding only that is noted; when both have ended RESET_DONE is raised, its
record's write queued at ring place 0, and CONTROL_FAULT posted for each that failed. That its record's write is queued at once
is the model's reading (assumption log 19), and so is the order of the two faults (assumption log 37). Which 32-byte beat
carries a short own write is the model's choice (assumption log 13). -/
def Obligations.StartUpEndsWithResetDone : Prop :=
  ∀ (s : State) (w : StartWrite) (st : Status) (q : Requester) (k : Nat) (u : StartUp),
    (w = .cmdConsumer ∧ q = .startCmd ∧ u = { s.startUp with cmdWait := false, cmdFail := decide (st = .error) } ∨
      w = .evtProducer ∧ q = .startEvt ∧ u = { s.startUp with evtWait := false, evtFail := decide (st = .error) }) →
    s.inTime q k →
    (u.cmdWait = true ∨ u.evtWait = true →
      exec (.startUpWriteComplete w st) s = .next { s with startUp := u, mem := s.mem.leave k }) ∧
    (u.cmdWait = false → u.evtWait = false → ∃ t x e, exec (.startUpWriteComplete w st) s = .next t ∧
      x = { kind := .resetDone, reason := .none, obj := 0, aux := 0, value := 0, tick := s.ref.count
            cls := s.evt.classOf .resetDone } ∧
      e = { s.evt with resetDone := some x, phase := .record .resetDone } ∧
      t.evt = (match u.cmdFail, u.evtFail with
        | false, false => e
        | true, false => e.posted .controlFault .timeout 0 5 0 s.ref.count
        | false, true => e.posted .controlFault .timeout 0 6 0 s.ref.count
        | true, true => (e.posted .controlFault .timeout 0 5 0 s.ref.count).posted .controlFault .timeout 0 6 0 s.ref.count) ∧
      t = { s with
        startUp := u, evt := t.evt
        mem := (s.mem.leave k).queueOwn (.write .eventRecord (s.eventAddr s.evt.producer) (x.bytes s.evt.seq)) })

/-- A CMD_PRODUCER value more than 128 ahead is refused with CONTROL_FAULT; otherwise it becomes the producer value, and an IDLE
or HALTED processor begins to fetch, or is IDLE with nothing pending. An EVT_CONSUMER value more than 511 behind is refused with
CONTROL_FAULT; otherwise it becomes the consumer index, and clears the interrupt flag where it meets the producer index. -/
def Obligations.IndexWordsAreJudgedAndTaken : Prop :=
  ∀ (s : State) (v : Word) (rest : List Word),
    (s.mail.cmdWords = v :: rest →
      (128 < (v - s.proc.consumer).toNat → exec .cmdProducer s = .next
        { s with mail := { s.mail with cmdWords := rest }
                 evt := s.evt.posted .controlFault .badIndex 0 1 v s.ref.count }) ∧
      ((v - s.proc.consumer).toNat ≤ 128 →
        (s.proc.state = .fetching ∨ s.proc.state = .executing ∨ s.proc.state = .writing →
          exec .cmdProducer s = .next
            { s with mail := { s.mail with cmdWords := rest }, proc := { s.proc with producer := v } }) ∧
        (s.proc.state = .idle ∨ s.proc.state = .halted →
          (v = s.proc.consumer → exec .cmdProducer s = .next
            { s with mail := { s.mail with cmdWords := rest }
                     proc := { s.proc with producer := v, state := .idle, current := none
                                           halted := s.proc.halted && decide (s.proc.state = .idle) } }) ∧
          (v ≠ s.proc.consumer → exec .cmdProducer s = .next
            { s with mail := { s.mail with cmdWords := rest }
                     proc := { s.proc with producer := v, state := .fetching, current := none
                                           halted := s.proc.halted && decide (s.proc.state = .idle) }
                     mem := s.mem.queueOwn
                       (.read .fetch (s.control (0x1000 + 32 * (s.proc.consumer.toNat % 128))) 1) })))) ∧
    (s.mail.evtWords = v :: rest →
      (511 < (s.evt.producer - v).toNat → exec .evtConsumer s = .next
        { s with mail := { s.mail with evtWords := rest }
                 evt := s.evt.posted .controlFault .badIndex 0 2 v s.ref.count }) ∧
      ((s.evt.producer - v).toNat ≤ 511 → ∃ t, exec .evtConsumer s = .next t ∧
        t.evt = { s.evt with consumer := v, intFlag := t.evt.intFlag } ∧
        (v = s.evt.producer → t.intN = true) ∧ (v ≠ s.evt.producer → t.intN = s.intN) ∧
        t = { s with mail := { s.mail with evtWords := rest }, evt := t.evt }))

/-- A record of a kind that is no command is refused UNKNOWN_KIND. A write-back that ends raises the consumer index and queues
its write; the end of that write leaves WRITING, for the next fetch or for IDLE. A failure of either posts CONTROL_FAULT and
changes nothing else. Which 32-byte beat carries a short own write is the model's choice (assumption log 13). -/
def Obligations.EveryRecordIsWrittenBackAndConsumed : Prop :=
  (∀ (s : State) (r : CmdArgs) (kind : Byte), s.awaits → kind = 0 ∨ 0x16 < kind.toNat →
    ∃ t, exec (.unknownKind kind r) s = .next t ∧ s.commandEnded t kind r (refusedFor .unknownKind) ∧
      t = { s with proc := t.proc, mem := s.mem.withOwn t.mem }) ∧
  ∀ (s : State) (st : Status) (k : Nat), s.proc.state = .writing →
    (s.inTime .writeBack k → exec (.writeBackComplete st) s = .next
      { s with
        proc := { s.proc with consumer := s.proc.consumer + 1 }
        evt := if st = .error then s.evt.posted .controlFault .timeout 0 4 s.proc.consumer s.ref.count else s.evt
        mem := (s.mem.leave k).queueOwn (.write .consumerWrite (s.control 0x4) (bytes32 (s.proc.consumer + 1))) }) ∧
    (s.inTime .consumerWrite k →
      let pending := (s.proc.producer - s.proc.consumer).toNat
      let evt := if st = .error then s.evt.posted .controlFault .timeout 0 5 s.proc.consumer s.ref.count else s.evt
      (1 ≤ pending → pending ≤ 128 → exec (.cmdConsumerWriteComplete st) s = .next
        { s with
          proc := { s.proc with state := .fetching, current := none }
          evt := evt
          mem := (s.mem.leave k).queueOwn
            (.read .fetch (s.control (0x1000 + 32 * (s.proc.consumer.toNat % 128))) 1) }) ∧
      (pending = 0 ∨ 128 < pending → exec (.cmdConsumerWriteComplete st) s = .next
        { s with proc := { s.proc with state := .idle, current := none }, evt := evt, mem := s.mem.leave k }))

/-! ## Panel ports (chapter 7) -/

/-- PANEL_BIND changes the binding, with a port-lost notice to the head that leaves either port and both accumulators cleared;
PANEL_TIMING fits and sets the timings, with the counts cleared and the qualifications begun again. Both refuse BAD_ARG. That
PANEL_TIMING begins the qualifications again at its own time is the model's choice (assumption log 31). -/
def Obligations.PanelBindAndTimingSetThePort : Prop :=
  ∀ (s : State) (r : CmdArgs), s.awaits →
    (1 < r.target.toNat ∨ (3 < r.a.toNat ∧ r.a ≠ 0xFFFFFFFF) → ∃ t, exec (.panelBind r) s = .next t ∧
      s.commandEnded t 0x12 r (refusedFor .badArg) ∧ t = { s with proc := t.proc, mem := s.mem.withOwn t.mem }) ∧
    (1 < r.target.toNat ∨ 1 < r.c.toNat % 65536 ∨ 1 < r.c.toNat / 65536 → ∃ t, exec (.panelTiming r) s = .next t ∧
      s.commandEnded t 0x14 r (refusedFor .badArg) ∧ t = { s with proc := t.proc, mem := s.mem.withOwn t.mem }) ∧
    ∀ (p q : PortId), r.target.toNat = p.val → q ≠ p →
      (∀ o : Option HeadId, (o = none ∧ r.a = 0xFFFFFFFF ∨ ∃ h : HeadId, o = some h ∧ r.a.toNat = h.val) →
        ∃ t, exec (.panelBind r) s = .next t ∧
          s.commandEnded t 0x12 r { status := .done, reason := .none
                                    result := ((s.port p).binding.map (fun h => BitVec.ofNat 32 h.val)).getD 0xFFFFFFFF } ∧
          (o = (s.port p).binding → t.ports = s.ports ∧ t.mail = s.mail) ∧
          (o ≠ (s.port p).binding →
            t.port p = { s.port p with binding := o, jog := 0 } ∧
            t.mail.portNotes.get p = s.mail.portNotes.get p ++ (s.port p).binding.toList.map PortNote.portLost ∧
            (o = none ∨ o ≠ (s.port q).binding → t.port q = s.port q ∧
              t.mail.portNotes.get q = s.mail.portNotes.get q) ∧
            (∀ h, o = some h → (s.port q).binding = some h → t.port q = { s.port q with binding := none, jog := 0 } ∧
              t.mail.portNotes.get q = s.mail.portNotes.get q ++ [.portLost h])) ∧
          t = { s with proc := t.proc, mem := s.mem.withOwn t.mem, ports := t.ports
                       mail := { s.mail with portNotes := t.mail.portNotes } }) ∧
      (r.c.toNat % 65536 ≤ 1 → r.c.toNat / 65536 ≤ 1 → ∃ t f b, exec (.panelTiming r) s = .next t ∧
        fittedTo 0 255 r.a.toNat f ∧ fittedTo 1 64 r.d.toNat b ∧ (t.port p).quartersPerStep ∈ [1, 2, 4] ∧
        (r.b.toNat ∈ [1, 2, 4] → (t.port p).quartersPerStep = r.b.toNat) ∧ (r.b = 0 → (t.port p).quartersPerStep = 1) ∧
        (2 < r.b.toNat → (t.port p).quartersPerStep = 4) ∧
        s.commandEnded t 0x14 r (doneOrClamped
          (f ≠ r.a.toNat ∨ b ≠ r.d.toNat ∨ (t.port p).quartersPerStep ≠ r.b.toNat) (BitVec.ofNat 32 (s.port p).jogErrors)) ∧
        t.port p = { s.port p with
          filter := f, debounce := b, quartersPerStep := (t.port p).quartersPerStep
          outputUnit := decide (r.c.toNat % 65536 = 1), activeLow := decide (r.c.toNat / 65536 = 1)
          jogErrors := 0, quarters := 0
          cycle := if decide (r.c.toNat / 65536 = 1) = (s.port p).activeLow then (s.port p).cycle else none
          ja := (t.port p).ja, jb := (t.port p).jb, kin := (t.port p).kin, kout := (t.port p).kout, kqk := (t.port p).kqk } ∧
        (t.port p).ja = { (s.port p).ja with
          qual := if (s.port p).ja.level = (s.port p).ja.filtered then none else some s.now } ∧
        (t.port p).jb = { (s.port p).jb with
          qual := if (s.port p).jb.level = (s.port p).jb.filtered then none else some s.now } ∧
        (∀ k, (t.port p).key k = { (s.port p).key k with
          qual := if ((s.port p).key k).pressed = !((s.port p).key k).level then none else some s.now }) ∧
        (∀ d, d ≠ p → t.port d = s.port d) ∧
        t = { s with proc := t.proc, mem := s.mem.withOwn t.mem, ports := t.ports })

/-- PANEL_CURVE queues its read and stays in execution, or is refused BAD_ARG. A GOOD read installs the fitted knots, centre,
dead zone and panel slew and decides the zone; a failed one installs nothing. That its fault carries the command processor's
consumer index is the model's choice (assumption log 38). -/
def Obligations.PanelCurveFetchesAndInstalls : Prop :=
  (∀ (s : State) (r : CmdArgs), s.awaits →
    ((addrArg r).toNat = r.a.toNat + 2 ^ 32 * (r.b.toNat % 256)) ∧
    (1 < r.target.toNat ∨ (addrArg r).toNat % 64 ≠ 0 ∨ 2 ^ 40 < (addrArg r).toNat + 64 →
      ∃ t, exec (.panelCurve r) s = .next t ∧ s.commandEnded t 0x13 r (refusedFor .badArg) ∧
        t = { s with proc := t.proc, mem := s.mem.withOwn t.mem }) ∧
    (r.target.toNat ≤ 1 → (addrArg r).toNat % 64 = 0 → (addrArg r).toNat + 64 ≤ 2 ^ 40 →
      ∃ t, exec (.panelCurve r) s = .next t ∧
        s.commandHeld t 0x13 r [.read .curve (addrArg r) 2] ∧
        t = { s with proc := t.proc, mem := s.mem.withOwn t.mem })) ∧
  ∀ (s : State) (cur : CmdRecord) (k : Nat) (p : PortId) (data : List Byte), s.proc.state = .executing →
    s.proc.current = some cur → s.inTime .curve k → cur.args.target.toNat = p.val → data.length = 64 →
    (∃ t c d w, exec (.curveFetchComplete data .good) s = .next t ∧
      (t.port p).knots.length = 17 ∧
      (∀ i, i < 17 → (∀ j, j ≤ i → min (half data (2 * j)).toNat 2048 ≤ (t.port p).knots.getD i 0) ∧
        ∃ j, j ≤ i ∧ (t.port p).knots.getD i 0 = min (half data (2 * j)).toNat 2048) ∧
      fittedTo 256 767 (half data 0x22).toNat c ∧ fittedTo 0 127 (half data 0x24).toNat d ∧
      fittedTo 1 2048 (half data 0x26).toNat w ∧
      t.port p = { s.port p with
        knots := (t.port p).knots, centre := c, dead := d, panelSlew := w
        outside := !(s.port p).fault && decide (d < (((s.port p).lever : Int) - (c : Int)).natAbs) } ∧
      (∀ q, q ≠ p → t.port q = s.port q) ∧
      s.executionEnded t cur k (doneOrClamped
        ((t.port p).knots ≠ (List.range 17).map (fun i => (half data (2 * i)).toNat) ∨ c ≠ (half data 0x22).toNat ∨
          d ≠ (half data 0x24).toNat ∨ w ≠ (half data 0x26).toNat) 1) ∧
      t = { s with proc := t.proc, mem := s.mem.withOwn t.mem, ports := t.ports }) ∧
    ∃ t, exec (.curveFetchComplete data .error) s = .next t ∧
      s.executionEnded t cur k { status := .done, reason := .none, result := 0 } ∧
      t.evt = s.evt.posted .controlFault .timeout 0 9 s.proc.consumer s.ref.count ∧
      t = { s with proc := t.proc, mem := s.mem.withOwn t.mem, evt := t.evt }

/-- The lever: an inactive edge sets the active time, an active edge closes the open cycle and opens the next. A valid cycle
gives the lever value; unfaulted it decides the zone and tells the bound head of a move outside; faulted it counts toward the
restore. A cycle that is not valid, and the no-edge timer, fault the lever. -/
def Obligations.LeverCyclesAreJudged : Prop :=
  ∀ (s : State) (p : PortId) (level : Bool) (time now : Nat), now = max s.now time →
    (level = (s.port p).lev → exec (.levEdge p level time) s = .next s) ∧
    (level ≠ (s.port p).lev → now ≤ (s.port p).noEdge + 25000 →
      ∃ t, exec (.levEdge p level time) s = .next t ∧ (∀ q, q ≠ p → t.port q = s.port q) ∧
        t = { s with now := now, ports := t.ports, evt := t.evt
                     mail := { s.mail with portNotes := t.mail.portNotes } } ∧
        -- the inactive edge
        (level = (s.port p).activeLow → t.evt = s.evt ∧ t.mail = s.mail ∧
          t.port p = { s.port p with
            lev := level, noEdge := now
            cycle := (s.port p).cycle.map (fun c => { c with active := some (now - c.start) }) }) ∧
        -- an active edge with no open cycle
        (level ≠ (s.port p).activeLow → (s.port p).cycle = none → t.evt = s.evt ∧ t.mail = s.mail ∧
          t.port p = { s.port p with lev := level, noEdge := now, cycle := some { start := now } }) ∧
        ∀ (c : LevCycle) (per act : Nat), level ≠ (s.port p).activeLow → (s.port p).cycle = some c →
          per = now - c.start → act = c.active.getD 0 →
          -- a cycle that is not valid
          (∀ why v, (per < 200 ∨ 10000 < per) ∧ why = Reason.badPeriod ∧ v = per ∨
              200 ≤ per ∧ per ≤ 10000 ∧ (act = 0 ∨ act = per) ∧ why = .badActive ∧ v = act →
            t.mail = s.mail ∧
            ((s.port p).fault = false →
              t.port p = { s.port p with lev := level, noEdge := now, cycle := some { start := now }
                                         fault := true, restore := 0, outside := false } ∧
              t.evt = s.evt.posted .panelFault why p.val 0 (BitVec.ofNat 32 v) s.ref.count) ∧
            ((s.port p).fault = true →
              t.port p = { s.port p with lev := level, noEdge := now, cycle := some { start := now }, restore := 0 } ∧
              t.evt = s.evt)) ∧
          -- a valid cycle
          ∀ (u : Nat) (out : Bool), 200 ≤ per → per ≤ 10000 → act ≠ 0 → act ≠ per → u = min 1023 (1024 * act / per) →
            out = decide ((s.port p).dead < ((u : Int) - ((s.port p).centre : Int)).natAbs) →
            ((s.port p).fault = false →
              t.port p = { s.port p with lev := level, noEdge := now, cycle := some { start := now }
                                         lever := u, outside := out } ∧
              t.evt = s.evt ∧
              t.mail.portNotes.get p = s.mail.portNotes.get p ++
                (if (s.port p).outside = false ∧ out = true then (s.port p).binding.toList.map PortNote.takeover else []) ∧
              ∀ q, q ≠ p → t.mail.portNotes.get q = s.mail.portNotes.get q) ∧
            ((s.port p).fault = true → (s.port p).restore < 3 → t.evt = s.evt ∧ t.mail = s.mail ∧
              t.port p = { s.port p with lev := level, noEdge := now, cycle := some { start := now }
                                         lever := u, restore := (s.port p).restore + 1 }) ∧
            ((s.port p).fault = true → 3 ≤ (s.port p).restore → t.mail = s.mail ∧
              t.port p = { s.port p with lev := level, noEdge := now, cycle := some { start := now }
                                         lever := u, fault := false, restore := 0, outside := out } ∧
              t.evt = s.evt.posted .panelRestored .none p.val 0 (BitVec.ofNat 32 u) s.ref.count)) ∧
    ∃ t due, exec (.noEdgeTimerExpiry p) s = .next t ∧ due = (s.port p).noEdge + 25000 ∧ t.now = max s.now due ∧
      ((s.port p).fault = false →
        t.port p = { s.port p with cycle := none, noEdge := due, fault := true, restore := 0, outside := false } ∧
        t.evt = s.evt.posted .panelFault .noEdge p.val 0 25000 s.ref.count) ∧
      ((s.port p).fault = true → t.port p = { s.port p with cycle := none, noEdge := due, restore := 0 } ∧ t.evt = s.evt) ∧
      (∀ q, q ≠ p → t.port q = s.port q) ∧ t = { s with now := t.now, ports := t.ports, evt := t.evt }

/-- A jog line that leaves its filtered level starts a qualification, and drops it on its return; with F = 0 its filtered level
changes at once. A qualification that completes changes the filtered level, and the decoder counts one quarter, or one error for
a change of both lines; Q quarters of one direction make a step. A key line that leaves the accepted state starts a
qualification, and drops it on its return; a qualification that completes changes the accepted state, and a press on a bound
port sends a mark for its head. That one command carries both jog lines is the model's choice (assumption log 28). -/
def Obligations.JogAndKeyLinesAreQualified : Prop :=
  (∀ (s : State) (p : PortId),
    (∀ ja jb time now, now = max s.now time → 0 < (s.port p).filter →
      (∀ e, (s.port p).ja.qual = some e ∨ (s.port p).jb.qual = some e → now < e + (s.port p).filter) →
      ∃ t, exec (.jogLineChange p ja jb time) s = .next t ∧
        t.port p = { s.port p with ja := (t.port p).ja, jb := (t.port p).jb } ∧
        (t.port p).ja = { level := ja, filtered := (s.port p).ja.filtered
                          qual := if ja = (s.port p).ja.level then (s.port p).ja.qual
                                  else if ja = (s.port p).ja.filtered then none else some now } ∧
        (t.port p).jb = { level := jb, filtered := (s.port p).jb.filtered
                          qual := if jb = (s.port p).jb.level then (s.port p).jb.qual
                                  else if jb = (s.port p).jb.filtered then none else some now } ∧
        (∀ q, q ≠ p → t.port q = s.port q) ∧ t = { s with now := now, ports := t.ports }) ∧
    -- F = 0: the filtered level changes, and the decoder takes the change, at the time of the change
    (∀ (ja jb a b : Bool) (time now turn : Nat), now = max s.now time → (s.port p).filter = 0 →
      (s.port p).ja.qual = none → (s.port p).jb.qual = none →
      a = (if ja = (s.port p).ja.level then (s.port p).ja.filtered else ja) →
      b = (if jb = (s.port p).jb.level then (s.port p).jb.filtered else jb) →
      turn = (jogPlace a b + 4 - jogPlace (s.port p).ja.filtered (s.port p).jb.filtered) % 4 →
      ∃ t, exec (.jogLineChange p ja jb time) s = .next t ∧
        (t.port p).ja = { level := ja, filtered := a, qual := none } ∧
        (t.port p).jb = { level := jb, filtered := b, qual := none } ∧
        t.port p = { s.port p with
          ja := (t.port p).ja, jb := (t.port p).jb, quarters := (t.port p).quarters, jog := (t.port p).jog
          jogErrors := (t.port p).jogErrors } ∧
        (s.port p).turned (t.port p) turn ∧
        (∀ q, q ≠ p → t.port q = s.port q) ∧ t = { s with now := now, ports := t.ports }) ∧
    ∀ (due : Nat) (a b : Bool) (turn : Nat),
      -- `due` is the earlier end of the qualifications in progress; `a`, `b` say which line completes then
      (a = true ↔ (s.port p).ja.qual.map (· + (s.port p).filter) = some due) →
      (b = true ↔ (s.port p).jb.qual.map (· + (s.port p).filter) = some due) → a = true ∨ b = true →
      (∀ e, (s.port p).ja.qual = some e ∨ (s.port p).jb.qual = some e → due ≤ e + (s.port p).filter) →
      turn = (jogPlace (if a then (s.port p).ja.level else (s.port p).ja.filtered)
          (if b then (s.port p).jb.level else (s.port p).jb.filtered) + 4
        - jogPlace (s.port p).ja.filtered (s.port p).jb.filtered) % 4 →
      ∃ t, exec (.jogFilterExpiry p) s = .next t ∧ t.now = max s.now due ∧
        (t.port p).ja = (if a then { (s.port p).ja with filtered := (s.port p).ja.level, qual := none } else (s.port p).ja) ∧
        (t.port p).jb = (if b then { (s.port p).jb with filtered := (s.port p).jb.level, qual := none } else (s.port p).jb) ∧
        t.port p = { s.port p with
          ja := (t.port p).ja, jb := (t.port p).jb, quarters := (t.port p).quarters, jog := (t.port p).jog
          jogErrors := (t.port p).jogErrors } ∧
        (s.port p).turned (t.port p) turn ∧
        (∀ q, q ≠ p → t.port q = s.port q) ∧ t = { s with now := t.now, ports := t.ports }) ∧
  ∀ (s : State) (p : PortId) (k : Key) (kind : MarkKind),
    (k = .kin ∧ kind = .markIn ∨ k = .kout ∧ kind = .markOut ∨ k = .kqk ∧ kind = .markQuick) →
    (∀ level time now, now = max s.now time →
      (∀ e, ((s.port p).key k).qual = some e → now < e + (s.port p).debounce * 1000) →
      ∃ t, exec (.keyLineChange p k level time) s = .next t ∧
        (t.port p).key k = { level := level, pressed := ((s.port p).key k).pressed
                             qual := if level = ((s.port p).key k).level then ((s.port p).key k).qual
                                     else if ((s.port p).key k).pressed = !level then none else some now } ∧
        t.port p = (s.port p).setKey k ((t.port p).key k) ∧ (∀ j, j ≠ k → (t.port p).key j = (s.port p).key j) ∧
        (∀ q, q ≠ p → t.port q = s.port q) ∧ t = { s with now := now, ports := t.ports }) ∧
    ∀ e, ((s.port p).key k).qual = some e → ∃ t, exec (.keyDebounceExpiry p k) s = .next t ∧
      t.now = max s.now (e + (s.port p).debounce * 1000) ∧
      (t.port p).key k = { ((s.port p).key k) with pressed := !((s.port p).key k).level, qual := none } ∧
      t.port p = (s.port p).setKey k ((t.port p).key k) ∧ (∀ j, j ≠ k → (t.port p).key j = (s.port p).key j) ∧
      (∀ q, q ≠ p → t.port q = s.port q) ∧
      (∀ h, ((s.port p).key k).level = false → ((s.port p).key k).pressed = false → (s.port p).binding = some h →
        t.mail = { s.mail with portMarks := pushAt s.mail.portMarks p { head := h, kind := kind } }) ∧
      (((s.port p).key k).level = true ∨ ((s.port p).key k).pressed = true ∨ (s.port p).binding = none → t.mail = s.mail) ∧
      t = { s with now := t.now, ports := t.ports, mail := t.mail }

/-! ## Events and reports (chapter 10) -/

/-- EVENT_MASK: BAD_ARG for a code that is no event kind or no class; otherwise the class is set, OFF raised to LOG for the
three kept kinds, and the result is the class before. Staged records keep the class they were staged with. -/
def Obligations.EventMaskSetsOneClass : Prop :=
  ∀ (s : State) (r : CmdArgs) (i : Nat) (old new : EventClass), s.awaits → s.evt.sound →
    (r.target.toNat = 0 ∨ 20 < r.target.toNat ∨ 2 < r.a.toNat → ∃ t, exec (.eventMask r) s = .next t ∧
      s.commandEnded t 0x15 r (refusedFor .badArg) ∧ t = { s with proc := t.proc, mem := s.mem.withOwn t.mem }) ∧
    (r.target.toNat = i + 1 → i < 20 → r.a.toNat ≤ 2 → s.evt.classes[i]? = some old →
      (i < 3 ∧ r.a.toNat = 0 ∧ new = .log ∨ 3 ≤ i ∧ r.a.toNat = 0 ∧ new = .off ∨ r.a.toNat = 1 ∧ new = .log ∨
        r.a.toNat = 2 ∧ new = .logInt) →
      ∃ t, exec (.eventMask r) s = .next t ∧
        s.commandEnded t 0x15 r (doneOrClamped (i < 3 ∧ r.a.toNat = 0) (BitVec.ofNat 32 old.code)) ∧
        t.evt.classes[i]? = some new ∧ (∀ j, j ≠ i → t.evt.classes[j]? = s.evt.classes[j]?) ∧
        t = { s with proc := t.proc, mem := s.mem.withOwn t.mem, evt := { s.evt with classes := t.evt.classes } })

/-- The event unit begins its oldest staged record: with events counted lost it writes EVENTS_LOST first when two places are
free; with no place free it counts the record lost. A record written takes its place and number, sets the interrupt flag for
LOG_INT and has the producer index written; one that fails is lost, RESET_DONE that fails is written again. A run of failed
EVT_PRODUCER writes posts one CONTROL_FAULT. The linear step of EVENTS_LOST is the model's reading (assumption log 18), and so
is that RESET_DONE's failed write is queued again at once (assumption log 19). Which 32-byte beat carries a short own write is
the model's choice (assumption log 13). -/
def Obligations.EventRecordsAreWrittenInOrder : Prop :=
  (∀ (s : State) (x : Event) (rest : List Event) (free : Nat), s.evt.phase = .idle → s.evt.fifo = x :: rest →
    s.startUp.cmdWait = false → s.startUp.evtWait = false → free = 511 - (s.evt.producer - s.evt.consumer).toNat →
    (s.evt.lost = 0 ∨ s.evt.lostDone = true → 1 ≤ free → exec .eventRecordWrite s = .next
      { s with evt := { s.evt with phase := .record .staged }
               mem := s.mem.queueOwn
                 (.write .eventRecord (s.control (0x2000 + 16 * (s.evt.producer.toNat % 512))) (x.bytes s.evt.seq)) }) ∧
    (0 < s.evt.lost → s.evt.lostDone = false → 2 ≤ free → exec .eventRecordWrite s = .next
      { s with evt := { s.evt with phase := .record (.lost s.evt.lost (s.evt.classOf .eventsLost)) }
               mem := s.mem.queueOwn
                 (.write .eventRecord (s.control (0x2000 + 16 * (s.evt.producer.toNat % 512)))
                   (Event.bytes { kind := .eventsLost, reason := .none, obj := 0, aux := 0
                                  value := BitVec.ofNat 32 s.evt.lost, tick := s.ref.count
                                  cls := s.evt.classOf .eventsLost } s.evt.seq)) }) ∧
    (0 < s.evt.lost ∧ s.evt.lostDone = false ∧ free < 2 ∨ (s.evt.lost = 0 ∨ s.evt.lostDone = true) ∧ free = 0 →
      exec .eventRecordWrite s = .next
        { s with evt := { s.evt with fifo := rest, lost := min (s.evt.lost + 1) 4294967295, lostDone := false } })) ∧
  ∀ (s : State) (k : Nat),
    (∀ w, s.evt.phase = .record w → s.inTime .eventRecord k →
      (∃ t, exec (.eventRecordWriteComplete .good) s = .next t ∧
        t.evt.producer = s.evt.producer + 1 ∧ t.evt.seq = s.evt.seq + 1 ∧ t.evt.phase = .producer ∧
        -- RESET_DONE leaves its place, EVENTS_LOST takes its count off and is behind the record in hand, a staged record leaves
        -- the FIFO; the interrupt flag is set where the record written is of class LOG_INT
        (w = .resetDone → t.evt.resetDone = none ∧ t.evt.fifo = s.evt.fifo ∧ t.evt.lost = s.evt.lost ∧
          t.evt.lostDone = s.evt.lostDone ∧
          (∀ x, s.evt.resetDone = some x → t.evt.intFlag = (s.evt.intFlag || decide (x.cls = .logInt)))) ∧
        (∀ n c, w = .lost n c → t.evt.lost = s.evt.lost - n ∧ t.evt.fifo = s.evt.fifo ∧ t.evt.resetDone = s.evt.resetDone ∧
          t.evt.lostDone = true ∧ t.evt.intFlag = (s.evt.intFlag || decide (c = .logInt))) ∧
        (∀ x rest, w = .staged → s.evt.fifo = x :: rest → t.evt.fifo = rest ∧ t.evt.lost = s.evt.lost ∧
          t.evt.resetDone = s.evt.resetDone ∧ t.evt.lostDone = false ∧
          t.evt.intFlag = (s.evt.intFlag || decide (x.cls = .logInt))) ∧
        t.evt = { s.evt with
          producer := t.evt.producer, seq := t.evt.seq, phase := t.evt.phase, fifo := t.evt.fifo, lost := t.evt.lost
          intFlag := t.evt.intFlag, resetDone := t.evt.resetDone, lostDone := t.evt.lostDone } ∧
        t = { s with evt := t.evt
                     mem := (s.mem.leave k).queueOwn
                       (.write .eventProducer (s.control 0x8) (bytes32 (s.evt.producer + 1))) }) ∧
      (w = .staged → exec (.eventRecordWriteComplete .error) s = .next
        { s with mem := s.mem.leave k
                 evt := { s.evt with fifo := s.evt.fifo.tail, lost := min (s.evt.lost + 1) 4294967295
                                     lostDone := false, phase := .idle } }) ∧
      (∀ n c, w = .lost n c → exec (.eventRecordWriteComplete .error) s = .next
        { s with mem := s.mem.leave k, evt := { s.evt with lostDone := false, phase := .idle } }) ∧
      -- RESET_DONE is retried at the same place with the same number
      (∀ x, w = .resetDone → s.evt.resetDone = some x → exec (.eventRecordWriteComplete .error) s = .next
        { s with mem := (s.mem.leave k).queueOwn
                   (.write .eventRecord (s.control (0x2000 + 16 * (s.evt.producer.toNat % 512))) (x.bytes s.evt.seq)) })) ∧
    (s.evt.phase = .producer → s.inTime .eventProducer k →
      exec (.evtProducerWriteComplete .good) s = .next
        { s with mem := s.mem.leave k, evt := { s.evt with phase := .idle, producerFault := false } } ∧
      (∃ e, exec (.evtProducerWriteComplete .error) s = .next { s with mem := s.mem.leave k, evt := e } ∧
        (s.evt.producerFault = true → e = { s.evt with phase := .idle }) ∧
        (s.evt.producerFault = false → e = EventUnit.posted { s.evt with phase := .idle, producerFault := true }
          .controlFault .timeout 0 6 s.evt.producer s.ref.count)))

/-- STATUS_SNAPSHOT and CLIP_QUERY queue the writes of a report of 512 and of 160 bytes, with the fields of 11.6, and stay in
execution, or are refused. The parts of a snapshot are read one by one, and another block's event may fall between them; what
may fall there is the operand (assumption log 26). The end of the last write completes the command, with result 1, or 0 after a
failure. That a failure is posted once, however many writes fail, is the model's reading (assumption log 20), and so is the
consumer index it carries (assumption log 38). -/
def Obligations.ReportsAreWrittenAndAnswered : Prop :=
  (∀ (s : State) (r : CmdArgs), s.awaits →
    ((addrArg r).toNat % 64 ≠ 0 ∨ 2 ^ 40 < (addrArg r).toNat + 512 → ∃ t, exec (.statusSnapshot r [] []) s = .next t ∧
      s.commandEnded t 0x16 r (refusedFor .badArg) ∧ t = { s with proc := t.proc, mem := s.mem.withOwn t.mem }) ∧
    ((addrArg r).toNat % 64 = 0 → (addrArg r).toNat + 512 ≤ 2 ^ 40 → ∃ t, exec (.statusSnapshot r [] []) s = .next t ∧
      snapshotFields (fun _ => t) t.snapshotBytes ∧ s.commandHeld t 0x16 r (reportRequests (addrArg r) t.snapshotBytes) ∧
      t = { s with proc := t.proc, mem := s.mem.withOwn t.mem }) ∧
    -- an event of another block after some of the parts have been read
    (∀ (ps : List SnapPart) (e : BlockEvent), (addrArg r).toNat % 64 = 0 → (addrArg r).toNat + 512 ≤ 2 ^ 40 →
      ∃ u, s.commandHeld u 0x16 r [] ∧ u = { s with proc := u.proc, mem := s.mem.withOwn u.mem } ∧
        ∀ (v : State) (seen : SnapPart → State), takeAlone (ps.length + 3) e u = some v →
          (∀ p, seen p = if p ∈ ps then u else v) →
          snapshotFields seen (snapshotOf seen) ∧
          exec (.statusSnapshot r ps (List.replicate ps.length (.move .processor) ++ [.event e])) s = .next
            { v with mem := (reportRequests (addrArg r) (snapshotOf seen)).foldl MemPath.queueOwn v.mem }) ∧
    (∀ why, (255 < r.target.toNat ∨ (addrArg r).toNat % 64 ≠ 0 ∨ 2 ^ 40 < (addrArg r).toNat + 160) ∧ why = .badArg ∨
        (r.target.toNat ≤ 255 ∧ (addrArg r).toNat % 64 = 0 ∧ (addrArg r).toNat + 160 ≤ 2 ^ 40 ∧
          (s.clip r.target.toNat).state = .free) ∧ why = .noClip →
      ∃ t, exec (.clipQuery r) s = .next t ∧ s.commandEnded t 0x11 r (refusedFor why) ∧
        t = { s with proc := t.proc, mem := s.mem.withOwn t.mem }) ∧
    (∀ k, r.target.toNat = k → k ≤ 255 → (addrArg r).toNat % 64 = 0 → (addrArg r).toNat + 160 ≤ 2 ^ 40 →
      (s.clip k).state ≠ .free → (s.clip k).extents.length ≤ 16 → ∃ t, exec (.clipQuery r) s = .next t ∧
        queryFields (s.clip k) k ((s.clip k).bytes k) ∧ s.commandHeld t 0x11 r (reportRequests (addrArg r) ((s.clip k).bytes k)) ∧
        t = { s with proc := t.proc, mem := s.mem.withOwn t.mem })) ∧
  ∀ (s : State) (cur : CmdRecord) (k : Nat) (st : Status), s.proc.state = .executing → s.proc.current = some cur →
    s.inTime .report k → ∃ t failed, exec (.reportWriteComplete st) s = .next t ∧
      failed = (s.proc.reportFailed || decide (st = .error)) ∧
      t.evt = (if st = .error ∧ s.proc.reportFailed = false then
        s.evt.posted .controlFault .timeout 0 (if cur.kind = 0x11 then 8 else 7) s.proc.consumer s.ref.count else s.evt) ∧
      ((∃ x ∈ (s.mem.leave k).ownQ ++ (s.mem.leave k).ownWait, x.req = .report) →
        t = { s with evt := t.evt, mem := s.mem.leave k, proc := { s.proc with reportFailed := failed } }) ∧
      ((∀ x ∈ (s.mem.leave k).ownQ ++ (s.mem.leave k).ownWait, x.req ≠ .report) →
        s.executionEnded t cur k { status := .done, reason := .none, result := if failed then 0 else 1 } ∧
        t = { s with proc := t.proc, mem := s.mem.withOwn t.mem, evt := t.evt })

/-! ## Record formats (chapter 11) -/

/-- The record that software writes for a command is read back as that command, with every field at every value: for each row
that a record of the command ring brings, an unknown kind's among them. -/
def Obligations.CommandRecordsReadBackAsWritten : Prop :=
  ∀ (i : Instr) (k : Byte) (r : CmdArgs), i.wf = true → recordOf i = some (k, r) →
    ∃ bs, encodeRecord i = some bs ∧ bs.length = 32 ∧ decodeRecord bs = some i ∧ bs.getD 0 0 = k ∧ bs.getD 3 0 = r.flags ∧
      bs.getD 4 0 = BitVec.ofNat 8 r.tag.toNat ∧ bs.getD 5 0 = BitVec.ofNat 8 (r.tag.toNat / 256) ∧
      bs.getD 6 0 = BitVec.ofNat 8 r.target.toNat ∧ bs.getD 7 0 = BitVec.ofNat 8 (r.target.toNat / 256) ∧
      ∀ j, j < 4 →
        bs.getD (8 + j) 0 = BitVec.ofNat 8 (r.a.toNat / 256 ^ j) ∧ bs.getD (12 + j) 0 = BitVec.ofNat 8 (r.b.toNat / 256 ^ j) ∧
        bs.getD (16 + j) 0 = BitVec.ofNat 8 (r.c.toNat / 256 ^ j) ∧
        bs.getD (20 + j) 0 = BitVec.ofNat 8 (r.d.toNat / 256 ^ j)
end

