-- ==== Sys2Proof/Laws/State.lean ====
section
/-! SUPPORT. State.lean: one lemma per field and per reader for every named update of State, so that no proof unfolds one. -/

namespace Sys2Proof.Machine

@[simp] theorem State.setChan_pending (s : State) (c : ChanId) (x : Channel) : (s.setChan c x).pending = s.pending := rfl
@[simp] theorem State.setChan_now (s : State) (c : ChanId) (x : Channel) : (s.setChan c x).now = s.now := rfl
@[simp] theorem State.setChan_cbsel (s : State) (c : ChanId) (x : Channel) : (s.setChan c x).cbsel = s.cbsel := rfl
@[simp] theorem State.setChan_startUp (s : State) (c : ChanId) (x : Channel) : (s.setChan c x).startUp = s.startUp := rfl
@[simp] theorem State.setChan_mem (s : State) (c : ChanId) (x : Channel) : (s.setChan c x).mem = s.mem := rfl
@[simp] theorem State.setChan_slots (s : State) (c : ChanId) (x : Channel) : (s.setChan c x).slots = s.slots := rfl
@[simp] theorem State.setChan_index (s : State) (c : ChanId) (x : Channel) : (s.setChan c x).index = s.index := rfl
@[simp] theorem State.setChan_chans (s : State) (c : ChanId) (x : Channel) : (s.setChan c x).chans = s.chans.set c.val x c.isLt := rfl
@[simp] theorem State.setChan_heads (s : State) (c : ChanId) (x : Channel) : (s.setChan c x).heads = s.heads := rfl
@[simp] theorem State.setChan_clips (s : State) (c : ChanId) (x : Channel) : (s.setChan c x).clips = s.clips := rfl
@[simp] theorem State.setChan_preRoll (s : State) (c : ChanId) (x : Channel) : (s.setChan c x).preRoll = s.preRoll := rfl
@[simp] theorem State.setChan_postRoll (s : State) (c : ChanId) (x : Channel) : (s.setChan c x).postRoll = s.postRoll := rfl
@[simp] theorem State.setChan_ref (s : State) (c : ChanId) (x : Channel) : (s.setChan c x).ref = s.ref := rfl
@[simp] theorem State.setChan_ports (s : State) (c : ChanId) (x : Channel) : (s.setChan c x).ports = s.ports := rfl
@[simp] theorem State.setChan_proc (s : State) (c : ChanId) (x : Channel) : (s.setChan c x).proc = s.proc := rfl
@[simp] theorem State.setChan_evt (s : State) (c : ChanId) (x : Channel) : (s.setChan c x).evt = s.evt := rfl
@[simp] theorem State.setChan_mail (s : State) (c : ChanId) (x : Channel) : (s.setChan c x).mail = s.mail := rfl
@[simp] theorem State.setChan_head (s : State) (c : ChanId) (x : Channel) (j : HeadId) : (s.setChan c x).head j = s.head j := rfl
@[simp] theorem State.setChan_port (s : State) (c : ChanId) (x : Channel) (j : PortId) : (s.setChan c x).port j = s.port j := rfl
@[simp] theorem State.setChan_slot (s : State) (c : ChanId) (x : Channel) (j : Nat) : (s.setChan c x).slot j = s.slot j := rfl
@[simp] theorem State.setChan_entry (s : State) (c : ChanId) (x : Channel) (j : Nat) : (s.setChan c x).entry j = s.entry j := rfl
@[simp] theorem State.setChan_clip (s : State) (c : ChanId) (x : Channel) (j : Nat) : (s.setChan c x).clip j = s.clip j := rfl

@[simp] theorem State.setHead_pending (s : State) (h : HeadId) (x : Head) : (s.setHead h x).pending = s.pending := rfl
@[simp] theorem State.setHead_now (s : State) (h : HeadId) (x : Head) : (s.setHead h x).now = s.now := rfl
@[simp] theorem State.setHead_cbsel (s : State) (h : HeadId) (x : Head) : (s.setHead h x).cbsel = s.cbsel := rfl
@[simp] theorem State.setHead_startUp (s : State) (h : HeadId) (x : Head) : (s.setHead h x).startUp = s.startUp := rfl
@[simp] theorem State.setHead_mem (s : State) (h : HeadId) (x : Head) : (s.setHead h x).mem = s.mem := rfl
@[simp] theorem State.setHead_slots (s : State) (h : HeadId) (x : Head) : (s.setHead h x).slots = s.slots := rfl
@[simp] theorem State.setHead_index (s : State) (h : HeadId) (x : Head) : (s.setHead h x).index = s.index := rfl
@[simp] theorem State.setHead_chans (s : State) (h : HeadId) (x : Head) : (s.setHead h x).chans = s.chans := rfl
@[simp] theorem State.setHead_heads (s : State) (h : HeadId) (x : Head) : (s.setHead h x).heads = s.heads.set h.val x h.isLt := rfl
@[simp] theorem State.setHead_clips (s : State) (h : HeadId) (x : Head) : (s.setHead h x).clips = s.clips := rfl
@[simp] theorem State.setHead_preRoll (s : State) (h : HeadId) (x : Head) : (s.setHead h x).preRoll = s.preRoll := rfl
@[simp] theorem State.setHead_postRoll (s : State) (h : HeadId) (x : Head) : (s.setHead h x).postRoll = s.postRoll := rfl
@[simp] theorem State.setHead_ref (s : State) (h : HeadId) (x : Head) : (s.setHead h x).ref = s.ref := rfl
@[simp] theorem State.setHead_ports (s : State) (h : HeadId) (x : Head) : (s.setHead h x).ports = s.ports := rfl
@[simp] theorem State.setHead_proc (s : State) (h : HeadId) (x : Head) : (s.setHead h x).proc = s.proc := rfl
@[simp] theorem State.setHead_evt (s : State) (h : HeadId) (x : Head) : (s.setHead h x).evt = s.evt := rfl
@[simp] theorem State.setHead_mail (s : State) (h : HeadId) (x : Head) : (s.setHead h x).mail = s.mail := rfl
@[simp] theorem State.setHead_chan (s : State) (h : HeadId) (x : Head) (j : ChanId) : (s.setHead h x).chan j = s.chan j := rfl
@[simp] theorem State.setHead_port (s : State) (h : HeadId) (x : Head) (j : PortId) : (s.setHead h x).port j = s.port j := rfl
@[simp] theorem State.setHead_slot (s : State) (h : HeadId) (x : Head) (j : Nat) : (s.setHead h x).slot j = s.slot j := rfl
@[simp] theorem State.setHead_entry (s : State) (h : HeadId) (x : Head) (j : Nat) : (s.setHead h x).entry j = s.entry j := rfl
@[simp] theorem State.setHead_clip (s : State) (h : HeadId) (x : Head) (j : Nat) : (s.setHead h x).clip j = s.clip j := rfl

@[simp] theorem State.setPort_pending (s : State) (p : PortId) (x : Port) : (s.setPort p x).pending = s.pending := rfl
@[simp] theorem State.setPort_now (s : State) (p : PortId) (x : Port) : (s.setPort p x).now = s.now := rfl
@[simp] theorem State.setPort_cbsel (s : State) (p : PortId) (x : Port) : (s.setPort p x).cbsel = s.cbsel := rfl
@[simp] theorem State.setPort_startUp (s : State) (p : PortId) (x : Port) : (s.setPort p x).startUp = s.startUp := rfl
@[simp] theorem State.setPort_mem (s : State) (p : PortId) (x : Port) : (s.setPort p x).mem = s.mem := rfl
@[simp] theorem State.setPort_slots (s : State) (p : PortId) (x : Port) : (s.setPort p x).slots = s.slots := rfl
@[simp] theorem State.setPort_index (s : State) (p : PortId) (x : Port) : (s.setPort p x).index = s.index := rfl
@[simp] theorem State.setPort_chans (s : State) (p : PortId) (x : Port) : (s.setPort p x).chans = s.chans := rfl
@[simp] theorem State.setPort_heads (s : State) (p : PortId) (x : Port) : (s.setPort p x).heads = s.heads := rfl
@[simp] theorem State.setPort_clips (s : State) (p : PortId) (x : Port) : (s.setPort p x).clips = s.clips := rfl
@[simp] theorem State.setPort_preRoll (s : State) (p : PortId) (x : Port) : (s.setPort p x).preRoll = s.preRoll := rfl
@[simp] theorem State.setPort_postRoll (s : State) (p : PortId) (x : Port) : (s.setPort p x).postRoll = s.postRoll := rfl
@[simp] theorem State.setPort_ref (s : State) (p : PortId) (x : Port) : (s.setPort p x).ref = s.ref := rfl
@[simp] theorem State.setPort_ports (s : State) (p : PortId) (x : Port) : (s.setPort p x).ports = s.ports.set p.val x p.isLt := rfl
@[simp] theorem State.setPort_proc (s : State) (p : PortId) (x : Port) : (s.setPort p x).proc = s.proc := rfl
@[simp] theorem State.setPort_evt (s : State) (p : PortId) (x : Port) : (s.setPort p x).evt = s.evt := rfl
@[simp] theorem State.setPort_mail (s : State) (p : PortId) (x : Port) : (s.setPort p x).mail = s.mail := rfl
@[simp] theorem State.setPort_chan (s : State) (p : PortId) (x : Port) (j : ChanId) : (s.setPort p x).chan j = s.chan j := rfl
@[simp] theorem State.setPort_head (s : State) (p : PortId) (x : Port) (j : HeadId) : (s.setPort p x).head j = s.head j := rfl
@[simp] theorem State.setPort_slot (s : State) (p : PortId) (x : Port) (j : Nat) : (s.setPort p x).slot j = s.slot j := rfl
@[simp] theorem State.setPort_entry (s : State) (p : PortId) (x : Port) (j : Nat) : (s.setPort p x).entry j = s.entry j := rfl
@[simp] theorem State.setPort_clip (s : State) (p : PortId) (x : Port) (j : Nat) : (s.setPort p x).clip j = s.clip j := rfl

@[simp] theorem State.setSlot_pending (s : State) (n : Nat) (x : Slot) : (s.setSlot n x).pending = s.pending := rfl
@[simp] theorem State.setSlot_now (s : State) (n : Nat) (x : Slot) : (s.setSlot n x).now = s.now := rfl
@[simp] theorem State.setSlot_cbsel (s : State) (n : Nat) (x : Slot) : (s.setSlot n x).cbsel = s.cbsel := rfl
@[simp] theorem State.setSlot_startUp (s : State) (n : Nat) (x : Slot) : (s.setSlot n x).startUp = s.startUp := rfl
@[simp] theorem State.setSlot_mem (s : State) (n : Nat) (x : Slot) : (s.setSlot n x).mem = s.mem := rfl
@[simp] theorem State.setSlot_slots (s : State) (n : Nat) (x : Slot) : (s.setSlot n x).slots = Tbl.write {} s.slots n x := rfl
@[simp] theorem State.setSlot_index (s : State) (n : Nat) (x : Slot) : (s.setSlot n x).index = s.index := rfl
@[simp] theorem State.setSlot_chans (s : State) (n : Nat) (x : Slot) : (s.setSlot n x).chans = s.chans := rfl
@[simp] theorem State.setSlot_heads (s : State) (n : Nat) (x : Slot) : (s.setSlot n x).heads = s.heads := rfl
@[simp] theorem State.setSlot_clips (s : State) (n : Nat) (x : Slot) : (s.setSlot n x).clips = s.clips := rfl
@[simp] theorem State.setSlot_preRoll (s : State) (n : Nat) (x : Slot) : (s.setSlot n x).preRoll = s.preRoll := rfl
@[simp] theorem State.setSlot_postRoll (s : State) (n : Nat) (x : Slot) : (s.setSlot n x).postRoll = s.postRoll := rfl
@[simp] theorem State.setSlot_ref (s : State) (n : Nat) (x : Slot) : (s.setSlot n x).ref = s.ref := rfl
@[simp] theorem State.setSlot_ports (s : State) (n : Nat) (x : Slot) : (s.setSlot n x).ports = s.ports := rfl
@[simp] theorem State.setSlot_proc (s : State) (n : Nat) (x : Slot) : (s.setSlot n x).proc = s.proc := rfl
@[simp] theorem State.setSlot_evt (s : State) (n : Nat) (x : Slot) : (s.setSlot n x).evt = s.evt := rfl
@[simp] theorem State.setSlot_mail (s : State) (n : Nat) (x : Slot) : (s.setSlot n x).mail = s.mail := rfl
@[simp] theorem State.setSlot_chan (s : State) (n : Nat) (x : Slot) (j : ChanId) : (s.setSlot n x).chan j = s.chan j := rfl
@[simp] theorem State.setSlot_head (s : State) (n : Nat) (x : Slot) (j : HeadId) : (s.setSlot n x).head j = s.head j := rfl
@[simp] theorem State.setSlot_port (s : State) (n : Nat) (x : Slot) (j : PortId) : (s.setSlot n x).port j = s.port j := rfl
@[simp] theorem State.setSlot_entry (s : State) (n : Nat) (x : Slot) (j : Nat) : (s.setSlot n x).entry j = s.entry j := rfl
@[simp] theorem State.setSlot_clip (s : State) (n : Nat) (x : Slot) (j : Nat) : (s.setSlot n x).clip j = s.clip j := rfl

@[simp] theorem State.setEntry_pending (s : State) (i : Nat) (x : IndexEntry) : (s.setEntry i x).pending = s.pending := rfl
@[simp] theorem State.setEntry_now (s : State) (i : Nat) (x : IndexEntry) : (s.setEntry i x).now = s.now := rfl
@[simp] theorem State.setEntry_cbsel (s : State) (i : Nat) (x : IndexEntry) : (s.setEntry i x).cbsel = s.cbsel := rfl
@[simp] theorem State.setEntry_startUp (s : State) (i : Nat) (x : IndexEntry) : (s.setEntry i x).startUp = s.startUp := rfl
@[simp] theorem State.setEntry_mem (s : State) (i : Nat) (x : IndexEntry) : (s.setEntry i x).mem = s.mem := rfl
@[simp] theorem State.setEntry_slots (s : State) (i : Nat) (x : IndexEntry) : (s.setEntry i x).slots = s.slots := rfl
@[simp] theorem State.setEntry_index (s : State) (i : Nat) (x : IndexEntry) : (s.setEntry i x).index = Tbl.write {} s.index i x := rfl
@[simp] theorem State.setEntry_chans (s : State) (i : Nat) (x : IndexEntry) : (s.setEntry i x).chans = s.chans := rfl
@[simp] theorem State.setEntry_heads (s : State) (i : Nat) (x : IndexEntry) : (s.setEntry i x).heads = s.heads := rfl
@[simp] theorem State.setEntry_clips (s : State) (i : Nat) (x : IndexEntry) : (s.setEntry i x).clips = s.clips := rfl
@[simp] theorem State.setEntry_preRoll (s : State) (i : Nat) (x : IndexEntry) : (s.setEntry i x).preRoll = s.preRoll := rfl
@[simp] theorem State.setEntry_postRoll (s : State) (i : Nat) (x : IndexEntry) : (s.setEntry i x).postRoll = s.postRoll := rfl
@[simp] theorem State.setEntry_ref (s : State) (i : Nat) (x : IndexEntry) : (s.setEntry i x).ref = s.ref := rfl
@[simp] theorem State.setEntry_ports (s : State) (i : Nat) (x : IndexEntry) : (s.setEntry i x).ports = s.ports := rfl
@[simp] theorem State.setEntry_proc (s : State) (i : Nat) (x : IndexEntry) : (s.setEntry i x).proc = s.proc := rfl
@[simp] theorem State.setEntry_evt (s : State) (i : Nat) (x : IndexEntry) : (s.setEntry i x).evt = s.evt := rfl
@[simp] theorem State.setEntry_mail (s : State) (i : Nat) (x : IndexEntry) : (s.setEntry i x).mail = s.mail := rfl
@[simp] theorem State.setEntry_chan (s : State) (i : Nat) (x : IndexEntry) (j : ChanId) : (s.setEntry i x).chan j = s.chan j := rfl
@[simp] theorem State.setEntry_head (s : State) (i : Nat) (x : IndexEntry) (j : HeadId) : (s.setEntry i x).head j = s.head j := rfl
@[simp] theorem State.setEntry_port (s : State) (i : Nat) (x : IndexEntry) (j : PortId) : (s.setEntry i x).port j = s.port j := rfl
@[simp] theorem State.setEntry_slot (s : State) (i : Nat) (x : IndexEntry) (j : Nat) : (s.setEntry i x).slot j = s.slot j := rfl
@[simp] theorem State.setEntry_clip (s : State) (i : Nat) (x : IndexEntry) (j : Nat) : (s.setEntry i x).clip j = s.clip j := rfl

@[simp] theorem State.setClip_pending (s : State) (k : Nat) (x : Clip) : (s.setClip k x).pending = s.pending := rfl
@[simp] theorem State.setClip_now (s : State) (k : Nat) (x : Clip) : (s.setClip k x).now = s.now := rfl
@[simp] theorem State.setClip_cbsel (s : State) (k : Nat) (x : Clip) : (s.setClip k x).cbsel = s.cbsel := rfl
@[simp] theorem State.setClip_startUp (s : State) (k : Nat) (x : Clip) : (s.setClip k x).startUp = s.startUp := rfl
@[simp] theorem State.setClip_mem (s : State) (k : Nat) (x : Clip) : (s.setClip k x).mem = s.mem := rfl
@[simp] theorem State.setClip_slots (s : State) (k : Nat) (x : Clip) : (s.setClip k x).slots = s.slots := rfl
@[simp] theorem State.setClip_index (s : State) (k : Nat) (x : Clip) : (s.setClip k x).index = s.index := rfl
@[simp] theorem State.setClip_chans (s : State) (k : Nat) (x : Clip) : (s.setClip k x).chans = s.chans := rfl
@[simp] theorem State.setClip_heads (s : State) (k : Nat) (x : Clip) : (s.setClip k x).heads = s.heads := rfl
@[simp] theorem State.setClip_clips (s : State) (k : Nat) (x : Clip) : (s.setClip k x).clips = Tbl.write {} s.clips k x := rfl
@[simp] theorem State.setClip_preRoll (s : State) (k : Nat) (x : Clip) : (s.setClip k x).preRoll = s.preRoll := rfl
@[simp] theorem State.setClip_postRoll (s : State) (k : Nat) (x : Clip) : (s.setClip k x).postRoll = s.postRoll := rfl
@[simp] theorem State.setClip_ref (s : State) (k : Nat) (x : Clip) : (s.setClip k x).ref = s.ref := rfl
@[simp] theorem State.setClip_ports (s : State) (k : Nat) (x : Clip) : (s.setClip k x).ports = s.ports := rfl
@[simp] theorem State.setClip_proc (s : State) (k : Nat) (x : Clip) : (s.setClip k x).proc = s.proc := rfl
@[simp] theorem State.setClip_evt (s : State) (k : Nat) (x : Clip) : (s.setClip k x).evt = s.evt := rfl
@[simp] theorem State.setClip_mail (s : State) (k : Nat) (x : Clip) : (s.setClip k x).mail = s.mail := rfl
@[simp] theorem State.setClip_chan (s : State) (k : Nat) (x : Clip) (j : ChanId) : (s.setClip k x).chan j = s.chan j := rfl
@[simp] theorem State.setClip_head (s : State) (k : Nat) (x : Clip) (j : HeadId) : (s.setClip k x).head j = s.head j := rfl
@[simp] theorem State.setClip_port (s : State) (k : Nat) (x : Clip) (j : PortId) : (s.setClip k x).port j = s.port j := rfl
@[simp] theorem State.setClip_slot (s : State) (k : Nat) (x : Clip) (j : Nat) : (s.setClip k x).slot j = s.slot j := rfl
@[simp] theorem State.setClip_entry (s : State) (k : Nat) (x : Clip) (j : Nat) : (s.setClip k x).entry j = s.entry j := rfl

@[simp] theorem State.setMem_pending (s : State) (m : MemPath) : (s.setMem m).pending = s.pending := rfl
@[simp] theorem State.setMem_now (s : State) (m : MemPath) : (s.setMem m).now = s.now := rfl
@[simp] theorem State.setMem_cbsel (s : State) (m : MemPath) : (s.setMem m).cbsel = s.cbsel := rfl
@[simp] theorem State.setMem_startUp (s : State) (m : MemPath) : (s.setMem m).startUp = s.startUp := rfl
@[simp] theorem State.setMem_mem (s : State) (m : MemPath) : (s.setMem m).mem = m := rfl
@[simp] theorem State.setMem_slots (s : State) (m : MemPath) : (s.setMem m).slots = s.slots := rfl
@[simp] theorem State.setMem_index (s : State) (m : MemPath) : (s.setMem m).index = s.index := rfl
@[simp] theorem State.setMem_chans (s : State) (m : MemPath) : (s.setMem m).chans = s.chans := rfl
@[simp] theorem State.setMem_heads (s : State) (m : MemPath) : (s.setMem m).heads = s.heads := rfl
@[simp] theorem State.setMem_clips (s : State) (m : MemPath) : (s.setMem m).clips = s.clips := rfl
@[simp] theorem State.setMem_preRoll (s : State) (m : MemPath) : (s.setMem m).preRoll = s.preRoll := rfl
@[simp] theorem State.setMem_postRoll (s : State) (m : MemPath) : (s.setMem m).postRoll = s.postRoll := rfl
@[simp] theorem State.setMem_ref (s : State) (m : MemPath) : (s.setMem m).ref = s.ref := rfl
@[simp] theorem State.setMem_ports (s : State) (m : MemPath) : (s.setMem m).ports = s.ports := rfl
@[simp] theorem State.setMem_proc (s : State) (m : MemPath) : (s.setMem m).proc = s.proc := rfl
@[simp] theorem State.setMem_evt (s : State) (m : MemPath) : (s.setMem m).evt = s.evt := rfl
@[simp] theorem State.setMem_mail (s : State) (m : MemPath) : (s.setMem m).mail = s.mail := rfl
@[simp] theorem State.setMem_chan (s : State) (m : MemPath) (j : ChanId) : (s.setMem m).chan j = s.chan j := rfl
@[simp] theorem State.setMem_head (s : State) (m : MemPath) (j : HeadId) : (s.setMem m).head j = s.head j := rfl
@[simp] theorem State.setMem_port (s : State) (m : MemPath) (j : PortId) : (s.setMem m).port j = s.port j := rfl
@[simp] theorem State.setMem_slot (s : State) (m : MemPath) (j : Nat) : (s.setMem m).slot j = s.slot j := rfl
@[simp] theorem State.setMem_entry (s : State) (m : MemPath) (j : Nat) : (s.setMem m).entry j = s.entry j := rfl
@[simp] theorem State.setMem_clip (s : State) (m : MemPath) (j : Nat) : (s.setMem m).clip j = s.clip j := rfl

@[simp] theorem State.setRef_pending (s : State) (r : Ref) : (s.setRef r).pending = s.pending := rfl
@[simp] theorem State.setRef_now (s : State) (r : Ref) : (s.setRef r).now = s.now := rfl
@[simp] theorem State.setRef_cbsel (s : State) (r : Ref) : (s.setRef r).cbsel = s.cbsel := rfl
@[simp] theorem State.setRef_startUp (s : State) (r : Ref) : (s.setRef r).startUp = s.startUp := rfl
@[simp] theorem State.setRef_mem (s : State) (r : Ref) : (s.setRef r).mem = s.mem := rfl
@[simp] theorem State.setRef_slots (s : State) (r : Ref) : (s.setRef r).slots = s.slots := rfl
@[simp] theorem State.setRef_index (s : State) (r : Ref) : (s.setRef r).index = s.index := rfl
@[simp] theorem State.setRef_chans (s : State) (r : Ref) : (s.setRef r).chans = s.chans := rfl
@[simp] theorem State.setRef_heads (s : State) (r : Ref) : (s.setRef r).heads = s.heads := rfl
@[simp] theorem State.setRef_clips (s : State) (r : Ref) : (s.setRef r).clips = s.clips := rfl
@[simp] theorem State.setRef_preRoll (s : State) (r : Ref) : (s.setRef r).preRoll = s.preRoll := rfl
@[simp] theorem State.setRef_postRoll (s : State) (r : Ref) : (s.setRef r).postRoll = s.postRoll := rfl
@[simp] theorem State.setRef_ref (s : State) (r : Ref) : (s.setRef r).ref = r := rfl
@[simp] theorem State.setRef_ports (s : State) (r : Ref) : (s.setRef r).ports = s.ports := rfl
@[simp] theorem State.setRef_proc (s : State) (r : Ref) : (s.setRef r).proc = s.proc := rfl
@[simp] theorem State.setRef_evt (s : State) (r : Ref) : (s.setRef r).evt = s.evt := rfl
@[simp] theorem State.setRef_mail (s : State) (r : Ref) : (s.setRef r).mail = s.mail := rfl
@[simp] theorem State.setRef_chan (s : State) (r : Ref) (j : ChanId) : (s.setRef r).chan j = s.chan j := rfl
@[simp] theorem State.setRef_head (s : State) (r : Ref) (j : HeadId) : (s.setRef r).head j = s.head j := rfl
@[simp] theorem State.setRef_port (s : State) (r : Ref) (j : PortId) : (s.setRef r).port j = s.port j := rfl
@[simp] theorem State.setRef_slot (s : State) (r : Ref) (j : Nat) : (s.setRef r).slot j = s.slot j := rfl
@[simp] theorem State.setRef_entry (s : State) (r : Ref) (j : Nat) : (s.setRef r).entry j = s.entry j := rfl
@[simp] theorem State.setRef_clip (s : State) (r : Ref) (j : Nat) : (s.setRef r).clip j = s.clip j := rfl

@[simp] theorem State.setProc_pending (s : State) (p : Proc) : (s.setProc p).pending = s.pending := rfl
@[simp] theorem State.setProc_now (s : State) (p : Proc) : (s.setProc p).now = s.now := rfl
@[simp] theorem State.setProc_cbsel (s : State) (p : Proc) : (s.setProc p).cbsel = s.cbsel := rfl
@[simp] theorem State.setProc_startUp (s : State) (p : Proc) : (s.setProc p).startUp = s.startUp := rfl
@[simp] theorem State.setProc_mem (s : State) (p : Proc) : (s.setProc p).mem = s.mem := rfl
@[simp] theorem State.setProc_slots (s : State) (p : Proc) : (s.setProc p).slots = s.slots := rfl
@[simp] theorem State.setProc_index (s : State) (p : Proc) : (s.setProc p).index = s.index := rfl
@[simp] theorem State.setProc_chans (s : State) (p : Proc) : (s.setProc p).chans = s.chans := rfl
@[simp] theorem State.setProc_heads (s : State) (p : Proc) : (s.setProc p).heads = s.heads := rfl
@[simp] theorem State.setProc_clips (s : State) (p : Proc) : (s.setProc p).clips = s.clips := rfl
@[simp] theorem State.setProc_preRoll (s : State) (p : Proc) : (s.setProc p).preRoll = s.preRoll := rfl
@[simp] theorem State.setProc_postRoll (s : State) (p : Proc) : (s.setProc p).postRoll = s.postRoll := rfl
@[simp] theorem State.setProc_ref (s : State) (p : Proc) : (s.setProc p).ref = s.ref := rfl
@[simp] theorem State.setProc_ports (s : State) (p : Proc) : (s.setProc p).ports = s.ports := rfl
@[simp] theorem State.setProc_proc (s : State) (p : Proc) : (s.setProc p).proc = p := rfl
@[simp] theorem State.setProc_evt (s : State) (p : Proc) : (s.setProc p).evt = s.evt := rfl
@[simp] theorem State.setProc_mail (s : State) (p : Proc) : (s.setProc p).mail = s.mail := rfl
@[simp] theorem State.setProc_chan (s : State) (p : Proc) (j : ChanId) : (s.setProc p).chan j = s.chan j := rfl
@[simp] theorem State.setProc_head (s : State) (p : Proc) (j : HeadId) : (s.setProc p).head j = s.head j := rfl
@[simp] theorem State.setProc_port (s : State) (p : Proc) (j : PortId) : (s.setProc p).port j = s.port j := rfl
@[simp] theorem State.setProc_slot (s : State) (p : Proc) (j : Nat) : (s.setProc p).slot j = s.slot j := rfl
@[simp] theorem State.setProc_entry (s : State) (p : Proc) (j : Nat) : (s.setProc p).entry j = s.entry j := rfl
@[simp] theorem State.setProc_clip (s : State) (p : Proc) (j : Nat) : (s.setProc p).clip j = s.clip j := rfl

@[simp] theorem State.setEvt_pending (s : State) (e : EventUnit) : (s.setEvt e).pending = s.pending := rfl
@[simp] theorem State.setEvt_now (s : State) (e : EventUnit) : (s.setEvt e).now = s.now := rfl
@[simp] theorem State.setEvt_cbsel (s : State) (e : EventUnit) : (s.setEvt e).cbsel = s.cbsel := rfl
@[simp] theorem State.setEvt_startUp (s : State) (e : EventUnit) : (s.setEvt e).startUp = s.startUp := rfl
@[simp] theorem State.setEvt_mem (s : State) (e : EventUnit) : (s.setEvt e).mem = s.mem := rfl
@[simp] theorem State.setEvt_slots (s : State) (e : EventUnit) : (s.setEvt e).slots = s.slots := rfl
@[simp] theorem State.setEvt_index (s : State) (e : EventUnit) : (s.setEvt e).index = s.index := rfl
@[simp] theorem State.setEvt_chans (s : State) (e : EventUnit) : (s.setEvt e).chans = s.chans := rfl
@[simp] theorem State.setEvt_heads (s : State) (e : EventUnit) : (s.setEvt e).heads = s.heads := rfl
@[simp] theorem State.setEvt_clips (s : State) (e : EventUnit) : (s.setEvt e).clips = s.clips := rfl
@[simp] theorem State.setEvt_preRoll (s : State) (e : EventUnit) : (s.setEvt e).preRoll = s.preRoll := rfl
@[simp] theorem State.setEvt_postRoll (s : State) (e : EventUnit) : (s.setEvt e).postRoll = s.postRoll := rfl
@[simp] theorem State.setEvt_ref (s : State) (e : EventUnit) : (s.setEvt e).ref = s.ref := rfl
@[simp] theorem State.setEvt_ports (s : State) (e : EventUnit) : (s.setEvt e).ports = s.ports := rfl
@[simp] theorem State.setEvt_proc (s : State) (e : EventUnit) : (s.setEvt e).proc = s.proc := rfl
@[simp] theorem State.setEvt_evt (s : State) (e : EventUnit) : (s.setEvt e).evt = e := rfl
@[simp] theorem State.setEvt_mail (s : State) (e : EventUnit) : (s.setEvt e).mail = s.mail := rfl
@[simp] theorem State.setEvt_chan (s : State) (e : EventUnit) (j : ChanId) : (s.setEvt e).chan j = s.chan j := rfl
@[simp] theorem State.setEvt_head (s : State) (e : EventUnit) (j : HeadId) : (s.setEvt e).head j = s.head j := rfl
@[simp] theorem State.setEvt_port (s : State) (e : EventUnit) (j : PortId) : (s.setEvt e).port j = s.port j := rfl
@[simp] theorem State.setEvt_slot (s : State) (e : EventUnit) (j : Nat) : (s.setEvt e).slot j = s.slot j := rfl
@[simp] theorem State.setEvt_entry (s : State) (e : EventUnit) (j : Nat) : (s.setEvt e).entry j = s.entry j := rfl
@[simp] theorem State.setEvt_clip (s : State) (e : EventUnit) (j : Nat) : (s.setEvt e).clip j = s.clip j := rfl

@[simp] theorem State.setStartUp_pending (s : State) (u : StartUp) : (s.setStartUp u).pending = s.pending := rfl
@[simp] theorem State.setStartUp_now (s : State) (u : StartUp) : (s.setStartUp u).now = s.now := rfl
@[simp] theorem State.setStartUp_cbsel (s : State) (u : StartUp) : (s.setStartUp u).cbsel = s.cbsel := rfl
@[simp] theorem State.setStartUp_startUp (s : State) (u : StartUp) : (s.setStartUp u).startUp = u := rfl
@[simp] theorem State.setStartUp_mem (s : State) (u : StartUp) : (s.setStartUp u).mem = s.mem := rfl
@[simp] theorem State.setStartUp_slots (s : State) (u : StartUp) : (s.setStartUp u).slots = s.slots := rfl
@[simp] theorem State.setStartUp_index (s : State) (u : StartUp) : (s.setStartUp u).index = s.index := rfl
@[simp] theorem State.setStartUp_chans (s : State) (u : StartUp) : (s.setStartUp u).chans = s.chans := rfl
@[simp] theorem State.setStartUp_heads (s : State) (u : StartUp) : (s.setStartUp u).heads = s.heads := rfl
@[simp] theorem State.setStartUp_clips (s : State) (u : StartUp) : (s.setStartUp u).clips = s.clips := rfl
@[simp] theorem State.setStartUp_preRoll (s : State) (u : StartUp) : (s.setStartUp u).preRoll = s.preRoll := rfl
@[simp] theorem State.setStartUp_postRoll (s : State) (u : StartUp) : (s.setStartUp u).postRoll = s.postRoll := rfl
@[simp] theorem State.setStartUp_ref (s : State) (u : StartUp) : (s.setStartUp u).ref = s.ref := rfl
@[simp] theorem State.setStartUp_ports (s : State) (u : StartUp) : (s.setStartUp u).ports = s.ports := rfl
@[simp] theorem State.setStartUp_proc (s : State) (u : StartUp) : (s.setStartUp u).proc = s.proc := rfl
@[simp] theorem State.setStartUp_evt (s : State) (u : StartUp) : (s.setStartUp u).evt = s.evt := rfl
@[simp] theorem State.setStartUp_mail (s : State) (u : StartUp) : (s.setStartUp u).mail = s.mail := rfl
@[simp] theorem State.setStartUp_chan (s : State) (u : StartUp) (j : ChanId) : (s.setStartUp u).chan j = s.chan j := rfl
@[simp] theorem State.setStartUp_head (s : State) (u : StartUp) (j : HeadId) : (s.setStartUp u).head j = s.head j := rfl
@[simp] theorem State.setStartUp_port (s : State) (u : StartUp) (j : PortId) : (s.setStartUp u).port j = s.port j := rfl
@[simp] theorem State.setStartUp_slot (s : State) (u : StartUp) (j : Nat) : (s.setStartUp u).slot j = s.slot j := rfl
@[simp] theorem State.setStartUp_entry (s : State) (u : StartUp) (j : Nat) : (s.setStartUp u).entry j = s.entry j := rfl
@[simp] theorem State.setStartUp_clip (s : State) (u : StartUp) (j : Nat) : (s.setStartUp u).clip j = s.clip j := rfl

@[simp] theorem State.setMail_pending (s : State) (m : Mail) : (s.setMail m).pending = s.pending := rfl
@[simp] theorem State.setMail_now (s : State) (m : Mail) : (s.setMail m).now = s.now := rfl
@[simp] theorem State.setMail_cbsel (s : State) (m : Mail) : (s.setMail m).cbsel = s.cbsel := rfl
@[simp] theorem State.setMail_startUp (s : State) (m : Mail) : (s.setMail m).startUp = s.startUp := rfl
@[simp] theorem State.setMail_mem (s : State) (m : Mail) : (s.setMail m).mem = s.mem := rfl
@[simp] theorem State.setMail_slots (s : State) (m : Mail) : (s.setMail m).slots = s.slots := rfl
@[simp] theorem State.setMail_index (s : State) (m : Mail) : (s.setMail m).index = s.index := rfl
@[simp] theorem State.setMail_chans (s : State) (m : Mail) : (s.setMail m).chans = s.chans := rfl
@[simp] theorem State.setMail_heads (s : State) (m : Mail) : (s.setMail m).heads = s.heads := rfl
@[simp] theorem State.setMail_clips (s : State) (m : Mail) : (s.setMail m).clips = s.clips := rfl
@[simp] theorem State.setMail_preRoll (s : State) (m : Mail) : (s.setMail m).preRoll = s.preRoll := rfl
@[simp] theorem State.setMail_postRoll (s : State) (m : Mail) : (s.setMail m).postRoll = s.postRoll := rfl
@[simp] theorem State.setMail_ref (s : State) (m : Mail) : (s.setMail m).ref = s.ref := rfl
@[simp] theorem State.setMail_ports (s : State) (m : Mail) : (s.setMail m).ports = s.ports := rfl
@[simp] theorem State.setMail_proc (s : State) (m : Mail) : (s.setMail m).proc = s.proc := rfl
@[simp] theorem State.setMail_evt (s : State) (m : Mail) : (s.setMail m).evt = s.evt := rfl
@[simp] theorem State.setMail_mail (s : State) (m : Mail) : (s.setMail m).mail = m := rfl
@[simp] theorem State.setMail_chan (s : State) (m : Mail) (j : ChanId) : (s.setMail m).chan j = s.chan j := rfl
@[simp] theorem State.setMail_head (s : State) (m : Mail) (j : HeadId) : (s.setMail m).head j = s.head j := rfl
@[simp] theorem State.setMail_port (s : State) (m : Mail) (j : PortId) : (s.setMail m).port j = s.port j := rfl
@[simp] theorem State.setMail_slot (s : State) (m : Mail) (j : Nat) : (s.setMail m).slot j = s.slot j := rfl
@[simp] theorem State.setMail_entry (s : State) (m : Mail) (j : Nat) : (s.setMail m).entry j = s.entry j := rfl
@[simp] theorem State.setMail_clip (s : State) (m : Mail) (j : Nat) : (s.setMail m).clip j = s.clip j := rfl

@[simp] theorem State.setTime_pending (s : State) (t : Nat) : (s.setTime t).pending = s.pending := rfl
@[simp] theorem State.setTime_now (s : State) (t : Nat) : (s.setTime t).now = max s.now t := rfl
@[simp] theorem State.setTime_cbsel (s : State) (t : Nat) : (s.setTime t).cbsel = s.cbsel := rfl
@[simp] theorem State.setTime_startUp (s : State) (t : Nat) : (s.setTime t).startUp = s.startUp := rfl
@[simp] theorem State.setTime_mem (s : State) (t : Nat) : (s.setTime t).mem = s.mem := rfl
@[simp] theorem State.setTime_slots (s : State) (t : Nat) : (s.setTime t).slots = s.slots := rfl
@[simp] theorem State.setTime_index (s : State) (t : Nat) : (s.setTime t).index = s.index := rfl
@[simp] theorem State.setTime_chans (s : State) (t : Nat) : (s.setTime t).chans = s.chans := rfl
@[simp] theorem State.setTime_heads (s : State) (t : Nat) : (s.setTime t).heads = s.heads := rfl
@[simp] theorem State.setTime_clips (s : State) (t : Nat) : (s.setTime t).clips = s.clips := rfl
@[simp] theorem State.setTime_preRoll (s : State) (t : Nat) : (s.setTime t).preRoll = s.preRoll := rfl
@[simp] theorem State.setTime_postRoll (s : State) (t : Nat) : (s.setTime t).postRoll = s.postRoll := rfl
@[simp] theorem State.setTime_ref (s : State) (t : Nat) : (s.setTime t).ref = s.ref := rfl
@[simp] theorem State.setTime_ports (s : State) (t : Nat) : (s.setTime t).ports = s.ports := rfl
@[simp] theorem State.setTime_proc (s : State) (t : Nat) : (s.setTime t).proc = s.proc := rfl
@[simp] theorem State.setTime_evt (s : State) (t : Nat) : (s.setTime t).evt = s.evt := rfl
@[simp] theorem State.setTime_mail (s : State) (t : Nat) : (s.setTime t).mail = s.mail := rfl
@[simp] theorem State.setTime_chan (s : State) (t : Nat) (j : ChanId) : (s.setTime t).chan j = s.chan j := rfl
@[simp] theorem State.setTime_head (s : State) (t : Nat) (j : HeadId) : (s.setTime t).head j = s.head j := rfl
@[simp] theorem State.setTime_port (s : State) (t : Nat) (j : PortId) : (s.setTime t).port j = s.port j := rfl
@[simp] theorem State.setTime_slot (s : State) (t : Nat) (j : Nat) : (s.setTime t).slot j = s.slot j := rfl
@[simp] theorem State.setTime_entry (s : State) (t : Nat) (j : Nat) : (s.setTime t).entry j = s.entry j := rfl
@[simp] theorem State.setTime_clip (s : State) (t : Nat) (j : Nat) : (s.setTime t).clip j = s.clip j := rfl

@[simp] theorem State.queueOwn_pending (s : State) (r : OwnReq) : (s.queueOwn r).pending = s.pending := rfl
@[simp] theorem State.queueOwn_now (s : State) (r : OwnReq) : (s.queueOwn r).now = s.now := rfl
@[simp] theorem State.queueOwn_cbsel (s : State) (r : OwnReq) : (s.queueOwn r).cbsel = s.cbsel := rfl
@[simp] theorem State.queueOwn_startUp (s : State) (r : OwnReq) : (s.queueOwn r).startUp = s.startUp := rfl
@[simp] theorem State.queueOwn_mem (s : State) (r : OwnReq) : (s.queueOwn r).mem = s.mem.queueOwn r := rfl
@[simp] theorem State.queueOwn_slots (s : State) (r : OwnReq) : (s.queueOwn r).slots = s.slots := rfl
@[simp] theorem State.queueOwn_index (s : State) (r : OwnReq) : (s.queueOwn r).index = s.index := rfl
@[simp] theorem State.queueOwn_chans (s : State) (r : OwnReq) : (s.queueOwn r).chans = s.chans := rfl
@[simp] theorem State.queueOwn_heads (s : State) (r : OwnReq) : (s.queueOwn r).heads = s.heads := rfl
@[simp] theorem State.queueOwn_clips (s : State) (r : OwnReq) : (s.queueOwn r).clips = s.clips := rfl
@[simp] theorem State.queueOwn_preRoll (s : State) (r : OwnReq) : (s.queueOwn r).preRoll = s.preRoll := rfl
@[simp] theorem State.queueOwn_postRoll (s : State) (r : OwnReq) : (s.queueOwn r).postRoll = s.postRoll := rfl
@[simp] theorem State.queueOwn_ref (s : State) (r : OwnReq) : (s.queueOwn r).ref = s.ref := rfl
@[simp] theorem State.queueOwn_ports (s : State) (r : OwnReq) : (s.queueOwn r).ports = s.ports := rfl
@[simp] theorem State.queueOwn_proc (s : State) (r : OwnReq) : (s.queueOwn r).proc = s.proc := rfl
@[simp] theorem State.queueOwn_evt (s : State) (r : OwnReq) : (s.queueOwn r).evt = s.evt := rfl
@[simp] theorem State.queueOwn_mail (s : State) (r : OwnReq) : (s.queueOwn r).mail = s.mail := rfl
@[simp] theorem State.queueOwn_chan (s : State) (r : OwnReq) (j : ChanId) : (s.queueOwn r).chan j = s.chan j := rfl
@[simp] theorem State.queueOwn_head (s : State) (r : OwnReq) (j : HeadId) : (s.queueOwn r).head j = s.head j := rfl
@[simp] theorem State.queueOwn_port (s : State) (r : OwnReq) (j : PortId) : (s.queueOwn r).port j = s.port j := rfl
@[simp] theorem State.queueOwn_slot (s : State) (r : OwnReq) (j : Nat) : (s.queueOwn r).slot j = s.slot j := rfl
@[simp] theorem State.queueOwn_entry (s : State) (r : OwnReq) (j : Nat) : (s.queueOwn r).entry j = s.entry j := rfl
@[simp] theorem State.queueOwn_clip (s : State) (r : OwnReq) (j : Nat) : (s.queueOwn r).clip j = s.clip j := rfl

@[simp] theorem State.leaveOwn_pending (s : State) (k : Nat) : (s.leaveOwn k).pending = s.pending := rfl
@[simp] theorem State.leaveOwn_now (s : State) (k : Nat) : (s.leaveOwn k).now = s.now := rfl
@[simp] theorem State.leaveOwn_cbsel (s : State) (k : Nat) : (s.leaveOwn k).cbsel = s.cbsel := rfl
@[simp] theorem State.leaveOwn_startUp (s : State) (k : Nat) : (s.leaveOwn k).startUp = s.startUp := rfl
@[simp] theorem State.leaveOwn_mem (s : State) (k : Nat) : (s.leaveOwn k).mem = s.mem.leave k := rfl
@[simp] theorem State.leaveOwn_slots (s : State) (k : Nat) : (s.leaveOwn k).slots = s.slots := rfl
@[simp] theorem State.leaveOwn_index (s : State) (k : Nat) : (s.leaveOwn k).index = s.index := rfl
@[simp] theorem State.leaveOwn_chans (s : State) (k : Nat) : (s.leaveOwn k).chans = s.chans := rfl
@[simp] theorem State.leaveOwn_heads (s : State) (k : Nat) : (s.leaveOwn k).heads = s.heads := rfl
@[simp] theorem State.leaveOwn_clips (s : State) (k : Nat) : (s.leaveOwn k).clips = s.clips := rfl
@[simp] theorem State.leaveOwn_preRoll (s : State) (k : Nat) : (s.leaveOwn k).preRoll = s.preRoll := rfl
@[simp] theorem State.leaveOwn_postRoll (s : State) (k : Nat) : (s.leaveOwn k).postRoll = s.postRoll := rfl
@[simp] theorem State.leaveOwn_ref (s : State) (k : Nat) : (s.leaveOwn k).ref = s.ref := rfl
@[simp] theorem State.leaveOwn_ports (s : State) (k : Nat) : (s.leaveOwn k).ports = s.ports := rfl
@[simp] theorem State.leaveOwn_proc (s : State) (k : Nat) : (s.leaveOwn k).proc = s.proc := rfl
@[simp] theorem State.leaveOwn_evt (s : State) (k : Nat) : (s.leaveOwn k).evt = s.evt := rfl
@[simp] theorem State.leaveOwn_mail (s : State) (k : Nat) : (s.leaveOwn k).mail = s.mail := rfl
@[simp] theorem State.leaveOwn_chan (s : State) (k : Nat) (j : ChanId) : (s.leaveOwn k).chan j = s.chan j := rfl
@[simp] theorem State.leaveOwn_head (s : State) (k : Nat) (j : HeadId) : (s.leaveOwn k).head j = s.head j := rfl
@[simp] theorem State.leaveOwn_port (s : State) (k : Nat) (j : PortId) : (s.leaveOwn k).port j = s.port j := rfl
@[simp] theorem State.leaveOwn_slot (s : State) (k : Nat) (j : Nat) : (s.leaveOwn k).slot j = s.slot j := rfl
@[simp] theorem State.leaveOwn_entry (s : State) (k : Nat) (j : Nat) : (s.leaveOwn k).entry j = s.entry j := rfl
@[simp] theorem State.leaveOwn_clip (s : State) (k : Nat) (j : Nat) : (s.leaveOwn k).clip j = s.clip j := rfl

@[simp] theorem State.raiseAt_pending (s : State) (k : EventKind) (why : Reason) (o a : Nat) (v t : Word) : (s.raiseAt k why o a v t).pending = s.pending := rfl
@[simp] theorem State.raiseAt_now (s : State) (k : EventKind) (why : Reason) (o a : Nat) (v t : Word) : (s.raiseAt k why o a v t).now = s.now := rfl
@[simp] theorem State.raiseAt_cbsel (s : State) (k : EventKind) (why : Reason) (o a : Nat) (v t : Word) : (s.raiseAt k why o a v t).cbsel = s.cbsel := rfl
@[simp] theorem State.raiseAt_startUp (s : State) (k : EventKind) (why : Reason) (o a : Nat) (v t : Word) : (s.raiseAt k why o a v t).startUp = s.startUp := rfl
@[simp] theorem State.raiseAt_mem (s : State) (k : EventKind) (why : Reason) (o a : Nat) (v t : Word) : (s.raiseAt k why o a v t).mem = s.mem := rfl
@[simp] theorem State.raiseAt_slots (s : State) (k : EventKind) (why : Reason) (o a : Nat) (v t : Word) : (s.raiseAt k why o a v t).slots = s.slots := rfl
@[simp] theorem State.raiseAt_index (s : State) (k : EventKind) (why : Reason) (o a : Nat) (v t : Word) : (s.raiseAt k why o a v t).index = s.index := rfl
@[simp] theorem State.raiseAt_chans (s : State) (k : EventKind) (why : Reason) (o a : Nat) (v t : Word) : (s.raiseAt k why o a v t).chans = s.chans := rfl
@[simp] theorem State.raiseAt_heads (s : State) (k : EventKind) (why : Reason) (o a : Nat) (v t : Word) : (s.raiseAt k why o a v t).heads = s.heads := rfl
@[simp] theorem State.raiseAt_clips (s : State) (k : EventKind) (why : Reason) (o a : Nat) (v t : Word) : (s.raiseAt k why o a v t).clips = s.clips := rfl
@[simp] theorem State.raiseAt_preRoll (s : State) (k : EventKind) (why : Reason) (o a : Nat) (v t : Word) : (s.raiseAt k why o a v t).preRoll = s.preRoll := rfl
@[simp] theorem State.raiseAt_postRoll (s : State) (k : EventKind) (why : Reason) (o a : Nat) (v t : Word) : (s.raiseAt k why o a v t).postRoll = s.postRoll := rfl
@[simp] theorem State.raiseAt_ref (s : State) (k : EventKind) (why : Reason) (o a : Nat) (v t : Word) : (s.raiseAt k why o a v t).ref = s.ref := rfl
@[simp] theorem State.raiseAt_ports (s : State) (k : EventKind) (why : Reason) (o a : Nat) (v t : Word) : (s.raiseAt k why o a v t).ports = s.ports := rfl
@[simp] theorem State.raiseAt_proc (s : State) (k : EventKind) (why : Reason) (o a : Nat) (v t : Word) : (s.raiseAt k why o a v t).proc = s.proc := rfl
@[simp] theorem State.raiseAt_evt (s : State) (k : EventKind) (why : Reason) (o a : Nat) (v t : Word) : (s.raiseAt k why o a v t).evt = s.evt.posted k why o a v t := rfl
@[simp] theorem State.raiseAt_mail (s : State) (k : EventKind) (why : Reason) (o a : Nat) (v t : Word) : (s.raiseAt k why o a v t).mail = s.mail := rfl
@[simp] theorem State.raiseAt_chan (s : State) (k : EventKind) (why : Reason) (o a : Nat) (v t : Word) (j : ChanId) : (s.raiseAt k why o a v t).chan j = s.chan j := rfl
@[simp] theorem State.raiseAt_head (s : State) (k : EventKind) (why : Reason) (o a : Nat) (v t : Word) (j : HeadId) : (s.raiseAt k why o a v t).head j = s.head j := rfl
@[simp] theorem State.raiseAt_port (s : State) (k : EventKind) (why : Reason) (o a : Nat) (v t : Word) (j : PortId) : (s.raiseAt k why o a v t).port j = s.port j := rfl
@[simp] theorem State.raiseAt_slot (s : State) (k : EventKind) (why : Reason) (o a : Nat) (v t : Word) (j : Nat) : (s.raiseAt k why o a v t).slot j = s.slot j := rfl
@[simp] theorem State.raiseAt_entry (s : State) (k : EventKind) (why : Reason) (o a : Nat) (v t : Word) (j : Nat) : (s.raiseAt k why o a v t).entry j = s.entry j := rfl
@[simp] theorem State.raiseAt_clip (s : State) (k : EventKind) (why : Reason) (o a : Nat) (v t : Word) (j : Nat) : (s.raiseAt k why o a v t).clip j = s.clip j := rfl

@[simp] theorem State.raise_pending (s : State) (k : EventKind) (why : Reason) (o a : Nat) (v : Word) : (s.raise k why o a v).pending = s.pending := rfl
@[simp] theorem State.raise_now (s : State) (k : EventKind) (why : Reason) (o a : Nat) (v : Word) : (s.raise k why o a v).now = s.now := rfl
@[simp] theorem State.raise_cbsel (s : State) (k : EventKind) (why : Reason) (o a : Nat) (v : Word) : (s.raise k why o a v).cbsel = s.cbsel := rfl
@[simp] theorem State.raise_startUp (s : State) (k : EventKind) (why : Reason) (o a : Nat) (v : Word) : (s.raise k why o a v).startUp = s.startUp := rfl
@[simp] theorem State.raise_mem (s : State) (k : EventKind) (why : Reason) (o a : Nat) (v : Word) : (s.raise k why o a v).mem = s.mem := rfl
@[simp] theorem State.raise_slots (s : State) (k : EventKind) (why : Reason) (o a : Nat) (v : Word) : (s.raise k why o a v).slots = s.slots := rfl
@[simp] theorem State.raise_index (s : State) (k : EventKind) (why : Reason) (o a : Nat) (v : Word) : (s.raise k why o a v).index = s.index := rfl
@[simp] theorem State.raise_chans (s : State) (k : EventKind) (why : Reason) (o a : Nat) (v : Word) : (s.raise k why o a v).chans = s.chans := rfl
@[simp] theorem State.raise_heads (s : State) (k : EventKind) (why : Reason) (o a : Nat) (v : Word) : (s.raise k why o a v).heads = s.heads := rfl
@[simp] theorem State.raise_clips (s : State) (k : EventKind) (why : Reason) (o a : Nat) (v : Word) : (s.raise k why o a v).clips = s.clips := rfl
@[simp] theorem State.raise_preRoll (s : State) (k : EventKind) (why : Reason) (o a : Nat) (v : Word) : (s.raise k why o a v).preRoll = s.preRoll := rfl
@[simp] theorem State.raise_postRoll (s : State) (k : EventKind) (why : Reason) (o a : Nat) (v : Word) : (s.raise k why o a v).postRoll = s.postRoll := rfl
@[simp] theorem State.raise_ref (s : State) (k : EventKind) (why : Reason) (o a : Nat) (v : Word) : (s.raise k why o a v).ref = s.ref := rfl
@[simp] theorem State.raise_ports (s : State) (k : EventKind) (why : Reason) (o a : Nat) (v : Word) : (s.raise k why o a v).ports = s.ports := rfl
@[simp] theorem State.raise_proc (s : State) (k : EventKind) (why : Reason) (o a : Nat) (v : Word) : (s.raise k why o a v).proc = s.proc := rfl
@[simp] theorem State.raise_evt (s : State) (k : EventKind) (why : Reason) (o a : Nat) (v : Word) : (s.raise k why o a v).evt = s.evt.posted k why o a v s.ref.count := rfl
@[simp] theorem State.raise_mail (s : State) (k : EventKind) (why : Reason) (o a : Nat) (v : Word) : (s.raise k why o a v).mail = s.mail := rfl
@[simp] theorem State.raise_chan (s : State) (k : EventKind) (why : Reason) (o a : Nat) (v : Word) (j : ChanId) : (s.raise k why o a v).chan j = s.chan j := rfl
@[simp] theorem State.raise_head (s : State) (k : EventKind) (why : Reason) (o a : Nat) (v : Word) (j : HeadId) : (s.raise k why o a v).head j = s.head j := rfl
@[simp] theorem State.raise_port (s : State) (k : EventKind) (why : Reason) (o a : Nat) (v : Word) (j : PortId) : (s.raise k why o a v).port j = s.port j := rfl
@[simp] theorem State.raise_slot (s : State) (k : EventKind) (why : Reason) (o a : Nat) (v : Word) (j : Nat) : (s.raise k why o a v).slot j = s.slot j := rfl
@[simp] theorem State.raise_entry (s : State) (k : EventKind) (why : Reason) (o a : Nat) (v : Word) (j : Nat) : (s.raise k why o a v).entry j = s.entry j := rfl
@[simp] theorem State.raise_clip (s : State) (k : EventKind) (why : Reason) (o a : Nat) (v : Word) (j : Nat) : (s.raise k why o a v).clip j = s.clip j := rfl

@[simp] theorem State.controlFault_pending (s : State) (why : Reason) (src : Nat) (v : Word) : (s.controlFault why src v).pending = s.pending := rfl
@[simp] theorem State.controlFault_now (s : State) (why : Reason) (src : Nat) (v : Word) : (s.controlFault why src v).now = s.now := rfl
@[simp] theorem State.controlFault_cbsel (s : State) (why : Reason) (src : Nat) (v : Word) : (s.controlFault why src v).cbsel = s.cbsel := rfl
@[simp] theorem State.controlFault_startUp (s : State) (why : Reason) (src : Nat) (v : Word) : (s.controlFault why src v).startUp = s.startUp := rfl
@[simp] theorem State.controlFault_mem (s : State) (why : Reason) (src : Nat) (v : Word) : (s.controlFault why src v).mem = s.mem := rfl
@[simp] theorem State.controlFault_slots (s : State) (why : Reason) (src : Nat) (v : Word) : (s.controlFault why src v).slots = s.slots := rfl
@[simp] theorem State.controlFault_index (s : State) (why : Reason) (src : Nat) (v : Word) : (s.controlFault why src v).index = s.index := rfl
@[simp] theorem State.controlFault_chans (s : State) (why : Reason) (src : Nat) (v : Word) : (s.controlFault why src v).chans = s.chans := rfl
@[simp] theorem State.controlFault_heads (s : State) (why : Reason) (src : Nat) (v : Word) : (s.controlFault why src v).heads = s.heads := rfl
@[simp] theorem State.controlFault_clips (s : State) (why : Reason) (src : Nat) (v : Word) : (s.controlFault why src v).clips = s.clips := rfl
@[simp] theorem State.controlFault_preRoll (s : State) (why : Reason) (src : Nat) (v : Word) : (s.controlFault why src v).preRoll = s.preRoll := rfl
@[simp] theorem State.controlFault_postRoll (s : State) (why : Reason) (src : Nat) (v : Word) : (s.controlFault why src v).postRoll = s.postRoll := rfl
@[simp] theorem State.controlFault_ref (s : State) (why : Reason) (src : Nat) (v : Word) : (s.controlFault why src v).ref = s.ref := rfl
@[simp] theorem State.controlFault_ports (s : State) (why : Reason) (src : Nat) (v : Word) : (s.controlFault why src v).ports = s.ports := rfl
@[simp] theorem State.controlFault_proc (s : State) (why : Reason) (src : Nat) (v : Word) : (s.controlFault why src v).proc = s.proc := rfl
@[simp] theorem State.controlFault_evt (s : State) (why : Reason) (src : Nat) (v : Word) : (s.controlFault why src v).evt = s.evt.posted .controlFault why 0 src v s.ref.count := rfl
@[simp] theorem State.controlFault_mail (s : State) (why : Reason) (src : Nat) (v : Word) : (s.controlFault why src v).mail = s.mail := rfl
@[simp] theorem State.controlFault_chan (s : State) (why : Reason) (src : Nat) (v : Word) (j : ChanId) : (s.controlFault why src v).chan j = s.chan j := rfl
@[simp] theorem State.controlFault_head (s : State) (why : Reason) (src : Nat) (v : Word) (j : HeadId) : (s.controlFault why src v).head j = s.head j := rfl
@[simp] theorem State.controlFault_port (s : State) (why : Reason) (src : Nat) (v : Word) (j : PortId) : (s.controlFault why src v).port j = s.port j := rfl
@[simp] theorem State.controlFault_slot (s : State) (why : Reason) (src : Nat) (v : Word) (j : Nat) : (s.controlFault why src v).slot j = s.slot j := rfl
@[simp] theorem State.controlFault_entry (s : State) (why : Reason) (src : Nat) (v : Word) (j : Nat) : (s.controlFault why src v).entry j = s.entry j := rfl
@[simp] theorem State.controlFault_clip (s : State) (why : Reason) (src : Nat) (v : Word) (j : Nat) : (s.controlFault why src v).clip j = s.clip j := rfl

@[simp] theorem State.tellClips_pending (s : State) (c : ChanId) (n : ChanNote) : (s.tellClips c n).pending = s.pending := rfl
@[simp] theorem State.tellClips_now (s : State) (c : ChanId) (n : ChanNote) : (s.tellClips c n).now = s.now := rfl
@[simp] theorem State.tellClips_cbsel (s : State) (c : ChanId) (n : ChanNote) : (s.tellClips c n).cbsel = s.cbsel := rfl
@[simp] theorem State.tellClips_startUp (s : State) (c : ChanId) (n : ChanNote) : (s.tellClips c n).startUp = s.startUp := rfl
@[simp] theorem State.tellClips_mem (s : State) (c : ChanId) (n : ChanNote) : (s.tellClips c n).mem = s.mem := rfl
@[simp] theorem State.tellClips_slots (s : State) (c : ChanId) (n : ChanNote) : (s.tellClips c n).slots = s.slots := rfl
@[simp] theorem State.tellClips_index (s : State) (c : ChanId) (n : ChanNote) : (s.tellClips c n).index = s.index := rfl
@[simp] theorem State.tellClips_chans (s : State) (c : ChanId) (n : ChanNote) : (s.tellClips c n).chans = s.chans := rfl
@[simp] theorem State.tellClips_heads (s : State) (c : ChanId) (n : ChanNote) : (s.tellClips c n).heads = s.heads := rfl
@[simp] theorem State.tellClips_clips (s : State) (c : ChanId) (n : ChanNote) : (s.tellClips c n).clips = s.clips := rfl
@[simp] theorem State.tellClips_preRoll (s : State) (c : ChanId) (n : ChanNote) : (s.tellClips c n).preRoll = s.preRoll := rfl
@[simp] theorem State.tellClips_postRoll (s : State) (c : ChanId) (n : ChanNote) : (s.tellClips c n).postRoll = s.postRoll := rfl
@[simp] theorem State.tellClips_ref (s : State) (c : ChanId) (n : ChanNote) : (s.tellClips c n).ref = s.ref := rfl
@[simp] theorem State.tellClips_ports (s : State) (c : ChanId) (n : ChanNote) : (s.tellClips c n).ports = s.ports := rfl
@[simp] theorem State.tellClips_proc (s : State) (c : ChanId) (n : ChanNote) : (s.tellClips c n).proc = s.proc := rfl
@[simp] theorem State.tellClips_evt (s : State) (c : ChanId) (n : ChanNote) : (s.tellClips c n).evt = s.evt := rfl
@[simp] theorem State.tellClips_mail (s : State) (c : ChanId) (n : ChanNote) : (s.tellClips c n).mail = { s.mail with chanNotes := pushAt s.mail.chanNotes c n } := rfl
@[simp] theorem State.tellClips_chan (s : State) (c : ChanId) (n : ChanNote) (j : ChanId) : (s.tellClips c n).chan j = s.chan j := rfl
@[simp] theorem State.tellClips_head (s : State) (c : ChanId) (n : ChanNote) (j : HeadId) : (s.tellClips c n).head j = s.head j := rfl
@[simp] theorem State.tellClips_port (s : State) (c : ChanId) (n : ChanNote) (j : PortId) : (s.tellClips c n).port j = s.port j := rfl
@[simp] theorem State.tellClips_slot (s : State) (c : ChanId) (n : ChanNote) (j : Nat) : (s.tellClips c n).slot j = s.slot j := rfl
@[simp] theorem State.tellClips_entry (s : State) (c : ChanId) (n : ChanNote) (j : Nat) : (s.tellClips c n).entry j = s.entry j := rfl
@[simp] theorem State.tellClips_clip (s : State) (c : ChanId) (n : ChanNote) (j : Nat) : (s.tellClips c n).clip j = s.clip j := rfl

@[simp] theorem State.tellHead_pending (s : State) (h : HeadId) (n : HeadNote) : (s.tellHead h n).pending = s.pending := rfl
@[simp] theorem State.tellHead_now (s : State) (h : HeadId) (n : HeadNote) : (s.tellHead h n).now = s.now := rfl
@[simp] theorem State.tellHead_cbsel (s : State) (h : HeadId) (n : HeadNote) : (s.tellHead h n).cbsel = s.cbsel := rfl
@[simp] theorem State.tellHead_startUp (s : State) (h : HeadId) (n : HeadNote) : (s.tellHead h n).startUp = s.startUp := rfl
@[simp] theorem State.tellHead_mem (s : State) (h : HeadId) (n : HeadNote) : (s.tellHead h n).mem = s.mem := rfl
@[simp] theorem State.tellHead_slots (s : State) (h : HeadId) (n : HeadNote) : (s.tellHead h n).slots = s.slots := rfl
@[simp] theorem State.tellHead_index (s : State) (h : HeadId) (n : HeadNote) : (s.tellHead h n).index = s.index := rfl
@[simp] theorem State.tellHead_chans (s : State) (h : HeadId) (n : HeadNote) : (s.tellHead h n).chans = s.chans := rfl
@[simp] theorem State.tellHead_heads (s : State) (h : HeadId) (n : HeadNote) : (s.tellHead h n).heads = s.heads := rfl
@[simp] theorem State.tellHead_clips (s : State) (h : HeadId) (n : HeadNote) : (s.tellHead h n).clips = s.clips := rfl
@[simp] theorem State.tellHead_preRoll (s : State) (h : HeadId) (n : HeadNote) : (s.tellHead h n).preRoll = s.preRoll := rfl
@[simp] theorem State.tellHead_postRoll (s : State) (h : HeadId) (n : HeadNote) : (s.tellHead h n).postRoll = s.postRoll := rfl
@[simp] theorem State.tellHead_ref (s : State) (h : HeadId) (n : HeadNote) : (s.tellHead h n).ref = s.ref := rfl
@[simp] theorem State.tellHead_ports (s : State) (h : HeadId) (n : HeadNote) : (s.tellHead h n).ports = s.ports := rfl
@[simp] theorem State.tellHead_proc (s : State) (h : HeadId) (n : HeadNote) : (s.tellHead h n).proc = s.proc := rfl
@[simp] theorem State.tellHead_evt (s : State) (h : HeadId) (n : HeadNote) : (s.tellHead h n).evt = s.evt := rfl
@[simp] theorem State.tellHead_mail (s : State) (h : HeadId) (n : HeadNote) : (s.tellHead h n).mail = { s.mail with toHead := pushAt s.mail.toHead h n } := rfl
@[simp] theorem State.tellHead_chan (s : State) (h : HeadId) (n : HeadNote) (j : ChanId) : (s.tellHead h n).chan j = s.chan j := rfl
@[simp] theorem State.tellHead_head (s : State) (h : HeadId) (n : HeadNote) (j : HeadId) : (s.tellHead h n).head j = s.head j := rfl
@[simp] theorem State.tellHead_port (s : State) (h : HeadId) (n : HeadNote) (j : PortId) : (s.tellHead h n).port j = s.port j := rfl
@[simp] theorem State.tellHead_slot (s : State) (h : HeadId) (n : HeadNote) (j : Nat) : (s.tellHead h n).slot j = s.slot j := rfl
@[simp] theorem State.tellHead_entry (s : State) (h : HeadId) (n : HeadNote) (j : Nat) : (s.tellHead h n).entry j = s.entry j := rfl
@[simp] theorem State.tellHead_clip (s : State) (h : HeadId) (n : HeadNote) (j : Nat) : (s.tellHead h n).clip j = s.clip j := rfl

@[simp] theorem State.tellDetach_pending (s : State) (h : HeadId) (k : Nat) : (s.tellDetach h k).pending = s.pending := rfl
@[simp] theorem State.tellDetach_now (s : State) (h : HeadId) (k : Nat) : (s.tellDetach h k).now = s.now := rfl
@[simp] theorem State.tellDetach_cbsel (s : State) (h : HeadId) (k : Nat) : (s.tellDetach h k).cbsel = s.cbsel := rfl
@[simp] theorem State.tellDetach_startUp (s : State) (h : HeadId) (k : Nat) : (s.tellDetach h k).startUp = s.startUp := rfl
@[simp] theorem State.tellDetach_mem (s : State) (h : HeadId) (k : Nat) : (s.tellDetach h k).mem = s.mem := rfl
@[simp] theorem State.tellDetach_slots (s : State) (h : HeadId) (k : Nat) : (s.tellDetach h k).slots = s.slots := rfl
@[simp] theorem State.tellDetach_index (s : State) (h : HeadId) (k : Nat) : (s.tellDetach h k).index = s.index := rfl
@[simp] theorem State.tellDetach_chans (s : State) (h : HeadId) (k : Nat) : (s.tellDetach h k).chans = s.chans := rfl
@[simp] theorem State.tellDetach_heads (s : State) (h : HeadId) (k : Nat) : (s.tellDetach h k).heads = s.heads := rfl
@[simp] theorem State.tellDetach_clips (s : State) (h : HeadId) (k : Nat) : (s.tellDetach h k).clips = s.clips := rfl
@[simp] theorem State.tellDetach_preRoll (s : State) (h : HeadId) (k : Nat) : (s.tellDetach h k).preRoll = s.preRoll := rfl
@[simp] theorem State.tellDetach_postRoll (s : State) (h : HeadId) (k : Nat) : (s.tellDetach h k).postRoll = s.postRoll := rfl
@[simp] theorem State.tellDetach_ref (s : State) (h : HeadId) (k : Nat) : (s.tellDetach h k).ref = s.ref := rfl
@[simp] theorem State.tellDetach_ports (s : State) (h : HeadId) (k : Nat) : (s.tellDetach h k).ports = s.ports := rfl
@[simp] theorem State.tellDetach_proc (s : State) (h : HeadId) (k : Nat) : (s.tellDetach h k).proc = s.proc := rfl
@[simp] theorem State.tellDetach_evt (s : State) (h : HeadId) (k : Nat) : (s.tellDetach h k).evt = s.evt := rfl
@[simp] theorem State.tellDetach_mail (s : State) (h : HeadId) (k : Nat) : (s.tellDetach h k).mail = { s.mail with fromHead := pushAt s.mail.fromHead h k } := rfl
@[simp] theorem State.tellDetach_chan (s : State) (h : HeadId) (k : Nat) (j : ChanId) : (s.tellDetach h k).chan j = s.chan j := rfl
@[simp] theorem State.tellDetach_head (s : State) (h : HeadId) (k : Nat) (j : HeadId) : (s.tellDetach h k).head j = s.head j := rfl
@[simp] theorem State.tellDetach_port (s : State) (h : HeadId) (k : Nat) (j : PortId) : (s.tellDetach h k).port j = s.port j := rfl
@[simp] theorem State.tellDetach_slot (s : State) (h : HeadId) (k : Nat) (j : Nat) : (s.tellDetach h k).slot j = s.slot j := rfl
@[simp] theorem State.tellDetach_entry (s : State) (h : HeadId) (k : Nat) (j : Nat) : (s.tellDetach h k).entry j = s.entry j := rfl
@[simp] theorem State.tellDetach_clip (s : State) (h : HeadId) (k : Nat) (j : Nat) : (s.tellDetach h k).clip j = s.clip j := rfl

@[simp] theorem State.tellFromPort_pending (s : State) (p : PortId) (n : PortNote) : (s.tellFromPort p n).pending = s.pending := rfl
@[simp] theorem State.tellFromPort_now (s : State) (p : PortId) (n : PortNote) : (s.tellFromPort p n).now = s.now := rfl
@[simp] theorem State.tellFromPort_cbsel (s : State) (p : PortId) (n : PortNote) : (s.tellFromPort p n).cbsel = s.cbsel := rfl
@[simp] theorem State.tellFromPort_startUp (s : State) (p : PortId) (n : PortNote) : (s.tellFromPort p n).startUp = s.startUp := rfl
@[simp] theorem State.tellFromPort_mem (s : State) (p : PortId) (n : PortNote) : (s.tellFromPort p n).mem = s.mem := rfl
@[simp] theorem State.tellFromPort_slots (s : State) (p : PortId) (n : PortNote) : (s.tellFromPort p n).slots = s.slots := rfl
@[simp] theorem State.tellFromPort_index (s : State) (p : PortId) (n : PortNote) : (s.tellFromPort p n).index = s.index := rfl
@[simp] theorem State.tellFromPort_chans (s : State) (p : PortId) (n : PortNote) : (s.tellFromPort p n).chans = s.chans := rfl
@[simp] theorem State.tellFromPort_heads (s : State) (p : PortId) (n : PortNote) : (s.tellFromPort p n).heads = s.heads := rfl
@[simp] theorem State.tellFromPort_clips (s : State) (p : PortId) (n : PortNote) : (s.tellFromPort p n).clips = s.clips := rfl
@[simp] theorem State.tellFromPort_preRoll (s : State) (p : PortId) (n : PortNote) : (s.tellFromPort p n).preRoll = s.preRoll := rfl
@[simp] theorem State.tellFromPort_postRoll (s : State) (p : PortId) (n : PortNote) : (s.tellFromPort p n).postRoll = s.postRoll := rfl
@[simp] theorem State.tellFromPort_ref (s : State) (p : PortId) (n : PortNote) : (s.tellFromPort p n).ref = s.ref := rfl
@[simp] theorem State.tellFromPort_ports (s : State) (p : PortId) (n : PortNote) : (s.tellFromPort p n).ports = s.ports := rfl
@[simp] theorem State.tellFromPort_proc (s : State) (p : PortId) (n : PortNote) : (s.tellFromPort p n).proc = s.proc := rfl
@[simp] theorem State.tellFromPort_evt (s : State) (p : PortId) (n : PortNote) : (s.tellFromPort p n).evt = s.evt := rfl
@[simp] theorem State.tellFromPort_mail (s : State) (p : PortId) (n : PortNote) : (s.tellFromPort p n).mail = { s.mail with portNotes := pushAt s.mail.portNotes p n } := rfl
@[simp] theorem State.tellFromPort_chan (s : State) (p : PortId) (n : PortNote) (j : ChanId) : (s.tellFromPort p n).chan j = s.chan j := rfl
@[simp] theorem State.tellFromPort_head (s : State) (p : PortId) (n : PortNote) (j : HeadId) : (s.tellFromPort p n).head j = s.head j := rfl
@[simp] theorem State.tellFromPort_port (s : State) (p : PortId) (n : PortNote) (j : PortId) : (s.tellFromPort p n).port j = s.port j := rfl
@[simp] theorem State.tellFromPort_slot (s : State) (p : PortId) (n : PortNote) (j : Nat) : (s.tellFromPort p n).slot j = s.slot j := rfl
@[simp] theorem State.tellFromPort_entry (s : State) (p : PortId) (n : PortNote) (j : Nat) : (s.tellFromPort p n).entry j = s.entry j := rfl
@[simp] theorem State.tellFromPort_clip (s : State) (p : PortId) (n : PortNote) (j : Nat) : (s.tellFromPort p n).clip j = s.clip j := rfl

@[simp] theorem State.clearOut_pending (s : State) : s.clearOut.pending = s.pending := rfl
@[simp] theorem State.clearOut_now (s : State) : s.clearOut.now = s.now := rfl
@[simp] theorem State.clearOut_cbsel (s : State) : s.clearOut.cbsel = s.cbsel := rfl
@[simp] theorem State.clearOut_startUp (s : State) : s.clearOut.startUp = s.startUp := rfl
@[simp] theorem State.clearOut_mem (s : State) : s.clearOut.mem = { s.mem with engineOut := [] } := rfl
@[simp] theorem State.clearOut_slots (s : State) : s.clearOut.slots = s.slots := rfl
@[simp] theorem State.clearOut_index (s : State) : s.clearOut.index = s.index := rfl
@[simp] theorem State.clearOut_chans (s : State) : s.clearOut.chans = s.chans := rfl
@[simp] theorem State.clearOut_heads (s : State) : s.clearOut.heads = s.heads := rfl
@[simp] theorem State.clearOut_clips (s : State) : s.clearOut.clips = s.clips := rfl
@[simp] theorem State.clearOut_preRoll (s : State) : s.clearOut.preRoll = s.preRoll := rfl
@[simp] theorem State.clearOut_postRoll (s : State) : s.clearOut.postRoll = s.postRoll := rfl
@[simp] theorem State.clearOut_ref (s : State) : s.clearOut.ref = s.ref := rfl
@[simp] theorem State.clearOut_ports (s : State) : s.clearOut.ports = s.ports := rfl
@[simp] theorem State.clearOut_proc (s : State) : s.clearOut.proc = s.proc := rfl
@[simp] theorem State.clearOut_evt (s : State) : s.clearOut.evt = s.evt := rfl
@[simp] theorem State.clearOut_mail (s : State) : s.clearOut.mail = s.mail := rfl
@[simp] theorem State.clearOut_chan (s : State) (j : ChanId) : s.clearOut.chan j = s.chan j := rfl
@[simp] theorem State.clearOut_head (s : State) (j : HeadId) : s.clearOut.head j = s.head j := rfl
@[simp] theorem State.clearOut_port (s : State) (j : PortId) : s.clearOut.port j = s.port j := rfl
@[simp] theorem State.clearOut_slot (s : State) (j : Nat) : s.clearOut.slot j = s.slot j := rfl
@[simp] theorem State.clearOut_entry (s : State) (j : Nat) : s.clearOut.entry j = s.entry j := rfl
@[simp] theorem State.clearOut_clip (s : State) (j : Nat) : s.clearOut.clip j = s.clip j := rfl

@[simp] theorem State.indexClear_pending (s : State) (lo n : Nat) : (s.indexClear lo n).pending = s.pending := rfl
@[simp] theorem State.indexClear_now (s : State) (lo n : Nat) : (s.indexClear lo n).now = s.now := rfl
@[simp] theorem State.indexClear_cbsel (s : State) (lo n : Nat) : (s.indexClear lo n).cbsel = s.cbsel := rfl
@[simp] theorem State.indexClear_startUp (s : State) (lo n : Nat) : (s.indexClear lo n).startUp = s.startUp := rfl
@[simp] theorem State.indexClear_mem (s : State) (lo n : Nat) : (s.indexClear lo n).mem = s.mem := rfl
@[simp] theorem State.indexClear_slots (s : State) (lo n : Nat) : (s.indexClear lo n).slots = s.slots := rfl
@[simp] theorem State.indexClear_index (s : State) (lo n : Nat) : (s.indexClear lo n).index = Tbl.clear s.index lo n := rfl
@[simp] theorem State.indexClear_chans (s : State) (lo n : Nat) : (s.indexClear lo n).chans = s.chans := rfl
@[simp] theorem State.indexClear_heads (s : State) (lo n : Nat) : (s.indexClear lo n).heads = s.heads := rfl
@[simp] theorem State.indexClear_clips (s : State) (lo n : Nat) : (s.indexClear lo n).clips = s.clips := rfl
@[simp] theorem State.indexClear_preRoll (s : State) (lo n : Nat) : (s.indexClear lo n).preRoll = s.preRoll := rfl
@[simp] theorem State.indexClear_postRoll (s : State) (lo n : Nat) : (s.indexClear lo n).postRoll = s.postRoll := rfl
@[simp] theorem State.indexClear_ref (s : State) (lo n : Nat) : (s.indexClear lo n).ref = s.ref := rfl
@[simp] theorem State.indexClear_ports (s : State) (lo n : Nat) : (s.indexClear lo n).ports = s.ports := rfl
@[simp] theorem State.indexClear_proc (s : State) (lo n : Nat) : (s.indexClear lo n).proc = s.proc := rfl
@[simp] theorem State.indexClear_evt (s : State) (lo n : Nat) : (s.indexClear lo n).evt = s.evt := rfl
@[simp] theorem State.indexClear_mail (s : State) (lo n : Nat) : (s.indexClear lo n).mail = s.mail := rfl
@[simp] theorem State.indexClear_chan (s : State) (lo n : Nat) (j : ChanId) : (s.indexClear lo n).chan j = s.chan j := rfl
@[simp] theorem State.indexClear_head (s : State) (lo n : Nat) (j : HeadId) : (s.indexClear lo n).head j = s.head j := rfl
@[simp] theorem State.indexClear_port (s : State) (lo n : Nat) (j : PortId) : (s.indexClear lo n).port j = s.port j := rfl
@[simp] theorem State.indexClear_slot (s : State) (lo n : Nat) (j : Nat) : (s.indexClear lo n).slot j = s.slot j := rfl
@[simp] theorem State.indexClear_clip (s : State) (lo n : Nat) (j : Nat) : (s.indexClear lo n).clip j = s.clip j := rfl

end Sys2Proof.Machine
end

