-- ==== Sys2Proof/Laws/Tables.lean ====
section
/-! SUPPORT. Tables.lean: the laws of the sparse tables: what a read gives after a write or a clear, and that both keep the one
form. -/

namespace Sys2Proof

variable {α : Type}

theorem Tbl.read_of_forall_ne (d : α) (t : Tbl α) (k : Nat) (h : ∀ e ∈ t, e.1 ≠ k) : Tbl.read d t k = d := by
  induction t with
  | nil => rfl
  | cons e t ih =>
    have h1 : k ≠ e.1 := fun x => h e (by simp) x.symm
    simp only [Tbl.read, h1, if_false]
    exact ih (fun x hx => h x (by simp [hx]))

theorem Tbl.read_put_self (d : α) (t : Tbl α) (k : Nat) (v : α) (h : ∀ e ∈ t, e.1 ≠ k) : Tbl.read d (Tbl.put t k v) k = v := by
  induction t with
  | nil => simp [Tbl.put, Tbl.read]
  | cons e t ih =>
    have h1 : k ≠ e.1 := fun x => h e (by simp) x.symm
    unfold Tbl.put
    split
    · simp [Tbl.read]
    · simp only [Tbl.read, h1, if_false]
      exact ih (fun x hx => h x (by simp [hx]))

theorem Tbl.read_put_ne (d : α) (t : Tbl α) (k j : Nat) (v : α) (h : j ≠ k) : Tbl.read d (Tbl.put t k v) j = Tbl.read d t j := by
  induction t with
  | nil => simp [Tbl.put, Tbl.read, h]
  | cons e t ih =>
    unfold Tbl.put
    split
    · simp [Tbl.read, h]
    · simp only [Tbl.read, ih]

theorem Tbl.read_filter (d : α) (t : Tbl α) (p : Nat → Bool) (j : Nat) (h : p j = true) :
    Tbl.read d (t.filter (fun e => p e.1)) j = Tbl.read d t j := by
  induction t with
  | nil => rfl
  | cons e t ih =>
    by_cases hj : j = e.1
    · subst hj
      simp [List.filter, h, Tbl.read]
    · by_cases hp : p e.1
      · simp [List.filter, hp, Tbl.read, hj, ih]
      · simp [List.filter, hp, Tbl.read, hj, ih]

theorem Tbl.read_filter_out (d : α) (t : Tbl α) (p : Nat → Bool) (j : Nat) (h : p j = false) :
    Tbl.read d (t.filter (fun e => p e.1)) j = d := by
  apply Tbl.read_of_forall_ne
  intro e he hj
  rw [List.mem_filter] at he
  rw [hj, h] at he
  exact Bool.noConfusion he.2

/-- A read after a write: the value written at its own number, the old value elsewhere. -/
theorem Tbl.read_write [DecidableEq α] (d : α) (t : Tbl α) (k : Nat) (v : α) (j : Nat) :
    Tbl.read d (Tbl.write d t k v) j = if j = k then v else Tbl.read d t j := by
  have hf : ∀ e ∈ t.filter (fun e => !decide (e.1 = k)), e.1 ≠ k := by
    intro e he
    simpa using (List.mem_filter.mp he).2
  unfold Tbl.write
  by_cases hj : j = k
  · subst hj
    by_cases hv : v = d
    · simp only [hv, if_true]
      exact Tbl.read_of_forall_ne d _ j hf
    · simp only [hv, if_false, if_true]
      exact Tbl.read_put_self d _ j v hf
  · have h2 : Tbl.read d (t.filter (fun e => !decide (e.1 = k))) j = Tbl.read d t j :=
      Tbl.read_filter d t (fun x => !decide (x = k)) j (by simp [hj])
    by_cases hv : v = d
    · simp only [hv, hj, if_true, if_false, h2]
    · simp only [hv, hj, if_false, Tbl.read_put_ne d _ k j v hj, h2]

/-- A read after a clear: the default inside the range, the old value outside. -/
theorem Tbl.read_clear (d : α) (t : Tbl α) (lo n j : Nat) :
    Tbl.read d (Tbl.clear t lo n) j = if lo ≤ j ∧ j < lo + n then d else Tbl.read d t j := by
  by_cases h : lo ≤ j ∧ j < lo + n
  · rw [if_pos h]
    exact Tbl.read_filter_out d t (fun x => !(decide (lo ≤ x) && decide (x < lo + n))) j (by simp [h])
  · rw [if_neg h]
    refine Tbl.read_filter d t (fun x => !(decide (lo ≤ x) && decide (x < lo + n))) j ?_
    rcases not_and_or.mp h with h | h <;> simp [h]

theorem Tbl.mem_put (t : Tbl α) (k : Nat) (v : α) (e : Nat × α) : e ∈ Tbl.put t k v ↔ e = (k, v) ∨ e ∈ t := by
  induction t with
  | nil => simp [Tbl.put]
  | cons x t ih =>
    unfold Tbl.put
    split
    · simp
    · simp [ih]
      tauto

theorem Tbl.wf_nil (d : α) : Tbl.wf d [] := ⟨List.Pairwise.nil, by simp⟩

/-- A filtered table keeps the form. -/
theorem Tbl.wf_filter (d : α) (t : Tbl α) (p : Nat × α → Bool) (h : Tbl.wf d t) : Tbl.wf d (t.filter p) :=
  ⟨h.1.filter p, fun e he => h.2 e (List.mem_of_mem_filter he)⟩

theorem Tbl.wf_put (d : α) (t : Tbl α) (k : Nat) (v : α) (h : Tbl.wf d t) (hk : ∀ e ∈ t, e.1 ≠ k) (hv : v ≠ d) :
    Tbl.wf d (Tbl.put t k v) := by
  refine ⟨?_, ?_⟩
  · induction t with
    | nil => simp [Tbl.put]
    | cons x t ih =>
      have hx := List.pairwise_cons.mp h.1
      unfold Tbl.put
      split
      · rename_i hlt
        refine List.pairwise_cons.mpr ⟨?_, h.1⟩
        intro e he
        rcases List.mem_cons.mp he with rfl | he
        · exact hlt
        · exact Nat.lt_trans hlt (hx.1 e he)
      · rename_i hlt
        have hne : x.1 ≠ k := hk x (by simp)
        have hxk : x.1 < k := by omega
        refine List.pairwise_cons.mpr ⟨?_, ih ⟨hx.2, fun e he => h.2 e (by simp [he])⟩ (fun e he => hk e (by simp [he]))⟩
        intro e he
        rcases (Tbl.mem_put t k v e).mp he with rfl | he
        · exact hxk
        · exact hx.1 e he
  · intro e he
    rcases (Tbl.mem_put t k v e).mp he with rfl | he
    · exact hv
    · exact h.2 e he

/-- A write keeps the form. -/
theorem Tbl.wf_write [DecidableEq α] (d : α) (t : Tbl α) (k : Nat) (v : α) (h : Tbl.wf d t) : Tbl.wf d (Tbl.write d t k v) := by
  unfold Tbl.write
  split
  · exact Tbl.wf_filter d t _ h
  · rename_i hv
    refine Tbl.wf_put d _ k v (Tbl.wf_filter d t _ h) ?_ hv
    intro e he
    simpa using (List.mem_filter.mp he).2

/-- A clear keeps the form. -/
theorem Tbl.wf_clear (d : α) (t : Tbl α) (lo n : Nat) (h : Tbl.wf d t) : Tbl.wf d (Tbl.clear t lo n) :=
  Tbl.wf_filter d t _ h

namespace Machine

/-! ## Readers of the record just set -/

@[simp] theorem State.setChan_chan (s : State) (c d : ChanId) (x : Channel) :
    (s.setChan c x).chan d = if d = c then x else s.chan d := by
  unfold State.setChan State.chan
  by_cases h : d = c
  · subst h
    simp [Vector.get_eq_getElem]
  · have h' : c.val ≠ d.val := fun e => h (Fin.ext e.symm)
    simp [Vector.get_eq_getElem, h, h']

@[simp] theorem State.setHead_head (s : State) (h g : HeadId) (x : Head) :
    (s.setHead h x).head g = if g = h then x else s.head g := by
  unfold State.setHead State.head
  by_cases e : g = h
  · subst e
    simp [Vector.get_eq_getElem]
  · have e' : h.val ≠ g.val := fun z => e (Fin.ext z.symm)
    simp [Vector.get_eq_getElem, e, e']

@[simp] theorem State.setPort_port (s : State) (p q : PortId) (x : Port) :
    (s.setPort p x).port q = if q = p then x else s.port q := by
  unfold State.setPort State.port
  by_cases e : q = p
  · subst e
    simp [Vector.get_eq_getElem]
  · have e' : p.val ≠ q.val := fun z => e (Fin.ext z.symm)
    simp [Vector.get_eq_getElem, e, e']

@[simp] theorem State.setSlot_slot (s : State) (n m : Nat) (x : Slot) :
    (s.setSlot n x).slot m = if m = n then x else s.slot m := Tbl.read_write _ _ _ _ _

@[simp] theorem State.setEntry_entry (s : State) (i j : Nat) (x : IndexEntry) :
    (s.setEntry i x).entry j = if j = i then x else s.entry j := Tbl.read_write _ _ _ _ _

@[simp] theorem State.setClip_clip (s : State) (k j : Nat) (x : Clip) :
    (s.setClip k x).clip j = if j = k then x else s.clip j := Tbl.read_write _ _ _ _ _

@[simp] theorem State.indexClear_entry (s : State) (lo n j : Nat) :
    (s.indexClear lo n).entry j = if lo ≤ j ∧ j < lo + n then {} else s.entry j := Tbl.read_clear _ _ _ _ _

/-- Every table update keeps the tables' form. -/
theorem State.tablesWf_setSlot (s : State) (n : Nat) (x : Slot) (h : s.tablesWf) : (s.setSlot n x).tablesWf :=
  ⟨Tbl.wf_write _ _ _ _ h.1, h.2⟩

theorem State.tablesWf_setEntry (s : State) (i : Nat) (x : IndexEntry) (h : s.tablesWf) : (s.setEntry i x).tablesWf :=
  ⟨h.1, Tbl.wf_write _ _ _ _ h.2.1, h.2.2⟩

theorem State.tablesWf_setClip (s : State) (k : Nat) (x : Clip) (h : s.tablesWf) : (s.setClip k x).tablesWf :=
  ⟨h.1, h.2.1, Tbl.wf_write _ _ _ _ h.2.2⟩

theorem State.tablesWf_indexClear (s : State) (lo n : Nat) (h : s.tablesWf) : (s.indexClear lo n).tablesWf :=
  ⟨h.1, Tbl.wf_clear _ _ _ _ h.2.1, h.2.2⟩

end Machine
end Sys2Proof
end

