-- ==== Sys2Proof/Laws/Slots.lean ====
section
/-! SUPPORT. Slots.lean: what each slot operation can do, and which fields of State it leaves alone. -/

namespace Sys2Proof.Machine

/-- A mailbox after a push. -/
@[simp] theorem get_pushAt {α : Type} {n : Nat} (v : Vector (List α) n) (i j : Fin n) (x : α) :
    (pushAt v i x).get j = if j = i then v.get i ++ [x] else v.get j := by
  unfold pushAt
  by_cases h : j = i
  · subst h
    simp [Vector.get_eq_getElem]
  · have h' : i.val ≠ j.val := fun e => h (Fin.ext e.symm)
    simp [Vector.get_eq_getElem, h, h']

/-- A mailbox after a pop. -/
@[simp] theorem get_popAt {α : Type} {n : Nat} (v : Vector (List α) n) (i j : Fin n) :
    (popAt v i).get j = if j = i then (v.get i).tail else v.get j := by
  unfold popAt
  by_cases h : j = i
  · subst h
    simp [Vector.get_eq_getElem]
  · have h' : i.val ≠ j.val := fun e => h (Fin.ext e.symm)
    simp [Vector.get_eq_getElem, h, h']

/-- Take: the slot becomes RECORDING with the new RFN, or nothing changes. -/
theorem State.take_cases (s : State) (n r : Nat) :
    (s.ownerOf n ≠ none ∧ (s.slot n).state ≠ .recording ∧ (s.slot n).locks = 0 ∧ (s.slot n).pins = 0 ∧
        s.take n r = (s.setSlot n { state := .recording, rfn := r, locks := 0, pins := 0 },
          .done (if (s.slot n).state = .held then some (s.slot n).rfn else none))) ∨
      ∃ c, s.take n r = (s, .declined c) := by
  unfold State.take
  split_ifs <;> simp_all

/-- Commit: a RECORDING slot becomes HELD and its owner's entry names it, or nothing changes. -/
theorem State.commit_cases (s : State) (n : Nat) :
    ((s.slot n).state = .recording ∧ s.commit n = ((s.indexCommit n).setSlot n { s.slot n with state := .held }, .done none)) ∨
      ((s.slot n).state ≠ .recording ∧ s.commit n = (s, .declined .notRecording)) := by
  unfold State.commit
  split_ifs <;> simp_all

/-- Empty: the slot becomes EMPTY with RFN 0, or nothing changes. -/
theorem State.empty_cases (s : State) (n : Nat) :
    (((s.slot n).state = .recording ∨ (s.slot n).state = .held ∧ (s.slot n).locks = 0 ∧ (s.slot n).pins = 0) ∧
        s.empty n = (s.setSlot n {}, .done none)) ∨
      ((s.slot n).state = .empty ∧ s.empty n = (s, .done none)) ∨
      ((s.slot n).state = .held ∧ ∃ c, s.empty n = (s, .declined c)) := by
  unfold State.empty
  split
  · simp_all
  · simp_all
  · split_ifs <;> simp_all

/-- Lock: the lock count rises by 1, and the owner's locked count with it when it left 0, or nothing changes. -/
theorem State.lock_cases (s : State) (n r : Nat) :
    ((s.slot n).state = .held ∧ (s.slot n).rfn = r ∧ (s.slot n).locks = 0 ∧ s.hasAllowance n = true ∧
        s.lock n r = ((s.countLocked n (· + 1)).setSlot n { s.slot n with locks := 1 }, .done none)) ∨
      ((s.slot n).state = .held ∧ (s.slot n).rfn = r ∧ (s.slot n).locks ≠ 0 ∧ (s.slot n).locks < Config.maxLocks ∧
        s.lock n r = (s.setSlot n { s.slot n with locks := (s.slot n).locks + 1 }, .done none)) ∨
      ∃ c, s.lock n r = (s, .declined c) := by
  unfold State.lock
  split_ifs <;> simp_all

/-- Unlock: the lock count falls by 1, and the owner's locked count with it when it comes to 0, or nothing changes. -/
theorem State.unlock_cases (s : State) (n : Nat) :
    ((s.slot n).locks = 1 ∧
        s.unlock n = ((s.countLocked n (· - 1)).setSlot n { s.slot n with locks := 0 }, .done none)) ∨
      (1 < (s.slot n).locks ∧ s.unlock n = (s.setSlot n { s.slot n with locks := (s.slot n).locks - 1 }, .done none)) ∨
      ((s.slot n).locks = 0 ∧ s.unlock n = (s, .declined .atZero)) := by
  unfold State.unlock
  split_ifs <;> simp_all
  omega

/-- Pin: the pin count rises by 1, or nothing changes. -/
theorem State.pin_cases (s : State) (n r : Nat) :
    ((s.slot n).state = .held ∧ (s.slot n).rfn = r ∧ (s.slot n).pins < Config.maxPins ∧
        s.pin n r = (s.setSlot n { s.slot n with pins := (s.slot n).pins + 1 }, .done none)) ∨
      ∃ c, s.pin n r = (s, .declined c) := by
  unfold State.pin
  split_ifs <;> simp_all

/-- Unpin: the pin count falls by 1, or nothing changes. -/
theorem State.unpin_cases (s : State) (n : Nat) :
    (0 < (s.slot n).pins ∧ s.unpin n = (s.setSlot n { s.slot n with pins := (s.slot n).pins - 1 }, .done none)) ∨
      ((s.slot n).pins = 0 ∧ s.unpin n = (s, .declined .atZero)) := by
  unfold State.unpin
  split_ifs <;> simp_all
  omega

/-! ## Frames -/

theorem State.countLocked_frame (s : State) (n : Nat) (f : Nat → Nat) :
    s.countLocked n f = { s with chans := (s.countLocked n f).chans } := by
  unfold State.countLocked
  split <;> rfl

theorem State.indexCommit_frame (s : State) (n : Nat) : s.indexCommit n = { s with index := (s.indexCommit n).index } := by
  unfold State.indexCommit
  split <;> rfl

theorem State.take_frame (s : State) (n r : Nat) : (s.take n r).1 = { s with slots := (s.take n r).1.slots } := by
  rcases s.take_cases n r with ⟨_, _, _, _, h⟩ | ⟨c, h⟩ <;> rw [h] <;> rfl

theorem State.commit_frame (s : State) (n : Nat) :
    (s.commit n).1 = { s with slots := (s.commit n).1.slots, index := (s.commit n).1.index } := by
  rcases s.commit_cases n with ⟨_, h⟩ | ⟨_, h⟩
  · rw [h]
    simp only [State.setSlot]
    rw [State.indexCommit_frame]
  · rw [h]

theorem State.empty_frame (s : State) (n : Nat) : (s.empty n).1 = { s with slots := (s.empty n).1.slots } := by
  rcases s.empty_cases n with ⟨_, h⟩ | ⟨_, h⟩ | ⟨_, c, h⟩ <;> rw [h] <;> rfl

theorem State.lock_frame (s : State) (n r : Nat) :
    (s.lock n r).1 = { s with slots := (s.lock n r).1.slots, chans := (s.lock n r).1.chans } := by
  rcases s.lock_cases n r with ⟨_, _, _, _, h⟩ | ⟨_, _, _, _, h⟩ | ⟨c, h⟩ <;> rw [h]
  · simp only [State.setSlot]
    rw [State.countLocked_frame]
  · rfl

theorem State.unlock_frame (s : State) (n : Nat) :
    (s.unlock n).1 = { s with slots := (s.unlock n).1.slots, chans := (s.unlock n).1.chans } := by
  rcases s.unlock_cases n with ⟨_, h⟩ | ⟨_, h⟩ | ⟨_, h⟩ <;> rw [h]
  · simp only [State.setSlot]
    rw [State.countLocked_frame]
  · rfl

theorem State.pin_frame (s : State) (n r : Nat) : (s.pin n r).1 = { s with slots := (s.pin n r).1.slots } := by
  rcases s.pin_cases n r with ⟨_, _, _, h⟩ | ⟨c, h⟩ <;> rw [h] <;> rfl

theorem State.unpin_frame (s : State) (n : Nat) : (s.unpin n).1 = { s with slots := (s.unpin n).1.slots } := by
  rcases s.unpin_cases n with ⟨_, h⟩ | ⟨_, h⟩ <;> rw [h] <;> rfl

theorem State.unpinIf_frame (s : State) (o : Option Nat) : s.unpinIf o = { s with slots := (s.unpinIf o).slots } := by
  unfold State.unpinIf
  split
  · rfl
  · exact State.unpin_frame _ _

/-- A fold of steps that each leave all but the slots alone leaves all but the slots alone. -/
theorem foldl_slots_frame {β : Type} (f : State → β → State) (hf : ∀ s b, f s b = { s with slots := (f s b).slots })
    (l : List β) (s : State) : l.foldl f s = { s with slots := (l.foldl f s).slots } := by
  induction l generalizing s with
  | nil => rfl
  | cons b l ih =>
    rw [List.foldl_cons, ih (f s b)]
    rw [hf s b]

theorem foldl_slots_index_frame {β : Type} (f : State → β → State)
    (hf : ∀ s b, f s b = { s with slots := (f s b).slots, index := (f s b).index }) (l : List β) (s : State) :
    l.foldl f s = { s with slots := (l.foldl f s).slots, index := (l.foldl f s).index } := by
  induction l generalizing s with
  | nil => rfl
  | cons b l ih =>
    rw [List.foldl_cons, ih (f s b)]
    rw [hf s b]

theorem foldl_slots_chans_frame {β : Type} (f : State → β → State)
    (hf : ∀ s b, f s b = { s with slots := (f s b).slots, chans := (f s b).chans }) (l : List β) (s : State) :
    l.foldl f s = { s with slots := (l.foldl f s).slots, chans := (l.foldl f s).chans } := by
  induction l generalizing s with
  | nil => rfl
  | cons b l ih =>
    rw [List.foldl_cons, ih (f s b)]
    rw [hf s b]

theorem State.emptyAll_frame (s : State) (ns : List Nat) : s.emptyAll ns = { s with slots := (s.emptyAll ns).slots } :=
  foldl_slots_frame _ (fun s n => s.empty_frame n) ns s

theorem State.commitAll_frame (s : State) (ns : List Nat) :
    s.commitAll ns = { s with slots := (s.commitAll ns).slots, index := (s.commitAll ns).index } :=
  foldl_slots_index_frame _ (fun s n => s.commit_frame n) ns s

/-! ## What the folds do to the slot records -/

/-- A slot after an empty of slot `n`. -/
theorem State.empty_slot (s : State) (n m : Nat) :
    (s.empty n).1.slot m = if m = n then (s.slot m).emptied else s.slot m := by
  unfold Slot.emptied
  rcases s.empty_cases n with ⟨h, e⟩ | ⟨h, e⟩ | ⟨h, c, e⟩
  · rw [e]
    by_cases hm : m = n
    · subst hm
      simp [h]
    · simp [hm]
  · rw [e]
    by_cases hm : m = n
    · subst hm
      simp [h]
    · simp [hm]
  · by_cases hm : m = n
    · subst hm
      by_cases hd : (s.slot m).locks = 0 ∧ (s.slot m).pins = 0
      · simp [State.empty, h, hd]
      · rw [e]
        simp [h, hd]
    · rw [e]
      simp [hm]

theorem Slot.emptied_emptied (x : Slot) : x.emptied.emptied = x.emptied := by
  unfold Slot.emptied
  split_ifs <;> simp_all

/-- A slot after the slots of a list are emptied in turn. -/
theorem State.emptyAll_slot (s : State) (ns : List Nat) (m : Nat) :
    (s.emptyAll ns).slot m = if m ∈ ns then (s.slot m).emptied else s.slot m := by
  unfold State.emptyAll
  induction ns generalizing s with
  | nil => simp
  | cons n ns ih =>
    rw [List.foldl_cons, ih, State.empty_slot]
    by_cases hm : m = n
    · subst hm
      by_cases hn : m ∈ ns <;> simp [hn, Slot.emptied_emptied]
    · by_cases hn : m ∈ ns <;> simp [hn, hm]

/-- A slot after an unpin of slot `n`. -/
theorem State.unpin_slot (s : State) (n m : Nat) :
    (s.unpin n).1.slot m = if m = n then (s.slot m).unpinned else s.slot m := by
  unfold Slot.unpinned
  rcases s.unpin_cases n with ⟨h, e⟩ | ⟨h, e⟩
  · rw [e]
    by_cases hm : m = n
    · subst hm
      simp
    · simp [hm]
  · rw [e]
    by_cases hm : m = n
    · subst hm
      have h2 : ({ s.slot m with pins := (s.slot m).pins - 1 } : Slot) = s.slot m := by
        rw [h]
        cases hx : s.slot m
        simp_all
      simp [h2]
    · simp [hm]

/-- A slot after the unpin of a slot that may be none. -/
theorem State.unpinIf_slot (s : State) (o : Option Nat) (m : Nat) :
    (s.unpinIf o).slot m = if o = some m then (s.slot m).unpinned else s.slot m := by
  unfold State.unpinIf
  cases o with
  | none => simp
  | some n =>
    rw [State.unpin_slot]
    by_cases hm : m = n
    · simp [hm]
    · simp [hm, Ne.symm hm]

end Sys2Proof.Machine
end

