-- ==== Sys2Proof/Laws/Commands.lean ====
section
/-! SUPPORT. Commands.lean: what a command of the ring does at the processor and in the own-request queue, said once. -/

namespace Sys2Proof.Machine

/-- The state in which the owning block meets a fetched command: the fetch has left the queue, the processor is EXECUTING. -/
def State.taken (s : State) (k : Nat) (kind : Byte) (r : CmdArgs) : State :=
  (s.leaveOwn k).setProc { s.proc with state := .executing, current := some { kind, args := r }, reportFailed := false }

/-- A request in time is not overdue. -/
theorem State.overdue_of_inTime {s : State} {q : Requester} {k : Nat} (h : s.inTime q k) : s.overdue k = false := by
  obtain ⟨_, r, t, h1, h2, h3⟩ := h
  simp only [State.overdue, h1, h2, Config.ownTimeout, Option.any_some, decide_eq_false_iff_not]
  omega

/-- A request that came too late is overdue. -/
theorem State.overdue_of_tooLate {s : State} {q : Requester} {k : Nat} (h : s.tooLate q k) : s.overdue k = true := by
  obtain ⟨_, r, t, h1, h2, h3⟩ := h
  simp [State.overdue, h1, h2, h3]

/-- A completion in time goes to its requester with the status it has. -/
theorem State.ownComplete_of_inTime {s : State} {q : Requester} {k : Nat} (h : s.inTime q k) (st : Status)
    (f : Status → State → State) : s.ownComplete q st f = f st (s.leaveOwn k) := by
  simp [State.ownComplete, h.1, State.overdue_of_inTime h]

/-- A completion after the timeout reaches its requester as TIMEOUT. -/
theorem State.ownComplete_of_tooLate {s : State} {q : Requester} {k : Nat} (h : s.tooLate q k) (st : Status)
    (f : Status → State → State) : s.ownComplete q st f = f .error (s.leaveOwn k) := by
  simp [State.ownComplete, h.1, State.overdue_of_tooLate h]

/-- A processor that waits takes the record. -/
theorem State.fetched_of_awaits (s : State) (kind : Byte) (r : CmdArgs) (h : s.awaits) :
    ∃ k, s.mem.outstanding .fetch = some k ∧ ∀ run, s.fetched kind r run = run (s.taken k kind r) := by
  obtain ⟨h1, k, hk⟩ := h
  exact ⟨k, hk.1, fun run => by simp [State.fetched, h1, hk.1, State.overdue_of_inTime hk, State.taken]⟩

/-- A record that comes too late halts the processor. -/
theorem State.fetched_of_tooLate (s : State) (kind : Byte) (r : CmdArgs) (k : Nat) (h1 : s.proc.state = .fetching)
    (h : s.tooLate .fetch k) (run : State → State) : s.fetched kind r run = (s.leaveOwn k).fetchFail := by
  simp [State.fetched, h1, h.1, State.overdue_of_tooLate h]

@[simp] theorem State.taken_pending (s : State) (k : Nat) (b : Byte) (r : CmdArgs) : (s.taken k b r).pending = s.pending := rfl
@[simp] theorem State.taken_now (s : State) (k : Nat) (b : Byte) (r : CmdArgs) : (s.taken k b r).now = s.now := rfl
@[simp] theorem State.taken_cbsel (s : State) (k : Nat) (b : Byte) (r : CmdArgs) : (s.taken k b r).cbsel = s.cbsel := rfl
@[simp] theorem State.taken_startUp (s : State) (k : Nat) (b : Byte) (r : CmdArgs) : (s.taken k b r).startUp = s.startUp := rfl
@[simp] theorem State.taken_mem (s : State) (k : Nat) (b : Byte) (r : CmdArgs) : (s.taken k b r).mem = s.mem.leave k := rfl
@[simp] theorem State.taken_slots (s : State) (k : Nat) (b : Byte) (r : CmdArgs) : (s.taken k b r).slots = s.slots := rfl
@[simp] theorem State.taken_index (s : State) (k : Nat) (b : Byte) (r : CmdArgs) : (s.taken k b r).index = s.index := rfl
@[simp] theorem State.taken_chans (s : State) (k : Nat) (b : Byte) (r : CmdArgs) : (s.taken k b r).chans = s.chans := rfl
@[simp] theorem State.taken_heads (s : State) (k : Nat) (b : Byte) (r : CmdArgs) : (s.taken k b r).heads = s.heads := rfl
@[simp] theorem State.taken_clips (s : State) (k : Nat) (b : Byte) (r : CmdArgs) : (s.taken k b r).clips = s.clips := rfl
@[simp] theorem State.taken_preRoll (s : State) (k : Nat) (b : Byte) (r : CmdArgs) : (s.taken k b r).preRoll = s.preRoll := rfl
@[simp] theorem State.taken_postRoll (s : State) (k : Nat) (b : Byte) (r : CmdArgs) :
    (s.taken k b r).postRoll = s.postRoll := rfl
@[simp] theorem State.taken_ref (s : State) (k : Nat) (b : Byte) (r : CmdArgs) : (s.taken k b r).ref = s.ref := rfl
@[simp] theorem State.taken_ports (s : State) (k : Nat) (b : Byte) (r : CmdArgs) : (s.taken k b r).ports = s.ports := rfl
@[simp] theorem State.taken_evt (s : State) (k : Nat) (b : Byte) (r : CmdArgs) : (s.taken k b r).evt = s.evt := rfl
@[simp] theorem State.taken_mail (s : State) (k : Nat) (b : Byte) (r : CmdArgs) : (s.taken k b r).mail = s.mail := rfl
@[simp] theorem State.taken_chan (s : State) (k : Nat) (b : Byte) (r : CmdArgs) (c : ChanId) :
    (s.taken k b r).chan c = s.chan c := rfl
@[simp] theorem State.taken_head (s : State) (k : Nat) (b : Byte) (r : CmdArgs) (h : HeadId) :
    (s.taken k b r).head h = s.head h := rfl
@[simp] theorem State.taken_port (s : State) (k : Nat) (b : Byte) (r : CmdArgs) (p : PortId) :
    (s.taken k b r).port p = s.port p := rfl
@[simp] theorem State.taken_slot (s : State) (k : Nat) (b : Byte) (r : CmdArgs) (n : Nat) :
    (s.taken k b r).slot n = s.slot n := rfl
@[simp] theorem State.taken_entry (s : State) (k : Nat) (b : Byte) (r : CmdArgs) (n : Nat) :
    (s.taken k b r).entry n = s.entry n := rfl
@[simp] theorem State.taken_clip (s : State) (k : Nat) (b : Byte) (r : CmdArgs) (n : Nat) :
    (s.taken k b r).clip n = s.clip n := rfl

/-- Leaving the queue touches the queue alone. -/
theorem MemPath.leave_frame (m : MemPath) (k : Nat) : m.leave k = m.withOwn (m.leave k) := by
  unfold MemPath.leave
  split
  · rfl
  · split <;> rfl

/-- The start-up writes are own writes of 0 to the two words (R173). -/
theorem startCmdWrite_eq (cbsel : BitVec 4) : startCmdWrite cbsel = .write .startCmd (controlBase cbsel + 0x4) [0, 0, 0, 0] := by
  revert cbsel; decide

theorem startEvtWrite_eq (cbsel : BitVec 4) : startEvtWrite cbsel = .write .startEvt (controlBase cbsel + 0x8) [0, 0, 0, 0] := by
  revert cbsel; decide

/-- An own write to a multiple of 32 of whole beats goes out as it stands. -/
theorem OwnReq.write_beats (q : Requester) (a : Addr) (bytes : List Byte) (ha : a.toNat % 32 = 0) (hb : bytes.length % 32 = 0) :
    OwnReq.write q a bytes = { req := q, dir := .write, addr := a, beats := bytes.length / 32, data := bytes.map byteOn } := by
  have h : (bytes.length + 31) / 32 = bytes.length / 32 := by omega
  simp [OwnReq.write, ha, h]
  omega

/-- Queuing touches the queue alone. -/
theorem MemPath.queueOwn_frame (m : MemPath) (r : OwnReq) : m.queueOwn r = m.withOwn (m.queueOwn r) := by
  unfold MemPath.queueOwn
  split <;> rfl

/-- Replacing the queue of a path whose queue alone was touched. -/
@[simp] theorem MemPath.withOwn_leave (m x : MemPath) (k : Nat) : (m.leave k).withOwn x = m.withOwn x := by
  rw [MemPath.leave_frame]
  rfl

@[simp] theorem MemPath.leave_active (m : MemPath) (k : Nat) : (m.leave k).active = m.active := by
  rw [MemPath.leave_frame]
  rfl

@[simp] theorem MemPath.leave_burstNo (m : MemPath) (k : Nat) : (m.leave k).burstNo = m.burstNo := by
  rw [MemPath.leave_frame]
  rfl

/-- The end of a command's execution: the processor is WRITING with the record filled in, and the write-back is queued. -/
theorem State.endCommand_eq (s : State) (x : CmdRecord) (o : CmdResult) (h : s.proc.current = some x) :
    s.endCommand o =
      (s.setProc { s.proc with state := .writing, current := some (x.filled o), reportFailed := false }).queueOwn
        (.write .writeBack (s.commandAddr s.proc.consumer) (x.filled o).writeBackBytes) := by
  simp only [State.endCommand, h]

/-- What a one-event command does: when its owning block, met in the state `taken`, answers `o` in a state `u` that keeps the
processor, the straps and the own-request queue, the command ends with `o`, and everything else is as in `u`. -/
theorem State.carryOut_ends (s : State) (kind : Byte) (r : CmdArgs) (own : State → State × CmdResult) (h : s.awaits) :
    ∃ k, s.mem.outstanding .fetch = some k ∧ ∀ u o, own (s.taken k kind r) = (u, o) →
      u.proc = (s.taken k kind r).proc → u.cbsel = s.cbsel → u.mem.burstNo = s.mem.burstNo →
      u.mem.ownQ = (s.mem.leave k).ownQ → u.mem.ownWait = (s.mem.leave k).ownWait →
      s.commandEnded (s.carryOut kind r own) kind r o ∧
        s.carryOut kind r own =
          { u with proc := (s.carryOut kind r own).proc, mem := u.mem.withOwn (s.carryOut kind r own).mem } := by
  obtain ⟨k, hk, hbk⟩ := s.fetched_of_awaits kind r h
  refine ⟨k, hk, ?_⟩
  intro u o hown hp hc hb hq hw
  have hcur : u.proc.current = some { kind, args := r } := by rw [hp]; rfl
  have haddr : u.commandAddr u.proc.consumer = s.control (0x1000 + 32 * (s.proc.consumer.toNat % 128)) := by
    simp only [State.commandAddr, State.control, hc, hp]
    rfl
  have heq : s.carryOut kind r own =
      (u.setProc { s.proc with state := .writing, current := some (endedRecord kind r o), reportFailed := false }).queueOwn
        (s.writeBackOf kind r o) := by
    simp only [State.carryOut, hbk, hown, State.endCommand, hcur, haddr]
    rw [hp]
    rfl
  rw [heq]
  refine ⟨⟨rfl, k, hk, ?_, ?_⟩, ?_⟩
  · simp only [State.queueOwn_mem, State.setProc_mem, MemPath.queueOwn, hq, hb, hw, MemPath.leave_burstNo]
    split_ifs <;> rfl
  · simp only [State.queueOwn_mem, State.setProc_mem, MemPath.queueOwn, hq, hb, hw, MemPath.leave_burstNo]
    split_ifs <;> rfl
  · simp only [State.queueOwn, State.setProc, State.setMem]
    rw [← MemPath.queueOwn_frame]

/-- A command that its owning block answers without a change. -/
theorem State.carryOut_unchanged (s : State) (kind : Byte) (r : CmdArgs) (own : State → State × CmdResult) (o : CmdResult)
    (h : s.awaits) (hown : ∀ k, own (s.taken k kind r) = (s.taken k kind r, o)) :
    s.commandEnded (s.carryOut kind r own) kind r o ∧
      s.carryOut kind r own =
        { s with proc := (s.carryOut kind r own).proc, mem := s.mem.withOwn (s.carryOut kind r own).mem } := by
  obtain ⟨k, _, hf⟩ := s.carryOut_ends kind r own h
  obtain ⟨h1, h2⟩ := hf _ o (hown k) rfl rfl (by simp) rfl rfl
  refine ⟨h1, ?_⟩
  conv_lhs => rw [h2]
  rw [State.taken_mem, MemPath.withOwn_leave]
  rfl

end Sys2Proof.Machine
end

