-- ==== Sys2Proof/Laws/Channels.lean ====
section
/-! SUPPORT. Channels.lean: what the shared operations of the record channels can do: ending a recording, ending it at once, the
commits of a period, the tick beside blocks it does not touch, and the readings of the channel checks in the words of Safety.lean. -/

namespace Sys2Proof.Machine

/-! ## The target ids and the fits -/

theorem targetChan_of (r : CmdArgs) (c : ChanId) (h : r.target.toNat = c.val) : targetChan r = some c := by
  have h8 : r.target.toNat < 8 := by omega
  simp only [targetChan, h8, dif_pos, Option.some.injEq]
  exact Fin.ext h

theorem targetChan_none (r : CmdArgs) (h : 7 < r.target.toNat) : targetChan r = none := by
  have h8 : ¬r.target.toNat < 8 := by omega
  simp [targetChan, h8]

theorem targetHead_of (r : CmdArgs) (c : HeadId) (h : r.target.toNat = c.val) : targetHead r = some c := by
  have h8 : r.target.toNat < 4 := by omega
  simp only [targetHead, h8, dif_pos, Option.some.injEq]
  exact Fin.ext h

theorem targetHead_none (r : CmdArgs) (h : 3 < r.target.toNat) : targetHead r = none := by
  have h8 : ¬r.target.toNat < 4 := by omega
  simp [targetHead, h8]

theorem targetPort_of (r : CmdArgs) (c : PortId) (h : r.target.toNat = c.val) : targetPort r = some c := by
  have h8 : r.target.toNat < 2 := by omega
  simp only [targetPort, h8, dif_pos, Option.some.injEq]
  exact Fin.ext h

theorem targetPort_none (r : CmdArgs) (h : 1 < r.target.toNat) : targetPort r = none := by
  have h8 : ¬r.target.toNat < 2 := by omega
  simp [targetPort, h8]

theorem targetClip_of (r : CmdArgs) (k : Nat) (h : r.target.toNat = k) (h2 : k ≤ 255) : targetClip r = some k := by
  subst h
  have h8 : r.target.toNat < Config.clipCount := by
    simp only [Config.clipCount]
    omega
  simp only [targetClip, h8, if_true]

/-- The fitted phase count is the one R24 asks for. -/
theorem fittedPhases_fitPhases (q : Nat) : fittedPhases q (fitPhases q) := by
  unfold fittedPhases fitPhases
  split_ifs with h1 h2 h3
  · refine ⟨by simp, Or.inl ⟨h1, ?_⟩⟩
    intro x hx _
    simp at hx
    omega
  · refine ⟨?_, Or.inl ⟨le_refl _, fun x _ h => h⟩⟩
    simp
    omega
  · refine ⟨by simp, Or.inl ⟨h3, ?_⟩⟩
    intro x hx _
    simp at hx
    omega
  · refine ⟨by simp, ?_⟩
    by_cases h : 8 < q
    · exact Or.inr ⟨h, rfl⟩
    · refine Or.inl ⟨by omega, ?_⟩
      intro x hx _
      simp at hx
      omega

theorem fitPhases_le (q : Nat) : fitPhases q ≤ 8 := by
  unfold fitPhases
  split_ifs <;> omega

/-- A clamp is the fit of 0.7. -/
theorem fittedTo_clampNat (lo hi q : Nat) (h : lo ≤ hi) : fittedTo lo hi q (clampNat lo hi q) := by
  unfold fittedTo clampNat
  split_ifs <;> omega

theorem fittedRate_clampInt (m q : Int) (h : 0 ≤ m) : fittedRate m q (clampInt (-m) m q) := by
  unfold fittedRate clampInt
  split_ifs <;> omega

/-! ## The checks of the channel commands -/

theorem mem_allChans (c : ChanId) : c ∈ allChans := by
  fin_cases c <;> simp [allChans]

theorem mem_allHeads (h : HeadId) : h ∈ allHeads := by
  fin_cases h <;> simp [allHeads]

theorem mem_allPorts (p : PortId) : p ∈ allPorts := by
  fin_cases p <;> simp [allPorts]

theorem State.hasClip_eq_false (s : State) (c : ChanId) :
    s.hasClip c = false ↔ ∀ k, k < 256 → (s.clip k).state ≠ .free → (s.clip k).chan ≠ c := by
  unfold State.hasClip
  rw [List.any_eq_false]
  simp [Config.clipCount]

theorem State.hasLiveHead_eq_false (s : State) (c : ChanId) :
    s.hasLiveHead c = false ↔ ∀ h, (s.head h).src ≠ .live c := by
  unfold State.hasLiveHead
  rw [List.any_eq_false]
  exact ⟨fun h g => by simpa using h g (mem_allHeads g), fun h g _ => by simpa using h g⟩

theorem Channel.mem_loopSlots (ch : Channel) (n : Nat) :
    n ∈ ch.loopSlots ↔ ch.firstSlot ≤ n ∧ n < ch.firstSlot + ch.len := by
  unfold Channel.loopSlots
  simp only [List.mem_map, List.mem_range]
  constructor
  · rintro ⟨a, h, rfl⟩
    omega
  · rintro ⟨h1, h2⟩
    exact ⟨n - ch.firstSlot, by omega, by omega⟩

theorem State.mayResetLoop_iff (s : State) (c : ChanId) : s.mayResetLoop c = true ↔ s.setupTaken c := by
  unfold State.mayResetLoop State.setupTaken
  cases h : (s.chan c).state <;> simp
  rw [State.hasClip_eq_false, State.hasLiveHead_eq_false]
  simp only [Channel.mem_loopSlots, and_assoc, and_imp, ne_eq]

theorem State.mayClear_iff (s : State) (c : ChanId) : s.mayClear c = true ↔ s.clearTaken c := by
  unfold State.mayClear State.clearTaken
  simp only [Bool.and_eq_true, Bool.not_eq_true', State.hasClip_eq_false, State.hasLiveHead_eq_false, decide_eq_true_eq,
    List.all_eq_true, Channel.mem_loopSlots, and_assoc, and_imp]

theorem State.loopOverlaps_eq_false (s : State) (c : ChanId) (f n : Nat) :
    s.loopOverlaps c f n = false ↔ s.loopFree c f n := by
  unfold State.loopOverlaps State.loopFree
  rw [List.any_eq_false]
  constructor
  · intro h d h1 h2
    have h3 := h d (mem_allChans d)
    simp only [h1, h2, ne_eq, not_false_eq_true, decide_true, Bool.true_and, Bool.and_eq_true, decide_eq_true_eq] at h3
    omega
  · intro h d _
    simp only [Bool.and_eq_true, decide_eq_true_eq]
    rintro ⟨⟨⟨h1, h2⟩, h3⟩, h4⟩
    have h5 := h d h1 h2
    omega

/-! ## Owners -/

/-- The owner of a slot owns it. -/
theorem State.owns_of_ownerOf (s : State) (n : Nat) (c : ChanId) (h : s.ownerOf n = some c) : (s.chan c).owns n = true := by
  have := List.find?_some h
  simpa using this

/-- Of loops that lie apart, the channel that owns a slot is its owner. -/
theorem State.ownerOf_of_owns (s : State) (n : Nat) (c : ChanId) (ha : s.loopsApart) (h : (s.chan c).owns n = true) :
    s.ownerOf n = some c := by
  cases hx : s.ownerOf n with
  | none =>
    have := List.find?_eq_none.mp hx c (mem_allChans c)
    simp [h] at this
  | some d =>
    have hd := s.owns_of_ownerOf n d hx
    by_contra hne
    exact ha d c n (fun e => hne (by rw [e])) ⟨hd, h⟩

theorem Channel.owns_iff (ch : Channel) (n : Nat) :
    ch.owns n = true ↔ ch.state ≠ .off ∧ ch.firstSlot ≤ n ∧ n < ch.firstSlot + ch.len := by
  unfold Channel.owns
  simp [and_assoc]

/-! ## The end of a recording (R26, R27, R33, R34, R42) -/

@[simp] theorem State.endRecording_chan (s : State) (c d : ChanId) (q : StopCause) (t : Word) :
    (s.endRecording c q t).chan d = if d = c then { s.chan c with phaseSlots := [], state := .ready } else s.chan d := by
  simp [State.endRecording, State.raiseAt, State.tellClips]

@[simp] theorem State.endRecording_evt (s : State) (c : ChanId) (q : StopCause) (t : Word) :
    (s.endRecording c q t).evt =
      s.evt.posted .channelStopped q.reason c.val 0 (BitVec.ofNat 32 (s.chan c).nextRfn) t := rfl

@[simp] theorem State.endRecording_mail (s : State) (c : ChanId) (q : StopCause) (t : Word) :
    (s.endRecording c q t).mail = { s.mail with chanNotes := pushAt s.mail.chanNotes c (.stopped q) } := rfl

/-- The end of a recording touches the channel, the events and the mail alone. -/
theorem State.endRecording_frame (s : State) (c : ChanId) (q : StopCause) (t : Word) :
    s.endRecording c q t =
      { s with chans := (s.endRecording c q t).chans, evt := (s.endRecording c q t).evt,
               mail := (s.endRecording c q t).mail } := rfl

@[simp] theorem State.emptyAll_chan (s : State) (ns : List Nat) (d : ChanId) : (s.emptyAll ns).chan d = s.chan d := by
  rw [State.emptyAll_frame]
  rfl

@[simp] theorem State.emptyAll_evt (s : State) (ns : List Nat) : (s.emptyAll ns).evt = s.evt := by
  rw [State.emptyAll_frame]

@[simp] theorem State.emptyAll_mail (s : State) (ns : List Nat) : (s.emptyAll ns).mail = s.mail := by
  rw [State.emptyAll_frame]

@[simp] theorem State.abortChannel_chan (s : State) (c d : ChanId) (q : StopCause) :
    (s.abortChannel c q).chan d = if d = c then { s.chan c with phaseSlots := [], state := .ready } else s.chan d := by
  simp [State.abortChannel]

@[simp] theorem State.abortChannel_evt (s : State) (c : ChanId) (q : StopCause) :
    (s.abortChannel c q).evt =
      s.evt.posted .channelStopped q.reason c.val 0 (BitVec.ofNat 32 (s.chan c).nextRfn) s.ref.count := by
  simp [State.abortChannel]

@[simp] theorem State.abortChannel_mail (s : State) (c : ChanId) (q : StopCause) :
    (s.abortChannel c q).mail = { s.mail with chanNotes := pushAt s.mail.chanNotes c (.stopped q) } := by
  simp [State.abortChannel]

@[simp] theorem State.abortChannel_slot (s : State) (c : ChanId) (q : StopCause) (n : Nat) :
    (s.abortChannel c q).slot n = if n ∈ (s.chan c).phaseSlots then (s.slot n).emptied else s.slot n := by
  rw [← State.emptyAll_slot]
  rfl

/-- Ending a recording at once touches the channel, its slots, the events and the mail alone. -/
theorem State.abortChannel_frame (s : State) (c : ChanId) (q : StopCause) :
    s.abortChannel c q =
      { s with slots := (s.abortChannel c q).slots, chans := (s.abortChannel c q).chans, evt := (s.abortChannel c q).evt,
               mail := (s.abortChannel c q).mail } := by
  unfold State.abortChannel
  rw [State.endRecording_frame, State.emptyAll_frame]

/-! ## A channel's tick beside the processor, the memory path and the clip table -/

/-- The state with another processor, memory path and clip table. -/
def State.besides (s : State) (p : Proc) (m : MemPath) (k : Tbl Clip) : State := { s with proc := p, mem := m, clips := k }

section

variable (s : State) (p : Proc) (m : MemPath) (k : Tbl Clip)

@[simp] theorem State.besides_slot (n : Nat) : (s.besides p m k).slot n = s.slot n := rfl

@[simp] theorem State.besides_chan (c : ChanId) : (s.besides p m k).chan c = s.chan c := rfl

@[simp] theorem State.besides_ownerOf (n : Nat) : (s.besides p m k).ownerOf n = s.ownerOf n := rfl

theorem State.take_besides (n r : Nat) : (s.besides p m k).take n r = ((s.take n r).1.besides p m k, (s.take n r).2) := by
  by_cases h1 : s.ownerOf n = none
  · simp [State.take, h1]
  · by_cases h2 : (s.slot n).state = .recording
    · simp [State.take, h1, h2]
    · by_cases h3 : (s.slot n).locks = 0
      · by_cases h4 : (s.slot n).pins = 0
        · by_cases h5 : (s.slot n).state = .held <;> simp [State.take, h1, h2, h3, h4, h5] <;> rfl
        · simp [State.take, h1, h2, h3, h4]
      · simp [State.take, h1, h2, h3]

theorem State.moveTail_besides (c : ChanId) (n : Nat) (lost : Option Nat) :
    (s.besides p m k).moveTail c n lost = (s.moveTail c n lost).besides p m k := by
  cases lost with
  | none => rfl
  | some q =>
    unfold State.moveTail
    change (if _ ∧ _ ∧ _ then _ else _) = _
    by_cases h : (s.chan c).tail ≤ q ∧ q < (s.chan c).nextRfn ∧ s.entry ((s.chan c).entryOf q) = { valid := true, slot := n }
    · simp only [if_pos h]
      exact if_pos h
    · simp only [if_neg h]
      exact if_neg h

theorem walk_besides (fuel : Nat) (c : ChanId) (fresh : List Nat) (pos : Nat) (need got : List Nat) (s : State) :
    walk fuel c fresh pos need got (s.besides p m k) =
      ((walk fuel c fresh pos need got s).1.besides p m k, (walk fuel c fresh pos need got s).2) := by
  induction fuel generalizing pos need got s with
  | zero => rfl
  | succ fuel ih =>
    cases need with
    | nil => rfl
    | cons r rs =>
      simp only [walk, State.besides_chan, State.take_besides]
      split_ifs with hf
      · exact ih _ _ _ _
      · rcases s.take ((s.chan c).firstSlot + pos) r with ⟨t, (lost | _)⟩
        · simp only [State.moveTail_besides, State.besides_chan]
          exact ih _ _ _ ((t.moveTail c ((s.chan c).firstSlot + pos) lost).setChan c _)
        · exact ih _ _ _ _

theorem State.allocate_besides (c : ChanId) (fresh : List Nat) :
    (s.besides p m k).allocate c fresh = (s.allocate c fresh).besides p m k := by
  unfold State.allocate
  change ((walk (s.chan c).len c fresh (s.chan c).cursor (s.chan c).period [] (s.besides p m k)).1.setChan c
    { (walk (s.chan c).len c fresh (s.chan c).cursor (s.chan c).period [] (s.besides p m k)).1.chan c with
      phaseSlots := (walk (s.chan c).len c fresh (s.chan c).cursor (s.chan c).period [] (s.besides p m k)).2 }) = _
  rw [walk_besides]
  rfl

theorem State.commit_besides (n : Nat) : ((s.besides p m k).commit n).1 = (s.commit n).1.besides p m k := by
  unfold State.commit State.indexCommit
  change (if (s.slot n).state = .recording then
    ((match s.ownerOf n with
      | none => s.besides p m k
      | some c => (s.besides p m k).setEntry ((s.chan c).entryOf (s.slot n).rfn) { valid := true, slot := n }).setSlot n
        { s.slot n with state := .held }, SlotAnswer.done none)
    else (s.besides p m k, .declined .notRecording)).1 = _
  split_ifs
  · cases s.ownerOf n <;> rfl
  · rfl

theorem State.commitAll_besides (ns : List Nat) : (s.besides p m k).commitAll ns = (s.commitAll ns).besides p m k := by
  unfold State.commitAll
  induction ns generalizing s with
  | nil => rfl
  | cons n ns ih => rw [List.foldl_cons, List.foldl_cons, State.commit_besides, ih]

theorem State.commitPeriod_besides (c : ChanId) : (s.besides p m k).commitPeriod c = (s.commitPeriod c).besides p m k := by
  unfold State.commitPeriod
  change (((s.besides p m k).commitAll (s.chan c).phaseSlots).setChan c
    { ((s.besides p m k).commitAll (s.chan c).phaseSlots).chan c with nextRfn := (s.chan c).nextRfn + (s.chan c).phases }).tellClips c
      (.arrival (s.chan c).nextRfn (s.chan c).phases) = _
  rw [State.commitAll_besides]
  rfl

theorem State.endRecording_besides (c : ChanId) (q : StopCause) (t : Word) :
    (s.besides p m k).endRecording c q t = (s.endRecording c q t).besides p m k := rfl

/-- A channel's work at its tick reads and writes none of the processor, the memory path and the clip table. -/
theorem State.tickChannel_besides (c : ChanId) (t : Word) :
    (s.besides p m k).tickChannel c t = (s.tickChannel c t).besides p m k := by
  unfold State.tickChannel
  have hs : (s.besides p m k).setChan c { (s.besides p m k).chan c with stray := false } =
    (s.setChan c { s.chan c with stray := false }).besides p m k := rfl
  simp only [hs]
  generalize s.setChan c { s.chan c with stray := false } = u
  change (match (u.chan c).state with
    | .off => u.besides p m k
    | .ready => u.besides p m k
    | .armed => _
    | .recording => _
    | .stopping => _) = _
  cases (u.chan c).state with
  | off => rfl
  | ready => rfl
  | armed =>
    simp only [State.allocate_besides]
    rfl
  | recording =>
    simp only [State.commitPeriod_besides]
    change (if ((u.commitPeriod c).chan c).atLimit then _ else _) = _
    split_ifs
    · rfl
    · exact State.allocate_besides _ p m k c _
  | stopping =>
    simp only [State.commitPeriod_besides]
    rfl

theorem State.channelTick_besides (c : ChanId) : (s.besides p m k).channelTick c = (s.channelTick c).besides p m k := by
  unfold State.channelTick
  change (match s.mail.chanTicks.get c with
    | [] => s.besides p m k
    | t :: _ => ((s.setMail { s.mail with chanTicks := popAt s.mail.chanTicks c }).besides p m k).tickChannel c t) = _
  cases s.mail.chanTicks.get c with
  | nil => rfl
  | cons t ts => exact State.tickChannel_besides _ p m k c t

end

end Sys2Proof.Machine
end

