-- ==== Sys2Proof/Laws/Heads.lean ====
section
/-! SUPPORT. Heads.lean: what the shared operations of the play heads can do. -/

namespace Sys2Proof.Machine

@[simp] theorem State.unpinIf_head (s : State) (o : Option Nat) (h : HeadId) : (s.unpinIf o).head h = s.head h := by
  rw [State.unpinIf_frame]
  rfl

@[simp] theorem State.unpinIf_mail (s : State) (o : Option Nat) : (s.unpinIf o).mail = s.mail := by
  rw [State.unpinIf_frame]

@[simp] theorem State.detachHead_head (s : State) (h g : HeadId) : (s.detachHead h).head g = s.head g := by
  unfold State.detachHead
  split <;> rfl

@[simp] theorem State.detachHead_slot (s : State) (h : HeadId) (n : Nat) : (s.detachHead h).slot n = s.slot n := by
  unfold State.detachHead
  split <;> rfl

/-- A head's own detach touches the mail alone. -/
theorem State.detachHead_frame (s : State) (h : HeadId) : s.detachHead h = { s with mail := s.mailDetached h } := by
  unfold State.detachHead State.mailDetached
  cases (s.head h).attached <;> rfl

theorem State.idleHead_of_idle (s : State) (h : HeadId) (hs : (s.head h).src = .idle) :
    s.idleHead h = (s.unpinIf (s.head h).trailing).setHead h { s.head h with trailing := none } := by
  simp only [State.idleHead]
  split
  · rfl
  · simp_all
  · simp_all

theorem State.idleHead_of_sourced (s : State) (h : HeadId) (hs : (s.head h).src ≠ .idle) :
    s.idleHead h =
      (((s.unpinIf ((s.head h).shown.map (·.slot))).unpinIf (s.head h).trailing).detachHead h).setHead h
        { (s.head h).cleared with src := .idle, shown := none, trailing := none } := by
  simp only [State.idleHead]
  split
  · simp_all
  · rfl
  · rfl

/-- The head's record after DISENGAGE. -/
theorem State.idleHead_head (s : State) (h g : HeadId) :
    (s.idleHead h).head g =
      if g = h then
        (if (s.head h).src = .idle then { s.head h with trailing := none } else
          { (s.head h).cleared with src := .idle, shown := none, trailing := none })
      else s.head g := by
  by_cases hs : (s.head h).src = .idle
  · rw [s.idleHead_of_idle h hs]
    simp [hs]
  · rw [s.idleHead_of_sourced h hs]
    simp [hs]

/-- A slot after DISENGAGE at a head. -/
theorem State.idleHead_slot (s : State) (h : HeadId) (n : Nat) :
    (s.idleHead h).slot n =
      { s.slot n with pins := (s.slot n).pins -
          (if (s.head h).src = .idle then 0 else if (s.head h).shown.map (·.slot) = some n then 1 else 0)
          - (if (s.head h).trailing = some n then 1 else 0) } := by
  by_cases hs : (s.head h).src = .idle
  · rw [s.idleHead_of_idle h hs]
    simp only [State.setHead_slot, State.unpinIf_slot, hs, if_true]
    split_ifs <;> simp [Slot.unpinned]
  · rw [s.idleHead_of_sourced h hs]
    simp only [State.setHead_slot, State.detachHead_slot, State.unpinIf_slot, hs, if_false]
    split_ifs <;> simp [Slot.unpinned]

/-- DISENGAGE at a head touches the heads, the slots and the mail alone. -/
theorem State.idleHead_frame (s : State) (h : HeadId) :
    s.idleHead h = { s with slots := (s.idleHead h).slots, heads := (s.idleHead h).heads, mail := (s.idleHead h).mail } := by
  by_cases hs : (s.head h).src = .idle
  · rw [s.idleHead_of_idle h hs, State.unpinIf_frame]
    rfl
  · rw [s.idleHead_of_sourced h hs, State.detachHead_frame, State.unpinIf_frame, State.unpinIf_frame s]
    rfl

theorem State.idleHead_mail (s : State) (h : HeadId) :
    (s.idleHead h).mail = if (s.head h).src = .idle then s.mail else s.mailDetached h := by
  by_cases hs : (s.head h).src = .idle
  · rw [s.idleHead_of_idle h hs]
    simp [hs]
  · rw [s.idleHead_of_sourced h hs]
    simp [hs, State.detachHead_frame, State.mailDetached]

end Sys2Proof.Machine
end

