-- ==== Sys2Proof/Laws/Progs.lean ====
section
/-! SUPPORT. Progs.lean: what the operations of a program do when they are made in turn with nothing between them, and what every
operation of a program keeps. -/

namespace Sys2Proof.Machine

/-! ## Running -/

@[simp] theorem Prog.run_done {α : Type} (a : α) (s : State) : (Prog.done a).run s = some (s, a) := rfl

@[simp] theorem Prog.run_never {α : Type} (s : State) : (Prog.never : Prog α).run s = none := rfl

@[simp] theorem Prog.run_op {α : Type} (b : List Agent) (f : State → State) (next : State → Prog α) (s : State) :
    (Prog.op b f next).run s = (next s).run (f s) := rfl

@[simp] theorem Prog.run_act (b : List Agent) (f : State → State) (s : State) : (Prog.act b f).run s = some (f s, ()) := rfl

@[simp] theorem Prog.run_read {α : Type} (b : List Agent) (f : State → Prog α) (s : State) :
    (Prog.read b f).run s = (f s).run s := rfl

@[simp] theorem Prog.run_bind {α β : Type} (p : Prog α) (g : α → Prog β) (s : State) :
    (p.bind g).run s = (p.run s).bind (fun x => (g x.2).run x.1) := by
  induction p generalizing s with
  | done a => rfl
  | never => rfl
  | op b f next ih => exact ih s (f s)

/-- Operations in turn are a fold. -/
theorem Prog.each_run {ι : Type} (b : ι → List Agent) (f : ι → State → State) (is : List ι) (s : State) :
    (Prog.each b f is).run s = some (is.foldl (fun t i => f i t) s, ()) := by
  induction is generalizing s with
  | nil => rfl
  | cons i is ih => exact ih (f i s)

/-- A program that makes an operation ends on the clip table it has made. -/
theorem Prog.onTable_run_op {α : Type} (p : Prog α) (cl : Tbl Clip) (s : State) (h : ∀ a, p ≠ .done a) :
    (p.onTable cl).run s = p.run { s with clips := cl } := by
  induction p generalizing cl s with
  | done a => exact absurd rfl (h a)
  | never => rfl
  | op b f next ih =>
    simp only [Prog.onTable, Prog.run_op]
    cases hn : next { s with clips := cl } with
    | done a => rfl
    | never => rfl
    | op b' f' next' =>
      have := ih { s with clips := cl } (f { s with clips := cl }).clips
        { f { s with clips := cl } with clips := s.clips } (by simp [hn])
      rw [hn] at this
      simpa using this

/-- With nothing between its operations, a program on its own copy of the clip table is one on the clip table. -/
theorem Prog.onTable_run {α : Type} (p : Prog α) (s : State) : (p.onTable s.clips).run s = p.run s := by
  cases hp : p with
  | done a => rfl
  | never => rfl
  | op b f next => exact Prog.onTable_run_op _ _ s (by simp)

/-! ## What every operation keeps -/

/-- Every operation of the program keeps `P`. -/
def Prog.Keeps {α : Type} (P : State → Prop) : Prog α → Prop
  | .done _ => True
  | .never => True
  | .op _ f next => ∀ s, P s → P (f s) ∧ (next s).Keeps P

@[simp] theorem Prog.keeps_done {α : Type} (P : State → Prop) (a : α) : (Prog.done a).Keeps P := trivial

@[simp] theorem Prog.keeps_never {α : Type} (P : State → Prop) : (Prog.never : Prog α).Keeps P := trivial

theorem Prog.keeps_op {α : Type} {P : State → Prop} {b : List Agent} {f : State → State} {next : State → Prog α}
    (h : ∀ s, P s → P (f s) ∧ (next s).Keeps P) : (Prog.op b f next).Keeps P := h

theorem Prog.keeps_act {P : State → Prop} {b : List Agent} {f : State → State} (h : ∀ s, P s → P (f s)) :
    (Prog.act b f).Keeps P := fun s hs => ⟨h s hs, trivial⟩

theorem Prog.keeps_read {α : Type} {P : State → Prop} {b : List Agent} {f : State → Prog α} (h : ∀ s, P s → (f s).Keeps P) :
    (Prog.read b f).Keeps P := fun s hs => ⟨hs, h s hs⟩

theorem Prog.keeps_bind {α β : Type} {P : State → Prop} {p : Prog α} {g : α → Prog β} (hp : p.Keeps P)
    (hg : ∀ a, (g a).Keeps P) : (p.bind g).Keeps P := by
  induction p with
  | done a => exact hg a
  | never => trivial
  | op b f next ih => exact fun s hs => ⟨(hp s hs).1, ih s (hp s hs).2⟩

theorem Prog.keeps_each {ι : Type} {P : State → Prop} {b : ι → List Agent} {f : ι → State → State} (h : ∀ i s, P s → P (f i s))
    (is : List ι) : (Prog.each b f is).Keeps P := by
  induction is with
  | nil => trivial
  | cons i is ih => exact fun s hs => ⟨h i s hs, ih⟩

/-- What asks `Q` alone of the clip table is kept on a copy of it that has `Q` too. -/
theorem Prog.keeps_onTable {α : Type} {P : State → Prop} {Q : Tbl Clip → Prop} (hq : ∀ s, P s → Q s.clips)
    (hc : ∀ (s : State) cl, P s → Q cl → P { s with clips := cl }) (p : Prog α) (h : p.Keeps P) (cl : Tbl Clip) (hcl : Q cl) :
    (p.onTable cl).Keeps P := by
  induction p generalizing cl with
  | done a => trivial
  | never => trivial
  | op b f next ih =>
    refine Prog.keeps_op (fun s hs => ?_)
    have h1 := h { s with clips := cl } (hc s cl hs hcl)
    refine ⟨?_, ih _ h1.2 _ (hq _ h1.1)⟩
    split
    · exact h1.1
    · exact hc _ _ h1.1 (hq _ hs)
    · exact hc _ _ h1.1 (hq _ hs)

/-- A program that ends leaves what all its operations keep. -/
theorem Prog.run_keeps {α : Type} {P : State → Prop} {p : Prog α} (h : p.Keeps P) {s : State} (hs : P s) {t : State} {a : α}
    (hr : p.run s = some (t, a)) : P t := by
  induction p generalizing s with
  | done b => cases hr; exact hs
  | never => cases hr
  | op b f next ih => exact ih s (h s hs).2 (h s hs).1 hr

end Sys2Proof.Machine
end

