-- ==== Sys2Proof/Laws/Clips.lean ====
section
/-! SUPPORT. Clips.lean: what unlocking a run of slots, closing a clip and deleting a clip can do, the cut of a clip's
extents, and the clip that a mark acts on. -/

namespace Sys2Proof.Machine

/-! ## Unlocking (R10) -/

/-- A slot after an unlock of slot `n`. -/
theorem State.unlock_slot (s : State) (n m : Nat) :
    (s.unlock n).1.slot m = if m = n then (s.slot m).unlockedBy 1 else s.slot m := by
  unfold Slot.unlockedBy
  have hc : ∀ f, (s.countLocked n f).slot m = s.slot m := by
    intro f
    rw [State.countLocked_frame]
    rfl
  rcases s.unlock_cases n with ⟨h, e⟩ | ⟨h, e⟩ | ⟨h, e⟩
  · rw [e]
    by_cases hm : m = n
    · subst hm
      simp [h]
    · simp [hm, hc]
  · rw [e]
    by_cases hm : m = n
    · subst hm
      simp
    · simp [hm]
  · rw [e]
    by_cases hm : m = n
    · subst hm
      cases hx : s.slot m
      simp_all
    · simp [hm]

/-- A slot after the slots of a list are unlocked in turn. -/
theorem State.unlockEach_slot (s : State) (ns : List Nat) (m : Nat) :
    (s.unlockEach ns).slot m = (s.slot m).unlockedBy (ns.count m) := by
  unfold State.unlockEach
  induction ns generalizing s with
  | nil => simp [Slot.unlockedBy]
  | cons n ns ih =>
    rw [List.foldl_cons, ih, State.unlock_slot]
    by_cases hm : m = n
    · subst hm
      simp only [if_true, Slot.unlockedBy, List.count_cons_self]
      congr 1
      omega
    · simp [hm, List.count_cons_of_ne (Ne.symm hm)]

/-- Unlocking changes the locked count of a channel alone. -/
theorem State.unlock_chan (s : State) (n : Nat) (d : ChanId) :
    (s.unlock n).1.chan d = { s.chan d with locked := ((s.unlock n).1.chan d).locked } := by
  rcases s.unlock_cases n with ⟨_, e⟩ | ⟨_, e⟩ | ⟨_, e⟩
  · rw [e]
    simp only [State.setSlot_chan, State.countLocked]
    split
    · rfl
    · rename_i c _
      by_cases hd : d = c
      · subst hd
        simp
      · simp [hd]
  · rw [e]
    rfl
  · rw [e]

theorem State.unlockEach_chan (s : State) (ns : List Nat) (d : ChanId) :
    (s.unlockEach ns).chan d = { s.chan d with locked := ((s.unlockEach ns).chan d).locked } := by
  unfold State.unlockEach
  induction ns generalizing s with
  | nil => rfl
  | cons n ns ih =>
    rw [List.foldl_cons, ih, State.unlock_chan]

theorem State.unlockEach_frame (s : State) (ns : List Nat) :
    s.unlockEach ns = { s with slots := (s.unlockEach ns).slots, chans := (s.unlockEach ns).chans } :=
  foldl_slots_chans_frame _ (fun s n => s.unlock_frame n) ns s

@[simp] theorem State.unlockEach_clip (s : State) (ns : List Nat) (j : Nat) :
    (s.unlockEach ns).clip j = s.clip j := by
  rw [State.unlockEach_frame]
  rfl

@[simp] theorem State.unlockEach_evt (s : State) (ns : List Nat) : (s.unlockEach ns).evt = s.evt := by
  rw [State.unlockEach_frame]

@[simp] theorem State.unlockEach_mail (s : State) (ns : List Nat) : (s.unlockEach ns).mail = s.mail := by
  rw [State.unlockEach_frame]

@[simp] theorem State.unlockEach_ref (s : State) (ns : List Nat) : (s.unlockEach ns).ref = s.ref := by
  rw [State.unlockEach_frame]

/-! ## Extents (R87, R92) -/

/-- Extents above a frame are all filtered away by a cut below it. -/
theorem trimTop_above (es : List Extent) (lo hi o : Nat) (h : extentsCover es lo hi) (ho : o < lo) : trimTop es o = [] := by
  induction es generalizing lo with
  | nil => rfl
  | cons e es ih =>
    obtain ⟨h1, h2, h3, h4⟩ := h
    have := ih (lo + e.len) h4 (by omega)
    unfold trimTop at *
    rw [List.filter_cons_of_neg (by simp; omega)]
    exact this

/-- A cut of covering extents covers the frames up to the cut. -/
theorem extentsCover_trimTop (es : List Extent) (lo hi o : Nat) (h : extentsCover es lo hi) (h1 : lo ≤ o) (h2 : o ≤ hi) :
    extentsCover (trimTop es o) lo o := by
  induction es generalizing lo with
  | nil =>
    have : lo = hi + 1 := h
    omega
  | cons e es ih =>
    obtain ⟨a1, a2, a3, a4⟩ := h
    have hp : e.rfn ≤ o := by omega
    unfold trimTop
    rw [List.filter_cons_of_pos (by simpa using hp), List.map_cons]
    by_cases hc : o < lo + e.len
    · have hz : trimTop es o = [] := trimTop_above es (lo + e.len) hi o a4 hc
      unfold trimTop at hz
      rw [hz, if_pos (by omega)]
      refine ⟨a1, ?_, h1, ?_⟩
      · simp only
        omega
      · simp only [extentsCover]
        omega
    · rw [if_neg (by omega)]
      exact ⟨a1, a2, h1, ih (lo + e.len) a4 (by omega)⟩

/-! ## Closing (R92) -/

@[simp] theorem State.detachClip_slot (s : State) (k : Nat) (o : Option HeadId) (n : Nat) :
    (s.detachClip k o).slot n = s.slot n := by
  cases o <;> rfl

@[simp] theorem State.detachClip_chan (s : State) (k : Nat) (o : Option HeadId) (d : ChanId) :
    (s.detachClip k o).chan d = s.chan d := by
  cases o <;> rfl

@[simp] theorem State.detachClip_clip (s : State) (k : Nat) (o : Option HeadId) (j : Nat) :
    (s.detachClip k o).clip j = s.clip j := by
  cases o <;> rfl

@[simp] theorem State.detachClip_evt (s : State) (k : Nat) (o : Option HeadId) : (s.detachClip k o).evt = s.evt := by
  cases o <;> rfl

@[simp] theorem State.detachClip_ref (s : State) (k : Nat) (o : Option HeadId) : (s.detachClip k o).ref = s.ref := by
  cases o <;> rfl

/-- Closing an OPEN clip `k` at frame `o`, all at once (R92). -/
def State.closeNow (s : State) (k o : Nat) (why : Reason) : State :=
  (s.unlockEach (s.clipSlots (s.clip k) (o + 1) (s.clip k).outF)).recordClose k o why

/-- Deleting a clip, all at once (R112). -/
def State.deleteNow (s : State) (k : Nat) (why : Reason) : State :=
  (s.unlockEach (s.clipSlots (s.clip k) (s.clip k).inF (s.clip k).outF)).recordDelete k why

theorem unlockAll_run (ns : List Nat) (s : State) : (unlockAll ns).run s = some (s.unlockEach ns, ()) := Prog.each_run _ _ ns s

theorem closeClip_run (s : State) (k o : Nat) (why : Reason) : (closeClip s k o why).run s = some (s.closeNow k o why, ()) := by
  simp [closeClip, unlockAll_run, State.closeNow]

theorem deleteClip_run (s : State) (k : Nat) (why : Reason) : (deleteClip s k why).run s = some (s.deleteNow k why, ()) := by
  simp [deleteClip, unlockAll_run, State.deleteNow]

/-- Closing an OPEN clip does what R92 says. -/
theorem State.closeNow_closed (s : State) (k o : Nat) (why : Reason) :
    s.clipClosed (s.closeNow k o why) k o (s.clip k) why := by
  unfold State.closeNow State.recordClose
  refine ⟨?_, ?_, ?_, ?_, ?_, ?_, ?_⟩
  · simp [State.raise, State.raiseAt, Clip.closedAt]
  · intro lo h1 h2 h3
    simp only [State.raise, State.raiseAt, State.setEvt_clip, State.detachClip_clip, State.setClip_clip, if_true, Clip.closedAt,
      State.unlockEach_clip]
    exact extentsCover_trimTop _ _ _ _ h1 h2 h3
  · intro j hj
    simp [State.raise, State.raiseAt, hj]
  · intro n
    simp [State.raise, State.raiseAt, State.unlockEach_slot]
  · intro d
    simp only [State.raise, State.raiseAt, State.setEvt_chan, State.detachClip_chan, State.setClip_chan]
    exact State.unlockEach_chan _ _ _
  · simp only [State.raise, State.raiseAt, State.setEvt_mail, State.unlockEach_clip]
    unfold State.detachClip
    cases (s.clip k).attached <;> simp [State.tellHead]
  · simp only [State.raise, State.raiseAt, State.detachClip_evt, State.setClip_evt, State.unlockEach_evt, State.detachClip_ref,
      State.setClip_ref, State.unlockEach_ref, State.unlockEach_clip]
    rfl

/-- Recording a close touches the clips, the events and the mail alone. -/
theorem State.recordClose_frame (s : State) (k o : Nat) (why : Reason) :
    s.recordClose k o why =
      { s with clips := (s.recordClose k o why).clips, evt := (s.recordClose k o why).evt,
               mail := (s.recordClose k o why).mail } := by
  simp only [State.recordClose, State.raise, State.raiseAt, State.setEvt, State.detachClip]
  cases (s.clip k).attached <;> rfl

/-- Closing a clip touches the slots, the channels' locked counts, the clips, the events and the mail alone. -/
theorem State.closeNow_frame (s : State) (k o : Nat) (why : Reason) :
    s.closeNow k o why =
      { s with slots := (s.closeNow k o why).slots, chans := (s.closeNow k o why).chans,
               clips := (s.closeNow k o why).clips, evt := (s.closeNow k o why).evt, mail := (s.closeNow k o why).mail } := by
  unfold State.closeNow
  rw [State.recordClose_frame, State.unlockEach_frame]

/-- A close at the out unlocks nothing. -/
theorem State.closeNow_out (s : State) (k : Nat) (why : Reason) : s.closeNow k (s.clip k).outF why = s.closeAtOut k why := by
  simp [State.closeNow, State.closeAtOut, State.clipSlots, State.unlockEach]

/-! ## The clip that a mark acts on (R59, R101, R115) -/

/-- The model's test and the claims' word for a clip held open. -/
theorem State.openFor_iff (s : State) (h : HeadId) (k : Nat) : s.openFor h k = true ↔ s.heldOpen h k := by
  simp only [State.openFor, State.attachWaits, State.heldOpen, Bool.and_eq_true, decide_eq_true_eq, Bool.not_eq_true',
    List.any_eq_false, and_assoc, and_congr_right_iff]
  rintro - -
  refine ⟨fun x src hm => x _ hm (by simp), ?_⟩
  rintro x (⟨j, src⟩ | j) hm <;> simp
  rintro rfl
  exact x src hm

/-- A mark reads as attached the clip that the head record names and that is held open. -/
theorem State.attachedOpen_eq_some (s : State) (h : HeadId) (k : Nat) :
    s.attachedOpen h = some k ↔ (s.head h).attached = some k ∧ s.heldOpen h k := by
  unfold State.attachedOpen
  split <;> rename_i e <;> simp [e, ← State.openFor_iff]
  grind

/-- A mark reads no attached clip exactly where the claims say so. -/
theorem State.attachedOpen_eq_none (s : State) (h : HeadId) : s.attachedOpen h = none ↔ s.noneAttached h := by
  simp [Option.eq_none_iff_forall_ne_some, State.attachedOpen_eq_some, State.noneAttached]

/-- A MARK OUT closes the clip it acts on. -/
theorem State.outClip_of_outActsOn {s : State} {h : HeadId} {k : Nat} (hk : s.outActsOn h k) : s.outClip h = some k := by
  obtain ⟨ho, ha | ⟨hn, older, newer, hf, hl⟩⟩ := hk
  · simp [State.outClip, (s.attachedOpen_eq_some h k).mpr ⟨ha, ho⟩]
  · rw [State.outClip, (s.attachedOpen_eq_none h).mpr hn, State.detachWaits, hf]
    have hl' : newer.reverse.find? (s.openFor h) = none := by
      simpa [List.find?_eq_none, State.openFor_iff] using hl
    simp [List.find?_append, hl', (s.openFor_iff h k).mpr ho]

/-- A MARK OUT finds no clip: none attached, and no waiting detach notice names one held open. -/
theorem State.outClip_eq_none {s : State} {h : HeadId} (hn : s.noneAttached h)
    (hf : ∀ k ∈ s.mail.fromHead.get h, ¬s.heldOpen h k) : s.outClip h = none := by
  rw [State.outClip, (s.attachedOpen_eq_none h).mpr hn, State.detachWaits]
  simpa [List.find?_eq_none, State.openFor_iff] using hf
end Sys2Proof.Machine
end

