-- ==== Sys2Proof/Laws/Memory.lean ====
section
/-! SUPPORT. Memory.lean: what routing, acceptance and the arbiter of the memory path can do, and the end of a command that waited
for its own requests. -/

namespace Sys2Proof.Machine

/-! ## Routing (R148, R152) -/

/-- In TRANSPARENT, or outside the window region, a burst passes. -/
theorem State.route_outside (s : State) (b : Burst)
    (h : s.mem.active = false ∨ b.addr.toNat < s.mem.region ∨ s.mem.region + 128 * 2 ^ s.mem.stride ≤ b.addr.toNat) :
    s.route b = .pass := by
  unfold State.route
  rcases h with h | h
  · simp [h]
  · simp only [Config.windowCount, MemPath.slotBytes, h]
    simp

/-- Inside the window region a burst goes by its window and its offset. -/
theorem State.route_inside (s : State) (b : Burst) (w o : Nat) (ha : s.mem.active = true)
    (h : b.addr.toNat = s.mem.region + w * 2 ^ s.mem.stride + o) (ho : o < 2 ^ s.mem.stride) (hw : w < 128) :
    s.route b = s.routeWindow w o b.dir := by
  unfold State.route
  have h1 : w * 2 ^ s.mem.stride + 2 ^ s.mem.stride ≤ 128 * 2 ^ s.mem.stride := by
    rw [← Nat.succ_mul]
    exact Nat.mul_le_mul_right _ hw
  have h2 : b.addr.toNat - s.mem.region = o + 2 ^ s.mem.stride * w := by
    rw [h, Nat.mul_comm]
    omega
  simp only [ha, Config.windowCount, MemPath.slotBytes, h2]
  have hp : 0 < 2 ^ s.mem.stride := Nat.two_pow_pos _
  rw [if_neg (by simp), if_neg (by omega), Nat.add_mul_div_left _ _ hp, Nat.add_mul_mod_self_left, Nat.div_eq_of_lt ho,
    Nat.mod_eq_of_lt ho]
  simp

/-! ## Completions at the engine port (R147) -/

/-- Nothing is due while the oldest burst has no completion. -/
theorem dueCompletions_of_head (os : List Owed) (h : ∀ o, os.head? = some o → o.result = none) :
    dueCompletions os = ([], os) := by
  cases os with
  | nil => rfl
  | cons o os => simp [dueCompletions, h o rfl]

/-- What handing on a list of watched words does: the full ones join the words taken, once the start-up writes have ended. -/
theorem State.foldl_handOn (ws : List Watched) (s : State) :
    ws.foldl State.handOn s =
      { s with mail :=
          if s.startUp.cmdWait = false ∧ s.startUp.evtWait = false then
            { s.mail with
              cmdWords := s.mail.cmdWords ++ (ws.filter (fun x => x.full && x.isCmd)).map (·.value)
              evtWords := s.mail.evtWords ++ (ws.filter (fun x => x.full && !x.isCmd)).map (·.value) }
          else s.mail } := by
  induction ws generalizing s with
  | nil => simp
  | cons w ws ih =>
    rw [List.foldl_cons, ih]
    unfold State.handOn StartUp.over
    cases hf : w.full <;> cases hc : w.isCmd <;> cases h1 : s.startUp.cmdWait <;> cases h2 : s.startUp.evtWait <;>
      simp [hf, hc, h1, h2, State.setMail]

/-! ## The arbiter (R158, R159) -/

theorem MemPath.unissued_eq_none (m : MemPath) (h : ∀ r ∈ m.ownQ, r.issued ≠ none) : m.unissued = none := by
  unfold MemPath.unissued
  rw [List.findIdx?_eq_none_iff]
  intro r hr
  have := h r hr
  cases hi : r.issued <;> simp_all

theorem MemPath.unissued_eq_some (m : MemPath) (k : Nat) (r : OwnReq) (h : m.ownQ[k]? = some r) (hi : r.issued = none)
    (hb : ∀ j q, j < k → m.ownQ[j]? = some q → q.issued ≠ none) : m.unissued = some k := by
  unfold MemPath.unissued
  obtain ⟨hk, rfl⟩ := List.getElem?_eq_some_iff.mp h
  rw [List.findIdx?_eq_some_iff_getElem]
  refine ⟨hk, by simp [hi], ?_⟩
  intro j hj
  have := hb j _ hj (List.getElem?_eq_getElem (by omega))
  cases hx : (m.ownQ[j]).issued <;> simp_all

/-- Some waiting pass burst goes before the own request by R158. -/
theorem MemPath.any_goesBefore (m : MemPath) (r : OwnReq) :
    m.passQ.any (fun b => goesBefore b r) = true ↔
      ∃ x ∈ m.passQ, x.no < r.after ∧ (r.dir = .read → x.dir = .write) := by
  simp only [List.any_eq_true, goesBefore]
  cases r.dir <;> simp

/-- The arbiter does not look at the bursts held off. -/
theorem MemPath.arbitrate_held (m : MemPath) (t : Nat) (x : List Burst) :
    ({ m with held := x } : MemPath).arbitrate t = { m.arbitrate t with held := x } := by
  have hun : ({ m with held := x } : MemPath).unissued = m.unissued := rfl
  unfold MemPath.arbitrate
  rw [hun]
  cases m.unissued with
  | none => cases hp : m.passQ <;> simp [MemPath.issuePass, hp]
  | some k =>
    cases hk : m.ownQ[k]? with
    | none => simp [hk]
    | some r =>
      cases hp : m.passQ with
      | nil => simp [hk, hp, MemPath.issueOwn]
      | cons b bs =>
        simp only [hk, hp, MemPath.issueOwn, MemPath.issuePass]
        split_ifs <;> rfl

/-- An issue: the arbiter's choice, then the bursts held off are accepted where there is room. -/
theorem State.issue_eq (s : State) (time : Nat) :
    s.issue time =
      acceptHeld s.mem.held
        { s with now := max s.now time
                 mem := ({ s.mem with engineOut := [] } : MemPath).arbitrate (max s.now time) } := by
  have h := MemPath.arbitrate_held { s.mem with engineOut := [] } (max s.now time) s.mem.held
  have h2 : ({ s.mem with engineOut := [] } : MemPath) = { s.mem with engineOut := [], held := s.mem.held } := rfl
  have h3 : (({ s.mem with engineOut := [] } : MemPath).arbitrate (max s.now time)).held = s.mem.held := by
    rw [h2, h]
  simp only [State.issue, State.setTime, State.clearOut, State.setMem]
  rw [h3]

/-! ## Commands that wait for their own requests (R136, R182, R183) -/

/-- Such a command ends when its request `k` ends: the processor, the queue and nothing else of `x` change. -/
theorem State.endCommand_of_ended (s x : State) (cur : CmdRecord) (k : Nat) (o : CmdResult) (hp : x.proc = s.proc)
    (hc : s.proc.current = some cur) (hcb : x.cbsel = s.cbsel) (hm : x.mem = s.mem.leave k) :
    s.executionEnded (x.endCommand o) cur k o ∧
      x.endCommand o = { x with proc := (x.endCommand o).proc, mem := s.mem.withOwn (x.endCommand o).mem } := by
  have hx : x.proc.current = some cur := by rw [hp, hc]
  rw [State.endCommand_eq x cur o hx]
  refine ⟨⟨?_, _, rfl, ?_, ?_⟩, ?_⟩
  · simp [State.queueOwn, hp]
    rfl
  · simp only [State.queueOwn_mem, State.setProc_mem, hm, State.commandAddr, State.control, hcb, hp]
    rfl
  · simp only [State.queueOwn_mem, State.setProc_mem, hm, State.commandAddr, State.control, hcb, hp]
    rfl
  · simp only [State.queueOwn, State.setMem, State.setProc, hm]
    rw [← MemPath.withOwn_leave s.mem _ k, ← MemPath.queueOwn_frame]

end Sys2Proof.Machine
end

