-- ==== Sys2Proof/Laws/Panels.lean ====
section
/-! SUPPORT. Panels.lean: what an edge of the lever and the fit of a curve can do. -/

namespace Sys2Proof.Machine

@[simp] theorem State.setPort_setPort (x : State) (p : PortId) (a b : Port) : (x.setPort p a).setPort p b = x.setPort p b := by
  simp [State.setPort]

/-- An edge that comes before the no-edge timer is due. -/
theorem State.levEdge_eq (s : State) (p : PortId) (level : Bool) (time : Nat) (h1 : level ≠ (s.port p).lev)
    (h2 : max s.now time ≤ (s.port p).noEdge + 25000) : s.levEdge p level time = (s.setTime time).edge p level := by
  have hd : ¬s.noEdgeDue p < max s.now time := by
    simp only [State.noEdgeDue, Config.noEdgeTime]
    omega
  simp only [State.levEdge, h1, if_false, hd]

/-- A valid cycle gives the lever value. -/
theorem State.closeCycle_valid (x : State) (p : PortId) (per act : Nat) (h1 : 200 ≤ per) (h2 : per ≤ 10000) (h3 : act ≠ 0)
    (h4 : act ≠ per) : x.closeCycle p per act = x.validCycle p (min 1023 (1024 * act / per)) := by
  have h : cycleFault per act = none := by
    unfold cycleFault
    rw [if_neg (by simp only [Config.minLever, Config.maxLever]; omega), if_neg (by simp [h3, h4])]
  simp only [State.closeCycle, h]
  rfl

theorem raiseKnots_length (ks : List Nat) (fl : Nat) : (raiseKnots fl ks).length = ks.length := by
  induction ks generalizing fl with
  | nil => rfl
  | cons k ks ih => simp [raiseKnots, ih]

/-- Raised knots never fall. -/
theorem raiseKnots_sorted (ks : List Nat) (fl : Nat) : (raiseKnots fl ks).Pairwise (· ≤ ·) ∧ ∀ x ∈ raiseKnots fl ks, fl ≤ x := by
  induction ks generalizing fl with
  | nil => exact ⟨List.Pairwise.nil, by simp [raiseKnots]⟩
  | cons k ks ih =>
    obtain ⟨h1, h2⟩ := ih (max fl k)
    refine ⟨List.pairwise_cons.mpr ⟨h2, h1⟩, ?_⟩
    intro x hx
    rcases List.mem_cons.mp hx with rfl | hx
    · exact le_max_left _ _
    · exact le_trans (le_max_left _ _) (h2 x hx)

end Sys2Proof.Machine
end

