-- ==== Sys2Proof/Laws/PerInstr.lean ====
section
/-! SUPPORT. PerInstr.lean: the statements made of every command as syntax, one lemma per row. -/

namespace Sys2Proof.Laws

/-- The kind code and the fields of a well-formed command row name that row and no other (11.7). -/
def KindCodes.Statement (i : Instr) : Prop :=
  ∀ (k : Byte) (r : CmdArgs), i.wf = true → recordOf i = some (k, r) → commandOf k r = i

/-- A row with a record whose kind names it. -/
theorem KindCodes.of_row {i : Instr} {k : Byte} {r : CmdArgs} (hr : recordOf i = some (k, r)) (hc : commandOf k r = i) :
    KindCodes.Statement i := by
  intro k' r' _ h
  rw [hr] at h
  obtain ⟨rfl, rfl⟩ := Prod.mk.inj (Option.some.inj h)
  exact hc

/-- A row that no record brings. -/
theorem KindCodes.of_none {i : Instr} (hr : recordOf i = none) : KindCodes.Statement i := by
  intro k r _ h
  rw [hr] at h
  exact absurd h (by simp)

theorem KindCodes.resetN (cbsel : BitVec 4) (evtFirst : Bool) : KindCodes.Statement (.resetN cbsel evtFirst) :=
  KindCodes.of_none rfl

theorem KindCodes.startUpWriteComplete (w : StartWrite) (st : Status) : KindCodes.Statement (.startUpWriteComplete w st) :=
  KindCodes.of_none rfl

theorem KindCodes.engineBurst (b : Burst) (portFree : Bool) : KindCodes.Statement (.engineBurst b portFree) := KindCodes.of_none rfl

theorem KindCodes.strayWriteReport (c : ChanId) : KindCodes.Statement (.strayWriteReport c) := KindCodes.of_none rfl

theorem KindCodes.storePortIssue (time : Nat) : KindCodes.Statement (.storePortIssue time) := KindCodes.of_none rfl

theorem KindCodes.passBurstComplete (k : Nat) (st : Status) (data : List Byte) :
    KindCodes.Statement (.passBurstComplete k st data) :=
  KindCodes.of_none rfl

theorem KindCodes.cmdProducer : KindCodes.Statement (.cmdProducer) := KindCodes.of_none rfl

theorem KindCodes.evtConsumer : KindCodes.Statement (.evtConsumer) := KindCodes.of_none rfl

theorem KindCodes.ownRequestTimeout (k : Nat) (cause : TimeoutCause) : KindCodes.Statement (.ownRequestTimeout k cause) :=
  KindCodes.of_none rfl

theorem KindCodes.unknownKind (kind : Byte) (r : CmdArgs) : KindCodes.Statement (.unknownKind kind r) := by
  intro k r' hw h
  simp only [recordOf, Option.some.injEq, Prod.mk.injEq] at h
  obtain ⟨rfl, rfl⟩ := h
  simp only [Instr.wf, isCommandKind, Bool.not_eq_true', Bool.and_eq_false_iff, decide_eq_false_iff_not] at hw
  unfold commandOf
  split <;> first | rfl | omega

theorem KindCodes.engage (r : CmdArgs) : KindCodes.Statement (.engage r) := KindCodes.of_row rfl rfl

theorem KindCodes.disengage (r : CmdArgs) (turns : List Turn) : KindCodes.Statement (.disengage r turns) :=
  match turns with
  | [] => KindCodes.of_row rfl rfl
  | _ :: _ => KindCodes.of_none rfl

theorem KindCodes.refRestart (r : CmdArgs) : KindCodes.Statement (.refRestart r) := KindCodes.of_row rfl rfl

theorem KindCodes.channelSetup (r : CmdArgs) : KindCodes.Statement (.channelSetup r) := KindCodes.of_row rfl rfl

theorem KindCodes.channelArm (r : CmdArgs) : KindCodes.Statement (.channelArm r) := KindCodes.of_row rfl rfl

theorem KindCodes.channelStop (r : CmdArgs) : KindCodes.Statement (.channelStop r) := KindCodes.of_row rfl rfl

theorem KindCodes.channelAbort (r : CmdArgs) : KindCodes.Statement (.channelAbort r) := KindCodes.of_row rfl rfl

theorem KindCodes.channelClear (r : CmdArgs) (turns : List Turn) : KindCodes.Statement (.channelClear r turns) :=
  match turns with
  | [] => KindCodes.of_row rfl rfl
  | _ :: _ => KindCodes.of_none rfl

theorem KindCodes.headSource (r : CmdArgs) : KindCodes.Statement (.headSource r) := KindCodes.of_row rfl rfl

theorem KindCodes.headRate (r : CmdArgs) : KindCodes.Statement (.headRate r) := KindCodes.of_row rfl rfl

theorem KindCodes.headGoto (r : CmdArgs) : KindCodes.Statement (.headGoto r) := KindCodes.of_row rfl rfl

theorem KindCodes.mark (r : CmdArgs) (turns : List Turn) : KindCodes.Statement (.mark r turns) :=
  match turns with
  | [] => KindCodes.of_row rfl rfl
  | _ :: _ => KindCodes.of_none rfl

theorem KindCodes.markSetup (r : CmdArgs) : KindCodes.Statement (.markSetup r) := KindCodes.of_row rfl rfl

theorem KindCodes.clipClose (r : CmdArgs) (turns : List Turn) : KindCodes.Statement (.clipClose r turns) :=
  match turns with
  | [] => KindCodes.of_row rfl rfl
  | _ :: _ => KindCodes.of_none rfl

theorem KindCodes.clipDelete (r : CmdArgs) (turns : List Turn) : KindCodes.Statement (.clipDelete r turns) :=
  match turns with
  | [] => KindCodes.of_row rfl rfl
  | _ :: _ => KindCodes.of_none rfl

theorem KindCodes.clipTag (r : CmdArgs) : KindCodes.Statement (.clipTag r) := KindCodes.of_row rfl rfl

theorem KindCodes.clipQuery (r : CmdArgs) : KindCodes.Statement (.clipQuery r) := KindCodes.of_row rfl rfl

theorem KindCodes.panelBind (r : CmdArgs) : KindCodes.Statement (.panelBind r) := KindCodes.of_row rfl rfl

theorem KindCodes.panelCurve (r : CmdArgs) : KindCodes.Statement (.panelCurve r) := KindCodes.of_row rfl rfl

theorem KindCodes.panelTiming (r : CmdArgs) : KindCodes.Statement (.panelTiming r) := KindCodes.of_row rfl rfl

theorem KindCodes.eventMask (r : CmdArgs) : KindCodes.Statement (.eventMask r) := KindCodes.of_row rfl rfl

theorem KindCodes.statusSnapshot (r : CmdArgs) (order : List SnapPart) (turns : List Turn) :
    KindCodes.Statement (.statusSnapshot r order turns) :=
  match order, turns with
  | [], [] => KindCodes.of_row rfl rfl
  | [], _ :: _ => KindCodes.of_none rfl
  | _ :: _, _ => KindCodes.of_none rfl

theorem KindCodes.curveFetchComplete (data : List Byte) (st : Status) : KindCodes.Statement (.curveFetchComplete data st) :=
  KindCodes.of_none rfl

theorem KindCodes.reportWriteComplete (st : Status) : KindCodes.Statement (.reportWriteComplete st) := KindCodes.of_none rfl

theorem KindCodes.writeBackComplete (st : Status) : KindCodes.Statement (.writeBackComplete st) := KindCodes.of_none rfl

theorem KindCodes.cmdConsumerWriteComplete (st : Status) : KindCodes.Statement (.cmdConsumerWriteComplete st) :=
  KindCodes.of_none rfl

theorem KindCodes.syncInEdge (level : Bool) (time : Nat) : KindCodes.Statement (.syncInEdge level time) := KindCodes.of_none rfl

theorem KindCodes.syncPulse : KindCodes.Statement (.syncPulse) := KindCodes.of_none rfl

theorem KindCodes.flywheelExpiry : KindCodes.Statement (.flywheelExpiry) := KindCodes.of_none rfl

theorem KindCodes.channelTick (c : ChanId) : KindCodes.Statement (.channelTick c) := KindCodes.of_none rfl

theorem KindCodes.headTick (h : HeadId) (turns : List Turn) : KindCodes.Statement (.headTick h turns) :=
  KindCodes.of_none rfl

theorem KindCodes.takeoverNotice (p : PortId) : KindCodes.Statement (.takeoverNotice p) := KindCodes.of_none rfl

theorem KindCodes.portLostNotice (p : PortId) : KindCodes.Statement (.portLostNotice p) := KindCodes.of_none rfl

theorem KindCodes.attachNotice (h : HeadId) : KindCodes.Statement (.attachNotice h) := KindCodes.of_none rfl

theorem KindCodes.headDetachNotice (h : HeadId) : KindCodes.Statement (.headDetachNotice h) := KindCodes.of_none rfl

theorem KindCodes.clipDetachNotice (h : HeadId) : KindCodes.Statement (.clipDetachNotice h) := KindCodes.of_none rfl

theorem KindCodes.panelMark (p : PortId) (turns : List Turn) : KindCodes.Statement (.panelMark p turns) :=
  KindCodes.of_none rfl

theorem KindCodes.framesCommittedArrival (c : ChanId) (turns : List Turn) :
    KindCodes.Statement (.framesCommittedArrival c turns) :=
  KindCodes.of_none rfl

theorem KindCodes.stopNotice (c : ChanId) : KindCodes.Statement (.stopNotice c) := KindCodes.of_none rfl

theorem KindCodes.levEdge (p : PortId) (level : Bool) (time : Nat) : KindCodes.Statement (.levEdge p level time) :=
  KindCodes.of_none rfl

theorem KindCodes.noEdgeTimerExpiry (p : PortId) : KindCodes.Statement (.noEdgeTimerExpiry p) := KindCodes.of_none rfl

theorem KindCodes.jogLineChange (p : PortId) (ja jb : Bool) (time : Nat) : KindCodes.Statement (.jogLineChange p ja jb time) :=
  KindCodes.of_none rfl

theorem KindCodes.jogFilterExpiry (p : PortId) : KindCodes.Statement (.jogFilterExpiry p) := KindCodes.of_none rfl

theorem KindCodes.keyLineChange (p : PortId) (key : Key) (level : Bool) (time : Nat) :
    KindCodes.Statement (.keyLineChange p key level time) :=
  KindCodes.of_none rfl

theorem KindCodes.keyDebounceExpiry (p : PortId) (key : Key) : KindCodes.Statement (.keyDebounceExpiry p key) :=
  KindCodes.of_none rfl

theorem KindCodes.eventRecordWrite : KindCodes.Statement (.eventRecordWrite) := KindCodes.of_none rfl

theorem KindCodes.eventRecordWriteComplete (st : Status) : KindCodes.Statement (.eventRecordWriteComplete st) :=
  KindCodes.of_none rfl

theorem KindCodes.evtProducerWriteComplete (st : Status) : KindCodes.Statement (.evtProducerWriteComplete st) :=
  KindCodes.of_none rfl

end Sys2Proof.Laws
end

