-- ==== Sys2Proof/Laws/Weave.lean ====
section
/-! SUPPORT. Weave.lean: a row with nothing between its operations, what every weaving of events keeps, and what the programs of
chapter 3, 5, 8 and 10 do when nothing falls between their operations. -/

namespace Sys2Proof.Machine

/-! ## Nothing between the operations -/

@[simp] theorem busyAt_nil (a : Agent) : busyAt [] a = false := rfl

@[simp] theorem any_busyAt_nil (b : List Agent) : b.any (busyAt []) = false := by
  induction b with
  | nil => rfl
  | cons a b ih => simp

/-- With no other event in progress, a program that ends goes on to its end. -/
theorem goOn_of_run {p : Prog Unit} {s t : State} (h : p.run s = some (t, ())) : goOn [] p s = (t, .done ()) := by
  induction p generalizing s with
  | done a => cases h; rfl
  | never => cases h
  | op b f next ih => simpa [goOn] using ih s h

theorem finish_of_none {x : Weft} {a : Agent} (h : threadOf x.2 a = none) : finish x a = x := by
  simp [finish, h]

@[simp] theorem finish_of_nil (s : State) (a : Agent) : finish (s, []) a = (s, []) := rfl

@[simp] theorem finishCommand_of_nil (s : State) : finishCommand (s, []) = (s, []) := rfl

@[simp] theorem finishAll_of_nil (s : State) : finishAll (s, []) = (s, []) := rfl

/-- One event in progress, alone, goes on to its end. -/
theorem finish_one {who : Agent} {b : List Agent} {p : Prog Unit} {s t : State} (h : p.run s = some (t, ())) :
    finish (s, [{ who, inAt := b, rest := p }]) who = (t, []) := by
  simp [finish, threadOf, othersOf, goOn_of_run h]

theorem finish_other {who a : Agent} {b : List Agent} {p : Prog Unit} {s : State} (h : who ≠ a) :
    finish (s, [{ who, inAt := b, rest := p }]) a = (s, [{ who, inAt := b, rest := p }]) :=
  finish_of_none (by simp [threadOf, h])

theorem finishAll_one {who : Agent} {b : List Agent} {p : Prog Unit} {s t : State} (hw : ∀ c, who ≠ .channel c)
    (h : p.run s = some (t, ())) : finishAll (s, [{ who, inAt := b, rest := p }]) = (t, []) := by
  cases who with
  | channel c => exact absurd rfl (hw c)
  | clips => simp [finishAll, finish_one h, allHeads]
  | processor =>
    have hc : ∀ x : Weft, x = (s, [{ who := .processor, inAt := b, rest := p }]) →
        finishCommand x = x ∨ finishCommand x = (t, []) := by
      intro x hx
      subst hx
      by_cases hb : b = []
      · left
        simp [finishCommand, threadOf, hb]
      · right
        simp [finishCommand, threadOf, hb, finish_one h]
    rw [finishAll, finish_other (by simp)]
    rcases hc _ rfl with e | e <;> rw [e]
    · simp only [allHeads, List.foldl]
      rw [finish_other (by simp), finish_other (by simp), finish_other (by simp), finish_other (by simp), finish_one h]
    · simp [allHeads]
  | head g =>
    have hf : ∀ a, a ≠ g → finish (s, [{ who := .head g, inAt := b, rest := p }]) (.head a) =
        (s, [{ who := .head g, inAt := b, rest := p }]) := fun a ha => finish_other (by simpa using Ne.symm ha)
    have hcmd : finishCommand (s, [{ who := .head g, inAt := b, rest := p }]) =
        (s, [{ who := .head g, inAt := b, rest := p }]) := by simp [finishCommand, threadOf]
    rw [finishAll, finish_other (by simp), hcmd]
    have hg : g = 0 ∨ g = 1 ∨ g = 2 ∨ g = 3 := (by decide : ∀ x : HeadId, x = 0 ∨ x = 1 ∨ x = 2 ∨ x = 3) g
    rcases hg with rfl | rfl | rfl | rfl <;> simp [allHeads, hf, finish_one h]

/-- No event goes on under the name of a channel. -/
theorem courseOf_who {fuel : Nat} {s : State} {e : BlockEvent} {who : Agent} {p : Prog Unit}
    (h : courseOf fuel s e = .steps who p) : ∀ c, who ≠ .channel c := by
  intro c
  cases e <;> simp only [courseOf, onceAt, onceFree, commandCourse, reduceCtorEq] at h <;>
    first
    | (injection h with h1 _; subst h1; simp)
    | (split at h <;> first | (injection h with h1 _; subst h1; simp) | simp at h)

/-- A row with nothing between its operations is its event alone. -/
theorem weave_of_alone {e : BlockEvent} {s t : State} (h : takeAlone 2 e s = some t) : weave e [] s = .next t := by
  unfold takeAlone at h
  unfold weave
  simp only [List.foldl_nil, pickFuel, List.length_nil, Nat.zero_add]
  cases hc : courseOf 2 s e with
  | once b f =>
    rw [hc] at h
    cases h
    simp [begin]
  | steps who p =>
    rw [hc] at h
    have hw := courseOf_who hc
    simp only [Option.map_eq_some_iff] at h
    obtain ⟨⟨t', u⟩, hr, rfl⟩ := h
    cases p with
    | done a =>
      cases hr
      simp [begin, goOnce]
    | never => cases hr
    | op b f next =>
      simp only [begin, threadOf, List.find?_nil, Option.isSome_none, Bool.false_eq_true, if_false, goOnce, any_busyAt_nil,
        Option.getD_some]
      simp only [Prog.run_op] at hr
      cases hn : next s with
      | done a =>
        rw [hn] at hr
        cases hr
        simp
      | never =>
        rw [hn] at hr
        cases hr
      | op b' f' next' =>
        rw [hn] at hr
        simp [finishAll_one hw hr]

/-! ## What every weaving keeps -/

/-- Every operation of a course keeps `P`. -/
def Course.Keeps (P : State → Prop) : Course → Prop
  | .once _ f => ∀ s, P s → P (f s)
  | .steps _ p => p.Keeps P

/-- The state of a weft has `P`, and the operations still to be made keep it. -/
def weftKeeps (P : State → Prop) (x : Weft) : Prop := P x.1 ∧ ∀ th ∈ x.2, th.rest.Keeps P

theorem goOnce_keeps {P : State → Prop} {ts : List Thread} {who : Agent} {s : State} {p : Prog Unit} {x : Weft} (hs : P s)
    (hp : p.Keeps P) (ht : ∀ th ∈ ts, th.rest.Keeps P) (h : goOnce ts who s p = some x) : weftKeeps P x := by
  cases p with
  | done a => cases h
  | never => cases h
  | op b f next =>
    simp only [goOnce] at h
    split at h
    · cases h
    · cases h
      refine ⟨(hp s hs).1, ?_⟩
      have hn := (hp s hs).2
      cases hx : next s with
      | done a => exact ht
      | never =>
        intro th hth
        rcases List.mem_cons.1 hth with rfl | hth
        · exact Prog.keeps_never P
        · exact ht th hth
      | op b' f' next' =>
        rw [hx] at hn
        intro th hth
        rcases List.mem_cons.1 hth with rfl | hth
        · exact hn
        · exact ht th hth

theorem goOn_keeps {P : State → Prop} {ts : List Thread} {s : State} {p : Prog Unit} (hs : P s) (hp : p.Keeps P) :
    P (goOn ts p s).1 ∧ (goOn ts p s).2.Keeps P := by
  induction p generalizing s with
  | done a => exact ⟨hs, trivial⟩
  | never => exact ⟨hs, trivial⟩
  | op b f next ih =>
    simp only [goOn]
    split
    · exact ⟨hs, hp⟩
    · exact ih s (hp s hs).1 (hp s hs).2

theorem begin_keeps {P : State → Prop} {x : Weft} {c : Course} (hx : weftKeeps P x) (hc : c.Keeps P) : weftKeeps P (begin x c) := by
  cases c with
  | once b f =>
    simp only [begin]
    split
    · exact hx
    · exact ⟨hc _ hx.1, hx.2⟩
  | steps who p =>
    simp only [begin]
    split
    · exact hx
    · cases hg : goOnce x.2 who x.1 p with
      | none => exact hx
      | some y => exact goOnce_keeps hx.1 hc hx.2 hg

theorem mem_of_threadOf {ts : List Thread} {a : Agent} {th : Thread} (h : threadOf ts a = some th) : th ∈ ts :=
  List.mem_of_find?_eq_some h

theorem mem_of_othersOf {ts : List Thread} {a : Agent} {th : Thread} (h : th ∈ othersOf ts a) : th ∈ ts :=
  (List.mem_filter.1 h).1

theorem takeTurn_keeps {P : State → Prop} {fuel : Nat} (hP : ∀ s e, P s → (courseOf fuel s e).Keeps P) {x : Weft} (t : Turn)
    (hx : weftKeeps P x) : weftKeeps P (takeTurn fuel x t) := by
  cases t with
  | event e => exact begin_keeps hx (hP _ _ hx.1)
  | move a =>
    simp only [takeTurn]
    cases ht : threadOf x.2 a with
    | none => exact hx
    | some th =>
      simp only
      cases hg : goOnce (othersOf x.2 a) a x.1 th.rest with
      | none => exact hx
      | some y => exact goOnce_keeps hx.1 (hx.2 _ (mem_of_threadOf ht)) (fun w hw => hx.2 w (mem_of_othersOf hw)) hg

theorem finish_keeps {P : State → Prop} {x : Weft} (a : Agent) (hx : weftKeeps P x) : weftKeeps P (finish x a) := by
  unfold finish
  cases ht : threadOf x.2 a with
  | none => exact hx
  | some th =>
    have hk := goOn_keeps (ts := othersOf x.2 a) hx.1 (hx.2 _ (mem_of_threadOf ht))
    simp only
    cases hg : goOn (othersOf x.2 a) th.rest x.1 with
    | mk s p =>
      rw [hg] at hk
      cases p with
      | done u => exact ⟨hk.1, fun w hw => hx.2 w (mem_of_othersOf hw)⟩
      | never =>
        refine ⟨hk.1, fun w hw => ?_⟩
        rcases List.mem_cons.1 hw with rfl | hw
        · exact hk.2
        · exact hx.2 w (mem_of_othersOf hw)
      | op b f next =>
        refine ⟨hk.1, fun w hw => ?_⟩
        rcases List.mem_cons.1 hw with rfl | hw
        · exact hk.2
        · exact hx.2 w (mem_of_othersOf hw)

theorem finishCommand_keeps {P : State → Prop} {x : Weft} (hx : weftKeeps P x) : weftKeeps P (finishCommand x) := by
  unfold finishCommand
  split
  · exact hx
  · split
    · exact hx
    · exact finish_keeps _ hx

theorem finishAll_keeps {P : State → Prop} {x : Weft} (hx : weftKeeps P x) : weftKeeps P (finishAll x) := by
  unfold finishAll
  have hl : ∀ (hs : List HeadId) (y : Weft), weftKeeps P y → weftKeeps P (hs.foldl (fun y h => finish y (.head h)) y) := by
    intro hs
    induction hs with
    | nil => exact fun y hy => hy
    | cons h hs ih => exact fun y hy => ih _ (finish_keeps _ hy)
  exact finish_keeps _ (hl _ _ (finishCommand_keeps (finish_keeps _ hx)))

/-- What every operation of every event keeps is kept by every weaving of events. -/
theorem weave_keeps {P : State → Prop} (hP : ∀ fuel s e, P s → (courseOf fuel s e).Keeps P) {e : BlockEvent} {turns : List Turn}
    {s t : State} (hs : P s) (h : weave e turns s = .next t) : P t := by
  have hf : ∀ (ts : List Turn) (y : Weft), weftKeeps P y → weftKeeps P (ts.foldl (takeTurn (pickFuel turns)) y) := by
    intro ts
    induction ts with
    | nil => exact fun y hy => hy
    | cons a ts ih => exact fun y hy => ih _ (takeTurn_keeps (hP _) a hy)
  have h0 : weftKeeps P ((s, []) : Weft) := ⟨hs, by simp⟩
  have hk := finishAll_keeps (hf turns _ (begin_keeps h0 (hP (pickFuel turns) s e hs)))
  unfold weave at h
  split at h
  · rename_i t' ht
    cases h
    rw [ht] at hk
    exact hk.1
  · cases h

/-! ## Commands with nothing between their operations (R167) -/

/-- A fetch that is taken goes on with the command. -/
theorem State.fetched_of_takes {s : State} (h : s.takesRecord = true) (kind : Byte) (r : CmdArgs) (run : State → State) :
    s.fetched kind r run = run (s.fetched kind r id) := by
  unfold State.takesRecord at h
  unfold State.fetched
  split at h
  · rename_i k hp ho
    simp_all
  · cases h

/-- A fetch that is not taken does not go on. -/
theorem State.fetched_of_not_takes {s : State} (h : s.takesRecord = false) (kind : Byte) (r : CmdArgs) (run : State → State) :
    s.fetched kind r run = s.fetched kind r id := by
  unfold State.takesRecord at h
  unfold State.fetched
  split
  · rename_i k hp ho
    simp only [hp, ho] at h
    simp_all
  · rfl

/-- A command that may stay in EXECUTING, whose owner answers all at once as `f` does, is `f` carried out. -/
theorem longCommandProg_run {kind : Byte} {r : CmdArgs} {own : Prog (Option CmdResult)}
    {f : State → State × Option CmdResult} (h : ∀ u, own.run u = some (f u)) (s : State) :
    (longCommandProg kind r own).run s = some (s.carryOutLong kind r f, ()) := by
  unfold longCommandProg State.carryOutLong
  rw [Prog.run_op]
  cases hs : s.takesRecord with
  | false => simp [State.fetched_of_not_takes hs kind r (fun _ => _)]
  | true =>
    refine Eq.trans ?_ (congrArg (fun x => some (x, ())) (State.fetched_of_takes hs kind r _).symm)
    simp only [if_true, Prog.run_bind, h, Option.bind_some]
    cases (f (s.fetched kind r id)).2 <;> rfl

/-- A command whose owner answers all at once as `f` does is `f` carried out. -/
theorem commandProg_run {kind : Byte} {r : CmdArgs} {own : Prog CmdResult} {f : State → State × CmdResult}
    (h : ∀ u, own.run u = some (f u)) (s : State) : (commandProg kind r own).run s = some (s.carryOut kind r f, ()) :=
  longCommandProg_run (f := fun u => ((f u).1, some (f u).2)) (fun u => by simp [h]) s

/-- CHANNEL_CLEAR all at once (R28). -/
def clearNow (r : CmdArgs) (s : State) : State × CmdResult :=
  match targetChan r with
  | none => (s, .refused .badArg)
  | some c =>
    if !s.mayClear c then (s, .refused .inUse)
    else
      (((s.emptyAll (s.chan c).loopSlots).indexClear (s.chan c).firstSlot (s.chan c).len).clearRecord c,
       .done (BitVec.ofNat 32 ((s.chan c).nextRfn - (s.chan c).tail)))

theorem channelClear_run (r : CmdArgs) (s : State) : (channelClear r).run s = some (clearNow r s) := by
  unfold channelClear clearNow
  cases targetChan r with
  | none => rfl
  | some c =>
    simp only [Prog.run_read]
    split
    · rfl
    · simp [Prog.each_run, State.emptyAll]

/-- CHANNEL_CLEAR with nothing between its operations. -/
theorem exec_channelClear_nil (r : CmdArgs) (s : State) :
    weave (.command 0x08 r) [] s = .next (s.carryOut 0x08 r (clearNow r)) :=
  weave_of_alone (by
    show ((commandProg 0x08 r (channelClear r)).run s).map (·.1) = _
    rw [commandProg_run (channelClear_run r)]
    rfl)

/-- CLIP_CLOSE all at once (R111). -/
def clipCloseNow (r : CmdArgs) (s : State) : State × CmdResult :=
  match targetClip r with
  | none => (s, .refused .badArg)
  | some k =>
    match (s.clip k).state with
    | .free => (s, .refused .noClip)
    | .closed => (s, .refused .state)
    | .opened =>
      (s.closeNow k (clampNat (s.clip k).inF (s.clip k).outF r.a.toNat) .command,
       .fitted (decide (clampNat (s.clip k).inF (s.clip k).outF r.a.toNat ≠ r.a.toNat))
         (BitVec.ofNat 32 (clampNat (s.clip k).inF (s.clip k).outF r.a.toNat)))

theorem clipClose_run (r : CmdArgs) (s : State) : (clipClose r).run s = some (clipCloseNow r s) := by
  unfold clipClose clipCloseNow
  cases targetClip r with
  | none => rfl
  | some k =>
    simp only [Prog.run_read]
    cases (s.clip k).state <;> simp [Prog.onTable_run, closeClip_run]

/-- CLIP_DELETE all at once (R112). -/
def clipDeleteNow (r : CmdArgs) (s : State) : State × CmdResult :=
  match targetClip r with
  | none => (s, .refused .badArg)
  | some k =>
    if (s.clip k).state = .free then (s, .refused .noClip)
    else if s.hasClipHead k then (s, .refused .inUse)
    else (s.deleteNow k .command, .done (BitVec.ofNat 32 ((s.clip k).outF - (s.clip k).inF + 1)))

theorem clipDelete_run (r : CmdArgs) (s : State) : (clipDelete r).run s = some (clipDeleteNow r s) := by
  unfold clipDelete clipDeleteNow
  cases targetClip r with
  | none => rfl
  | some k =>
    simp only [Prog.run_read]
    split_ifs <;> simp [Prog.onTable_run, deleteClip_run]

/-- CLIP_CLOSE with nothing between its operations. -/
theorem exec_clipClose_nil (r : CmdArgs) (s : State) :
    weave (.command 0x0E r) [] s = .next (s.carryOut 0x0E r (clipCloseNow r)) :=
  weave_of_alone (by
    show ((commandProg 0x0E r (clipClose r)).run s).map (·.1) = _
    rw [commandProg_run (clipClose_run r)]
    rfl)

/-- CLIP_DELETE with nothing between its operations. -/
theorem exec_clipDelete_nil (r : CmdArgs) (s : State) :
    weave (.command 0x0F r) [] s = .next (s.carryOut 0x0F r (clipDeleteNow r)) :=
  weave_of_alone (by
    show ((commandProg 0x0F r (clipDelete r)).run s).map (·.1) = _
    rw [commandProg_run (clipDelete_run r)]
    rfl)

/-- DISENGAGE all at once: the state after it, and the channels it took from ARMED, RECORDING or STOPPING (R151). -/
def disengageNow (s : State) : State × CmdResult :=
  (allHeads.foldl State.idleHead (allChans.foldl State.stopChannel s.goTransparent),
   .done (BitVec.ofNat 32 (allChans.filter (fun c => (s.chan c).busy)).length))

theorem State.stopChannel_other (s : State) (c d : ChanId) (h : d ≠ c) : (s.stopChannel c).chan d = s.chan d := by
  unfold State.stopChannel
  split
  · simp [State.abortChannel, State.endRecording, State.raiseAt, State.tellClips, h]
  · rfl

theorem disengageChannels_run (cs : List ChanId) (hn : cs.Nodup) (n : Nat) (s : State) :
    (disengageChannels cs n).run s = some (cs.foldl State.stopChannel s, n + (cs.filter (fun c => (s.chan c).busy)).length) := by
  induction cs generalizing n s with
  | nil => rfl
  | cons c cs ih =>
    obtain ⟨h1, h2⟩ := List.nodup_cons.1 hn
    simp only [disengageChannels, Prog.run_op, ih h2, List.foldl_cons, Option.some.injEq, Prod.mk.injEq, true_and]
    have hf : cs.filter (fun d => ((s.stopChannel c).chan d).busy) = cs.filter (fun d => (s.chan d).busy) :=
      List.filter_congr (fun d hd => by rw [s.stopChannel_other c d (fun e => h1 (e ▸ hd))])
    rw [hf]
    by_cases hb : (s.chan c).busy = true
    · simp [hb]
      omega
    · simp [hb]

theorem disengage_run (s : State) : disengage.run s = some (disengageNow s) := by
  simp only [disengage, Prog.run_op, Prog.run_bind, disengageChannels_run allChans (by decide), Option.bind_some, Prog.each_run,
    Prog.run_done, disengageNow, Nat.zero_add]
  rfl

/-- DISENGAGE with nothing between its parts. -/
theorem exec_disengage_nil (r : CmdArgs) (s : State) :
    weave (.command 0x02 r) [] s = .next (s.carryOut 0x02 r disengageNow) :=
  weave_of_alone (by
    show ((commandProg 0x02 r disengage).run s).map (·.1) = _
    rw [commandProg_run disengage_run]
    rfl)

/-- Parts read with nothing between them are read in one state. -/
theorem readParts_run (ps : List SnapPart) (s : State) : (readParts ps).run s = some (s, ps.map (fun p => (p, s))) := by
  induction ps with
  | nil => rfl
  | cons p ps ih => simp [readParts, ih]

theorem readAt_same (ps : List SnapPart) (s : State) : readAt (ps.map (fun p => (p, s))) s = fun _ => s := by
  funext p
  induction ps with
  | nil => rfl
  | cons q ps ih =>
    simp only [readAt, List.map_cons] at ih ⊢
    by_cases h : q = p <;> simp_all

/-- STATUS_SNAPSHOT all at once (R182). -/
def snapshotNow (r : CmdArgs) (s : State) : State × Option CmdResult :=
  if reportFits (addrArg r) 512 then (s.queueReport (addrArg r) s.snapshotBytes, none) else (s, some (.refused .badArg))

theorem statusSnapshot_run (r : CmdArgs) (order : List SnapPart) (s : State) :
    (statusSnapshot r order).run s = some (snapshotNow r s) := by
  unfold statusSnapshot snapshotNow
  split
  · simp only [Prog.run_bind, readParts_run, Option.bind_some, Prog.run_op, readAt_same, Prog.run_done, State.snapshotBytes]
  · rfl

/-- STATUS_SNAPSHOT with nothing between its parts is that of one state, whatever their order. -/
theorem exec_statusSnapshot_nil (r : CmdArgs) (order : List SnapPart) (s : State) :
    weave (.statusSnapshot r order) [] s = .next (s.carryOutLong 0x16 r (snapshotNow r)) :=
  weave_of_alone (by
    show ((longCommandProg 0x16 r (statusSnapshot r order)).run s).map (·.1) = _
    rw [longCommandProg_run (statusSnapshot_run r order)]
    rfl)

/-! ## A head's tick with nothing between its operations (R54) -/

/-- No tick waits: nothing is taken (R126). -/
theorem headTick_of_empty (h : HeadId) (fuel : Nat) (s : State) (hm : s.mail.headTicks.get h = []) :
    (headTickProg h fuel).run s = some (s, ()) := by
  simp [headTickProg, State.beginTick, hm]

/-- A pick whose first lookup and pin succeed latches that frame (R55, R56). -/
theorem pickFrame_latched {h : HeadId} {before : Head} {m : Moved} {fuel : Nat} {v : Sight} {f : Fit} {s t : State} {d n : Nat}
    {w : Option Nat} (hd : f.frame = some d) (hl : s.locateShown before.src v.extents d = some n)
    (hp : s.pin n d = (t, .done w)) :
    (pickFrame h before m (fuel + 1) v f).run s =
      some (t, f, some { src := before.src, chan := s.chanOf before.src, rfn := d, slot := n }) := by
  simp [pickFrame, hd, hl, hp]

/-- A pick on an empty loop latches no frame (R55). -/
theorem pickFrame_none {h : HeadId} {before : Head} {m : Moved} {fuel : Nat} {v : Sight} {f : Fit} (s : State)
    (hd : f.frame = none) : (pickFrame h before m (fuel + 1) v f).run s = some (s, f, none) := by
  simp [pickFrame, hd]

/-- A pick whose lookup finds nothing goes on with the bounds read again (R55, R56, R77). -/
theorem pickFrame_again {h : HeadId} {before : Head} {m : Moved} {fuel : Nat} {v : Sight} {f : Fit} {s : State} {d : Nat}
    (hd : f.frame = some d) (hl : s.locateShown before.src v.extents d = none) :
    (pickFrame h before m (fuel + 1) v f).run s =
      (pickFrame h before m fuel (s.refit before m f).1 (s.refit before m f).2).run s := by
  simp [pickFrame, hd, hl]

end Sys2Proof.Machine
end

