-- ==== Sys2Proof/Tests/Slice0.lean ====
section
/-! SUPPORT. Slice0.lean: own tests. Expected results are written out from the manual; each test names its place. The witnesses
show, for each statement with hypotheses, operands and a state that meet them, clause by clause. -/

namespace Sys2Proof.Tests

open Sys2Proof.Machine

/-! ## Well-formedness: an ill-formed term per check -/

def writeBurst (a : Addr) (beats bytes : Nat) : Burst :=
  { dir := .write, addr := a, beats, data := List.replicate bytes { en := true, val := 0 } }

def readBurst (a : Addr) : Burst := { dir := .read, addr := a, beats := 1, data := [] }

theorem test_wf_no_beats : (readBurst 0).wf = true ∧ { readBurst 0 with beats := 0 : Burst }.wf = false := by decide

theorem test_wf_too_many_beats : { readBurst 0 with beats := 64 : Burst }.wf = true ∧
    { readBurst 0 with beats := 65 : Burst }.wf = false := by decide

theorem test_wf_write_bytes : (writeBurst 0 1 32).wf = true ∧ (writeBurst 0 1 31).wf = false := by decide

theorem test_wf_read_with_bytes : { readBurst 0 with data := [{ en := true, val := 0 }] : Burst }.wf = false := by decide

theorem test_wf_crosses_4k : { readBurst 0xFE0 with beats := 1 : Burst }.legal = true ∧
    { readBurst 0xFE0 with beats := 2 : Burst }.legal = false := by decide

def record (target : Half) (a b c d : Word) : CmdArgs := { flags := 0, tag := 0x1234, target, a, b, c, d }

theorem test_wf_known_kind_is_not_unknown : (Instr.unknownKind 0x17 (record 0 0 0 0 0)).wf = true ∧
    (Instr.unknownKind 0x16 (record 0 0 0 0 0)).wf = false ∧ (Instr.unknownKind 0 (record 0 0 0 0 0)).wf = true := by decide

theorem test_wf_curve_bytes : (Instr.curveFetchComplete (List.replicate 64 0) .good).wf = true ∧
    (Instr.curveFetchComplete (List.replicate 63 0) .good).wf = false := by decide

theorem test_wf_read_bytes : (Instr.passBurstComplete 0 .good (List.replicate 33 0)).wf = false := by decide

theorem test_wf_events_inside_a_row :
    (Instr.headTick 0 [.event (.engineBurst (readBurst 0) true), .move (.head 0)]).wf = true ∧
      (Instr.headTick 0 [.event (.engineBurst { readBurst 0 with beats := 0 } true)]).wf = false ∧
      (Instr.channelClear (record 0 0 0 0 0) [.event (.curveFetchComplete [] .good)]).wf = false := by decide

/-! ## Records, written out byte by byte from 11.3 and 11.7 -/

/-- CHANNEL_SETUP, kind 0x04: tag 0x1234, target 2, first slot 0x0100, 400 slots, 4 phases, reserve 64. -/
theorem test_decode_channel_setup :
    decodeRecord [0x04, 0, 0, 0, 0x34, 0x12, 0x02, 0x00, 0x00, 0x01, 0, 0, 0x90, 0x01, 0, 0, 0x04, 0, 0, 0, 0x40, 0, 0, 0,
      0, 0, 0, 0, 0, 0, 0, 0] = some (.channelSetup (record 2 0x100 400 4 64)) := by decide

/-- HEAD_RATE, kind 0x0A: T = -256 is 0xFFFFFF00 in argument A. -/
theorem test_decode_head_rate :
    decodeRecord [0x0A, 0, 0, 0, 0x34, 0x12, 0x03, 0x00, 0x00, 0xFF, 0xFF, 0xFF, 0x20, 0, 0, 0, 0, 0, 0, 0, 0, 0, 0, 0,
      0, 0, 0, 0, 0, 0, 0, 0] = some (.headRate (record 3 0xFFFFFF00 32 0 0)) := by decide

/-- A kind of no command, and a record of a wrong length. -/
theorem test_decode_unknown : decodeRecord (0x17 :: List.replicate 31 0) =
    some (.unknownKind 0x17 { flags := 0, tag := 0, target := 0, a := 0, b := 0, c := 0, d := 0 }) ∧
    decodeRecord (List.replicate 31 0) = none := by decide

/-! ## Arithmetic of the manual's examples -/

/-- 7.5: a cycle of period 1,000 us with active time 684 us gives 700; 1,023 is the largest value. -/
theorem test_lever_value : leverValue 1000 684 = 700 ∧ leverValue 1000 999 = 1022 ∧ leverValue 10000 9999 = 1023 := by decide

/-- R131: the limits of a period and of an active time. -/
theorem test_cycle_limits : cycleFault 199 100 = some (.badPeriod, 199) ∧ cycleFault 200 100 = none ∧
    cycleFault 10000 100 = none ∧ cycleFault 10001 100 = some (.badPeriod, 10001) ∧
    cycleFault 1000 0 = some (.badActive, 0) ∧ cycleFault 1000 1000 = some (.badActive, 1000) := by decide

/-- R137: knots 0, 10, 30, 25, 60 ... 1,800, 3,000 are fitted to 0, 10, 30, 30, 60 ... 1,800, 2,048. -/
theorem test_fit_knots : fitKnots [0, 10, 30, 25, 60, 1800, 3000] = [0, 10, 30, 30, 60, 1800, 2048] := by decide

/-- R24: the next member of the set at or above the request, 8 above 8. -/
theorem test_fit_phases : [0, 1, 4, 5, 6, 7, 8, 9].map fitPhases = [1, 1, 4, 6, 6, 8, 8, 8] := by decide

/-- R67: the last step lands on the target, in either direction. -/
theorem test_slew : slewToward 256 240 32 = 256 ∧ slewToward 256 100 32 = 132 ∧ slewToward (-256) 0 32 = -32 := by decide

/-- R140: forward is 00, JA alone, 11, JB alone. -/
theorem test_jog_order : (jogPlace false true + 1) % 4 = jogPlace false false ∧
    jogPlace true false = jogPlace false false + 1 ∧ jogPlace true true = 2 := by decide

/-- R89: a frame below that ends just before the loop's wrap joins the first extent; another begins a new one. -/
theorem test_join_bottom : joinBottom 400 [{ rfn := 1599, pos := 0, len := 1 }] 1598 399 = [{ rfn := 1598, pos := 399, len := 2 }] ∧
    joinBottom 400 [{ rfn := 1500, pos := 301, len := 100 }] 1499 299 =
      [{ rfn := 1499, pos := 299, len := 1 }, { rfn := 1500, pos := 301, len := 100 }] := by decide

/-! ## A small state -/

def sampleSlots : Tbl Slot :=
  [(0, { state := .held, rfn := 0, locks := 1, pins := 1 }), (1, { state := .held, rfn := 1, locks := 0, pins := 1 }),
   (2, { state := .held, rfn := 2 }), (3, { state := .held, rfn := 3, locks := 1 }), (4, { state := .recording, rfn := 4 }),
   (5, { state := .recording, rfn := 5 })]

def sampleIndex : Tbl IndexEntry :=
  [(0, { valid := true, slot := 0 }), (1, { valid := true, slot := 1 }), (2, { valid := true, slot := 2 }),
   (3, { valid := true, slot := 3 })]

def sampleClips : Tbl Clip :=
  [(0, { state := .closed, chan := 0, inF := 0, outF := 0, extents := [{ rfn := 0, pos := 0, len := 1 }], reason := .mark }),
   (1, { state := .opened, chan := 0, inF := 3, outF := 3, extents := [{ rfn := 3, pos := 3, len := 1 }], growing := true,
         attached := some 0 })]

/-- Channel 0 records, two phases a tick, in a loop of 64 slots; head 0 shows its frame 0, head 1 leaves slot 1 trailing, clip 1 grows
on head 0, port 0 is bound to head 1, the mode is ACTIVE, and the processor waits for a record. -/
def sample : State :=
  { State.reset with
    startUp := { cmdWait := false, evtWait := false }
    mem := { active := true, region := 2 ^ 30, slotBase := 2 ^ 36, stride := 20, slate := 2 ^ 31
             ownQ := [{ req := .fetch, dir := .read, addr := 0x1000, beats := 1, issued := some 5 }] }
    slots := sampleSlots
    index := sampleIndex
    chans := #v[{ state := .recording, firstSlot := 0, len := 64, phases := 2, reserve := 12, cursor := 6, nextRfn := 4,
                  tail := 0, locked := 2, phaseSlots := [4, 5] }, {}, {}, {}, {}, {}, {}, {}]
    heads := #v[{ src := .live 0, pos := 0, rate := 0, target := 0, attached := some 1
                  shown := some { src := .live 0, chan := 0, rfn := 0, slot := 0 } },
                { trailing := some 1 }, {}, {}]
    clips := sampleClips
    ports := #v[{ binding := some 1 }, {}]
    proc := { state := .fetching, producer := 1 } }

/-- A record of a table holds what every listed record and the default hold. -/
theorem read_forall {α : Type} (d : α) (P : α → Prop) (t : Tbl α) (h : ∀ e ∈ t, P e.2) (hd : P d) (n : Nat) :
    P (Tbl.read d t n) := by
  induction t with
  | nil => exact hd
  | cons e t ih =>
    unfold Tbl.read
    split
    · exact h e (by simp)
    · exact ih (fun x hx => h x (by simp [hx]))

def running : State := { sample with pending := [.channelTick 0] }

/-! ## Witnesses: the machine as a whole -/

theorem witness_StepRunsTheFrontCommand : running.pending = .channelTick 0 :: [] := rfl

/-- The step that the invariants' witnesses take. -/
theorem running_steps : ∃ t, step running = .next t := ⟨_, rfl⟩

theorem witness_EveryStepKeepsTheTablesForm : running.tablesWf ∧ ∃ t, step running = .next t :=
  ⟨by unfold State.tablesWf; decide, running_steps⟩

theorem sample_slotsLawful : sample.slotsLawful := by
  intro n
  show (Tbl.read ({} : Slot) sampleSlots n).lawful
  exact read_forall _ Slot.lawful _ (by unfold Slot.lawful; decide) (by unfold Slot.lawful; decide) n

theorem witness_EveryStepKeepsTheSlotLaws : running.slotsLawful ∧ ∃ t, step running = .next t :=
  ⟨sample_slotsLawful, running_steps⟩

theorem sample_pinsAgree : sample.pinsAgree := by
  intro n
  by_cases h0 : n = 0
  · subst h0; decide
  by_cases h1 : n = 1
  · subst h1; decide
  have h2 : (sample.slot n).pins = 0 := by
    have h := read_forall ({} : Slot) (fun x : Slot => x.pins = 0) (sampleSlots.drop 2) (by decide) rfl n
    show (Tbl.read ({} : Slot) sampleSlots n).pins = 0
    simpa [sampleSlots, Tbl.read, h0, h1] using h
  rw [h2]
  show 0 = ((sample.head 0).pinsOn n + ((sample.head 1).pinsOn n + ((sample.head 2).pinsOn n + ((sample.head 3).pinsOn n + 0))))
  have a0 : (sample.head 0).pinsOn n = 0 := by
    show (if some 0 = some n then 1 else 0) + (if none = some n then 1 else 0) = 0
    simp [Ne.symm h0]
  have a1 : (sample.head 1).pinsOn n = 0 := by
    show (if none = some n then 1 else 0) + (if some 1 = some n then 1 else 0) = 0
    simp [Ne.symm h1]
  have a2 : (sample.head 2).pinsOn n = 0 := rfl
  have a3 : (sample.head 3).pinsOn n = 0 := rfl
  rw [a0, a1, a2, a3]

theorem witness_EveryStepKeepsPinCountsTrue : running.slotsLawful ∧ running.pinsAgree ∧ ∃ t, step running = .next t :=
  ⟨sample_slotsLawful, sample_pinsAgree, running_steps⟩

theorem sample_owns_none (c : ChanId) (h : c ≠ 0) (n : Nat) : (sample.chan c).owns n = false := by
  fin_cases c <;> first | exact absurd rfl h | rfl

theorem sample_geometryOk : sample.geometryOk := by
  refine ⟨?_, ?_⟩
  · intro c
    fin_cases c
    · exact ⟨by decide, by decide, by decide, by decide, by decide, by decide⟩
    all_goals exact ⟨by decide, rfl⟩
  · rintro c d n hcd ⟨h1, h2⟩
    have hc : c = 0 := by by_contra hx; rw [sample_owns_none c hx] at h1; exact Bool.noConfusion h1
    have hd : d = 0 := by by_contra hx; rw [sample_owns_none d hx] at h2; exact Bool.noConfusion h2
    exact hcd (hc.trans hd.symm)

theorem witness_EveryStepKeepsTheLoopGeometry : running.geometryOk ∧ ∃ t, step running = .next t :=
  ⟨sample_geometryOk, running_steps⟩

theorem sample_locksAgree : sample.locksAgree := by
  refine ⟨by decide, ?_⟩
  intro n hn
  by_cases h : n < 4
  · interval_cases n <;> decide
  · exfalso
    apply hn
    have h2 := read_forall ({} : Slot) (fun x : Slot => x.locks = 0) (sampleSlots.drop 4) (by decide) rfl n
    have h0 : n ≠ 0 := by omega
    have h1 : n ≠ 1 := by omega
    have h3 : n ≠ 2 := by omega
    have h4 : n ≠ 3 := by omega
    show (Tbl.read ({} : Slot) sampleSlots n).locks = 0
    simpa [sampleSlots, Tbl.read, h0, h1, h3, h4] using h2

/-- A slot of the sample that is not one of the six listed ones is EMPTY. -/
theorem sample_slot_default (n : Nat) (h : 6 ≤ n) : sample.slot n = {} := by
  show Tbl.read ({} : Slot) sampleSlots n = {}
  have : n ≠ 0 ∧ n ≠ 1 ∧ n ≠ 2 ∧ n ≠ 3 ∧ n ≠ 4 ∧ n ≠ 5 := by omega
  simp [sampleSlots, Tbl.read, this]

theorem sample_chan_off (c : ChanId) (h : c ≠ 0) : sample.chan c = {} := by
  fin_cases c <;> first | exact absurd rfl h | rfl

theorem sample_recordingOk : sample.recordingOk := by
  refine ⟨?_, ?_, ?_⟩
  · intro c
    by_cases hc : c = 0
    · subst hc
      rw [if_pos (.inl rfl)]
      refine ⟨rfl, by decide, ?_⟩
      intro j n hj
      match j with
      | 0 => obtain rfl : n = 4 := (Option.some.inj hj).symm; exact ⟨rfl, rfl, rfl⟩
      | 1 => obtain rfl : n = 5 := (Option.some.inj hj).symm; exact ⟨rfl, rfl, rfl⟩
      | _ + 2 => exact absurd hj (by simp [sample, State.chan, Vector.get_eq_getElem])
    · rw [sample_chan_off c hc, if_neg (by decide)]
  · intro n hn
    by_cases h : n < 6
    · refine ⟨0, ?_⟩
      interval_cases n <;> first | decide | exact absurd hn (by decide)
    · rw [sample_slot_default n (by omega)] at hn
      exact absurd hn (by decide)
  · intro n hn
    by_cases h : n < 6
    · interval_cases n <;> exact absurd hn (by decide)
    · exact sample_slot_default n (by omega)

theorem sample_windowOk (c : ChanId) (hc : (sample.chan c).state ≠ .off) : sample.windowOk c := by
  obtain rfl : c = 0 := by
    by_contra h
    exact hc (by rw [sample_chan_off c h])
  refine ⟨by decide, ?_⟩
  intro r _ hr
  have hr' : r < 4 := hr
  interval_cases r
  · exact ⟨0, ⟨by decide, rfl, rfl, rfl⟩, rfl⟩
  · exact ⟨1, ⟨by decide, rfl, rfl, rfl⟩, rfl⟩
  · exact ⟨2, ⟨by decide, rfl, rfl, rfl⟩, rfl⟩
  · exact ⟨3, ⟨by decide, rfl, rfl, rfl⟩, rfl⟩

/-- The sample meets the hypotheses of both clauses; its live window holds frames 0 to 3. -/
theorem witness_EveryStepKeepsTheRfnLimit :
    (∀ c, (running.chan c).numbered) ∧ running.slotsLawful ∧ running.pinsAgree ∧ running.geometryOk ∧ running.locksAgree ∧
      running.recordingOk ∧ (∀ c, (running.chan c).state ≠ .off → running.windowOk c) ∧ ∃ t, step running = .next t :=
  ⟨by unfold Channel.numbered; decide, sample_slotsLawful, sample_pinsAgree, sample_geometryOk, sample_locksAgree,
    sample_recordingOk, sample_windowOk, running_steps⟩

theorem sample_clip_default (k : Nat) (h : 2 ≤ k) : sample.clip k = {} := by
  show Tbl.read ({} : Clip) sampleClips k = {}
  have : k ≠ 0 ∧ k ≠ 1 := by omega
  simp [sampleClips, Tbl.read, this]

theorem sample_holds (k n : Nat) :
    sample.clipHolds (sample.clip k) n = (decide (k = 0 ∧ n = 0) || decide (k = 1 ∧ n = 3)) := by
  by_cases h0 : k = 0
  · subst h0
    show decide (n ∈ ([0] : List Nat)) = _
    simp
  · by_cases h1 : k = 1
    · subst h1
      show decide (n ∈ ([3] : List Nat)) = _
      simp
    · rw [sample_clip_default k (by omega)]
      show decide (n ∈ ([] : List Nat)) = _
      simp [h0, h1]

theorem sample_clipsTrue : sample.clipsTrue := by
  refine ⟨?_, fun k hk => sample_clip_default k (by omega), ?_, ?_⟩
  · intro k hk
    by_cases h : k < 2
    · interval_cases k <;> exact absurd hk (by decide)
    · exact sample_clip_default k (by omega)
  · intro k hk
    by_cases h : k < 2
    · interval_cases k
      · refine ⟨by decide, by decide, by decide, by decide, ⟨rfl, by decide, by decide, rfl⟩, by decide, ?_, by decide⟩
        intro r _ hr
        obtain rfl : r = 0 := Nat.le_zero.mp hr
        exact ⟨0, rfl, rfl, rfl⟩
      · refine ⟨by decide, by decide, by decide, by decide, ⟨rfl, by decide, by decide, rfl⟩, by decide, ?_, by decide⟩
        intro r hl hr
        obtain rfl : r = 3 := Nat.le_antisymm hr hl
        exact ⟨3, rfl, rfl, rfl⟩
    · exact absurd (congrArg Clip.state (sample_clip_default k (by omega))) hk
  · intro n
    simp only [sample_holds]
    by_cases h0 : n = 0
    · subst h0; decide
    by_cases h3 : n = 3
    · subst h3; decide
    have : (sample.slot n).locks = 0 := by
      by_cases h : n < 6
      · interval_cases n <;> first | rfl | exact absurd rfl h0 | exact absurd rfl h3
      · rw [sample_slot_default n (by omega)]
    rw [this]
    simp [h0, h3]

theorem sample_entriesInLoop (c : ChanId) : sample.entriesInLoop c := by
  intro i hi hv
  by_cases hc : c = 0
  · subst hc
    have h := read_forall ({} : IndexEntry) (fun e : IndexEntry => e.valid = true → e.slot < 64) sampleIndex (by decide)
      (by decide) i
    show (decide (0 ≤ (sample.entry i).slot) && decide ((sample.entry i).slot < 64)) = true
    rw [decide_eq_true (Nat.zero_le _), decide_eq_true (p := (sample.entry i).slot < 64) (h hv)]
    rfl
  · rw [sample_owns_none c hc] at hi
    exact Bool.noConfusion hi

/-- The sample meets the hypotheses of both clauses; clip 0 holds slot 0 and clip 1 slot 3. -/
theorem witness_EveryStepKeepsLockedCountsTrue :
    running.slotsLawful ∧ running.geometryOk ∧ running.locksAgree ∧ (∀ c, running.entriesInLoop c) ∧ running.clipsTrue ∧
      ∃ t, step running = .next t :=
  ⟨sample_slotsLawful, sample_geometryOk, sample_locksAgree, sample_entriesInLoop, sample_clipsTrue, running_steps⟩

theorem witness_EveryStepKeepsHeadsAndPortsInRange :
    running.headsInRange ∧ running.portsInRange ∧ ∃ t, step running = .next t :=
  ⟨by unfold State.headsInRange Head.inRange; decide, by unfold State.portsInRange Port.inRange; decide, running_steps⟩

theorem witness_EveryStepKeepsTheUnitsSound :
    running.evt.sound ∧ running.mem.sound ∧ running.proc.sound ∧ running.ref.sound ∧ ∃ t, step running = .next t :=
  ⟨by unfold EventUnit.sound; decide, by unfold MemPath.sound; decide, by unfold Proc.sound; decide, ⟨rfl, rfl, rfl⟩,
    running_steps⟩

/-! ## Witnesses: the hypotheses of each statement, met clause by clause

Each theorem applies a statement to operands and states of its own, with a proof of every hypothesis. -/

/-- The command gives a next state. -/
def Completes (i : Instr) (s : State) : Prop := ∃ t, exec i s = .next t

/-- From what a statement says of the next state, that there is one. -/
theorem Completes.of {i : Instr} {s : State} {P : State → Prop} (h : ∃ t, exec i s = .next t ∧ P t) : Completes i s :=
  h.imp fun _ x => x.1

/-- The sample's own request: a fetch issued at 5. -/
def sampleFetch : OwnReq := { req := .fetch, dir := .read, addr := 0x1000, beats := 1, issued := some 5 }

/-- A state with the sample's fetch outstanding, at time 0. -/
theorem waits {s : State} (hp : s.proc.state = .fetching) (hq : s.mem.ownQ = [sampleFetch]) (hn : s.now = 0) : s.awaits :=
  ⟨hp, 0, by rw [MemPath.outstanding, hq]; rfl, sampleFetch, 5, by rw [hq]; rfl, rfl, by rw [hn]; decide⟩

/-- An own request outstanding and in time. -/
theorem inTime {s : State} {q : Requester} {k t : Nat} {r : OwnReq} (ho : s.mem.outstanding q = some k)
    (hr : s.mem.ownQ[k]? = some r) (ht : r.issued = some t) (hn : s.now ≤ t + 1000) : s.inTime q k := ⟨ho, r, t, hr, ht, hn⟩

theorem sample_awaits : sample.awaits := waits rfl rfl rfl

/-- The sample with channel 0 in another state. -/
def inState (st : ChanState) : State := sample.setChan 0 { sample.chan 0 with state := st }

/-- The sample in TRANSPARENT. -/
def transparent : State := { sample with mem := { sample.mem with active := false } }

/-- The sample with a READY channel 2, whose loop is EMPTY. -/
def ready2 : State := sample.setChan 2 { state := .ready, firstSlot := 64, len := 64, phases := 1, reserve := 10 }

theorem inState_awaits (st : ChanState) : (inState st).awaits := waits rfl rfl rfl

theorem sample_clip_forall (P : Clip → Prop) (h : ∀ e ∈ sampleClips, P e.2) (hd : P {}) (k : Nat) : P (sample.clip k) :=
  read_forall ({} : Clip) P sampleClips h hd k

/-! ### Slots -/

theorem witness_DeclinedSlotOperationsChangeNothing (h : Obligations.DeclinedSlotOperationsChangeNothing) :
    (sample.take 0 9).1 = sample ∧ (sample.commit 0).1 = sample ∧ (sample.empty 0).1 = sample ∧ (sample.lock 2 9).1 = sample ∧
      (sample.unlock 1).1 = sample ∧ (sample.pin 2 9).1 = sample ∧ (sample.unpin 2).1 = sample :=
  ⟨(h sample 0 9 .locked).1 rfl, (h sample 0 9 .notRecording).2.1 rfl, (h sample 0 9 .locked).2.2.1 rfl,
    (h sample 2 9 .notHeld).2.2.2.1 rfl, (h sample 1 9 .atZero).2.2.2.2.1 rfl, (h sample 2 9 .notHeld).2.2.2.2.2.1 rfl,
    (h sample 2 9 .atZero).2.2.2.2.2.2 rfl⟩

theorem witness_UnpinLowersThePinCountAlone (h : Obligations.UnpinLowersThePinCountAlone) :
    (sample.unpin 0).2 = .done none ∧ (sample.unpin 2).2 = .declined .atZero ∧
      ((sample.unpin 1).1.take 1 66).2 = .done (some 1) :=
  ⟨((h sample 0).1 (by decide)).1, congrArg Prod.snd ((h sample 2).2.1 rfl), (h sample 1).2.2 rfl rfl rfl (by decide) 66⟩

theorem witness_PositionLookupReadsTheSlotRecordAlone (h : Obligations.PositionLookupReadsTheSlotRecordAlone) :
    sample.positionLookup 0 67 3 = some 3 :=
  ((h sample 0 67 3 (by decide)).1 3).mpr ⟨rfl, rfl, rfl⟩

theorem witness_TwoCallersOnOneSlotMeetAsTheTableSays (h : Obligations.TwoCallersOnOneSlotMeetAsTheTableSays) :
    (sample.pin 2 2).2 = .done none ∧ (sample.unpin 1).2 = .done none ∧ (sample.unlock 3).2 = .done none ∧
      sample.indexLookup 0 4 = none ∧ (sample.lock 2 2).2 = .done none ∧ (sample.unlock 0).2 = .done none := by
  refine ⟨((h sample 2 2 66).1 rfl rfl rfl rfl (by decide)).2.2.1, ((h sample 1 1 66).2.1 rfl rfl rfl rfl (by decide)).2.2.1,
    ((h sample 3 3 66).2.2.1 rfl rfl rfl rfl (by decide)).2.2.1,
    ((h sample 4 4 66).2.2.2.1 0 rfl rfl rfl rfl (by decide) ?_ ?_).1,
    ((h sample 2 2 66).2.2.2.2.1 rfl rfl (.inr (by decide)) (by decide) (by decide)).1,
    ((h sample 0 0 66).2.2.2.2.2 (by decide) (by decide)).1⟩
  · intro m _ hm hr
    have := read_forall ({} : Slot) (fun x : Slot => x.state = .held → x.rfn ≠ 4) sampleSlots (by decide) (by decide) m
    exact this hm hr
  · intro i hv hi
    have : i = 4 := hi
    subst this
    exact absurd hv (by decide)

/-! ### Channels -/

theorem witness_ChannelSetupGivesTheFittedLoop (h : Obligations.ChannelSetupGivesTheFittedLoop) :
    Completes (.channelSetup (record 1 16320 64 5 0)) sample ∧ Completes (.channelSetup (record 1 64 16320 9 9000)) sample := by
  have loopFree : ∀ f n, 64 ≤ f → sample.loopFree 1 f n := by
    intro f n hf d hd hs
    have : d = 0 := by fin_cases d <;> first | rfl | exact absurd rfl hs
    subst this
    right
    exact hf
  obtain ⟨t, p, v, e, _⟩ := h sample (record 1 16320 64 5 0) 1 sample_awaits rfl (.inl rfl) (by decide) (by decide) (by decide)
    (loopFree 16320 64 (by decide))
  obtain ⟨t', p', v', e', _⟩ := h sample (record 1 64 16320 9 9000) 1 sample_awaits rfl (.inl rfl) (by decide) (by decide)
    (by decide) (loopFree 64 16320 (by decide))
  exact ⟨⟨t, e⟩, ⟨t', e'⟩⟩

theorem not_setupTaken : ¬sample.setupTaken 0 := by
  rintro (h | ⟨h, _⟩) <;> exact absurd h (by decide)

theorem witness_ChannelSetupTurnsOffOrRefuses (h : Obligations.ChannelSetupTurnsOffOrRefuses) :
    Completes (.channelSetup (record 8 0 64 1 0)) sample ∧ Completes (.channelClear (record 0xFFFF 0 0 0 0) []) sample ∧
      Completes (.channelSetup (record 0 0 64 1 0)) sample ∧
      Completes (.channelSetup (record 1 0 0 1 0)) sample ∧ Completes (.channelSetup (record 1 0 63 1 0)) sample ∧
      Completes (.channelSetup (record 1 16321 64 1 0)) sample ∧ Completes (.channelSetup (record 1 63 64 1 0)) sample := by
  refine ⟨.of ((h sample (record 8 0 64 1 0) sample_awaits).1 _ 0x04 (by decide) (by simp)),
    .of ((h sample (record 0xFFFF 0 0 0 0) sample_awaits).1 (.channelClear (record 0xFFFF 0 0 0 0) []) 0x08 (by decide) (by simp)),
    .of (((h sample (record 0 0 64 1 0) sample_awaits).2 0 rfl).1 not_setupTaken),
    .of (((h sample (record 1 0 0 1 0) sample_awaits).2 1 rfl).2.1 (.inl rfl) rfl),
    .of (((h sample (record 1 0 63 1 0) sample_awaits).2 1 rfl).2.2.1 (.inl rfl) (by decide) (by decide)),
    .of (((h sample (record 1 16321 64 1 0) sample_awaits).2 1 rfl).2.2.1 (.inl rfl) (by decide) (by decide)),
    .of (((h sample (record 1 63 64 1 0) sample_awaits).2 1 rfl).2.2.2 (.inl rfl) (by decide) (by decide) (by decide) ?_)⟩
  intro hf
  exact absurd (hf 0 (by decide) (by decide)) (by decide)

/-- The sample with channel 0 a period before the RFN limit. -/
def lastPeriod (next : Nat) : State := sample.setChan 0 { sample.chan 0 with nextRfn := next }

theorem witness_ChannelArmActsByState (h : Obligations.ChannelArmActsByState) :
    Completes (.channelArm (record 0 0 0 0 0)) transparent ∧ Completes (.channelArm (record 1 0 0 0 0)) sample ∧
      Completes (.channelArm (record 0 0 0 0 0)) (lastPeriod 4294967039) ∧
      Completes (.channelArm (record 0 0 0 0 0)) (lastPeriod 4294967038) ∧
      ∀ st, st ≠ .off → Completes (.channelArm (record 0 0 0 0 0)) (inState st) := by
  refine ⟨.of ((h transparent (record 0 0 0 0 0) 0 (waits rfl rfl rfl) rfl).1 (.inl rfl)),
    .of ((h sample (record 1 0 0 0 0) 1 sample_awaits rfl).1 (.inr (.inl rfl))),
    .of ((h (lastPeriod 4294967039) (record 0 0 0 0 0) 0 (waits rfl rfl rfl) rfl).1 (.inr (.inr (by decide)))),
    .of ((h (lastPeriod 4294967038) (record 0 0 0 0 0) 0 (waits rfl rfl rfl) rfl).2 rfl (by decide) (by decide)), ?_⟩
  intro st hst
  exact .of ((h (inState st) (record 0 0 0 0 0) 0 (inState_awaits st) rfl).2 rfl hst (by decide : 4 + 2 - 1 < 4294967040))

theorem witness_ChannelStopActsByState (h : Obligations.ChannelStopActsByState) :
    Completes (.channelStop (record 1 0 0 0 0)) sample ∧
      ∀ st, st ≠ .off → Completes (.channelStop (record 0 0 0 0 0)) (inState st) :=
  ⟨.of ((h sample (record 1 0 0 0 0) 1 sample_awaits rfl).1 rfl),
    fun st hst => .of ((h (inState st) (record 0 0 0 0 0) 0 (inState_awaits st) rfl).2 hst)⟩

theorem witness_ChannelAbortEndsRecordingAtOnce (h : Obligations.ChannelAbortEndsRecordingAtOnce) :
    Completes (.channelAbort (record 1 0 0 0 0)) sample ∧ Completes (.channelAbort (record 0 0 0 0 0)) (inState .ready) ∧
      Completes (.channelAbort (record 0 0 0 0 0)) (inState .armed) ∧ Completes (.channelAbort (record 0 0 0 0 0)) sample ∧
      Completes (.channelAbort (record 0 0 0 0 0)) (inState .stopping) :=
  ⟨.of ((h sample (record 1 0 0 0 0) 1 sample_awaits rfl).1 rfl),
    .of ((h (inState .ready) (record 0 0 0 0 0) 0 (inState_awaits _) rfl).2.1 rfl),
    .of ((h (inState .armed) (record 0 0 0 0 0) 0 (inState_awaits _) rfl).2.2 (.inl rfl)),
    .of ((h sample (record 0 0 0 0 0) 0 sample_awaits rfl).2.2 (.inr (.inl rfl))),
    .of ((h (inState .stopping) (record 0 0 0 0 0) 0 (inState_awaits _) rfl).2.2 (.inr (.inr rfl)))⟩

theorem ready2_clearTaken : ready2.clearTaken 2 := by
  refine ⟨rfl, ?_, by decide, ?_⟩
  · intro k _ _
    exact sample_clip_forall (fun c => c.chan ≠ 2) (by decide) (by decide) k
  · intro n hn _
    have hn' : 64 ≤ n := hn
    have h0 : n ≠ 0 := by omega
    have h1 : n ≠ 1 := by omega
    have h2 := read_forall ({} : Slot) (fun x : Slot => x.pins = 0) (sampleSlots.drop 2) (by decide) rfl n
    show (Tbl.read ({} : Slot) sampleSlots n).pins = 0
    simpa [sampleSlots, Tbl.read, h0, h1] using h2

theorem witness_ChannelClearEmptiesTheLoop (h : Obligations.ChannelClearEmptiesTheLoop) :
    Completes (.channelClear (record 0 0 0 0 0) []) sample ∧ Completes (.channelClear (record 2 0 0 0 0) []) ready2 :=
  ⟨.of ((h sample (record 0 0 0 0 0) 0 sample_awaits rfl).1 (fun x => absurd x.1 (by decide))),
    .of ((h ready2 (record 2 0 0 0 0) 2 (waits rfl rfl rfl) rfl).2 ready2_clearTaken)⟩

/-- A tick of count 7 waits at a channel. -/
def tickAt (s : State) (c : ChanId) : State := { s with mail := { s.mail with chanTicks := pushAt s.mail.chanTicks c 7 } }

theorem witness_ChannelTickOutsideRecordingClearsTheStrayFlag (h : Obligations.ChannelTickOutsideRecordingClearsTheStrayFlag) :
    Completes (.channelTick 1) (tickAt sample 1) ∧ Completes (.channelTick 2) (tickAt ready2 2) ∧
      Completes (.channelTick 0) (tickAt (inState .armed) 0) ∧ Completes (.channelTick 0) (tickAt sample 0) ∧
      Completes (.channelTick 0) (tickAt (inState .stopping) 0) :=
  ⟨.of ((h (tickAt sample 1) 1 7 [] rfl).1 (.inl rfl)), .of ((h (tickAt ready2 2) 2 7 [] rfl).1 (.inr rfl)),
    .of ((h (tickAt (inState .armed) 0) 0 7 [] rfl).2 (.inl rfl)), .of ((h (tickAt sample 0) 0 7 [] rfl).2 (.inr (.inl rfl))),
    .of ((h (tickAt (inState .stopping) 0) 0 7 [] rfl).2 (.inr (.inr rfl)))⟩

/-- A state whose one loop is that of channel 0 keeps the geometry when that loop is well shaped. -/
theorem geometryOk_of_one (s : State) (x : Channel) (hs : s.chans = #v[x, {}, {}, {}, {}, {}, {}, {}]) (hx : x.shaped) :
    s.geometryOk := by
  have hc : ∀ c, s.chan c = if c = 0 then x else {} := by
    intro c
    unfold State.chan
    rw [hs]
    fin_cases c <;> rfl
  refine ⟨?_, ?_⟩
  · intro c
    rw [hc]
    split
    · exact hx
    · exact ⟨by decide, rfl⟩
  · rintro c d n hcd ⟨h1, h2⟩
    rw [hc] at h1 h2
    by_cases h3 : c = 0
    · by_cases h4 : d = 0
      · exact hcd (h3.trans h4.symm)
      · rw [if_neg h4] at h2
        exact Bool.noConfusion h2
    · rw [if_neg h3] at h1
      exact Bool.noConfusion h1

/-- Channel 0 is ARMED at the last loop position but one, its loop EMPTY. -/
def armed : State :=
  tickAt { State.reset with
    chans := #v[{ state := .armed, len := 64, phases := 3, reserve := 14, cursor := 62 }, {}, {}, {}, {}, {}, {}, {}] } 0

/-- Channel 0 is ARMED again at loop position 0, with the sample's frames in its loop: slots 0 and 3 are locked, slot 1 is pinned,
slot 2 is free to take, 4 and 5 are RECORDING, and 6 is EMPTY. -/
def rearmed : State := tickAt (sample.setChan 0 { sample.chan 0 with state := .armed, cursor := 0 }) 0

theorem witness_ArmedChannelStartsRecordingAtItsTick (h : Obligations.ArmedChannelStartsRecordingAtItsTick) :
    (∃ t, exec (.channelTick 0) armed = .next t ∧ (t.chan 0).phaseSlots = [62, 63, 0] ∧ (t.chan 0).cursor = 1) ∧
      ∃ t, exec (.channelTick 0) rearmed = .next t ∧ (t.chan 0).phaseSlots = [2, 6] ∧ (t.chan 0).cursor = 7 ∧
        (t.chan 0).tail = 3 := by
  obtain ⟨t, e, _, _, _, _, _, _, _, _, hempty, _⟩ := h armed 0 7 [] rfl
    (geometryOk_of_one armed _ rfl ⟨by decide, by decide, by decide, by decide, by decide, by decide⟩) rfl
  obtain ⟨u, e', _, _, hslots, _, hcur, htail, _⟩ := h rearmed 0 7 [] rfl
    (geometryOk_of_one rearmed _ rfl ⟨by decide, by decide, by decide, by decide, by decide, by decide⟩) rfl
  have hs : (u.chan 0).phaseSlots = [2, 6] := hslots.trans (by decide)
  refine ⟨⟨t, e, (hempty fun _ _ _ => rfl).2.2.trans (by decide), (hempty fun _ _ _ => rfl).2.1⟩, u, e', hs, hcur 6 (by rw [hs]; rfl),
    htail.trans (by rw [hs]; decide)⟩

/-- The sample as it is before a tick of channel 0 in a state, the period's frames from `next` on. -/
def period (st : ChanState) (next : Nat) : State :=
  tickAt { sample with
    slots := [(4, { state := .recording, rfn := next }), (5, { state := .recording, rfn := next + 1 })]
    chans := #v[{ state := st, firstSlot := 0, len := 64, phases := 2, reserve := 12, cursor := 6, nextRfn := next,
                  tail := next, locked := 0, phaseSlots := [4, 5] }, {}, {}, {}, {}, {}, {}, {}] } 0

theorem period_geometry (next : Nat) (st : ChanState) (h : st ≠ .off) : (period st next).geometryOk :=
  geometryOk_of_one _ _ rfl ⟨(by decide : 2 ∈ [1, 2, 3, 4, 6, 8]), by
    cases st
    · exact absurd rfl h
    all_goals exact ⟨(by decide : 64 ≤ 64), (by decide : 0 + 64 ≤ 16384), (by decide : 2 * 2 + 8 ≤ 12), (by decide : 12 ≤ 64 / 2),
      (by decide : 6 < 64)⟩⟩

theorem period_taken (next : Nat) (st : ChanState) (h : st ≠ .off) : (period st next).periodTaken 0 := by
  refine ⟨rfl, (by decide : ([4, 5] : List Nat).Nodup), ?_⟩
  intro j n hj
  match j with
  | 0 =>
    obtain rfl : n = 4 := (Option.some.inj hj).symm
    cases st
    · exact absurd rfl h
    all_goals exact ⟨rfl, rfl, rfl⟩
  | 1 =>
    obtain rfl : n = 5 := (Option.some.inj hj).symm
    cases st
    · exact absurd rfl h
    all_goals exact ⟨rfl, rfl, rfl⟩
  | _ + 2 => exact absurd hj (by simp [period, tickAt, State.chan, Vector.get_eq_getElem])

theorem witness_StoppingChannelCommitsAndStopsAtItsTick (h : Obligations.StoppingChannelCommitsAndStopsAtItsTick) :
    Completes (.channelTick 0) (period .stopping 63) :=
  .of (h (period .stopping 63) 0 7 [] rfl (period_geometry 63 _ (by decide)) rfl (period_taken 63 _ (by decide)))

/-- On both sides of the RFN limit. -/
theorem witness_RecordingChannelCommitsAtItsTick (h : Obligations.RecordingChannelCommitsAtItsTick) :
    Completes (.channelTick 0) (period .recording 4294967036) ∧ Completes (.channelTick 0) (period .recording 4294967037) ∧
      4294967036 + 2 * 2 - 1 < 4294967040 ∧ 4294967040 ≤ 4294967037 + 2 * 2 - 1 :=
  ⟨.of (h (period .recording 4294967036) 0 7 [] rfl (period_geometry _ _ (by decide)) rfl (period_taken _ _ (by decide))),
    .of (h (period .recording 4294967037) 0 7 [] rfl (period_geometry _ _ (by decide)) rfl (period_taken _ _ (by decide))),
    by decide, by decide⟩

/-! ### Play heads -/

theorem Completes.of2 {α : Type} {i : Instr} {s : State} {P : State → α → Prop} (h : ∃ t v, exec i s = .next t ∧ P t v) :
    Completes i s :=
  h.imp fun _ ⟨_, x⟩ => x.1

theorem Completes.of3 {α β : Type} {i : Instr} {s : State} {P : State → α → β → Prop}
    (h : ∃ t v w, exec i s = .next t ∧ P t v w) : Completes i s :=
  h.imp fun _ ⟨_, _, x⟩ => x.1

/-- A newest start, a clamped numbered start, an empty channel; a clip's stop and loop; IDLE with a trailing slot. -/
theorem witness_HeadSourceSetsSourceAndPosition (h : Obligations.HeadSourceSetsSourceAndPosition) :
    Completes (.headSource (record 0 1 0 0 0)) sample ∧ Completes (.headSource (record 3 1 0 2 0xFFFFFFFF)) sample ∧
      Completes (.headSource (record 3 1 2 1 0)) ready2 ∧ Completes (.headSource (record 0 2 0 0 0)) sample ∧
      Completes (.headSource (record 3 2 1 1 0)) sample ∧ Completes (.headSource (record 1 0 0 0 0)) sample :=
  ⟨.of2 ((h sample (record 0 1 0 0 0) 0 sample_awaits rfl rfl).1 0 rfl rfl (by decide) (by decide) (by decide)),
    .of2 ((h sample (record 3 1 0 2 0xFFFFFFFF) 3 sample_awaits rfl rfl).1 0 rfl rfl (by decide) (by decide) (by decide)),
    .of2 ((h ready2 (record 3 1 2 1 0) 3 (waits rfl rfl rfl) rfl rfl).1 2 rfl rfl (by decide) (by decide) (by decide)),
    .of ((h sample (record 0 2 0 0 0) 0 sample_awaits rfl rfl).2.1 0 .stop rfl rfl (by decide) (.inl ⟨rfl, rfl⟩) (by decide)),
    .of ((h sample (record 3 2 1 1 0) 3 sample_awaits rfl rfl).2.1 1 .loop rfl rfl (by decide) (.inr ⟨rfl, rfl⟩) (by decide)),
    .of ((h sample (record 1 0 0 0 0) 1 sample_awaits rfl rfl).2.2 rfl)⟩

theorem witness_HeadRateAndGotoTakeTheHead (h : Obligations.HeadRateAndGotoTakeTheHead) :
    Completes (.headRate (record 0 2049 0 0 0)) sample ∧ Completes (.headGoto (record 0 4294967039 0 0 0)) sample :=
  ⟨.of3 (h sample (record 0 2049 0 0 0) 0 sample_awaits rfl rfl (by decide)).1,
    .of ((h sample (record 0 4294967039 0 0 0) 0 sample_awaits rfl rfl (by decide)).2 (by decide))⟩

theorem witness_HeadCommandsAreRefusedInOrder (h : Obligations.HeadCommandsAreRefusedInOrder) :
    Completes (.headRate (record 4 0 0 0 0)) sample ∧ Completes (.headGoto (record 3 0 0 0 0)) transparent ∧
      Completes (.headSource (record 0 3 0 0 0)) sample ∧ Completes (.headSource (record 0 1 8 0 0)) sample ∧
      Completes (.headSource (record 0 2 255 2 0)) sample ∧ Completes (.headSource (record 0 1 7 2 0)) sample ∧
      Completes (.headSource (record 0 2 255 1 0)) sample ∧ Completes (.headGoto (record 0 4294967040 0 0 0)) sample ∧
      Completes (.headRate (record 1 0 0 0 0)) sample ∧ Completes (.headGoto (record 1 4294967039 0 0 0)) sample := by
  have at0 : ∀ a b c d, _ := fun a b c d => (h sample (record 0 a b c d) sample_awaits).2 0 rfl rfl
  exact ⟨.of (((h sample (record 4 0 0 0 0) sample_awaits).1 _ _ (.inr (.inl ⟨rfl, rfl⟩))).1 (by decide)),
    .of (((h transparent (record 3 0 0 0 0) (waits rfl rfl rfl)).1 _ _ (.inr (.inr ⟨rfl, rfl⟩))).2 (by decide) rfl),
    .of ((at0 3 0 0 0).1 (.inl (by decide))), .of ((at0 1 8 0 0).1 (.inr (.inl ⟨rfl, .inl (by decide)⟩))),
    .of ((at0 2 255 2 0).1 (.inr (.inr ⟨rfl, .inr (by decide)⟩))), .of ((at0 1 7 2 0).2.1 7 rfl rfl (by decide) rfl),
    .of ((at0 2 255 1 0).2.2.1 rfl (by decide) (by decide) rfl), .of ((at0 4294967040 0 0 0).2.2.2.1 (by decide)),
    .of (((h sample (record 1 0 0 0 0) sample_awaits).2 1 rfl rfl).2.2.2.2 rfl).1,
    .of ((((h sample (record 1 4294967039 0 0 0) sample_awaits).2 1 rfl rfl).2.2.2.2 rfl).2 (by decide))⟩

/-- A tick of count 7 waits at a head. -/
def headTickAt (s : State) (h : HeadId) : State :=
  { s with mail := { s.mail with headTicks := pushAt s.mail.headTicks h 7 } }

theorem witness_IdleHeadReleasesItsTrailingPin (h : Obligations.IdleHeadReleasesItsTrailingPin) :
    Completes (.headTick 1 []) (headTickAt sample 1) :=
  .of (h (headTickAt sample 1) 1 7 [] rfl rfl)

/-- The sample with head 0 on its way at a rate, or with a goto pending, and a tick for it. -/
def moving (src : Src) (e : EndMode) (pos : Nat) (rate target : Int) (goto : Option Nat) : State :=
  headTickAt (sample.setHead 0 { sample.head 0 with src, endMode := e, pos, rate, target, slew := 32, goto }) 0

theorem moving_noPort (src : Src) (e : EndMode) (pos : Nat) (rate target : Int) (goto : Option Nat) (p : PortId) :
    ((moving src e pos rate target goto).port p).binding ≠ some 0 ∧
      PortNote.portLost 0 ∉ (moving src e pos rate target goto).mail.portNotes.get p := by
  fin_cases p
  · exact ⟨(by decide : (some 1 : Option HeadId) ≠ some 0), fun x => (nomatch x)⟩
  · exact ⟨(by decide : (none : Option HeadId) ≠ some 0), fun x => (nomatch x)⟩

/-- What a head that no port holds takes from the ports. -/
theorem unbound {src : Src} {e : EndMode} {pos : Nat} {rate target : Int} {goto : Option Nat} :
    (moving src e pos rate target goto).portGives 0 { slew := 32 } :=
  .inr ⟨fun p => (moving_noPort src e pos rate target goto p).1, rfl, .inl rfl⟩

/-- A COMMAND-owned head with no goto and no steps. -/
theorem input_advance {h : Head} {phases : Nat} {i : PanelInput} {R cand : Int} (hg : h.goto = none) (ho : h.owner = .command)
    (hi : i.steps = 0) (hc : cand = h.pos + R * phases) (hs : (h.target - h.rate).natAbs ≤ h.slew → R = h.target)
    (hl : h.slew < (h.target - h.rate).natAbs → R = if h.rate < h.target then h.rate + h.slew else h.rate - h.slew) :
    h.afterInput i phases .command h.target R cand := by
  refine ⟨⟨fun x => (nomatch x), ?_⟩, fun g hg' => absurd (hg.symm.trans hg') (by simp), fun _ =>
    ⟨fun _ => rfl, fun x => (nomatch x), fun x => (nomatch x.1), fun _ => ⟨hc, ?_⟩⟩⟩
  · rintro (x | ⟨_, x, _⟩)
    · exact nomatch ho.symm.trans x
    · exact absurd hi x
  · rintro slew x _
    obtain rfl := x rfl
    exact ⟨hs, hl⟩

/-- A COMMAND-owned head with a goto pending and no steps. -/
theorem input_goto {h : Head} {phases : Nat} {i : PanelInput} {cand : Int} {g : Nat} (hg : h.goto = some g)
    (ho : h.owner = .command) (hi : i.steps = 0) (hc : cand = (g : Int) * 256) :
    h.afterInput i phases .command 0 0 cand := by
  refine ⟨⟨fun x => (nomatch x), ?_⟩, fun y hy => ⟨rfl, rfl, ?_⟩, fun x => absurd (hg.symm.trans x) (by simp)⟩
  · rintro (x | ⟨_, x, _⟩)
    · exact nomatch ho.symm.trans x
    · exact absurd hi x
  · obtain rfl : g = y := Option.some.inj (hg.symm.trans hy)
    exact hc

/-- With no steps there is no jog takeover. -/
theorem no_takeover {s : State} {h : HeadId} {i : PanelInput} {n : Word} (hi : i.steps = 0) : s.afterTakeover h i n s.evt :=
  ⟨fun x => absurd hi x.2.1, fun _ => rfl⟩

/-- Head 0 LIVE at frame 0 on port 1, with an owner, a lever value and steps; the lever is OUTSIDE or at rest. -/
def paneled (owner : Owner) (lever : Nat) (outside : Bool) (jog : Int) (unit : Bool) : State :=
  (headTickAt (sample.setHead 0 { sample.head 0 with owner }) 0).setPort 1
    { binding := some 0, lever, outside, jog, outputUnit := unit, centre := 480 }

/-- What that port gives. -/
def panelGives (target : Int) (atRest : Bool) (steps : Int) (unit : Bool) : PanelInput :=
  { port := 1, steps, atRest, target, slew := 32, outputUnit := unit }

/-- Only port 1 is bound to head 0. -/
theorem paneled_only (owner : Owner) (lever : Nat) (outside : Bool) (jog : Int) (unit : Bool) (q : PortId) (hq : q ≠ 1) :
    ((paneled owner lever outside jog unit).port q).binding ≠ some 0 := by
  fin_cases q
  · exact (by decide : (some 1 : Option HeadId) ≠ some 0)
  · exact absurd rfl hq

theorem at_rest (owner : Owner) (jog : Int) (unit : Bool) :
    (paneled owner 480 false jog unit).portGives 0 (panelGives 0 true jog unit) := by
  refine .inl ⟨1, rfl, paneled_only _ _ _ _ _, ⟨rfl, rfl, rfl, ⟨fun _ => .inr rfl, fun _ => rfl⟩, fun _ => rfl, ?_⟩, rfl⟩
  intro δ mag m _ ho
  exact nomatch ho

/-- The lever at 1023 with centre 480 and dead zone 24 is past the last knot; at 552 it lies half way between knots 1 and 2. -/
theorem lever_out (lever : Nat) (target : Int)
    (hl : lever = 1023 ∧ target = 2048 ∨ lever = 552 ∧ target = 12 ∨ lever = 408 ∧ target = -12) :
    (paneled .panel lever true 0 false).portGives 0 (panelGives target false 0 false) := by
  refine .inl ⟨1, rfl, paneled_only _ _ _ _ _, ⟨rfl, rfl, rfl, ⟨fun x => (nomatch x), ?_⟩, ?_, ?_⟩, rfl⟩
  · rintro (x | x) <;> exact nomatch x
  · rintro (x | x) <;> exact nomatch x
  · rintro δ mag m _ _ rfl rfl h16 hlt
    rcases hl with ⟨rfl, rfl⟩ | ⟨rfl, rfl⟩ | ⟨rfl, rfl⟩
    · obtain rfl := h16 (by decide)
      decide
    · obtain rfl := hlt (by decide)
      decide
    · obtain rfl := hlt (by decide)
      decide

/-- A PANEL-owned head with the lever out: T is the lever's, R moves by the port's slew. -/
theorem input_lever {h : Head} {phases : Nat} {target R cand : Int} (hg : h.goto = none) (ho : h.owner = .panel)
    (hc : cand = h.pos + R * phases) (hs : (target - h.rate).natAbs ≤ 32 → R = target)
    (hl : 32 < (target - h.rate).natAbs → R = if h.rate < target then h.rate + 32 else h.rate - 32) :
    h.afterInput (panelGives target false 0 false) phases .panel target R cand := by
  refine ⟨⟨fun _ => .inl ho, fun _ => rfl⟩, fun g hg' => absurd (hg.symm.trans hg') (by simp), fun _ =>
    ⟨fun x => (nomatch x), fun _ => rfl, fun x => (nomatch x.2.1), fun _ => ⟨hc, ?_⟩⟩⟩
  rintro slew _ x
  obtain rfl := x rfl
  exact ⟨hs, hl⟩

/-- A head at R = 0 with the lever at rest and steps: it is PANEL-owned, by a takeover if it was not, and moves by whole frames. -/
theorem input_jog {h : Head} {phases : Nat} {steps : Int} {unit : Bool} {cand : Int} (hg : h.goto = none) (hr : h.rate = 0)
    (hs : steps ≠ 0) (hc : cand = ((h.pos / 256 : Nat) + steps * (if unit = true then (phases : Int) else 1)) * 256) :
    h.afterInput (panelGives 0 true steps unit) phases .panel 0 0 cand := by
  refine ⟨⟨fun _ => ?_, fun _ => rfl⟩, fun g hg' => absurd (hg.symm.trans hg') (by simp), fun _ =>
    ⟨fun x => (nomatch x), fun _ => rfl, fun _ => ⟨rfl, hc⟩, fun x => absurd ⟨rfl, rfl, hr, hs⟩ x⟩⟩
  cases ho : h.owner
  · exact .inr ⟨ho, hs, rfl, hr⟩
  · exact .inl rfl

/-- A head that runs past the newest frame, one that runs back below the tail, one that reaches frame 2 between them, and gotos to
frame 3, the newest, and to frame 4 above it. -/
theorem witness_LiveHeadAdvancesAndLatchesItsFrame (h : Obligations.LiveHeadAdvancesAndLatchesItsFrame) :
    Completes (.headTick 0 []) (moving (.live 0) .stop 768 100 256 none) ∧
      Completes (.headTick 0 []) (moving (.live 0) .stop 0 (-100) (-256) none) ∧
      Completes (.headTick 0 []) (moving (.live 0) .stop 256 100 128 none) ∧
      Completes (.headTick 0 []) (moving (.live 0) .stop 256 100 128 (some 3)) ∧
      Completes (.headTick 0 []) (moving (.live 0) .stop 256 100 128 (some 4)) := by
  refine ⟨.of ((h (moving (.live 0) .stop 768 100 256 none) 0 0 7 [] _ .command 256 132 1032 _ rfl rfl unbound
      (input_advance rfl rfl rfl (by decide) (by decide) (by decide)) (no_takeover rfl)).2.2 768 256 132 true false
      (some (.headAtLive, .none, 3)) 3 (by decide) ?_ ?_ ?_ ⟨by decide, rfl, rfl, rfl⟩ ⟨?_, ?_⟩),
    .of ((h (moving (.live 0) .stop 0 (-100) (-256) none) 0 0 7 [] _ .command (-256) (-132) (-264) _ rfl rfl unbound
      (input_advance rfl rfl rfl (by decide) (by decide) (by decide)) (no_takeover rfl)).2.2 0 0 0 false true
      (some (.headAtTail, .reverse, 0)) 0 (by decide) ?_ ?_ ?_ ⟨by decide, rfl, rfl, rfl⟩ ⟨?_, ?_⟩),
    .of ((h (moving (.live 0) .stop 256 100 128 none) 0 0 7 [] _ .command 128 128 512 _ rfl rfl unbound
      (input_advance rfl rfl rfl (by decide) (by decide) (by decide)) (no_takeover rfl)).2.2 512 128 128 false false none 2
      (by decide) ?_ ?_ ?_ ⟨by decide, rfl, rfl, rfl⟩ ⟨?_, ?_⟩),
    .of ((h (moving (.live 0) .stop 256 100 128 (some 3)) 0 0 7 [] _ .command 0 0 768 _ rfl rfl unbound
      (input_goto rfl rfl rfl rfl) (no_takeover rfl)).2.2 768 0 0 false false none 3
      (by decide) ?_ ?_ ?_ ⟨by decide, rfl, rfl, rfl⟩ ⟨?_, ?_⟩),
    .of ((h (moving (.live 0) .stop 256 100 128 (some 4)) 0 0 7 [] _ .command 0 0 1024 _ rfl rfl unbound
      (input_goto rfl rfl rfl rfl) (no_takeover rfl)).2.2 768 0 0 true false (some (.headAtLive, .none, 3)) 3
      (by decide) ?_ ?_ ?_ ⟨by decide, rfl, rfl, rfl⟩ ⟨?_, ?_⟩)⟩
  all_goals decide

/-- The same head with its port: the lever past the last knot, between knots on either side, a jog override of two frames and of
one output frame, a jog takeover; and a head on an empty loop. -/
theorem witness_LiveHeadOnAPort (h : Obligations.LiveHeadAdvancesAndLatchesItsFrame) :
    Completes (.headTick 0 []) (paneled .panel 1023 true 0 false) ∧ Completes (.headTick 0 []) (paneled .panel 552 true 0 false) ∧
      Completes (.headTick 0 []) (paneled .panel 408 true 0 false) ∧
      Completes (.headTick 0 []) (paneled .panel 480 false 2 false) ∧
      Completes (.headTick 0 []) (paneled .panel 480 false 1 true) ∧
      Completes (.headTick 0 []) (paneled .command 480 false 3 false) ∧
      Completes (.headTick 0 []) ((moving (.live 0) .stop 768 100 256 none).setChan 0 { sample.chan 0 with tail := 4 }) := by
  refine ⟨.of ((h (paneled .panel 1023 true 0 false) 0 0 7 [] _ .panel 2048 32 64 _ rfl rfl (lever_out _ _ (by decide))
      (input_lever rfl rfl (by decide) (by decide) (by decide)) (no_takeover rfl)).2.2 64 2048 32 false false none 0
      (by decide) ?_ ?_ ?_ ⟨by decide, rfl, rfl, rfl⟩ ⟨?_, ?_⟩),
    .of ((h (paneled .panel 552 true 0 false) 0 0 7 [] _ .panel 12 12 24 _ rfl rfl (lever_out _ _ (by decide))
      (input_lever rfl rfl (by decide) (by decide) (by decide)) (no_takeover rfl)).2.2 24 12 12 false false none 0
      (by decide) ?_ ?_ ?_ ⟨by decide, rfl, rfl, rfl⟩ ⟨?_, ?_⟩),
    .of ((h (paneled .panel 408 true 0 false) 0 0 7 [] _ .panel (-12) (-12) (-24) _ rfl rfl (lever_out _ _ (by decide))
      (input_lever rfl rfl (by decide) (by decide) (by decide)) (no_takeover rfl)).2.2 0 (-12) 0 false true
      (some (.headAtTail, .reverse, 0)) 0 (by decide) ?_ ?_ ?_ ⟨by decide, rfl, rfl, rfl⟩ ⟨?_, ?_⟩),
    .of ((h (paneled .panel 480 false 2 false) 0 0 7 [] _ .panel 0 0 512 _ rfl rfl (at_rest _ _ _)
      (input_jog rfl rfl (by decide) (by decide)) ⟨fun x => (nomatch x.1), fun _ => rfl⟩).2.2 512 0 0 false false none 2
      (by decide) ?_ ?_ ?_ ⟨by decide, rfl, rfl, rfl⟩ ⟨?_, ?_⟩),
    .of ((h (paneled .panel 480 false 1 true) 0 0 7 [] _ .panel 0 0 512 _ rfl rfl (at_rest _ _ _)
      (input_jog rfl rfl (by decide) (by decide)) ⟨fun x => (nomatch x.1), fun _ => rfl⟩).2.2 512 0 0 false false none 2
      (by decide) ?_ ?_ ?_ ⟨by decide, rfl, rfl, rfl⟩ ⟨?_, ?_⟩),
    .of ((h (paneled .command 480 false 3 false) 0 0 7 [] _ .panel 0 0 768 _ rfl rfl (at_rest _ _ _)
      (input_jog rfl rfl (by decide) (by decide)) ⟨fun _ => rfl, fun x => absurd ⟨rfl, by decide, rfl, rfl⟩ x⟩).2.2
      768 0 0 false false none 3 (by decide) ?_ ?_ ?_ ⟨by decide, rfl, rfl, rfl⟩ ⟨?_, ?_⟩),
    .of ((h ((moving (.live 0) .stop 768 100 256 none).setChan 0 { sample.chan 0 with tail := 4 }) 0 0 7 [] _ .command 256 132
      1032 _ rfl rfl unbound (input_advance rfl rfl rfl (by decide) (by decide) (by decide)) (no_takeover rfl)).1 rfl)⟩
  all_goals decide

/-- Head 0 reaches frame 2, in slot 2, which the channel's walk takes next. -/
def overtaken : State :=
  tickAt ((moving (.live 0) .stop 256 100 128 none).setChan 0 { sample.chan 0 with cursor := 0 }) 0

/-- The walk takes frame 2 between the bounds and the lookup: the head ends at the new tail, frame 3. -/
theorem witness_LiveHeadOvertaken (h : Obligations.LiveHeadAdvancesAndLatchesItsFrame) :
    ∃ t, exec (.headTick 0 [.move (.head 0), .event (.channelTick 0)]) overtaken = .next t ∧ (t.head 0).pos = 768 ∧
      (t.head 0).shown = some { src := .live 0, chan := 0, rfn := 3, slot := 3 } := by
  obtain ⟨t, e, hh, _⟩ := (h overtaken 0 0 7 [] { slew := 32 } .command 128 128 512 overtaken.evt rfl rfl
    (.inr ⟨fun p => (moving_noPort (.live 0) .stop 256 100 128 none p).1, rfl, .inl rfl⟩)
    (input_advance rfl rfl rfl (by decide) (by decide) (by decide)) (no_takeover rfl)).2.1 (overtaken.channelTick 0) 2 3 3 128 128
    false (some (.headAtTail, .swept, 3)) (by decide) rfl (by decide) (by decide) (by decide) (by decide) (by decide)
    (by rintro x ⟨_, hx, hs, _⟩
        have hx2 : (⟨true, 2⟩ : IndexEntry) = ⟨true, x⟩ := hx
        obtain rfl : 2 = x := congrArg IndexEntry.slot hx2
        exact absurd hs (by decide))
    (by decide) (by decide) (by decide) (by decide) (by decide) ⟨by decide, rfl, rfl, rfl⟩ ⟨by decide, by decide⟩
  exact ⟨t, e, by rw [hh], by rw [hh]⟩

/-- A head on the OPEN clip 1, frame 3 alone: past its out, below its in. A head on the CLOSED clip 0, frame 0 alone, in STOP mode:
past its end by one, below its start, and on the last place before its end. The same clip in LOOP mode: a wrap past either end, and
a goto past the end. Then a PANEL-owned head on clip 0, its lever out. -/
theorem witness_ClipHeadIsFittedIntoItsClip (h : Obligations.ClipHeadIsFittedIntoItsClip) :
    Completes (.headTick 0 []) (moving (.clip 1) .stop 768 100 256 none) ∧
      Completes (.headTick 0 []) (moving (.clip 1) .stop 768 (-100) (-256) none) ∧
      Completes (.headTick 0 []) (moving (.clip 0) .stop 0 96 256 none) ∧
      Completes (.headTick 0 []) (moving (.clip 0) .stop 0 (-100) (-256) none) ∧
      Completes (.headTick 0 []) (moving (.clip 0) .stop 1 95 256 none) ∧
      Completes (.headTick 0 []) (moving (.clip 0) .loop 0 100 256 none) ∧
      Completes (.headTick 0 []) (moving (.clip 0) .loop 0 (-100) (-256) none) ∧
      Completes (.headTick 0 []) (moving (.clip 0) .loop 0 100 256 (some 1)) ∧
      Completes (.headTick 0 []) ((paneled .panel 552 true 0 false).setHead 0
        { sample.head 0 with owner := .panel, src := .clip 0 }) := by
  refine ⟨.of ((h (moving (.clip 1) .stop 768 100 256 none) 0 1 _ 0 7 [] _ .command 256 132 1032 768 768 768 256 132 _ false false
      none 3 3 rfl rfl unbound rfl rfl ?_ rfl rfl (input_advance rfl rfl rfl (by decide) (by decide) (by decide))
      (no_takeover rfl) ?_ ?_ ?_ ?_).2 ?_ rfl rfl rfl rfl ⟨?_, ?_⟩),
    .of ((h (moving (.clip 1) .stop 768 (-100) (-256) none) 0 1 _ 0 7 [] _ .command (-256) (-132) 504 768 768 768 0 0 _ true false
      (some (.headAtTail, .reverse, 3)) 3 3 rfl rfl unbound rfl rfl ?_ rfl rfl
      (input_advance rfl rfl rfl (by decide) (by decide) (by decide)) (no_takeover rfl) ?_ ?_ ?_ ?_).2 ?_ rfl rfl rfl rfl ⟨?_, ?_⟩),
    .of ((h (moving (.clip 0) .stop 0 96 256 none) 0 0 _ 0 7 [] _ .command 256 128 256 0 0 0 0 0 _ false true
      (some (.headAtEnd, .outEnd, 0)) 0 0 rfl rfl unbound rfl rfl ?_ rfl rfl
      (input_advance rfl rfl rfl (by decide) (by decide) (by decide)) (no_takeover rfl) ?_ ?_ ?_ ?_).2 ?_ rfl rfl rfl rfl ⟨?_, ?_⟩),
    .of ((h (moving (.clip 0) .stop 0 (-100) (-256) none) 0 0 _ 0 7 [] _ .command (-256) (-132) (-264) 0 0 0 0 0 _ false true
      (some (.headAtEnd, .inEnd, 0)) 0 0 rfl rfl unbound rfl rfl ?_ rfl rfl
      (input_advance rfl rfl rfl (by decide) (by decide) (by decide)) (no_takeover rfl) ?_ ?_ ?_ ?_).2 ?_ rfl rfl rfl rfl ⟨?_, ?_⟩),
    .of ((h (moving (.clip 0) .stop 1 95 256 none) 0 0 _ 0 7 [] _ .command 256 127 255 255 0 0 256 127 _ false false none 0 0
      rfl rfl unbound rfl rfl ?_ rfl rfl (input_advance rfl rfl rfl (by decide) (by decide) (by decide)) (no_takeover rfl)
      ?_ ?_ ?_ ?_).2 ?_ rfl rfl rfl rfl ⟨?_, ?_⟩),
    .of ((h (moving (.clip 0) .loop 0 100 256 none) 0 0 _ 0 7 [] _ .command 256 132 264 8 0 0 256 132 _ false false
      (some (.headLooped, .outEnd, 0)) 0 0 rfl rfl unbound rfl rfl ?_ rfl rfl
      (input_advance rfl rfl rfl (by decide) (by decide) (by decide)) (no_takeover rfl) ?_ ?_ ?_ ?_).2 ?_ rfl rfl rfl rfl ⟨?_, ?_⟩),
    .of ((h (moving (.clip 0) .loop 0 (-100) (-256) none) 0 0 _ 0 7 [] _ .command (-256) (-132) (-264) 248 0 0 (-256) (-132) _
      false false (some (.headLooped, .inEnd, 0)) 0 0 rfl rfl unbound rfl rfl ?_ rfl rfl
      (input_advance rfl rfl rfl (by decide) (by decide) (by decide)) (no_takeover rfl) ?_ ?_ ?_ ?_).2 ?_ rfl rfl rfl rfl ⟨?_, ?_⟩),
    .of ((h (moving (.clip 0) .loop 0 100 256 (some 1)) 0 0 _ 0 7 [] _ .command 0 0 256 0 0 0 0 0 _ false false none 0 0
      rfl rfl unbound rfl rfl ?_ rfl rfl (input_goto rfl rfl rfl rfl) (no_takeover rfl) ?_ ?_ ?_ ?_).2 ?_ rfl rfl rfl rfl ⟨?_, ?_⟩),
    .of ((h ((paneled .panel 552 true 0 false).setHead 0 { sample.head 0 with owner := .panel, src := .clip 0 }) 0 0 _ 0 7 []
      (panelGives 12 false 0 false) .panel 12 12 24 24 0 0 12 12 _ false false none 0 0 rfl rfl
      (lever_out 552 12 (by decide)) rfl rfl ?_ rfl rfl (input_lever rfl rfl (by decide) (by decide) (by decide))
      (no_takeover rfl) ?_ ?_ ?_ ?_).2 ?_ rfl rfl rfl rfl ⟨?_, ?_⟩)⟩
  all_goals first
    | decide
    | exact fun a => absurd a (by decide)
    | exact fun _ b => absurd b (by decide)
    | (intro _; and_intros <;> decide)
    | (intro _ _; and_intros <;> decide)

/-- Head 0 reaches frame 3, in slot 3, on the OPEN clip 1, frames 2 and 3; the channel's walk comes to slot 3 next. -/
def trimmed : State :=
  tickAt { (moving (.clip 1) .stop 768 0 0 none).setChan 0 { sample.chan 0 with cursor := 3 } with
    slots := [(0, { state := .held, rfn := 0, locks := 1, pins := 1 }), (1, { state := .held, rfn := 1, locks := 0, pins := 1 }),
      (2, { state := .held, rfn := 2, locks := 1 }), (3, { state := .held, rfn := 3, locks := 1 }),
      (4, { state := .recording, rfn := 4 }), (5, { state := .recording, rfn := 5 })]
    clips := [(1, { state := .opened, chan := 0, inF := 2, outF := 3, extents := [{ rfn := 2, pos := 2, len := 2 }] })] } 0

/-- The same after a CLIP_CLOSE at frame 2. -/
def trimmedClosed : State := takeRow (execClipClose (record 1 2 0 0 0) []) trimmed

/-- CLIP_CLOSE at frame 2 between the bounds and the lookup, and then a tick of the channel: the head ends at the new out. -/
theorem witness_ClipHeadTrimmed (h : Obligations.ClipHeadIsFittedIntoItsClip) :
    ∃ t, exec (.headTick 0 ([.move (.head 0), .event (.command 0x0E (record 1 2 0 0 0))] ++
        List.replicate 4 (.move .processor) ++ [.event (.channelTick 0)])) trimmed = .next t ∧ (t.head 0).pos = 512 := by
  obtain ⟨t, e, hh, _⟩ := (h trimmed 0 1 _ 0 7 [] { slew := 32 } .command 0 0 768 768 512 768 0 0 trimmed.evt false false none 3 3 rfl rfl
    (.inr ⟨fun p => (moving_noPort (.clip 1) .stop 768 0 0 none p).1, rfl, .inl rfl⟩) rfl rfl (by decide) rfl rfl
    (input_advance rfl rfl rfl (by decide) (by decide) (by decide)) (no_takeover rfl) (by decide) (by decide) (by decide) (by decide)).1
    (record 1 2 0 0 0) trimmedClosed (trimmedClosed.channelTick 0) 2 2 2 (some (.headAtEnd, .outEnd, 2)) (waits rfl rfl rfl) rfl (by decide) rfl rfl rfl rfl rfl (by decide)
    (by decide) (by decide) (by decide) (by decide) rfl rfl rfl ⟨by decide, by decide⟩ (by decide)
  exact ⟨t, e, by rw [hh]⟩

/-- A port notice waits at port 0. -/
def noticed (s : State) (n : PortNote) : State :=
  { s with mail := { s.mail with portNotes := pushAt s.mail.portNotes 0 n } }

/-- A clip notice waits at a head. -/
def headNoticed (h : HeadId) (n : HeadNote) : State :=
  { sample with mail := { sample.mail with toHead := pushAt sample.mail.toHead h n } }

theorem witness_NoticesReachTheHeadsAndTheClips (h : Obligations.NoticesReachTheHeadsAndTheClips) :
    Completes (.takeoverNotice 0) (noticed sample (.takeover 0)) ∧
      Completes (.portLostNotice 0) (noticed sample (.portLost 3)) ∧
      Completes (.attachNotice 3) (headNoticed 3 (.attach 255 (.live 0))) ∧
      Completes (.headDetachNotice 0) (headNoticed 0 (.detach 1)) ∧
      Completes (.clipDetachNotice 0)
        { sample with mail := { sample.mail with fromHead := pushAt sample.mail.fromHead 0 1 } } :=
  ⟨.of ((h.1 _ 0 0 []).1 rfl), .of ((h.1 _ 0 3 []).2 rfl), .of ((h.2 _ 3 255).1 (.live 0) [] rfl),
    .of ((h.2 _ 0 1).2.1 [] rfl), .of ((h.2 _ 0 1).2.2 [] rfl)⟩

/-! ### Clips and marks -/

/-- From the newest frame, and from a frame that is not there; on a CLIP source, clip 0's one frame. -/
theorem witness_BackwardBuildLocksTheRunItsExtentsCover (h : Obligations.BackwardBuildLocksTheRunItsExtentsCover) :
    (∃ u es, (build { chan := 0, lo := 0, hi := 3, sub := none } 4 3 []).run sample = some (u, es) ∧ es.length ≤ 16) ∧
      (∃ u es, (build { chan := 0, lo := 0, hi := 3, sub := none } 4 4 []).run sample = some (u, es) ∧ es.length ≤ 16) ∧
      ∃ u es, (build { chan := 0, lo := 0, hi := 0, sub := some (sample.clip 0).extents } 1 0 []).run sample = some (u, es) ∧
        es.length ≤ 16 := by
  have live : ∀ start, 3 ≤ start → ∀ u es,
      (build { chan := 0, lo := 0, hi := 3, sub := none } 4 start []).run sample = some (u, es) → es.length ≤ 16 := by
    intro start hs u es e
    obtain ⟨_, _, l, _⟩ := h.1 sample u 0 4 0 3 start es sample_geometryOk (sample_entriesInLoop 0) (by decide) (by omega) e
    exact l
  refine ⟨⟨_, _, rfl, live 3 (by decide) _ _ rfl⟩, ⟨_, _, rfl, live 4 (by decide) _ _ rfl⟩, _, _, rfl,
    (h.2 sample _ 0 1 0 0 0 0 0 (sample.clip 0).extents _ sample_geometryOk (by decide) (by decide) (by decide)
      ⟨rfl, by decide, by decide, rfl⟩ (by decide) (by decide) ?_ rfl).1⟩
  intro r _ hr
  obtain rfl : r = 0 := Nat.le_zero.mp hr
  exact ⟨0, rfl, rfl, rfl, by decide, by decide⟩

/-- Head 0 shows the newest frame of channel 0, frame 3. -/
def atNewest (attached : Option Nat) : State :=
  sample.setHead 0 { sample.head 0 with
    attached, pos := 768, shown := some { src := .live 0, chan := 0, rfn := 3, slot := 3 } }

theorem none_attached {s : State} {h : HeadId} (hn : (s.head h).attached = none) : s.noneAttached h :=
  fun _ hk => absurd (hn.symm.trans hk) (by simp)

theorem sample_lowestFree : sample.lowestFree 2 := by
  refine ⟨by decide, rfl, ?_⟩
  intro j hj
  interval_cases j <;> decide

/-- Head 0 is sourced on the CLOSED clip 0 and shows its one frame. -/
def onClip : State :=
  sample.setHead 0 { sample.head 0 with
    src := .clip 0, attached := none, shown := some { src := .clip 0, chan := 0, rfn := 0, slot := 0 } }

/-- What a mark of head 0 on channel 0 of the sample works within. -/
def liveWindow (lo : Nat) : MarkSource := { chan := 0, lo, hi := 3, sub := none }

/-- What a mark on clip 0 works within. -/
def clipWindow : MarkSource := { chan := 0, lo := 0, hi := 0, sub := some [{ rfn := 0, pos := 0, len := 1 }] }

/-- The sample with no attached clip at head 0, the tail of channel 0 at a frame, and the roll settings. -/
def rolled (tail pre post : Nat) : State :=
  { (sample.setChan 0 { sample.chan 0 with tail }).setHead 0 { sample.head 0 with attached := none } with
    preRoll := pre, postRoll := post }

theorem rolled_window (tail pre post : Nat) (h : tail ≤ 3) :
    (rolled tail pre post).markWindow (.live 0) (liveWindow tail) :=
  ⟨h, .inl ⟨0, rfl, rfl, rfl⟩⟩

theorem onClip_window : onClip.markWindow (.clip 0) clipWindow := ⟨by decide, .inr ⟨0, rfl, by decide, rfl⟩⟩

/-- Builds of one frame on either source; MARK IN over frames 0 to 3, its point kept, moved up by the tail, and left above where
frame 1 is gone; MARK QUICK with its target above the newest frame, at it, and one below; on a CLIP source MARK IN, and MARK QUICK
past the clip's out; and a key. -/
theorem witness_MarkSetupClampsAndMarksMakeClips (h : Obligations.MarkSetupClampsAndMarksMakeClips) :
    Completes (.markSetup (record 0 1023 1024 0 0)) sample ∧
      (∃ u, (build (liveWindow 0) 1 3 []).run sample = some (u, [{ rfn := 3, pos := 3, len := 1 }])) ∧
      (∃ u, (build clipWindow 1 0 []).run sample = some (u, [{ rfn := 0, pos := 0, len := 1 }])) ∧
      Completes (.mark (record 0 0 0 0 0) []) (rolled 0 60 60) ∧ Completes (.mark (record 0 0 0 0 0) []) (rolled 1 60 60) ∧
      Completes (.mark (record 0 0 0 0 0) []) { rolled 0 60 60 with index := sampleIndex.drop 2 } ∧
      Completes (.mark (record 0 2 0 0 0) []) (rolled 0 60 2) ∧ Completes (.mark (record 0 2 0 0 0) []) (rolled 0 0 1) ∧
      Completes (.mark (record 0 2 0 0 0) []) (rolled 0 0 0) ∧ Completes (.mark (record 0 0 0 0 0) []) onClip ∧
      Completes (.mark (record 0 2 0 0 0) []) onClip := by
  have live : ∀ (tail pre post : Nat) (htail : tail ≤ 3) (a : Word), _ := fun tail pre post htail a =>
    h.2.2 (rolled tail pre post) (record 0 a 0 0 0) 0 _ (liveWindow tail) 2 (waits rfl rfl rfl) rfl rfl rfl rfl
      (rolled_window tail pre post htail) sample_lowestFree
  refine ⟨.of3 (h.1 sample (record 0 1023 1024 0 0) sample_awaits),
    (h.2.1 sample (liveWindow 0) 3 3 ⟨fun _ => ⟨by decide, rfl, rfl, rfl⟩, fun _ x => (nomatch x)⟩ (by decide)
      ⟨rfl, rfl, by decide, by decide⟩).imp fun _ x => x.1,
    (h.2.1 sample clipWindow 0 0 ⟨fun x => (nomatch x), ?_⟩ (by decide) ⟨rfl, rfl, by decide, by decide⟩).imp fun _ x => x.1,
    .of ((live 0 60 60 (by decide) 0).1 0 _ _ _ rfl (none_attached rfl) ⟨by decide, by decide, by decide, by decide, by decide⟩ rfl),
    .of ((live 1 60 60 (by decide) 0).1 1 _ _ _ rfl (none_attached rfl) ⟨by decide, by decide, by decide, by decide, by decide⟩ rfl),
    .of ((h.2.2 { rolled 0 60 60 with index := sampleIndex.drop 2 } (record 0 0 0 0 0) 0 _ (liveWindow 0) 2 (waits rfl rfl rfl)
      rfl rfl rfl rfl (rolled_window 0 60 60 (by decide)) sample_lowestFree).1 0 _ _ _ rfl (none_attached rfl)
      ⟨by decide, by decide, by decide, by decide, by decide⟩ rfl),
    .of ((live 0 60 2 (by decide) 2).2.1 0 3 4 2 (-120) _ _ _ _ rfl rfl (by decide) (by decide)
      ⟨by decide, by decide, by decide, by decide, by decide⟩ ⟨by decide, by decide, by decide, by decide, by decide⟩ rfl rfl),
    .of ((live 0 0 1 (by decide) 2).2.1 0 2 2 2 0 _ _ _ _ rfl rfl (by decide) (by decide)
      ⟨by decide, by decide, by decide, by decide, by decide⟩ ⟨by decide, by decide, by decide, by decide, by decide⟩ rfl rfl),
    .of ((live 0 0 0 (by decide) 2).2.1 0 0 0 2 0 _ _ _ _ rfl rfl (by decide) (by decide)
      ⟨by decide, by decide, by decide, by decide, by decide⟩ ⟨by decide, by decide, by decide, by decide, by decide⟩ rfl rfl),
    .of ((h.2.2 onClip (record 0 0 0 0 0) 0 _ clipWindow 2 (waits rfl rfl rfl) rfl rfl rfl rfl onClip_window
      sample_lowestFree).1 0 _ _ _ rfl (none_attached rfl) ⟨by decide, by decide, by decide, by decide, by decide⟩ rfl),
    .of ((h.2.2 onClip (record 0 2 0 0 0) 0 _ clipWindow 2 (waits rfl rfl rfl) rfl rfl rfl rfl onClip_window
      sample_lowestFree).2.1 0 0 120 2 (-120) _ _ _ _ rfl rfl (by decide) (by decide)
      ⟨by decide, by decide, by decide, by decide, by decide⟩ ⟨by decide, by decide, by decide, by decide, by decide⟩ rfl rfl)⟩
  intro es hes
  obtain rfl := Option.some.inj hes
  exact ⟨by decide, rfl, rfl, 0, rfl, rfl⟩

/-- A key mark waits at port 0. -/
def keyMarked (s : State) (h : HeadId) (kind : MarkKind) : State :=
  { s with mail := { s.mail with portMarks := pushAt s.mail.portMarks 0 { head := h, kind } } }

/-- The key's clause: a MARK QUICK that is made. -/
theorem witness_KeyMarksDoAsMarkCommands (h : Obligations.MarkSetupClampsAndMarksMakeClips) :
    Completes (.panelMark 0 []) (keyMarked (rolled 0 0 0) 0 .markQuick) :=
  ⟨_, (h.2.2 (keyMarked (rolled 0 0 0) 0 .markQuick) (record 0 2 0 0 0) 0 _ (liveWindow 0) 2 (waits rfl rfl rfl) rfl rfl rfl rfl
    (rolled_window 0 0 0 (by decide)) sample_lowestFree).2.2 .markQuick 0 [] _ rfl rfl rfl (by
      rintro cur hc
      obtain rfl := Option.some.inj hc
      decide)⟩

/-- Head 0 has detached clip 1, and its detach notice still waits at the clip manager. -/
def leaving : State :=
  { atNewest none with mail := { sample.mail with fromHead := pushAt sample.mail.fromHead 0 1 } }

/-- R59, R115: a MARK OUT before the head's detach notice closes the clip with MARK. -/
theorem test_mark_out_before_the_detach_notice :
    (match exec (.mark (record 0 1 0 0 0) []) leaving with
      | .next t => ((t.clip 1).state, (t.clip 1).reason, (t.clip 1).attached, t.proc.current.map (·.status))
      | _ => (.free, .none, none, none)) = (.closed, .mark, none, some .done) := by decide

/-- MARK OUT by command and by key, and the same before the head's detach notice; REMARK of clip 1 with no head on it, and with head 3 on it. -/
theorem witness_MarkOutClosesTheAttachedClip (h : Obligations.MarkOutClosesTheAttachedClip) :
    Completes (.mark (record 0 1 0 0 0) []) (atNewest (some 1)) ∧
      Completes (.panelMark 0 []) (keyMarked (atNewest (some 1)) 0 .markOut) ∧
      Completes (.mark (record 0 1 0 0 0) []) leaving ∧ Completes (.panelMark 0 []) (keyMarked leaving 0 .markOut) ∧
      Completes (.mark (record 0 0 0 0 0) []) (atNewest (some 1)) ∧
      Completes (.mark (record 0 0 0 0 0) []) ((atNewest (some 1)).setHead 3 { src := .clip 1 }) := by
  have remark : ∀ s : State, s.awaits → s.mem.active = true → (s.head 0).src = .live 0 →
      (s.head 0).shown = some { src := .live 0, chan := 0, rfn := 3, slot := 3 } → (s.head 0).attached = some 1 →
      s.clip 1 = sample.clip 1 → s.mail.toHead.get 0 = [] → Completes (.mark (record 0 0 0 0 0) []) s := by
    intro s hw ha hs hd hk hc hm
    obtain ⟨_, _, _, _, _, _, e⟩ := (h s 0 _ 1 ha (by rw [hs]; decide) hd hs.symm).2.2 hk
      ⟨by rw [hc]; rfl, by rw [hc]; rfl, fun _ => by rw [hm]; simp⟩
      (record 0 0 0 0 0) hw rfl rfl (by rw [hc]; decide) (by rw [hc]; exact ⟨rfl, by decide, by decide, rfl⟩)
    exact ⟨_, e⟩
  have held : ∀ s : State, s.clip 1 = sample.clip 1 → s.mail.toHead.get 0 = [] → s.heldOpen 0 1 := fun s hc hm =>
    ⟨by rw [hc]; rfl, by rw [hc]; rfl, fun _ => by rw [hm]; simp⟩
  have detached : ∀ s : State, (s.head 0).attached = none → s.clip 1 = sample.clip 1 → s.mail.toHead.get 0 = [] →
      s.mail.fromHead.get 0 = [1] → s.outActsOn 0 1 := fun s hn hc hm hf =>
    ⟨held s hc hm, .inr ⟨none_attached hn, [], [], hf, fun _ x => nomatch x⟩⟩
  exact ⟨.of ((h (atNewest (some 1)) 0 _ 1 rfl (by decide) rfl rfl).1 ⟨held _ rfl rfl, .inl rfl⟩ (by decide) (record 0 1 0 0 0)
      (waits rfl rfl rfl) rfl rfl),
    .of ((h (keyMarked (atNewest (some 1)) 0 .markOut) 0 _ 1 rfl (by decide) rfl rfl).2.1 ⟨held _ rfl rfl, .inl rfl⟩
      (by decide) 0 [] rfl),
    .of ((h leaving 0 _ 1 rfl (by decide) rfl rfl).1 (detached _ rfl rfl rfl rfl) (by decide) (record 0 1 0 0 0)
      (waits rfl rfl rfl) rfl rfl),
    .of ((h (keyMarked leaving 0 .markOut) 0 _ 1 rfl (by decide) rfl rfl).2.1 (detached _ rfl rfl rfl rfl) (by decide) 0 [] rfl),
    remark _ (waits rfl rfl rfl) rfl rfl rfl rfl rfl rfl, remark _ (waits rfl rfl rfl) rfl rfl rfl rfl rfl rfl⟩

/-- A state whose clip records are all CLOSED. -/
def fullTable : State := { atNewest none with clips := (List.range 256).map (fun k => (k, { state := .closed })) }

theorem read_map {α : Type} (d x : α) (l : List Nat) (k : Nat) (hk : k ∈ l) : Tbl.read d (l.map (fun k => (k, x))) k = x := by
  induction l with
  | nil => exact absurd hk (by simp)
  | cons e l ih =>
    by_cases he : e = k
    · simp [Tbl.read, he]
    · have : k ∈ l := by simpa [Ne.symm he] using hk
      simp [Tbl.read, ih this]

theorem fullTable_full (k : Nat) (hk : k < 256) : (fullTable.clip k).state ≠ .free := by
  show (Tbl.read ({} : Clip) ((List.range 256).map (fun k => (k, { state := .closed }))) k).state ≠ .free
  rw [read_map _ _ _ k (List.mem_range.mpr hk)]
  exact fun x => nomatch x

/-- The sample with no frame in the index, and with its allowance used up and slot 3 unlocked. -/
def lockless (index : Tbl IndexEntry) (reserve : Nat) : State :=
  { (atNewest none).setChan 0 { sample.chan 0 with reserve } with index, slots := sampleSlots.eraseIdx 3 ++ [(3, { state := .held, rfn := 3 })] }

/-- Head 0's record still names clip 1, which a REMARK has freed and taken again; the new attach notice waits. -/
def retaken : State := headNoticed 0 (.attach 1 (.live 0))

/-- Head 0 shows frame 0, below the in of its attached clip. LOCK_FULL: the newest frame gone, and the allowance used up. -/
theorem witness_RefusedMarksChangeNothing (h : Obligations.RefusedMarksChangeNothing) :
    Completes (.mark (record 4 0 0 0 0) []) sample ∧ Completes (.mark (record 3 3 0 0 0) []) sample ∧
      Completes (.mark (record 0 0 0 0 0) []) transparent ∧ Completes (.mark (record 1 2 0 0 0) []) sample ∧
      Completes (.mark (record 0 1 0 0 0) []) (atNewest none) ∧ Completes (.mark (record 0 1 0 0 0) []) sample ∧
      Completes (.mark (record 0 1 0 0 0) []) retaken ∧ Completes (.mark (record 0 2 0 0 0) []) fullTable ∧ Completes (.panelMark 0 []) (keyMarked sample 1 .markQuick) ∧
      Completes (.mark (record 0 0 0 0 0) []) (lockless [] 12) ∧
      Completes (.mark (record 0 2 0 0 0) []) (lockless sampleIndex 62) := by
  refine ⟨.of (h.1 sample (record 4 0 0 0 0) sample_awaits (.inl (by decide))),
    .of (h.1 sample (record 3 3 0 0 0) sample_awaits (.inr (by decide))),
    .of ((h.2 transparent 0 .markIn .state (.inl ⟨rfl, rfl⟩)).1 (record 0 0 0 0 0) (waits rfl rfl rfl) rfl rfl),
    .of ((h.2 sample 1 .markQuick .noSource (.inr (.inl ⟨rfl, rfl, .inl rfl⟩))).1 (record 1 2 0 0 0) sample_awaits rfl rfl),
    .of ((h.2 (atNewest none) 0 .markOut .noClip (.inr (.inr ⟨rfl, by decide, _, rfl, rfl, .inl ⟨rfl, rfl, none_attached rfl,
      fun _ x => nomatch x⟩⟩))).1 (record 0 1 0 0 0) (waits rfl rfl rfl) rfl rfl),
    .of ((h.2 sample 0 .markOut .order (.inr (.inr ⟨rfl, by decide, _, rfl, rfl,
      .inr (.inl ⟨rfl, rfl, 1, ⟨⟨rfl, rfl, fun _ x => nomatch x⟩, .inl rfl⟩, by decide⟩)⟩))).1 (record 0 1 0 0 0) sample_awaits rfl rfl),
    .of ((h.2 retaken 0 .markOut .noClip (.inr (.inr ⟨rfl, by decide, _, rfl, rfl, .inl ⟨rfl, rfl, fun k hk => by
      obtain rfl : 1 = k := Option.some.inj hk
      exact fun x => x.2.2 (.live 0) (by decide), fun _ x => nomatch x⟩⟩))).1 (record 0 1 0 0 0) (waits rfl rfl rfl) rfl rfl),
    .of ((h.2 fullTable 0 .markQuick .tableFull (.inr (.inr ⟨rfl, by decide, _, rfl, rfl,
      .inr (.inr (.inl ⟨rfl, by decide, fun _ => none_attached rfl, fullTable_full⟩))⟩))).1 (record 0 2 0 0 0) (waits rfl rfl rfl) rfl rfl),
    .of ((h.2 (keyMarked sample 1 .markQuick) 1 .markQuick .noSource (.inr (.inl ⟨rfl, rfl, .inl rfl⟩))).2 0 [] rfl),
    .of ((h.2 (lockless [] 12) 0 .markIn .lockFull (.inr (.inr ⟨rfl, by decide, _, rfl, rfl, .inr (.inr (.inr ⟨rfl, by decide,
      fun _ => none_attached rfl, 2, liveWindow 0, 3, sample_lowestFree, ⟨by decide, .inl ⟨0, rfl, rfl, rfl⟩⟩, fun _ => rfl,
      fun x => (nomatch x), .inl ?_⟩))⟩))).1 (record 0 0 0 0 0) (waits rfl rfl rfl) rfl rfl),
    .of ((h.2 (lockless sampleIndex 62) 0 .markQuick .lockFull (.inr (.inr ⟨rfl, by decide, _, rfl, rfl, .inr (.inr (.inr ⟨rfl,
      by decide, fun x => (nomatch x), 2, liveWindow 0, 3, sample_lowestFree, ⟨by decide, .inl ⟨0, rfl, rfl, rfl⟩⟩,
      fun x => (nomatch x), fun _ => ⟨by decide, by decide, by decide, by decide, by decide⟩,
      .inr ⟨3, ⟨fun _ => ⟨by decide, rfl, rfl, rfl⟩, fun _ x => (nomatch x)⟩, ?_⟩⟩))⟩))).1 (record 0 2 0 0 0)
      (waits rfl rfl rfl) rfl rfl)⟩
  · rintro n ⟨x, _⟩
    exact nomatch (x rfl).2.1
  · rintro ⟨_, _, _, x⟩
    obtain ⟨c, hc, hl⟩ := x rfl
    obtain rfl : c = 0 := (Option.some.inj hc).symm
    exact absurd hl (by decide)

theorem witness_ClipTagSetsTagAndRatingAlone (h : Obligations.ClipTagSetsTagAndRatingAlone) :
    Completes (.clipTag (record 255 0 0 0 0)) sample ∧ Completes (.clipTag (record 0 65536 0 0 0)) sample ∧
      Completes (.clipTag (record 0 65535 4 0 0)) sample :=
  ⟨.of ((h sample (record 255 0 0 0 0) 255 sample_awaits rfl (by decide)).1 rfl),
    .of ((h sample (record 0 65536 0 0 0) 0 sample_awaits rfl (by decide)).2.1 (by decide) (by decide)),
    .of ((h sample (record 0 65535 4 0 0) 0 sample_awaits rfl (by decide)).2.2 (by decide) (by decide))⟩

/-- Head 3 is sourced on clip 0. -/
def inUse : State := sample.setHead 3 { src := .clip 0 }

theorem witness_ClipCloseAndDeleteReleaseTheFrames (h : Obligations.ClipCloseAndDeleteReleaseTheFrames) :
    Completes (.clipQuery (record 256 0 0 0 0)) sample ∧ Completes (.clipClose (record 255 0 0 0 0) []) sample ∧
      Completes (.clipClose (record 0 0 0 0 0) []) sample ∧
      Completes (.clipClose (record 1 0xFFFFFFFF 0 0 0) []) sample ∧ Completes (.clipDelete (record 255 0 0 0 0) []) sample ∧
      Completes (.clipDelete (record 0 0 0 0 0) []) inUse ∧ Completes (.clipDelete (record 0 0 0 0 0) []) sample :=
  ⟨.of (h.1 sample (record 256 0 0 0 0) (.clipQuery (record 256 0 0 0 0)) 0x11 sample_awaits (by decide) (by simp)),
    .of ((h.2.1 sample (record 255 0 0 0 0) 255 sample_awaits rfl (by decide)).1 rfl),
    .of ((h.2.1 sample (record 0 0 0 0 0) 0 sample_awaits rfl (by decide)).2.1 rfl),
    .of2 ((h.2.1 sample (record 1 0xFFFFFFFF 0 0 0) 1 sample_awaits rfl (by decide)).2.2 rfl (by decide)),
    .of ((h.2.2 sample (record 255 0 0 0 0) 255 sample_awaits rfl (by decide)).1 rfl),
    .of ((h.2.2 inUse (record 0 0 0 0 0) 0 (waits rfl rfl rfl) rfl (by decide)).2.1 (by decide) ⟨3, rfl⟩),
    .of ((h.2.2 sample (record 0 0 0 0 0) 0 sample_awaits rfl (by decide)).2.2 (by decide) (by decide))⟩

/-- The sample with frame 4 committed, in slot 4, and a hand-over of channel 0. -/
def handed (x : ChanNote) : State :=
  { sample with
    slots := [(0, { state := .held, rfn := 0, locks := 1, pins := 1 }), (4, { state := .held, rfn := 4 })]
    index := [(0, { valid := true, slot := 0 }), (4, { valid := true, slot := 4 })]
    mail := { sample.mail with chanNotes := pushAt sample.mail.chanNotes 0 x } }

/-- The same with frame 4 gone. -/
def gone (x : ChanNote) : State :=
  { sample with mail := { sample.mail with chanNotes := pushAt sample.mail.chanNotes 0 x } }

/-- The same as `handed`, with another record for clip 1, slots to keep in reserve, and a tick at which the walk begins at slot 4. -/
def growing (x : ChanNote) (reserve : Nat) (c : Clip) : State :=
  ((tickAt (handed x) 0).setChan 0 { sample.chan 0 with reserve, cursor := 4, phaseSlots := [] }).setClip 1 c

/-- No taker; a taker that locks, that is at its quick target, that has sixteen extents, that finds no allowance; a frame gone; one
that the walk takes before the lock; and an arrival of two frames. -/
theorem witness_ArrivalGrowsItsTaker (h : Obligations.ArrivalGrowsItsTaker) :
    Completes (.framesCommittedArrival 0 []) (handed (.arrival 9 1)) ∧
      (∀ c ∈ [sample.clip 1, { sample.clip 1 with quick := some 4 },
          { sample.clip 1 with extents := List.replicate 16 { rfn := 3, pos := 9, len := 1 } }],
        Completes (.framesCommittedArrival 0 []) (growing (.arrival 4 1) 12 c)) ∧
      Completes (.framesCommittedArrival 0 []) (growing (.arrival 4 1) 62 (sample.clip 1)) ∧
      Completes (.framesCommittedArrival 0 []) (gone (.arrival 4 1)) ∧
      Completes (.framesCommittedArrival 0 [.move .clips, .event (.channelTick 0)])
        (growing (.arrival 4 1) 12 (sample.clip 1)) ∧
      (∃ u, exec (.framesCommittedArrival 0 []) (handed (.arrival 4 2)) = exec (.framesCommittedArrival 0 []) u) := by
  refine ⟨⟨_, (h.1 (handed (.arrival 9 1)) _ 0 9 [] rfl rfl).1 (by decide)⟩, ?_,
    .of ((h.1 (growing (.arrival 4 1) 62 (sample.clip 1)) _ 0 4 [] rfl rfl).2.2 4 ⟨by decide, rfl, rfl, rfl⟩ (by decide)
      (by decide)).1,
    .of ((h.1 (gone (.arrival 4 1)) _ 0 4 [] rfl rfl).2.1 ?_),
    .of (((h.1 (growing (.arrival 4 1) 12 (sample.clip 1)) _ 0 4 [] rfl rfl).2.2 4 ⟨by decide, rfl, rfl, rfl⟩ (by decide)
      (by decide)).2 1 [] (by decide) (fun x => absurd x (by decide)) _ rfl (.inl (by decide))), ?_⟩
  · intro c hc
    refine .of ((h.1 (growing (.arrival 4 1) 12 c) _ 0 4 [] rfl rfl).2.2 4 ⟨?_, rfl, rfl, rfl⟩ ?_ ?_).1
    all_goals fin_cases hc <;> decide
  · rintro n ⟨_, x, hs, hr⟩
    have : n = 0 := (congrArg IndexEntry.slot x).symm
    subst this
    exact absurd hr (by decide)
  · obtain ⟨u, _, e⟩ := h.2 (handed (.arrival 4 2))
      { handed (.arrival 4 2) with
        mail := { sample.mail with chanNotes := sample.mail.chanNotes.set 0 [.arrival 4 1, .arrival 5 1] } }
      0 4 1 [] rfl rfl (by intro d hd; fin_cases d <;> first | exact absurd rfl hd | rfl) rfl
    exact ⟨u, e⟩

theorem witness_StopNoticeClosesGrowingClips (h : Obligations.StopNoticeClosesGrowingClips) :
    Completes (.stopNotice 0) (handed (.stopped .rfnLimit)) ∧ Completes (.stopNotice 0) (handed (.stopped .disengage)) :=
  ⟨.of (h (handed (.stopped .rfnLimit)) 0 .rfnLimit [] .rfnLimit _ rfl (fun _ => rfl) (fun x => absurd rfl x) rfl),
    .of (h (handed (.stopped .disengage)) 0 .disengage [] .channelStop _ rfl (fun x => nomatch x) (fun _ => rfl) rfl)⟩

/-! ### Reference timing -/

theorem witness_SyncFilterNeedsTwoMicroseconds (h : Obligations.SyncFilterNeedsTwoMicroseconds) :
    Completes (.syncInEdge true 7) sample ∧ Completes (.syncInEdge false 7) sample ∧
      Completes (.syncInEdge true 8) { sample with ref := { sync := false, qual := some 7 } } ∧
      Completes (.syncInEdge true 9) { sample with ref := { sync := false, qual := some 7 } } :=
  ⟨⟨_, (h sample true 7).1 rfl⟩, .of ((h sample false 7).2 (by decide)), .of ((h _ true 8).2 (by decide)),
    .of ((h _ true 9).2 (by decide))⟩

/-- The sample with a reference record and a pulse at a time. -/
def pulsed (r : Ref) (p : Nat) : State := { sample with ref := { r with pulses := [p] } }

/-- The sample with a reference record whose line is low, 2 us before a time. -/
def falling (r : Ref) (p : Nat) : State := { sample with ref := { r with sync := false, qual := some (p - 2) } }

/-- Each clause at its bounds: a first pulse, 7,999 and 50,001 us, 8,000 and 50,000 us, then T = 8,000 with W = 1,000 and
H = 4,000; each for a pulse that waits and for one that the line's low completes. -/
theorem witness_PulsesAreJudgedByStateAndElapsedTime (h : Obligations.PulsesAreJudgedByStateAndElapsedTime) :
    ∀ f ∈ [pulsed, falling], Completes .syncPulse (f {} 5) ∧
      (∀ p ∈ [7999, 8000, 50000, 50001], Completes .syncPulse (f { measure := some 0 } p)) ∧
      (∀ p ∈ [6999, 7000, 9000],
        Completes .syncPulse (f { state := .locked, period := 8000, lastTick := some 0, timer := some 9000 } p)) ∧
      ∀ p ∈ [3999, 4000],
        Completes .syncPulse (f { state := .flywheel, period := 8000, lastTick := some 0, timer := some 8000 } p) := by
  have one : ∀ f ∈ [pulsed, falling], ∀ (r : Ref) (p : Nat), 2 ≤ p → r.pulses = [] → (∀ d, r.timer = some d → p ≤ d) →
      Completes .syncPulse (f r p) := by
    intro f hf r p hp hr hd
    rcases List.mem_pair.mp hf with rfl | rfl
    · exact .of (h (pulsed r p) p [] _ (.inl ⟨rfl, rfl⟩) hd)
    · exact .of (h (falling r p) p [] none (.inr ⟨p - 2, hr, rfl, by omega, rfl, rfl⟩) hd)
  refine fun f hf => ⟨one f hf _ _ (by decide) rfl (fun _ x => nomatch x), fun p hp => one f hf _ _ ?_ rfl (fun _ x => nomatch x),
    fun p hp => one f hf _ _ ?_ rfl ?_, fun p hp => one f hf _ _ ?_ rfl ?_⟩
  · simp at hp; omega
  · simp at hp; omega
  · rintro d hd
    obtain rfl : 9000 = d := Option.some.inj hd
    simp at hp; omega
  · simp at hp; omega
  · rintro d hd
    obtain rfl : 8000 = d := Option.some.inj hd
    simp at hp; omega

theorem witness_FlywheelTicksAndRestartDropsTheReference (h : Obligations.FlywheelTicksAndRestartDropsTheReference) :
    (∀ st ∈ [RefState.locked, .flywheel],
      Completes .flywheelExpiry (pulsed { state := st, period := 8000, lastTick := some 0, timer := some 9000 } 9000)) ∧
      Completes (.refRestart (record 0 0 0 0 0)) sample := by
  refine ⟨fun st hst => .of (h.1 (pulsed _ 9000) 9000 rfl ?_ ?_), .of (h.2 sample (record 0 0 0 0 0) sample_awaits)⟩
  · rintro rfl
    simp at hst
  · intro p hp
    obtain rfl : 9000 = p := Option.some.inj hp
    exact Nat.le_refl _

/-! ### Memory path -/

/-- The sample with another memory path. -/
def memory (m : MemPath) : State := { sample with mem := m }

def window (w o : Nat) : Addr := BitVec.ofNat 40 (2 ^ 30 + w * 2 ^ 20 + o)

def strayAt (flag : Bool) : State :=
  { sample.setChan 0 { sample.chan 0 with stray := flag } with
    mail := { sample.mail with strays := pushAt sample.mail.strays 0 { phase := 7, offset := 1048575 } } }

/-- The sample with no slot for phase 1 of channel 0. -/
def oneSlot : State := sample.setChan 0 { sample.chan 0 with phaseSlots := [4] }

/-- A held burst; a burst below the region and one at its end; windows 0, 1 and 7 of channel 0, window 1 with no slot listed, a play window read and written, the
windows of channel 1 and the windows past the play windows; the two reports. -/
theorem witness_EngineBurstsAreRoutedAtAcceptance (h : Obligations.EngineBurstsAreRoutedAtAcceptance) :
    Completes (.engineBurst (readBurst 0) false) sample ∧ Completes (.engineBurst (readBurst 0) true) transparent ∧
      Completes (.engineBurst (readBurst (window 0 0 - 32)) true) sample ∧
      Completes (.engineBurst (readBurst (window 128 0)) true) sample ∧
      Completes (.engineBurst (writeBurst (window 0 0) 1 32) true) sample ∧
      Completes (.engineBurst (writeBurst (window 1 1048544) 1 32) true) sample ∧
      Completes (.engineBurst (readBurst (window 64 0)) true) sample ∧
      Completes (.engineBurst (readBurst (window 67 1048544)) true) sample ∧
      Completes (.engineBurst (writeBurst (window 2 0) 1 32) true) sample ∧
      Completes (.engineBurst (readBurst (window 7 0)) true) sample ∧
      Completes (.engineBurst (writeBurst (window 8 0) 1 32) true) sample ∧
      Completes (.engineBurst (writeBurst (window 1 0) 1 32) true) oneSlot ∧
      Completes (.engineBurst (writeBurst (window 64 0) 1 32) true) sample ∧
      Completes (.engineBurst (readBurst (window 68 0)) true) sample ∧
      Completes (.engineBurst (readBurst (window 127 1048544)) true) sample ∧
      Completes (.strayWriteReport 0) (strayAt true) ∧ Completes (.strayWriteReport 0) (strayAt false) := by
  have H : ∀ b : Burst, _ := fun b => (h.1 sample b).2 rfl (by decide) (by cases b.dir <;> exact fun _ x => nomatch x)
  refine ⟨⟨_, (h.1 sample (readBurst 0)).1 false (.inl rfl)⟩,
    ⟨_, ((h.1 transparent (readBurst 0)).2 rfl (by decide) (fun _ x => nomatch x)).1 (.inl rfl)⟩,
    ⟨_, (H _).1 (.inr (.inl (by decide)))⟩, ⟨_, (H _).1 (.inr (.inr (by decide)))⟩,
    ⟨_, ((H _).2 0 0 rfl (by decide) (by decide) (by decide)).1 0 0 4 rfl (by decide) (by decide) (.inl rfl) rfl⟩,
    ⟨_, ((H _).2 1 1048544 rfl (by decide) (by decide) (by decide)).1 0 1 5 rfl (by decide) (by decide) (.inl rfl) rfl⟩,
    ⟨_, ((H _).2 64 0 rfl (by decide) (by decide) (by decide)).2.1 0 rfl rfl⟩,
    ⟨_, ((H _).2 67 1048544 rfl (by decide) (by decide) (by decide)).2.1 3 rfl rfl⟩,
    ⟨_, ((H _).2 2 0 rfl (by decide) (by decide) (by decide)).2.2.1 0 2 rfl (by decide) (by decide) rfl (.inl rfl)⟩,
    ⟨_, ((H _).2 7 0 rfl (by decide) (by decide) (by decide)).2.2.2
      (.inl ⟨0, 7, rfl, by decide, .inr (.inr ⟨by decide, rfl⟩)⟩)⟩,
    ⟨_, ((H _).2 8 0 rfl (by decide) (by decide) (by decide)).2.2.2 (.inl ⟨1, 0, rfl, by decide, .inl (by decide)⟩)⟩,
    ⟨_, (((h.1 oneSlot (writeBurst (window 1 0) 1 32)).2 rfl (by decide) (fun _ x => nomatch x)).2 1 0 rfl (by decide) (by decide)
      (by decide)).2.2.2 (.inl ⟨0, 1, rfl, by decide, .inr (.inl ⟨by decide, rfl⟩)⟩)⟩,
    ⟨_, ((H _).2 64 0 rfl (by decide) (by decide) (by decide)).2.2.2 (.inr (.inl ⟨by decide, by decide, rfl⟩))⟩,
    ⟨_, ((H _).2 68 0 rfl (by decide) (by decide) (by decide)).2.2.2 (.inr (.inr (by decide)))⟩,
    ⟨_, ((H _).2 127 1048544 rfl (by decide) (by decide) (by decide)).2.2.2 (.inr (.inr (by decide)))⟩,
    ⟨_, (h.2 (strayAt true) 0 _ [] rfl).1 rfl⟩, .of ((h.2 (strayAt false) 0 _ [] rfl).2 rfl)⟩

/-- 8.1, R157: the 16-byte record of ring place 255, control block + 0x2FF0, goes in one beat that ends at the 4 KiB boundary, with
the upper 16 byte enables set. -/
theorem test_event_record_beat :
    (let r := OwnReq.write .eventRecord 0x2FF0 (List.replicate 16 0xAB)
     (r.addr, r.beats, r.data)) =
      (0x2FE0, 1, List.replicate 16 { en := false, val := 0 } ++ List.replicate 16 { en := true, val := 0xAB }) := by decide

def pass (no : Nat) (dir : Dir) : PassBurst := { no, dir, addr := 0, beats := 1, data := [] }

def own (q : Requester) (issued : Option Nat) : OwnReq := { req := q, dir := .read, addr := 0, beats := 1, after := 1, issued }

/-- Own writes that end at a 4 KiB boundary and that fill a page; then the arbiter's cases. -/
theorem witness_TheArbiterIssuesByAgeAndFairness (h : Obligations.TheArbiterIssuesByAgeAndFairness) :
    (OwnReq.write .eventRecord 0x2FF0 (List.replicate 16 0xAB)).carries 0x2FF0 (List.replicate 16 0xAB) ∧
      (OwnReq.write .report 0x3000 (List.replicate 4096 0)).carries 0x3000 (List.replicate 4096 0) ∧
    Completes (.storePortIssue 9) sample ∧ Completes (.storePortIssue 9) (memory { passQ := [pass 0 .write] }) ∧
      Completes (.storePortIssue 9) (memory { passQ := [pass 0 .write], ownQ := [own .fetch none] }) ∧
      Completes (.storePortIssue 9) (memory { passQ := [pass 1 .write], ownQ := [own .fetch none], runCounter := 7 }) ∧
      Completes (.storePortIssue 9) (memory { passQ := [pass 0 .read], ownQ := [own .fetch none], runCounter := 8 }) ∧
      Completes (.storePortIssue 9) (memory { ownQ := [own .fetch (some 5), own .curve none] }) ∧
      Completes (.storePortIssue 9) (memory { held := [readBurst 0, readBurst 32] }) ∧
      Completes (.storePortIssue 9) (memory { passQ := List.replicate 33 (pass 0 .write), held := [readBurst 0] }) := by
  have first : ∀ r : OwnReq, ∀ j q, j < 0 → [r][j]? = some q → q.issued ≠ none :=
    fun _ _ _ hj => absurd hj (Nat.not_lt_zero _)
  refine ⟨(h.1 _ _ _ (by decide) (by decide)).2,
    (h.1 _ _ _ (by rw [List.replicate_succ]; exact List.cons_ne_nil _ _) (by rw [List.length_replicate]; decide)).2,
    ⟨_, (((h.2 sample 9).1 rfl).1 (by decide)).1 rfl⟩,
    ⟨_, (((h.2 (memory { passQ := [pass 0 .write] }) 9).1 rfl).1 (fun _ x => nomatch x)).2 _ [] rfl⟩,
    ⟨_, (((h.2 (memory { passQ := [pass 0 .write], ownQ := [own .fetch none] }) 9).1 rfl).2 0 _ rfl rfl (first _)).1 _ [] rfl
      ⟨_, List.mem_singleton_self _, by decide, fun _ => rfl⟩⟩,
    ⟨_, ((((h.2 (memory { passQ := [pass 1 .write], ownQ := [own .fetch none], runCounter := 7 }) 9).1 rfl).2 0 _ rfl rfl
      (first _)).2 (by decide)).1 _ [] rfl (by decide)⟩,
    ⟨_, ((((h.2 (memory { passQ := [pass 0 .read], ownQ := [own .fetch none], runCounter := 8 }) 9).1 rfl).2 0 _ rfl rfl
      (first _)).2 (by decide)).2 (.inr (by decide))⟩,
    ⟨_, ((((h.2 (memory { ownQ := [own .fetch (some 5), own .curve none] }) 9).1 rfl).2 1 _ rfl rfl ?_).2
      (fun _ x => nomatch x)).2 (.inl rfl)⟩, .of ((h.2 (memory { held := [readBurst 0, readBurst 32] }) 9).2 _ _ rfl rfl),
    .of ((h.2 (memory { passQ := List.replicate 33 (pass 0 .write), held := [readBurst 0] }) 9).2 _ _ rfl rfl)⟩
  · intro j q hj hq
    obtain rfl : j = 0 := by omega
    obtain rfl := Option.some.inj hq
    decide

/-- A CMD word that a completed burst carries. -/
def aWord : Watched := { isCmd := true, full := true, value := 9 }

/-- Burst 4 has its completion, and waits for burst 3; burst 5 has none. -/
def behind : State := memory { passOut := [pass 3 .write], engWrites := [{ no := 3, watched := [], result := none },
  { no := 4, watched := [aWord], result := some (.good, []) }, { no := 5, watched := [], result := none }] }

theorem witness_PassCompletionsReturnInOrder (h : Obligations.PassCompletionsReturnInOrder) :
    Completes (.passBurstComplete 0 .good []) (memory
        { passOut := [pass 3 .write], engWrites := [{ no := 3, watched := [], result := none }] }) ∧
      (∃ t, exec (.passBurstComplete 0 .error []) behind = .next t ∧ t.mem.engWrites = [{ no := 5, watched := [], result := none }] ∧
        t.mail.cmdWords = [9]) ∧
      Completes (.passBurstComplete 0 .error []) (memory
        { passOut := [pass 4 .write], engWrites := [{ no := 3, watched := [], result := none },
          { no := 4, watched := [], result := none }] }) ∧
      sample.watchedOf (readBurst 0) = [] ∧ (sample.watchedOf (writeBurst 0 1 32)).map (·.isCmd) = [true, false] ∧
      sample.watchedOf (writeBurst 32 1 32) = [] :=
  ⟨⟨_, (h.1 (memory { passOut := [pass 3 .write], engWrites := [{ no := 3, watched := [], result := none }] }) 0 .good []
      (pass 3 .write) _ [] rfl rfl).1 [] [] [] rfl rfl (fun _ x => nomatch x) (fun _ x => nomatch x) (fun _ x => nomatch x) rfl⟩,
    ⟨_, (h.1 behind 0 .error [] (pass 3 .write) _ _ rfl rfl).1 [({ no := 4, watched := [aWord], result := some (.good, []) }, .good, [])]
      [{ no := 5, watched := [], result := none }] [aWord] rfl rfl (by decide) (by decide) (by rintro x hx; cases hx; rfl) rfl, rfl, rfl⟩,
    ⟨_, (h.1 (memory { passOut := [pass 4 .write], engWrites := [{ no := 3, watched := [], result := none },
      { no := 4, watched := [], result := none }] }) 0 .error [] (pass 4 .write) _ _ rfl rfl).2 (by decide) rfl⟩,
    (h.2 sample (readBurst 0)).1 rfl,
    (congrArg (List.map Watched.isCmd) ((h.2 sample (writeBurst 0 1 32)).2 rfl)).trans (by decide),
    ((h.2 sample (writeBurst 32 1 32)).2 rfl).trans (by decide)⟩

theorem engage_completes (h : Obligations.EngageChecksInOrderAndGoesActive) (s : State) (r : CmdArgs) (hs : s.awaits) :
    Completes (.engage r) s := by
  obtain ⟨no, yes⟩ := h s r r.d.toNat _ _ _ _ _ _ hs rfl rfl rfl rfl Iff.rfl Iff.rfl Iff.rfl
  by_cases a : s.mem.active = true
  · exact .of (no .state (.inl ⟨a, rfl⟩))
  · have a' : s.mem.active = false := by simpa using a
    rcases Classical.em (20 ≤ r.d.toNat ∧ r.d.toNat ≤ 25 ∧ r.a.toNat * 2 ^ 20 % (128 * 2 ^ r.d.toNat) = 0 ∧
        r.b.toNat * 2 ^ 20 % 2 ^ r.d.toNat = 0 ∧ r.a.toNat * 2 ^ 20 + 128 * 2 ^ r.d.toNat ≤ 2 ^ 40 ∧
        r.b.toNat * 2 ^ 20 + 16384 * 2 ^ r.d.toNat ≤ 2 ^ 40 ∧ r.c.toNat * 2 ^ 20 + 2 ^ r.d.toNat ≤ 2 ^ 40) with g | g
    · by_cases p : (r.a.toNat * 2 ^ 20 + 128 * 2 ^ r.d.toNat ≤ (s.control 0).toNat ∨
            (s.control 0).toNat + 65536 ≤ r.a.toNat * 2 ^ 20) ∧
          (r.a.toNat * 2 ^ 20 + 128 * 2 ^ r.d.toNat ≤ r.b.toNat * 2 ^ 20 ∨
            r.b.toNat * 2 ^ 20 + 16384 * 2 ^ r.d.toNat ≤ r.a.toNat * 2 ^ 20) ∧
          (r.c.toNat * 2 ^ 20 + 2 ^ r.d.toNat ≤ r.a.toNat * 2 ^ 20 ∨
            r.a.toNat * 2 ^ 20 + 128 * 2 ^ r.d.toNat ≤ r.c.toNat * 2 ^ 20)
      · by_cases k : s.mem.stride = 0 ∨ (r.d.toNat = s.mem.stride ∧ r.b.toNat * 2 ^ 20 = s.mem.slotBase) ∨
            ∀ c, (s.chan c).state = .off
        · exact .of (yes a' g p k)
        · exact .of (no .state (.inr (.inr (.inr ⟨a', g, p, k, rfl⟩))))
      · exact .of (no .overlap (.inr (.inr (.inl ⟨a', g, p, rfl⟩))))
    · exact .of (no .badArg (.inr (.inl ⟨a', g, rfl⟩)))

/-- Every ENGAGE falls under one clause: four refusals, and the areas of the sample taken again. -/
theorem witness_EngageChecksInOrderAndGoesActive (h : Obligations.EngageChecksInOrderAndGoesActive) :
    Completes (.engage (record 0 128 65536 300 20)) sample ∧ Completes (.engage (record 0 128 65536 300 19)) transparent ∧
      Completes (.engage (record 0 0 65536 300 20)) transparent ∧ Completes (.engage (record 0 128 1024 300 20)) transparent ∧
      Completes (.engage (record 0 128 65536 300 20)) transparent :=
  ⟨engage_completes h _ _ sample_awaits, engage_completes h _ _ (waits rfl rfl rfl), engage_completes h _ _ (waits rfl rfl rfl),
    engage_completes h _ _ (waits rfl rfl rfl), engage_completes h _ _ (waits rfl rfl rfl)⟩

theorem witness_DisengageStopsChannelsAndIdlesHeads (h : Obligations.DisengageStopsChannelsAndIdlesHeads) :
    Completes (.disengage (record 0 0 0 0 0) []) sample ∧
      exec (.disengage (record 0 0 0 0 0) [.event (.channelTick 0)]) sample =
        exec (.disengage (record 0 0 0 0 0) []) (sample.channelTick 0) ∧
      Completes (.disengage (record 0 0 0 0 0) (List.replicate 9 (.move .processor) ++ [.event (.panelMark 0)]))
        (keyMarked sample 0 .markOut) := by
  obtain ⟨t, _, _, ht, _⟩ := (h.2 (keyMarked sample 0 .markOut) (record 0 0 0 0 0) (waits rfl rfl rfl)).2 0 _ [] rfl
  exact ⟨.of (h.1 sample (record 0 0 0 0 0) (fun c => (sample.chan c).busy) sample_awaits (fun c => by
      unfold Channel.busy; cases (sample.chan c).state <;> decide)),
    (h.2 sample (record 0 0 0 0 0) sample_awaits).1 0 _ rfl, ⟨t, ht⟩⟩

/-- The sample with one own request, issued at 5. -/
def owing (q : Requester) : State := { sample with mem := { sample.mem with ownQ := [own q (some 5)] } }

/-- A request not issued, one that ends, one told as its own row's ERROR; a completion, and a fetched record, 1,001 us after the
issue. -/
theorem witness_EndedRequestsAreToldToTheirRequester (h : Obligations.EndedRequestsAreToldToTheirRequester) :
    Completes (.ownRequestTimeout 0 .elapsed) State.reset ∧ Completes (.ownRequestTimeout 0 .error) sample ∧
      exec (.ownRequestTimeout 0 .error) (owing .eventProducer) = exec (.evtProducerWriteComplete .error) (owing .eventProducer) ∧
      exec (.evtProducerWriteComplete .good) { owing .eventProducer with now := 1006 } =
        exec (.ownRequestTimeout 0 .error) { owing .eventProducer with now := 1006 } ∧
      exec (.refRestart (record 0 0 0 0 0)) { sample with now := 1006 } = exec (.ownRequestTimeout 0 .error) { sample with now := 1006 } ∧
      sample.mem.leave 0 = { sample.mem with ownQ := [] } :=
  ⟨⟨_, (h State.reset 0 _ rfl).1 rfl .elapsed⟩, .of (((h sample 0 _ rfl).2.1 5 rfl).2.1 rfl rfl),
    ((h (owing .eventProducer) 0 _ rfl).2.1 5 rfl).2.2.1 rfl _ (by simp [own]),
    ((h { owing .eventProducer with now := 1006 } 0 _ rfl).2.1 5 rfl).2.2.2 ⟨rfl, _, 5, rfl, rfl, by decide⟩ _ []
      (.inl (by simp [own])),
    ((h { sample with now := 1006 } 0 _ rfl).2.1 5 rfl).2.2.2 ⟨rfl, _, 5, rfl, rfl, by decide⟩ _ [] (.inr ⟨rfl, rfl, rfl⟩),
    ((h sample 0 _ rfl).2.2 (by decide)).1 rfl⟩

/-! ### Command ring -/

/-- Both start-up writes issued, then one of them ended. -/
def starting (u : StartUp) : State :=
  { State.reset with startUp := u, mem := { ownQ := [own .startCmd (some 1), own .startEvt (some 2)] } }

theorem witness_StartUpEndsWithResetDone (h : Obligations.StartUpEndsWithResetDone) :
    Completes (.startUpWriteComplete .cmdConsumer .good) (starting {}) ∧
      Completes (.startUpWriteComplete .evtProducer .error) (starting { cmdWait := false, cmdFail := true }) :=
  ⟨⟨_, (h (starting {}) .cmdConsumer .good .startCmd 0 _ (.inl ⟨rfl, rfl, rfl⟩)
      (inTime rfl rfl rfl (by decide))).1 (.inr rfl)⟩,
    .of3 ((h (starting { cmdWait := false, cmdFail := true }) .evtProducer .error .startEvt 1 _ (.inr ⟨rfl, rfl, rfl⟩)
      (inTime rfl rfl rfl (by decide))).2 rfl rfl)⟩

def told (st : ProcState) (cmd evt : List Word) : State :=
  { sample with proc := { state := st, producer := 0 }, mail := { sample.mail with cmdWords := cmd, evtWords := evt } }

theorem witness_IndexWordsAreJudgedAndTaken (h : Obligations.IndexWordsAreJudgedAndTaken) :
    Completes .cmdProducer (told .idle [129] []) ∧ Completes .cmdProducer (told .writing [128] []) ∧
      Completes .cmdProducer (told .halted [0] []) ∧ Completes .cmdProducer (told .idle [128] []) ∧
      Completes .evtConsumer (told .idle [] [0xFFFFFE00]) ∧ Completes .evtConsumer (told .idle [] [0xFFFFFE01]) ∧
      Completes .evtConsumer (told .idle [] [0]) :=
  ⟨⟨_, ((h (told .idle [129] []) 129 []).1 rfl).1 (by decide)⟩,
    ⟨_, (((h (told .writing [128] []) 128 []).1 rfl).2 (by decide)).1 (.inr (.inr rfl))⟩,
    ⟨_, ((((h (told .halted [0] []) 0 []).1 rfl).2 (by decide)).2 (.inr rfl)).1 rfl⟩,
    ⟨_, ((((h (told .idle [128] []) 128 []).1 rfl).2 (by decide)).2 (.inl rfl)).2 (by decide)⟩,
    ⟨_, ((h (told .idle [] [0xFFFFFE00]) 0xFFFFFE00 []).2 rfl).1 (by decide)⟩,
    .of (((h (told .idle [] [0xFFFFFE01]) 0xFFFFFE01 []).2 rfl).2 (by decide)),
    .of (((h (told .idle [] [0]) 0 []).2 rfl).2 (by decide))⟩

/-- The processor in a state, with a record, an own request and an amount pending. -/
def processing (st : ProcState) (q : Requester) (kind : Byte) (target : Half) (producer : Word) : State :=
  { owing q with proc := { state := st, producer, current := some { kind, args := record target 0 0 0 0 } } }

theorem witness_EveryRecordIsWrittenBackAndConsumed (h : Obligations.EveryRecordIsWrittenBackAndConsumed) :
    Completes (.unknownKind 0 (record 0 0 0 0 0)) sample ∧ Completes (.unknownKind 0x17 (record 0 0 0 0 0)) sample ∧
      Completes (.writeBackComplete .error) (processing .writing .writeBack 5 0 1) ∧
      Completes (.cmdConsumerWriteComplete .error) (processing .writing .consumerWrite 5 0 128) ∧
      Completes (.cmdConsumerWriteComplete .good) (processing .writing .consumerWrite 5 0 0) :=
  ⟨.of (h.1 sample (record 0 0 0 0 0) 0 sample_awaits (.inl rfl)),
    .of (h.1 sample (record 0 0 0 0 0) 0x17 sample_awaits (.inr (by decide))),
    ⟨_, (h.2 (processing .writing .writeBack 5 0 1) .error 0 rfl).1 (inTime rfl rfl rfl (by decide))⟩,
    ⟨_, ((h.2 (processing .writing .consumerWrite 5 0 128) .error 0 rfl).2 (inTime rfl rfl rfl (by decide))).1 (by decide) (by decide)⟩,
    ⟨_, ((h.2 (processing .writing .consumerWrite 5 0 0) .good 0 rfl).2 (inTime rfl rfl rfl (by decide))).2 (.inl rfl)⟩⟩

/-! ### Panel ports -/

theorem witness_PanelBindAndTimingSetThePort (h : Obligations.PanelBindAndTimingSetThePort) :
    Completes (.panelBind (record 2 0 0 0 0)) sample ∧ Completes (.panelBind (record 0 4 0 0 0)) sample ∧
      Completes (.panelTiming (record 0 0 1 2 0)) sample ∧ Completes (.panelTiming (record 0 0 1 0x20000 0)) sample ∧
      Completes (.panelBind (record 0 0xFFFFFFFF 0 0 0)) sample ∧ Completes (.panelBind (record 0 1 0 0 0)) sample ∧
      Completes (.panelBind (record 1 1 0 0 0)) sample ∧ Completes (.panelTiming (record 0 256 3 0x10001 65)) sample :=
  ⟨.of ((h sample (record 2 0 0 0 0) sample_awaits).1 (.inl (by decide))),
    .of ((h sample (record 0 4 0 0 0) sample_awaits).1 (.inr ⟨by decide, by decide⟩)),
    .of ((h sample (record 0 0 1 2 0) sample_awaits).2.1 (.inr (.inl (by decide)))),
    .of ((h sample (record 0 0 1 0x20000 0) sample_awaits).2.1 (.inr (.inr (by decide)))),
    .of (((h sample (record 0 0xFFFFFFFF 0 0 0) sample_awaits).2.2 0 1 rfl (by decide)).1 none (.inl ⟨rfl, rfl⟩)),
    .of (((h sample (record 0 1 0 0 0) sample_awaits).2.2 0 1 rfl (by decide)).1 (some 1) (.inr ⟨1, rfl, rfl⟩)),
    .of (((h sample (record 1 1 0 0 0) sample_awaits).2.2 1 0 rfl (by decide)).1 (some 1) (.inr ⟨1, rfl, rfl⟩)),
    .of3 (((h sample (record 0 256 3 0x10001 65) sample_awaits).2.2 0 1 rfl (by decide)).2 (by decide) (by decide))⟩

theorem witness_PanelCurveFetchesAndInstalls (h : Obligations.PanelCurveFetchesAndInstalls) :
    Completes (.panelCurve (record 2 0 0 0 0)) sample ∧ Completes (.panelCurve (record 0 32 0 0 0)) sample ∧
      Completes (.panelCurve (record 1 0xFFFFFFC0 0xFF 0 0)) sample ∧
      Completes (.curveFetchComplete (List.replicate 64 0xFF) .good) (processing .executing .curve 0x13 1 1) ∧
      Completes (.curveFetchComplete (List.replicate 64 0) .error) (processing .executing .curve 0x13 0 1) := by
  refine ⟨.of ((h.1 sample (record 2 0 0 0 0) sample_awaits).2.1 (.inl (by decide))),
    .of ((h.1 sample (record 0 32 0 0 0) sample_awaits).2.1 (.inr (.inl (by decide)))),
    .of ((h.1 sample (record 1 0xFFFFFFC0 0xFF 0 0) sample_awaits).2.2 (by decide) (by decide) (by decide)), ?_,
    .of (h.2 (processing .executing .curve 0x13 0 1) _ 0 0 (List.replicate 64 0) rfl rfl (inTime rfl rfl rfl (by decide)) rfl
      rfl).2⟩
  obtain ⟨t, _, _, _, e, _⟩ :=
    (h.2 (processing .executing .curve 0x13 1 1) _ 0 1 (List.replicate 64 0xFF) rfl rfl (inTime rfl rfl rfl (by decide)) rfl rfl).1
  exact ⟨t, e⟩

/-- Port 0 in the middle of a lever cycle, 0 its start, 1 its active time. -/
def lever (fault : Bool) (restore : Nat) : State :=
  sample.setPort 0 { sample.port 0 with cycle := some { start := 0, active := some 1 }, fault, restore }

/-- An edge to the line's own level; an inactive edge; a first active edge; periods of 199, 200, 10,000 and 10,001 us, unfaulted,
faulted, and faulted at the fourth valid cycle; the no-edge timer. -/
theorem witness_LeverCyclesAreJudged (h : Obligations.LeverCyclesAreJudged) :
    Completes (.levEdge 0 true 25000) sample ∧ Completes (.levEdge 0 false 25000) sample ∧
      Completes (.levEdge 1 false 25000) sample ∧
      (∀ time ∈ [199, 200, 10000, 10001], ∀ fault restore, Completes (.levEdge 0 false time) (lever fault restore)) ∧
      (lever false 0).port 0 ≠ sample.port 0 ∧ Completes (.noEdgeTimerExpiry 0) sample := by
  refine ⟨⟨_, (h sample 0 true 25000 _ rfl).1 rfl⟩, .of ((h sample 0 false 25000 _ rfl).2.1 (by decide) (by decide)),
    .of ((h sample 1 false 25000 _ rfl).2.1 (by decide) (by decide)), ?_, by decide, ?_⟩
  · intro time ht fault restore
    refine .of ((h (lever fault restore) 0 false time _ rfl).2.1 (by cases fault <;> exact Bool.noConfusion) ?_)
    show max 0 time ≤ 0 + 25000
    simp at ht
    omega
  · obtain ⟨t, _, e, _⟩ := (h sample 0 true 0 _ rfl).2.2
    exact ⟨t, e⟩

/-- Port 0 with a jog line and a key in qualification since 5. -/
def qualifying : State :=
  sample.setPort 0 { sample.port 0 with ja := { level := false, qual := some 5 }, kin := { level := false, qual := some 5 } }

/-- Port 0 with F = 0 and Q = 1, so that every quarter is a step. -/
def unfiltered : State :=
  sample.setPort 0 { sample.port 0 with filter := 0, quartersPerStep := 1 }

/-- Changes of one jog line, of both, of neither, with F = 0 and with F = 20, then the keys. -/
theorem witness_JogAndKeyLinesAreQualified (h : Obligations.JogAndKeyLinesAreQualified) :
    Completes (.jogLineChange 0 false true 0) sample ∧ Completes (.jogLineChange 0 true true 24) qualifying ∧
      (∀ ja jb, Completes (.jogLineChange 0 ja jb 5) unfiltered) ∧ Completes (.jogFilterExpiry 0) qualifying ∧ Completes (.keyLineChange 0 .kqk false 0) sample ∧
      Completes (.keyLineChange 0 .kin true 8004) qualifying ∧ Completes (.keyDebounceExpiry 0 .kin) qualifying := by
  have only : ∀ e, (qualifying.port 0).ja.qual = some e ∨ (qualifying.port 0).jb.qual = some e → e = 5 := by
    rintro e (x | x)
    · exact (Option.some.inj x).symm
    · exact nomatch x
  refine ⟨.of ((h.1 sample 0).1 false true 0 _ rfl (by decide) ?_), .of ((h.1 qualifying 0).1 true true 24 _ rfl (by decide) ?_),
    fun ja jb => .of ((h.1 unfiltered 0).2.1 ja jb _ _ 5 _ _ rfl rfl rfl rfl rfl rfl rfl),
    .of ((h.1 qualifying 0).2.2 25 true false _ (by decide) (by decide) (.inl rfl) ?_ rfl),
    .of ((h.2 sample 0 .kqk .markQuick (.inr (.inr ⟨rfl, rfl⟩))).1 false 0 _ rfl ?_),
    .of ((h.2 qualifying 0 .kin .markIn (.inl ⟨rfl, rfl⟩)).1 true 8004 _ rfl ?_),
    .of ((h.2 qualifying 0 .kin .markIn (.inl ⟨rfl, rfl⟩)).2 5 rfl)⟩
  · rintro e (x | x) <;> exact nomatch x
  · intro e x
    obtain rfl := only e x
    decide
  · intro e x
    obtain rfl := only e x
    decide
  · exact fun _ x => nomatch x
  · intro e x
    obtain rfl : 5 = e := Option.some.inj x
    decide

/-! ### Events and reports -/

theorem sample_evt_sound : sample.evt.sound := by unfold EventUnit.sound; decide

/-- Codes 0 and 21, class 3, and the last kind of the three kept ones and the first behind them set to OFF. -/
theorem witness_EventMaskSetsOneClass (h : Obligations.EventMaskSetsOneClass) :
    Completes (.eventMask (record 0 0 0 0 0)) sample ∧ Completes (.eventMask (record 21 0 0 0 0)) sample ∧
      Completes (.eventMask (record 1 3 0 0 0)) sample ∧ Completes (.eventMask (record 3 0 0 0 0)) sample ∧
      Completes (.eventMask (record 4 0 0 0 0)) sample ∧ Completes (.eventMask (record 20 2 0 0 0)) sample :=
  ⟨.of ((h sample (record 0 0 0 0 0) 0 .log .log sample_awaits sample_evt_sound).1 (.inl rfl)),
    .of ((h sample (record 21 0 0 0 0) 0 .log .log sample_awaits sample_evt_sound).1 (.inr (.inl (by decide)))),
    .of ((h sample (record 1 3 0 0 0) 0 .log .log sample_awaits sample_evt_sound).1 (.inr (.inr (by decide)))),
    .of ((h sample (record 3 0 0 0 0) 2 .logInt .log sample_awaits sample_evt_sound).2 rfl (by decide) (by decide) rfl
      (.inl ⟨by decide, rfl, rfl⟩)),
    .of ((h sample (record 4 0 0 0 0) 3 .logInt .off sample_awaits sample_evt_sound).2 rfl (by decide) (by decide) rfl
      (.inr (.inl ⟨by decide, rfl, rfl⟩))),
    .of ((h sample (record 20 2 0 0 0) 19 .log .logInt sample_awaits sample_evt_sound).2 rfl (by decide) (by decide) rfl
      (.inr (.inr (.inr ⟨rfl, rfl⟩))))⟩

def anEvent : Event := { kind := .clipOpened, reason := .quick, obj := 2, aux := 4, value := 3, tick := 9, cls := .logInt }

/-- A staged event, with records in the ring and events counted lost. -/
def staged (producer : Word) (lost : Nat) : State :=
  { sample with evt := { fifo := [anEvent], producer, lost } }

/-- The event unit with a write outstanding. -/
def eventWriting (phase : EventPhase) (q : Requester) : State :=
  { owing q with evt := { fifo := [anEvent], lost := 3, phase, resetDone := some anEvent } }

theorem witness_EventRecordsAreWrittenInOrder (h : Obligations.EventRecordsAreWrittenInOrder) :
    Completes .eventRecordWrite (staged 510 0) ∧ Completes .eventRecordWrite (staged 509 1) ∧
      Completes .eventRecordWrite (staged 510 1) ∧ Completes .eventRecordWrite (staged 511 0) ∧
      (∀ w ∈ [Writing.resetDone, .lost 3 .log, .staged],
        Completes (.eventRecordWriteComplete .good) (eventWriting (.record w) .eventRecord)) ∧
      Completes (.eventRecordWriteComplete .error) (eventWriting (.record .resetDone) .eventRecord) ∧
      Completes (.eventRecordWriteComplete .error) (eventWriting (.record .staged) .eventRecord) ∧
      Completes (.eventRecordWriteComplete .error) (eventWriting (.record (.lost 3 .log)) .eventRecord) ∧
      Completes (.evtProducerWriteComplete .good) (eventWriting .producer .eventProducer) ∧
      Completes (.evtProducerWriteComplete .error) (eventWriting .producer .eventProducer) := by
  refine ⟨⟨_, (h.1 (staged 510 0) anEvent [] 1 rfl rfl rfl rfl rfl).1 (.inl rfl) (by decide)⟩,
    ⟨_, (h.1 (staged 509 1) anEvent [] 2 rfl rfl rfl rfl rfl).2.1 (by decide) rfl (by decide)⟩,
    ⟨_, (h.1 (staged 510 1) anEvent [] 1 rfl rfl rfl rfl rfl).2.2 (.inl ⟨by decide, rfl, by decide⟩)⟩,
    ⟨_, (h.1 (staged 511 0) anEvent [] 0 rfl rfl rfl rfl rfl).2.2 (.inr ⟨.inl rfl, rfl⟩)⟩,
    fun w _ => .of ((h.2 (eventWriting (.record w) .eventRecord) 0).1 w rfl (inTime rfl rfl rfl (Nat.zero_le _))).1,
    ⟨_, ((h.2 (eventWriting (.record .resetDone) .eventRecord) 0).1 .resetDone rfl (inTime rfl rfl rfl (by decide))).2.2.2 anEvent
      rfl rfl⟩,
    ⟨_, ((h.2 (eventWriting (.record .staged) .eventRecord) 0).1 .staged rfl (inTime rfl rfl rfl (by decide))).2.1 rfl⟩,
    ⟨_, ((h.2 (eventWriting (.record (.lost 3 .log)) .eventRecord) 0).1 _ rfl (inTime rfl rfl rfl (by decide))).2.2.1 3 .log rfl⟩,
    ⟨_, ((h.2 (eventWriting .producer .eventProducer) 0).2 rfl (inTime rfl rfl rfl (by decide))).1⟩, ?_⟩
  obtain ⟨_, e, _⟩ := ((h.2 (eventWriting .producer .eventProducer) 0).2 rfl (inTime rfl rfl rfl (by decide))).2
  exact ⟨_, e⟩

theorem witness_ReportsAreWrittenAndAnswered (h : Obligations.ReportsAreWrittenAndAnswered) :
    Completes (.statusSnapshot (record 0 32 0 0 0) [] []) sample ∧
      Completes (.statusSnapshot (record 0 0xFFFFFE40 0xFF 0 0) [] []) sample ∧
      Completes (.statusSnapshot (record 0 0xFFFFFE00 0xFF 0 0) [] []) sample ∧
      Completes (.statusSnapshot (record 0 0xFFFFFE00 0xFF 0 0) [.channel 0] [.move .processor, .event (.channelTick 0)])
        (tickAt sample 0) ∧
      Completes (.clipQuery (record 256 0 0 0 0)) sample ∧ Completes (.clipQuery (record 255 0 0 0 0)) sample ∧
      Completes (.clipQuery (record 1 0xFFFFFF40 0xFF 0 0)) sample ∧
      Completes (.reportWriteComplete .error) (processing .executing .report 0x11 1 1) := by
  refine ⟨.of ((h.1 sample (record 0 32 0 0 0) sample_awaits).1 (.inl (by decide))),
    .of ((h.1 sample (record 0 0xFFFFFE40 0xFF 0 0) sample_awaits).1 (.inr (by decide))),
    .of ((h.1 sample (record 0 0xFFFFFE00 0xFF 0 0) sample_awaits).2.1 (by decide) (by decide)), ?_,
    .of ((h.1 sample (record 256 0 0 0 0) sample_awaits).2.2.2.1 .badArg (.inl ⟨.inl (by decide), rfl⟩)),
    .of ((h.1 sample (record 255 0 0 0 0) sample_awaits).2.2.2.1 .noClip
      (.inr ⟨⟨by decide, by decide, by decide, rfl⟩, rfl⟩)),
    .of ((h.1 sample (record 1 0xFFFFFF40 0xFF 0 0) sample_awaits).2.2.2.2 1 rfl (by decide) (by decide) (by decide) (by decide)
      (by decide)), .of2 (h.2 (processing .executing .report 0x11 1 1) _ 0 .error rfl rfl
      (inTime rfl rfl rfl (by decide)))⟩
  obtain ⟨u, _, hu, f⟩ := (h.1 (tickAt sample 0) (record 0 0xFFFFFE00 0xFF 0 0) (waits rfl rfl rfl)).2.2.1 [.channel 0]
    (.channelTick 0) (by decide) (by decide)
  exact ⟨_, (f (u.channelTick 0) _ rfl (fun _ => rfl)).2⟩

/-! ### Events of other blocks inside a row -/

/-- R55, 3.13: a walk takes frame 2 between the head's lookup and its pin; the pick is repeated at the new tail, frame 3. -/
theorem test_pick_repeats_after_the_lookup :
    (match exec (.headTick 0 [.move (.head 0), .move (.head 0), .move (.head 0), .event (.channelTick 0)])
        (tickAt ((moving (.live 0) .stop 0 0 0 (some 2)).setChan 0 { sample.chan 0 with cursor := 2 }) 0) with
      | .next t => ((t.head 0).shown.map (·.rfn), (t.head 0).pos, (t.head 0).atTail, (t.chan 0).tail)
      | _ => (none, 0, false, 0)) = (some 3, 768, true, 3) := by decide

/-- R56, R115: a CLIP_CLOSE after the head has read its clip leaves this tick's frame as it was. -/
theorem test_trim_inside_a_tick_shows_next_tick :
    (match exec (.headTick 0 ([.move (.head 0), .event (.command 0x0E (record 1 2 0 0 0))] ++
        List.replicate 4 (.move .processor))) trimmed with
      | .next t => ((t.head 0).shown.map (·.rfn), (t.clip 1).outF, (t.slot 3).locks, (t.slot 3).pins)
      | _ => (none, 0, 9, 9)) = (some 3, 2, 0, 1) := by decide

/-- R44: heads 0, 2 and 3 go LIVE to frame 2. All three read their bounds before one channel tick, which takes the frame, and look
it up after it: all three end at the new tail. -/
theorem test_three_heads_around_one_channel_tick :
    (match exec (.headTick 0 [.move (.head 0), .event (.headTick 2), .move (.head 2), .event (.headTick 3), .move (.head 3),
          .event (.channelTick 0)])
        (((tickAt ((moving (.live 0) .stop 0 0 0 (some 2)).setChan 0 { sample.chan 0 with cursor := 2 }) 0)
          |> fun s => headTickAt (headTickAt s 2) 3)
          |>.setHead 2 { src := .live 0, pos := 512 } |>.setHead 3 { src := .live 0, pos := 512 }) with
      | .next t => (([0, 2, 3] : List HeadId).map fun h => ((t.head h).shown.map (·.rfn), (t.head h).atTail), (t.slot 3).pins)
      | _ => ([], 0)) = ([(some 3, true), (some 3, true), (some 3, true)], 3) := by decide

/-- R44, R146: a burst of the engine at a play window, taken inside the head's tick, reads the frame the head still displays. -/
theorem test_burst_inside_a_tick_reads_the_old_frame :
    (match exec (.headTick 0 [.move (.head 0), .move (.head 0), .event (.engineBurst (readBurst (window 64 0)) true)])
        (moving (.live 0) .stop 0 0 0 (some 2)) with
      | .next t => ((t.head 0).shown.map (·.slot), t.mem.passQ.map (·.addr))
      | _ => (none, [])) = (some 2, [BitVec.ofNat 40 (2 ^ 36)]) := by decide

/-- Channel 0 is READY with frames 0 to 3; head 0 shows frame 3, a tick of it and a MARK IN of it at port 0 wait, and two records
wait in the ring. -/
def clearing : State :=
  keyMarked (headTickAt
    { sample with
      slots := [(0, { state := .held, rfn := 0 }), (1, { state := .held, rfn := 1 }), (2, { state := .held, rfn := 2 }),
                (3, { state := .held, rfn := 3, pins := 1 })]
      chans := #v[{ sample.chan 0 with state := .ready, locked := 0, phaseSlots := [] }, {}, {}, {}, {}, {}, {}, {}]
      heads := #v[{ (atNewest none).head 0 with attached := none }, {}, {}, {}]
      clips := []
      proc := { sample.proc with producer := 2 } } 0) 0 .markIn

set_option maxRecDepth 4000 in
/-- R5, R8, R28: while a key mark is being made, its head leaves the channel, and CHANNEL_CLEAR passes its check. The mark then
locks frame 3; the clear empties the slots of frames 0 to 2 and is DECLINED at slot 3, which stays HELD for the new clip. -/
theorem test_clear_declined_by_a_mark_in_the_making :
    (match exec (.panelMark 0 ([.event (.command 0x09 (record 0 0 0 0 0)), .event (.headTick 0), .event (.storePortIssue 6),
          .event (.writeBackComplete .good), .event (.storePortIssue 7), .event (.cmdConsumerWriteComplete .good),
          .event (.storePortIssue 8), .event (.command 0x08 (record 0 0 0 0 0)), .move .processor] ++
          List.replicate 3 (.move .clips) ++ List.replicate 3 (.move .processor))) clearing with
      | .next t => (([0, 1, 2, 3] : List Nat).map fun n => ((t.slot n).state, (t.slot n).locks), (t.clip 0).outF,
          (t.chan 0).nextRfn, t.proc.current.map fun x => x.status)
      | _ => ([], 0, 9, none)) =
      ([(.empty, 0), (.empty, 0), (.empty, 0), (.held, 1)], 3, 0, some .done) := by decide

/-- R151, R94: a key mark between the parts of DISENGAGE is refused STATE and carries the frame the head still shows, 3. -/
theorem test_mark_inside_disengage :
    (match exec (.disengage (record 0 0 0 0 0) (List.replicate 9 (.move .processor) ++ [.event (.panelMark 0)]))
        (keyMarked (atNewest none) 0 .markIn) with
      | .next t => (t.evt.fifo.getLast?).map (fun x => (x.kind, x.reason, x.obj, x.value))
      | _ => none) = some (.markRefused, .state, 0, 3) := by decide

/-- R160: a completion 1,000 us after the issue is acted on; 1,001 us after it the write-back has timed out. -/
theorem test_late_completion :
    [1005, 1006].map (fun now =>
      match exec (.writeBackComplete .good) { processing .writing .writeBack 5 0 1 with now } with
      | .next t => t.evt.fifo.length
      | _ => 9) = [0, 1] := by decide

/-! ### Record formats -/

theorem witness_CommandRecordsReadBackAsWritten :
    (Instr.unknownKind 0xFF (record 0xFFFF 1 2 3 0xFFFFFFFF)).wf = true ∧
      recordOf (.unknownKind 0xFF (record 0xFFFF 1 2 3 0xFFFFFFFF)) = some (0xFF, record 0xFFFF 1 2 3 0xFFFFFFFF) ∧
      (Instr.mark (record 0 2 0 0 0) []).wf = true ∧ recordOf (.mark (record 0 2 0 0 0) []) = some (0x0C, record 0 2 0 0 0) := by
  decide

end Sys2Proof.Tests
end

section
/-! PROOFS. The slot operations on a slot whose record is known, and how two of them on one slot meet (R5 to R18). -/

namespace Sys2Proof.Machine

/-- A slot record is told by its four fields. -/
theorem Slot.eq_mk {x : Slot} {st : SlotState} {r l p : Nat} (hs : x.state = st) (hr : x.rfn = r) (hl : x.locks = l)
    (hp : x.pins = p) : x = ⟨st, r, l, p⟩ := by
  subst hs hr hl hp
  rfl

theorem State.setSlot_slot_self (s : State) (n : Nat) (x : Slot) : (s.setSlot n x).slot n = x := by simp

/-! ## What the owner and the allowance depend on -/

/-- The owner of a slot is read from the loop geometry alone (R2). -/
theorem State.ownerOf_congr {s t : State} {n : Nat} (h : ∀ c, (t.chan c).owns n = (s.chan c).owns n) :
    t.ownerOf n = s.ownerOf n := by
  simp only [State.ownerOf, h]

@[simp] theorem State.setSlot_ownerOf (s : State) (n m : Nat) (x : Slot) : (s.setSlot n x).ownerOf m = s.ownerOf m := rfl

@[simp] theorem State.setSlot_hasAllowance (s : State) (n m : Nat) (x : Slot) :
    (s.setSlot n x).hasAllowance m = s.hasAllowance m := rfl

@[simp] theorem State.setEntry_hasAllowance (s : State) (i m : Nat) (x : IndexEntry) :
    (s.setEntry i x).hasAllowance m = s.hasAllowance m := rfl

@[simp] theorem State.countLocked_slot (s : State) (n m : Nat) (f : Nat → Nat) :
    (s.countLocked n f).slot m = s.slot m := by
  rw [State.countLocked_frame]
  rfl

@[simp] theorem State.countLocked_ownerOf (s : State) (n m : Nat) (f : Nat → Nat) :
    (s.countLocked n f).ownerOf m = s.ownerOf m := by
  unfold State.countLocked
  split
  · rfl
  · rename_i c _
    refine State.ownerOf_congr fun d => ?_
    by_cases hd : d = c
    · subst hd
      simp [Channel.owns]
    · simp [hd]

@[simp] theorem State.lock_ownerOf (s : State) (n r m : Nat) : (s.lock n r).1.ownerOf m = s.ownerOf m := by
  rcases s.lock_cases n r with ⟨_, _, _, _, h⟩ | ⟨_, _, _, _, h⟩ | ⟨_, h⟩ <;> simp [h]

@[simp] theorem State.unlock_ownerOf (s : State) (n m : Nat) : (s.unlock n).1.ownerOf m = s.ownerOf m := by
  rcases s.unlock_cases n with ⟨_, h⟩ | ⟨_, h⟩ | ⟨_, h⟩ <;> simp [h]

@[simp] theorem State.unpin_ownerOf (s : State) (n m : Nat) : (s.unpin n).1.ownerOf m = s.ownerOf m := by
  rw [State.unpin_frame]
  rfl

/-! ## Each operation on a slot whose record is known

`⟨.held, r, l, p⟩` is the record of a HELD slot with frame `r`, lock count `l` and pin count `p`. -/

section
variable {s : State} {n r q l p : Nat}

theorem State.take_free (h : s.slot n = ⟨.held, r, 0, 0⟩) (ho : s.ownerOf n ≠ none) :
    s.take n q = (s.setSlot n ⟨.recording, q, 0, 0⟩, .done (some r)) := by
  simp [State.take, h, ho]

theorem State.take_locked (h : s.slot n = ⟨.held, r, l + 1, p⟩) (ho : s.ownerOf n ≠ none) :
    s.take n q = (s, .declined .locked) := by
  simp [State.take, h, ho]

theorem State.take_pinned (h : s.slot n = ⟨.held, r, 0, p + 1⟩) (ho : s.ownerOf n ≠ none) :
    s.take n q = (s, .declined .pinned) := by
  simp [State.take, h, ho]

/-- A commit makes the slot HELD, and the owner's entry of its frame names it (R7). -/
theorem State.commit_recording {c : ChanId} (h : s.slot n = ⟨.recording, r, l, p⟩) (ho : s.ownerOf n = some c) :
    s.commit n = ((s.setEntry ((s.chan c).entryOf r) ⟨true, n⟩).setSlot n ⟨.held, r, l, p⟩, .done none) := by
  simp [State.commit, State.indexCommit, h, ho]

theorem State.empty_free (h : s.slot n = ⟨.held, r, 0, 0⟩) : s.empty n = (s.setSlot n {}, .done none) := by
  simp [State.empty, h]

theorem State.empty_pinned (h : s.slot n = ⟨.held, r, 0, p + 1⟩) : s.empty n = (s, .declined .pinned) := by
  simp [State.empty, h]

theorem State.lock_not_held (h : (s.slot n).state ≠ .held) : s.lock n r = (s, .declined .notHeld) := by
  simp [State.lock, h]

/-- A lock on the frame that the slot holds is DONE below the limit, where the slot is locked or the loop has room (R9). -/
theorem State.lock_held (h : s.slot n = ⟨.held, r, l, p⟩) (ha : 1 ≤ l ∨ s.hasAllowance n = true) (hl : l < 256) :
    (s.lock n r).2 = .done none ∧ (s.lock n r).1.slot n = ⟨.held, r, l + 1, p⟩ := by
  have hm : ¬Config.maxLocks ≤ l := Nat.not_le.mpr hl
  by_cases h0 : l = 0
  · have hroom : s.hasAllowance n = true := ha.resolve_left (by omega)
    simp [State.lock, h, h0, hroom]
  · simp [State.lock, h, h0, hm]

theorem State.unlock_locked (h : 1 ≤ (s.slot n).locks) : (s.unlock n).2 = .done none := by
  rcases s.unlock_cases n with ⟨_, e⟩ | ⟨_, e⟩ | ⟨h0, _⟩
  · rw [e]
  · rw [e]
  · omega

theorem State.pin_not_held (h : (s.slot n).state ≠ .held) : s.pin n r = (s, .declined .notHeld) := by
  simp [State.pin, h]

theorem State.pin_held (h : s.slot n = ⟨.held, r, l, p⟩) (hp : p < 8) :
    s.pin n r = (s.setSlot n ⟨.held, r, l, p + 1⟩, .done none) := by
  have hm : ¬Config.maxPins ≤ p := Nat.not_le.mpr hp
  simp [State.pin, h, hm]

theorem State.unpin_pinned (h : 1 ≤ (s.slot n).pins) :
    s.unpin n = (s.setSlot n { s.slot n with pins := (s.slot n).pins - 1 }, .done none) := by
  rcases s.unpin_cases n with ⟨_, e⟩ | ⟨h0, _⟩
  · exact e
  · omega

theorem State.unpin_at_zero (h : (s.slot n).pins = 0) : s.unpin n = (s, .declined .atZero) := by
  rcases s.unpin_cases n with ⟨hp, _⟩ | ⟨_, e⟩
  · omega
  · exact e

/-- The index lookup finds the frame just where it is present (R15). -/
theorem State.indexLookup_eq_some {c : ChanId} : s.indexLookup c r = some n ↔ s.presentAt c r n := by
  unfold State.indexLookup State.presentAt State.holds Channel.entryOf
  obtain ⟨v, m⟩ := s.entry ((s.chan c).firstSlot + r % (s.chan c).len)
  by_cases hm : m = n
  · subst hm
    simp
  · simp [hm]

/-! ## Two operations on one slot, row by row of the table of R18 -/

/-- Take against pin, on a HELD frame without lock or pin. -/
theorem State.take_meets_pin (h : s.slot n = ⟨.held, r, 0, 0⟩) (ho : s.ownerOf n ≠ none) :
    ((s.take n q).1.pin n r).2 = .declined .notHeld ∧ ((s.pin n r).1.take n q).2 = .declined .pinned := by
  constructor
  · rw [State.take_free h ho, State.pin_not_held (by simp)]
  · rw [State.pin_held h (by decide), State.take_pinned (State.setSlot_slot_self ..) ho]

/-- Take against lock, on a HELD frame without lock or pin. -/
theorem State.take_meets_lock (h : s.slot n = ⟨.held, r, 0, 0⟩) (ho : s.ownerOf n ≠ none) :
    ((s.take n q).1.lock n r).2 = .declined .notHeld ∧
      (s.hasAllowance n = true → (s.lock n r).2 = .done none ∧ ((s.lock n r).1.take n q).2 = .declined .locked) := by
  constructor
  · rw [State.take_free h ho, State.lock_not_held (by simp)]
  · intro ha
    obtain ⟨hdone, hslot⟩ := State.lock_held h (.inr ha) (by decide)
    exact ⟨hdone, by rw [State.take_locked hslot (by simpa using ho)]⟩

/-- Empty against pin, on a HELD frame without lock or pin. -/
theorem State.empty_meets_pin (h : s.slot n = ⟨.held, r, 0, 0⟩) :
    ((s.empty n).1.pin n r).2 = .declined .notHeld ∧ ((s.pin n r).1.empty n).2 = .declined .pinned := by
  constructor
  · rw [State.empty_free h, State.pin_not_held (by simp)]
  · rw [State.pin_held h (by decide), State.empty_pinned (State.setSlot_slot_self ..)]

/-- The last unpin of a HELD slot of a loop that has no lock lets the slot be taken. -/
theorem State.unpin_then_take (h : s.slot n = ⟨.held, r, 0, 1⟩) (ho : s.ownerOf n ≠ none) :
    ((s.unpin n).1.take n q).2 = .done (some r) := by
  have hslot : (s.unpin n).1.slot n = ⟨.held, r, 0, 0⟩ := by simp [State.unpin_slot, h, Slot.unpinned]
  rw [State.take_free hslot (by simpa using ho)]

/-- Take against unpin, pin count 1. -/
theorem State.take_meets_unpin (h : s.slot n = ⟨.held, r, 0, 1⟩) (ho : s.ownerOf n ≠ none) :
    (s.take n q).2 = .declined .pinned ∧ ((s.take n q).1.unpin n).2 = .done none ∧
      (s.unpin n).2 = .done none ∧ ((s.unpin n).1.take n q).2 = .done (some r) := by
  have hunpin : (s.unpin n).2 = .done none := by rw [State.unpin_pinned (by simp [h])]
  have htake := State.take_pinned (q := q) h ho
  exact ⟨by rw [htake], by rw [htake, hunpin], hunpin, State.unpin_then_take h ho⟩

/-- Take against unlock, lock count 1. -/
theorem State.take_meets_unlock (h : s.slot n = ⟨.held, r, 1, 0⟩) (ho : s.ownerOf n ≠ none) :
    (s.take n q).2 = .declined .locked ∧ ((s.take n q).1.unlock n).2 = .done none ∧
      (s.unlock n).2 = .done none ∧ ((s.unlock n).1.take n q).2 = .done (some r) := by
  have hunlock : (s.unlock n).2 = .done none := State.unlock_locked (by simp [h])
  have htake := State.take_locked (q := q) h ho
  have hslot : (s.unlock n).1.slot n = ⟨.held, r, 0, 0⟩ := by simp [State.unlock_slot, h, Slot.unlockedBy]
  exact ⟨by rw [htake], by rw [htake, hunlock], hunlock, by rw [State.take_free hslot (by simpa using ho)]⟩

/-- Commit against the index lookup: the frame is ABSENT before the commit and found after it. -/
theorem State.commit_meets_indexLookup {c : ChanId} (h : s.slot n = ⟨.recording, r, l, p⟩) (ho : s.ownerOf n = some c)
    (hnew : ∀ m, (s.chan c).owns m = true → (s.slot m).state = .held → (s.slot m).rfn ≠ r)
    (hentry : ∀ i, (s.entry i).valid = true → i = (s.chan c).entryOf r → (s.chan c).owns (s.entry i).slot = true) :
    s.indexLookup c r = none ∧ (s.commit n).1.indexLookup c r = some n := by
  constructor
  · refine Option.eq_none_iff_forall_ne_some.mpr fun m hm => ?_
    obtain ⟨_, hnames, hheld, hrfn⟩ := State.indexLookup_eq_some.mp hm
    have howns := hentry _ (by rw [Channel.entryOf, hnames]) rfl
    rw [Channel.entryOf, hnames] at howns
    exact hnew m howns hheld hrfn
  · have hon := ((s.chan c).owns_iff n).mp (s.owns_of_ownerOf n c ho)
    rw [State.commit_recording h ho, State.indexLookup_eq_some]
    exact ⟨hon.1, by simp [Channel.entryOf], by simp, by simp⟩

/-- Commit against pin and lock of the frame that is being recorded. -/
theorem State.commit_meets_pin_and_lock {c : ChanId} (h : s.slot n = ⟨.recording, r, 0, 0⟩) (ho : s.ownerOf n = some c) :
    (s.pin n r).2 = .declined .notHeld ∧ ((s.commit n).1.pin n r).2 = .done none ∧
      (s.lock n r).2 = .declined .notHeld ∧
      (s.hasAllowance n = true → ((s.commit n).1.lock n r).2 = .done none) := by
  have hslot : (s.commit n).1.slot n = ⟨.held, r, 0, 0⟩ := by simp [State.commit_recording h ho]
  have hroom : (s.commit n).1.hasAllowance n = s.hasAllowance n := by simp [State.commit_recording h ho]
  refine ⟨?_, ?_, ?_, fun ha => ?_⟩
  · rw [State.pin_not_held (by simp [h])]
  · rw [State.pin_held hslot (by decide)]
  · rw [State.lock_not_held (by simp [h])]
  · exact (State.lock_held hslot (.inr (hroom.trans ha)) (by decide)).1

/-- Lock with pin: both are DONE in either order. -/
theorem State.lock_meets_pin (h : s.slot n = ⟨.held, r, l, p⟩) (ha : 1 ≤ l ∨ s.hasAllowance n = true) (hl : l < 256)
    (hp : p < 8) :
    (s.lock n r).2 = .done none ∧ ((s.lock n r).1.pin n r).2 = .done none ∧
      (s.pin n r).2 = .done none ∧ ((s.pin n r).1.lock n r).2 = .done none := by
  obtain ⟨hdone, hslot⟩ := State.lock_held h ha hl
  refine ⟨hdone, ?_, ?_, ?_⟩
  · rw [State.pin_held hslot hp]
  · rw [State.pin_held h hp]
  · rw [State.pin_held h hp]
    exact (State.lock_held (State.setSlot_slot_self ..) ha hl).1

/-- Unlock with unpin: both are DONE in either order. -/
theorem State.unlock_meets_unpin (hl : 1 ≤ (s.slot n).locks) (hp : 1 ≤ (s.slot n).pins) :
    (s.unlock n).2 = .done none ∧ ((s.unlock n).1.unpin n).2 = .done none ∧
      (s.unpin n).2 = .done none ∧ ((s.unpin n).1.unlock n).2 = .done none := by
  have hpins : 1 ≤ ((s.unlock n).1.slot n).pins := by simpa [State.unlock_slot, Slot.unlockedBy] using hp
  have hlocks : 1 ≤ ((s.unpin n).1.slot n).locks := by simpa [State.unpin_slot, Slot.unpinned] using hl
  refine ⟨State.unlock_locked hl, ?_, ?_, State.unlock_locked hlocks⟩
  · rw [State.unpin_pinned hpins]
  · rw [State.unpin_pinned hp]

end

/-! ## The obligations -/

/-- Settles O13: an unpin at a count of 1 or more sets the slot record alone; at 0 it answers AT_ZERO. -/
theorem unpinLowersThePinCountAlone : Obligations.UnpinLowersThePinCountAlone := by
  unfold Obligations.UnpinLowersThePinCountAlone
  refine fun s n => ⟨fun hp => ?_, State.unpin_at_zero, fun hs hp hl ho r => ?_⟩
  · refine ⟨?_, ?_, fun m hm => ?_, s.unpin_frame n⟩
    · rw [State.unpin_pinned hp]
    · simp [State.unpin_pinned hp]
    · simp [State.unpin_pinned hp, hm]
  · exact State.unpin_then_take (Slot.eq_mk hs rfl hl hp) ho

/-- Settles O15: the rows of the table of R18, each by its own lemma. -/
theorem twoCallersOnOneSlotMeetAsTheTableSays : Obligations.TwoCallersOnOneSlotMeetAsTheTableSays := by
  unfold Obligations.TwoCallersOnOneSlotMeetAsTheTableSays
  refine fun s n r q => ⟨?free, ?pinned, ?locked, ?recorded, ?locksAndPins, State.unlock_meets_unpin⟩
  case free =>
    intro hs hr hl hp ho
    have h := Slot.eq_mk hs hr hl hp
    obtain ⟨hpinAfterTake, htakeAfterPin⟩ := State.take_meets_pin (q := q) h ho
    obtain ⟨hlockAfterTake, hlock⟩ := State.take_meets_lock (q := q) h ho
    obtain ⟨hpinAfterEmpty, hemptyAfterPin⟩ := State.empty_meets_pin h
    exact ⟨by rw [State.take_free h ho], hpinAfterTake, by rw [State.pin_held h (by decide)], htakeAfterPin,
      hlockAfterTake, hlock, by rw [State.empty_free h], hpinAfterEmpty, hemptyAfterPin⟩
  case pinned =>
    exact fun hs hr hl hp ho => State.take_meets_unpin (Slot.eq_mk hs hr hl hp) ho
  case locked =>
    exact fun hs hr hl hp ho => State.take_meets_unlock (Slot.eq_mk hs hr hl hp) ho
  case recorded =>
    intro c hs hr hl hp ho hnew hentry
    have h := Slot.eq_mk hs hr hl hp
    obtain ⟨habsent, hfound⟩ := State.commit_meets_indexLookup h ho hnew hentry
    exact ⟨habsent, hfound, State.commit_meets_pin_and_lock h ho⟩
  case locksAndPins =>
    exact fun hs hr => State.lock_meets_pin (Slot.eq_mk hs hr rfl rfl)

end Sys2Proof.Machine
end

section
/-! PROOFS. A channel's tick and its stray flag: in OFF and READY the tick clears the flag and does nothing else; the allocation,
the commit and the end of a recording, which the tick makes in the other states, leave the flag as it was cleared (R29). -/

namespace Sys2Proof.Machine

/-! ## The operations of a tick leave the stray flag of every channel alone -/

@[simp] theorem State.take_chan (s : State) (n r : Nat) (d : ChanId) : (s.take n r).1.chan d = s.chan d := by
  rw [State.take_frame]
  rfl

@[simp] theorem State.commitAll_chan (s : State) (ns : List Nat) (d : ChanId) : (s.commitAll ns).chan d = s.chan d := by
  rw [State.commitAll_frame]
  rfl

/-- A channel's record is written back with the flag it had. -/
theorem State.setChan_stray {s : State} {c : ChanId} {x : Channel} (h : x.stray = (s.chan c).stray) (d : ChanId) :
    ((s.setChan c x).chan d).stray = (s.chan d).stray := by
  by_cases hd : d = c
  · subst hd
    simpa using h
  · simp [hd]

theorem State.moveTail_stray (s : State) (c : ChanId) (n : Nat) (lost : Option Nat) (d : ChanId) :
    ((s.moveTail c n lost).chan d).stray = (s.chan d).stray := by
  cases lost with
  | none => rfl
  | some q =>
    simp only [State.moveTail]
    split_ifs
    · rw [State.setChan_stray (by rfl)]
    · rfl

/-- The walk writes no stray flag: each position is passed over, taken, or declined. -/
theorem walk_stray (fuel : Nat) (c : ChanId) (fresh : List Nat) (pos : Nat) (need got : List Nat) (s : State) (d : ChanId) :
    ((walk fuel c fresh pos need got s).1.chan d).stray = (s.chan d).stray := by
  induction fuel generalizing pos need got s with
  | zero => rfl
  | succ fuel ih =>
    cases need with
    | nil => rfl
    | cons r rs =>
      simp only [walk]
      split_ifs
      · exact ih ..
      · have htake := s.take_chan ((s.chan c).firstSlot + pos) r d
        rcases hanswer : s.take ((s.chan c).firstSlot + pos) r with ⟨t, lost | cause⟩ <;> rw [hanswer] at htake
        · rw [ih, State.setChan_stray (by rfl), State.moveTail_stray, htake]
        · rw [ih, htake]

theorem State.allocate_stray (s : State) (c : ChanId) (fresh : List Nat) (d : ChanId) :
    ((s.allocate c fresh).chan d).stray = (s.chan d).stray := by
  rw [State.allocate, State.setChan_stray (by rfl), walk_stray]

theorem State.commitPeriod_stray (s : State) (c d : ChanId) : ((s.commitPeriod c).chan d).stray = (s.chan d).stray := by
  rw [State.commitPeriod, State.tellClips_chan, State.setChan_stray (by rfl), State.commitAll_chan]

theorem State.endRecording_stray (s : State) (c : ChanId) (cause : StopCause) (t : Word) (d : ChanId) :
    ((s.endRecording c cause t).chan d).stray = (s.chan d).stray := by
  by_cases hd : d = c
  · subst hd
    simp
  · simp [hd]

/-! ## The tick -/

/-- In OFF and READY a tick clears the stray flag, and that is all. -/
theorem State.tickChannel_of_off_or_ready {s : State} {c : ChanId} (t : Word)
    (h : (s.chan c).state = .off ∨ (s.chan c).state = .ready) :
    s.tickChannel c t = s.setChan c { s.chan c with stray := false } := by
  rcases h with h | h <;> simp [State.tickChannel, h]

/-- A tick leaves the stray flag clear, in whatever state it finds the channel. -/
theorem State.tickChannel_stray (s : State) (c : ChanId) (t : Word) : ((s.tickChannel c t).chan c).stray = false := by
  unfold State.tickChannel
  have hclear : ((s.setChan c { s.chan c with stray := false }).chan c).stray = false := by simp
  generalize s.setChan c { s.chan c with stray := false } = u at hclear
  cases hstate : (u.chan c).state with
  | off => simpa [hstate] using hclear
  | ready => simpa [hstate] using hclear
  | armed =>
    simp only [hstate]
    rw [State.raiseAt_chan, State.setChan_stray (by rfl), State.allocate_stray, hclear]
  | recording =>
    simp only [hstate]
    split_ifs
    · rw [State.endRecording_stray, State.commitPeriod_stray, hclear]
    · rw [State.allocate_stray, State.commitPeriod_stray, hclear]
  | stopping =>
    simp only [hstate]
    rw [State.endRecording_stray, State.commitPeriod_stray, hclear]

/-- A waiting tick is taken from the channel's mail, and the channel does its work for it. -/
theorem exec_channelTick_waiting {s : State} {c : ChanId} {n : Word} {rest : List Word}
    (h : s.mail.chanTicks.get c = n :: rest) :
    exec (.channelTick c) s =
      .next ((s.setMail { s.mail with chanTicks := popAt s.mail.chanTicks c }).tickChannel c n) := by
  change Host.Outcome.next (s.channelTick c) = _
  rw [State.channelTick, h]

/-! ## The obligation -/

/-- Settles O22: in OFF and READY by the equation of the tick, in the other states because no operation of the tick sets the flag
again. -/
theorem channelTickOutsideRecordingClearsTheStrayFlag : Obligations.ChannelTickOutsideRecordingClearsTheStrayFlag := by
  unfold Obligations.ChannelTickOutsideRecordingClearsTheStrayFlag
  refine fun s c n rest hmail => ⟨fun hstate => ?_, fun _ => ⟨_, exec_channelTick_waiting hmail, State.tickChannel_stray ..⟩⟩
  refine ⟨_, exec_channelTick_waiting hmail, ?_⟩
  rw [State.tickChannel_of_off_or_ready n (by simpa using hstate)]
  refine ⟨?_, fun d hd => ?_, rfl⟩
  · simp
  · simp [hd]

end Sys2Proof.Machine
end

section
/-! PROOFS. CLIP_TAG: the three answers of the clip manager, and what each leaves of the state (R113). -/

namespace Sys2Proof.Machine

/-! ## The end of a command that rewrites one clip record -/

/-- A command that its owning block answers by setting one clip record. -/
theorem State.carryOut_setClip (s : State) (kind : Byte) (r : CmdArgs) (own : State → State × CmdResult) (o : CmdResult)
    (n : Nat) (x : Clip) (h : s.awaits) (hown : ∀ k, own (s.taken k kind r) = ((s.taken k kind r).setClip n x, o)) :
    s.commandEnded (s.carryOut kind r own) kind r o ∧
      s.carryOut kind r own =
        { s.setClip n x with proc := (s.carryOut kind r own).proc, mem := s.mem.withOwn (s.carryOut kind r own).mem } := by
  obtain ⟨k, _, hends⟩ := s.carryOut_ends kind r own h
  obtain ⟨hended, heq⟩ := hends _ o (hown k) rfl rfl (by simp) rfl rfl
  refine ⟨hended, ?_⟩
  conv_lhs => rw [heq]
  rw [State.setClip_mem, State.taken_mem, MemPath.withOwn_leave]
  rfl

/-! ## The clip manager's answer -/

/-- A clip record with its tag set to `a` and its rating to `b`, lowered to 3. -/
def Clip.tagged (x : Clip) (a b : Nat) : Clip :=
  { x with tag := BitVec.ofNat 16 a, rating := if 3 < b then 3 else b }

theorem CmdResult.fitted_eq_doneOrClamped (p : Prop) [Decidable p] (w : Word) :
    CmdResult.fitted (decide p) w = doneOrClamped p w := by
  by_cases h : p <;> simp [CmdResult.fitted, CmdResult.done, doneOrClamped, h]

section
variable {s : State} {r : CmdArgs} {k : Nat}

theorem clipTag_of_free (ht : targetClip r = some k) (hfree : (s.clip k).state = .free) :
    clipTag r s = (s, refusedFor .noClip) := by
  simp [clipTag, ht, hfree, CmdResult.refused, refusedFor]

theorem clipTag_of_tag_too_large (ht : targetClip r = some k) (hused : (s.clip k).state ≠ .free) (ha : 65535 < r.a.toNat) :
    clipTag r s = (s, refusedFor .badArg) := by
  simp [clipTag, ht, hused, ha, CmdResult.refused, refusedFor]

theorem clipTag_of_taken (ht : targetClip r = some k) (hused : (s.clip k).state ≠ .free) (ha : r.a.toNat ≤ 65535) :
    clipTag r s =
      (s.setClip k ((s.clip k).tagged r.a.toNat r.b.toNat), doneOrClamped (3 < r.b.toNat) 0) := by
  have hrating : min r.b.toNat 3 = if 3 < r.b.toNat then 3 else r.b.toNat := by
    split_ifs <;> omega
  simp [clipTag, ht, hused, Nat.not_lt.mpr ha, Clip.tagged, hrating, CmdResult.fitted_eq_doneOrClamped]

end

theorem exec_clipTag (r : CmdArgs) (s : State) : exec (.clipTag r) s = .next (s.carryOut 0x10 r (clipTag r)) := rfl

/-! ## The obligation -/

/-- Settles O37: a FREE clip and a tag above 65,535 are answered without a change; otherwise one clip record is set, to the one it
was with tag and rating replaced. The fetch leaves the clip table alone, so the answer can be read off the state before it. -/
theorem clipTagSetsTagAndRatingAlone : Obligations.ClipTagSetsTagAndRatingAlone := by
  unfold Obligations.ClipTagSetsTagAndRatingAlone
  intro s r k hawaits hk hk255
  have ht : targetClip r = some k := targetClip_of r k hk hk255
  simp only [exec_clipTag]
  refine ⟨fun hfree => ?free, fun hused ha => ?badTag, fun hused ha => ?taken⟩
  case free =>
    exact ⟨_, rfl, s.carryOut_unchanged 0x10 r _ _ hawaits fun _ => clipTag_of_free ht hfree⟩
  case badTag =>
    exact ⟨_, rfl, s.carryOut_unchanged 0x10 r _ _ hawaits fun _ => clipTag_of_tag_too_large ht hused ha⟩
  case taken =>
    obtain ⟨hended, heq⟩ := s.carryOut_setClip 0x10 r (clipTag r) (doneOrClamped (3 < r.b.toNat) 0) k
      ((s.clip k).tagged r.a.toNat r.b.toNat) hawaits fun _ => clipTag_of_taken ht hused ha
    have hclips := congrArg State.clips heq
    have hclip (j : Nat) : (s.carryOut 0x10 r (clipTag r)).clip j =
        if j = k then (s.clip k).tagged r.a.toNat r.b.toNat else s.clip j := by
      rw [State.clip, hclips]
      exact s.setClip_clip k j _
    refine ⟨_, rfl, hended, ?_, fun j hj => ?_, ?_⟩
    · rw [hclip, if_pos rfl, Clip.tagged]
    · rw [hclip, if_neg hj]
    · rw [hclips]
      exact heq

end Sys2Proof.Machine
end

section
/-! PROOFS. From events to steps, and the rows beside the books. A predicate on states that every operation of every event keeps is
kept by every step. The rows of the memory path, the command processor, the event unit, the reference unit and the panel ports
leave the books alone: the slots, the index pool, the channels, the heads and the clip table. -/

namespace Sys2Proof.Machine

/-! ## From the events to the steps -/

/-- `P` is kept by a change of the queue, by RESET_N, by every event made in one operation, and by every weaving of events. -/
structure KeptByEvents (P : State → Prop) : Prop where
  queue (s : State) (q : List Instr) : P s → P { s with pending := q }
  reset (s : State) (cbsel : BitVec 4) (evtFirst : Bool) : P s → P (s.released cbsel evtFirst)
  once {fuel : Nat} {s : State} {e : BlockEvent} {b : List Agent} {f : State → State} :
    courseOf fuel s e = .once b f → P s → P (f s)
  weave {e : BlockEvent} {turns : List Turn} {s t : State} : P s → weave e turns s = .next t → P t

section
variable {P : State → Prop}

/-- A row that is the course of an event made in one operation. -/
theorem KeptByEvents.row (h : KeptByEvents P) {s t : State} (e : BlockEvent) {b : List Agent}
    {row : State → Host.Outcome State Fault Refusal} (hc : courseOf 0 s e = .once b (takeRow row))
    (ht : row s = .next t) (hs : P s) : P t := by
  have hk := h.once hc hs
  simpa [takeRow, ht] using hk

/-- A record of an unknown kind is an event of its own; one of a command kind is no such row (R167). -/
theorem KeptByEvents.unknownKind (h : KeptByEvents P) {s t : State} {kind : Byte} {r : CmdArgs}
    (ht : execUnknownKind kind r s = .next t) (hs : P s) : P t := by
  by_cases hk : isCommandKind kind = true
  · simp only [execUnknownKind, hk, if_true, Host.Outcome.next.injEq] at ht
    exact ht ▸ hs
  · refine h.row (.command kind r) (b := []) (row := execUnknownKind kind r) ?_ ht hs
    have hout : kind.toNat = 0 ∨ 0x16 < kind.toNat := by
      simp only [isCommandKind, Bool.and_eq_true, decide_eq_true_eq] at hk
      omega
    show commandCourse kind r = _
    unfold commandCourse
    split <;> first | rfl | omega

/-- What every event keeps is kept by every row. -/
theorem KeptByEvents.exec (h : KeptByEvents P) {i : Instr} {s t : State} (hs : P s) (ht : exec i s = .next t) : P t := by
  cases i with
  | resetN cb ef => cases ht; exact h.reset s cb ef hs
  | startUpWriteComplete w st => exact h.row (.startUpWriteComplete w st) rfl ht hs
  | engineBurst b free => exact h.row (.engineBurst b free) rfl ht hs
  | strayWriteReport c => exact h.row (.strayWriteReport c) rfl ht hs
  | storePortIssue time => exact h.row (.storePortIssue time) rfl ht hs
  | passBurstComplete k st data => exact h.row (.passBurstComplete k st data) rfl ht hs
  | cmdProducer => exact h.row .cmdProducer rfl ht hs
  | evtConsumer => exact h.row .evtConsumer rfl ht hs
  | ownRequestTimeout k cause => exact h.row (.ownRequestTimeout k cause) rfl ht hs
  | unknownKind kind r => exact h.unknownKind ht hs
  | engage r => exact h.row (.command 0x01 r) rfl ht hs
  | disengage r turns => exact h.weave hs ht
  | refRestart r => exact h.row (.command 0x03 r) rfl ht hs
  | channelSetup r => exact h.row (.command 0x04 r) rfl ht hs
  | channelArm r => exact h.row (.command 0x05 r) rfl ht hs
  | channelStop r => exact h.row (.command 0x06 r) rfl ht hs
  | channelAbort r => exact h.row (.command 0x07 r) rfl ht hs
  | channelClear r turns => exact h.weave hs ht
  | headSource r => exact h.row (.command 0x09 r) rfl ht hs
  | headRate r => exact h.row (.command 0x0A r) rfl ht hs
  | headGoto r => exact h.row (.command 0x0B r) rfl ht hs
  | mark r turns => exact h.weave hs ht
  | markSetup r => exact h.row (.command 0x0D r) rfl ht hs
  | clipClose r turns => exact h.weave hs ht
  | clipDelete r turns => exact h.weave hs ht
  | clipTag r => exact h.row (.command 0x10 r) rfl ht hs
  | clipQuery r => exact h.row (.command 0x11 r) rfl ht hs
  | panelBind r => exact h.row (.command 0x12 r) rfl ht hs
  | panelCurve r => exact h.row (.command 0x13 r) rfl ht hs
  | panelTiming r => exact h.row (.command 0x14 r) rfl ht hs
  | eventMask r => exact h.row (.command 0x15 r) rfl ht hs
  | statusSnapshot r order turns => exact h.weave hs ht
  | curveFetchComplete data st => exact h.row (.curveFetchComplete data st) rfl ht hs
  | reportWriteComplete st => exact h.row (.reportWriteComplete st) rfl ht hs
  | writeBackComplete st => exact h.row (.writeBackComplete st) rfl ht hs
  | cmdConsumerWriteComplete st => exact h.row (.cmdConsumerWriteComplete st) rfl ht hs
  | syncInEdge level time => exact h.row (.syncInEdge level time) rfl ht hs
  | syncPulse => exact h.row .syncPulse rfl ht hs
  | flywheelExpiry => exact h.row .flywheelExpiry rfl ht hs
  | channelTick c => exact h.row (.channelTick c) rfl ht hs
  | headTick hd turns => exact h.weave hs ht
  | takeoverNotice p => exact h.row (.takeoverNotice p) rfl ht hs
  | portLostNotice p => exact h.row (.portLostNotice p) rfl ht hs
  | attachNotice hd => exact h.row (.attachNotice hd) rfl ht hs
  | headDetachNotice hd => exact h.row (.headDetachNotice hd) rfl ht hs
  | clipDetachNotice hd => exact h.row (.clipDetachNotice hd) rfl ht hs
  | panelMark p turns => exact h.weave hs ht
  | framesCommittedArrival c turns => exact h.weave hs ht
  | stopNotice c => exact h.row (.stopNotice c) rfl ht hs
  | levEdge p level time => exact h.row (.levEdge p level time) rfl ht hs
  | noEdgeTimerExpiry p => exact h.row (.noEdgeTimerExpiry p) rfl ht hs
  | jogLineChange p ja jb time => exact h.row (.jogLineChange p ja jb time) rfl ht hs
  | jogFilterExpiry p => exact h.row (.jogFilterExpiry p) rfl ht hs
  | keyLineChange p key level time => exact h.row (.keyLineChange p key level time) rfl ht hs
  | keyDebounceExpiry p key => exact h.row (.keyDebounceExpiry p key) rfl ht hs
  | eventRecordWrite => exact h.row .eventRecordWrite rfl ht hs
  | eventRecordWriteComplete st => exact h.row (.eventRecordWriteComplete st) rfl ht hs
  | evtProducerWriteComplete st => exact h.row (.evtProducerWriteComplete st) rfl ht hs

/-- What every event keeps is kept by every step. -/
theorem KeptByEvents.step (h : KeptByEvents P) {s t : State} (hs : P s) (ht : step s = .next t) : P t := by
  unfold Machine.step at ht
  split at ht
  · cases ht
    exact hs
  · exact h.exec (h.queue _ _ hs) ht

end

/-! ## The rows beside the books -/

/-- `t` has the slots, the index pool, the channels, the heads and the clip table of `s`. -/
structure State.SameBooks (t s : State) : Prop where
  slots : t.slots = s.slots
  index : t.index = s.index
  chans : t.chans = s.chans
  heads : t.heads = s.heads
  clips : t.clips = s.clips

/-- `t` has the books and the ports of `s`. -/
structure State.UnitsOnly (t s : State) : Prop extends t.SameBooks s where
  ports : t.ports = s.ports

theorem State.SameBooks.trans {s t u : State} (h : u.SameBooks t) (h' : t.SameBooks s) : u.SameBooks s :=
  ⟨h.slots.trans h'.slots, h.index.trans h'.index, h.chans.trans h'.chans, h.heads.trans h'.heads, h.clips.trans h'.clips⟩

theorem State.UnitsOnly.trans {s t u : State} (h : u.UnitsOnly t) (h' : t.UnitsOnly s) : u.UnitsOnly s :=
  ⟨h.toSameBooks.trans h'.toSameBooks, h.ports.trans h'.ports⟩

/-- The books of a state. -/
def State.books (s : State) : Tbl Slot × Tbl IndexEntry × Vector Channel 8 × Vector Head 4 × Tbl Clip :=
  (s.slots, s.index, s.chans, s.heads, s.clips)

/-- The relation for states whose books are the same by computation. -/
theorem State.SameBooks.of {s t : State} (h : t.books = s.books) : t.SameBooks s := by
  simp only [State.books, Prod.mk.injEq] at h
  obtain ⟨hslots, hindex, hchans, hheads, hclips⟩ := h
  exact ⟨hslots, hindex, hchans, hheads, hclips⟩

/-- The relation for states whose books and ports are the same by computation. -/
theorem State.UnitsOnly.of {s t : State} (h : (t.books, t.ports) = (s.books, s.ports)) : t.UnitsOnly s := by
  obtain ⟨hbooks, hports⟩ := Prod.mk.inj h
  exact ⟨.of hbooks, hports⟩

/-- The relation holds along a fold of functions that keep it. -/
theorem foldl_unitsOnly {β : Type} {f : State → β → State} (hf : ∀ s b, (f s b).UnitsOnly s) (l : List β) (s : State) :
    (l.foldl f s).UnitsOnly s := by
  induction l generalizing s with
  | nil => exact .of rfl
  | cons b l ih => exact (ih _).trans (hf s b)

/-! ### Commands at the processor -/

theorem State.endCommand_units (s : State) (o : CmdResult) : (s.endCommand o).UnitsOnly s := by
  unfold State.endCommand
  split <;> exact .of rfl

theorem State.fetchFail_units (s : State) : s.fetchFail.UnitsOnly s := by
  unfold State.fetchFail
  split <;> exact .of rfl

theorem State.taken_units (s : State) (k : Nat) (kind : Byte) (r : CmdArgs) : (s.taken k kind r).UnitsOnly s := .of rfl

theorem State.fetchOrIdle_units (s : State) : s.fetchOrIdle.UnitsOnly s := by
  unfold State.fetchOrIdle
  split <;> exact .of rfl

theorem State.resume_units (s : State) : s.resume.UnitsOnly s := by
  unfold State.resume
  split
  · exact s.fetchOrIdle_units
  · exact (State.fetchOrIdle_units _).trans (.of (by rfl))
  all_goals exact .of rfl

theorem State.takeProducer_units (s : State) : s.takeProducer.UnitsOnly s := by
  unfold State.takeProducer State.producerWord
  split
  · exact .of rfl
  · split
    · exact .of rfl
    · exact (State.resume_units _).trans (.of (by rfl))

theorem State.writeBackEnd_units (s : State) (st : Status) : (s.writeBackEnd st).UnitsOnly s := by
  unfold State.writeBackEnd
  split
  · split <;> exact .of rfl
  · exact .of rfl

theorem State.consumerEnd_units (s : State) (st : Status) : (s.consumerEnd st).UnitsOnly s := by
  unfold State.consumerEnd
  split
  · split
    · exact s.fetchOrIdle_units
    · exact (State.fetchOrIdle_units _).trans (.of (by rfl))
  · exact .of rfl

theorem State.curveFail_units (s : State) : s.curveFail.UnitsOnly s := by
  unfold State.curveFail
  split
  · exact (State.endCommand_units _ _).trans (.of (by rfl))
  · exact .of rfl

theorem State.reportFail_units (s : State) : s.reportFail.UnitsOnly s := by
  unfold State.reportFail
  split <;> exact .of rfl

theorem State.reportEnd_units (s : State) (st : Status) : (s.reportEnd st).UnitsOnly s := by
  have hfail : (match st with | .good => s | .error => s.reportFail).UnitsOnly s := by
    cases st with
    | good => exact .of rfl
    | error => exact s.reportFail_units
  refine State.UnitsOnly.trans ?_ hfail
  unfold State.reportEnd
  cases st <;> dsimp only <;> split <;> first | exact .of rfl | (split <;> first | exact .of rfl | exact State.endCommand_units _ _)

theorem State.queueReport_units (s : State) (a : Addr) (bytes : List Byte) : (s.queueReport a bytes).UnitsOnly s := by
  unfold State.queueReport
  dsimp only
  split <;> exact .of rfl

/-! ### Start-up and the event unit -/

theorem State.writeResetDone_units (s : State) : s.writeResetDone.UnitsOnly s := by
  unfold State.writeResetDone
  split <;> exact .of rfl

theorem State.startUpFaults_units (s : State) : s.startUpFaults.UnitsOnly s := by
  unfold State.startUpFaults
  dsimp only
  split_ifs <;> exact .of rfl

theorem State.startUpEnd_units (s : State) (w : StartWrite) (st : Status) : (s.startUpEnd w st).UnitsOnly s := by
  unfold State.startUpEnd
  dsimp only
  split
  · exact (State.startUpFaults_units _).trans ((State.writeResetDone_units _).trans (.of (by rfl)))
  · exact .of rfl

theorem State.recordEnd_units (s : State) (st : Status) : (s.recordEnd st).UnitsOnly s := by
  unfold State.recordEnd State.recordFailed
  split
  · split
    · exact .of rfl
    · split
      · exact s.writeResetDone_units
      all_goals exact .of rfl
  all_goals exact .of rfl

theorem State.producerEnd_units (s : State) (st : Status) : (s.producerEnd st).UnitsOnly s := by
  unfold State.producerEnd
  split
  · split
    · exact .of rfl
    · dsimp only
      split <;> exact .of rfl
  all_goals exact .of rfl

theorem State.beginRecord_units (s : State) : s.beginRecord.UnitsOnly s := by
  unfold State.beginRecord
  split
  · split_ifs <;> exact .of rfl
  · exact .of rfl

theorem State.takeConsumer_units (s : State) : s.takeConsumer.UnitsOnly s := by
  unfold State.takeConsumer
  split
  · exact .of rfl
  · dsimp only
    split <;> exact .of rfl

theorem State.told_units (s : State) (q : Requester) : (s.told q).UnitsOnly s := by
  cases q with
  | startCmd => exact s.startUpEnd_units _ _
  | startEvt => exact s.startUpEnd_units _ _
  | fetch => exact s.fetchFail_units
  | writeBack => exact s.writeBackEnd_units .error
  | consumerWrite => exact s.consumerEnd_units .error
  | curve => exact s.curveFail_units
  | report => exact s.reportEnd_units .error
  | eventRecord => exact s.recordEnd_units .error
  | eventProducer => exact s.producerEnd_units .error

theorem State.ownTimeout_units (s : State) (k : Nat) (cause : TimeoutCause) : (s.ownTimeout k cause).UnitsOnly s := by
  unfold State.ownTimeout
  split
  · exact .of rfl
  · split
    · exact .of rfl
    · refine (State.told_units _ _).trans ?_
      cases cause <;> exact .of rfl

/-! ### The memory path -/

theorem State.handOn_units (s : State) (w : Watched) : (s.handOn w).UnitsOnly s := by
  unfold State.handOn
  split_ifs <;> exact .of rfl

theorem State.handOnAll_units (s : State) (st : Status) (ws : List Watched) : (s.handOnAll st ws).UnitsOnly s := by
  cases st with
  | good => exact foldl_unitsOnly State.handOn_units ws s
  | error => exact .of rfl

theorem State.flush_units (s : State) (d : Dir) : (s.flush d).UnitsOnly s :=
  (foldl_unitsOnly (fun u x => u.handOnAll_units _ _) _ _).trans (.of (by rfl))

theorem State.acceptAbsorbed_units (s : State) (b : Burst) : (s.acceptAbsorbed b).UnitsOnly s :=
  (State.flush_units _ _).trans (.of (by rfl))

theorem State.accept_units (s : State) (b : Burst) : (s.accept b).UnitsOnly s := by
  unfold State.accept
  split
  · exact .of rfl
  · exact .of rfl
  · exact s.acceptAbsorbed_units b
  · exact State.UnitsOnly.trans (.of (by rfl)) (s.acceptAbsorbed_units b)

theorem acceptHeld_units (bs : List Burst) (s : State) : (acceptHeld bs s).UnitsOnly s := by
  induction bs generalizing s with
  | nil => exact .of rfl
  | cons b bs ih =>
    unfold acceptHeld
    split
    · exact (ih _).trans (s.accept_units b)
    · exact .of rfl

theorem State.present_units (s : State) (b : Burst) (portFree : Bool) : (s.present b portFree).UnitsOnly s := by
  unfold State.present
  dsimp only
  split
  · exact (State.accept_units _ _).trans (.of (by rfl))
  · exact .of rfl

theorem State.issue_units (s : State) (time : Nat) : (s.issue time).UnitsOnly s := (acceptHeld_units _ _).trans (.of (by rfl))

theorem State.passComplete_units (s : State) (k : Nat) (st : Status) (data : List Byte) :
    (s.passComplete k st data).UnitsOnly s := by
  unfold State.passComplete
  split
  · exact .of rfl
  · exact (State.flush_units _ _).trans (.of (by rfl))

theorem engage_units (r : CmdArgs) (s : State) : (engage r s).1.UnitsOnly s := by
  unfold engage
  dsimp only
  split_ifs <;> exact .of rfl

/-! ### The reference unit -/

theorem State.syncEdge_units (s : State) (level : Bool) (time : Nat) : (s.syncEdge level time).UnitsOnly s := by
  unfold State.syncEdge
  split
  · exact .of rfl
  · dsimp only
    split
    · exact .of rfl
    · exact .of rfl
    · split <;> exact .of rfl

theorem State.judge_units (s : State) (time : Nat) : (s.judge time).UnitsOnly s := by
  unfold State.judge State.pulseAbsent State.pulseLocked State.pulseFlywheel
  split
  · split
    · exact .of rfl
    · dsimp only
      split <;> exact .of rfl
  · split <;> exact .of rfl
  · split <;> exact .of rfl

theorem State.syncPulse_units (s : State) : s.syncPulse.UnitsOnly s := by
  unfold State.syncPulse
  split
  · exact .of rfl
  · split
    · exact .of rfl
    · exact (State.judge_units _ _).trans (.of (by rfl))

theorem State.flywheel_units (s : State) : s.flywheel.UnitsOnly s := by
  unfold State.flywheel State.expire
  split
  · exact .of rfl
  · split
    · exact .of rfl
    · split <;> exact .of rfl

end Sys2Proof.Machine
end

section
/-! PROOFS. Invariants of woven events. An event in progress at some blocks may rely on what the operations of other events leave
alone, and each of its own operations has to leave the invariant, and to leave alone what events at other blocks rely on. What is
the event's own while it is in progress at a block, as the pins of a head's tick, stands in a ghost beside the state. -/

namespace Sys2Proof.Machine

/-- What holds between the operations of woven events: an invariant of the state and the ghost, what holds of a block at which no
event is in progress, and what an event in progress at a block relies on. -/
structure Discipline (Γ : Type) where
  Inv : State × Γ → Prop
  Idle : Agent → State × Γ → Prop
  Rely : Agent → State × Γ → State × Γ → Prop
  refl : ∀ a x, Rely a x x
  trans : ∀ {a x y z}, Rely a x y → Rely a y z → Rely a x z
  stable : ∀ {a x y}, Rely a x y → Idle a x → Idle a y

section
variable {Γ : Type} (D : Discipline Γ)

/-- An operation of an event at the blocks `b` that begins and ends with these blocks idle. -/
def Discipline.Move (b : List Agent) (s t : State) : Prop :=
  ∀ g, D.Inv (s, g) → (∀ a ∈ b, D.Idle a (s, g)) →
    ∃ g', D.Inv (t, g') ∧ (∀ a, a ∉ b → D.Rely a (s, g) (t, g')) ∧ ∀ a ∈ b, D.Idle a (t, g')

variable {D}

theorem Discipline.Move.refl (b : List Agent) (s : State) : D.Move b s s := fun g hinv hidle => ⟨g, hinv, fun a _ => D.refl a _, hidle⟩

theorem Discipline.Move.trans {b : List Agent} {s t u : State} (h : D.Move b s t) (h' : D.Move b t u) : D.Move b s u := by
  intro g hinv hidle
  obtain ⟨g1, hinv1, hrely1, hidle1⟩ := h g hinv hidle
  obtain ⟨g2, hinv2, hrely2, hidle2⟩ := h' g1 hinv1 hidle1
  exact ⟨g2, hinv2, fun a ha => D.trans (hrely1 a ha) (hrely2 a ha), hidle2⟩

variable (D)

/-- The blocks at which an event stays in progress after an operation at the blocks `b`. -/
def Prog.stays (b : List Agent) : Prog Unit → List Agent
  | .done _ => []
  | .never => []
  | .op b' _ _ => b.filter (fun a => decide (a ∈ b'))

/-- The program goes on well from `x`, in progress at the blocks `l`: whatever others do, its operations keep the invariant and what
others rely on, and leave idle the blocks that it leaves. A pick that never ends is excused, for the row is then a fault. -/
def Discipline.Goes (D : Discipline Γ) : Prog Unit → List Agent → State × Γ → Prop
  | .done _, _, _ => True
  | .never, _, _ => True
  | .op b f next, l, x =>
    b.length ≤ 1 ∧
      ∀ y : State × Γ, (∀ a ∈ l, D.Rely a x y) → (∀ a ∈ b, a ∉ l → D.Idle a y) → D.Inv y →
        next y.1 = .never ∨
          ∃ g, D.Inv (f y.1, g) ∧ (∀ a, a ∉ b → D.Rely a y (f y.1, g)) ∧
            (∀ a ∈ b, a ∉ (next y.1).stays b → D.Idle a (f y.1, g)) ∧ D.Goes (next y.1) ((next y.1).stays b) (f y.1, g)

/-- An event begun in `s` keeps the discipline. -/
def Discipline.Begins (D : Discipline Γ) (s : State) : Course → Prop
  | .once b f => D.Move b s (f s)
  | .steps _ p => ∀ g, D.Inv (s, g) → D.Goes p [] (s, g)

variable {D}

theorem Discipline.Goes.stable {p : Prog Unit} {l : List Agent} {x y : State × Γ} (h : D.Goes p l x)
    (hrely : ∀ a ∈ l, D.Rely a x y) : D.Goes p l y := by
  cases p with
  | done a => trivial
  | never => trivial
  | op b f next =>
    obtain ⟨hb, hgo⟩ := h
    exact ⟨hb, fun z hz => hgo z fun a ha => D.trans (hrely a ha) (hz a ha)⟩

/-! ## Events in progress -/

/-- The events in progress keep the discipline, with the ghost `g`. -/
structure Discipline.Sound (D : Discipline Γ) (s : State) (ts : List Thread) (g : Γ) : Prop where
  inv : D.Inv (s, g)
  names : (ts.map Thread.who).Nodup
  ops : ∀ th ∈ ts, ∃ b f next, th.rest = .op b f next ∧ th.inAt ⊆ b
  apart : ∀ th ∈ ts, ∀ th' ∈ ts, th.who ≠ th'.who → ∀ a ∈ th.inAt, a ∉ th'.inAt
  goes : ∀ th ∈ ts, D.Goes th.rest th.inAt (s, g)
  idle : ∀ a, busyAt ts a = false → D.Idle a (s, g)

/-- A pick that never ends is among the events in progress. -/
def stuck (ts : List Thread) : Prop := ∃ a th, threadOf ts a = some th ∧ th.rest = .never

/-- The events in progress keep the discipline, or a pick that never ends is among them. -/
def Discipline.Holds (D : Discipline Γ) (x : Weft) : Prop := stuck x.2 ∨ ∃ g, D.Sound x.1 x.2 g

theorem stuck_never (who : Agent) (l : List Agent) (ts : List Thread) : stuck ({ who, inAt := l, rest := .never } :: ts) :=
  ⟨who, { who, inAt := l, rest := .never }, by simp [threadOf], rfl⟩

theorem threadOf_cons_of_ne {ts : List Thread} {th : Thread} {a : Agent} (h : th.who ≠ a) :
    threadOf (th :: ts) a = threadOf ts a := by
  simp [threadOf, h]

theorem threadOf_othersOf {ts : List Thread} {a b : Agent} (h : b ≠ a) : threadOf (othersOf ts a) b = threadOf ts b := by
  unfold threadOf othersOf
  rw [List.find?_filter]
  congr 1
  funext th
  by_cases hb : th.who = b <;> simp [hb, h]

/-- An operation of one event leaves the events of other names in progress as they are. -/
theorem threadOf_goOnce {ts : List Thread} {who a : Agent} {s : State} {p : Prog Unit} {x : Weft}
    (h : goOnce ts who s p = some x) (ha : a ≠ who) : threadOf x.2 a = threadOf ts a := by
  cases p with
  | done u => cases h
  | never => cases h
  | op b f next =>
    simp only [goOnce] at h
    split at h
    · cases h
    · cases h
      dsimp only
      split
      · rfl
      · exact threadOf_cons_of_ne ha.symm
      · exact threadOf_cons_of_ne ha.symm

theorem busyAt_eq_false {ts : List Thread} {a : Agent} : busyAt ts a = false ↔ ∀ th ∈ ts, a ∉ th.inAt := by
  simp [busyAt]

theorem any_busyAt_eq_false {ts : List Thread} {b : List Agent} :
    ¬ b.any (busyAt ts) = true ↔ ∀ a ∈ b, ∀ th ∈ ts, a ∉ th.inAt := by
  simp [busyAt]

/-- The events in progress, with the one of a name put first. -/
theorem Discipline.Sound.front {s : State} {ts : List Thread} {g : Γ} (h : D.Sound s ts g) {a : Agent} {th : Thread}
    (ht : threadOf ts a = some th) : th.who = a ∧ D.Sound s (th :: othersOf ts a) g := by
  have hwho : th.who = a := by simpa using List.find?_some ht
  have hmem : th ∈ ts := mem_of_threadOf ht
  have hsub : ∀ w ∈ th :: othersOf ts a, w ∈ ts := by
    intro w hw
    rcases List.mem_cons.mp hw with rfl | hw
    · exact hmem
    · exact mem_of_othersOf hw
  refine ⟨hwho, h.inv, ?_, fun w hw => h.ops w (hsub w hw), fun w hw w' hw' => h.apart w (hsub w hw) w' (hsub w' hw'),
    fun w hw => h.goes w (hsub w hw), fun c hc => h.idle c ?_⟩
  · rw [List.map_cons, List.nodup_cons]
    refine ⟨fun hin => ?_, h.names.sublist (List.filter_sublist.map _)⟩
    obtain ⟨w, hw, hww⟩ := List.mem_map.mp hin
    have := (List.mem_filter.mp hw).2
    simp [hww, hwho] at this
  · rw [busyAt_eq_false] at hc ⊢
    intro w hw
    by_cases hwa : w.who = a
    · have : w = th := by
        by_contra hne
        exact hne (List.inj_on_of_nodup_map h.names hw hmem (hwa.trans hwho.symm))
      exact this ▸ hc th (by simp)
    · exact hc w (List.mem_cons_of_mem _ (List.mem_filter.mpr ⟨hw, by simpa using hwa⟩))

/-- An event begins: it is in progress at no block yet. -/
theorem Discipline.Sound.begun {s : State} {ts : List Thread} {g : Γ} (h : D.Sound s ts g) {who : Agent}
    (hnew : threadOf ts who = none) {b : List Agent} {f : State → State} {next : State → Prog Unit}
    (hp : D.Goes (.op b f next) [] (s, g)) : D.Sound s ({ who, inAt := [], rest := .op b f next } :: ts) g := by
  refine ⟨h.inv, ?_, ?_, ?_, ?_, fun a ha => h.idle a ?_⟩
  · rw [List.map_cons, List.nodup_cons]
    refine ⟨fun hin => ?_, h.names⟩
    obtain ⟨w, hw, hww⟩ := List.mem_map.mp hin
    simpa [hww] using List.find?_eq_none.mp hnew w hw
  · simp only [List.forall_mem_cons]
    exact ⟨⟨b, f, next, rfl, by simp⟩, h.ops⟩
  · intro w hw w' hw' hne a ha
    rcases List.mem_cons.mp hw with rfl | hw
    · simp at ha
    · rcases List.mem_cons.mp hw' with rfl | hw'
      · simp
      · exact h.apart w hw w' hw' hne a ha
  · simp only [List.forall_mem_cons]
    exact ⟨hp, h.goes⟩
  · simpa [busyAt] using ha

/-- Other events go on after an operation that does not touch their blocks. -/
theorem Discipline.Sound.others {s t : State} {ts : List Thread} {g g' : Γ} (hgoes : ∀ th ∈ ts, D.Goes th.rest th.inAt (s, g))
    {b : List Agent} (hfree : ∀ a ∈ b, ∀ th ∈ ts, a ∉ th.inAt) (hrely : ∀ a, a ∉ b → D.Rely a (s, g) (t, g')) :
    ∀ th ∈ ts, D.Goes th.rest th.inAt (t, g') :=
  fun th hth => (hgoes th hth).stable fun a ha => hrely a fun hb => hfree a hb th hth ha

/-- The first event makes its next operation. -/
theorem Discipline.Sound.advance {s : State} {who : Agent} {l b : List Agent} {f : State → State} {next : State → Prog Unit}
    {ts : List Thread} {g : Γ} (h : D.Sound s ({ who, inAt := l, rest := .op b f next } :: ts) g)
    (hfree : ∀ a ∈ b, ∀ th ∈ ts, a ∉ th.inAt) :
    next s = .never ∨
      ∃ g', D.Sound (f s) (match next s with
        | .done _ => ts
        | .never => ts
        | .op b' f' next' => { who, inAt := (next s).stays b, rest := .op b' f' next' } :: ts) g' := by
  obtain ⟨hlb, hops⟩ : l ⊆ b ∧ ∀ th ∈ ts, ∃ b f next, th.rest = .op b f next ∧ th.inAt ⊆ b := by
    obtain ⟨hop, hops⟩ := List.forall_mem_cons.mp h.ops
    obtain ⟨_, _, _, heq, hl⟩ := hop
    cases heq
    exact ⟨hl, hops⟩
  obtain ⟨⟨_, hgo⟩, hgoes⟩ := List.forall_mem_cons.mp h.goes
  obtain ⟨hnew, hnames⟩ := List.nodup_cons.mp h.names
  have hapart : ∀ th ∈ ts, ∀ th' ∈ ts, th.who ≠ th'.who → ∀ a ∈ th.inAt, a ∉ th'.inAt := fun th hth th' hth' =>
    h.apart th (List.mem_cons_of_mem _ hth) th' (List.mem_cons_of_mem _ hth')
  have hidle : ∀ a, a ∉ l → (∀ th ∈ ts, a ∉ th.inAt) → D.Idle a (s, g) := fun a ha hts =>
    h.idle a (busyAt_eq_false.mpr (List.forall_mem_cons.mpr ⟨ha, hts⟩))
  rcases hgo (s, g) (fun a _ => D.refl a _) (fun a hab hal => hidle a hal (hfree a hab)) h.inv with hnever | ⟨g', hinv, hrely, hleft, hon⟩
  · exact .inl hnever
  refine .inr ⟨g', ?_⟩
  have hgoes' := Discipline.Sound.others hgoes hfree hrely
  have hidle' : ∀ a, a ∉ (next s).stays b → (∀ th ∈ ts, a ∉ th.inAt) → D.Idle a (f s, g') := by
    intro a ha hts
    by_cases hab : a ∈ b
    · exact hleft a hab ha
    · exact D.stable (hrely a hab) (hidle a (fun hal => hab (hlb hal)) hts)
  cases hn : next s with
  | done u =>
    rw [hn] at hidle'
    exact ⟨hinv, hnames, hops, hapart, hgoes', fun a ha => hidle' a (by simp [Prog.stays]) (busyAt_eq_false.mp ha)⟩
  | never =>
    rw [hn] at hidle'
    exact ⟨hinv, hnames, hops, hapart, hgoes', fun a ha => hidle' a (by simp [Prog.stays]) (busyAt_eq_false.mp ha)⟩
  | op b' f' next' =>
    rw [hn] at hon hidle'
    have hstays : Prog.stays b (.op b' f' next') ⊆ b ∧ Prog.stays b (.op b' f' next') ⊆ b' :=
      ⟨List.filter_subset' _, fun a ha => by simpa using (List.mem_filter.mp ha).2⟩
    refine ⟨hinv, List.nodup_cons.mpr ⟨hnew, hnames⟩, List.forall_mem_cons.mpr ⟨⟨b', f', next', rfl, hstays.2⟩, hops⟩, ?_,
      List.forall_mem_cons.mpr ⟨hon, hgoes'⟩, fun a ha => ?_⟩
    · intro w hw w' hw' hne a ha
      rcases List.mem_cons.mp hw with rfl | hw
      · rcases List.mem_cons.mp hw' with rfl | hw'
        · exact absurd rfl hne
        · exact hfree a (hstays.1 ha) w' hw'
      · rcases List.mem_cons.mp hw' with rfl | hw'
        · exact fun ha' => hfree a (hstays.1 ha') w hw ha
        · exact hapart w hw w' hw' hne a ha
    · obtain ⟨hown, hts⟩ := List.forall_mem_cons.mp (busyAt_eq_false.mp ha)
      exact hidle' a hown hts

/-- An event makes its next operation, if it need not wait. -/
theorem Discipline.Sound.goOnce {s : State} {who : Agent} {l : List Agent} {p : Prog Unit} {ts : List Thread} {g : Γ} {x : Weft}
    (h : D.Sound s ({ who, inAt := l, rest := p } :: ts) g) (hx : goOnce ts who s p = some x) : D.Holds x := by
  cases p with
  | done u => cases hx
  | never => cases hx
  | op b f next =>
    simp only [Machine.goOnce] at hx
    split at hx
    · cases hx
    case isFalse hbusy =>
      cases hx
      rcases h.advance (any_busyAt_eq_false.mp hbusy) with hnever | ⟨g', hsound⟩
      · exact .inl (by simpa [hnever] using stuck_never who [] ts)
      · cases hn : next s with
        | done u => exact .inr ⟨g', by simpa [hn] using hsound⟩
        | never => exact .inl (stuck_never who [] ts)
        | op b' f' next' => exact .inr ⟨g', by simpa [hn, Prog.stays] using hsound⟩

/-- An event goes on to its end, or to where it has to wait. -/
theorem Discipline.Sound.goOn {who : Agent} {p : Prog Unit} {s : State} {l : List Agent} {ts : List Thread} {g : Γ}
    (h : D.Sound s ({ who, inAt := l, rest := p } :: ts) g) :
    D.Holds (match goOn ts p s with
      | (t, .done _) => (t, ts)
      | (t, q) => (t, { who, inAt := [], rest := q } :: ts)) := by
  induction p generalizing s l g with
  | done u =>
    obtain ⟨_, _, _, heq, _⟩ := h.ops _ (List.mem_cons_self ..)
    cases heq
  | never =>
    obtain ⟨_, _, _, heq, _⟩ := h.ops _ (List.mem_cons_self ..)
    cases heq
  | op b f next ih =>
    simp only [Machine.goOn]
    by_cases hbusy : b.any (busyAt ts) = true
    · rw [if_pos hbusy]
      obtain ⟨a, hab, hth⟩ := List.any_eq_true.mp hbusy
      obtain ⟨th, hth, hain⟩ : ∃ th ∈ ts, a ∈ th.inAt := by simpa [busyAt] using hth
      have hnil : l = [] := by
        obtain ⟨_, _, _, heq, hl⟩ := h.ops _ (List.mem_cons_self ..)
        cases heq
        have hone := (h.goes _ (List.mem_cons_self ..)).1
        refine List.eq_nil_iff_forall_not_mem.mpr fun c hc => ?_
        have hca : c = a := by
          have hcb := hl hc
          match b, hone, hcb, hab with
          | [d], _, hcb, hab => rw [List.mem_singleton.mp hcb, List.mem_singleton.mp hab]
        have hne : who ≠ th.who := fun e => (List.nodup_cons.mp h.names).1 (List.mem_map.mpr ⟨th, hth, e.symm⟩)
        exact h.apart _ (List.mem_cons_self ..) th (List.mem_cons_of_mem _ hth) hne a (hca ▸ hc) hain
      subst hnil
      exact .inr ⟨g, h⟩
    · rw [if_neg hbusy]
      rcases h.advance (any_busyAt_eq_false.mp hbusy) with hnever | ⟨g', hsound⟩
      · rw [hnever]
        exact .inl (stuck_never who [] ts)
      · cases hn : next s with
        | done u =>
          rw [hn] at hsound
          exact .inr ⟨g', hsound⟩
        | never => exact .inl (stuck_never who [] ts)
        | op b' f' next' =>
          have := ih s (s := f s) (l := (next s).stays b) (g := g') (by simpa [hn] using hsound)
          rwa [hn] at this

/-! ## Weavings -/

theorem Discipline.Holds.begin {x : Weft} (hx : D.Holds x) {c : Course} (hc : D.Begins x.1 c) : D.Holds (begin x c) := by
  rcases hx with ⟨a, th, hth, hnever⟩ | ⟨g, h⟩
  · left
    cases c with
    | once b f =>
      simp only [Machine.begin]
      split <;> exact ⟨a, th, hth, hnever⟩
    | steps who p =>
      simp only [Machine.begin]
      split
      · exact ⟨a, th, hth, hnever⟩
      case isFalse hnew =>
        cases hg : Machine.goOnce x.2 who x.1 p with
        | none => exact ⟨a, th, hth, hnever⟩
        | some y =>
          have hne : a ≠ who := fun e => hnew (by simp [← e, hth])
          exact ⟨a, th, (threadOf_goOnce hg hne).trans hth, hnever⟩
  · cases c with
    | once b f =>
      simp only [Machine.begin]
      split
      · exact .inr ⟨g, h⟩
      case isFalse hbusy =>
        have hfree := any_busyAt_eq_false.mp hbusy
        obtain ⟨g', hinv, hrely, hidle⟩ := hc g h.inv fun a ha => h.idle a (busyAt_eq_false.mpr (hfree a ha))
        refine .inr ⟨g', hinv, h.names, h.ops, h.apart, Discipline.Sound.others h.goes hfree hrely, fun a ha => ?_⟩
        by_cases hab : a ∈ b
        · exact hidle a hab
        · exact D.stable (hrely a hab) (h.idle a ha)
    | steps who p =>
      simp only [Machine.begin]
      split
      · exact .inr ⟨g, h⟩
      case isFalse hnew =>
        cases p with
        | done u => exact .inr ⟨g, h⟩
        | never => exact .inr ⟨g, h⟩
        | op b f next =>
          have hbegun := h.begun (who := who) (by simpa using hnew) (hc g h.inv)
          cases hg : Machine.goOnce x.2 who x.1 (.op b f next) with
          | none => exact .inr ⟨g, h⟩
          | some y => exact hbegun.goOnce hg

theorem Discipline.Holds.takeTurn {fuel : Nat} (hcourse : ∀ s e, D.Begins s (courseOf fuel s e)) {x : Weft} (hx : D.Holds x)
    (t : Turn) : D.Holds (takeTurn fuel x t) := by
  cases t with
  | event e => exact hx.begin (hcourse x.1 e)
  | move a =>
    simp only [Machine.takeTurn]
    split
    · exact hx
    case h_2 th ht =>
      cases hg : Machine.goOnce (othersOf x.2 a) a x.1 th.rest with
      | none => exact hx
      | some y =>
        rcases hx with ⟨c, w, hw, hnever⟩ | ⟨g, h⟩
        · by_cases hca : c = a
          · rw [hca, ht] at hw
            cases hw
            rw [hnever] at hg
            cases hg
          · exact .inl ⟨c, w, ((threadOf_goOnce hg hca).trans (threadOf_othersOf hca)).trans hw, hnever⟩
        · obtain ⟨hwho, hfront⟩ := h.front ht
          subst hwho
          exact hfront.goOnce hg

theorem Discipline.Holds.finish {x : Weft} (hx : D.Holds x) (a : Agent) : D.Holds (finish x a) := by
  unfold Machine.finish
  split
  · exact hx
  case h_2 th ht =>
    rcases hx with ⟨c, w, hw, hnever⟩ | ⟨g, h⟩
    · left
      by_cases hca : c = a
      · rw [hca, ht] at hw
        cases hw
        rw [hnever]
        exact stuck_never a [] _
      · have hothers := (threadOf_othersOf hca).trans hw
        split
        · exact ⟨c, w, hothers, hnever⟩
        · exact ⟨c, w, (threadOf_cons_of_ne (Ne.symm hca)).trans hothers, hnever⟩
    · obtain ⟨hwho, hfront⟩ := h.front ht
      subst hwho
      exact hfront.goOn

theorem Discipline.Holds.finishAll {x : Weft} (hx : D.Holds x) : D.Holds (finishAll x) := by
  have hcommand {y : Weft} (hy : D.Holds y) : D.Holds (finishCommand y) := by
    unfold finishCommand
    split
    · exact hy
    · split
      · exact hy
      · exact hy.finish _
  have hheads (ds : List HeadId) {y : Weft} (hy : D.Holds y) : D.Holds (ds.foldl (fun y d => Machine.finish y (.head d)) y) := by
    induction ds generalizing y with
    | nil => exact hy
    | cons d ds ih => exact ih (hy.finish _)
  exact (hheads allHeads (hcommand (hx.finish _))).finish _

/-- A weaving of events that keep the discipline leaves the invariant, with every block idle. -/
theorem Discipline.weave (hcourse : ∀ fuel s e, D.Begins s (courseOf fuel s e)) {e : BlockEvent} {turns : List Turn} {s t : State}
    {g : Γ} (hinv : D.Inv (s, g)) (hidle : ∀ a, D.Idle a (s, g)) (ht : weave e turns s = .next t) :
    ∃ g', D.Inv (t, g') ∧ ∀ a, D.Idle a (t, g') := by
  have hturns (ts : List Turn) {y : Weft} (hy : D.Holds y) : D.Holds (ts.foldl (Machine.takeTurn (pickFuel turns)) y) := by
    induction ts generalizing y with
    | nil => exact hy
    | cons a ts ih => exact ih (hy.takeTurn (hcourse _) a)
  have hstart : D.Holds (s, []) := .inr ⟨g, hinv, by simp, by simp, by simp, by simp, fun a _ => hidle a⟩
  have hend := (hturns turns (hstart.begin (hcourse (pickFuel turns) s e))).finishAll
  unfold Machine.weave at ht
  split at ht
  · rename_i u heq
    cases ht
    rw [heq] at hend
    rcases hend with ⟨a, th, hth, _⟩ | ⟨g', h⟩
    · cases hth
    · exact ⟨g', h.inv, fun a => h.idle a rfl⟩
  · cases ht

end

end Sys2Proof.Machine
end

section
/-! PROOFS. What every event is made of. Each event of the blocks is a sequence of moves: operations of the units, of the panel
ports, of the slot table, the channels, the heads and the clip table. A relation between states that holds along each of these
moves, beside the blocks that the move is made at, holds along every operation of every event. -/

namespace Sys2Proof.Machine

/-! ## The panel rows leave the books alone -/

theorem State.faultLever_books (s : State) (p : PortId) (why : Reason) (v : Nat) : (s.faultLever p why v).SameBooks s := by
  unfold State.faultLever
  split <;> exact .of rfl

theorem State.noticeTakeover_books (s : State) (p : PortId) : (s.noticeTakeover p).SameBooks s := by
  unfold State.noticeTakeover
  split <;> exact .of rfl

theorem State.validCycle_books (s : State) (p : PortId) (u : Nat) : (s.validCycle p u).SameBooks s := by
  unfold State.validCycle State.restoreLever State.zoneCycle
  dsimp only
  split
  · split <;> exact .of rfl
  · split
    · exact (State.noticeTakeover_books _ _).trans (.of (by rfl))
    · exact .of rfl

theorem State.closeCycle_books (s : State) (p : PortId) (period active : Nat) : (s.closeCycle p period active).SameBooks s := by
  unfold State.closeCycle
  split
  · exact s.faultLever_books _ _ _
  · exact s.validCycle_books _ _

theorem State.noEdgeExpiry_books (s : State) (p : PortId) : (s.noEdgeExpiry p).SameBooks s :=
  (State.faultLever_books _ _ _ _).trans (.of (by rfl))

theorem State.edge_books (s : State) (p : PortId) (level : Bool) : (s.edge p level).SameBooks s := by
  unfold State.edge State.activeEdge State.inactiveEdge
  dsimp only
  split
  · split
    · exact .of rfl
    · exact (State.closeCycle_books _ _ _ _).trans (.of (by rfl))
  · split <;> exact .of rfl

theorem State.levEdge_books (s : State) (p : PortId) (level : Bool) (time : Nat) : (s.levEdge p level time).SameBooks s := by
  unfold State.levEdge
  split
  · exact .of rfl
  · refine (State.edge_books _ _ _).trans ?_
    split
    · exact State.SameBooks.trans (.of (by rfl)) (s.noEdgeExpiry_books p)
    · exact .of rfl

theorem State.jogExpiry_books (s : State) (p : PortId) : (s.jogExpiry p).SameBooks s := by
  unfold State.jogExpiry
  split <;> exact .of rfl

theorem State.keyAccept_books (s : State) (p : PortId) (k : Key) : (s.keyAccept p k).SameBooks s := by
  unfold State.keyAccept State.press
  dsimp only
  split
  · split <;> exact .of rfl
  · exact .of rfl

theorem State.keyExpiry_books (s : State) (p : PortId) (k : Key) : (s.keyExpiry p k).SameBooks s := by
  unfold State.keyExpiry
  split
  · exact .of rfl
  · exact (State.keyAccept_books _ _ _).trans (.of (by rfl))

theorem State.keyChange_books (s : State) (p : PortId) (k : Key) (level : Bool) (time : Nat) :
    (s.keyChange p k level time).SameBooks s := by
  unfold State.keyChange
  refine State.SameBooks.trans (t := if ((s.port p).keyDue k).any (fun d => decide (d ≤ max s.now time)) then s.keyExpiry p k
    else s) (.of (by rfl)) ?_
  split
  · exact s.keyExpiry_books p k
  · exact .of rfl

theorem State.noticeLost_books (s : State) (p : PortId) (o : Option HeadId) : (s.noticeLost p o).SameBooks s := by
  cases o <;> exact .of rfl

theorem State.takeFromOther_books (s : State) (p : PortId) (o : Option HeadId) : (s.takeFromOther p o).SameBooks s := by
  unfold State.takeFromOther
  split
  · exact .of rfl
  · split <;> exact .of rfl

theorem panelBind_books (r : CmdArgs) (s : State) : (panelBind r s).1.SameBooks s := by
  unfold panelBind State.bind
  split
  · dsimp only
    split
    · exact .of rfl
    · exact State.SameBooks.trans (.of (by rfl)) ((State.takeFromOther_books _ _ _).trans (s.noticeLost_books _ _))
  · exact .of rfl

theorem panelTiming_books (r : CmdArgs) (s : State) : (panelTiming r s).1.SameBooks s := by
  unfold panelTiming
  split <;> exact .of rfl

theorem panelCurve_units (r : CmdArgs) (s : State) : (panelCurve r s).1.UnitsOnly s := by
  unfold panelCurve
  split
  · exact .of rfl
  · split <;> exact .of rfl

theorem clipQuery_units (r : CmdArgs) (s : State) : (clipQuery r s).1.UnitsOnly s := by
  unfold clipQuery
  split
  · exact .of rfl
  · rename_i k _
    generalize (s.clip k).bytes k = bytes
    split
    · exact .of rfl
    · split
      · exact .of rfl
      · exact s.queueReport_units _ bytes

theorem eventMask_units (r : CmdArgs) (s : State) : (eventMask r s).1.UnitsOnly s := by
  unfold eventMask
  dsimp only
  split
  · exact .of rfl
  · split <;> exact .of rfl

theorem State.installCurve_books (s : State) (data : List Byte) : (s.installCurve data).SameBooks s := by
  unfold State.installCurve
  split
  · exact (State.endCommand_units _ _).toSameBooks.trans (.of (by rfl))
  · exact .of rfl

theorem State.curveEnd_books (s : State) (data : List Byte) (st : Status) : (s.curveEnd data st).SameBooks s := by
  cases st with
  | good => exact s.installCurve_books data
  | error => exact s.curveFail_units.toSameBooks

theorem State.clearJog_books (s : State) (h : HeadId) : (s.clearJog h).SameBooks s := by
  unfold State.clearJog
  split <;> exact .of rfl

theorem State.tickInput_books (s : State) (h : HeadId) (t : Word) : (s.tickInput h t).SameBooks s := by
  unfold State.tickInput
  dsimp only
  split
  · exact State.SameBooks.trans (.of (by rfl)) (s.clearJog_books h)
  · exact s.clearJog_books h

theorem State.postFit_units (s : State) (h : HeadId) (f : Fit) (t : Word) : (s.postFit h f t).UnitsOnly s := by
  unfold State.postFit
  split <;> exact .of rfl

theorem State.detachHead_units (s : State) (h : HeadId) : (s.detachHead h).UnitsOnly s := by
  unfold State.detachHead
  split <;> exact .of rfl

/-! ## The moves that the events are made of -/

/-- Every operation of the program, made at its one block or at none on a clip table that has `Q`, is a move of `R`. -/
def Prog.Each {α : Type} (R : List Agent → State → State → Prop) (Q : Tbl Clip → Prop) : Prog α → Prop
  | .done _ => True
  | .never => True
  | .op b f next => b.length ≤ 1 ∧ ∀ s : State, Q s.clips → R b s (f s) ∧ (next s).Each R Q

/-- Every operation of a course, taken from `s` where it is made in one operation, is a move of `R`. -/
def Course.EachFrom (R : List Agent → State → State → Prop) (Q : Tbl Clip → Prop) (s : State) : Course → Prop
  | .once b f => R b s (f s)
  | .steps _ p => p.Each R Q

/-- `R b` holds along each move that an event makes at the blocks `b`: all moves but those of a head's tick and of CHANNEL_CLEAR. The
clip tables that an event works on have `Q`. -/
structure EventMoves (R : List Agent → State → State → Prop) (Q : Tbl Clip → Prop) : Prop where
  refl (b : List Agent) (s : State) : R b s s
  trans {b : List Agent} {s t u : State} : R b s t → R b t u → R b s u
  table {b : List Agent} {s t : State} : R b s t → Q s.clips → Q t.clips
  clips (b : List Agent) (s : State) (cl : Tbl Clip) : Q cl → R b s { s with clips := cl }
  aside {b : List Agent} {s u : State} {cl : Tbl Clip} : Q cl → R b { s with clips := cl } u → R b s { u with clips := s.clips }
  setClip (b : List Agent) (s : State) (k : Nat) (x : Clip) : R b s (s.setClip k x)
  mail (b : List Agent) (s : State) (m : Mail) : R b s (s.setMail m)
  raiseAt (b : List Agent) (s : State) (k : EventKind) (why : Reason) (obj aux : Nat) (v t : Word) :
    R b s (s.raiseAt k why obj aux v t)
  taken (b : List Agent) (s : State) (k : Nat) (kind : Byte) (r : CmdArgs) : s.proc.state = .fetching → R b s (s.taken k kind r)
  leaveOwn (b : List Agent) (s : State) (k : Nat) : R b s (s.leaveOwn k)
  fetchFail (b : List Agent) (s : State) : R b s s.fetchFail
  endCommand (b : List Agent) (s : State) (o : CmdResult) : R b s (s.endCommand o)
  startUpEnd (b : List Agent) (s : State) (w : StartWrite) (st : Status) : R b s (s.startUpEnd w st)
  present (b : List Agent) (s : State) (x : Burst) (free : Bool) : R b s (s.present x free)
  issue (b : List Agent) (s : State) (time : Nat) : R b s (s.issue time)
  passComplete (b : List Agent) (s : State) (k : Nat) (st : Status) (data : List Byte) : R b s (s.passComplete k st data)
  takeProducer (b : List Agent) (s : State) : R b s s.takeProducer
  takeConsumer (b : List Agent) (s : State) : R b s s.takeConsumer
  ownTimeout (b : List Agent) (s : State) (k : Nat) (cause : TimeoutCause) : R b s (s.ownTimeout k cause)
  writeBackEnd (b : List Agent) (s : State) (st : Status) : R b s (s.writeBackEnd st)
  consumerEnd (b : List Agent) (s : State) (st : Status) : R b s (s.consumerEnd st)
  reportEnd (b : List Agent) (s : State) (st : Status) : R b s (s.reportEnd st)
  curveEnd (b : List Agent) (s : State) (data : List Byte) (st : Status) : R b s (s.curveEnd data st)
  syncEdge (b : List Agent) (s : State) (level : Bool) (time : Nat) : R b s (s.syncEdge level time)
  syncPulse (b : List Agent) (s : State) : R b s s.syncPulse
  flywheel (b : List Agent) (s : State) : R b s s.flywheel
  beginRecord (b : List Agent) (s : State) : R b s s.beginRecord
  recordEnd (b : List Agent) (s : State) (st : Status) : R b s (s.recordEnd st)
  producerEnd (b : List Agent) (s : State) (st : Status) : R b s (s.producerEnd st)
  engage (b : List Agent) (r : CmdArgs) (s : State) : R b s (engage r s).1
  goTransparent (b : List Agent) (s : State) : R b s s.goTransparent
  refRestart (b : List Agent) (s : State) : R b s (refRestart s).1
  eventMask (b : List Agent) (r : CmdArgs) (s : State) : R b s (eventMask r s).1
  markSetup (b : List Agent) (r : CmdArgs) (s : State) : R b s (markSetup r s).1
  clipQuery (b : List Agent) (r : CmdArgs) (s : State) : R b s (clipQuery r s).1
  queueReport (b : List Agent) (s : State) (a : Addr) (bytes : List Byte) : R b s (s.queueReport a bytes)
  panelCurve (b : List Agent) (r : CmdArgs) (s : State) : R b s (panelCurve r s).1
  panelBind (b : List Agent) (r : CmdArgs) (s : State) : R b s (panelBind r s).1
  panelTiming (b : List Agent) (r : CmdArgs) (s : State) : R b s (panelTiming r s).1
  levEdge (b : List Agent) (s : State) (p : PortId) (level : Bool) (time : Nat) : R b s (s.levEdge p level time)
  noEdgeExpiry (b : List Agent) (s : State) (p : PortId) : R b s (s.noEdgeExpiry p)
  jogLines (b : List Agent) (s : State) (p : PortId) (ja jb : Bool) (time : Nat) : R b s (s.jogLines p ja jb time)
  jogExpiry (b : List Agent) (s : State) (p : PortId) : R b s (s.jogExpiry p)
  keyChange (b : List Agent) (s : State) (p : PortId) (k : Key) (level : Bool) (time : Nat) : R b s (s.keyChange p k level time)
  keyExpiry (b : List Agent) (s : State) (p : PortId) (k : Key) : R b s (s.keyExpiry p k)
  headSource (b : List Agent) (r : CmdArgs) (s : State) : headBlock r ⊆ b → R b s (headSource r s).1
  headRate (b : List Agent) (r : CmdArgs) (s : State) : headBlock r ⊆ b → R b s (headRate r s).1
  headGoto (b : List Agent) (r : CmdArgs) (s : State) : headBlock r ⊆ b → R b s (headGoto r s).1
  idleHead (b : List Agent) (s : State) (d : HeadId) : .head d ∈ b → R b s (s.idleHead d)
  takeTakeover (b : List Agent) (s : State) (p : PortId) : s.noticed p ⊆ b → R b s (s.takeTakeover p)
  takePortLost (b : List Agent) (s : State) (p : PortId) : s.noticed p ⊆ b → R b s (s.takePortLost p)
  takeAttach (b : List Agent) (s : State) (d : HeadId) : .head d ∈ b → R b s (s.takeAttach d)
  takeHeadDetach (b : List Agent) (s : State) (d : HeadId) : .head d ∈ b → R b s (s.takeHeadDetach d)
  setup (b : List Agent) (r : CmdArgs) (s : State) : chanBlock r ⊆ b → R b s (channelSetup r s).1
  arm (b : List Agent) (r : CmdArgs) (s : State) : chanBlock r ⊆ b → R b s (channelArm r s).1
  stop (b : List Agent) (r : CmdArgs) (s : State) : chanBlock r ⊆ b → R b s (channelStop r s).1
  abort (b : List Agent) (s : State) (c : ChanId) (q : StopCause) :
    .channel c ∈ b → (s.chan c).busy = true → R b s (s.abortChannel c q)
  tick (b : List Agent) (s : State) (c : ChanId) (t : Word) : .channel c ∈ b → R b s (s.tickChannel c t)
  stray (b : List Agent) (s : State) (c : ChanId) : .channel c ∈ b → R b s (s.setChan c { s.chan c with stray := true })
  lock (b : List Agent) (s : State) (n r : Nat) : R b s (s.lock n r).1
  unlock (b : List Agent) (s : State) (n : Nat) : R b s (s.unlock n).1

/-- `R b` holds along the moves of a head's tick and of CHANNEL_CLEAR too, whatever their blocks. -/
structure AllMoves (R : List Agent → State → State → Prop) (Q : Tbl Clip → Prop) : Prop extends EventMoves R Q where
  beginTick (b : List Agent) (s : State) (d : HeadId) : R b s (s.beginTick d)
  unpinIf (b : List Agent) (s : State) (o : Option Nat) : R b s (s.unpinIf o)
  pin (b : List Agent) (s : State) (n r : Nat) : R b s (s.pin n r).1
  endTick (b : List Agent) (s : State) (d : HeadId) (m : Moved) (f : Fit) (x : Option Shown) (t : Word) : R b s (s.endTick d m f x t)
  empty (b : List Agent) (s : State) (n : Nat) : R b s (s.empty n).1
  indexClear (b : List Agent) (s : State) (lo n : Nat) : R b s (s.indexClear lo n)
  clearRecord (b : List Agent) (s : State) (c : ChanId) : R b s (s.clearRecord c)

/-! ## Programs -/

section
variable {R : List Agent → State → State → Prop} {Q : Tbl Clip → Prop}

theorem Prog.each_act {b : List Agent} {f : State → State} (hb : b.length ≤ 1) (h : ∀ s, R b s (f s)) : (Prog.act b f).Each R Q :=
  ⟨hb, fun s _ => ⟨h s, trivial⟩⟩

theorem Prog.each_read {α : Type} {b : List Agent} {f : State → Prog α} (hb : b.length ≤ 1) (hr : ∀ s, R b s s)
    (h : ∀ s : State, Q s.clips → (f s).Each R Q) : (Prog.read b f).Each R Q := ⟨hb, fun s hs => ⟨hr s, h s hs⟩⟩

theorem Prog.each_bind {α β : Type} {p : Prog α} {g : α → Prog β} (hp : p.Each R Q) (hg : ∀ a, (g a).Each R Q) : (p.bind g).Each R Q := by
  induction p with
  | done a => exact hg a
  | never => trivial
  | op b f next ih => exact ⟨hp.1, fun s hs => ⟨(hp.2 s hs).1, ih s (hp.2 s hs).2⟩⟩

theorem Prog.each_each {ι : Type} {b : ι → List Agent} {f : ι → State → State} {is : List ι} (hb : ∀ i, (b i).length ≤ 1)
    (h : ∀ i ∈ is, ∀ s, R (b i) s (f i s)) : (Prog.each b f is).Each R Q := by
  induction is with
  | nil => trivial
  | cons i is ih => exact ⟨hb i, fun s _ => ⟨h i (by simp) s, ih fun j hj => h j (by simp [hj])⟩⟩

end

section
variable {R : List Agent → State → State → Prop} {Q : Tbl Clip → Prop} (h : EventMoves R Q)
include h

theorem EventMoves.each_read {α : Type} {b : List Agent} {f : State → Prog α} (hb : b.length ≤ 1) (hf : ∀ s : State, Q s.clips → (f s).Each R Q) :
    (Prog.read b f).Each R Q := Prog.each_read hb (h.refl b) hf

/-- A program on a clip table of its own. -/
theorem EventMoves.each_onTable {α : Type} {p : Prog α} (hp : p.Each R Q) (cl : Tbl Clip) (hcl : Q cl) : (p.onTable cl).Each R Q := by
  induction p generalizing cl with
  | done a => trivial
  | never => trivial
  | op b f next ih =>
    refine ⟨hp.1, fun s _ => ?_⟩
    obtain ⟨hf, hnext⟩ := hp.2 { s with clips := cl } hcl
    refine ⟨?_, ih _ hnext _ (h.table hf hcl)⟩
    dsimp only
    split
    · exact h.trans (h.clips b s cl hcl) hf
    · exact h.aside hcl hf
    · exact h.aside hcl hf

/-! ### Commands at the processor -/

theorem EventMoves.fetched {b : List Agent} {s : State} {kind : Byte} {r : CmdArgs} {run : State → State}
    (hrun : ∀ u, R b u (run u)) : R b s (s.fetched kind r run) := by
  unfold State.fetched
  split
  · rename_i hproc _
    split
    · exact h.trans (h.leaveOwn b s _) (h.fetchFail b _)
    · exact h.trans (h.taken b s _ kind r hproc) (hrun _)
  · exact h.refl b s

theorem EventMoves.carryOut {b : List Agent} {s : State} {kind : Byte} {r : CmdArgs} {own : State → State × CmdResult}
    (hown : ∀ u, R b u (own u).1) : R b s (s.carryOut kind r own) :=
  h.fetched fun u => h.trans (hown u) (h.endCommand b _ _)

theorem EventMoves.carryOutLong {b : List Agent} {s : State} {kind : Byte} {r : CmdArgs} {own : State → State × Option CmdResult}
    (hown : ∀ u, R b u (own u).1) : R b s (s.carryOutLong kind r own) := by
  refine h.fetched fun u => ?_
  split
  · exact hown u
  · exact h.trans (hown u) (h.endCommand b _ _)

theorem EventMoves.ownComplete {b : List Agent} {s : State} {q : Requester} {st : Status} {f : Status → State → State}
    (hf : ∀ st u, R b u (f st u)) : R b s (s.ownComplete q st f) := by
  unfold State.ownComplete
  split
  · exact h.refl b s
  · exact h.trans (h.leaveOwn b s _) (hf _ _)

/-! ### Channels -/

theorem EventMoves.channelAbort {b : List Agent} (r : CmdArgs) (s : State) (hb : chanBlock r ⊆ b) : R b s (channelAbort r s).1 := by
  unfold Machine.channelAbort
  split
  · exact h.refl b s
  case h_2 c hc =>
    have hmem : Agent.channel c ∈ b := hb (by simp [chanBlock, hc])
    split
    · exact h.refl b s
    · dsimp only
      split
      · exact h.abort b s c _ hmem ‹_›
      · exact h.refl b s

theorem EventMoves.channelTick {b : List Agent} (s : State) (c : ChanId) (hb : .channel c ∈ b) : R b s (s.channelTick c) := by
  unfold State.channelTick
  split
  · exact h.refl b s
  · exact h.trans (h.mail b s _) (h.tick b _ c _ hb)

theorem EventMoves.raise (b : List Agent) (s : State) (k : EventKind) (why : Reason) (obj aux : Nat) (v : Word) :
    R b s (s.raise k why obj aux v) := h.raiseAt b s k why obj aux v _

theorem EventMoves.strayReport {b : List Agent} (s : State) (c : ChanId) (hb : .channel c ∈ b) : R b s (s.strayReport c) := by
  unfold State.strayReport
  split
  · exact h.refl b s
  · dsimp only
    split
    · exact h.mail b s _
    · exact h.trans (h.trans (h.mail b s _) (h.stray b _ c hb)) (h.raise b _ _ _ _ _ _)

theorem EventMoves.stopChannel {b : List Agent} (s : State) (c : ChanId) (hb : .channel c ∈ b) : R b s (s.stopChannel c) := by
  unfold State.stopChannel
  split
  · exact h.abort b s c _ hb ‹_›
  · exact h.refl b s

/-! ### The clip manager -/

theorem EventMoves.detachClip (b : List Agent) (s : State) (k : Nat) (o : Option HeadId) : R b s (s.detachClip k o) := by
  cases o with
  | none => exact h.refl b s
  | some d => exact h.mail b s _

theorem EventMoves.recordClose (b : List Agent) (s : State) (k o : Nat) (why : Reason) : R b s (s.recordClose k o why) :=
  h.trans (h.trans (h.setClip b s k _) (h.detachClip b _ k _)) (h.raise b _ _ _ _ _ _)

theorem EventMoves.recordDelete (b : List Agent) (s : State) (k : Nat) (why : Reason) : R b s (s.recordDelete k why) :=
  h.trans (h.trans (h.detachClip b s k _) (h.raise b _ _ _ _ _ _)) (h.setClip b _ k {})

theorem EventMoves.unlockAll (ns : List Nat) : (unlockAll ns).Each R Q := Prog.each_each (by simp) fun n _ s => h.unlock _ s n

theorem EventMoves.closeClip (s : State) (k o : Nat) (why : Reason) : (closeClip s k o why).Each R Q :=
  Prog.each_bind (h.unlockAll _) fun _ => Prog.each_act (by simp) fun t => h.recordClose _ t k o why

theorem EventMoves.deleteClip (s : State) (k : Nat) (why : Reason) : (deleteClip s k why).Each R Q :=
  Prog.each_bind (h.unlockAll _) fun _ => Prog.each_act (by simp) fun t => h.recordDelete _ t k why

theorem EventMoves.closeAll (b : List Agent) (s : State) (ks : List Nat) (why : Reason) : R b s (s.closeAll ks why) := by
  induction ks generalizing s with
  | nil => exact h.refl b s
  | cons k ks ih => exact h.trans (h.recordClose b s k _ why) (ih _)

/-! ### Marks -/

theorem EventMoves.remark (s : State) (d : HeadId) : (remark s d).Each R Q := by
  unfold Machine.remark
  split
  · trivial
  · split
    · exact h.closeClip s _ _ _
    · exact h.deleteClip s _ _

theorem EventMoves.build (m : MarkSource) (fuel r : Nat) (es : List Extent) : (build m fuel r es).Each R Q := by
  induction fuel generalizing r es with
  | zero => trivial
  | succ fuel ih =>
    refine h.each_read (by simp) fun s _ => ?_
    split
    · trivial
    · split
      · trivial
      · refine ⟨by simp, fun t _ => ⟨h.lock _ t _ _, ?_⟩⟩
        dsimp only
        split
        · exact ih _ _
        · trivial

theorem EventMoves.postOpened (b : List Agent) (s : State) (k : Nat) (why : Reason) : R b s (s.postOpened k why) :=
  h.raise b _ _ _ _ _ _

theorem EventMoves.makeIn (b : List Agent) (s : State) (d : HeadId) (k : Nat) (c : Clip) (src : Src) : R b s (s.makeIn d k c src) :=
  h.trans (h.trans (h.setClip b s k c) (h.mail b _ _)) (h.postOpened b _ k _)

theorem EventMoves.makeQuick (b : List Agent) (s : State) (k o target : Nat) (c : Clip) : R b s (s.makeQuick k o target c) :=
  h.trans (h.trans (h.trans (h.setClip b s k c) (h.postOpened b _ k _)) (h.setClip b _ k _)) (h.recordClose b _ k o _)

theorem EventMoves.markIn (s : State) (d : HeadId) (x : Shown) (m : MarkSource) : (markIn s d x m).Each R Q := by
  refine Prog.each_bind (h.remark s d) fun _ => h.each_read (by simp) fun u _ => ?_
  split
  · trivial
  · refine Prog.each_bind (h.build _ _ _ _) fun es => ?_
    split
    · trivial
    · exact ⟨by simp, fun t _ => ⟨h.makeIn _ t d _ _ _, trivial⟩⟩

theorem EventMoves.markOut (s : State) (d : HeadId) (x : Shown) : (markOut s d x).Each R Q := by
  unfold Machine.markOut
  split
  · trivial
  · dsimp only
    split
    · trivial
    · exact Prog.each_bind (h.unlockAll _) fun _ =>
        ⟨by simp, fun t _ => ⟨h.trans (h.setClip _ t _ _) (h.recordClose _ _ _ _ _), trivial⟩⟩

theorem EventMoves.markQuick (s : State) (x : Shown) (m : MarkSource) : (markQuick s x m).Each R Q := by
  unfold Machine.markQuick
  split
  · trivial
  · refine Prog.each_bind (h.build _ _ _ _) fun es => ?_
    split
    · trivial
    · dsimp only
      split
      · exact ⟨by simp, fun t _ => ⟨h.trans (h.setClip _ t _ _) (h.postOpened _ _ _ _), trivial⟩⟩
      · exact ⟨by simp, fun t _ => ⟨h.makeQuick _ t _ _ _ _, trivial⟩⟩

theorem EventMoves.markAt (s : State) (d : HeadId) (kind : MarkKind) : (markAt s d kind).Each R Q := by
  unfold Machine.markAt
  split
  · trivial
  · split
    · trivial
    · cases kind with
      | markIn => exact h.markIn s d _ _
      | markOut => exact h.markOut s d _
      | markQuick => exact h.markQuick s _ _

end

end Sys2Proof.Machine
end

section
/-! PROOFS. Every operation of every event is one of the moves; what every move keeps is kept by every step. -/

namespace Sys2Proof.Machine

section
variable {R : List Agent → State → State → Prop} {Q : Tbl Clip → Prop} (h : EventMoves R Q)
include h

/-! ### Marks, growth and the clip commands -/

theorem EventMoves.markCommand (r : CmdArgs) : (markCommand r).Each R Q := by
  unfold Machine.markCommand
  split
  · exact h.each_read (by simp) fun s hs => Prog.each_bind (h.each_onTable (h.markAt s _ _) s.clips hs) fun _ => trivial
  · trivial

theorem EventMoves.panelMark (p : PortId) : (panelMarkProg p).Each R Q := by
  refine ⟨by simp, fun s hs => ⟨h.mail _ s _, ?_⟩⟩
  dsimp only
  split
  · trivial
  · refine Prog.each_bind (h.each_onTable (h.markAt s _ _) s.clips hs) fun ans => ?_
    split
    · trivial
    · exact Prog.each_act (by simp) fun t => h.raise _ t _ _ _ _ _

theorem EventMoves.growClip (b : List Agent) (s : State) (k r p : Nat) : R b s (s.growClip k r p) := by
  unfold State.growClip
  dsimp only
  split
  · exact h.trans (h.setClip b s k _) (h.recordClose b _ k r _)
  · exact h.setClip b s k _

theorem EventMoves.growTaker (b : List Agent) (s : State) (k : Nat) (ks : List Nat) (r n p : Nat) :
    R b s (s.growTaker k ks r n p).1 := by
  have hl := h.lock b s n r
  unfold State.growTaker
  split
  · exact h.recordClose b s k _ _
  · split <;> rename_i heq <;> rw [heq] at hl
    · exact h.trans hl (h.growClip b _ k r p)
    · exact h.trans hl (h.closeAll b _ _ _)
    · exact h.trans hl (h.closeAll b _ _ _)

theorem EventMoves.growTakers (ks : List Nat) (r n p : Nat) : (growTakers ks r n p).Each R Q := by
  induction ks with
  | nil => trivial
  | cons k ks ih =>
    refine ⟨by simp, fun s _ => ⟨h.growTaker _ s k ks r n p, ?_⟩⟩
    dsimp only
    split
    · exact ih
    · trivial

theorem EventMoves.growFrame (c : ChanId) (r : Nat) : (growFrame c r).Each R Q := by
  refine ⟨by simp, fun s _ => ⟨?_, ?_⟩⟩
  · unfold State.growLookup
    dsimp only
    split
    · exact h.closeAll _ s _ _
    · exact h.refl _ s
  · dsimp only
    split
    · trivial
    · exact h.growTakers _ _ _ _

theorem EventMoves.growFrames (c : ChanId) (rs : List Nat) : (growFrames c rs).Each R Q := by
  induction rs with
  | nil => trivial
  | cons r rs ih => exact Prog.each_bind (h.growFrame c r) fun _ => ih

theorem EventMoves.arrival (c : ChanId) : (arrivalProg c).Each R Q := by
  refine ⟨by simp, fun s hs => ⟨?_, ?_⟩⟩
  · unfold State.popArrival
    dsimp only
    split
    · exact h.mail _ s _
    · exact h.refl _ s
    · exact h.refl _ s
  · dsimp only
    split
    · exact h.each_onTable (h.growFrames c _) s.clips hs
    · trivial
    · trivial

theorem EventMoves.takeStop (b : List Agent) (s : State) (c : ChanId) : R b s (s.takeStop c) := by
  unfold State.takeStop
  split
  · exact h.trans (h.mail b s _) (h.closeAll b _ _ _)
  · exact h.refl b s
  · exact h.refl b s

theorem EventMoves.takeDetach (b : List Agent) (s : State) (d : HeadId) : R b s (s.takeDetach d) := by
  unfold State.takeDetach
  split
  · exact h.refl b s
  · dsimp only
    split
    · exact h.trans (h.mail b s _) (h.setClip b _ _ _)
    · exact h.mail b s _

theorem EventMoves.clipClose (r : CmdArgs) : (clipClose r).Each R Q := by
  unfold Machine.clipClose
  split
  · trivial
  · refine h.each_read (by simp) fun s hs => ?_
    split
    · trivial
    · trivial
    · exact Prog.each_bind (h.each_onTable (h.closeClip s _ _ _) s.clips hs) fun _ => trivial

theorem EventMoves.clipDelete (r : CmdArgs) : (clipDelete r).Each R Q := by
  unfold Machine.clipDelete
  split
  · trivial
  · refine h.each_read (by simp) fun s hs => ?_
    split_ifs
    · trivial
    · trivial
    · exact Prog.each_bind (h.each_onTable (h.deleteClip s _ _) s.clips hs) fun _ => trivial

theorem EventMoves.clipTag (b : List Agent) (r : CmdArgs) (s : State) : R b s (clipTag r s).1 := by
  unfold Machine.clipTag
  split
  · exact h.refl b s
  · split_ifs
    · exact h.refl b s
    · exact h.refl b s
    · exact h.setClip b s _ _

/-! ### The commands taken part by part -/

theorem EventMoves.disengage : disengage.Each R Q := by
  have hchannels (cs : List ChanId) (n : Nat) : (disengageChannels cs n).Each R Q := by
    induction cs generalizing n with
    | nil => trivial
    | cons c cs ih => exact ⟨by simp, fun s _ => ⟨h.stopChannel s c (by simp), ih _⟩⟩
  refine ⟨by simp, fun s _ => ⟨h.goTransparent _ s, Prog.each_bind (hchannels _ _) fun _ => ?_⟩⟩
  exact Prog.each_bind (Prog.each_each (by simp) fun d _ s => h.idleHead _ s d (by simp)) fun _ => trivial

theorem EventMoves.statusSnapshot (r : CmdArgs) (order : List SnapPart) : (statusSnapshot r order).Each R Q := by
  have hparts (ps : List SnapPart) : (readParts ps).Each R Q := by
    induction ps with
    | nil => trivial
    | cons p ps ih => exact h.each_read (by simp) fun s _ => Prog.each_bind ih fun _ => trivial
  unfold Machine.statusSnapshot
  split
  · exact Prog.each_bind (hparts _) fun _ => ⟨by simp, fun s _ => ⟨h.queueReport _ s _ _, trivial⟩⟩
  · trivial

theorem EventMoves.longCommandProg {kind : Byte} {r : CmdArgs} {own : Prog (Option CmdResult)} (hown : own.Each R Q) :
    (longCommandProg kind r own).Each R Q := by
  refine ⟨by simp, fun s _ => ⟨h.fetched fun u => h.refl _ u, ?_⟩⟩
  dsimp only
  split
  · refine Prog.each_bind hown fun o => ?_
    cases o with
    | none => trivial
    | some o => exact Prog.each_act (by simp) fun t => h.endCommand _ t o
  · trivial

theorem EventMoves.commandProg {kind : Byte} {r : CmdArgs} {own : Prog CmdResult} (hown : own.Each R Q) :
    (commandProg kind r own).Each R Q :=
  h.longCommandProg (Prog.each_bind hown fun _ => trivial)

/-- The commands of the ring, by the code of their record (R167): CHANNEL_CLEAR is given apart. -/
theorem EventMoves.commandCourse (kind : Byte) (r : CmdArgs) (s : State)
    (hclear : kind.toNat = 8 → (Machine.commandProg kind r (Machine.channelClear r)).Each R Q) :
    (commandCourse kind r).EachFrom R Q s := by
  have hat {a b : List Agent} : a ⊆ a ++ b := List.subset_append_left a b
  unfold Machine.commandCourse
  split
  · exact h.carryOut fun u => h.engage _ r u
  · exact h.commandProg h.disengage
  · exact h.carryOut fun u => h.refRestart _ u
  · exact h.carryOut fun u => h.setup _ r u (List.Subset.refl _)
  · exact h.carryOut fun u => h.arm _ r u (List.Subset.refl _)
  · exact h.carryOut fun u => h.stop _ r u (List.Subset.refl _)
  · exact h.carryOut fun u => h.channelAbort r u (List.Subset.refl _)
  · exact hclear ‹_›
  · exact h.carryOut fun u => h.headSource _ r u hat
  · exact h.carryOut fun u => h.headRate _ r u (List.Subset.refl _)
  · exact h.carryOut fun u => h.headGoto _ r u (List.Subset.refl _)
  · exact h.commandProg (h.markCommand r)
  · exact h.carryOut fun u => h.markSetup _ r u
  · exact h.commandProg (h.clipClose r)
  · exact h.commandProg (h.clipDelete r)
  · exact h.carryOut fun u => h.clipTag _ r u
  · exact h.carryOutLong fun u => h.clipQuery _ r u
  · exact h.carryOut fun u => h.panelBind _ r u
  · exact h.carryOutLong fun u => h.panelCurve _ r u
  · exact h.carryOut fun u => h.panelTiming _ r u
  · exact h.carryOut fun u => h.eventMask _ r u
  · exact h.longCommandProg (h.statusSnapshot r [])
  · simp only [onceFree, Course.EachFrom, takeRow, execUnknownKind]
    split
    · exact h.refl _ s
    · exact h.carryOut fun u => h.refl _ u

/-- Every event but a head's tick and CHANNEL_CLEAR is made of moves. -/
theorem EventMoves.course (fuel : Nat) (s : State) (e : BlockEvent)
    (htick : ∀ d, e = .headTick d → (headTickProg d fuel).Each R Q)
    (hclear : ∀ kind r, e = .command kind r → kind.toNat = 8 → (Machine.commandProg kind r (Machine.channelClear r)).Each R Q) :
    (courseOf fuel s e).EachFrom R Q s := by
  cases e with
  | startUpWriteComplete w st => exact h.ownComplete fun st u => h.startUpEnd _ u w st
  | engineBurst b free => exact h.present _ s b free
  | strayWriteReport c => exact h.strayReport s c (by simp)
  | storePortIssue time => exact h.issue _ s time
  | passBurstComplete k st data => exact h.passComplete _ s k st data
  | cmdProducer => exact h.takeProducer _ s
  | evtConsumer => exact h.takeConsumer _ s
  | ownRequestTimeout k cause => exact h.ownTimeout _ s k cause
  | command kind r => exact h.commandCourse kind r s (hclear kind r rfl)
  | statusSnapshot r order => exact h.longCommandProg (h.statusSnapshot r order)
  | curveFetchComplete data st => exact h.ownComplete fun st u => h.curveEnd _ u data st
  | reportWriteComplete st => exact h.ownComplete fun st u => h.reportEnd _ u st
  | writeBackComplete st => exact h.ownComplete fun st u => h.writeBackEnd _ u st
  | cmdConsumerWriteComplete st => exact h.ownComplete fun st u => h.consumerEnd _ u st
  | syncInEdge level time => exact h.syncEdge _ s level time
  | syncPulse => exact h.syncPulse _ s
  | flywheelExpiry => exact h.flywheel _ s
  | channelTick c => exact h.channelTick s c (by simp)
  | headTick d => exact htick d rfl
  | takeoverNotice p => exact h.takeTakeover _ s p (List.Subset.refl _)
  | portLostNotice p => exact h.takePortLost _ s p (List.Subset.refl _)
  | attachNotice d => exact h.takeAttach _ s d (by simp)
  | headDetachNotice d => exact h.takeHeadDetach _ s d (by simp)
  | clipDetachNotice d => exact h.takeDetach _ s d
  | panelMark p => exact h.panelMark p
  | arrival c => exact h.arrival c
  | stopNotice c => exact h.takeStop _ s c
  | levEdge p level time => exact h.levEdge _ s p level time
  | noEdgeTimerExpiry p => exact h.noEdgeExpiry _ s p
  | jogLineChange p ja jb time => exact h.jogLines _ s p ja jb time
  | jogFilterExpiry p => exact h.jogExpiry _ s p
  | keyLineChange p key level time => exact h.keyChange _ s p key level time
  | keyDebounceExpiry p key => exact h.keyExpiry _ s p key
  | eventRecordWrite => exact h.beginRecord _ s
  | eventRecordWriteComplete st => exact h.ownComplete fun st u => h.recordEnd _ u st
  | evtProducerWriteComplete st => exact h.ownComplete fun st u => h.producerEnd _ u st

end

/-! ## A head's tick and CHANNEL_CLEAR -/

section
variable {R : List Agent → State → State → Prop} {Q : Tbl Clip → Prop} (h : AllMoves R Q)
include h

theorem AllMoves.pickFrame (d : HeadId) (before : Head) (m : Moved) (fuel : Nat) (v : Sight) (f : Fit) :
    (pickFrame d before m fuel v f).Each R Q := by
  induction fuel generalizing v f with
  | zero => trivial
  | succ fuel ih =>
    unfold Machine.pickFrame
    have hagain : (Prog.read [.head d] (fun s =>
        Machine.pickFrame d before m fuel (s.refit before m f).1 (s.refit before m f).2)).Each R Q :=
      h.each_read (by simp) fun s _ => ih _ _
    dsimp only
    split
    · trivial
    · refine h.each_read (by simp) fun s _ => ?_
      split
      · exact hagain
      · refine ⟨by simp, fun t _ => ⟨h.pin _ t _ _, ?_⟩⟩
        dsimp only
        split
        · trivial
        · exact hagain

theorem AllMoves.headTick (d : HeadId) (fuel : Nat) : (headTickProg d fuel).Each R Q := by
  refine ⟨by simp, fun s _ => ⟨h.beginTick _ s d, ?_⟩⟩
  have hsourced (t : Word) (i : PanelInput) : (tickSourced d fuel t i).Each R Q :=
    h.each_read (by simp) fun u _ => ⟨by simp, fun v _ => ⟨h.unpinIf _ v _, Prog.each_bind (h.pickFrame d _ _ _ _ _) fun x =>
      Prog.each_act (by simp) fun w => h.endTick _ w d _ _ _ _⟩⟩
  dsimp only
  split
  · trivial
  · split
    · trivial
    · exact hsourced _ _
    · exact hsourced _ _

theorem AllMoves.channelClear (r : CmdArgs) : (channelClear r).Each R Q := by
  unfold Machine.channelClear
  split
  · trivial
  · refine h.each_read (by simp) fun s _ => ?_
    split
    · trivial
    · exact Prog.each_bind (Prog.each_each (by simp) fun n _ u => h.empty _ u n) fun _ =>
        ⟨by simp, fun u _ => ⟨h.indexClear _ u _ _, by simp, fun v _ => ⟨h.clearRecord _ v _, trivial⟩⟩⟩

theorem AllMoves.allCourses (fuel : Nat) (s : State) (e : BlockEvent) : (courseOf fuel s e).EachFrom R Q s :=
  h.course fuel s e (fun d _ => h.headTick d fuel) fun _ r _ _ => h.commandProg (h.channelClear r)

end

/-! ## What every move keeps -/

/-- What a property of states keeps along a move, whatever its blocks. -/
def Keeping (P : State → Prop) (_ : List Agent) (s t : State) : Prop := P s → P t

theorem Prog.Each.mono {α : Type} {R R' : List Agent → State → State → Prop} {Q : Tbl Clip → Prop}
    (hr : ∀ {b s t}, R b s t → R' b s t) {p : Prog α} (h : p.Each R Q) : p.Each R' Q := by
  induction p with
  | done a => trivial
  | never => trivial
  | op b f next ih => exact ⟨h.1, fun s hs => ⟨hr (h.2 s hs).1, ih s (h.2 s hs).2⟩⟩

/-- A program whose operations are moves that begin and end with their blocks idle keeps the discipline. -/
theorem Discipline.goes_of_each {Γ : Type} {D : Discipline Γ} {p : Prog Unit} {Q : Tbl Clip → Prop} (hq : ∀ x, D.Inv x → Q x.1.clips)
    (h : p.Each D.Move Q) {l : List Agent} {x : State × Γ} (hidle : ∀ a ∈ l, D.Idle a x) : D.Goes p l x := by
  induction p generalizing l x with
  | done a => trivial
  | never => trivial
  | op b f next ih =>
    refine ⟨h.1, fun y hrely hnew hinv => .inr ?_⟩
    obtain ⟨hmove, hnext⟩ := h.2 y.1 (hq y hinv)
    have hb : ∀ a ∈ b, D.Idle a y := fun a ha => by
      by_cases hl : a ∈ l
      · exact D.stable (hrely a hl) (hidle a hl)
      · exact hnew a ha hl
    obtain ⟨g, hinv', hrely', hidle'⟩ := hmove y.2 hinv hb
    refine ⟨g, hinv', hrely', fun a ha _ => hidle' a ha, ih y.1 hnext fun a ha => hidle' a ?_⟩
    revert ha
    cases next y.1 with
    | done u => simp [Prog.stays]
    | never => simp [Prog.stays]
    | op b' f' next' => exact fun ha => (List.mem_filter.mp ha).1

/-- Every event begun where `P` holds keeps it. -/
def keepingDiscipline (P : State → Prop) : Discipline Unit where
  Inv x := P x.1
  Idle _ _ := True
  Rely _ _ _ := True
  refl _ _ := trivial
  trans _ _ := trivial
  stable _ _ := trivial

theorem keepingDiscipline_move {P : State → Prop} {b : List Agent} {s t : State} (h : Keeping P b s t) :
    (keepingDiscipline P).Move b s t := fun g hs _ => ⟨g, h hs, fun _ _ => trivial, fun _ _ => trivial⟩

/-- What every move keeps is kept by every step. -/
theorem AllMoves.step {P : State → Prop} {Q : Tbl Clip → Prop} (h : AllMoves (Keeping P) Q) (hq : ∀ s, P s → Q s.clips)
    (hqueue : ∀ (s : State) q, P s → P { s with pending := q })
    (hreset : ∀ s cbsel evtFirst, P s → P (State.released s cbsel evtFirst)) {s t : State} (hs : P s) (ht : step s = .next t) :
    P t := by
  have hbegins (fuel : Nat) (u : State) (e : BlockEvent) : (keepingDiscipline P).Begins u (courseOf fuel u e) := by
    have hcourse := h.allCourses fuel u e
    cases hc : courseOf fuel u e with
    | once b f =>
      rw [hc] at hcourse
      exact keepingDiscipline_move hcourse
    | steps who p =>
      rw [hc] at hcourse
      exact fun g _ => Discipline.goes_of_each (fun x hx => hq x.1 hx) (hcourse.mono keepingDiscipline_move) (by simp)
  refine KeptByEvents.step ⟨hqueue, hreset, fun {fuel u e b f} hc hu => ?_, fun hu hw => ?_⟩ hs ht
  · have hcourse := h.allCourses fuel u e
    rw [hc] at hcourse
    exact hcourse hu
  · obtain ⟨_, hv, _⟩ := Discipline.weave hbegins (g := ()) hu (fun _ => trivial) hw
    exact hv

end Sys2Proof.Machine
end

section
/-! PROOFS. Relations that hold along every change beside the books, and properties of the books that every operation on them keeps. -/

namespace Sys2Proof.Machine

/-- `R b` holds along each change that leaves the books alone, and along each move that an event makes on them at the blocks `b`. -/
structure BookMoves (R : List Agent → State → State → Prop) (Q : Tbl Clip → Prop) : Prop where
  trans {b : List Agent} {s t u : State} : R b s t → R b t u → R b s u
  table {b : List Agent} {s t : State} : R b s t → Q s.clips → Q t.clips
  clips (b : List Agent) (s : State) (cl : Tbl Clip) : Q cl → R b s { s with clips := cl }
  aside {b : List Agent} {s u : State} {cl : Tbl Clip} : Q cl → R b { s with clips := cl } u → R b s { u with clips := s.clips }
  setClip (b : List Agent) (s : State) (k : Nat) (x : Clip) : R b s (s.setClip k x)
  beside (b : List Agent) {s t : State} : t.SameBooks s → R b s t
  headSource (b : List Agent) (r : CmdArgs) (s : State) : headBlock r ⊆ b → R b s (headSource r s).1
  headRate (b : List Agent) (r : CmdArgs) (s : State) : headBlock r ⊆ b → R b s (headRate r s).1
  headGoto (b : List Agent) (r : CmdArgs) (s : State) : headBlock r ⊆ b → R b s (headGoto r s).1
  idleHead (b : List Agent) (s : State) (d : HeadId) : .head d ∈ b → R b s (s.idleHead d)
  takeTakeover (b : List Agent) (s : State) (p : PortId) : s.noticed p ⊆ b → R b s (s.takeTakeover p)
  takePortLost (b : List Agent) (s : State) (p : PortId) : s.noticed p ⊆ b → R b s (s.takePortLost p)
  takeAttach (b : List Agent) (s : State) (d : HeadId) : .head d ∈ b → R b s (s.takeAttach d)
  takeHeadDetach (b : List Agent) (s : State) (d : HeadId) : .head d ∈ b → R b s (s.takeHeadDetach d)
  setup (b : List Agent) (r : CmdArgs) (s : State) : chanBlock r ⊆ b → R b s (channelSetup r s).1
  arm (b : List Agent) (r : CmdArgs) (s : State) : chanBlock r ⊆ b → R b s (channelArm r s).1
  stop (b : List Agent) (r : CmdArgs) (s : State) : chanBlock r ⊆ b → R b s (channelStop r s).1
  abort (b : List Agent) (s : State) (c : ChanId) (q : StopCause) :
    .channel c ∈ b → (s.chan c).busy = true → R b s (s.abortChannel c q)
  tick (b : List Agent) (s : State) (c : ChanId) (t : Word) : .channel c ∈ b → R b s (s.tickChannel c t)
  stray (b : List Agent) (s : State) (c : ChanId) : .channel c ∈ b → R b s (s.setChan c { s.chan c with stray := true })
  lock (b : List Agent) (s : State) (n r : Nat) : R b s (s.lock n r).1
  unlock (b : List Agent) (s : State) (n : Nat) : R b s (s.unlock n).1

/-- What holds along every change beside the books holds along the moves of the units and of the panel ports. -/
theorem BookMoves.events {R : List Agent → State → State → Prop} {Q : Tbl Clip → Prop} (h : BookMoves R Q) : EventMoves R Q where
  refl b s := h.beside b (.of rfl)
  trans := h.trans
  table := h.table
  clips := h.clips
  aside := h.aside
  setClip := h.setClip
  mail b s m := h.beside b (.of (by rfl))
  raiseAt b s k why obj aux v t := h.beside b (.of (by rfl))
  taken b s k kind r _ := h.beside b (s.taken_units k kind r).toSameBooks
  leaveOwn b s k := h.beside b (.of (by rfl))
  fetchFail b s := h.beside b s.fetchFail_units.toSameBooks
  endCommand b s o := h.beside b (s.endCommand_units o).toSameBooks
  startUpEnd b s w st := h.beside b (s.startUpEnd_units w st).toSameBooks
  present b s x free := h.beside b (s.present_units x free).toSameBooks
  issue b s time := h.beside b (s.issue_units time).toSameBooks
  passComplete b s k st data := h.beside b (s.passComplete_units k st data).toSameBooks
  takeProducer b s := h.beside b s.takeProducer_units.toSameBooks
  takeConsumer b s := h.beside b s.takeConsumer_units.toSameBooks
  ownTimeout b s k cause := h.beside b (s.ownTimeout_units k cause).toSameBooks
  writeBackEnd b s st := h.beside b (s.writeBackEnd_units st).toSameBooks
  consumerEnd b s st := h.beside b (s.consumerEnd_units st).toSameBooks
  reportEnd b s st := h.beside b (s.reportEnd_units st).toSameBooks
  curveEnd b s data st := h.beside b (s.curveEnd_books data st)
  syncEdge b s level time := h.beside b (s.syncEdge_units level time).toSameBooks
  syncPulse b s := h.beside b s.syncPulse_units.toSameBooks
  flywheel b s := h.beside b s.flywheel_units.toSameBooks
  beginRecord b s := h.beside b s.beginRecord_units.toSameBooks
  recordEnd b s st := h.beside b (s.recordEnd_units st).toSameBooks
  producerEnd b s st := h.beside b (s.producerEnd_units st).toSameBooks
  engage b r s := h.beside b (engage_units r s).toSameBooks
  goTransparent b s := h.beside b (.of (by rfl))
  refRestart b s := h.beside b (.of (by rfl))
  eventMask b r s := h.beside b (eventMask_units r s).toSameBooks
  markSetup b r s := h.beside b (.of (by rfl))
  clipQuery b r s := h.beside b (clipQuery_units r s).toSameBooks
  queueReport b s a bytes := h.beside b (s.queueReport_units a bytes).toSameBooks
  panelCurve b r s := h.beside b (panelCurve_units r s).toSameBooks
  panelBind b r s := h.beside b (panelBind_books r s)
  panelTiming b r s := h.beside b (panelTiming_books r s)
  levEdge b s p level time := h.beside b (s.levEdge_books p level time)
  noEdgeExpiry b s p := h.beside b (s.noEdgeExpiry_books p)
  jogLines b s p ja jb time := h.beside b (.of (by rfl))
  jogExpiry b s p := h.beside b (s.jogExpiry_books p)
  keyChange b s p k level time := h.beside b (s.keyChange_books p k level time)
  keyExpiry b s p k := h.beside b (s.keyExpiry_books p k)
  headSource := h.headSource
  headRate := h.headRate
  headGoto := h.headGoto
  idleHead := h.idleHead
  takeTakeover := h.takeTakeover
  takePortLost := h.takePortLost
  takeAttach := h.takeAttach
  takeHeadDetach := h.takeHeadDetach
  setup := h.setup
  arm := h.arm
  stop := h.stop
  abort := h.abort
  tick := h.tick
  stray := h.stray
  lock := h.lock
  unlock := h.unlock

/-! ## Properties of the books -/

/-- `P` is kept by a change beside the books, by RESET_N, by any change of the heads, and by each operation on the books that the
events are made of; the clip tables that the events leave have `Q`. -/
structure BooksKept (P : State → Prop) (Q : Tbl Clip → Prop) : Prop where
  beside {s t : State} : t.SameBooks s → P s → P t
  reset (s : State) (cbsel : BitVec 4) (evtFirst : Bool) : P s → P (s.released cbsel evtFirst)
  heads (s : State) (v : Vector Head 4) : P s → P { s with heads := v }
  clips (s : State) (cl : Tbl Clip) : Q cl → P s → P { s with clips := cl }
  setClip (s : State) (k : Nat) (x : Clip) : P s → P (s.setClip k x)
  aside {s u : State} {cl : Tbl Clip} : Q cl → (P { s with clips := cl } → P u) → P s → P { u with clips := s.clips }
  hasTable {s : State} : P s → Q s.clips
  table {s t : State} : (P s → P t) → Q s.clips → Q t.clips
  setup (r : CmdArgs) (s : State) : P s → P (channelSetup r s).1
  arm (r : CmdArgs) (s : State) : P s → P (channelArm r s).1
  stop (r : CmdArgs) (s : State) : P s → P (channelStop r s).1
  abort (s : State) (c : ChanId) (q : StopCause) : (s.chan c).busy = true → P s → P (s.abortChannel c q)
  tick (s : State) (c : ChanId) (t : Word) : P s → P (s.tickChannel c t)
  stray (s : State) (c : ChanId) : P s → P (s.setChan c { s.chan c with stray := true })
  clearRecord (s : State) (c : ChanId) : P s → P (s.clearRecord c)
  indexClear (s : State) (lo n : Nat) : P s → P (s.indexClear lo n)
  empty (s : State) (n : Nat) : P s → P (s.empty n).1
  lock (s : State) (n r : Nat) : P s → P (s.lock n r).1
  unlock (s : State) (n : Nat) : P s → P (s.unlock n).1
  pin (s : State) (n r : Nat) : P s → P (s.pin n r).1
  unpin (s : State) (n : Nat) : P s → P (s.unpin n).1

/-- `P` is kept by a change beside the books, by any change of the heads, and by an unpin. -/
structure HeadsKept (P : State → Prop) : Prop where
  beside {s t : State} : t.SameBooks s → P s → P t
  heads (s : State) (v : Vector Head 4) : P s → P { s with heads := v }
  unpin (s : State) (n : Nat) : P s → P (s.unpin n).1

section
variable {P : State → Prop} (h : HeadsKept P)
include h

theorem HeadsKept.units {s t : State} (hu : t.UnitsOnly s) (hs : P s) : P t := h.beside hu.toSameBooks hs

theorem HeadsKept.setHead (s : State) (d : HeadId) (x : Head) (hs : P s) : P (s.setHead d x) := h.heads s _ hs

theorem HeadsKept.unpinIf (s : State) (o : Option Nat) (hs : P s) : P (s.unpinIf o) := by
  cases o with
  | none => exact hs
  | some n => exact h.unpin s n hs

theorem HeadsKept.headSource (r : CmdArgs) (s : State) (hs : P s) : P (headSource r s).1 := by
  have hdetach (u : State) (d : HeadId) (x : Head) (hu : P u) : P ((u.detachHead d).setHead d x) :=
    h.setHead _ d x (h.units (u.detachHead_units d) hu)
  unfold Machine.headSource
  split
  · exact hs
  · split
    · exact hs
    · split
      · exact hdetach _ _ _ (h.unpinIf s _ hs)
      · split
        · exact hs
        · split_ifs
          · exact hs
          · exact hs
          · exact hdetach s _ _ hs
      · split_ifs
        · exact hs
        · exact hs
        · exact hdetach s _ _ hs
        · exact hdetach s _ _ hs
      · exact hs

theorem HeadsKept.headRate (r : CmdArgs) (s : State) (hs : P s) : P (headRate r s).1 := by
  unfold Machine.headRate
  split
  · exact hs
  · split_ifs
    · exact hs
    · exact hs
    · exact h.setHead s _ _ hs

theorem HeadsKept.headGoto (r : CmdArgs) (s : State) (hs : P s) : P (headGoto r s).1 := by
  unfold Machine.headGoto
  split
  · exact hs
  · split_ifs
    · exact hs
    · exact hs
    · exact hs
    · exact h.setHead s _ _ hs

theorem HeadsKept.idleHead (s : State) (d : HeadId) (hs : P s) : P (s.idleHead d) := by
  unfold State.idleHead
  dsimp only
  split
  · exact h.setHead _ d _ (h.unpinIf s _ hs)
  all_goals exact h.setHead _ d _ (h.units (State.detachHead_units _ d) (h.unpinIf _ _ (h.unpinIf s _ hs)))

theorem HeadsKept.takeTakeover (s : State) (p : PortId) (hs : P s) : P (s.takeTakeover p) := by
  unfold State.takeTakeover
  split
  · dsimp only
    split
    · exact h.beside (.of (by rfl)) (h.setHead (s.setMail _) _ _ (h.beside (.of (by rfl)) hs))
    · exact h.beside (.of (by rfl)) hs
  · exact hs
  · exact hs

theorem HeadsKept.takePortLost (s : State) (p : PortId) (hs : P s) : P (s.takePortLost p) := by
  unfold State.takePortLost
  split
  · dsimp only
    split
    · exact h.setHead _ _ _ (h.beside (.of (by rfl)) hs)
    · exact h.beside (.of (by rfl)) hs
  · exact hs
  · exact hs

theorem HeadsKept.takeAttach (s : State) (d : HeadId) (hs : P s) : P (s.takeAttach d) := by
  unfold State.takeAttach
  split
  · dsimp only
    split
    · exact h.setHead _ _ _ (h.beside (.of (by rfl)) hs)
    · exact h.beside (.of (by rfl)) hs
  · exact hs
  · exact hs

theorem HeadsKept.takeHeadDetach (s : State) (d : HeadId) (hs : P s) : P (s.takeHeadDetach d) := by
  unfold State.takeHeadDetach
  split
  · dsimp only
    split
    · exact h.setHead _ _ _ (h.beside (.of (by rfl)) hs)
    · exact h.beside (.of (by rfl)) hs
  · exact hs
  · exact hs

theorem HeadsKept.beginTick (s : State) (d : HeadId) (hs : P s) : P (s.beginTick d) := by
  unfold State.beginTick State.tickIdle
  split
  · exact hs
  · dsimp only
    split
    · exact h.setHead _ d _ (h.unpinIf _ _ (h.beside ((State.clearJog_books _ d).trans (.of (by rfl))) hs))
    · exact h.beside ((State.tickInput_books _ d _).trans (.of (by rfl))) hs
    · exact h.beside ((State.tickInput_books _ d _).trans (.of (by rfl))) hs

end

section
variable {P : State → Prop} {Q : Tbl Clip → Prop} (h : BooksKept P Q)
include h

/-- The head commands, the notices and the first operation of a tick keep `P`. -/
theorem BooksKept.head : HeadsKept P where
  beside := h.beside
  heads := h.heads
  unpin := h.unpin

/-- The operations on the books keep `P`, whatever their blocks. -/
theorem BooksKept.moves : BookMoves (Keeping P) Q where
  trans h1 h2 hs := h2 (h1 hs)
  table := h.table
  clips _ s cl hcl := h.clips s cl hcl
  aside := h.aside
  setClip _ s k x := h.setClip s k x
  beside _ _ _ hb := h.beside hb
  headSource _ r s _ := h.head.headSource r s
  headRate _ r s _ := h.head.headRate r s
  headGoto _ r s _ := h.head.headGoto r s
  idleHead _ s d _ := h.head.idleHead s d
  takeTakeover _ s p _ := h.head.takeTakeover s p
  takePortLost _ s p _ := h.head.takePortLost s p
  takeAttach _ s d _ := h.head.takeAttach s d
  takeHeadDetach _ s d _ := h.head.takeHeadDetach s d
  setup _ r s _ := h.setup r s
  arm _ r s _ := h.arm r s
  stop _ r s _ := h.stop r s
  abort _ s c q _ := h.abort s c q
  tick _ s c t _ := h.tick s c t
  stray _ s c _ := h.stray s c
  lock _ s n r := h.lock s n r
  unlock _ s n := h.unlock s n

/-- The operations on the books keep `P`, those of a head's tick and of CHANNEL_CLEAR among them. -/
theorem BooksKept.all : AllMoves (Keeping P) Q where
  toEventMoves := h.moves.events
  beginTick _ s d := h.head.beginTick s d
  unpinIf _ s o := h.head.unpinIf s o
  pin _ s n r := h.pin s n r
  endTick _ s d m f x t hs := h.head.units (State.postFit_units _ d f t) (h.head.setHead s d _ hs)
  empty _ s n := h.empty s n
  indexClear _ s lo n := h.indexClear s lo n
  clearRecord _ s c := h.clearRecord s c

/-- What the operations on the books keep is kept by every step. -/
theorem BooksKept.step {s t : State} (hs : P s) (ht : step s = .next t) : P t :=
  h.all.step (fun _ => h.hasTable) (fun _ _ => h.beside (.of (by rfl))) h.reset hs ht

end

end Sys2Proof.Machine
end

section
/-! PROOFS. The work of a record channel as operations on slots and changes of its record that leave its loop; the laws of the
tables, of the slot records, of the loops, of the numbering and of the locked counts. -/

namespace Sys2Proof.Machine

/-! ## Changes of a channel's record that leave its loop -/

/-- `x` has the loop of `y`, its fitted numbers and its locked count, is OFF as it is, and keeps the cursor in the loop. -/
structure Channel.SameLoop (x y : Channel) : Prop where
  off : x.state = .off ↔ y.state = .off
  firstSlot : x.firstSlot = y.firstSlot
  len : x.len = y.len
  phases : x.phases = y.phases
  reserve : x.reserve = y.reserve
  locked : x.locked = y.locked
  cursor : y.cursor < y.len → x.cursor < x.len

/-- What a channel's record says of its loop, with the locked count. -/
def Channel.loop (ch : Channel) : Nat × Nat × Nat × Nat × Nat := (ch.firstSlot, ch.len, ch.phases, ch.reserve, ch.locked)

theorem Channel.SameLoop.of {x y : Channel} (h : x.loop = y.loop) (off : x.state = .off ↔ y.state = .off)
    (cursor : y.cursor < y.len → x.cursor < x.len) : x.SameLoop y := by
  simp only [Channel.loop, Prod.mk.injEq] at h
  obtain ⟨hfirst, hlen, hphases, hreserve, hlocked⟩ := h
  exact ⟨off, hfirst, hlen, hphases, hreserve, hlocked, cursor⟩

/-- `x` is `y` after the allocation walk: the cursor moves in the loop, the tail goes up within the next RFN (R35, R36). -/
structure Channel.Walked (x y : Channel) : Prop where
  same : x = { y with cursor := x.cursor, tail := x.tail }
  tail_le : y.tail ≤ x.tail
  tail : y.tail ≤ y.nextRfn → x.tail ≤ y.nextRfn
  cursor : y.cursor < y.len → x.cursor < y.len

theorem Channel.Walked.refl {x : Channel} : x.Walked x := ⟨by cases x; trivial, Nat.le_refl _, id, id⟩

theorem Channel.Walked.trans {x y z : Channel} (h : x.Walked y) (h' : y.Walked z) : x.Walked z := by
  have hn : y.nextRfn = z.nextRfn := by rw [h'.same]
  have hl : y.len = z.len := by rw [h'.same]
  refine ⟨by rw [h.same, h'.same], Nat.le_trans h'.tail_le h.tail_le, fun ht => ?_, fun hc => ?_⟩
  · exact hn ▸ h.tail (hn ▸ h'.tail ht)
  · exact hl ▸ h.cursor (hl ▸ h'.cursor hc)

/-- What a walk of channel `c` makes of the channel records of `s`. -/
structure State.WalkedBy (t s : State) (c : ChanId) : Prop where
  own : (t.chan c).Walked (s.chan c)
  others : ∀ d, d ≠ c → t.chan d = s.chan d

theorem State.WalkedBy.trans {s t u : State} {c : ChanId} (h : u.WalkedBy t c) (h' : t.WalkedBy s c) : u.WalkedBy s c :=
  ⟨h.own.trans h'.own, fun d hd => (h.others d hd).trans (h'.others d hd)⟩

theorem State.moveTail_walked (s : State) (c : ChanId) (n : Nat) (lost : Option Nat) : (s.moveTail c n lost).WalkedBy s c := by
  unfold State.moveTail
  split
  · exact ⟨.refl, fun _ _ => rfl⟩
  · split
    case isTrue hq =>
      obtain ⟨htail, hnext, _⟩ := hq
      refine ⟨?_, fun d hd => by simp [hd]⟩
      simp only [State.setChan_chan, if_true]
      exact ⟨rfl, Nat.le_succ_of_le htail, fun _ => hnext, id⟩
    case isFalse => exact ⟨.refl, fun _ _ => rfl⟩

theorem walk_walked (fuel : Nat) (c : ChanId) (fresh : List Nat) (pos : Nat) (need got : List Nat) (s : State) :
    (walk fuel c fresh pos need got s).1.WalkedBy s c := by
  induction fuel generalizing pos need got s with
  | zero => exact ⟨.refl, fun _ _ => rfl⟩
  | succ fuel ih =>
    cases need with
    | nil => exact ⟨.refl, fun _ _ => rfl⟩
    | cons r rs =>
      have htake (d : ChanId) := s.take_chan ((s.chan c).firstSlot + pos) r d
      unfold Machine.walk
      split
      · exact ih _ _ _ _
      · split
        case h_1 t lost heq =>
          rw [heq] at htake
          obtain ⟨hown, hothers⟩ := State.moveTail_walked t c ((s.chan c).firstSlot + pos) lost
          have hlen : ((t.moveTail c ((s.chan c).firstSlot + pos) lost).chan c).len = (s.chan c).len := by
            rw [hown.same, htake]
          refine (ih _ _ _ _).trans ⟨?_, fun d hd => ?_⟩
          · refine Channel.Walked.trans (y := (t.moveTail c ((s.chan c).firstSlot + pos) lost).chan c) ?_ (htake c ▸ hown)
            simp only [State.setChan_chan, if_true]
            refine ⟨rfl, Nat.le_refl _, id, fun hc => ?_⟩
            rw [hlen] at hc ⊢
            exact Nat.mod_lt _ (Nat.zero_lt_of_lt hc)
          · simp only [State.setChan_chan, if_neg hd, hothers d hd, htake]
        case h_2 t x heq =>
          rw [heq] at htake
          exact (ih _ _ _ _).trans ⟨htake c ▸ .refl, fun d _ => htake d⟩

/-- The allocation moves cursor and tail and sets the phase slot list. -/
theorem State.allocate_chan (s : State) (c : ChanId) (fresh : List Nat) :
    ∃ x : Channel, x.Walked (s.chan c) ∧
      ∀ d, (s.allocate c fresh).chan d =
        if d = c then
          { x with phaseSlots := (walk (s.chan c).len c fresh (s.chan c).cursor (s.chan c).period [] s).2 }
        else s.chan d := by
  have hw := walk_walked (s.chan c).len c fresh (s.chan c).cursor (s.chan c).period [] s
  refine ⟨_, hw.own, fun d => ?_⟩
  unfold State.allocate
  simp only [State.setChan_chan]
  split
  · rfl
  · exact hw.others d ‹_›

/-- `P` is kept by what the channels do: they raise events and hand on notices, change their records but for the loop, and make slot
operations. -/
structure ChannelKept (P : State → Prop) : Prop where
  raiseAt (s : State) (k : EventKind) (why : Reason) (src a : Nat) (b tick : Word) : P s → P (s.raiseAt k why src a b tick)
  mail (s : State) (m : Mail) : P s → P (s.setMail m)
  record (s : State) (c : ChanId) (x : Channel) : x.SameLoop (s.chan c) → P s → P (s.setChan c x)
  take (s : State) (n r : Nat) : P s → P (s.take n r).1
  commit (s : State) (n : Nat) : P s → P (s.commit n).1
  empty (s : State) (n : Nat) : P s → P (s.empty n).1

/-- `P` is kept by changes beside the books, by each operation of the slot table and the index pool, by CHANNEL_SETUP, and by a
change of a channel's record that leaves its loop; the clip tables have `Q`. -/
structure LoopsKept (P : State → Prop) (Q : Tbl Clip → Prop) : Prop where
  beside {s t : State} : t.SameBooks s → P s → P t
  record (s : State) (c : ChanId) (x : Channel) : x.SameLoop (s.chan c) → P s → P (s.setChan c x)
  take (s : State) (n r : Nat) : P s → P (s.take n r).1
  commit (s : State) (n : Nat) : P s → P (s.commit n).1
  empty (s : State) (n : Nat) : P s → P (s.empty n).1
  reset (s : State) (cbsel : BitVec 4) (evtFirst : Bool) : P s → P (s.released cbsel evtFirst)
  heads (s : State) (v : Vector Head 4) : P s → P { s with heads := v }
  clips (s : State) (cl : Tbl Clip) : Q cl → P s → P { s with clips := cl }
  setClip (s : State) (k : Nat) (x : Clip) : P s → P (s.setClip k x)
  aside {s u : State} {cl : Tbl Clip} : Q cl → (P { s with clips := cl } → P u) → P s → P { u with clips := s.clips }
  hasTable {s : State} : P s → Q s.clips
  table {s t : State} : (P s → P t) → Q s.clips → Q t.clips
  setup (r : CmdArgs) (s : State) : P s → P (channelSetup r s).1
  indexClear (s : State) (lo n : Nat) : P s → P (s.indexClear lo n)
  lock (s : State) (n r : Nat) : P s → P (s.lock n r).1
  unlock (s : State) (n : Nat) : P s → P (s.unlock n).1
  pin (s : State) (n r : Nat) : P s → P (s.pin n r).1
  unpin (s : State) (n : Nat) : P s → P (s.unpin n).1

section
variable {P : State → Prop} (h : ChannelKept P)
include h

theorem ChannelKept.tellClips (s : State) (c : ChanId) (n : ChanNote) (hs : P s) : P (s.tellClips c n) := h.mail s _ hs

theorem ChannelKept.moveTail (s : State) (c : ChanId) (n : Nat) (lost : Option Nat) (hs : P s) : P (s.moveTail c n lost) := by
  unfold State.moveTail
  split
  · exact hs
  · split
    · exact h.record s c _ (.of rfl .rfl id) hs
    · exact hs

theorem ChannelKept.walk (fuel : Nat) (c : ChanId) (fresh : List Nat) (pos : Nat) (need got : List Nat) (s : State) (hs : P s) :
    P (walk fuel c fresh pos need got s).1 := by
  induction fuel generalizing pos need got s with
  | zero => exact hs
  | succ fuel ih =>
    cases need with
    | nil => exact hs
    | cons r rs =>
      have ht := h.take s ((s.chan c).firstSlot + pos) r hs
      have hlen := congrArg Channel.len (s.take_chan ((s.chan c).firstSlot + pos) r c)
      unfold Machine.walk
      split
      · exact ih _ _ _ _ hs
      · split
        case h_1 t lost heq =>
          rw [heq] at ht hlen
          have hmove := congrArg Channel.len (State.moveTail_walked t c ((s.chan c).firstSlot + pos) lost).own.same
          refine ih _ _ _ _ (h.record _ c _ (.of rfl .rfl fun hc => ?_) (h.moveTail t c _ _ ht))
          rw [hmove.trans hlen] at hc ⊢
          exact Nat.mod_lt _ (Nat.zero_lt_of_lt hc)
        case h_2 t x heq =>
          rw [heq] at ht
          exact ih _ _ _ _ ht

theorem ChannelKept.allocate (s : State) (c : ChanId) (fresh : List Nat) (hs : P s) : P (s.allocate c fresh) :=
  h.record _ c _ (.of rfl .rfl id) (h.walk _ c fresh _ _ _ s hs)

theorem ChannelKept.commitPeriod (s : State) (c : ChanId) (hs : P s) : P (s.commitPeriod c) := by
  have hcommits (ns : List Nat) (u : State) (hu : P u) : P (u.commitAll ns) := by
    induction ns generalizing u with
    | nil => exact hu
    | cons n ns ih => exact ih _ (h.commit u n hu)
  exact h.tellClips _ c _ (h.record _ c _ (.of rfl .rfl id) (hcommits _ s hs))

theorem ChannelKept.endRecording (s : State) (c : ChanId) (q : StopCause) (t : Word) (hoff : (s.chan c).state ≠ .off) (hs : P s) :
    P (s.endRecording c q t) :=
  h.tellClips _ c _ (h.raiseAt _ _ _ _ _ _ _ (h.record s c _ (.of rfl (by simpa) id) hs))

theorem ChannelKept.emptyAll (s : State) (ns : List Nat) (hs : P s) : P (s.emptyAll ns) := by
  induction ns generalizing s with
  | nil => exact hs
  | cons n ns ih => exact ih _ (h.empty s n hs)

end

/-- The state of a channel that is ARMED, RECORDING or STOPPING. -/
theorem Channel.busy_iff (ch : Channel) : ch.busy = true ↔ ch.state = .armed ∨ ch.state = .recording ∨ ch.state = .stopping := by
  unfold Channel.busy
  split <;> simp_all

@[simp] theorem State.commitPeriod_chan (s : State) (c d : ChanId) :
    (s.commitPeriod c).chan d =
      if d = c then { s.chan c with nextRfn := (s.chan c).nextRfn + (s.chan c).phases } else s.chan d := by
  have hc (e : ChanId) : (s.commitAll (s.chan c).phaseSlots).chan e = s.chan e := by
    rw [State.commitAll_frame]
    rfl
  show ((s.commitAll (s.chan c).phaseSlots).setChan c _).chan d = _
  simp only [State.setChan_chan, hc]

theorem ChannelKept.tickChannel {P : State → Prop} (h : ChannelKept P) (s : State) (c : ChanId) (t : Word)
    (hs : P s) : P (s.tickChannel c t) := by
  have h0 : P (s.setChan c { s.chan c with stray := false }) := h.record s c _ (.of rfl .rfl id) hs
  unfold State.tickChannel
  revert h0
  generalize s.setChan c { s.chan c with stray := false } = u
  intro hu
  dsimp only
  split
  · exact hu
  · exact hu
  case h_3 harmed =>
    obtain ⟨x, hx, hchan⟩ := u.allocate_chan c []
    have hstate : x.state = .armed := by rw [hx.same, ← harmed]
    refine h.raiseAt _ _ _ _ _ _ _ (h.record _ c _ (.of rfl ?_ id) (h.allocate u c [] hu))
    simp [hchan, hstate]
  case h_4 hrec =>
    split
    · exact h.endRecording _ c _ t (by simp [hrec]) (h.commitPeriod u c hu)
    · exact h.allocate _ c _ (h.commitPeriod u c hu)
  case h_5 hstop => exact h.endRecording _ c _ t (by simp [hstop]) (h.commitPeriod u c hu)

section
variable {P : State → Prop} (h : ChannelKept P)
include h

theorem ChannelKept.abortChannel (s : State) (c : ChanId) (q : StopCause) (hbusy : (s.chan c).busy = true) (hs : P s) :
    P (s.abortChannel c q) := by
  refine h.endRecording _ c q _ ?_ (h.emptyAll s _ hs)
  rw [Channel.busy_iff] at hbusy
  rw [State.emptyAll_chan]
  rcases hbusy with hb | hb | hb <;> simp [hb]

theorem ChannelKept.channelArm (r : CmdArgs) (s : State) (hs : P s) : P (channelArm r s).1 := by
  have hset {c : ChanId} (st : ChanState) (hst : st ≠ .off) (hc : (s.chan c).state ≠ .off) :
      P (s.setChan c { s.chan c with state := st }) := h.record s c _ (.of rfl (iff_of_false hst hc) id) hs
  unfold Machine.channelArm
  split
  · exact hs
  · dsimp only
    split_ifs
    · exact hs
    · exact hs
    · split
      · exact hs
      · exact hset _ (by simp) (by simp [*])
      · exact hs
      · exact hs
      · exact hset _ (by simp) (by simp [*])

theorem ChannelKept.channelStop (r : CmdArgs) (s : State) (hs : P s) : P (channelStop r s).1 := by
  unfold Machine.channelStop
  split
  · exact hs
  · dsimp only
    split
    · exact hs
    · exact hs
    · exact h.endRecording s _ _ _ (by simp [*]) hs
    · exact h.record s _ _ (.of rfl (by simp [*]) id) hs
    · exact hs

end

section
variable {P : State → Prop} {Q : Tbl Clip → Prop} (h : LoopsKept P Q)
include h

/-- The work of the channels keeps `P`. -/
theorem LoopsKept.channel : ChannelKept P where
  raiseAt _ _ _ _ _ _ _ := h.beside (.of (by rfl))
  mail _ _ := h.beside (.of (by rfl))
  record := h.record
  take := h.take
  commit := h.commit
  empty := h.empty

/-- The work of the channels is made of operations on slots and changes that leave the loops. -/
theorem LoopsKept.books : BooksKept P Q where
  beside := h.beside
  reset := h.reset
  heads := h.heads
  clips := h.clips
  setClip := h.setClip
  aside := h.aside
  hasTable := h.hasTable
  table := h.table
  setup := h.setup
  arm := h.channel.channelArm
  stop := h.channel.channelStop
  abort := h.channel.abortChannel
  tick := h.channel.tickChannel
  stray s c := h.record s c _ (.of rfl .rfl id)
  clearRecord s c := h.record s c _ (.of rfl .rfl fun hc => Nat.zero_lt_of_lt hc)
  indexClear := h.indexClear
  empty := h.empty
  lock := h.lock
  unlock := h.unlock
  pin := h.pin
  unpin := h.unpin

end

/-! ## The tables -/

/-- The slot table and the index pool are in their one form. -/
def State.slotTablesWf (s : State) : Prop := Tbl.wf {} s.slots ∧ Tbl.wf {} s.index

/-- The clip table is in its one form. -/
def State.clipTableWf (s : State) : Prop := Tbl.wf {} s.clips

theorem State.slotTablesWf_setSlot (s : State) (n : Nat) (x : Slot) (h : s.slotTablesWf) : (s.setSlot n x).slotTablesWf :=
  ⟨Tbl.wf_write _ _ _ _ h.1, h.2⟩

theorem State.slotTablesWf_countLocked (s : State) (n : Nat) (f : Nat → Nat) (h : s.slotTablesWf) :
    (s.countLocked n f).slotTablesWf := by
  rw [State.countLocked_frame]
  exact h

theorem State.slotTablesWf_setEntry (s : State) (i : Nat) (x : IndexEntry) (h : s.slotTablesWf) : (s.setEntry i x).slotTablesWf :=
  ⟨h.1, Tbl.wf_write _ _ _ _ h.2⟩

theorem State.slotTablesWf_indexCommit (s : State) (n : Nat) (h : s.slotTablesWf) : (s.indexCommit n).slotTablesWf := by
  unfold State.indexCommit
  split
  · exact h
  · exact s.slotTablesWf_setEntry _ _ h

/-- Every operation on the books keeps the one form of the slot table and the index pool. -/
theorem slotTablesWf_kept : LoopsKept State.slotTablesWf (fun _ => True) where
  beside hb hs := by
    unfold State.slotTablesWf
    rw [hb.slots, hb.index]
    exact hs
  reset s cb ef _ := ⟨Tbl.wf_nil _, Tbl.wf_nil _⟩
  heads _ _ hs := hs
  clips _ _ _ hs := hs
  setClip _ _ _ hs := hs
  aside _ h hs := h hs
  hasTable _ := trivial
  table _ _ := trivial
  setup r s hs := by
    unfold channelSetup
    split
    · exact hs
    · split_ifs
      · exact hs
      · exact hs
      · exact hs
      · exact hs
      · exact ⟨hs.1, Tbl.wf_clear _ _ _ _ hs.2⟩
  record _ _ _ _ hs := hs
  indexClear s lo n hs := ⟨hs.1, Tbl.wf_clear _ _ _ _ hs.2⟩
  take s n r hs := by
    rcases s.take_cases n r with ⟨_, _, _, _, h⟩ | ⟨_, h⟩ <;> rw [h]
    · exact s.slotTablesWf_setSlot _ _ hs
    · exact hs
  commit s n hs := by
    rcases s.commit_cases n with ⟨_, h⟩ | ⟨_, h⟩ <;> rw [h]
    · exact State.slotTablesWf_setSlot _ _ _ (s.slotTablesWf_indexCommit n hs)
    · exact hs
  empty s n hs := by
    rcases s.empty_cases n with ⟨_, h⟩ | ⟨_, h⟩ | ⟨_, _, h⟩ <;> rw [h]
    · exact s.slotTablesWf_setSlot _ _ hs
    · exact hs
    · exact hs
  lock s n r hs := by
    rcases s.lock_cases n r with ⟨_, _, _, _, h⟩ | ⟨_, _, _, _, h⟩ | ⟨_, h⟩ <;> rw [h]
    · exact State.slotTablesWf_setSlot _ _ _ (s.slotTablesWf_countLocked n _ hs)
    · exact s.slotTablesWf_setSlot _ _ hs
    · exact hs
  unlock s n hs := by
    rcases s.unlock_cases n with ⟨_, h⟩ | ⟨_, h⟩ | ⟨_, h⟩ <;> rw [h]
    · exact State.slotTablesWf_setSlot _ _ _ (s.slotTablesWf_countLocked n _ hs)
    · exact s.slotTablesWf_setSlot _ _ hs
    · exact hs
  pin s n r hs := by
    rcases s.pin_cases n r with ⟨_, _, _, h⟩ | ⟨_, h⟩ <;> rw [h]
    · exact s.slotTablesWf_setSlot _ _ hs
    · exact hs
  unpin s n hs := by
    rcases s.unpin_cases n with ⟨_, h⟩ | ⟨_, h⟩ <;> rw [h]
    · exact s.slotTablesWf_setSlot _ _ hs
    · exact hs

theorem State.clipTableWf_congr {s t : State} (h : t.clips = s.clips) (hs : s.clipTableWf) : t.clipTableWf := by
  unfold State.clipTableWf
  rw [h]
  exact hs

/-- Every operation on the books keeps the one form of the clip table, on a copy of it too. -/
theorem clipTableWf_kept : LoopsKept State.clipTableWf (Tbl.wf {}) where
  beside hb := State.clipTableWf_congr hb.clips
  reset s cb ef _ := Tbl.wf_nil _
  heads _ _ hs := hs
  clips _ _ hcl _ := hcl
  setClip _ _ _ hs := Tbl.wf_write _ _ _ _ hs
  aside _ _ hs := hs
  hasTable hs := hs
  table h := h
  setup r s hs := by
    unfold channelSetup
    split
    · exact hs
    · split_ifs <;> exact hs
  record _ _ _ _ hs := hs
  indexClear _ _ _ hs := hs
  take s n r := State.clipTableWf_congr (by rw [State.take_frame])
  commit s n := State.clipTableWf_congr (by rw [State.commit_frame])
  empty s n := State.clipTableWf_congr (by rw [State.empty_frame])
  lock s n r := State.clipTableWf_congr (by rw [State.lock_frame])
  unlock s n := State.clipTableWf_congr (by rw [State.unlock_frame])
  pin s n r := State.clipTableWf_congr (by rw [State.pin_frame])
  unpin s n := State.clipTableWf_congr (by rw [State.unpin_frame])

/-! ## The slot records -/

theorem State.slot_congr {s t : State} (h : t.slots = s.slots) (n : Nat) : t.slot n = s.slot n := by
  unfold State.slot
  rw [h]

theorem State.chan_congr {s t : State} (h : t.chans = s.chans) (c : ChanId) : t.chan c = s.chan c := by
  unfold State.chan
  rw [h]

theorem State.head_congr {s t : State} (h : t.heads = s.heads) (d : HeadId) : t.head d = s.head d := by
  unfold State.head
  rw [h]

theorem State.entry_congr {s t : State} (h : t.index = s.index) (i : Nat) : t.entry i = s.entry i := by
  unfold State.entry
  rw [h]

theorem State.slotsLawful_congr {s t : State} (h : t.slots = s.slots) (hs : s.slotsLawful) : t.slotsLawful := by
  intro n
  rw [State.slot_congr h]
  exact hs n

theorem State.slotsLawful_setSlot {s : State} {n : Nat} {x : Slot} (hx : x.lawful) (hs : s.slotsLawful) :
    (s.setSlot n x).slotsLawful := by
  intro m
  rw [State.setSlot_slot]
  split
  · exact hx
  · exact hs m

/-- An EMPTY slot without frame, locks and pins, or one RECORDING, obeys the laws. -/
theorem Slot.lawful_of_not_held {x : Slot} (hs : x.state ≠ .held) (he : x.state = .empty → x.rfn = 0) (hl : x.locks = 0)
    (hp : x.pins = 0) : x.lawful :=
  ⟨fun _ => ⟨hl, hp⟩, he, by simp [hl], by simp [hp]⟩

/-- A HELD slot within the limits of its counts obeys the laws. -/
theorem Slot.lawful_of_held {x : Slot} (hs : x.state = .held) (hl : x.locks ≤ Config.maxLocks) (hp : x.pins ≤ Config.maxPins) :
    x.lawful :=
  ⟨fun h => absurd hs h, fun h => by simp [h] at hs, hl, hp⟩

/-- A slot with locks or pins is HELD. -/
theorem Slot.held_of_used {x : Slot} (h : x.lawful) (hu : x.locks ≠ 0 ∨ x.pins ≠ 0) : x.state = .held := by
  obtain ⟨hfree, _, _, _⟩ := h
  by_contra hx
  have := hfree hx
  omega

/-- Every operation on the books keeps the laws of the slot records. -/
theorem slotsLawful_kept : LoopsKept State.slotsLawful (fun _ => True) where
  beside hb hs := State.slotsLawful_congr hb.slots hs
  reset s cb ef _ _ := Slot.lawful_of_not_held (x := {}) (by decide) (fun _ => rfl) rfl rfl
  heads _ _ hs := hs
  clips _ _ _ hs := hs
  setClip _ _ _ hs := hs
  aside _ h hs := h hs
  hasTable _ := trivial
  table _ _ := trivial
  setup r s hs := by
    unfold channelSetup
    split
    · exact hs
    · split_ifs <;> exact hs
  record _ _ _ _ hs := hs
  indexClear _ _ _ hs := hs
  take s n r hs := by
    rcases s.take_cases n r with ⟨_, _, _, _, h⟩ | ⟨_, h⟩ <;> rw [h]
    · exact State.slotsLawful_setSlot (Slot.lawful_of_not_held (by simp) (by simp) rfl rfl) hs
    · exact hs
  commit s n hs := by
    rcases s.commit_cases n with ⟨_, h⟩ | ⟨_, h⟩ <;> rw [h]
    · refine State.slotsLawful_setSlot (Slot.lawful_of_held rfl (hs n).2.2.1 (hs n).2.2.2) ?_
      rw [State.indexCommit_frame]
      exact hs
    · exact hs
  empty s n hs := by
    rcases s.empty_cases n with ⟨_, h⟩ | ⟨_, h⟩ | ⟨_, _, h⟩ <;> rw [h]
    · exact State.slotsLawful_setSlot (Slot.lawful_of_not_held (by simp) (by simp) rfl rfl) hs
    · exact hs
    · exact hs
  lock s n r hs := by
    obtain ⟨_, _, _, hp⟩ := hs n
    rcases s.lock_cases n r with ⟨hh, _, _, _, h⟩ | ⟨hh, _, _, hl, h⟩ | ⟨_, h⟩ <;> rw [h]
    · refine State.slotsLawful_setSlot (Slot.lawful_of_held hh (by simp [Config.maxLocks]) hp) ?_
      rw [State.countLocked_frame]
      exact hs
    · exact State.slotsLawful_setSlot (Slot.lawful_of_held hh hl hp) hs
    · exact hs
  unlock s n hs := by
    obtain ⟨_, _, hl, hp⟩ := hs n
    have hheld (h0 : (s.slot n).locks ≠ 0) : (s.slot n).state = .held := Slot.held_of_used (hs n) (.inl h0)
    rcases s.unlock_cases n with ⟨h1, h⟩ | ⟨h1, h⟩ | ⟨_, h⟩ <;> rw [h]
    · refine State.slotsLawful_setSlot (Slot.lawful_of_held (hheld (by omega)) (Nat.zero_le _) hp) ?_
      rw [State.countLocked_frame]
      exact hs
    · exact State.slotsLawful_setSlot (Slot.lawful_of_held (hheld (by omega)) (Nat.le_trans (Nat.sub_le _ _) hl) hp) hs
    · exact hs
  pin s n r hs := by
    obtain ⟨_, _, hl, _⟩ := hs n
    rcases s.pin_cases n r with ⟨hh, _, hp, h⟩ | ⟨_, h⟩ <;> rw [h]
    · exact State.slotsLawful_setSlot (Slot.lawful_of_held hh hl hp) hs
    · exact hs
  unpin s n hs := by
    obtain ⟨_, _, hl, hp⟩ := hs n
    have hheld (h0 : (s.slot n).pins ≠ 0) : (s.slot n).state = .held := Slot.held_of_used (hs n) (.inr h0)
    rcases s.unpin_cases n with ⟨h1, h⟩ | ⟨_, h⟩ <;> rw [h]
    · exact State.slotsLawful_setSlot (Slot.lawful_of_held (hheld (by omega)) hl (Nat.le_trans (Nat.sub_le _ _) hp)) hs
    · exact hs

/-- Settles O4: every operation on the books writes the tables in their one form. -/
theorem everyStepKeepsTheTablesForm : Obligations.EveryStepKeepsTheTablesForm := by
  unfold Obligations.EveryStepKeepsTheTablesForm
  exact fun s t ⟨hslots, hindex, hclips⟩ ht =>
    have hkept := slotTablesWf_kept.books.step (s := s) ⟨hslots, hindex⟩ ht
    ⟨hkept.1, hkept.2, clipTableWf_kept.books.step hclips ht⟩

/-- Settles O5: every operation on the books writes slot records that obey the laws. -/
theorem everyStepKeepsTheSlotLaws : Obligations.EveryStepKeepsTheSlotLaws := by
  unfold Obligations.EveryStepKeepsTheSlotLaws
  exact fun _ _ hs ht => slotsLawful_kept.books.step hs ht

end Sys2Proof.Machine
end

section
/-! PROOFS. The loops stay well shaped and apart, the numbering keeps the RFN limit, and the locked counts stay true. -/

namespace Sys2Proof.Machine

/-! ## What CHANNEL_SETUP can do -/

/-- The record CHANNEL_SETUP with `L = 0` leaves (R22). -/
def Channel.turnedOff (ch : Channel) : Channel :=
  { ch with state := .off, firstSlot := 0, len := 0, reserve := 0, cursor := 0, nextRfn := 0, tail := 0, phases := 1,
            phaseSlots := [] }

/-- The record CHANNEL_SETUP leaves for a loop of `n` slots from `f` (R24). -/
def Channel.setUp (ch : Channel) (f n p v : Nat) : Channel :=
  { ch with state := .ready, firstSlot := f, len := n, phases := p, reserve := v, cursor := 0, nextRfn := 0, tail := 0,
            phaseSlots := [] }

/-- CHANNEL_SETUP leaves the state as it is, turns its channel off, or gives it a loop that lies free of the others. -/
theorem channelSetup_cases (r : CmdArgs) (s : State) :
    (channelSetup r s).1 = s ∨
      ∃ c, s.setupTaken c ∧
        ((channelSetup r s).1 = s.setChan c (s.chan c).turnedOff ∨
          ∃ f n p v, s.loopFree c f n ∧ Config.minLoop ≤ n ∧ f + n ≤ Config.slotCount ∧ p ∈ [1, 2, 3, 4, 6, 8] ∧
            2 * p + 8 ≤ v ∧ v ≤ n / 2 ∧
            (channelSetup r s).1 = (s.indexClear f n).setChan c ((s.chan c).setUp f n p v)) := by
  unfold channelSetup
  split
  · exact .inl rfl
  · rename_i c _
    split_ifs with hmay hzero hbad hover
    · exact .inl rfl
    · exact .inr ⟨c, (s.mayResetLoop_iff c).mp (by simpa using hmay), .inl rfl⟩
    · exact .inl rfl
    · exact .inl rfl
    · have hfree : s.loopFree c r.a.toNat r.b.toNat := (s.loopOverlaps_eq_false c _ _).mp (by simpa using hover)
      have hphases := fittedPhases_fitPhases r.c.toNat
      have hle := fitPhases_le r.c.toNat
      have hreserve := fittedTo_clampNat (2 * fitPhases r.c.toNat + 8) (r.b.toNat / 2) r.d.toNat
        (by simp only [Config.minLoop] at hbad; omega)
      refine .inr ⟨c, (s.mayResetLoop_iff c).mp (by simpa using hmay), .inr ⟨_, _, _, _, hfree, by omega, by omega, hphases.1, ?_, ?_, rfl⟩⟩
      · unfold fittedTo at hreserve
        omega
      · unfold fittedTo at hreserve
        omega

/-! ## The loops -/

theorem Channel.shaped_iff (ch : Channel) :
    ch.shaped ↔ ch.phases ∈ [1, 2, 3, 4, 6, 8] ∧ (ch.state = .off → ch.len = 0) ∧
      (ch.state ≠ .off → Config.minLoop ≤ ch.len ∧ ch.firstSlot + ch.len ≤ Config.slotCount ∧ 2 * ch.phases + 8 ≤ ch.reserve ∧
        ch.reserve ≤ ch.len / 2 ∧ ch.cursor < ch.len) := by
  unfold Channel.shaped
  cases ch.state <;> simp

theorem State.geometryOk_congr {s t : State} (h : ∀ c, t.chan c = s.chan c) (hs : s.geometryOk) : t.geometryOk := by
  obtain ⟨hshaped, hapart⟩ := hs
  exact ⟨fun c => h c ▸ hshaped c, fun c d n => by rw [h, h]; exact hapart c d n⟩

/-- A channel may be given a record in shape that owns nothing of another channel. -/
theorem State.geometryOk_setChan {s : State} {c : ChanId} {x : Channel} (hx : x.shaped)
    (hown : ∀ n, x.owns n = true → ∀ d, d ≠ c → (s.chan d).owns n ≠ true) (hs : s.geometryOk) : (s.setChan c x).geometryOk := by
  obtain ⟨hshaped, hapart⟩ := hs
  refine ⟨fun d => ?_, fun d e n hde hboth => ?_⟩
  · rw [State.setChan_chan]
    split
    · exact hx
    · exact hshaped d
  · obtain ⟨hd, he⟩ := hboth
    rw [State.setChan_chan] at hd he
    split_ifs at hd he with h1 h2 h2
    · exact hde (h1.trans h2.symm)
    · exact hown n hd e h2 he
    · exact hown n he d h1 hd
    · exact hapart d e n hde ⟨hd, he⟩

theorem Channel.SameLoop.owns {x y : Channel} (h : x.SameLoop y) (n : Nat) : x.owns n = y.owns n := by
  rw [Bool.eq_iff_iff, Channel.owns_iff, Channel.owns_iff, h.firstSlot, h.len, Ne, h.off]

/-- What a change of a record keeps of a loop, without the locked count. -/
theorem State.geometryOk_sameLoop {s : State} {c : ChanId} {x : Channel} {l : Nat}
    (hx : x.SameLoop { s.chan c with locked := l }) (hs : s.geometryOk) : (s.setChan c x).geometryOk := by
  obtain ⟨hshaped, hapart⟩ := hs
  refine State.geometryOk_setChan ?_ (fun n hn d hd hboth => ?_) ⟨hshaped, hapart⟩
  · obtain ⟨hphases, hoff, hon⟩ := (Channel.shaped_iff _).mp (hshaped c)
    have hcursor : (s.chan c).cursor < (s.chan c).len → x.cursor < x.len := hx.cursor
    have hst : x.state = .off ↔ (s.chan c).state = .off := hx.off
    rw [Channel.shaped_iff, hx.phases, hx.firstSlot, hx.reserve, Ne, hst]
    refine ⟨hphases, fun h => hx.len ▸ hoff h, fun h => ?_⟩
    obtain ⟨h1, h2, h3, h4, h5⟩ := hon h
    refine ⟨hx.len ▸ h1, hx.len ▸ h2, h3, hx.len ▸ h4, hcursor h5⟩
  · rw [hx.owns n] at hn
    exact hapart c d n hd.symm ⟨hn, hboth⟩

theorem State.geometryOk_countLocked {s : State} (n : Nat) (f : Nat → Nat) (hs : s.geometryOk) : (s.countLocked n f).geometryOk := by
  unfold State.countLocked
  split
  · exact hs
  · rename_i c _
    exact State.geometryOk_sameLoop (l := f (s.chan c).locked) (.of rfl .rfl id) hs

theorem channelSetup_geometryOk (r : CmdArgs) {s : State} (hs : s.geometryOk) : (channelSetup r s).1.geometryOk := by
  rcases channelSetup_cases r s with h | ⟨c, _, h | ⟨f, n, p, v, hfree, hmin, hmax, hp, hv, hv', h⟩⟩ <;> rw [h]
  · exact hs
  · refine State.geometryOk_setChan ?_ (fun m hm => ?_) hs
    · rw [Channel.shaped_iff]
      exact ⟨by simp [Channel.turnedOff], fun _ => rfl, fun h => absurd rfl h⟩
    · rw [Channel.owns_iff] at hm
      exact absurd rfl hm.1
  · refine State.geometryOk_setChan ?_ (fun m hm d hd hboth => ?_) hs
    · rw [Channel.shaped_iff]
      exact ⟨hp, fun h => by simp [Channel.setUp] at h, fun _ => ⟨hmin, hmax, hv, hv', Nat.lt_of_lt_of_le (show 0 < 64 by decide) hmin⟩⟩
    · obtain ⟨_, hlo, hhi⟩ := (Channel.owns_iff _ _).mp hm
      obtain ⟨hoff, hlo', hhi'⟩ := (Channel.owns_iff _ _).mp hboth
      have hlo : f ≤ m := hlo
      have hhi : m < f + n := hhi
      have hlo' : (s.chan d).firstSlot ≤ m := hlo'
      have hhi' : m < (s.chan d).firstSlot + (s.chan d).len := hhi'
      have := hfree d hd hoff
      omega

/-- Every operation on the books keeps the loops in shape and apart. -/
theorem geometryOk_kept : LoopsKept State.geometryOk (fun _ => True) where
  beside hb := State.geometryOk_congr (State.chan_congr hb.chans)
  reset s cb ef _ := by
    have hchan (c : ChanId) : (s.released cb ef).chan c = {} := by
      show (Vector.replicate 8 ({} : Channel)).get c = {}
      simp [Vector.get]
    refine ⟨fun c => ?_, fun c d n _ hboth => ?_⟩
    · rw [hchan, Channel.shaped_iff]
      simp
    · rw [hchan, Channel.owns_iff] at hboth
      exact hboth.1.1 rfl
  heads _ _ hs := hs
  clips _ _ _ hs := hs
  setClip _ _ _ hs := hs
  aside _ h hs := h hs
  hasTable _ := trivial
  table _ _ := trivial
  setup r _ := channelSetup_geometryOk r
  record s c x hx hs := State.geometryOk_sameLoop (l := (s.chan c).locked) hx hs
  indexClear _ _ _ hs := hs
  take s n r := State.geometryOk_congr (s.take_chan n r)
  commit s n := State.geometryOk_congr fun c => by rw [State.commit_frame]; rfl
  empty s n := State.geometryOk_congr fun c => by rw [State.empty_frame]; rfl
  lock s n r hs := by
    rcases s.lock_cases n r with ⟨_, _, _, _, h⟩ | ⟨_, _, _, _, h⟩ | ⟨_, h⟩ <;> rw [h]
    · exact State.geometryOk_countLocked n _ hs
    · exact hs
    · exact hs
  unlock s n hs := by
    rcases s.unlock_cases n with ⟨_, h⟩ | ⟨_, h⟩ | ⟨_, h⟩ <;> rw [h]
    · exact State.geometryOk_countLocked n _ hs
    · exact hs
    · exact hs
  pin s n r := State.geometryOk_congr fun c => by rw [State.pin_frame]; rfl
  unpin s n := State.geometryOk_congr fun c => by rw [State.unpin_frame]; rfl

/-- Settles O7: every operation on the books keeps the loops in shape and apart. -/
theorem everyStepKeepsTheLoopGeometry : Obligations.EveryStepKeepsTheLoopGeometry := by
  unfold Obligations.EveryStepKeepsTheLoopGeometry
  exact fun _ _ hs ht => geometryOk_kept.books.step hs ht

/-! ## The locked counts -/

/-- The slot laws, the loops and the locked counts, which every step keeps together. -/
def State.lockBooks (s : State) : Prop := s.slotsLawful ∧ s.geometryOk ∧ s.locksAgree

/-- A count over a list without repeats goes up by one where its test turns true at one member. -/
theorem length_filter_turned {ns : List Nat} {n : Nat} {p q : Nat → Bool} (hnd : ns.Nodup) (hn : n ∈ ns)
    (hp : p n = false) (hq : q n = true) (hpq : ∀ m, m ≠ n → q m = p m) :
    (ns.filter q).length = (ns.filter p).length + 1 := by
  induction ns with
  | nil => simp at hn
  | cons m ns ih =>
    obtain ⟨hm, hnd⟩ := List.nodup_cons.mp hnd
    by_cases hmn : m = n
    · subst hmn
      have hrest : ns.filter q = ns.filter p := List.filter_congr fun k hk => hpq k (fun e => hm (e ▸ hk))
      simp [hp, hq, hrest]
    · have hn' : n ∈ ns := (List.mem_cons.mp hn).resolve_left (Ne.symm hmn)
      simp only [List.filter_cons, hpq m hmn]
      split <;> simp [ih hnd hn']

theorem Channel.loopSlots_nodup (ch : Channel) : ch.loopSlots.Nodup :=
  List.nodup_range.map (fun a b h => by simpa using h)

theorem State.lockedSlots_congr {s t : State} {c : ChanId} (hl : (t.chan c).loopSlots = (s.chan c).loopSlots)
    (hn : ∀ n ∈ (s.chan c).loopSlots, ((t.slot n).locks = 0 ↔ (s.slot n).locks = 0)) : t.lockedSlots c = s.lockedSlots c := by
  unfold State.lockedSlots
  rw [hl]
  exact congrArg List.length (List.filter_congr fun n hm => by simp [hn n hm])

theorem Channel.SameLoop.loopSlots {x y : Channel} (h : x.SameLoop y) : x.loopSlots = y.loopSlots := by
  unfold Channel.loopSlots
  rw [h.firstSlot, h.len]

theorem Channel.SameLoop.refl {x : Channel} : x.SameLoop x := .of rfl .rfl id

/-- Locked counts stay true where no slot turns locked or unlocked and no loop changes. -/
theorem State.locksAgree_of_same {s t : State} (hs : s.locksAgree) (hn : ∀ n, (t.slot n).locks = 0 ↔ (s.slot n).locks = 0)
    (hc : ∀ c, (t.chan c).SameLoop (s.chan c)) : t.locksAgree := by
  obtain ⟨hcount, howner⟩ := hs
  refine ⟨fun c => ?_, fun n hl => ?_⟩
  · rw [State.lockedSlots_congr (hc c).loopSlots fun n _ => hn n, (hc c).locked, (hc c).len, (hc c).reserve]
    exact hcount c
  · rw [State.ownerOf_congr fun c => (hc c).owns n]
    exact howner n (fun h => hl ((hn n).mpr h))

/-- A member of a loop that is in shape is owned. -/
theorem State.owns_of_mem_loopSlots {s : State} (hs : s.geometryOk) {c : ChanId} {n : Nat} (h : n ∈ (s.chan c).loopSlots) :
    (s.chan c).owns n = true := by
  obtain ⟨_, hoff, _⟩ := (Channel.shaped_iff _).mp (hs.1 c)
  rw [Channel.mem_loopSlots] at h
  exact (Channel.owns_iff _ _).mpr ⟨fun e => by have := hoff e; omega, h⟩

/-- One slot turns locked and its owner counts it, within the allowance. -/
theorem State.locksAgree_turned {s t : State} {n : Nat} {c : ChanId} (hgeo : s.geometryOk) (howner : s.ownerOf n = some c)
    (hloop : ∀ d, (t.chan d).loopSlots = (s.chan d).loopSlots) (hother : ∀ m, m ≠ n → (t.slot m).locks = (s.slot m).locks)
    (hs : (s.slot n).locks = 0) (ht : (t.slot n).locks ≠ 0) :
    t.lockedSlots c = s.lockedSlots c + 1 ∧ ∀ d, d ≠ c → t.lockedSlots d = s.lockedSlots d := by
  have howns := s.owns_of_ownerOf n c howner
  constructor
  · unfold State.lockedSlots
    rw [hloop]
    refine length_filter_turned (n := n) (Channel.loopSlots_nodup _) ?_ (by simp [hs]) (by simpa using ht) fun m hm => by
      simp [hother m hm]
    exact (Channel.mem_loopSlots _ _).mpr ((Channel.owns_iff _ _).mp howns).2
  · intro d hd
    refine State.lockedSlots_congr (hloop d) fun m hm => ?_
    have hne : m ≠ n := by
      rintro rfl
      exact hgeo.2 d c m hd ⟨State.owns_of_mem_loopSlots hgeo hm, howns⟩
    rw [hother m hne]

theorem State.countLocked_chan {s : State} {n : Nat} {c : ChanId} (h : s.ownerOf n = some c) (f : Nat → Nat) (d : ChanId) :
    (s.countLocked n f).chan d = if d = c then { s.chan c with locked := f (s.chan c).locked } else s.chan d := by
  unfold State.countLocked
  rw [h]
  exact State.setChan_chan _ _ _ _

theorem State.countLocked_loopSlots (s : State) (n : Nat) (f : Nat → Nat) (d : ChanId) :
    ((s.countLocked n f).chan d).loopSlots = (s.chan d).loopSlots := by
  unfold State.countLocked
  split
  · rfl
  · rw [State.setChan_chan]
    split
    · subst d
      rfl
    · rfl

theorem State.locksAgree_lock {s : State} (n r : Nat) (hs : s.lockBooks) : (s.lock n r).1.locksAgree := by
  obtain ⟨_, hgeo, hcount, howned⟩ := hs
  rcases s.lock_cases n r with ⟨_, _, h0, hroom, h⟩ | ⟨_, _, h0, _, h⟩ | ⟨_, h⟩ <;> rw [h]
  · unfold State.hasAllowance at hroom
    split at hroom
    · cases hroom
    case h_2 c howner =>
      have hroom : (s.chan c).locked < (s.chan c).len - (s.chan c).reserve := by simpa using hroom
      obtain ⟨hc, hd⟩ := State.locksAgree_turned (t := (s.countLocked n (· + 1)).setSlot n { s.slot n with locks := 1 })
        hgeo howner (s.countLocked_loopSlots n _) (fun m hm => by simp [hm]) h0 (by simp)
      refine ⟨fun d => ?_, fun m hm => ?_⟩
      · obtain ⟨hl, hle⟩ := hcount d
        by_cases hdc : d = c
        · subst hdc
          simp only [State.setSlot_chan, State.countLocked_chan howner, if_true, hc]
          omega
        · simp only [State.setSlot_chan, State.countLocked_chan howner, if_neg hdc, hd d hdc]
          exact ⟨hl, hle⟩
      · rw [State.setSlot_ownerOf, State.countLocked_ownerOf]
        by_cases hmn : m = n
        · simp [hmn, howner]
        · exact howned m (by simpa [hmn] using hm)
  · exact State.locksAgree_of_same ⟨hcount, howned⟩ (fun m => by by_cases hm : m = n <;> simp [hm, h0]) (fun _ => .refl)
  · exact ⟨hcount, howned⟩

theorem State.locksAgree_unlock {s : State} (n : Nat) (hs : s.lockBooks) : (s.unlock n).1.locksAgree := by
  obtain ⟨_, hgeo, hcount, howned⟩ := hs
  rcases s.unlock_cases n with ⟨h1, h⟩ | ⟨h1, h⟩ | ⟨_, h⟩ <;> rw [h]
  · obtain ⟨c, howner⟩ := Option.ne_none_iff_exists'.mp (howned n (by omega))
    obtain ⟨hc, hd⟩ := State.locksAgree_turned (s := (s.countLocked n (· - 1)).setSlot n { s.slot n with locks := 0 }) (t := s)
      (State.geometryOk_countLocked n _ hgeo) (by simpa using howner) (fun d => (s.countLocked_loopSlots n _ d).symm)
      (fun m hm => by simp [hm]) (by simp) (by omega)
    dsimp only at hc hd ⊢
    refine ⟨fun d => ?_, fun m hm => ?_⟩
    · obtain ⟨hl, hle⟩ := hcount d
      by_cases hdc : d = c
      · subst hdc
        simp only [State.setSlot_chan, State.countLocked_chan howner, if_true]
        omega
      · simp only [State.setSlot_chan, State.countLocked_chan howner, if_neg hdc, ← hd d hdc]
        exact ⟨hl, hle⟩
    · rw [State.setSlot_ownerOf, State.countLocked_ownerOf]
      by_cases hmn : m = n
      · simp [hmn] at hm
      · exact howned m (by simpa [hmn] using hm)
  · exact State.locksAgree_of_same ⟨hcount, howned⟩ (fun m => by by_cases hm : m = n <;> simp [hm] <;> omega) (fun _ => .refl)
  · exact ⟨hcount, howned⟩

/-- A loop that CHANNEL_SETUP may change has no locked slot (R21). -/
theorem State.setupTaken_unlocked {s : State} {c : ChanId} (hs : s.lockBooks) (h : s.setupTaken c) :
    (s.chan c).locked = 0 ∧ ∀ n, (s.chan c).owns n = true → (s.slot n).locks = 0 := by
  obtain ⟨hlaw, hgeo, hcount, _⟩ := hs
  have hfree : ∀ n ∈ (s.chan c).loopSlots, (s.slot n).locks = 0 := by
    intro n hn
    have hown := State.owns_of_mem_loopSlots hgeo hn
    rcases h with hoff | ⟨_, _, _, hempty, _⟩
    · exact absurd hoff ((Channel.owns_iff _ _).mp hown).1
    · obtain ⟨hlo, hhi⟩ := (Channel.mem_loopSlots _ _).mp hn
      exact ((hlaw n).1 (by simp [hempty n hlo hhi])).1
  refine ⟨?_, fun n hn => hfree n ?_⟩
  · rw [(hcount c).1, State.lockedSlots, List.length_eq_zero_iff, List.filter_eq_nil_iff]
    intro n hn
    simp [hfree n hn]
  · exact (Channel.mem_loopSlots _ _).mpr ((Channel.owns_iff _ _).mp hn).2

/-- A channel without locked slots may be given a loop whose slots no channel has locked. -/
theorem State.locksAgree_setChan {s : State} {c : ChanId} {x : Channel} (hs : s.locksAgree) (hold : (s.chan c).locked = 0)
    (hx : x.locked = 0) (hloop : ∀ n ∈ x.loopSlots, (s.slot n).locks = 0)
    (hown : ∀ n, (s.slot n).locks ≠ 0 → (s.chan c).owns n ≠ true) : (s.setChan c x).locksAgree := by
  obtain ⟨hcount, howned⟩ := hs
  refine ⟨fun d => ?_, fun n hn => ?_⟩
  · by_cases hd : d = c
    · subst hd
      have hzero : (s.setChan d x).lockedSlots d = 0 := by
        simp only [State.lockedSlots, State.setChan_chan, if_true, List.length_eq_zero_iff, List.filter_eq_nil_iff]
        intro n hn
        simp [hloop n hn]
      simp [hzero, hx]
    · have hsame : (s.setChan c x).lockedSlots d = s.lockedSlots d :=
        State.lockedSlots_congr (by simp [hd]) fun n _ => Iff.rfl
      rw [hsame, State.setChan_chan, if_neg hd]
      exact hcount d
  · have hold : (s.slot n).locks ≠ 0 := hn
    obtain ⟨d, hd⟩ := Option.ne_none_iff_exists'.mp (howned n hold)
    have hdn := s.owns_of_ownerOf n d hd
    have hdc : d ≠ c := fun e => hown n hold (e ▸ hdn)
    intro hnone
    have := List.find?_eq_none.mp hnone d (mem_allChans d)
    simp [hdc, hdn] at this

theorem channelSetup_locksAgree (r : CmdArgs) {s : State} (hs : s.lockBooks) : (channelSetup r s).1.locksAgree := by
  obtain ⟨hlaw, hgeo, hagree⟩ := hs
  rcases channelSetup_cases r s with h | ⟨c, htaken, hset⟩
  · rw [h]
    exact hagree
  · obtain ⟨hlocked, hown⟩ := State.setupTaken_unlocked ⟨hlaw, hgeo, hagree⟩ htaken
    have hown (n : Nat) (hn : (s.slot n).locks ≠ 0) : (s.chan c).owns n ≠ true := fun e => hn (hown n e)
    rcases hset with h | ⟨f, n, p, v, hfree, _, _, _, _, _, h⟩ <;> rw [h]
    · exact State.locksAgree_setChan hagree hlocked hlocked (fun m hm => by simp [Channel.turnedOff, Channel.loopSlots] at hm) hown
    · refine State.locksAgree_setChan (s := s.indexClear f n) hagree hlocked hlocked (fun m hm => ?_) hown
      by_contra hlocks
      obtain ⟨d, hd⟩ := Option.ne_none_iff_exists'.mp (hagree.2 m hlocks)
      have hdm := s.owns_of_ownerOf m d hd
      have hdc : d ≠ c := fun e => hown m hlocks (e ▸ hdm)
      obtain ⟨hoff, hlo, hhi⟩ := (Channel.owns_iff _ _).mp hdm
      have hmem : f ≤ m ∧ m < f + n := (Channel.mem_loopSlots _ _).mp hm
      have := hfree d hdc hoff
      omega

/-- Every operation on the books keeps the locked counts true. -/
theorem lockBooks_kept : LoopsKept State.lockBooks (fun _ => True) where
  beside hb hs :=
    ⟨slotsLawful_kept.beside hb hs.1, geometryOk_kept.beside hb hs.2.1,
      State.locksAgree_of_same hs.2.2 (fun n => by rw [State.slot_congr hb.slots])
        fun c => by rw [State.chan_congr hb.chans]; exact .refl⟩
  reset s cb ef hs := by
    refine ⟨slotsLawful_kept.reset s cb ef hs.1, geometryOk_kept.reset s cb ef hs.2.1, fun c => ?_, fun n hn => absurd rfl hn⟩
    have hchan : (s.released cb ef).chan c = {} := by
      show (Vector.replicate 8 ({} : Channel)).get c = {}
      simp [Vector.get]
    simp [State.lockedSlots, hchan, Channel.loopSlots]
  heads _ _ hs := hs
  clips _ _ _ hs := hs
  setClip _ _ _ hs := hs
  aside _ h hs := h hs
  hasTable _ := trivial
  table _ _ := trivial
  setup r s hs := ⟨slotsLawful_kept.setup r s hs.1, geometryOk_kept.setup r s hs.2.1, channelSetup_locksAgree r hs⟩
  record s c x hx hs := by
    refine ⟨hs.1, geometryOk_kept.record s c x hx hs.2.1, State.locksAgree_of_same hs.2.2 (fun _ => Iff.rfl) (fun d => ?_)⟩
    rw [State.setChan_chan]
    split
    · subst d
      exact hx
    · exact .refl
  indexClear _ _ _ hs := hs
  take s n r hs := by
    refine ⟨slotsLawful_kept.take s n r hs.1, geometryOk_kept.take s n r hs.2.1, ?_⟩
    rcases s.take_cases n r with ⟨_, _, hl, _, h⟩ | ⟨_, h⟩ <;> rw [h]
    · exact State.locksAgree_of_same hs.2.2 (fun m => by by_cases hm : m = n <;> simp [hm, hl]) (fun _ => .refl)
    · exact hs.2.2
  commit s n hs := by
    refine ⟨slotsLawful_kept.commit s n hs.1, geometryOk_kept.commit s n hs.2.1, ?_⟩
    rcases s.commit_cases n with ⟨_, h⟩ | ⟨_, h⟩ <;> rw [h]
    · rw [State.indexCommit_frame]
      exact State.locksAgree_of_same hs.2.2 (fun m => by by_cases hm : m = n <;> simp [hm] <;> rfl) (fun _ => .refl)
    · exact hs.2.2
  empty s n hs := by
    refine ⟨slotsLawful_kept.empty s n hs.1, geometryOk_kept.empty s n hs.2.1, ?_⟩
    rcases s.empty_cases n with ⟨hst, h⟩ | ⟨_, h⟩ | ⟨_, _, h⟩ <;> rw [h]
    · have hl : (s.slot n).locks = 0 := by
        rcases hst with hrec | ⟨_, hl, _⟩
        · exact ((hs.1 n).1 (by simp [hrec])).1
        · exact hl
      exact State.locksAgree_of_same hs.2.2 (fun m => by by_cases hm : m = n <;> simp [hm, hl]) (fun _ => .refl)
    · exact hs.2.2
    · exact hs.2.2
  lock s n r hs := ⟨slotsLawful_kept.lock s n r hs.1, geometryOk_kept.lock s n r hs.2.1, State.locksAgree_lock n r hs⟩
  unlock s n hs := ⟨slotsLawful_kept.unlock s n hs.1, geometryOk_kept.unlock s n hs.2.1, State.locksAgree_unlock n hs⟩
  pin s n r hs := by
    refine ⟨slotsLawful_kept.pin s n r hs.1, geometryOk_kept.pin s n r hs.2.1, ?_⟩
    rcases s.pin_cases n r with ⟨_, _, _, h⟩ | ⟨_, h⟩ <;> rw [h]
    · exact State.locksAgree_of_same hs.2.2 (fun m => by by_cases hm : m = n <;> simp [hm]) (fun _ => .refl)
    · exact hs.2.2
  unpin s n hs := by
    refine ⟨slotsLawful_kept.unpin s n hs.1, geometryOk_kept.unpin s n hs.2.1, ?_⟩
    rcases s.unpin_cases n with ⟨_, h⟩ | ⟨_, h⟩ <;> rw [h]
    · exact State.locksAgree_of_same hs.2.2 (fun m => by by_cases hm : m = n <;> simp [hm]) (fun _ => .refl)
    · exact hs.2.2

/-! ## The numbering -/

/-- Every channel's numbering keeps the RFN limit. -/
def State.numbersOk (s : State) : Prop := ∀ c, (s.chan c).numbered

theorem State.numbersOk_congr {s t : State} (h : ∀ c, t.chan c = s.chan c) (hs : s.numbersOk) : t.numbersOk :=
  fun c => h c ▸ hs c

theorem State.numbersOk_setChan {s : State} {c : ChanId} {x : Channel} (hx : x.numbered) (hs : s.numbersOk) :
    (s.setChan c x).numbersOk := by
  intro d
  rw [State.setChan_chan]
  split
  · exact hx
  · exact hs d

/-- Only what the numbering reads matters. -/
theorem Channel.numbered_of {x y : Channel} (h : y.numbered) (hsame : (x.tail, x.nextRfn, x.phases) = (y.tail, y.nextRfn, y.phases))
    (hbusy : x.busy = true → y.busy = true) : x.numbered := by
  simp only [Prod.mk.injEq] at hsame
  obtain ⟨htail, hnext, hphases⟩ := hsame
  obtain ⟨h1, h2, h3⟩ := h
  exact ⟨htail ▸ hnext ▸ h1, hnext ▸ h2, fun hb => hnext ▸ hphases ▸ h3 (hbusy hb)⟩

theorem Channel.Walked.numbered {x y : Channel} (h : x.Walked y) (hy : y.numbered) : x.numbered := by
  obtain ⟨h1, h2, h3⟩ := hy
  have ht := h.tail h1
  rw [h.same]
  exact ⟨ht, h2, h3⟩

theorem State.allocate_numbersOk {s : State} {c : ChanId} (fresh : List Nat) (hs : s.numbersOk) : (s.allocate c fresh).numbersOk := by
  obtain ⟨x, hx, hchan⟩ := s.allocate_chan c fresh
  intro d
  rw [hchan]
  split
  · exact hx.numbered (hs c)
  · exact hs d

theorem State.endRecording_numbersOk {s : State} {c : ChanId} (q : StopCause) (t : Word) (hs : s.numbersOk) :
    (s.endRecording c q t).numbersOk := by
  intro d
  rw [State.endRecording_chan]
  split
  · exact Channel.numbered_of (hs c) rfl (fun h => by simp [Channel.busy] at h)
  · exact hs d

theorem Channel.atLimit_eq_false (ch : Channel) : ch.atLimit = false ↔ ch.nextRfn + ch.phases - 1 < Config.rfnLimit := by
  simp [Channel.atLimit]

/-- The commit raises the next RFN by P, which a busy channel's limit allows; the next period may not fit any more (R34). -/
theorem State.commitPeriod_numbersOk {s : State} {c : ChanId} (hs : s.numbersOk) (hbusy : (s.chan c).busy = true) :
    ((s.commitPeriod c).chan c).atLimit = false → (s.commitPeriod c).numbersOk := by
  intro hlimit d
  rw [Channel.atLimit_eq_false] at hlimit
  simp only [State.commitPeriod_chan, if_true] at hlimit ⊢
  obtain ⟨h1, h2, h3⟩ := hs c
  have h3 := h3 hbusy
  split
  · exact ⟨by dsimp only; omega, h3, fun _ => by dsimp only; simp only [Config.rfnLimit] at *; omega⟩
  · exact hs d

/-- The same, where the recording ends with the commit. -/
theorem State.commitPeriod_endRecording_numbersOk {s : State} {c : ChanId} (hs : s.numbersOk) (hbusy : (s.chan c).busy = true)
    (q : StopCause) (t : Word) : ((s.commitPeriod c).endRecording c q t).numbersOk := by
  intro d
  rw [State.endRecording_chan]
  split
  · obtain ⟨h1, _, h3⟩ := hs c
    simp only [State.commitPeriod_chan, if_true]
    exact ⟨by dsimp only; omega, h3 hbusy, fun h => by simp [Channel.busy] at h⟩
  · rw [State.commitPeriod_chan, if_neg ‹_›]
    exact hs d

theorem State.tickChannel_numbersOk {s : State} {c : ChanId} (t : Word) (hs : s.numbersOk) : (s.tickChannel c t).numbersOk := by
  have h0 : (s.setChan c { s.chan c with stray := false }).numbersOk :=
    State.numbersOk_setChan (Channel.numbered_of (hs c) rfl id) hs
  unfold State.tickChannel
  revert h0
  generalize s.setChan c { s.chan c with stray := false } = u
  intro hu
  dsimp only
  split
  · exact hu
  · exact hu
  case h_3 harmed =>
    have hbusy : (u.chan c).busy = true := by simp [Channel.busy, harmed]
    refine State.numbersOk_setChan (Channel.numbered_of (State.allocate_numbersOk [] hu c) rfl (fun _ => ?_))
      (State.allocate_numbersOk [] hu)
    obtain ⟨x, hx, hchan⟩ := u.allocate_chan c []
    rw [hchan, if_pos rfl, hx.same]
    exact hbusy
  case h_4 hrec =>
    have hbusy : (u.chan c).busy = true := by simp [Channel.busy, hrec]
    split
    · exact State.commitPeriod_endRecording_numbersOk hu hbusy _ t
    · exact State.allocate_numbersOk _ (State.commitPeriod_numbersOk hu hbusy (eq_false_of_ne_true ‹_›))
  case h_5 hstop => exact State.commitPeriod_endRecording_numbersOk hu (by simp [Channel.busy, hstop]) _ t

theorem channelArm_numbersOk (r : CmdArgs) {s : State} (hs : s.numbersOk) : (channelArm r s).1.numbersOk := by
  unfold channelArm
  split
  · exact hs
  · rename_i c _
    dsimp only
    split_ifs with _ hlimit
    · exact hs
    · exact hs
    · have hset (st : ChanState) : (s.setChan c { s.chan c with state := st }).numbersOk := by
        obtain ⟨h1, h2, _⟩ := hs c
        have := (Channel.atLimit_eq_false _).mp (by simpa using hlimit)
        exact State.numbersOk_setChan ⟨h1, h2, fun _ => by dsimp only; simp only [Config.rfnLimit] at *; omega⟩ hs
      split
      · exact hs
      · exact hset _
      · exact hs
      · exact hs
      · exact hset _

theorem channelStop_numbersOk (r : CmdArgs) {s : State} (hs : s.numbersOk) : (channelStop r s).1.numbersOk := by
  unfold channelStop
  split
  · exact hs
  · dsimp only
    split
    · exact hs
    · exact hs
    · exact State.endRecording_numbersOk _ _ hs
    · exact State.numbersOk_setChan (Channel.numbered_of (hs _) rfl (fun _ => by simp [Channel.busy, *])) hs
    · exact hs

/-- A record that starts its numbering again, busy only where the old one was. -/
theorem Channel.numbered_zero {x y : Channel} (h : y.numbered) (ht : x.tail = 0) (hn : x.nextRfn = 0)
    (hb : x.busy = true → y.busy = true ∧ x.phases = y.phases) : x.numbered := by
  obtain ⟨_, _, h3⟩ := h
  refine ⟨by omega, by simp [hn], fun hx => ?_⟩
  obtain ⟨hy, hp⟩ := hb hx
  have := h3 hy
  omega

/-- Every operation on the books keeps the numbering. -/
theorem numbersOk_kept : BooksKept State.numbersOk (fun _ => True) where
  beside hb := State.numbersOk_congr (State.chan_congr hb.chans)
  reset s cb ef _ c := by
    have hchan : (s.released cb ef).chan c = {} := by
      show (Vector.replicate 8 ({} : Channel)).get c = {}
      simp [Vector.get]
    rw [hchan]
    exact ⟨Nat.le_refl _, Nat.zero_le _, fun h => by simp [Channel.busy] at h⟩
  heads _ _ hs := hs
  clips _ _ _ hs := hs
  setClip _ _ _ hs := hs
  aside _ h hs := h hs
  hasTable _ := trivial
  table _ _ := trivial
  setup r s hs := by
    rcases channelSetup_cases r s with h | ⟨c, _, h | ⟨f, n, p, v, _, _, _, _, _, _, h⟩⟩ <;> rw [h]
    · exact hs
    · exact State.numbersOk_setChan (Channel.numbered_zero (hs c) rfl rfl fun h => by simp [Channel.turnedOff, Channel.busy] at h) hs
    · exact State.numbersOk_setChan (Channel.numbered_zero (hs c) rfl rfl fun h => by simp [Channel.setUp, Channel.busy] at h) hs
  arm r _ := channelArm_numbersOk r
  stop r _ := channelStop_numbersOk r
  abort s c q _ hs := State.endRecording_numbersOk _ _ (State.numbersOk_congr (s.emptyAll_chan _) hs)
  tick s c t := State.tickChannel_numbersOk t
  stray s c hs := State.numbersOk_setChan (Channel.numbered_of (hs c) rfl id) hs
  clearRecord s c hs := State.numbersOk_setChan (Channel.numbered_zero (hs c) rfl rfl fun h => ⟨h, rfl⟩) hs
  indexClear _ _ _ hs := hs
  empty s n := State.numbersOk_congr fun c => by rw [State.empty_frame]; rfl
  lock s n r hs := by
    have hcount (f : Nat → Nat) : (s.countLocked n f).numbersOk := by
      unfold State.countLocked
      split
      · exact hs
      · exact State.numbersOk_setChan (Channel.numbered_of (hs _) rfl id) hs
    rcases s.lock_cases n r with ⟨_, _, _, _, h⟩ | ⟨_, _, _, _, h⟩ | ⟨_, h⟩ <;> rw [h]
    · exact hcount _
    · exact hs
    · exact hs
  unlock s n hs := by
    rcases s.unlock_cases n with ⟨_, h⟩ | ⟨_, h⟩ | ⟨_, h⟩ <;> rw [h]
    · unfold State.countLocked
      split
      · exact hs
      · exact State.numbersOk_setChan (Channel.numbered_of (hs _) rfl id) hs
    · exact hs
    · exact hs
  pin s n r := State.numbersOk_congr fun c => by rw [State.pin_frame]; rfl
  unpin s n := State.numbersOk_congr fun c => by rw [State.unpin_frame]; rfl

end Sys2Proof.Machine
end

section
/-! PROOFS. A mark that finds a frame and locks it later can lock it in another loop: O9 fails. The clip manager keeps the slot and
the loop position that its lookup gave (R96), and R90 keeps only its own events away until the lock. Where the channel's frame is
taken and given up by CHANNEL_ABORT, the head sourced away, the channel set up anew over the same slot, and the same RFN recorded
there again, the lock is done, and the clip gets the position of the frame in the loop that is gone. -/

namespace Sys2Proof.Machine

/-- A command record for channel or head 0. -/
def recordFor0 (a b c d : Word) : CmdArgs := { flags := 0, tag := 0, target := 0, a, b, c, d }

/-- A command is carried out, its record is written back and consumed, and the next one is fetched. -/
def commandTurns (kind : Byte) (r : CmdArgs) : List Turn :=
  [.event (.command kind r), .event (.storePortIssue 0), .event (.writeBackComplete .good), .event (.storePortIssue 0),
   .event (.cmdConsumerWriteComplete .good), .event (.storePortIssue 0)]

/-- Between the mark's lookup of frame 0 and its lock: the ARMED channel takes the frame's slot at its tick, CHANNEL_ABORT empties it,
HEAD_SOURCE makes the head IDLE, CHANNEL_SETUP moves the loop to the slots from 6 on, and the channel records frame 0 in slot 6. -/
def movedLoopTurns : List Turn :=
  [.move .clips, .move .clips, .event (.channelTick 0)] ++ commandTurns 0x07 (recordFor0 0 0 0 0) ++
    commandTurns 0x09 (recordFor0 0 0 0 0) ++ commandTurns 0x04 (recordFor0 6 64 1 10) ++
    [.event (.command 0x05 (recordFor0 0 0 0 0)), .event (.channelTick 0), .event (.channelTick 0)]

/-- The loop of channel 0 before the mark. -/
def loopFrom0 : Channel := { state := .armed, firstSlot := 0, len := 64, phases := 1, reserve := 10, cursor := 6 }

/-- Channel 0 is ARMED on the slots from 0 on, slot 6 holds frame 0, head 0 shows it, a MARK IN of head 0 waits, and the
processor waits for a record. -/
def staleMark : State :=
  { State.reset with
    pending := [.panelMark 0 movedLoopTurns]
    mem := { active := true, ownQ := [{ req := .fetch, dir := .read, addr := 0x1000, beats := 1, issued := some 0 }] }
    slots := [(6, { state := .held, rfn := 0 })]
    index := [(0, { valid := true, slot := 6 })]
    chans := #v[loopFrom0, {}, {}, {}, {}, {}, {}, {}]
    heads := #v[{ src := .live 0, shown := some { src := .live 0, chan := 0, rfn := 0, slot := 6 } }, {}, {}, {}]
    proc := { state := .fetching, producer := 4 }
    mail := { chanTicks := #v[[1, 2, 3], [], [], [], [], [], [], []], portMarks := #v[[{ head := 0, kind := .markIn }], []] } }

/-! ## The invariants hold before the mark -/

theorem staleMark_slot (n : Nat) : staleMark.slot n = if n = 6 then { state := .held, rfn := 0 } else {} := by
  simp [State.slot, staleMark, Tbl.read]

theorem staleMark_chan (c : ChanId) : staleMark.chan c = if c = 0 then loopFrom0 else {} := by
  revert c
  decide

theorem staleMark_owns {c : ChanId} {n : Nat} (h : (staleMark.chan c).owns n = true) : c = 0 ∧ n < 64 := by
  obtain ⟨hoff, _, hhi⟩ := (Channel.owns_iff _ _).mp h
  rw [staleMark_chan] at hoff hhi
  split_ifs at hoff hhi with hc
  · exact ⟨hc, by simpa [loopFrom0] using hhi⟩
  · exact absurd rfl hoff

theorem staleMark_slotsLawful : staleMark.slotsLawful := by
  intro n
  rw [staleMark_slot]
  split
  · exact Slot.lawful_of_held rfl (Nat.zero_le _) (Nat.zero_le _)
  · exact Slot.lawful_of_not_held (by simp) (by simp) rfl rfl

theorem staleMark_geometryOk : staleMark.geometryOk := by
  refine ⟨fun c => ?_, fun c d n hne hboth => ?_⟩
  · rw [Channel.shaped_iff, staleMark_chan]
    split <;> simp [loopFrom0, Config.slotCount]
  · exact hne ((staleMark_owns hboth.1).1.trans (staleMark_owns hboth.2).1.symm)

theorem staleMark_unlocked (n : Nat) : (staleMark.slot n).locks = 0 := by
  rw [staleMark_slot]
  split <;> rfl

theorem staleMark_locksAgree : staleMark.locksAgree := by
  refine ⟨fun c => ?_, fun n hn => absurd (staleMark_unlocked n) hn⟩
  have hcount : staleMark.lockedSlots c = 0 := by simp [State.lockedSlots, staleMark_unlocked]
  rw [hcount, staleMark_chan]
  split <;> simp [loopFrom0]

theorem staleMark_entriesInLoop (c : ChanId) : staleMark.entriesInLoop c := by
  intro i hi hvalid
  obtain ⟨rfl, _⟩ := staleMark_owns hi
  by_cases h : i = 0
  · subst h
    rfl
  · simp [State.entry, staleMark, Tbl.read, h] at hvalid

theorem staleMark_clipsTrue : staleMark.clipsTrue := by
  have hclip (k : Nat) : staleMark.clip k = {} := rfl
  refine ⟨fun k _ => hclip k, fun k _ => hclip k, fun k hk => absurd rfl hk, fun n => ?_⟩
  have hnone : staleMark.clipHolds {} n = false := by
    show decide (n ∈ staleMark.clipSlots {} 0 0) = false
    rw [show staleMark.clipSlots {} 0 0 = [] by decide]
    rfl
  simp only [staleMark_unlocked, hclip, hnone, List.filter_false, List.length_nil]

/-! ## The mark leaves a clip whose frame its extent misplaces -/

/-- Clip 0 covers frame 0, which its extent puts at a position where the loop holds no frame. -/
def State.misplacesFrame0 (t : State) : Bool :=
  decide ((t.clip 0).state ≠ .free ∧ (t.clip 0).inF = 0 ∧
    positionOf (t.clip 0).extents (t.chan (t.clip 0).chan).len 0 = some 6 ∧
    (t.slot ((t.chan (t.clip 0).chan).firstSlot + 6)).state = .empty)

/-- What a row leaves is a next state with a property. -/
def leaves (o : Host.Outcome State Fault Refusal) (p : State → Bool) : Bool :=
  match o with
  | .next t => p t
  | .fault _ => false
  | .refused _ => false

theorem leaves_iff (o : Host.Outcome State Fault Refusal) (p : State → Bool) :
    leaves o p = true ↔ ∃ t, o = .next t ∧ p t = true := by
  cases o <;> simp [leaves]

theorem staleMark_step : leaves (step staleMark) State.misplacesFrame0 = true := by decide +kernel

theorem not_clipsTrue_of_misplacesFrame0 {t : State} (h : t.misplacesFrame0 = true) : ¬ t.clipsTrue := by
  rintro ⟨_, _, hok, _⟩
  obtain ⟨hused, hin, hpos, hempty⟩ := of_decide_eq_true h
  obtain ⟨_, _, _, _, _, _, hheld, _⟩ := hok 0 hused
  obtain ⟨p, hp, hslot, _⟩ := hheld 0 (Nat.le_of_eq hin) (Nat.zero_le _)
  rw [hpos, Option.some.injEq] at hp
  subst hp
  rw [hempty] at hslot
  cases hslot

/-- Refutes O9: the clip of `staleMark`'s MARK IN names a slot that holds no frame. The first part of O9 holds
(`lockBooks_kept`); the clip table does not stay true. -/
theorem not_everyStepKeepsLockedCountsTrue : ¬ Obligations.EveryStepKeepsLockedCountsTrue := by
  rintro ⟨_, hclips⟩
  obtain ⟨t, hstep, hbad⟩ := (leaves_iff _ _).mp staleMark_step
  exact not_clipsTrue_of_misplacesFrame0 hbad
    (hclips staleMark t staleMark_slotsLawful staleMark_geometryOk staleMark_locksAgree staleMark_entriesInLoop
      staleMark_clipsTrue hstep).1

end Sys2Proof.Machine
end

section
/-! PROOFS. A head's tick among other events: between its operations the head's record stays as it was, and what the tick has done
so far is its own. -/

namespace Sys2Proof.Machine

/-! ## A program that stays at one block -/

/-- The program never ends, or its next operation is at block `a` alone. -/
def Prog.StaysAt (a : Agent) (p : Prog Unit) : Prop := p = .never ∨ ∃ f next, p = .op [a] f next

theorem Prog.StaysAt.stays {a : Agent} {p : Prog Unit} (h : p.StaysAt a) (hn : p ≠ .never) : p.stays [a] = [a] := by
  obtain rfl | ⟨f, next, rfl⟩ := h
  · exact absurd rfl hn
  · simp [Prog.stays]

section
variable {Γ : Type} {D : Discipline Γ} {a : Agent} {f : State → State} {next : State → Prog Unit} {l : List Agent} {x : State × Γ}

/-- An operation at block `a` after which the event stays there. -/
theorem Discipline.goes_on (h : ∀ y, (∀ c ∈ l, D.Rely c x y) → (a ∉ l → D.Idle a y) → D.Inv y → (next y.1).StaysAt a ∧
    ∃ g, D.Inv (f y.1, g) ∧ (∀ c, c ≠ a → D.Rely c y (f y.1, g)) ∧ D.Goes (next y.1) [a] (f y.1, g)) :
    D.Goes (.op [a] f next) l x := by
  refine ⟨by simp, fun y hrely hidle hinv => ?_⟩
  obtain ⟨hat, g, hinv', hrely', hgo⟩ := h y hrely (hidle a (by simp)) hinv
  by_cases hn : next y.1 = .never
  · exact .inl hn
  · rw [hat.stays hn]
    exact .inr ⟨g, hinv', fun c hc => hrely' c (by simpa using hc), fun c hc hleft => absurd hc hleft, hgo⟩

/-- An operation at block `a` that ends the event. -/
theorem Discipline.goes_off (h : ∀ y, (∀ c ∈ l, D.Rely c x y) → (a ∉ l → D.Idle a y) → D.Inv y →
    (∃ u, next y.1 = .done u) ∧
      ∃ g, D.Inv (f y.1, g) ∧ (∀ c, c ≠ a → D.Rely c y (f y.1, g)) ∧ D.Idle a (f y.1, g)) :
    D.Goes (.op [a] f next) l x := by
  refine ⟨by simp, fun y hrely hidle hinv => ?_⟩
  obtain ⟨⟨u, hu⟩, g, hinv', hrely', hend⟩ := h y hrely (hidle a (by simp)) hinv
  rw [hu]
  exact .inr ⟨g, hinv', fun c hc => hrely' c (by simpa using hc), fun c hc _ => (List.mem_singleton.mp hc) ▸ hend, trivial⟩

/-- A read at block `a` by an event in progress there. -/
theorem Discipline.goes_read {k : State → Prog Unit} (h : ∀ y, D.Rely a x y → D.Inv y → (k y.1).StaysAt a ∧ D.Goes (k y.1) [a] y) :
    D.Goes (.read [a] k) [a] x :=
  Discipline.goes_on fun y hrely _ hinv => by
    obtain ⟨hat, hgo⟩ := h y (hrely a (by simp)) hinv
    exact ⟨hat, y.2, hinv, fun c _ => D.refl c y, hgo⟩

end

/-! ## The tick -/

/-- What a head's tick knows between its operations: `Before` until its trailing slot is unpinned, `Latched` from then on, with the
slot it has pinned. `Good` is what the bounds steps keep. -/
structure TickProof {Γ : Type} (D : Discipline Γ) (d : HeadId) where
  Before : Head → PanelInput → State × Γ → Prop
  Latched : Head → PanelInput → Option Nat → State × Γ → Prop
  Good : Head → PanelInput → Moved → Fit → Prop
  before_head : ∀ {hd i x}, Before hd i x → x.1.head d = hd
  before_stable : ∀ {hd i x y}, D.Rely (.head d) x y → Before hd i x → Before hd i y
  latched_stable : ∀ {hd i o x y}, D.Rely (.head d) x y → Latched hd i o x → Latched hd i o y
  idle : ∀ {s : State}, (s.head d).src = .idle → D.Move [.head d] s (s.beginTick d)
  start : ∀ {y : State × Γ}, (y.1.head d).src ≠ .idle → D.Inv y → D.Idle (.head d) y →
    ∃ g, D.Inv (y.1.beginTick d, g) ∧ (∀ c, c ≠ .head d → D.Rely c y (y.1.beginTick d, g)) ∧
      Before (y.1.head d) (y.1.panelInput d) (y.1.beginTick d, g)
  first : ∀ {hd i x}, Before hd i x → Good hd i (x.1.firstMove d i).1 (x.1.firstMove d i).2.2
  again : ∀ {hd i m f} (s : State), Good hd i m f → Good hd i m (s.refit hd m f).2
  unpin : ∀ {hd i} {y : State × Γ}, Before hd i y → D.Inv y →
    ∃ g, D.Inv (y.1.unpinIf hd.trailing, g) ∧ (∀ c, c ≠ .head d → D.Rely c y (y.1.unpinIf hd.trailing, g)) ∧
      Latched hd i none (y.1.unpinIf hd.trailing, g)
  pin : ∀ {hd i n r} {lost : Option Nat} {y : State × Γ}, Latched hd i none y → D.Inv y → (y.1.pin n r).2 = .done lost →
    ∃ g, D.Inv ((y.1.pin n r).1, g) ∧ (∀ c, c ≠ .head d → D.Rely c y ((y.1.pin n r).1, g)) ∧
      Latched hd i (some n) ((y.1.pin n r).1, g)
  stop : ∀ {hd i m f} {x : Option Shown} {t : Word} {y : State × Γ}, Latched hd i (x.map (·.slot)) y → Good hd i m f → D.Inv y →
    ∃ g, D.Inv (y.1.endTick d m f x t, g) ∧ (∀ c, c ≠ .head d → D.Rely c y (y.1.endTick d m f x t, g)) ∧
      D.Idle (.head d) (y.1.endTick d m f x t, g)

section
variable {Γ : Type} {D : Discipline Γ} {d : HeadId} (T : TickProof D d)
include T

/-- The tick's last operation. -/
theorem TickProof.goes_end {hd : Head} {i : PanelInput} {m : Moved} {f : Fit} {o : Option Shown} {t : Word} {x : State × Γ}
    (hx : T.Latched hd i (o.map (·.slot)) x) (hf : T.Good hd i m f) :
    D.Goes (.act [.head d] (fun u => u.endTick d m f o t)) [.head d] x :=
  Discipline.goes_off fun _ hrely _ hinv => ⟨⟨(), rfl⟩, T.stop (T.latched_stable (hrely _ (by simp)) hx) hf hinv⟩

/-- The pick and the last operation, from the bounds just read. -/
theorem TickProof.goes_pick {hd : Head} {i : PanelInput} {m : Moved} {t : Word} (fuel : Nat) (v : Sight) (f : Fit) {x : State × Γ}
    (hx : T.Latched hd i none x) (hf : T.Good hd i m f) :
    ((pickFrame d hd m fuel v f).bind (fun z => .act [.head d] (fun u => u.endTick d m z.1 z.2 t))).StaysAt (.head d) ∧
      D.Goes ((pickFrame d hd m fuel v f).bind (fun z => .act [.head d] (fun u => u.endTick d m z.1 z.2 t))) [.head d] x := by
  induction fuel generalizing v f x with
  | zero => exact ⟨.inl rfl, trivial⟩
  | succ fuel ih =>
    have hagain {z : State × Γ} (hz : T.Latched hd i none z) :
        D.Goes ((Prog.read [.head d] (fun s => pickFrame d hd m fuel (s.refit hd m f).1 (s.refit hd m f).2)).bind
          (fun z => .act [.head d] (fun u => u.endTick d m z.1 z.2 t))) [.head d] z :=
      Discipline.goes_read fun y hrely _ => ih _ _ (T.latched_stable hrely hz) (T.again y.1 hf)
    unfold pickFrame
    dsimp only
    cases hframe : f.frame with
    | none => exact ⟨.inr ⟨_, _, rfl⟩, T.goes_end (o := none) hx hf⟩
    | some r =>
      refine ⟨.inr ⟨_, _, rfl⟩, Discipline.goes_read fun y hrely _ => ?_⟩
      have hy := T.latched_stable hrely hx
      dsimp only
      cases hlocate : y.1.locateShown hd.src v.extents r with
      | none => exact ⟨.inr ⟨_, _, rfl⟩, hagain hy⟩
      | some n =>
        refine ⟨.inr ⟨_, _, rfl⟩, Discipline.goes_on fun z hrely' _ hinv => ?_⟩
        have hz := T.latched_stable (hrely' _ (by simp)) hy
        dsimp only
        cases hpin : (z.1.pin n r).2 with
        | done lost =>
          obtain ⟨g, hinv', hothers, hlatched⟩ := T.pin hz hinv hpin
          refine ⟨.inr ⟨_, _, rfl⟩, g, hinv', hothers, ?_⟩
          exact T.goes_end (o := some { src := hd.src, chan := y.1.chanOf hd.src, rfn := r, slot := n }) hlatched hf
        | declined c =>
          have hsame : (z.1.pin n r).1 = z.1 := by
            rcases z.1.pin_cases n r with ⟨_, _, _, hp⟩ | ⟨_, hp⟩
            · rw [hp] at hpin
              cases hpin
            · rw [hp]
          rw [hsame]
          exact ⟨.inr ⟨_, _, rfl⟩, z.2, hinv, fun c _ => D.refl c z, hagain hz⟩

/-- Steps 2 to 5 of a sourced head's tick. -/
theorem TickProof.goes_sourced {hd : Head} {i : PanelInput} {t : Word} (fuel : Nat) {x : State × Γ} (hx : T.Before hd i x) :
    D.Goes (tickSourced d fuel t i) [.head d] x := by
  refine Discipline.goes_read fun y hrely _ => ⟨.inr ⟨_, _, rfl⟩, Discipline.goes_on fun z hrely' _ hinv => ?_⟩
  have hy := T.before_stable hrely hx
  have hz := T.before_stable (hrely' _ (by simp)) hy
  obtain ⟨g, hinv', hothers, hlatched⟩ := T.unpin hz hinv
  rw [T.before_head hz]
  have hgood := T.first hy
  rw [T.before_head hy]
  obtain ⟨hat, hgo⟩ := T.goes_pick (t := t) fuel (y.1.firstMove d i).2.1 (y.1.firstMove d i).2.2 hlatched hgood
  exact ⟨hat, g, hinv', hothers, hgo⟩

/-- A head's tick keeps the discipline. -/
theorem TickProof.goes (fuel : Nat) (x : State × Γ) : D.Goes (headTickProg d fuel) [] x := by
  refine ⟨by simp, fun y _ hidle hinv => ?_⟩
  have hidle := hidle (.head d) (by simp) (by simp)
  dsimp only
  have hmove (hm : D.Move [.head d] y.1 (y.1.beginTick d)) :
      ∃ g, D.Inv (y.1.beginTick d, g) ∧ (∀ c, c ∉ [Agent.head d] → D.Rely c y (y.1.beginTick d, g)) ∧
        D.Idle (.head d) (y.1.beginTick d, g) := by
    obtain ⟨g, hinv', hothers, hend⟩ := hm y.2 hinv (by simpa using hidle)
    exact ⟨g, hinv', hothers, hend _ (by simp)⟩
  split
  case h_1 hnone =>
    have hsame : y.1.beginTick d = y.1 := by
      unfold State.beginTick
      rw [hnone]
    obtain ⟨g, hinv', hothers, hend⟩ := hmove (by rw [hsame]; exact .refl _ _)
    exact .inr ⟨g, hinv', hothers, by simpa using fun _ => hend, trivial⟩
  case h_2 t _ _ =>
    have hgo (hsrc : (y.1.head d).src ≠ .idle) :
        ∃ g, D.Inv (y.1.beginTick d, g) ∧ (∀ c, c ∉ [Agent.head d] → D.Rely c y (y.1.beginTick d, g)) ∧
          (∀ a ∈ [Agent.head d], a ∉ (tickSourced d fuel t (y.1.panelInput d)).stays [.head d] → D.Idle a (y.1.beginTick d, g)) ∧
          D.Goes (tickSourced d fuel t (y.1.panelInput d)) ((tickSourced d fuel t (y.1.panelInput d)).stays [.head d])
            (y.1.beginTick d, g) := by
      obtain ⟨g, hinv', hothers, hbefore⟩ := T.start hsrc hinv hidle
      have hstays : (tickSourced d fuel t (y.1.panelInput d)).stays [.head d] = [.head d] :=
        Prog.StaysAt.stays (.inr ⟨_, _, rfl⟩) (by simp [tickSourced, Prog.read])
      rw [hstays]
      exact ⟨g, hinv', fun c hc => hothers c (by simpa using hc), fun c hc hn => absurd hc hn, T.goes_sourced fuel hbefore⟩
    split
    case h_1 hsrc =>
      obtain ⟨g, hinv', hothers, hend⟩ := hmove (T.idle hsrc)
      exact .inr ⟨g, hinv', hothers, by simpa using fun _ => hend, trivial⟩
    case h_2 hsrc => exact .inr (hgo (by simp [hsrc]))
    case h_3 hsrc => exact .inr (hgo (by simp [hsrc]))

end

end Sys2Proof.Machine
end

section
/-! PROOFS. The pins: each slot's pin count is the number of pins the heads hold on it, with the ghost naming the slots that a head
holds while its tick is in progress. -/

namespace Sys2Proof.Machine

/-! ## From a discipline to the steps -/

section
variable {Γ : Type} {D : Discipline Γ} {Q : Tbl Clip → Prop}

/-- Every event keeps the discipline, where the moves, the ticks of the heads and CHANNEL_CLEAR keep it. -/
theorem EventMoves.begins (h : EventMoves D.Move Q) (hq : ∀ x, D.Inv x → Q x.1.clips)
    (htick : ∀ d fuel x, D.Goes (headTickProg d fuel) [] x)
    (hclear : ∀ kind r x, D.Goes (Machine.commandProg kind r (Machine.channelClear r)) [] x) (fuel : Nat) (s : State)
    (e : BlockEvent) : D.Begins s (courseOf fuel s e) := by
  by_cases he : (∃ d, e = .headTick d) ∨ ∃ kind r, e = .command kind r ∧ kind.toNat = 8
  · rcases he with ⟨d, rfl⟩ | ⟨kind, r, rfl, hk⟩
    · exact fun g _ => htick d fuel (s, g)
    · have hc : courseOf fuel s (.command kind r) = .steps .processor (Machine.commandProg kind r (Machine.channelClear r)) := by
        show Machine.commandCourse kind r = _
        unfold Machine.commandCourse
        rw [hk]
        rfl
      rw [hc]
      exact fun g _ => hclear kind r (s, g)
  · have hcourse := h.course fuel s e (fun d hd => absurd (.inl ⟨d, hd⟩) he) fun kind r hk h8 => absurd (.inr ⟨kind, r, hk, h8⟩) he
    cases hc : courseOf fuel s e with
    | once b f =>
      rw [hc] at hcourse
      exact hcourse
    | steps who p =>
      rw [hc] at hcourse
      exact fun g _ => Discipline.goes_of_each hq hcourse (by simp)

/-- What holds of a state at rest is kept by every step, where every event keeps the discipline. -/
theorem Discipline.step (hbegins : ∀ fuel s e, D.Begins s (courseOf fuel s e))
    (hqueue : ∀ (s : State) q g, D.Inv (s, g) → (∀ a, D.Idle a (s, g)) →
      ∃ g', D.Inv ({ s with pending := q }, g') ∧ ∀ a, D.Idle a ({ s with pending := q }, g'))
    (hreset : ∀ (s : State) cbsel evtFirst g, D.Inv (s, g) → (∀ a, D.Idle a (s, g)) →
      ∃ g', D.Inv (s.released cbsel evtFirst, g') ∧ ∀ a, D.Idle a (s.released cbsel evtFirst, g')) {s t : State}
    (hs : ∃ g, D.Inv (s, g) ∧ ∀ a, D.Idle a (s, g)) (ht : Machine.step s = .next t) : ∃ g, D.Inv (t, g) ∧ ∀ a, D.Idle a (t, g) := by
  refine KeptByEvents.step (P := fun s => ∃ g, D.Inv (s, g) ∧ ∀ a, D.Idle a (s, g)) ⟨fun s q ⟨g, hinv, hidle⟩ => hqueue s q g hinv hidle,
    fun s cb ef ⟨g, hinv, hidle⟩ => hreset s cb ef g hinv hidle, fun {fuel s e b f} hc ⟨g, hinv, hidle⟩ => ?_,
    fun ⟨_, hinv, hidle⟩ hw => Discipline.weave hbegins hinv hidle hw⟩ hs ht
  have hmove := hbegins fuel s e
  rw [hc] at hmove
  obtain ⟨g', hinv', hrely, hidle'⟩ := hmove g hinv fun a _ => hidle a
  refine ⟨g', hinv', fun a => ?_⟩
  by_cases hab : a ∈ b
  · exact hidle' a hab
  · exact D.stable (hrely a hab) (hidle a)

end

/-! ## Counting pins -/

/-- Pins on slot `n` of a head that holds the slot `o`, if any. -/
def pinOn (o : Option Nat) (n : Nat) : Nat := if o = some n then 1 else 0

@[simp] theorem pinOn_none (n : Nat) : pinOn none n = 0 := rfl

/-- Pins that a head holds on slot `n` when it holds the two slots `p`, its displayed and its trailing one. -/
def heldPins (p : Option Nat × Option Nat) (n : Nat) : Nat := pinOn p.1 n + pinOn p.2 n

/-- The slots a head's record says it holds pins on (1.8). -/
def Head.pinned (hd : Head) : Option Nat × Option Nat := (hd.shown.map (·.slot), hd.trailing)

/-- The slots that each head holds pins on. -/
abbrev Pins : Type := HeadId → Option Nat × Option Nat

/-- The number of pins on slot `n`. -/
def Pins.on (g : Pins) (n : Nat) : Nat := ∑ d, heldPins (g d) n

/-- The pins that the heads' records tell of. -/
def State.pins (s : State) : Pins := fun d => (s.head d).pinned

theorem pinsAgree_iff (s : State) : s.pinsAgree ↔ ∀ n, (s.slot n).pins = s.pins.on n := by
  refine forall_congr' fun n => ?_
  show _ = (allHeads.map fun h => heldPins (s.head h).pinned n).sum ↔ _
  simp [allHeads, Pins.on, State.pins, Fin.sum_univ_four, add_assoc]

theorem Pins.on_update (g : Pins) (d : HeadId) (v : Option Nat × Option Nat) (n : Nat) :
    Pins.on (Function.update g d v) n + heldPins (g d) n = g.on n + heldPins v n := by
  unfold Pins.on
  rw [← Finset.add_sum_erase _ _ (Finset.mem_univ d), ← Finset.add_sum_erase _ (fun d => heldPins (g d) n) (Finset.mem_univ d)]
  have hrest : ∑ e ∈ Finset.univ.erase d, heldPins (Function.update g d v e) n = ∑ e ∈ Finset.univ.erase d, heldPins (g e) n :=
    Finset.sum_congr rfl fun e he => by rw [Function.update_of_ne (Finset.ne_of_mem_erase he)]
  rw [hrest, Function.update_self]
  omega

theorem Pins.held_le (g : Pins) (d : HeadId) (n : Nat) : heldPins (g d) n ≤ g.on n :=
  Finset.single_le_sum (f := fun d => heldPins (g d) n) (fun _ _ => Nat.zero_le _) (Finset.mem_univ d)

/-! ## The discipline -/

/-- The slot laws hold, and the pin counts are those of the pins `x.2`. -/
structure PinsTrue (x : State × Pins) : Prop where
  lawful : x.1.slotsLawful
  count : ∀ n, (x.1.slot n).pins = x.2.on n

/-- Events that keep the pin counts: a head with no tick in progress holds the pins its record tells of, and its record is its own
while its tick is in progress. -/
def pinsDiscipline : Discipline Pins where
  Inv := PinsTrue
  Idle
    | .head d, x => x.2 d = (x.1.head d).pinned
    | _, _ => True
  Rely
    | .head d, x, y => y.2 d = x.2 d ∧ y.1.head d = x.1.head d
    | _, _, _ => True
  refl a x := by cases a <;> simp
  trans {a x y z} h h' := by
    cases a with
    | head d => exact ⟨h'.1.trans h.1, h'.2.trans h.2⟩
    | _ => trivial
  stable {a x y} h hidle := by
    cases a with
    | head d =>
      obtain ⟨hpins, hhead⟩ := h
      exact (hpins.trans hidle).trans (congrArg Head.pinned hhead).symm
    | _ => trivial

/-- The change of a head's pins, with what others rely on. -/
theorem PinsTrue.change {s t : State} {g : Pins} (hg : PinsTrue (s, g)) (d : HeadId) (v : Option Nat × Option Nat)
    (hlaw : t.slotsLawful) (hpins : ∀ n, (t.slot n).pins + heldPins (g d) n = (s.slot n).pins + heldPins v n)
    (hothers : ∀ e, e ≠ d → t.head e = s.head e) :
    pinsDiscipline.Inv (t, Function.update g d v) ∧
      ∀ a, a ≠ .head d → pinsDiscipline.Rely a (s, g) (t, Function.update g d v) := by
  refine ⟨⟨hlaw, fun n => ?_⟩, fun a ha => ?_⟩
  · have hs : (s.slot n).pins = g.on n := hg.count n
    have ht := hpins n
    have hu := Pins.on_update g d v n
    show (t.slot n).pins = Pins.on (Function.update g d v) n
    omega
  · cases a with
    | head e =>
      have he : e ≠ d := fun h => ha (by rw [h])
      exact ⟨Function.update_of_ne he _ _, hothers e he⟩
    | _ => trivial

/-- The slots' pins and the heads are those of `s`, and the laws hold. -/
structure State.SamePins (s t : State) : Prop where
  lawful : t.slotsLawful
  pins : ∀ n, (t.slot n).pins = (s.slot n).pins
  heads : t.heads = s.heads

theorem State.SamePins.refl {s : State} (h : s.slotsLawful) : s.SamePins s := ⟨h, fun _ => rfl, rfl⟩

/-- A change that leaves the pins and the heads. -/
theorem pins_move_same {s t : State} (b : List Agent) (h : s.slotsLawful → s.SamePins t) : pinsDiscipline.Move b s t := by
  intro g hinv hidle
  obtain ⟨hlaw, hpins, hheads⟩ := h hinv.lawful
  have hhead := State.head_congr hheads
  refine ⟨g, ⟨hlaw, fun n => (hpins n).trans (hinv.count n)⟩, fun a _ => ?_, fun a ha => ?_⟩
  · cases a with
    | head d => exact ⟨rfl, hhead d⟩
    | _ => trivial
  · have := hidle a ha
    cases a with
    | head d => exact Eq.trans this (congrArg Head.pinned (hhead d)).symm
    | _ => trivial

/-- A change of head `d` at its block, in step with the slots' pins. -/
theorem pins_move_at {s t : State} {b : List Agent} {d : HeadId} (hd : .head d ∈ b) (hothers : ∀ e, e ≠ d → t.head e = s.head e)
    (hlaw : s.slotsLawful → t.slotsLawful)
    (hpins : ∀ n, heldPins (s.head d).pinned n ≤ (s.slot n).pins →
      (t.slot n).pins + heldPins (s.head d).pinned n = (s.slot n).pins + heldPins (t.head d).pinned n) :
    pinsDiscipline.Move b s t := by
  intro g hinv hidle
  have hown : g d = (s.head d).pinned := hidle _ hd
  obtain ⟨hinv', hrely⟩ := PinsTrue.change hinv d (t.head d).pinned (hlaw hinv.lawful) (fun n => by
    rw [hown]
    exact hpins n (by rw [← hown]; exact le_of_le_of_eq (g.held_le d n) (hinv.count n).symm)) hothers
  refine ⟨_, hinv', fun a ha => hrely a fun h => ha (h ▸ hd), fun a ha => ?_⟩
  by_cases had : a = .head d
  · rw [had]
    exact Function.update_self _ _ _
  · exact pinsDiscipline.stable (hrely a had) (hidle a ha)

/-- A change of the record of head `d` that leaves the slots it holds. -/
theorem pins_move_setHead {s : State} {b : List Agent} {d : HeadId} (hd : .head d ∈ b) {x : Head}
    (hx : x.pinned = (s.head d).pinned) : pinsDiscipline.Move b s (s.setHead d x) :=
  pins_move_at hd (fun e he => by simp [he]) id fun n _ => by simp [hx]

theorem pins_move_beside (b : List Agent) {s t : State} (h : t.SameBooks s) : pinsDiscipline.Move b s t :=
  pins_move_same b fun hs => ⟨slotsLawful_kept.beside h hs, fun n => by rw [State.slot_congr h.slots], h.heads⟩

theorem pins_move_mail (b : List Agent) (s : State) (m : Mail) : pinsDiscipline.Move b s (s.setMail m) :=
  pins_move_same b fun hs => ⟨hs, fun _ => rfl, rfl⟩

/-! ## The slot operations and the channels -/

theorem State.slot_pins_of_setSlot {s u : State} {n : Nat} {x : Slot} (hu : u.slot = s.slot) (hx : x.pins = (s.slot n).pins)
    (m : Nat) : ((u.setSlot n x).slot m).pins = (s.slot m).pins := by
  rw [State.setSlot_slot, hu]
  split
  · rename_i hm
    rw [hm, hx]
  · rfl

theorem State.indexCommit_slot (s : State) (n : Nat) : (s.indexCommit n).slot = s.slot := by
  rw [State.indexCommit_frame]
  rfl

theorem State.take_pins (s : State) (n r m : Nat) : ((s.take n r).1.slot m).pins = (s.slot m).pins := by
  rcases s.take_cases n r with ⟨_, _, _, hp, h⟩ | ⟨_, h⟩ <;> rw [h]
  exact State.slot_pins_of_setSlot rfl hp.symm m

theorem State.commit_pins (s : State) (n m : Nat) : ((s.commit n).1.slot m).pins = (s.slot m).pins := by
  rcases s.commit_cases n with ⟨_, h⟩ | ⟨_, h⟩ <;> rw [h]
  exact State.slot_pins_of_setSlot (s.indexCommit_slot n) (by rfl) m

theorem State.empty_pins {s : State} (hs : s.slotsLawful) (n m : Nat) : ((s.empty n).1.slot m).pins = (s.slot m).pins := by
  have hrec := (hs n).1
  rcases s.empty_cases n with ⟨hfree, h⟩ | ⟨_, h⟩ | ⟨_, _, h⟩ <;> rw [h]
  refine State.slot_pins_of_setSlot rfl ?_ m
  rcases hfree with hr | ⟨_, _, hp⟩
  · exact (hrec (by simp [hr])).2.symm
  · exact hp.symm

theorem State.lock_pins (s : State) (n r m : Nat) : ((s.lock n r).1.slot m).pins = (s.slot m).pins := by
  rcases s.lock_cases n r with ⟨_, _, _, _, h⟩ | ⟨_, _, _, _, h⟩ | ⟨_, h⟩ <;> rw [h]
  · exact State.slot_pins_of_setSlot (funext fun m => s.countLocked_slot n m _) (by rfl) m
  · exact State.slot_pins_of_setSlot rfl (by rfl) m

theorem State.unlock_pins (s : State) (n m : Nat) : ((s.unlock n).1.slot m).pins = (s.slot m).pins := by
  rcases s.unlock_cases n with ⟨_, h⟩ | ⟨_, h⟩ | ⟨_, h⟩ <;> rw [h]
  · exact State.slot_pins_of_setSlot (funext fun m => s.countLocked_slot n m _) (by rfl) m
  · exact State.slot_pins_of_setSlot rfl (by rfl) m

/-- The work of the channels leaves the pins. -/
theorem State.samePins_kept (s : State) : ChannelKept s.SamePins where
  raiseAt t _ _ _ _ _ _ h := ⟨h.lawful, h.pins, h.heads⟩
  mail t _ h := ⟨h.lawful, h.pins, h.heads⟩
  record t c x _ h := ⟨h.lawful, h.pins, h.heads⟩
  take t n r h := ⟨slotsLawful_kept.take t n r h.lawful, fun m => (t.take_pins n r m).trans (h.pins m), by
    rw [State.take_frame]; exact h.heads⟩
  commit t n h := ⟨slotsLawful_kept.commit t n h.lawful, fun m => (t.commit_pins n m).trans (h.pins m), by
    rw [State.commit_frame]; exact h.heads⟩
  empty t n h := ⟨slotsLawful_kept.empty t n h.lawful, fun m => (State.empty_pins h.lawful n m).trans (h.pins m), by
    rw [State.empty_frame]; exact h.heads⟩

theorem channelSetup_samePins (r : CmdArgs) {s : State} (hs : s.slotsLawful) : s.SamePins (channelSetup r s).1 := by
  rcases channelSetup_cases r s with h | ⟨c, _, h | ⟨f, n, p, v, _, _, _, _, _, _, h⟩⟩ <;> rw [h] <;>
    exact ⟨hs, fun _ => rfl, rfl⟩

/-! ## The heads -/

theorem State.unpin_pins (s : State) (o : Option Nat) (n : Nat) :
    ((s.unpinIf o).slot n).pins = (s.slot n).pins - pinOn o n := by
  rw [State.unpinIf_slot]
  unfold pinOn
  split <;> simp [Slot.unpinned]

theorem State.idleHead_pins (s : State) (d : HeadId) (n : Nat) :
    ((s.idleHead d).slot n).pins =
      (s.slot n).pins - (if (s.head d).src = .idle then 0 else pinOn (s.head d).pinned.1 n) - pinOn (s.head d).pinned.2 n := by
  rw [State.idleHead_slot]
  unfold pinOn Head.pinned
  split_ifs <;> rfl

theorem State.idleHead_pinned (s : State) (d : HeadId) :
    ((s.idleHead d).head d).pinned = if (s.head d).src = .idle then ((s.head d).pinned.1, none) else (none, none) := by
  rw [State.idleHead_head, if_pos rfl]
  split_ifs <;> rfl

theorem slotsLawful_unpinIf {s : State} (o : Option Nat) : s.slotsLawful → (s.unpinIf o).slotsLawful :=
  slotsLawful_kept.books.head.unpinIf s o

/-- The trailing slot is unpinned, and the displayed one becomes trailing or stays (R48, R54). -/
theorem pins_move_unpin {s : State} {b : List Agent} {d : HeadId} (hd : .head d ∈ b) {x : Head}
    (hx : x.pinned = ((s.head d).pinned.1, none) ∨ x.pinned = (none, (s.head d).pinned.1)) :
    pinsDiscipline.Move b s ((s.unpinIf (s.head d).trailing).setHead d x) := by
  refine pins_move_at hd (fun e he => by simp [he]) (slotsLawful_unpinIf _) fun n hn => ?_
  have hpin : (((s.unpinIf (s.head d).trailing).setHead d x).slot n).pins = _ := s.unpin_pins (s.head d).trailing n
  rw [hpin]
  simp only [State.setHead_head, if_true]
  rcases hx with hx | hx <;> rw [hx] <;> simp only [heldPins, Head.pinned, pinOn_none] at hn ⊢ <;> omega

theorem pins_move_headSource (b : List Agent) (r : CmdArgs) (s : State) (hb : headBlock r ⊆ b) :
    pinsDiscipline.Move b s (headSource r s).1 := by
  unfold headSource
  split
  · exact .refl _ _
  · rename_i d hd
    have hd : .head d ∈ b := hb (by simp [headBlock, hd])
    have hset {x : Head} (hx : x.pinned = (s.head d).pinned) : pinsDiscipline.Move b s ((s.detachHead d).setHead d x) := by
      rw [State.detachHead_frame]
      exact .trans (pins_move_mail b s (s.mailDetached d)) (pins_move_setHead hd (s := s.setMail (s.mailDetached d)) hx)
    split
    · exact .refl _ _
    · split
      · show pinsDiscipline.Move b s (((s.unpinIf _).detachHead d).setHead d _)
        rw [State.detachHead_frame]
        exact .trans (pins_move_unpin hd (.inr rfl)) (pins_move_same b fun hs => ⟨hs, fun _ => rfl, rfl⟩)
      · split
        · exact .refl _ _
        · split_ifs
          · exact .refl _ _
          · exact .refl _ _
          · exact hset rfl
      · split_ifs
        · exact .refl _ _
        · exact .refl _ _
        · exact hset rfl
        · exact hset rfl
      · exact .refl _ _

theorem pins_move_headRate (b : List Agent) (r : CmdArgs) (s : State) (hb : headBlock r ⊆ b) :
    pinsDiscipline.Move b s (headRate r s).1 := by
  unfold headRate
  split
  · exact .refl _ _
  · split_ifs
    · exact .refl _ _
    · exact .refl _ _
    · exact pins_move_setHead (hb (by simp [headBlock, *])) rfl

theorem pins_move_headGoto (b : List Agent) (r : CmdArgs) (s : State) (hb : headBlock r ⊆ b) :
    pinsDiscipline.Move b s (headGoto r s).1 := by
  unfold headGoto
  split
  · exact .refl _ _
  · split_ifs
    · exact .refl _ _
    · exact .refl _ _
    · exact .refl _ _
    · exact pins_move_setHead (hb (by simp [headBlock, *])) rfl

theorem pins_move_idleHead (b : List Agent) (s : State) (d : HeadId) (hd : .head d ∈ b) :
    pinsDiscipline.Move b s (s.idleHead d) := by
  refine pins_move_at hd (fun e he => by rw [State.idleHead_head, if_neg he]) (slotsLawful_kept.books.head.idleHead s d) fun n hn => ?_
  rw [s.idleHead_pins, s.idleHead_pinned]
  unfold heldPins at hn ⊢
  split_ifs <;> simp only [pinOn_none] <;> omega

theorem pins_move_takeTakeover (b : List Agent) (s : State) (p : PortId) (hb : s.noticed p ⊆ b) :
    pinsDiscipline.Move b s (s.takeTakeover p) := by
  unfold State.takeTakeover
  split
  · rename_i d _ heq
    have hd : .head d ∈ b := hb (by simp [State.noticed, heq])
    dsimp only
    split
    · exact .trans (pins_move_mail b s _) (.trans (pins_move_setHead hd (x := { s.head d with owner := .panel }) rfl) (pins_move_beside b (.of (by rfl))))
    · exact pins_move_mail b s _
  · exact .refl _ _
  · exact .refl _ _

theorem pins_move_takePortLost (b : List Agent) (s : State) (p : PortId) (hb : s.noticed p ⊆ b) :
    pinsDiscipline.Move b s (s.takePortLost p) := by
  unfold State.takePortLost
  split
  · rename_i d _ heq
    have hd : .head d ∈ b := hb (by simp [State.noticed, heq])
    dsimp only
    split
    · exact .trans (pins_move_mail b s _) (pins_move_setHead hd rfl)
    · exact pins_move_mail b s _
  · exact .refl _ _
  · exact .refl _ _

theorem pins_move_takeAttach (b : List Agent) (s : State) (d : HeadId) (hd : .head d ∈ b) :
    pinsDiscipline.Move b s (s.takeAttach d) := by
  unfold State.takeAttach
  split
  · dsimp only
    split
    · exact .trans (pins_move_mail b s _) (pins_move_setHead hd rfl)
    · exact .trans (pins_move_mail b s _) (pins_move_mail b _ _)
  · exact .refl _ _
  · exact .refl _ _

theorem pins_move_takeHeadDetach (b : List Agent) (s : State) (d : HeadId) (hd : .head d ∈ b) :
    pinsDiscipline.Move b s (s.takeHeadDetach d) := by
  unfold State.takeHeadDetach
  split
  · dsimp only
    split
    · exact .trans (pins_move_mail b s _) (pins_move_setHead hd rfl)
    · exact pins_move_mail b s _
  · exact .refl _ _
  · exact .refl _ _

/-- The events made in one operation, and the operations of those that are no head's tick, keep the pin counts. -/
theorem pinsMoves : BookMoves pinsDiscipline.Move (fun _ => True) where
  trans := .trans
  table _ _ := trivial
  clips b s cl _ := pins_move_same b fun hs => ⟨hs, fun _ => rfl, rfl⟩
  aside {b s u cl} _ h :=
    .trans (t := { s with clips := cl }) (pins_move_same b fun hs => ⟨hs, fun _ => rfl, rfl⟩) (.trans h (pins_move_same b fun hs => ⟨hs, fun _ => rfl, rfl⟩))
  setClip b s k x := pins_move_same b fun hs => ⟨hs, fun _ => rfl, rfl⟩
  beside b {s t} hb := pins_move_beside b hb
  headSource := pins_move_headSource
  headRate := pins_move_headRate
  headGoto := pins_move_headGoto
  idleHead := pins_move_idleHead
  takeTakeover := pins_move_takeTakeover
  takePortLost := pins_move_takePortLost
  takeAttach := pins_move_takeAttach
  takeHeadDetach := pins_move_takeHeadDetach
  setup b r s _ := pins_move_same b fun hs => channelSetup_samePins r hs
  arm b r s _ := pins_move_same b fun hs => s.samePins_kept.channelArm r s (.refl hs)
  stop b r s _ := pins_move_same b fun hs => s.samePins_kept.channelStop r s (.refl hs)
  abort b s c q _ hbusy := pins_move_same b fun hs => s.samePins_kept.abortChannel s c q hbusy (.refl hs)
  tick b s c t _ := pins_move_same b fun hs => s.samePins_kept.tickChannel s c t (.refl hs)
  stray b s c _ := pins_move_same b fun hs => ⟨hs, fun _ => rfl, rfl⟩
  lock b s n r := pins_move_same b fun hs => ⟨slotsLawful_kept.lock s n r hs, s.lock_pins n r, by rw [State.lock_frame]⟩
  unlock b s n := pins_move_same b fun hs => ⟨slotsLawful_kept.unlock s n hs, s.unlock_pins n, by rw [State.unlock_frame]⟩

/-- CHANNEL_CLEAR keeps the pin counts. -/
theorem pins_goes_clear (kind : Byte) (r : CmdArgs) (x : State × Pins) :
    pinsDiscipline.Goes (commandProg kind r (channelClear r)) [] x := by
  refine Discipline.goes_of_each (Q := fun _ => True) (fun _ _ => trivial) (pinsMoves.events.commandProg ?_) (by simp)
  have hempty (u : State) (b : List Agent) (n : Nat) : pinsDiscipline.Move b u (u.empty n).1 :=
    pins_move_same b fun hs => u.samePins_kept.empty u n (.refl hs)
  unfold channelClear
  split
  · trivial
  · refine pinsMoves.events.each_read (by simp) fun s _ => ?_
    split
    · trivial
    · exact Prog.each_bind (Prog.each_each (by simp) fun n _ u => hempty u _ n) fun _ =>
        ⟨by simp, fun u _ => ⟨pins_move_same _ fun hs => ⟨hs, fun _ => rfl, rfl⟩, by simp, fun v _ =>
          ⟨pins_move_same _ fun hs => ⟨hs, fun _ => rfl, rfl⟩, trivial⟩⟩⟩

/-! ## A head's tick -/

/-- The pins of a head's tick: those of its record until its trailing slot is unpinned; from then on the slot it has pinned and the
displayed one, which becomes trailing. -/
def pinsTick (d : HeadId) : TickProof pinsDiscipline d where
  Before hd _ x := x.1.head d = hd ∧ x.2 d = hd.pinned
  Latched hd _ o x := x.1.head d = hd ∧ x.2 d = (o, hd.pinned.1)
  Good _ _ _ _ := True
  before_head h := h.1
  before_stable hrely h := ⟨hrely.2.trans h.1, hrely.1.trans h.2⟩
  latched_stable hrely h := ⟨hrely.2.trans h.1, hrely.1.trans h.2⟩
  idle {s} hsrc := by
    unfold State.beginTick
    split
    · exact .refl _ _
    · simp only [hsrc]
      have hbooks : ((s.setMail { s.mail with headTicks := popAt s.mail.headTicks d }).clearJog d).SameBooks s :=
        (State.clearJog_books _ _).trans (.of (by rfl))
      refine .trans (pinsMoves.beside _ hbooks) ?_
      unfold State.tickIdle
      have hhead := State.head_congr hbooks.heads d
      have := pins_move_unpin (b := [.head d]) (d := d) (by simp)
        (s := (s.setMail { s.mail with headTicks := popAt s.mail.headTicks d }).clearJog d)
        (x := { s.head d with trailing := none }) (.inl (by rw [hhead]; rfl))
      rwa [hhead] at this
  start {y} hsrc hinv hidle := by
    have hbooks : (y.1.beginTick d).SameBooks y.1 := by
      unfold State.beginTick
      split
      · exact .of rfl
      · cases h : (y.1.head d).src with
        | idle => exact absurd h hsrc
        | live c => exact (State.tickInput_books _ d _).trans (.of (by rfl))
        | clip k => exact (State.tickInput_books _ d _).trans (.of (by rfl))
    have hhead := State.head_congr hbooks.heads
    refine ⟨y.2, ⟨slotsLawful_kept.beside hbooks hinv.lawful, fun n => ?_⟩, fun a _ => ?_, hhead d, hidle⟩
    · rw [State.slot_congr hbooks.slots]
      exact hinv.count n
    · cases a with
      | head e => exact ⟨rfl, hhead e⟩
      | _ => trivial
  first _ := trivial
  again _ _ := trivial
  unpin {hd i y} h hinv := by
    obtain ⟨hhead, hown⟩ := h
    obtain ⟨hinv', hrely⟩ := PinsTrue.change hinv d (none, hd.pinned.1) (slotsLawful_unpinIf (s := y.1) hd.trailing hinv.lawful)
      (fun n => by
        have hle : heldPins (y.2 d) n ≤ _ := y.2.held_le d n
        have hcount := hinv.count n
        rw [State.unpin_pins, hown]
        rw [hown] at hle
        simp only [heldPins, Head.pinned, pinOn_none] at hle ⊢
        omega) fun e _ => State.unpinIf_head _ _ _
    exact ⟨_, hinv', hrely, (State.unpinIf_head _ _ _).trans hhead, Function.update_self _ _ _⟩
  pin {hd i n r lost y} h hinv hpin := by
    obtain ⟨hhead, hown⟩ := h
    rcases y.1.pin_cases n r with ⟨_, _, _, hp⟩ | ⟨_, hp⟩
    · have hframe (e : HeadId) : (y.1.pin n r).1.head e = y.1.head e := by
        rw [State.pin_frame]
        rfl
      obtain ⟨hinv', hrely⟩ := PinsTrue.change hinv d (some n, hd.pinned.1) (slotsLawful_kept.pin y.1 n r hinv.lawful) (fun m => by
        rw [hp, hown, State.setSlot_slot]
        by_cases hm : m = n
        · subst hm
          simp only [heldPins, pinOn, if_true, reduceCtorEq, if_false]
          omega
        · simp [heldPins, pinOn, hm, Ne.symm hm]) fun e _ => hframe e
      exact ⟨_, hinv', hrely, (hframe d).trans hhead, Function.update_self _ _ _⟩
    · rw [hp] at hpin
      cases hpin
  stop {hd i m f x t y} h _ hinv := by
    obtain ⟨hhead, hown⟩ := h
    have hbooks := State.postFit_units (y.1.setHead d ((y.1.head d).ticked m f x)) d f t
    have hheads (e : HeadId) : (y.1.endTick d m f x t).head e = if e = d then (y.1.head d).ticked m f x else y.1.head e :=
      (State.head_congr hbooks.heads e).trans (y.1.setHead_head d e _)
    refine ⟨y.2, ⟨slotsLawful_kept.beside hbooks.toSameBooks hinv.lawful, fun n => ?_⟩, fun a ha => ?_, ?_⟩
    · exact (congrArg Slot.pins (State.slot_congr hbooks.slots n)).trans (hinv.count n)
    · cases a with
      | head e => exact ⟨rfl, (hheads e).trans (if_neg fun he => ha (by rw [he]))⟩
      | _ => trivial
    · show y.2 d = ((y.1.endTick d m f x t).head d).pinned
      rw [hheads, if_pos rfl, hown, hhead]
      rfl

theorem pins_begins (fuel : Nat) (s : State) (e : BlockEvent) : pinsDiscipline.Begins s (courseOf fuel s e) :=
  pinsMoves.events.begins (fun _ _ => trivial) (fun d fuel x => (pinsTick d).goes fuel x) pins_goes_clear fuel s e

/-- At rest, the discipline says what the obligation says. -/
theorem pins_rest (s : State) :
    (∃ g, pinsDiscipline.Inv (s, g) ∧ ∀ a, pinsDiscipline.Idle a (s, g)) ↔ s.slotsLawful ∧ s.pinsAgree := by
  rw [pinsAgree_iff]
  constructor
  · rintro ⟨g, hinv, hidle⟩
    have hg : g = s.pins := funext fun d => hidle (.head d)
    exact ⟨hinv.lawful, hg ▸ hinv.count⟩
  · rintro ⟨hlaw, hcount⟩
    exact ⟨s.pins, ⟨hlaw, hcount⟩, fun a => by cases a <;> trivial⟩

theorem State.released_pinsAgree (s : State) (cb : BitVec 4) (ef : Bool) : (s.released cb ef).pinsAgree := by
  refine (pinsAgree_iff _).mpr fun n => ?_
  have hhead (d : HeadId) : (s.released cb ef).head d = {} := by
    show (Vector.replicate 4 ({} : Head)).get d = {}
    simp [Vector.get]
  have hslot : (s.released cb ef).slot n = {} := rfl
  simp [hslot, Pins.on, State.pins, hhead, Head.pinned, heldPins]

/-- Settles O6: every operation that changes a pin count changes the pins of the head that makes it, in its record or, while its tick
is in progress, in the ghost. -/
theorem everyStepKeepsPinCountsTrue : Obligations.EveryStepKeepsPinCountsTrue := by
  unfold Obligations.EveryStepKeepsPinCountsTrue
  intro s t hlaw hpins ht
  have hkept := Discipline.step pins_begins
    (fun s q g hinv hidle => (pins_rest { s with pending := q }).mpr ((pins_rest s).mp ⟨g, hinv, hidle⟩)) (fun s cb ef _ hinv _ => ?_)
    ((pins_rest s).mpr ⟨hlaw, hpins⟩) ht
  · exact ((pins_rest t).mp hkept).2
  · exact (pins_rest _).mpr ⟨slotsLawful_kept.reset s cb ef hinv.lawful, s.released_pinsAgree cb ef⟩

end Sys2Proof.Machine
end

section
/-! PROOFS. The ranges of the ports and of the heads. A port's rows write fitted or clamped values; a head's record is its own while its
tick is in progress, and the tick writes rates that the bounds steps have kept in range. -/

namespace Sys2Proof.Machine

/-! ## The records of a port -/

theorem Port.inRange_step {p : Port} (d : Int) (h : p.inRange) : (p.step d).inRange := by
  unfold Port.step
  split
  · exact h
  · rename_i a hb
    obtain ⟨h1, h2, h3, h4, h5, h6, h7, h8, h9, h10, h11, h12, h13, _, h15⟩ := h
    refine ⟨h1, h2, h3, h4, h5, h6, h7, h8, h9, h10, h11, h12, h13, ?_, h15.1, h15.2.1, h15.2.2.1, fun hn => ?_, h15.2.2.2.2⟩
    · dsimp only
      unfold clampInt
      split_ifs <;> omega
    · have hn : p.binding = none := hn
      simp [hb] at hn

theorem Port.inRange_quarters {p : Port} {q : Int} (hq : q.natAbs < p.quartersPerStep) (h : p.inRange) :
    ({ p with quarters := q } : Port).inRange := by
  obtain ⟨h1, h2, h3, h4, h5, h6, h7, h8, h9, h10, h11, h12, _, hrest⟩ := h
  exact ⟨h1, h2, h3, h4, h5, h6, h7, h8, h9, h10, h11, h12, hq, hrest⟩

theorem Port.inRange_quarter {p : Port} (d : Int) (h : p.inRange) : (p.quarter d).inRange := by
  have hq : p.quartersPerStep ∈ [1, 2, 4] := by
    obtain ⟨_, _, _, _, _, _, _, _, _, _, _, hq, _⟩ := h
    exact hq
  have hpos : 0 < p.quartersPerStep := by
    simp only [List.mem_cons, List.not_mem_nil, or_false] at hq
    omega
  unfold Port.quarter
  split_ifs
  · exact Port.inRange_step _ (Port.inRange_quarters (by simpa using hpos) h)
  · exact Port.inRange_step _ (Port.inRange_quarters (by simpa using hpos) h)
  · exact Port.inRange_quarters (by omega) h

theorem Port.inRange_decode {p : Port} (turn : Nat) (h : p.inRange) : (p.decode turn).inRange := by
  unfold Port.decode
  split
  · exact h
  · exact Port.inRange_quarter _ h
  · obtain ⟨h1, h2, h3, h4, h5, h6, h7, h8, h9, h10, h11, h12, h13, h14, _, hrest⟩ := h
    exact ⟨h1, h2, h3, h4, h5, h6, h7, h8, h9, h10, h11, h12, h13, h14, by simp, hrest⟩
  · exact Port.inRange_quarter _ h

theorem Port.inRange_setJog {p : Port} (ja jb : JogLine) (h : p.inRange) : (p.setJog ja jb).inRange :=
  Port.inRange_decode (p := { p with ja, jb }) _ h

theorem Port.inRange_jogComplete {p : Port} (h : p.inRange) : p.jogComplete.inRange := by
  unfold Port.jogComplete
  split
  · exact h
  · exact Port.inRange_setJog _ _ h

theorem Port.inRange_jogSettle {p : Port} (t : Nat) (h : p.inRange) : (p.jogSettle t).inRange := by
  unfold Port.jogSettle
  split
  · exact Port.inRange_jogComplete h
  · exact h

theorem Port.inRange_jogChange {p : Port} (ja jb : Bool) (t : Nat) (h : p.inRange) : (p.jogChange ja jb t).inRange :=
  Port.inRange_jogSettle t (p := { (p.jogSettle t).jogSettle t with ja := _, jb := _ })
    (Port.inRange_jogSettle t (Port.inRange_jogSettle t h))

theorem Port.step_binding (p : Port) (d : Int) : (p.step d).binding = p.binding := by
  unfold Port.step
  split <;> rfl

theorem Port.setJog_binding (p : Port) (ja jb : JogLine) : (p.setJog ja jb).binding = p.binding := by
  have hquarter (q : Port) (d : Int) : (q.quarter d).binding = q.binding := by
    unfold Port.quarter
    split_ifs
    · exact Port.step_binding _ _
    · exact Port.step_binding _ _
    · rfl
  unfold Port.setJog Port.decode
  split
  · rfl
  · exact hquarter _ _
  · rfl
  · exact hquarter _ _

theorem Port.jogComplete_binding (p : Port) : p.jogComplete.binding = p.binding := by
  unfold Port.jogComplete
  split
  · rfl
  · exact Port.setJog_binding _ _ _

theorem Port.jogSettle_binding (p : Port) (t : Nat) : (p.jogSettle t).binding = p.binding := by
  unfold Port.jogSettle
  split
  · exact p.jogComplete_binding
  · rfl

theorem Port.jogChange_binding (p : Port) (ja jb : Bool) (t : Nat) : (p.jogChange ja jb t).binding = p.binding :=
  (Port.jogSettle_binding _ t).trans ((Port.jogSettle_binding _ t).trans (p.jogSettle_binding t))

theorem Port.inRange_setKey {p : Port} (k : Key) (x : KeyLine) (h : p.inRange) : (p.setKey k x).inRange := by
  cases k <;> exact h

theorem Port.setKey_binding (p : Port) (k : Key) (x : KeyLine) : (p.setKey k x).binding = p.binding := by
  cases k <;> rfl

/-- The lever's value, its restore count and its fault with the zone are in range. -/
theorem Port.inRange_lever {p : Port} {u rs : Nat} {f o : Bool} (hu : u ≤ 1023) (hr : rs ≤ 4) (hf : f = true → o = false)
    (h : p.inRange) : ({ p with lever := u, restore := rs, fault := f, outside := o } : Port).inRange := by
  obtain ⟨_, _, h3, h4, h5, h6, h7, h8, h9, h10, h11, h12, h13, h14, h15, h16, h17, h18, _⟩ := h
  exact ⟨hu, hr, h3, h4, h5, h6, h7, h8, h9, h10, h11, h12, h13, h14, h15, h16, h17, h18, hf⟩

theorem raiseKnots_le {ks : List Nat} {fl m : Nat} (hfl : fl ≤ m) (h : ∀ k ∈ ks, k ≤ m) : ∀ k ∈ raiseKnots fl ks, k ≤ m := by
  induction ks generalizing fl with
  | nil => simp [raiseKnots]
  | cons k ks ih =>
    obtain ⟨hk, hks⟩ := List.forall_mem_cons.mp h
    exact List.forall_mem_cons.mpr ⟨max_le hfl hk, ih (max_le hfl hk) hks⟩

theorem clampNat_mem {lo hi : Nat} (v : Nat) (h : lo ≤ hi) : lo ≤ clampNat lo hi v ∧ clampNat lo hi v ≤ hi := by
  unfold clampNat
  split_ifs <;> omega

/-- A fitted curve is in range. -/
theorem Port.inRange_withCurve {p : Port} (data : List Byte) (h : p.inRange) : (p.withCurve data).rezone.inRange := by
  obtain ⟨h1, h2, _, _, _, _, _, _, _, _, h11, h12, h13, h14, h15, h16, h17, h18, _⟩ := h
  obtain ⟨hclo, hchi⟩ := clampNat_mem (lo := 256) (hi := 767) (curveField data 0x22) (by omega)
  obtain ⟨_, hdhi⟩ := clampNat_mem (lo := 0) (hi := 127) (curveField data 0x24) (by omega)
  obtain ⟨hwlo, hwhi⟩ := clampNat_mem (lo := 1) (hi := 2048) (curveField data 0x26) (by omega)
  refine ⟨h1, h2, ?_, ?_, (raiseKnots_sorted _ 0).1, hclo, hchi, hdhi, hwlo, hwhi, h11, h12, h13, h14, h15, h16, h17, h18, ?_⟩
  · exact (raiseKnots_length _ 0).trans (by simp [curveKnots])
  · exact raiseKnots_le (Nat.zero_le _) fun k hk => by
      obtain ⟨j, _, rfl⟩ := List.mem_map.mp hk
      exact min_le_right _ _
  · intro hf
    have hf : p.fault = true := hf
    simp [Port.rezone, Port.withCurve, hf]

/-- Fitted timings are in range. -/
theorem Port.inRange_retime {p : Port} (r : CmdArgs) (o l : Bool) (t : Nat) (h : p.inRange) : (p.retime r o l t).inRange := by
  obtain ⟨h1, h2, h3, h4, h5, h6, h7, h8, h9, h10, _, _, _, h14, _, _, _, h18, h19⟩ := h
  obtain ⟨hlo, hhi⟩ := clampNat_mem (lo := 1) (hi := 64) r.d.toNat (by omega)
  refine ⟨h1, h2, h3, h4, h5, h6, h7, h8, h9, h10, min_le_right _ _, ?_, ?_, h14, Nat.zero_le _, hlo, hhi, h18, h19⟩
  · show fitQuarters r.b.toNat ∈ [1, 2, 4]
    unfold fitQuarters
    split_ifs <;> simp
  · show (0 : Int).natAbs < fitQuarters r.b.toNat
    unfold fitQuarters
    split_ifs <;> simp

theorem Port.inRange_rebound {p : Port} (o : Option HeadId) (h : p.inRange) : ({ p with binding := o, jog := 0 } : Port).inRange := by
  obtain ⟨h1, h2, h3, h4, h5, h6, h7, h8, h9, h10, h11, h12, h13, _, h15, h16, h17, _, h19⟩ := h
  exact ⟨h1, h2, h3, h4, h5, h6, h7, h8, h9, h10, h11, h12, h13, by simp, h15, h16, h17, fun _ => rfl, h19⟩

theorem Port.inRange_default : ({} : Port).inRange := by
  unfold Port.inRange
  decide

theorem Port.inRange_released (p : Port) : p.released.inRange := Port.inRange_default

/-! ## The ports of a state -/

theorem State.port_congr {s t : State} (h : t.ports = s.ports) (p : PortId) : t.port p = s.port p := by
  unfold State.port
  rw [h]

theorem State.portsInRange_congr {s t : State} (h : t.ports = s.ports) (hs : s.portsInRange) : t.portsInRange := by
  obtain ⟨hin, happ⟩ := hs
  refine ⟨fun p => ?_, fun d => ?_⟩
  · rw [State.port_congr h]
    exact hin p
  · rw [State.port_congr h, State.port_congr h]
    exact happ d

theorem State.portsInRange_setPort {s : State} {p : PortId} {x : Port} (hx : (s.port p).inRange → x.inRange)
    (hb : x.binding = (s.port p).binding) (hs : s.portsInRange) : (s.setPort p x).portsInRange := by
  obtain ⟨hin, happ⟩ := hs
  have hbind (q : PortId) : ((s.setPort p x).port q).binding = (s.port q).binding := by
    rw [State.setPort_port]
    split
    · rename_i h
      rw [h, hb]
    · rfl
  refine ⟨fun q => ?_, fun d => ?_⟩
  · rw [State.setPort_port]
    split
    · exact hx (hin p)
    · exact hin q
  · rw [hbind, hbind]
    exact happ d

theorem State.faultLever_inRange (s : State) (p : PortId) (why : Reason) (v : Nat) (hs : s.portsInRange) :
    (s.faultLever p why v).portsInRange := by
  unfold State.faultLever
  split
  · rename_i hf
    exact State.portsInRange_setPort (fun h => Port.inRange_lever h.1 (by omega) (fun _ => by
      obtain ⟨_, _, _, _, _, _, _, _, _, _, _, _, _, _, _, _, _, _, h19⟩ := h
      exact h19 hf) h) rfl hs
  · exact State.portsInRange_congr (by rfl) (State.portsInRange_setPort (p := p)
      (x := { s.port p with fault := true, restore := 0, outside := false })
      (fun h => Port.inRange_lever h.1 (by omega) (fun _ => rfl) h) rfl hs)

theorem State.noticeTakeover_ports (s : State) (p : PortId) : (s.noticeTakeover p).ports = s.ports := by
  unfold State.noticeTakeover
  split <;> rfl

theorem State.validCycle_inRange (s : State) (p : PortId) (u : Nat) (hu : u ≤ 1023) (hs : s.portsInRange) :
    (s.validCycle p u).portsInRange := by
  have hzone (h : (s.port p).inRange) : (s.port p).fault = true → (s.port p).outside = false := by
    obtain ⟨_, _, _, _, _, _, _, _, _, _, _, _, _, _, _, _, _, _, h19⟩ := h
    exact h19
  have hset : (s.setPort p { s.port p with lever := u }).portsInRange :=
    State.portsInRange_setPort (fun h => Port.inRange_lever hu h.2.1 (hzone h) h) rfl hs
  unfold State.validCycle State.restoreLever State.zoneCycle
  revert hset hzone
  generalize s.setPort p { s.port p with lever := u } = t
  intro _ ht
  have hzone (h : (t.port p).inRange) : (t.port p).fault = true → (t.port p).outside = false := by
    obtain ⟨_, _, _, _, _, _, _, _, _, _, _, _, _, _, _, _, _, _, h19⟩ := h
    exact h19
  dsimp only
  split
  · rename_i hf
    split
    · rename_i hlt
      exact State.portsInRange_setPort (fun h => Port.inRange_lever h.1 (by simp only [Config.restoreCycles] at hlt; omega) (hzone h) h)
        rfl ht
    · exact State.portsInRange_congr (by rfl) (State.portsInRange_setPort (p := p)
        (x := { t.port p with fault := false, restore := 0, outside := (t.port p).leverOutside })
        (fun h => Port.inRange_lever h.1 (by omega) (by simp) h) rfl ht)
  · rename_i hf
    have hset : (t.setPort p { t.port p with outside := (t.port p).leverOutside }).portsInRange :=
      State.portsInRange_setPort (fun h => Port.inRange_lever h.1 h.2.1 (fun h => absurd h hf) h) rfl ht
    split
    · exact State.portsInRange_congr (State.noticeTakeover_ports _ _) hset
    · exact hset

theorem State.closeCycle_inRange (s : State) (p : PortId) (period active : Nat) (hs : s.portsInRange) :
    (s.closeCycle p period active).portsInRange := by
  unfold State.closeCycle
  split
  · exact s.faultLever_inRange _ _ _ hs
  · exact s.validCycle_inRange _ _ (min_le_left _ _) hs

theorem State.noEdgeExpiry_inRange (s : State) (p : PortId) (hs : s.portsInRange) : (s.noEdgeExpiry p).portsInRange :=
  State.faultLever_inRange _ _ _ _ (State.portsInRange_setPort (s := s.setTime _) id rfl hs)

theorem State.edge_inRange (s : State) (p : PortId) (level : Bool) (hs : s.portsInRange) : (s.edge p level).portsInRange := by
  have hset {t : State} (c : Option LevCycle) (ht : t.portsInRange) : (t.setPort p { t.port p with cycle := c }).portsInRange :=
    State.portsInRange_setPort id rfl ht
  have h1 : (s.setPort p { s.port p with lev := level, noEdge := s.now }).portsInRange := State.portsInRange_setPort id rfl hs
  unfold State.edge State.activeEdge State.inactiveEdge
  dsimp only
  split
  · split
    · exact hset _ h1
    · exact State.closeCycle_inRange _ _ _ _ (hset _ h1)
  · split
    · exact h1
    · exact hset _ h1

theorem State.levEdge_inRange (s : State) (p : PortId) (level : Bool) (time : Nat) (hs : s.portsInRange) :
    (s.levEdge p level time).portsInRange := by
  unfold State.levEdge
  split
  · exact hs
  · refine State.edge_inRange _ _ _ (State.portsInRange_congr (s := if _ then _ else _) (by rfl) ?_)
    split
    · exact s.noEdgeExpiry_inRange p hs
    · exact hs

theorem State.jogLines_inRange (s : State) (p : PortId) (ja jb : Bool) (time : Nat) (hs : s.portsInRange) :
    (s.jogLines p ja jb time).portsInRange :=
  State.portsInRange_setPort (s := s.setTime time) (Port.inRange_jogChange _ _ _) (Port.jogChange_binding _ _ _ _) hs

theorem State.jogExpiry_inRange (s : State) (p : PortId) (hs : s.portsInRange) : (s.jogExpiry p).portsInRange := by
  unfold State.jogExpiry
  split
  · exact hs
  · exact State.portsInRange_setPort (s := s.setTime _) Port.inRange_jogComplete (Port.jogComplete_binding _) hs

theorem State.keyExpiry_inRange (s : State) (p : PortId) (k : Key) (hs : s.portsInRange) : (s.keyExpiry p k).portsInRange := by
  have hset (t : State) (x : KeyLine) (ht : t.portsInRange) : (t.setPort p ((t.port p).setKey k x)).portsInRange :=
    State.portsInRange_setPort (Port.inRange_setKey _ _) (Port.setKey_binding _ _ _) ht
  unfold State.keyExpiry
  split
  · exact hs
  · unfold State.keyAccept
    dsimp only
    split
    · have hpress (t : State) : (t.press p k).ports = t.ports := by
        unfold State.press
        split <;> rfl
      exact State.portsInRange_congr (hpress _) (hset (s.setTime _) _ hs)
    · exact hset (s.setTime _) _ hs

theorem State.keyChange_inRange (s : State) (p : PortId) (k : Key) (level : Bool) (time : Nat) (hs : s.portsInRange) :
    (s.keyChange p k level time).portsInRange := by
  unfold State.keyChange
  dsimp only
  have hfirst : (if ((s.port p).keyDue k).any (fun d => decide (d ≤ max s.now time)) then s.keyExpiry p k else s).portsInRange := by
    split
    · exact s.keyExpiry_inRange p k hs
    · exact hs
  exact State.portsInRange_setPort (s := State.setTime _ time) (Port.inRange_setKey _ _) (Port.setKey_binding _ _ _) hfirst

theorem panelTiming_inRange (r : CmdArgs) (s : State) (hs : s.portsInRange) : (panelTiming r s).1.portsInRange := by
  unfold panelTiming
  split
  · exact State.portsInRange_setPort (Port.inRange_retime _ _ _ _) rfl hs
  · exact hs

theorem State.curveEnd_inRange (s : State) (data : List Byte) (st : Status) (hs : s.portsInRange) :
    (s.curveEnd data st).portsInRange := by
  cases st with
  | error => exact State.portsInRange_congr s.curveFail_units.ports hs
  | good =>
    show (s.installCurve data).portsInRange
    unfold State.installCurve
    split
    · exact State.portsInRange_congr (State.endCommand_units _ _).ports
        (State.portsInRange_setPort (Port.inRange_withCurve data) rfl hs)
    · exact hs

theorem State.clearJog_inRange (s : State) (d : HeadId) (hs : s.portsInRange) : (s.clearJog d).portsInRange := by
  unfold State.clearJog
  split
  · exact hs
  · exact State.portsInRange_setPort (Port.inRange_rebound _) rfl hs

theorem otherPort_ne (p : PortId) : otherPort p ≠ p := by
  revert p
  decide

theorem eq_or_eq_otherPort (p q : PortId) : q = p ∨ q = otherPort p := by
  revert p q
  decide

/-- No head is bound to both ports, said of a port and the other one. -/
theorem State.apart_iff (s : State) (p : PortId) :
    (∀ h, ¬((s.port 0).binding = some h ∧ (s.port 1).binding = some h)) ↔
      ∀ h, (s.port p).binding = some h → (s.port (otherPort p)).binding ≠ some h := by
  have hp : p = 0 ∨ p = 1 := by
    revert p
    decide
  rcases hp with rfl | rfl
  · exact forall_congr' fun h => by
      show _ ↔ (_ → (s.port 1).binding ≠ some h)
      tauto
  · exact forall_congr' fun h => by
      show _ ↔ (_ → (s.port 0).binding ≠ some h)
      tauto

theorem State.noticeLost_ports (s : State) (p : PortId) (o : Option HeadId) : (s.noticeLost p o).ports = s.ports := by
  cases o <;> rfl

/-- What binding port `p` to `o` makes of the ports (R130). -/
theorem State.bind_port (s : State) (p : PortId) (o : Option HeadId) (q : PortId) :
    (s.bind p o).port q =
      if q = p then { s.port p with binding := o, jog := 0 }
      else if o ≠ none ∧ (s.port q).binding = o then { s.port q with binding := none, jog := 0 } else s.port q := by
  have hother := otherPort_ne p
  have hnotice (t : State) (a : PortId) (x : Option HeadId) (b : PortId) : (t.noticeLost a x).port b = t.port b :=
    State.port_congr (t.noticeLost_ports a x) b
  have htake (t : State) (b : PortId) : (t.takeFromOther p o).port b =
      if b = otherPort p ∧ o ≠ none ∧ (t.port b).binding = o then { t.port b with binding := none, jog := 0 } else t.port b := by
    unfold State.takeFromOther
    cases o with
    | none => simp
    | some h =>
      dsimp only
      split
      · rename_i hb
        rw [hnotice, State.setPort_port]
        by_cases hbp : b = otherPort p
        · simp [hbp, hb]
        · simp [hbp]
      · rename_i hb
        rw [if_neg]
        rintro ⟨rfl, _, h'⟩
        exact hb h'
  unfold State.bind
  dsimp only
  rw [State.setPort_port]
  by_cases hq : q = p
  · rw [if_pos hq, if_pos hq, htake, hnotice, if_neg (fun h => hother h.1.symm)]
  · have hqo : q = otherPort p := (eq_or_eq_otherPort p q).resolve_left hq
    rw [if_neg hq, if_neg hq, htake, hnotice]
    simp [hqo]

theorem panelBind_inRange (r : CmdArgs) (s : State) (hs : s.portsInRange) : (panelBind r s).1.portsInRange := by
  unfold panelBind
  split
  · rename_i p o _ _
    dsimp only
    split
    · exact hs
    · obtain ⟨hin, _⟩ := hs
      refine ⟨fun q => ?_, (State.apart_iff _ p).mpr fun h => ?_⟩
      · rw [State.bind_port]
        split_ifs
        · exact Port.inRange_rebound _ (hin p)
        · exact Port.inRange_rebound _ (hin q)
        · exact hin q
      · rw [State.bind_port, State.bind_port, if_pos rfl, if_neg (otherPort_ne p)]
        intro ho
        have ho : o = some h := ho
        subst ho
        split_ifs with hb
        · simp
        · exact fun h' => hb ⟨by simp, h'⟩
  · exact hs

/-! ## The discipline -/

/-- Events that keep the ranges: a head's record is its own while its tick is in progress. -/
def rangeDiscipline : Discipline Unit where
  Inv x := x.1.headsInRange ∧ x.1.portsInRange
  Idle _ _ := True
  Rely
    | .head d, x, y => y.1.head d = x.1.head d
    | _, _, _ => True
  refl a x := by cases a <;> trivial
  trans {a x y z} h h' := by
    cases a with
    | head d => exact Eq.trans h' h
    | _ => trivial
  stable _ _ := trivial

/-- A change that leaves the heads and keeps the ports in range. -/
theorem range_move_ports {s t : State} (b : List Agent) (hheads : t.heads = s.heads) (hports : s.portsInRange → t.portsInRange) :
    rangeDiscipline.Move b s t := by
  rintro g ⟨hin, hp⟩ _
  have hhead := State.head_congr hheads
  refine ⟨g, ⟨fun d => ?_, hports hp⟩, fun a _ => ?_, fun _ _ => trivial⟩
  · exact (hhead d).symm ▸ hin d
  · cases a with
    | head d => exact hhead d
    | _ => trivial

theorem range_move_units {s t : State} (b : List Agent) (h : t.UnitsOnly s) : rangeDiscipline.Move b s t :=
  range_move_ports b h.heads (State.portsInRange_congr h.ports)

/-- A change of head `d` at its block that keeps its record in range, and the ports. -/
theorem range_move_at {s t : State} {b : List Agent} {d : HeadId} (hd : .head d ∈ b) (hothers : ∀ e, e ≠ d → t.head e = s.head e)
    (hown : (s.head d).inRange → (t.head d).inRange) (hports : t.ports = s.ports) : rangeDiscipline.Move b s t := by
  rintro g ⟨hin, hp⟩ _
  refine ⟨g, ⟨fun e => ?_, State.portsInRange_congr hports hp⟩, fun a ha => ?_, fun _ _ => trivial⟩
  · by_cases he : e = d
    · rw [he]
      exact hown (hin d)
    · exact (hothers e he).symm ▸ hin e
  · cases a with
    | head e => exact hothers e fun he => ha (he ▸ hd)
    | _ => trivial

theorem range_move_setHead {s : State} {b : List Agent} {d : HeadId} (hd : .head d ∈ b) {x : Head}
    (hx : (s.head d).inRange → x.inRange) : rangeDiscipline.Move b s (s.setHead d x) :=
  range_move_at hd (fun e he => by simp [he]) (by simpa using hx) rfl

theorem range_move_unpinIf (b : List Agent) (s : State) (o : Option Nat) : rangeDiscipline.Move b s (s.unpinIf o) := by
  rw [State.unpinIf_frame]
  exact range_move_ports b rfl id

theorem range_move_detachHead (b : List Agent) (s : State) (d : HeadId) : rangeDiscipline.Move b s (s.detachHead d) :=
  range_move_units b (s.detachHead_units d)

theorem range_move_mail (b : List Agent) (s : State) (m : Mail) : rangeDiscipline.Move b s (s.setMail m) :=
  range_move_ports b rfl id

/-! ## The heads -/

/-- A head taken by HEAD_SOURCE is in range. -/
theorem Head.inRange_sourced {h x : Head} (hh : h.inRange) (hr : x.rate = 0) (ht : x.target = 0) (hs : x.slew = h.slew)
    (hi : x.src = .idle → x.owner = .command ∧ x.goto = none ∧ x.shown = none) : x.inRange := by
  obtain ⟨_, _, hlo, hhi, _⟩ := hh
  refine ⟨by simp [hr], by simp [ht], by rwa [hs], by rwa [hs], fun hsrc => ?_⟩
  obtain ⟨ho, hg, hx⟩ := hi hsrc
  exact ⟨hr, ht, ho, hg, hx⟩

theorem range_move_headSource (b : List Agent) (r : CmdArgs) (s : State) (hb : headBlock r ⊆ b) :
    rangeDiscipline.Move b s (headSource r s).1 := by
  unfold headSource
  split
  · exact .refl _ _
  · rename_i d hd
    have hd : .head d ∈ b := hb (by simp [headBlock, hd])
    have hset {t : State} {x : Head} (ht : rangeDiscipline.Move b s t) (heq : t.head d = s.head d)
        (hx : (s.head d).inRange → x.inRange) : rangeDiscipline.Move b s ((t.detachHead d).setHead d x) :=
      .trans ht (.trans (range_move_detachHead b t d) (range_move_setHead hd (by rw [State.detachHead_head, heq]; exact hx)))
    split
    · exact .refl _ _
    · split
      · exact hset (range_move_unpinIf b s _) (by simp) fun h => Head.inRange_sourced h rfl rfl rfl fun _ => ⟨rfl, rfl, rfl⟩
      · split
        · exact .refl _ _
        · split_ifs
          · exact .refl _ _
          · exact .refl _ _
          · exact hset (.refl _ _) rfl fun h => Head.inRange_sourced h rfl rfl rfl fun h => by simp at h
      · split_ifs
        · exact .refl _ _
        · exact .refl _ _
        · exact hset (.refl _ _) rfl fun h => Head.inRange_sourced h rfl rfl rfl fun h => by simp at h
        · exact hset (.refl _ _) rfl fun h => Head.inRange_sourced h rfl rfl rfl fun h => by simp at h
      · exact .refl _ _

theorem clampInt_natAbs_le {m : Int} (v : Int) (h : 0 ≤ m) : (clampInt (-m) m v).natAbs ≤ m.natAbs := by
  unfold clampInt
  split_ifs <;> omega

theorem range_move_headRate (b : List Agent) (r : CmdArgs) (s : State) (hb : headBlock r ⊆ b) :
    rangeDiscipline.Move b s (headRate r s).1 := by
  unfold headRate
  split
  · exact .refl _ _
  · split_ifs with _ hsrc
    · exact .refl _ _
    · exact .refl _ _
    · refine range_move_setHead (hb (by simp [headBlock, *])) fun ⟨hr, _⟩ => ?_
      obtain ⟨hlo, hhi⟩ := clampNat_mem (lo := 1) (hi := 2048) r.b.toNat (by omega)
      exact ⟨hr, clampInt_natAbs_le (m := 2048) _ (by omega), hlo, hhi, fun h => absurd h hsrc⟩

theorem range_move_headGoto (b : List Agent) (r : CmdArgs) (s : State) (hb : headBlock r ⊆ b) :
    rangeDiscipline.Move b s (headGoto r s).1 := by
  unfold headGoto
  split
  · exact .refl _ _
  · split_ifs with _ _ hsrc
    · exact .refl _ _
    · exact .refl _ _
    · exact .refl _ _
    · exact range_move_setHead (hb (by simp [headBlock, *])) fun ⟨hr, ht, hlo, hhi, _⟩ =>
        ⟨hr, ht, hlo, hhi, fun h => absurd h hsrc⟩

theorem range_move_idleHead (b : List Agent) (s : State) (d : HeadId) (hd : .head d ∈ b) :
    rangeDiscipline.Move b s (s.idleHead d) := by
  refine range_move_at hd (fun e he => by rw [State.idleHead_head, if_neg he]) (fun h => ?_) (by rw [State.idleHead_frame])
  rw [State.idleHead_head, if_pos rfl]
  split
  · exact h
  · exact Head.inRange_sourced h rfl rfl rfl fun _ => ⟨rfl, rfl, rfl⟩

theorem range_move_takeTakeover (b : List Agent) (s : State) (p : PortId) (hb : s.noticed p ⊆ b) :
    rangeDiscipline.Move b s (s.takeTakeover p) := by
  unfold State.takeTakeover
  split
  · rename_i d _ heq
    have hd : .head d ∈ b := hb (by simp [State.noticed, heq])
    dsimp only
    split
    · rename_i hsrc
      refine .trans (range_move_mail b s _) (.trans (range_move_setHead hd (x := { s.head d with owner := .panel }) ?_)
        (range_move_units b (.of (by rfl))))
      exact fun ⟨hr, ht, hlo, hhi, _⟩ => ⟨hr, ht, hlo, hhi, fun h => absurd h hsrc.1⟩
    · exact range_move_mail b s _
  · exact .refl _ _
  · exact .refl _ _

theorem range_move_takePortLost (b : List Agent) (s : State) (p : PortId) (hb : s.noticed p ⊆ b) :
    rangeDiscipline.Move b s (s.takePortLost p) := by
  unfold State.takePortLost
  split
  · rename_i d _ heq
    have hd : .head d ∈ b := hb (by simp [State.noticed, heq])
    dsimp only
    split
    · rename_i howner
      refine .trans (range_move_mail b s _) (range_move_setHead hd ?_)
      rintro ⟨hr, _, hlo, hhi, hidle⟩
      refine ⟨hr, by simp, hlo, hhi, fun h => ?_⟩
      obtain ⟨_, _, ho, _⟩ := hidle h
      exact absurd (howner.symm.trans ho) (by simp)
    · exact range_move_mail b s _
  · exact .refl _ _
  · exact .refl _ _

theorem range_move_takeAttach (b : List Agent) (s : State) (d : HeadId) (hd : .head d ∈ b) :
    rangeDiscipline.Move b s (s.takeAttach d) := by
  unfold State.takeAttach
  split
  · dsimp only
    split
    · exact .trans (range_move_mail b s _) (range_move_setHead hd id)
    · exact .trans (range_move_mail b s _) (range_move_mail b _ _)
  · exact .refl _ _
  · exact .refl _ _

theorem range_move_takeHeadDetach (b : List Agent) (s : State) (d : HeadId) (hd : .head d ∈ b) :
    rangeDiscipline.Move b s (s.takeHeadDetach d) := by
  unfold State.takeHeadDetach
  split
  · dsimp only
    split
    · exact .trans (range_move_mail b s _) (range_move_setHead hd id)
    · exact range_move_mail b s _
  · exact .refl _ _
  · exact .refl _ _

/-! ## The other blocks -/

/-- The heads and the ports are those of `s`. -/
def State.SamePlay (s t : State) : Prop := t.heads = s.heads ∧ t.ports = s.ports

theorem range_move_play {s t : State} (b : List Agent) (h : s.SamePlay t) : rangeDiscipline.Move b s t :=
  range_move_ports b h.1 (State.portsInRange_congr h.2)

/-- The work of the channels leaves the heads and the ports. -/
theorem State.samePlay_kept (s : State) : ChannelKept s.SamePlay where
  raiseAt _ _ _ _ _ _ _ h := h
  mail _ _ h := h
  record _ _ _ _ h := h
  take t n r h := by rw [State.take_frame]; exact h
  commit t n h := by rw [State.commit_frame]; exact h
  empty t n h := by rw [State.empty_frame]; exact h

theorem play_channelSetup (r : CmdArgs) (s : State) : s.SamePlay (channelSetup r s).1 := by
  rcases channelSetup_cases r s with h | ⟨c, _, h | ⟨f, n, p, v, _, _, _, _, _, _, h⟩⟩ <;> rw [h] <;> exact ⟨rfl, rfl⟩

/-- The operations of the events that are no head's tick keep the ranges. -/
theorem rangeMoves : EventMoves rangeDiscipline.Move (fun _ => True) where
  refl := .refl
  trans := .trans
  table _ _ := trivial
  clips b s cl _ := range_move_play b ⟨rfl, rfl⟩
  aside {b s u cl} _ h := .trans (t := { s with clips := cl }) (range_move_play b ⟨rfl, rfl⟩) (.trans h (range_move_play b ⟨rfl, rfl⟩))
  setClip b s k x := range_move_play b ⟨rfl, rfl⟩
  mail := range_move_mail
  raiseAt b s k why obj aux v t := range_move_play b ⟨rfl, rfl⟩
  taken b s k kind r _ := range_move_units b (s.taken_units k kind r)
  leaveOwn b s k := range_move_play b ⟨rfl, rfl⟩
  fetchFail b s := range_move_units b s.fetchFail_units
  endCommand b s o := range_move_units b (s.endCommand_units o)
  startUpEnd b s w st := range_move_units b (s.startUpEnd_units w st)
  present b s x free := range_move_units b (s.present_units x free)
  issue b s time := range_move_units b (s.issue_units time)
  passComplete b s k st data := range_move_units b (s.passComplete_units k st data)
  takeProducer b s := range_move_units b s.takeProducer_units
  takeConsumer b s := range_move_units b s.takeConsumer_units
  ownTimeout b s k cause := range_move_units b (s.ownTimeout_units k cause)
  writeBackEnd b s st := range_move_units b (s.writeBackEnd_units st)
  consumerEnd b s st := range_move_units b (s.consumerEnd_units st)
  reportEnd b s st := range_move_units b (s.reportEnd_units st)
  curveEnd b s data st := range_move_ports b (s.curveEnd_books data st).heads (s.curveEnd_inRange data st)
  syncEdge b s level time := range_move_units b (s.syncEdge_units level time)
  syncPulse b s := range_move_units b s.syncPulse_units
  flywheel b s := range_move_units b s.flywheel_units
  beginRecord b s := range_move_units b s.beginRecord_units
  recordEnd b s st := range_move_units b (s.recordEnd_units st)
  producerEnd b s st := range_move_units b (s.producerEnd_units st)
  engage b r s := range_move_units b (engage_units r s)
  goTransparent b s := range_move_play b ⟨rfl, rfl⟩
  refRestart b s := range_move_play b ⟨rfl, rfl⟩
  eventMask b r s := range_move_units b (eventMask_units r s)
  markSetup b r s := range_move_play b ⟨rfl, rfl⟩
  clipQuery b r s := range_move_units b (clipQuery_units r s)
  queueReport b s a bytes := range_move_units b (s.queueReport_units a bytes)
  panelCurve b r s := range_move_units b (panelCurve_units r s)
  panelBind b r s := range_move_ports b (panelBind_books r s).heads (panelBind_inRange r s)
  panelTiming b r s := range_move_ports b (panelTiming_books r s).heads (panelTiming_inRange r s)
  levEdge b s p level time := range_move_ports b (s.levEdge_books p level time).heads (s.levEdge_inRange p level time)
  noEdgeExpiry b s p := range_move_ports b (s.noEdgeExpiry_books p).heads (s.noEdgeExpiry_inRange p)
  jogLines b s p ja jb time := range_move_ports b rfl (s.jogLines_inRange p ja jb time)
  jogExpiry b s p := range_move_ports b (s.jogExpiry_books p).heads (s.jogExpiry_inRange p)
  keyChange b s p k level time := range_move_ports b (s.keyChange_books p k level time).heads (s.keyChange_inRange p k level time)
  keyExpiry b s p k := range_move_ports b (s.keyExpiry_books p k).heads (s.keyExpiry_inRange p k)
  headSource := range_move_headSource
  headRate := range_move_headRate
  headGoto := range_move_headGoto
  idleHead := range_move_idleHead
  takeTakeover := range_move_takeTakeover
  takePortLost := range_move_takePortLost
  takeAttach := range_move_takeAttach
  takeHeadDetach := range_move_takeHeadDetach
  setup b r s _ := range_move_play b (play_channelSetup r s)
  arm b r s _ := range_move_play b (s.samePlay_kept.channelArm r s ⟨rfl, rfl⟩)
  stop b r s _ := range_move_play b (s.samePlay_kept.channelStop r s ⟨rfl, rfl⟩)
  abort b s c q _ _ := range_move_play b (by rw [State.abortChannel_frame]; exact ⟨rfl, rfl⟩)
  tick b s c t _ := range_move_play b (s.samePlay_kept.tickChannel s c t ⟨rfl, rfl⟩)
  stray b s c _ := range_move_play b ⟨rfl, rfl⟩
  lock b s n r := range_move_play b (by rw [State.lock_frame]; exact ⟨rfl, rfl⟩)
  unlock b s n := range_move_play b (by rw [State.unlock_frame]; exact ⟨rfl, rfl⟩)

/-- CHANNEL_CLEAR keeps the ranges. -/
theorem range_goes_clear (kind : Byte) (r : CmdArgs) (x : State × Unit) :
    rangeDiscipline.Goes (commandProg kind r (channelClear r)) [] x := by
  refine Discipline.goes_of_each (Q := fun _ => True) (fun _ _ => trivial) (rangeMoves.commandProg ?_) (by simp)
  unfold channelClear
  split
  · trivial
  · refine rangeMoves.each_read (by simp) fun s _ => ?_
    split
    · trivial
    · exact Prog.each_bind (Prog.each_each (by simp) fun n _ u =>
          range_move_play _ (by rw [State.empty_frame]; exact ⟨rfl, rfl⟩)) fun _ =>
        ⟨by simp, fun u _ => ⟨range_move_play _ ⟨rfl, rfl⟩, by simp, fun v _ => ⟨range_move_play _ ⟨rfl, rfl⟩, trivial⟩⟩⟩

/-! ## A head's tick -/

/-- Rate and target of a bounds step in range. -/
def Fit.inRange (f : Fit) : Prop := f.rate.natAbs ≤ Config.maxRate ∧ f.target.natAbs ≤ Config.maxRate

theorem slewToward_natAbs_le {t r : Int} {m : Nat} (w : Nat) (ht : t.natAbs ≤ m) (hr : r.natAbs ≤ m) : (slewToward t r w).natAbs ≤ m := by
  unfold slewToward
  split_ifs <;> omega

theorem stoppedTarget_natAbs_le {o : Owner} {t : Int} {m : Nat} (ht : t.natAbs ≤ m) : (stoppedTarget o t).natAbs ≤ m := by
  cases o
  · simp [stoppedTarget]
  · exact ht

/-- A bounds step keeps rate and target or makes them 0. -/
theorem boundsStep_inRange (v : View) (p : Nat) (hd : Head) (m : Moved) (cand : Int) {rate target : Int}
    (hr : rate.natAbs ≤ Config.maxRate) (ht : target.natAbs ≤ Config.maxRate) : (boundsStep v p hd m cand rate target).inRange := by
  have hlow (lo : Nat) (live : Bool) (newest : Nat) : (fitLow hd m rate target lo live newest p).inRange := by
    unfold fitLow Fit.inRange
    dsimp only
    split
    · exact ⟨by simp, stoppedTarget_natAbs_le ht⟩
    · exact ⟨hr, ht⟩
  have hstop (o : Nat) (why : Reason) : (fitStop hd m target o why).inRange := ⟨by simp [fitStop], stoppedTarget_natAbs_le ht⟩
  unfold boundsStep
  cases v with
  | liveEmpty tail => exact ⟨hr, ht⟩
  | live tail newest =>
    dsimp only
    split_ifs
    · exact ⟨hr, ht⟩
    · exact ⟨hr, ht⟩
    · exact hlow _ _ _
    · exact ⟨hr, ht⟩
  | opened lo hi =>
    dsimp only
    split_ifs
    · exact ⟨hr, ht⟩
    · exact hlow _ _ _
    · exact ⟨hr, ht⟩
  | stopAt lo hi =>
    dsimp only
    split_ifs
    · exact hstop _ _
    · exact hstop _ _
    · exact ⟨hr, ht⟩
  | loopOver lo hi =>
    dsimp only
    split_ifs
    · split <;> exact ⟨hr, ht⟩
    · split <;> exact ⟨hr, ht⟩
    · exact ⟨hr, ht⟩

/-- Rate and target before the bounds steps are in range. -/
theorem Head.move_inRange {h : Head} {i : PanelInput} (p : Nat) (hh : h.inRange) (hi : i.target.natAbs ≤ Config.maxRate) :
    (h.move i p).rate.natAbs ≤ Config.maxRate ∧ (h.move i p).target.natAbs ≤ Config.maxRate := by
  obtain ⟨hr, ht, _⟩ := hh
  unfold Head.move
  dsimp only
  generalize (if h.jogTakeover i = true then Owner.panel else h.owner) = o
  have htarget : (match o with
      | .panel => i.target
      | .command => h.target).natAbs ≤ Config.maxRate := by
    cases o
    · exact ht
    · exact hi
  split
  · simp
  · split_ifs
    · exact ⟨by simp, htarget⟩
    · exact ⟨by simp, htarget⟩
    · exact ⟨slewToward_natAbs_le _ htarget hr, htarget⟩

theorem getD_le {ks : List Nat} {m : Nat} (h : ∀ k ∈ ks, k ≤ m) (j : Nat) : ks.getD j 0 ≤ m := by
  rw [List.getD_eq_getElem?_getD]
  cases hj : ks[j]? with
  | none => exact Nat.zero_le _
  | some k => exact h k (List.mem_of_getElem? hj)

/-- The curve's magnitude lies between the knots. -/
theorem curveAt_le {ks : List Nat} {m : Nat} (h : ∀ k ∈ ks, k ≤ m) (u : Nat) : (curveAt ks u).natAbs ≤ m := by
  have ha := getD_le h (u / 32)
  have hb := getD_le h (u / 32 + 1)
  have hc := getD_le h 16
  have hw : u % 32 < 32 := Nat.mod_lt _ (by omega)
  unfold curveAt
  split
  · omega
  · generalize ks.getD (u / 32) 0 = a at *
    generalize ks.getD (u / 32 + 1) 0 = b at *
    generalize u % 32 = w at *
    have hlo : -(a : Int) ≤ (((b : Int) - a) * w) / 32 := by
      refine Int.le_ediv_of_mul_le (by omega) ?_
      nlinarith [mul_nonneg (Int.natCast_nonneg b) (Int.natCast_nonneg w), mul_nonneg (Int.natCast_nonneg a) (by omega : (0 : Int) ≤ 32 - w)]
    have hhi : (((b : Int) - a) * w) / 32 ≤ (m : Int) - a := by
      refine Int.ediv_le_of_le_mul (by omega) ?_
      have hba : ((b : Int) - a) * w ≤ ((m : Int) - a) * w := mul_le_mul_of_nonneg_right (by omega) (by omega)
      have hma : ((m : Int) - a) * w ≤ ((m : Int) - a) * 32 := mul_le_mul_of_nonneg_left (by omega) (by omega)
      omega
    omega

theorem Port.leverTarget_natAbs_le {p : Port} (h : p.inRange) : p.leverTarget.natAbs ≤ Config.maxRate := by
  obtain ⟨_, _, _, hknots, _⟩ := h
  unfold Port.leverTarget
  split
  · simp
  · have := curveAt_le hknots (min (((p.lever : Int) - (p.centre : Int)).natAbs - p.dead) 512)
    dsimp only
    split
    · rwa [Int.natAbs_neg]
    · exact this

theorem State.panelInput_natAbs_le {s : State} (d : HeadId) (h : s.portsInRange) : (s.panelInput d).target.natAbs ≤ Config.maxRate := by
  unfold State.panelInput
  split
  · exact Port.leverTarget_natAbs_le (h.1 _)
  · split
    · exact Port.leverTarget_natAbs_le (h.1 _)
    · simp

/-- A head's tick writes a rate and a target that the bounds steps have kept in range. -/
def rangeTick (d : HeadId) : TickProof rangeDiscipline d where
  Before hd i x := x.1.head d = hd ∧ hd.inRange ∧ hd.src ≠ .idle ∧ i.target.natAbs ≤ Config.maxRate
  Latched hd _ _ x := x.1.head d = hd ∧ hd.inRange ∧ hd.src ≠ .idle
  Good _ _ _ f := f.inRange
  before_head h := h.1
  before_stable hrely h := ⟨Eq.trans hrely h.1, h.2⟩
  latched_stable hrely h := ⟨Eq.trans hrely h.1, h.2⟩
  idle {s} hsrc := by
    unfold State.beginTick
    split
    · exact .refl _ _
    · simp only [hsrc]
      refine .trans (t := s.setMail { s.mail with headTicks := popAt s.mail.headTicks d }) (range_move_mail _ s _) ?_
      generalize hu : s.setMail { s.mail with headTicks := popAt s.mail.headTicks d } = u
      have hhead : u.head d = s.head d := by
        rw [← hu]
        rfl
      refine .trans (range_move_ports _ (u.clearJog_books d).heads (u.clearJog_inRange d))
        (.trans (range_move_unpinIf _ _ _) (range_move_setHead (by simp) fun h => ?_))
      rw [State.unpinIf_head, State.head_congr (u.clearJog_books d).heads, hhead] at h
      rw [hhead]
      exact h
  start {y} hsrc hinv _ := by
    obtain ⟨hheads, hports⟩ := hinv
    have hbooks : (y.1.beginTick d).SameBooks y.1 ∧ (y.1.beginTick d).portsInRange := by
      unfold State.beginTick
      split
      · exact ⟨.of rfl, hports⟩
      · have htick (u : State) (t : Word) (hu : u.portsInRange) : (u.tickInput d t).portsInRange := by
          unfold State.tickInput
          dsimp only
          split
          · exact State.portsInRange_congr (by rfl) (u.clearJog_inRange d hu)
          · exact u.clearJog_inRange d hu
        cases h : (y.1.head d).src with
        | idle => exact absurd h hsrc
        | live c => exact ⟨(State.tickInput_books _ d _).trans (.of (by rfl)), htick _ _ hports⟩
        | clip k => exact ⟨(State.tickInput_books _ d _).trans (.of (by rfl)), htick _ _ hports⟩
    obtain ⟨hbooks, hports'⟩ := hbooks
    have hhead := State.head_congr hbooks.heads
    refine ⟨(), ⟨fun e => (hhead e).symm ▸ hheads e, hports'⟩, fun a _ => ?_, hhead d, hheads d, hsrc,
      State.panelInput_natAbs_le d hports⟩
    cases a with
    | head e => exact hhead e
    | _ => trivial
  first {hd i x} h := by
    obtain ⟨hhead, hin, _, hi⟩ := h
    obtain ⟨hr, ht⟩ := Head.move_inRange (x.1.chan (x.1.chanOf (x.1.head d).src)).phases (hhead.symm ▸ hin) hi
    exact boundsStep_inRange _ _ _ _ _ hr ht
  again s h := boundsStep_inRange _ _ _ _ _ h.1 h.2
  unpin {hd i y} h hinv := by
    obtain ⟨hheads, hports⟩ := hinv
    have hhead (e : HeadId) := State.unpinIf_head y.1 hd.trailing e
    refine ⟨(), ⟨fun e => (hhead e).symm ▸ hheads e, by rw [State.unpinIf_frame]; exact hports⟩, fun a _ => ?_,
      (hhead d).trans h.1, h.2.1, h.2.2.1⟩
    cases a with
    | head e => exact hhead e
    | _ => trivial
  pin {hd i n r lost y} h hinv _ := by
    obtain ⟨hheads, hports⟩ := hinv
    have hhead (e : HeadId) : (y.1.pin n r).1.head e = y.1.head e := by
      rw [State.pin_frame]
      rfl
    refine ⟨(), ⟨fun e => (hhead e).symm ▸ hheads e, by rw [State.pin_frame]; exact hports⟩, fun a _ => ?_, (hhead d).trans h.1, h.2⟩
    cases a with
    | head e => exact hhead e
    | _ => trivial
  stop {hd i m f x t y} h hf hinv := by
    obtain ⟨hhead, ⟨_, _, hlo, hhi, _⟩, hsrc⟩ := h
    have hmove : rangeDiscipline.Move [.head d] y.1 (y.1.endTick d m f x t) := by
      refine .trans (range_move_setHead (d := d) (by simp) fun _ => ?_) (range_move_units _ (State.postFit_units _ d f t))
      rw [hhead]
      exact ⟨hf.1, hf.2, hlo, hhi, fun h => absurd h hsrc⟩
    obtain ⟨g, hinv', hrely, _⟩ := hmove y.2 hinv fun _ _ => trivial
    exact ⟨g, hinv', fun c hc => hrely c (by simpa using hc), trivial⟩

/-- The records after RESET_N are in range. -/
theorem range_reset (s : State) (cbsel : BitVec 4) (evtFirst : Bool) :
    (s.released cbsel evtFirst).headsInRange ∧ (s.released cbsel evtFirst).portsInRange := by
  have hhead (d : HeadId) : (s.released cbsel evtFirst).head d = {} := by
    show (Vector.replicate 4 ({} : Head)).get d = {}
    simp [Vector.get]
  have hport (p : PortId) : (s.released cbsel evtFirst).port p = (s.port p).released := by
    show (s.ports.map Port.released).get p = (s.ports.get p).released
    simp [Vector.get]
  refine ⟨fun d => ?_, fun p => ?_, fun h => ?_⟩
  · rw [hhead]
    unfold Head.inRange
    decide
  · rw [hport]
    exact Port.inRange_released _
  · rw [hport]
    simp [Port.released]

/-- Settles O10: the ports' rows fit and clamp what they write, and a head's rate and target come from values in range by the slew
and the bounds steps. -/
theorem everyStepKeepsHeadsAndPortsInRange : Obligations.EveryStepKeepsHeadsAndPortsInRange := by
  unfold Obligations.EveryStepKeepsHeadsAndPortsInRange
  intro s t hheads hports ht
  have hbegins (fuel : Nat) (s : State) (e : BlockEvent) : rangeDiscipline.Begins s (courseOf fuel s e) :=
    rangeMoves.begins (fun _ _ => trivial) (fun d fuel x => (rangeTick d).goes fuel x) range_goes_clear fuel s e
  obtain ⟨_, hinv, _⟩ := Discipline.step hbegins (fun _ _ g hinv _ => ⟨g, hinv, fun _ => trivial⟩)
    (fun s cb ef g _ _ => ⟨g, range_reset s cb ef, fun _ => trivial⟩) ⟨(), ⟨hheads, hports⟩, fun _ => trivial⟩ ht
  exact hinv

end Sys2Proof.Machine
end

section
/-! PROOFS. The records of the event unit, the memory path, the command processor and the reference unit. -/

namespace Sys2Proof.Machine

/-! ## The event unit -/

theorem EventUnit.sound_countLost {e : EventUnit} (h : e.sound) : e.countLost.sound := by
  obtain ⟨hsize, hcls, hseq, _, hlen, hkept⟩ := h
  exact ⟨hsize, hcls, hseq, min_le_right _ _, hlen, hkept⟩

theorem EventUnit.sound_stage {e : EventUnit} (x : Event) (h : e.sound) : (e.stage x).sound := by
  have hjoin (hx : x.cls ≠ .off) :
      (if e.fifo.length < Config.fifoSize then { e with fifo := e.fifo ++ [x] } else e.countLost).sound := by
    split
    · obtain ⟨_, hcls, hseq, hlost, hlen, hkept⟩ := h
      refine ⟨by simpa using by omega, fun y hy => ?_, hseq, hlost, hlen, hkept⟩
      rcases List.mem_append.mp hy with hy | hy
      · exact hcls y hy
      · exact List.mem_singleton.mp hy ▸ hx
    · exact EventUnit.sound_countLost h
  unfold EventUnit.stage
  split
  · exact h
  · exact hjoin (by simp [*])
  · exact hjoin (by simp [*])

/-- The oldest staged record leaves. -/
theorem EventUnit.sound_tail {e : EventUnit} (h : e.sound) : ({ e with fifo := e.fifo.tail } : EventUnit).sound := by
  obtain ⟨hsize, hcls, hrest⟩ := h
  exact ⟨Nat.le_trans (by simp) hsize, fun x hx => hcls x (List.mem_of_mem_tail hx), hrest⟩

theorem EventUnit.sound_dropFront {e : EventUnit} (h : e.sound) : e.dropFront.sound :=
  EventUnit.sound_tail (EventUnit.sound_countLost h)

theorem EventUnit.sound_written {e : EventUnit} (w : Writing) (h : e.sound) : (e.written w).sound := by
  have hup : ({ e with producer := e.producer + 1, seq := e.seq + 1, phase := .producer } : EventUnit).sound := by
    obtain ⟨hsize, hcls, hseq, hrest⟩ := h
    refine ⟨hsize, hcls, ?_, hrest⟩
    show e.seq + 1 = (e.producer + 1).setWidth 16
    rw [hseq]
    bv_omega
  cases w with
  | staged => exact EventUnit.sound_tail hup
  | resetDone => exact hup
  | lost n c =>
    obtain ⟨hsize, hcls, hseq, hlost, hrest⟩ := hup
    exact ⟨hsize, hcls, hseq, Nat.le_trans (Nat.sub_le _ _) hlost, hrest⟩

theorem EventUnit.sound_setClass {e : EventUnit} {j : Nat} {c : EventClass} (hc : j < 3 → c ≠ .off) (h : e.sound) :
    ({ e with classes := e.classes.set j c } : EventUnit).sound := by
  obtain ⟨hsize, hcls, hseq, hlost, hlen, hkept⟩ := h
  refine ⟨hsize, hcls, hseq, hlost, (List.length_set ..).trans hlen, fun i hi => ?_⟩
  have hold := hkept i hi
  show (e.classes.set j c).getD i .off ≠ .off
  rw [List.getD_eq_getElem?_getD] at hold ⊢
  rw [List.getElem?_set]
  have hlt : j < 3 → j < e.classes.length := fun hj => by
    rw [hlen]
    exact Nat.lt_trans hj (by decide)
  split
  · rename_i hji
    rw [if_pos (hlt (hji ▸ hi))]
    exact hc (hji ▸ hi)
  · exact hold

theorem eventMask_sound (r : CmdArgs) {s : State} (h : s.evt.sound) : (eventMask r s).1.evt.sound := by
  unfold eventMask
  dsimp only
  split
  · exact h
  · split
    · exact h
    · rename_i c _ hcode
      refine EventUnit.sound_setClass (fun hlt => ?_) h
      have hkept : isKeptKind r.target.toNat = true := by
        simp only [isKeptKind, Bool.and_eq_true, decide_eq_true_eq]
        omega
      by_cases hc : c = .off
      · simp [hkept, hc]
      · simp [hc]

/-! ## The memory path -/

theorem MemPath.sound_queueOwn {m : MemPath} (r : OwnReq) (h : m.sound) : (m.queueOwn r).sound := by
  obtain ⟨hpass, hown, hrun, hwait⟩ := h
  unfold MemPath.queueOwn
  split
  · rename_i hlt
    exact ⟨hpass, by simpa using hlt, hrun, fun hne => absurd (hwait hne) (Nat.ne_of_lt hlt)⟩
  · exact ⟨hpass, hown, hrun, fun _ => by dsimp only; omega⟩

theorem MemPath.sound_leave {m : MemPath} (k : Nat) (h : m.sound) : (m.leave k).sound := by
  obtain ⟨hpass, hown, hrun, hwait⟩ := h
  have hle : (m.ownQ.eraseIdx k).length ≤ m.ownQ.length := List.length_eraseIdx_le ..
  have hpred : m.ownQ.length - 1 ≤ (m.ownQ.eraseIdx k).length := by
    rw [List.length_eraseIdx]
    split <;> omega
  unfold MemPath.leave
  split
  · rename_i hnil
    exact ⟨hpass, Nat.le_trans hle hown, hrun, fun hne => absurd hnil hne⟩
  · rename_i r rest hcons
    have hfull : m.ownQ.length = Config.ownQueueSize := hwait (by simp [hcons])
    split
    · rename_i hlt
      refine ⟨hpass, by simpa using hlt, hrun, fun _ => ?_⟩
      simp only [List.length_append, List.length_cons, List.length_nil]
      omega
    · rename_i hge
      exact ⟨hpass, Nat.le_trans hle hown, hrun, fun _ => by dsimp only; omega⟩

theorem MemPath.sound_setOwed {m : MemPath} (d : Dir) (os : List Owed) (h : m.sound) : (m.setOwed d os).sound := by
  cases d <;> exact h

theorem MemPath.sound_issuePass {m : MemPath} {n : Nat} (hn : n ≤ Config.fairness) (h : m.sound) : (m.issuePass n).sound := by
  obtain ⟨hpass, hown, hrun, hwait⟩ := h
  unfold MemPath.issuePass
  split
  · exact ⟨hpass, hown, hrun, hwait⟩
  · rename_i b bs hq
    rw [hq] at hpass
    exact ⟨Nat.le_of_succ_le hpass, hown, hn, hwait⟩

theorem MemPath.sound_issueOwn {m : MemPath} (k time : Nat) (h : m.sound) : (m.issueOwn k time).sound := by
  unfold MemPath.issueOwn
  split
  · exact h
  · obtain ⟨hpass, hown, _, hwait⟩ := h
    have hlen (r : OwnReq) : (m.ownQ.set k r).length = m.ownQ.length := List.length_set ..
    exact ⟨hpass, le_of_eq_of_le (hlen _) hown, Nat.zero_le _, fun hne => (hlen _).trans (hwait hne)⟩

theorem MemPath.sound_arbitrate {m : MemPath} (time : Nat) (h : m.sound) : (m.arbitrate time).sound := by
  have hrun : m.runCounter ≤ Config.fairness := by
    obtain ⟨_, _, hrun, _⟩ := h
    exact hrun
  unfold MemPath.arbitrate
  split
  · obtain ⟨hpass, hown, _, hwait⟩ := MemPath.sound_issuePass (Nat.zero_le _) h
    exact ⟨hpass, hown, Nat.zero_le _, hwait⟩
  · split
    · exact h
    · exact MemPath.sound_issueOwn _ _ h
    · split_ifs
      · exact MemPath.sound_issuePass hrun h
      · exact MemPath.sound_issuePass (by omega) h
      · exact MemPath.sound_issueOwn _ _ h

/-! ## The four units together -/

/-- The records of the four units are sound. -/
structure State.UnitsSound (s : State) : Prop where
  evt : s.evt.sound
  mem : s.mem.sound
  proc : s.proc.sound
  ref : s.ref.sound

section
variable {s : State}

theorem UnitsSound.setEvt (e : EventUnit) (he : s.evt.sound → e.sound) (h : s.UnitsSound) : (s.setEvt e).UnitsSound :=
  ⟨he h.evt, h.mem, h.proc, h.ref⟩

theorem UnitsSound.setMem (m : MemPath) (hm : s.mem.sound → m.sound) (h : s.UnitsSound) : (s.setMem m).UnitsSound :=
  ⟨h.evt, hm h.mem, h.proc, h.ref⟩

theorem UnitsSound.setProc (p : Proc) (hp : s.proc.sound → p.sound) (h : s.UnitsSound) : (s.setProc p).UnitsSound :=
  ⟨h.evt, h.mem, hp h.proc, h.ref⟩

theorem UnitsSound.raiseAt (k : EventKind) (why : Reason) (obj aux : Nat) (v t : Word) (h : s.UnitsSound) :
    (s.raiseAt k why obj aux v t).UnitsSound := UnitsSound.setEvt _ (EventUnit.sound_stage _) h

theorem UnitsSound.queueOwn (r : OwnReq) (h : s.UnitsSound) : (s.queueOwn r).UnitsSound :=
  UnitsSound.setMem _ (MemPath.sound_queueOwn r) h

theorem UnitsSound.leaveOwn (k : Nat) (h : s.UnitsSound) : (s.leaveOwn k).UnitsSound :=
  UnitsSound.setMem _ (MemPath.sound_leave k) h

/-! ### The processor -/

theorem UnitsSound.taken (k : Nat) (kind : Byte) (r : CmdArgs) (hf : s.proc.state = .fetching) (h : s.UnitsSound) :
    (s.taken k kind r).UnitsSound :=
  UnitsSound.setProc _ (fun ⟨_, hhalt⟩ => ⟨by simp, by
    simp only [reduceCtorEq, iff_false]
    exact fun ht => by simp [hf] at hhalt; simp [hhalt] at ht⟩) (UnitsSound.leaveOwn k h)

theorem UnitsSound.fetchFail (h : s.UnitsSound) : s.fetchFail.UnitsSound := by
  unfold State.fetchFail
  split
  · exact UnitsSound.raiseAt _ _ _ _ _ _ (UnitsSound.setProc _ (fun _ => ⟨by simp, by simp⟩) h)
  · exact h

theorem UnitsSound.endCommand (o : CmdResult) (h : s.UnitsSound) : (s.endCommand o).UnitsSound := by
  unfold State.endCommand
  split
  · exact h
  · rename_i r hr
    refine UnitsSound.queueOwn _ (UnitsSound.setProc _ (fun ⟨hcur, hhalt⟩ => ⟨by simp, ?_⟩) h)
    have hbusy := hcur.mp (by simp [hr])
    have hnot : s.proc.state ≠ .halted := by rcases hbusy with hb | hb <;> simp [hb]
    simp only [reduceCtorEq, iff_false]
    exact fun ht => hnot (hhalt.mp ht)

/-- A processor with no command in progress and no halt fetches or is IDLE. -/
theorem UnitsSound.fetchOrIdle (hhalt : s.proc.halted = false) (h : s.UnitsSound) : s.fetchOrIdle.UnitsSound := by
  unfold State.fetchOrIdle
  split
  · exact UnitsSound.queueOwn _ (UnitsSound.setProc _ (fun _ => ⟨by simp, by simp [hhalt]⟩) h)
  · exact UnitsSound.setProc _ (fun _ => ⟨by simp, by simp [hhalt]⟩) h

theorem Proc.not_halted {p : Proc} (h : p.sound) (hs : p.state ≠ .halted) : p.halted = false := by
  obtain ⟨_, hhalt⟩ := h
  simpa [hs] using hhalt

theorem UnitsSound.resume (h : s.UnitsSound) : s.resume.UnitsSound := by
  unfold State.resume
  split
  · rename_i hs
    exact UnitsSound.fetchOrIdle (Proc.not_halted h.proc (by simp [hs])) h
  · rename_i hs
    unfold State.fetchOrIdle
    split
    · exact UnitsSound.queueOwn _ ⟨h.evt, h.mem, ⟨by simp, by simp⟩, h.ref⟩
    · exact ⟨h.evt, h.mem, ⟨by simp, by simp⟩, h.ref⟩
  all_goals exact h

theorem UnitsSound.takeProducer (h : s.UnitsSound) : s.takeProducer.UnitsSound := by
  unfold State.takeProducer State.producerWord
  split
  · exact h
  · rename_i v rest _
    have h1 : (s.setMail { s.mail with cmdWords := rest }).UnitsSound := ⟨h.evt, h.mem, h.proc, h.ref⟩
    split
    · exact UnitsSound.raiseAt _ _ _ _ _ _ h1
    · exact UnitsSound.resume (UnitsSound.setProc _ id h1)

theorem UnitsSound.writeBackEnd (st : Status) (h : s.UnitsSound) : (s.writeBackEnd st).UnitsSound := by
  have hupdate {t : State} (ht : t.UnitsSound) : t.consumerUpdate.UnitsSound := UnitsSound.queueOwn _ (UnitsSound.setProc _ id ht)
  unfold State.writeBackEnd
  split
  · cases st with
    | good => exact hupdate h
    | error => exact hupdate (UnitsSound.raiseAt _ _ _ _ _ _ h)
  · exact h

theorem UnitsSound.consumerEnd (st : Status) (h : s.UnitsSound) : (s.consumerEnd st).UnitsSound := by
  unfold State.consumerEnd
  split
  · rename_i hs
    have hhalt := Proc.not_halted h.proc (by simp [hs])
    cases st with
    | good => exact UnitsSound.fetchOrIdle hhalt h
    | error => exact UnitsSound.fetchOrIdle hhalt (UnitsSound.raiseAt _ _ _ _ _ _ h)
  · exact h

theorem UnitsSound.curveFail (h : s.UnitsSound) : s.curveFail.UnitsSound := by
  unfold State.curveFail
  split
  · exact UnitsSound.endCommand _ (UnitsSound.raiseAt _ _ _ _ _ _ h)
  · exact h

theorem UnitsSound.curveEnd (data : List Byte) (st : Status) (h : s.UnitsSound) : (s.curveEnd data st).UnitsSound := by
  cases st with
  | good =>
    show (s.installCurve data).UnitsSound
    unfold State.installCurve
    split
    · exact UnitsSound.endCommand _ ⟨h.evt, h.mem, h.proc, h.ref⟩
    · exact h
  | error => exact UnitsSound.curveFail h

theorem UnitsSound.reportFail (h : s.UnitsSound) : s.reportFail.UnitsSound := by
  unfold State.reportFail
  split
  · exact h
  · exact UnitsSound.raiseAt _ _ _ _ _ _ (UnitsSound.setProc _ id h)

theorem UnitsSound.reportEnd (st : Status) (h : s.UnitsSound) : (s.reportEnd st).UnitsSound := by
  have hend {t : State} (ht : t.UnitsSound) : (t.reportEnd .good).UnitsSound := by
    unfold State.reportEnd
    dsimp only
    split
    · split
      · exact ht
      · exact UnitsSound.endCommand _ ht
    all_goals exact ht
  cases st with
  | good => exact hend h
  | error => exact hend (UnitsSound.reportFail h)

theorem UnitsSound.queueReport (a : Addr) (bytes : List Byte) (h : s.UnitsSound) : (s.queueReport a bytes).UnitsSound := by
  unfold State.queueReport
  dsimp only
  split
  · exact UnitsSound.queueOwn _ h
  · exact UnitsSound.queueOwn _ (UnitsSound.queueOwn _ h)

theorem UnitsSound.clipQuery (r : CmdArgs) (h : s.UnitsSound) : (clipQuery r s).1.UnitsSound := by
  unfold Machine.clipQuery
  split
  · exact h
  · rename_i k _
    generalize (s.clip k).bytes k = bytes
    split_ifs
    · exact h
    · exact h
    · exact UnitsSound.queueReport _ bytes h

theorem UnitsSound.panelCurve (r : CmdArgs) (h : s.UnitsSound) : (panelCurve r s).1.UnitsSound := by
  unfold Machine.panelCurve
  split
  · exact h
  · split
    · exact UnitsSound.queueOwn _ h
    · exact h

/-! ### The event unit and the start-up writes -/

theorem UnitsSound.writeRecord (x : Event) (w : Writing) (h : s.UnitsSound) : (s.writeRecord x w).UnitsSound :=
  UnitsSound.queueOwn _ (UnitsSound.setEvt _ id h)

theorem UnitsSound.writeResetDone (h : s.UnitsSound) : s.writeResetDone.UnitsSound := by
  unfold State.writeResetDone
  split
  · exact h
  · exact UnitsSound.writeRecord _ _ h

theorem UnitsSound.startUpEnd (w : StartWrite) (st : Status) (h : s.UnitsSound) : (s.startUpEnd w st).UnitsSound := by
  have hfaults {t : State} (ht : t.UnitsSound) : t.startUpFaults.UnitsSound := by
    unfold State.startUpFaults
    dsimp only
    split_ifs
    · exact UnitsSound.raiseAt _ _ _ _ _ _ (UnitsSound.raiseAt _ _ _ _ _ _ ht)
    · exact UnitsSound.raiseAt _ _ _ _ _ _ ht
    · exact UnitsSound.raiseAt _ _ _ _ _ _ ht
    · exact ht
  have h1 : (s.setStartUp (s.startUp.ended w st)).UnitsSound := ⟨h.evt, h.mem, h.proc, h.ref⟩
  unfold State.startUpEnd
  dsimp only
  split
  · exact hfaults (UnitsSound.writeResetDone (UnitsSound.setEvt _ id h1))
  · exact h1

theorem UnitsSound.beginRecord (h : s.UnitsSound) : s.beginRecord.UnitsSound := by
  unfold State.beginRecord
  split
  · split_ifs
    · exact h
    · exact UnitsSound.writeRecord _ _ h
    · exact UnitsSound.setEvt _ EventUnit.sound_dropFront h
    · exact UnitsSound.setEvt _ EventUnit.sound_dropFront h
    · exact UnitsSound.writeRecord _ _ h
  · exact h

theorem UnitsSound.recordEnd (st : Status) (h : s.UnitsSound) : (s.recordEnd st).UnitsSound := by
  unfold State.recordEnd
  split
  · rename_i w _
    cases st with
    | good => exact UnitsSound.queueOwn _ (UnitsSound.setEvt _ (EventUnit.sound_written w) h)
    | error =>
      cases w with
      | resetDone => exact UnitsSound.writeResetDone h
      | lost n c => exact UnitsSound.setEvt _ id h
      | staged => exact UnitsSound.setEvt _ EventUnit.sound_dropFront h
  · exact h
  · exact h

theorem UnitsSound.producerEnd (st : Status) (h : s.UnitsSound) : (s.producerEnd st).UnitsSound := by
  unfold State.producerEnd
  split
  · cases st with
    | good => exact UnitsSound.setEvt _ id h
    | error =>
      dsimp only
      split
      · exact UnitsSound.setEvt _ id h
      · exact UnitsSound.raiseAt _ _ _ _ _ _ (UnitsSound.setEvt _ id h)
  · exact h
  · exact h

theorem UnitsSound.takeConsumer (h : s.UnitsSound) : s.takeConsumer.UnitsSound := by
  unfold State.takeConsumer
  split
  · exact h
  · rename_i x rest _
    have h1 : (s.setMail { s.mail with evtWords := rest }).UnitsSound := ⟨h.evt, h.mem, h.proc, h.ref⟩
    dsimp only
    split
    · exact UnitsSound.raiseAt _ _ _ _ _ _ h1
    · exact UnitsSound.setEvt _ id h1

theorem UnitsSound.ownTimeout (k : Nat) (cause : TimeoutCause) (h : s.UnitsSound) : (s.ownTimeout k cause).UnitsSound := by
  unfold State.ownTimeout
  split
  · exact h
  · rename_i r _
    split
    · exact h
    · rename_i t _
      have h1 : ((s.endTime cause t).leaveOwn k).UnitsSound := by
        cases cause <;> exact UnitsSound.leaveOwn k ⟨h.evt, h.mem, h.proc, h.ref⟩
      cases hq : r.req with
      | startCmd => exact UnitsSound.startUpEnd _ _ h1
      | startEvt => exact UnitsSound.startUpEnd _ _ h1
      | fetch => exact UnitsSound.fetchFail h1
      | writeBack => exact UnitsSound.writeBackEnd .error h1
      | consumerWrite => exact UnitsSound.consumerEnd .error h1
      | curve => exact UnitsSound.curveFail h1
      | report => exact UnitsSound.reportEnd .error h1
      | eventRecord => exact UnitsSound.recordEnd .error h1
      | eventProducer => exact UnitsSound.producerEnd .error h1

/-! ### The memory path -/

theorem UnitsSound.handOnAll (st : Status) (ws : List Watched) (h : s.UnitsSound) : (s.handOnAll st ws).UnitsSound := by
  cases st with
  | error => exact h
  | good =>
    show (ws.foldl State.handOn s).UnitsSound
    rw [State.foldl_handOn]
    exact ⟨h.evt, h.mem, h.proc, h.ref⟩

theorem UnitsSound.flush (d : Dir) (h : s.UnitsSound) : (s.flush d).UnitsSound := by
  have hfold (xs : List (Owed × Status × List Byte)) {t : State} (ht : t.UnitsSound) :
      (xs.foldl (fun t x => t.handOnAll x.2.1 x.1.watched) t).UnitsSound := by
    induction xs generalizing t with
    | nil => exact ht
    | cons x xs ih => exact ih (UnitsSound.handOnAll _ _ ht)
  exact hfold _ (UnitsSound.setMem _ (fun hm => MemPath.sound_setOwed d _ hm) h)

theorem UnitsSound.acceptAbsorbed (x : Burst) (h : s.UnitsSound) : (s.acceptAbsorbed x).UnitsSound :=
  UnitsSound.flush _ (UnitsSound.setMem _ (fun hm => MemPath.sound_setOwed x.dir _ hm) h)

theorem UnitsSound.accept (x : Burst) (hroom : s.mem.passQ.length < Config.passQueueSize) (h : s.UnitsSound) :
    (s.accept x).UnitsSound := by
  have hpass (a : Addr) (ws : List Watched) : (s.acceptPass x a ws).UnitsSound := by
    refine UnitsSound.setMem _ (fun hm => ?_) h
    obtain ⟨_, hrest⟩ := MemPath.sound_setOwed x.dir (s.mem.owed x.dir ++ [{ no := s.mem.burstNo, watched := ws, result := none }]) hm
    exact ⟨by simpa using hroom, hrest⟩
  unfold State.accept
  split
  · exact hpass _ _
  · exact hpass _ _
  · exact UnitsSound.acceptAbsorbed x h
  · obtain ⟨hevt, hmem, hproc, href⟩ := UnitsSound.acceptAbsorbed x h
    exact ⟨hevt, hmem, hproc, href⟩

theorem UnitsSound.acceptHeld (bs : List Burst) (h : s.UnitsSound) : (acceptHeld bs s).UnitsSound := by
  induction bs generalizing s with
  | nil => exact UnitsSound.setMem _ id h
  | cons x bs ih =>
    unfold Machine.acceptHeld
    split
    · rename_i hroom
      exact ih (UnitsSound.accept x hroom h)
    · exact UnitsSound.setMem _ id h

theorem UnitsSound.present (x : Burst) (free : Bool) (h : s.UnitsSound) : (s.present x free).UnitsSound := by
  have h1 : s.clearOut.UnitsSound := UnitsSound.setMem _ id h
  unfold State.present
  dsimp only
  split
  · rename_i hroom
    simp only [Bool.and_eq_true, decide_eq_true_eq] at hroom
    exact UnitsSound.accept x hroom.2 h1
  · exact UnitsSound.setMem _ id h1

theorem UnitsSound.issue (time : Nat) (h : s.UnitsSound) : (s.issue time).UnitsSound := by
  have h1 : (s.setTime time).clearOut.UnitsSound := ⟨h.evt, h.mem, h.proc, h.ref⟩
  exact UnitsSound.acceptHeld _ (UnitsSound.setMem _ (MemPath.sound_arbitrate _) h1)

theorem UnitsSound.passComplete (k : Nat) (st : Status) (data : List Byte) (h : s.UnitsSound) :
    (s.passComplete k st data).UnitsSound := by
  unfold State.passComplete
  split
  · exact h
  · exact UnitsSound.flush _ ⟨h.evt, MemPath.sound_setOwed (m := s.clearOut.mem) _ _ h.mem, h.proc, h.ref⟩

theorem UnitsSound.engage (r : CmdArgs) (h : s.UnitsSound) : (engage r s).1.UnitsSound := by
  unfold Machine.engage
  dsimp only
  split_ifs
  all_goals exact ⟨h.evt, h.mem, h.proc, h.ref⟩

/-! ### The reference unit -/

theorem UnitsSound.setRef (r : Ref) (hr : s.ref.sound → r.sound) (h : s.UnitsSound) : (s.setRef r).UnitsSound :=
  ⟨h.evt, h.mem, h.proc, hr h.ref⟩

theorem UnitsSound.setTime (t : Nat) (h : s.UnitsSound) : (s.setTime t).UnitsSound := ⟨h.evt, h.mem, h.proc, h.ref⟩

/-- A tick leaves the reference unit's record but for its counter. -/
theorem UnitsSound.issueTick (h : s.UnitsSound) : s.issueTick.UnitsSound := ⟨h.evt, h.mem, h.proc, h.ref⟩

theorem UnitsSound.syncEdge (level : Bool) (time : Nat) (h : s.UnitsSound) : (s.syncEdge level time).UnitsSound := by
  unfold State.syncEdge
  split
  · exact h
  · dsimp only
    split
    · exact ⟨h.evt, h.mem, h.proc, h.ref⟩
    · exact ⟨h.evt, h.mem, h.proc, h.ref⟩
    · split <;> exact ⟨h.evt, h.mem, h.proc, h.ref⟩

theorem Ref.sound_absent {r : Ref} (hs : r.state = .absent) (h : r.period = 0 ∧ r.timer = none ∧ r.lastTick = none) : r.sound := by
  unfold Ref.sound
  rw [hs]
  exact h

theorem Ref.sound_running {r : Ref} (hs : r.state ≠ .absent) (h : Config.minPeriod ≤ r.period ∧ r.period ≤ Config.maxPeriod ∧
    r.timer.isSome = true ∧ r.lastTick.isSome = true ∧ r.measure = none) : r.sound := by
  unfold Ref.sound
  split
  · rename_i ha
    exact absurd ha hs
  · exact h
  · exact h

theorem Ref.of_sound {r : Ref} (h : r.sound) (hs : r.state ≠ .absent) : Config.minPeriod ≤ r.period ∧ r.period ≤ Config.maxPeriod ∧
    r.timer.isSome = true ∧ r.lastTick.isSome = true ∧ r.measure = none := by
  unfold Ref.sound at h
  split at h
  · rename_i ha
    exact absurd ha hs
  · exact h
  · exact h

/-- In LOCKED and FLYWHEEL a tick moves the last tick and the timer. -/
theorem Ref.sound_ticked {r : Ref} (st : RefState) (hst : st ≠ .absent) (hs : r.state ≠ .absent) (l d : Nat) (h : r.sound) :
    ({ r with state := st, lastTick := some l, timer := some d } : Ref).sound := by
  obtain ⟨hlo, hhi, _, _, hm⟩ := Ref.of_sound h hs
  exact Ref.sound_running hst ⟨hlo, hhi, rfl, rfl, hm⟩

theorem UnitsSound.judge (time : Nat) (h : s.UnitsSound) : (s.judge time).UnitsSound := by
  unfold State.judge
  split
  · rename_i hs
    have hr := h.ref
    unfold Ref.sound at hr
    rw [hs] at hr
    unfold State.pulseAbsent
    split
    · exact UnitsSound.setRef _ (fun _ => Ref.sound_absent hs hr) h
    · dsimp only
      split
      · rename_i hp
        exact UnitsSound.raiseAt _ _ _ _ _ _ (UnitsSound.issueTick (UnitsSound.setRef _
          (fun _ => Ref.sound_running (by simp) ⟨hp.1, hp.2, rfl, rfl, rfl⟩) h))
      · exact UnitsSound.setRef _ (fun _ => Ref.sound_absent hs hr) h
  · rename_i hs
    unfold State.pulseLocked
    split
    · exact UnitsSound.raiseAt _ _ _ _ _ _ h
    · exact UnitsSound.issueTick (UnitsSound.setRef _ (Ref.sound_ticked s.ref.state (by simp [hs]) (by simp [hs]) _ _) h)
  · rename_i hs
    unfold State.pulseFlywheel
    split
    · exact UnitsSound.raiseAt _ _ _ _ _ _ h
    · exact UnitsSound.raiseAt _ _ _ _ _ _ (UnitsSound.issueTick (UnitsSound.setRef _
        (Ref.sound_ticked .locked (by simp) (by simp [hs]) _ _) h))

theorem UnitsSound.syncPulse (h : s.UnitsSound) : s.syncPulse.UnitsSound := by
  have hdrop : s.ref.sound → s.ref.dropPulse.sound := by
    unfold Ref.dropPulse
    split <;> exact id
  unfold State.syncPulse
  split
  · exact h
  · split
    · exact h
    · exact UnitsSound.judge _ (UnitsSound.setRef _ hdrop (UnitsSound.setTime _ h))

theorem UnitsSound.flywheel (h : s.UnitsSound) : s.flywheel.UnitsSound := by
  have hexpire {t : State} (d : Nat) (ht : t.UnitsSound) : (t.expire d).UnitsSound := by
    unfold State.expire
    split
    · exact ht
    · rename_i hs
      exact UnitsSound.raiseAt _ _ _ _ _ _ (UnitsSound.issueTick (UnitsSound.setRef _
        (Ref.sound_ticked .flywheel (by simp) (by simp [hs]) _ _) ht))
    · rename_i hs
      exact UnitsSound.issueTick (UnitsSound.setRef _ (Ref.sound_ticked t.ref.state (by simp [hs]) (by simp [hs]) _ _) ht)
  unfold State.flywheel
  split
  · exact h
  · split
    · exact h
    · exact hexpire _ (UnitsSound.setTime _ h)

/-! ### The panel ports -/

theorem UnitsSound.faultLever (p : PortId) (why : Reason) (v : Nat) (h : s.UnitsSound) : (s.faultLever p why v).UnitsSound := by
  unfold State.faultLever
  split
  · exact ⟨h.evt, h.mem, h.proc, h.ref⟩
  · exact UnitsSound.raiseAt _ _ _ _ _ _ ⟨h.evt, h.mem, h.proc, h.ref⟩

theorem UnitsSound.validCycle (p : PortId) (u : Nat) (h : s.UnitsSound) : (s.validCycle p u).UnitsSound := by
  have h1 : (s.setPort p { s.port p with lever := u }).UnitsSound := ⟨h.evt, h.mem, h.proc, h.ref⟩
  unfold State.validCycle State.restoreLever State.zoneCycle State.noticeTakeover
  revert h1
  generalize s.setPort p { s.port p with lever := u } = t
  intro ht
  dsimp only
  split
  · split
    · exact ⟨ht.evt, ht.mem, ht.proc, ht.ref⟩
    · exact UnitsSound.raiseAt _ _ _ _ _ _ ⟨ht.evt, ht.mem, ht.proc, ht.ref⟩
  · split
    · split <;> exact ⟨ht.evt, ht.mem, ht.proc, ht.ref⟩
    · exact ⟨ht.evt, ht.mem, ht.proc, ht.ref⟩

theorem UnitsSound.noEdgeExpiry (p : PortId) (h : s.UnitsSound) : (s.noEdgeExpiry p).UnitsSound :=
  UnitsSound.faultLever _ _ _ ⟨h.evt, h.mem, h.proc, h.ref⟩

theorem UnitsSound.edge (p : PortId) (level : Bool) (h : s.UnitsSound) : (s.edge p level).UnitsSound := by
  have hclose {t : State} (period active : Nat) (ht : t.UnitsSound) : (t.closeCycle p period active).UnitsSound := by
    unfold State.closeCycle
    split
    · exact UnitsSound.faultLever _ _ _ ht
    · exact UnitsSound.validCycle _ _ ht
  unfold State.edge State.activeEdge State.inactiveEdge
  dsimp only
  split
  · split
    · exact ⟨h.evt, h.mem, h.proc, h.ref⟩
    · exact hclose _ _ ⟨h.evt, h.mem, h.proc, h.ref⟩
  · split <;> exact ⟨h.evt, h.mem, h.proc, h.ref⟩

theorem UnitsSound.levEdge (p : PortId) (level : Bool) (time : Nat) (h : s.UnitsSound) : (s.levEdge p level time).UnitsSound := by
  unfold State.levEdge
  split
  · exact h
  · dsimp only
    split
    · exact UnitsSound.edge _ _ (UnitsSound.setTime _ (UnitsSound.noEdgeExpiry p h))
    · exact UnitsSound.edge _ _ (UnitsSound.setTime _ h)

theorem UnitsSound.jogExpiry (p : PortId) (h : s.UnitsSound) : (s.jogExpiry p).UnitsSound := by
  unfold State.jogExpiry
  split
  · exact h
  · exact ⟨h.evt, h.mem, h.proc, h.ref⟩

theorem UnitsSound.keyExpiry (p : PortId) (k : Key) (h : s.UnitsSound) : (s.keyExpiry p k).UnitsSound := by
  unfold State.keyExpiry State.keyAccept State.press
  split
  · exact h
  · dsimp only
    split
    · split <;> exact ⟨h.evt, h.mem, h.proc, h.ref⟩
    · exact ⟨h.evt, h.mem, h.proc, h.ref⟩

theorem UnitsSound.keyChange (p : PortId) (k : Key) (level : Bool) (time : Nat) (h : s.UnitsSound) :
    (s.keyChange p k level time).UnitsSound := by
  have hset {t : State} (ht : t.UnitsSound) (x : Port) : ((t.setTime time).setPort p x).UnitsSound := ⟨ht.evt, ht.mem, ht.proc, ht.ref⟩
  unfold State.keyChange
  dsimp only
  split
  · exact hset (UnitsSound.keyExpiry p k h) _
  · exact hset h _

theorem UnitsSound.panelBind (r : CmdArgs) (h : s.UnitsSound) : (panelBind r s).1.UnitsSound := by
  have hnotice {t : State} (p : PortId) (o : Option HeadId) (ht : t.UnitsSound) : (t.noticeLost p o).UnitsSound := by
    cases o <;> exact ⟨ht.evt, ht.mem, ht.proc, ht.ref⟩
  have htake {t : State} (p : PortId) (o : Option HeadId) (ht : t.UnitsSound) : (t.takeFromOther p o).UnitsSound := by
    unfold State.takeFromOther
    split
    · exact ht
    · split
      · exact ⟨ht.evt, ht.mem, ht.proc, ht.ref⟩
      · exact ht
  unfold Machine.panelBind
  split
  · dsimp only
    split
    · exact h
    · obtain ⟨hevt, hmem, hproc, href⟩ := htake _ _ (hnotice _ _ h)
      exact ⟨hevt, hmem, hproc, href⟩
  · exact h

theorem UnitsSound.panelTiming (r : CmdArgs) (h : s.UnitsSound) : (panelTiming r s).1.UnitsSound := by
  unfold Machine.panelTiming
  split <;> exact ⟨h.evt, h.mem, h.proc, h.ref⟩

/-! ### The books -/

/-- Of the units the books' operations change the event unit alone, by raising events. -/
structure State.UnitsLeft (s t : State) : Prop where
  mem : t.mem = s.mem
  proc : t.proc = s.proc
  ref : t.ref = s.ref
  evt : s.evt.sound → t.evt.sound

theorem State.UnitsLeft.sound {t : State} (hl : s.UnitsLeft t) (h : s.UnitsSound) : t.UnitsSound := by
  refine ⟨hl.evt h.evt, ?_, ?_, ?_⟩
  · rw [hl.mem]
    exact h.mem
  · rw [hl.proc]
    exact h.proc
  · rw [hl.ref]
    exact h.ref

theorem State.UnitsLeft.refl : s.UnitsLeft s := ⟨rfl, rfl, rfl, id⟩

/-- The work of the channels leaves the units but for the events raised. -/
theorem State.unitsLeft_kept (s : State) : ChannelKept s.UnitsLeft where
  raiseAt _ _ _ _ _ _ _ h := ⟨h.mem, h.proc, h.ref, fun he => EventUnit.sound_stage _ (h.evt he)⟩
  mail _ _ h := ⟨h.mem, h.proc, h.ref, h.evt⟩
  record _ _ _ _ h := ⟨h.mem, h.proc, h.ref, h.evt⟩
  take t n r h := by rw [State.take_frame]; exact ⟨h.mem, h.proc, h.ref, h.evt⟩
  commit t n h := by rw [State.commit_frame]; exact ⟨h.mem, h.proc, h.ref, h.evt⟩
  empty t n h := by rw [State.empty_frame]; exact ⟨h.mem, h.proc, h.ref, h.evt⟩

theorem State.unitsLeft_unpinIf (o : Option Nat) : s.UnitsLeft (s.unpinIf o) := by
  rw [State.unpinIf_frame]
  exact ⟨rfl, rfl, rfl, id⟩

theorem State.unitsLeft_detachHead (d : HeadId) : s.UnitsLeft (s.detachHead d) := by
  rw [State.detachHead_frame]
  exact ⟨rfl, rfl, rfl, id⟩

theorem State.UnitsLeft.trans {t u : State} (h : s.UnitsLeft t) (h' : t.UnitsLeft u) : s.UnitsLeft u :=
  ⟨h'.mem.trans h.mem, h'.proc.trans h.proc, h'.ref.trans h.ref, fun he => h'.evt (h.evt he)⟩

theorem headSource_unitsLeft (r : CmdArgs) : s.UnitsLeft (headSource r s).1 := by
  have hset {t : State} (ht : s.UnitsLeft t) (d : HeadId) (x : Head) : s.UnitsLeft ((t.detachHead d).setHead d x) :=
    (ht.trans (State.unitsLeft_detachHead d)).trans ⟨rfl, rfl, rfl, id⟩
  unfold headSource
  split
  · exact .refl
  · split
    · exact .refl
    · split
      · exact hset (State.unitsLeft_unpinIf _) _ _
      · split
        · exact .refl
        · split_ifs
          · exact .refl
          · exact .refl
          · exact hset .refl _ _
      · split_ifs
        · exact .refl
        · exact .refl
        · exact hset .refl _ _
        · exact hset .refl _ _
      · exact .refl

theorem headRate_unitsLeft (r : CmdArgs) : s.UnitsLeft (headRate r s).1 := by
  unfold headRate
  split
  · exact .refl
  · split_ifs <;> exact ⟨rfl, rfl, rfl, id⟩

theorem headGoto_unitsLeft (r : CmdArgs) : s.UnitsLeft (headGoto r s).1 := by
  unfold headGoto
  split
  · exact .refl
  · split_ifs <;> exact ⟨rfl, rfl, rfl, id⟩

theorem takeTakeover_unitsLeft (p : PortId) : s.UnitsLeft (s.takeTakeover p) := by
  unfold State.takeTakeover
  split
  · dsimp only
    split
    · exact ⟨rfl, rfl, rfl, EventUnit.sound_stage _⟩
    · exact ⟨rfl, rfl, rfl, id⟩
  · exact .refl
  · exact .refl

theorem takePortLost_unitsLeft (p : PortId) : s.UnitsLeft (s.takePortLost p) := by
  unfold State.takePortLost
  split
  · dsimp only
    split <;> exact ⟨rfl, rfl, rfl, id⟩
  · exact .refl
  · exact .refl

theorem takeAttach_unitsLeft (d : HeadId) : s.UnitsLeft (s.takeAttach d) := by
  unfold State.takeAttach
  split
  · dsimp only
    split <;> exact ⟨rfl, rfl, rfl, id⟩
  · exact .refl
  · exact .refl

theorem takeHeadDetach_unitsLeft (d : HeadId) : s.UnitsLeft (s.takeHeadDetach d) := by
  unfold State.takeHeadDetach
  split
  · dsimp only
    split <;> exact ⟨rfl, rfl, rfl, id⟩
  · exact .refl
  · exact .refl

theorem channelSetup_unitsLeft (r : CmdArgs) : s.UnitsLeft (channelSetup r s).1 := by
  rcases channelSetup_cases r s with h | ⟨c, _, h | ⟨f, n, p, v, _, _, _, _, _, _, h⟩⟩ <;> rw [h] <;> exact ⟨rfl, rfl, rfl, id⟩

theorem idleHead_unitsLeft (d : HeadId) : s.UnitsLeft (s.idleHead d) := by
  rw [State.idleHead_frame]
  exact ⟨rfl, rfl, rfl, id⟩

theorem clearJog_unitsLeft (d : HeadId) : s.UnitsLeft (s.clearJog d) := by
  unfold State.clearJog
  split <;> exact ⟨rfl, rfl, rfl, id⟩

theorem beginTick_unitsLeft (d : HeadId) : s.UnitsLeft (s.beginTick d) := by
  have hinput (t : State) (w : Word) : t.UnitsLeft (t.tickInput d w) := by
    unfold State.tickInput
    dsimp only
    split
    · exact (clearJog_unitsLeft d).trans ⟨rfl, rfl, rfl, EventUnit.sound_stage _⟩
    · exact clearJog_unitsLeft d
  have hmail (m : Mail) : s.UnitsLeft (s.setMail m) := ⟨rfl, rfl, rfl, id⟩
  unfold State.beginTick State.tickIdle
  split
  · exact .refl
  · dsimp only
    split
    · exact (hmail _).trans ((clearJog_unitsLeft d).trans ((State.unitsLeft_unpinIf _).trans ⟨rfl, rfl, rfl, id⟩))
    · exact (hmail _).trans (hinput _ _)
    · exact (hmail _).trans (hinput _ _)

theorem endTick_unitsLeft (d : HeadId) (m : Moved) (f : Fit) (x : Option Shown) (t : Word) : s.UnitsLeft (s.endTick d m f x t) := by
  unfold State.endTick State.postFit
  split
  · exact ⟨rfl, rfl, rfl, id⟩
  · exact ⟨rfl, rfl, rfl, EventUnit.sound_stage _⟩

end

/-- Every operation of every event keeps the units' records sound. -/
theorem unitsMoves : AllMoves (Keeping State.UnitsSound) (fun _ => True) where
  refl _ _ h := h
  trans h h' hs := h' (h hs)
  table _ _ := trivial
  clips _ _ _ _ h := ⟨h.evt, h.mem, h.proc, h.ref⟩
  aside _ h hs :=
    have ht := h ⟨hs.evt, hs.mem, hs.proc, hs.ref⟩
    ⟨ht.evt, ht.mem, ht.proc, ht.ref⟩
  setClip _ _ _ _ h := ⟨h.evt, h.mem, h.proc, h.ref⟩
  mail _ _ _ h := ⟨h.evt, h.mem, h.proc, h.ref⟩
  raiseAt _ _ _ _ _ _ _ _ := UnitsSound.raiseAt _ _ _ _ _ _
  taken _ _ k kind r hf := UnitsSound.taken k kind r hf
  leaveOwn _ _ := UnitsSound.leaveOwn
  fetchFail _ _ := UnitsSound.fetchFail
  endCommand _ _ := UnitsSound.endCommand
  startUpEnd _ _ := UnitsSound.startUpEnd
  present _ _ := UnitsSound.present
  issue _ _ := UnitsSound.issue
  passComplete _ _ := UnitsSound.passComplete
  takeProducer _ _ := UnitsSound.takeProducer
  takeConsumer _ _ := UnitsSound.takeConsumer
  ownTimeout _ _ := UnitsSound.ownTimeout
  writeBackEnd _ _ := UnitsSound.writeBackEnd
  consumerEnd _ _ := UnitsSound.consumerEnd
  reportEnd _ _ := UnitsSound.reportEnd
  curveEnd _ _ := UnitsSound.curveEnd
  syncEdge _ _ := UnitsSound.syncEdge
  syncPulse _ _ := UnitsSound.syncPulse
  flywheel _ _ := UnitsSound.flywheel
  beginRecord _ _ := UnitsSound.beginRecord
  recordEnd _ _ := UnitsSound.recordEnd
  producerEnd _ _ := UnitsSound.producerEnd
  engage _ r _ := UnitsSound.engage r
  goTransparent _ _ h := ⟨h.evt, h.mem, h.proc, h.ref⟩
  refRestart _ _ h := ⟨h.evt, h.mem, h.proc, Ref.sound_absent rfl ⟨rfl, rfl, rfl⟩⟩
  eventMask b r s h := by
    have hunits : (eventMask r s).1.mem = s.mem ∧ (eventMask r s).1.proc = s.proc ∧ (eventMask r s).1.ref = s.ref := by
      unfold Machine.eventMask
      dsimp only
      split
      · exact ⟨rfl, rfl, rfl⟩
      · split <;> exact ⟨rfl, rfl, rfl⟩
    exact State.UnitsLeft.sound ⟨hunits.1, hunits.2.1, hunits.2.2, eventMask_sound r⟩ h
  markSetup _ _ _ h := ⟨h.evt, h.mem, h.proc, h.ref⟩
  clipQuery _ r _ := UnitsSound.clipQuery r
  queueReport _ _ := UnitsSound.queueReport
  panelCurve _ r _ := UnitsSound.panelCurve r
  panelBind _ r _ := UnitsSound.panelBind r
  panelTiming _ r _ := UnitsSound.panelTiming r
  levEdge _ _ := UnitsSound.levEdge
  noEdgeExpiry _ _ := UnitsSound.noEdgeExpiry
  jogLines _ _ _ _ _ _ h := ⟨h.evt, h.mem, h.proc, h.ref⟩
  jogExpiry _ _ := UnitsSound.jogExpiry
  keyChange _ _ := UnitsSound.keyChange
  keyExpiry _ _ := UnitsSound.keyExpiry
  headSource _ r _ _ := (headSource_unitsLeft r).sound
  headRate _ r _ _ := (headRate_unitsLeft r).sound
  headGoto _ r _ _ := (headGoto_unitsLeft r).sound
  idleHead _ _ d _ := (idleHead_unitsLeft d).sound
  takeTakeover _ _ p _ := (takeTakeover_unitsLeft p).sound
  takePortLost _ _ p _ := (takePortLost_unitsLeft p).sound
  takeAttach _ _ d _ := (takeAttach_unitsLeft d).sound
  takeHeadDetach _ _ d _ := (takeHeadDetach_unitsLeft d).sound
  setup _ r _ _ := (channelSetup_unitsLeft r).sound
  arm _ r s _ := (s.unitsLeft_kept.channelArm r s .refl).sound
  stop _ r s _ := (s.unitsLeft_kept.channelStop r s .refl).sound
  abort _ s c q _ hbusy := (s.unitsLeft_kept.abortChannel s c q hbusy .refl).sound
  tick _ s c t _ := (s.unitsLeft_kept.tickChannel s c t .refl).sound
  stray _ _ _ _ h := ⟨h.evt, h.mem, h.proc, h.ref⟩
  lock _ s n r := by rw [State.lock_frame]; exact fun h => ⟨h.evt, h.mem, h.proc, h.ref⟩
  unlock _ s n := by rw [State.unlock_frame]; exact fun h => ⟨h.evt, h.mem, h.proc, h.ref⟩
  beginTick _ _ d := (beginTick_unitsLeft d).sound
  unpinIf _ _ o := (State.unitsLeft_unpinIf o).sound
  pin _ s n r := by rw [State.pin_frame]; exact fun h => ⟨h.evt, h.mem, h.proc, h.ref⟩
  endTick _ _ d m f x t := (endTick_unitsLeft d m f x t).sound
  empty _ s n := by rw [State.empty_frame]; exact fun h => ⟨h.evt, h.mem, h.proc, h.ref⟩
  indexClear _ _ _ _ h := ⟨h.evt, h.mem, h.proc, h.ref⟩
  clearRecord _ _ _ h := ⟨h.evt, h.mem, h.proc, h.ref⟩

/-- The units' records after RESET_N are sound. -/
theorem units_reset (s : State) (cbsel : BitVec 4) (evtFirst : Bool) : (s.released cbsel evtFirst).UnitsSound := by
  refine ⟨?_, ⟨Nat.zero_le _, ?_, Nat.zero_le _, fun h => absurd rfl h⟩, ⟨?_, ?_⟩, Ref.sound_absent rfl ⟨rfl, rfl, rfl⟩⟩
  · show EventUnit.sound {}
    unfold EventUnit.sound
    decide
  · show (startUpWrites cbsel evtFirst).length ≤ _
    cases evtFirst <;> exact show 2 ≤ 32 by decide
  · show (none : Option CmdRecord).isSome = true ↔ ProcState.idle = .executing ∨ ProcState.idle = .writing
    decide
  · show false = true ↔ ProcState.idle = .halted
    decide

/-- Settles O11: each unit keeps its record sound, and the books' operations change no unit but by raising events. -/
theorem everyStepKeepsTheUnitsSound : Obligations.EveryStepKeepsTheUnitsSound := by
  unfold Obligations.EveryStepKeepsTheUnitsSound
  intro s t hevt hmem hproc href ht
  obtain ⟨hevt, hmem, hproc, href⟩ := unitsMoves.step (s := s) (fun _ _ => trivial) (fun _ _ h => ⟨h.evt, h.mem, h.proc, h.ref⟩)
    (fun s cb ef _ => units_reset s cb ef) ⟨hevt, hmem, hproc, href⟩ ht
  exact ⟨hevt, hmem, hproc, href⟩

end Sys2Proof.Machine
end

section
/-! PROOFS. The machine as a whole: a step, the state after reset, and RESET_N. -/

namespace Sys2Proof.Machine

/-- Settles O1: by the definition of `step`. -/
theorem stepRunsTheFrontCommand : Obligations.StepRunsTheFrontCommand := by
  unfold Obligations.StepRunsTheFrontCommand
  intro c rest s hs
  unfold step
  rw [hs]

/-! ## The state after reset -/

@[simp] theorem reset_chan (c : ChanId) : State.reset.chan c = {} := by
  show (Vector.replicate 8 ({} : Channel)).get c = {}
  simp [Vector.get]

@[simp] theorem reset_head (d : HeadId) : State.reset.head d = {} := by
  show (Vector.replicate 4 ({} : Head)).get d = {}
  simp [Vector.get]

@[simp] theorem reset_port (p : PortId) : State.reset.port p = {} := by
  show (Vector.replicate 2 ({} : Port)).get p = {}
  simp [Vector.get]

@[simp] theorem reset_slot (n : Nat) : State.reset.slot n = {} := rfl

@[simp] theorem reset_entry (n : Nat) : State.reset.entry n = {} := rfl

@[simp] theorem reset_clip (k : Nat) : State.reset.clip k = {} := rfl

/-- No slot belongs to a channel after reset. -/
theorem reset_not_owns (c : ChanId) (n : Nat) : (State.reset.chan c).owns n = false := by
  rw [reset_chan]
  rfl

theorem reset_geometryOk : State.reset.geometryOk := by
  refine ⟨fun c => ?_, fun c d n _ hboth => ?_⟩
  · rw [reset_chan, Channel.shaped_iff]
    exact ⟨by decide, fun _ => rfl, fun h => absurd rfl h⟩
  · rw [reset_not_owns] at hboth
    exact absurd hboth.1 (by decide)

theorem reset_locksAgree : State.reset.locksAgree := by
  refine ⟨fun c => ?_, fun n h => absurd rfl h⟩
  unfold State.lockedSlots
  rw [reset_chan]
  exact ⟨rfl, Nat.le_refl _⟩

theorem reset_clipsTrue : State.reset.clipsTrue := by
  refine ⟨fun _ _ => rfl, fun _ _ => rfl, fun k h => absurd rfl h, fun n => ?_⟩
  have hnone (k : Nat) : ¬State.reset.clipHolds (State.reset.clip k) n = true := by
    simp [State.clipHolds, State.clipSlots, State.clipSlot, positionOf]
  rw [List.filter_eq_nil_iff.mpr fun k _ => hnone k]
  rfl

/-- Settles O2: every record after reset is a default, and the sparse tables are empty. -/
theorem resetMeetsEveryInvariant : Obligations.ResetMeetsEveryInvariant := by
  unfold Obligations.ResetMeetsEveryInvariant
  have hlawful : State.reset.slotsLawful := fun _ => Slot.lawful_of_not_held (x := {}) (by decide) (fun _ => rfl) rfl rfl
  have hoff (c : ChanId) : (State.reset.chan c).state = .off := by rw [reset_chan]
  refine ⟨⟨Tbl.wf_nil _, Tbl.wf_nil _, Tbl.wf_nil _⟩, hlawful, ?_, reset_geometryOk, fun c => ?_, ?_, fun c h => absurd (hoff c) h,
    fun c i h => ?_, reset_clipsTrue, reset_locksAgree, fun d => ?_, ?_, ?_, ?_, ?_, Ref.sound_absent rfl ⟨rfl, rfl, rfl⟩⟩
  · exact (pinsAgree_iff _).mpr fun n => by simp [Pins.on, State.pins, Head.pinned, heldPins]
  · rw [reset_chan]
    exact ⟨Nat.le_refl _, Nat.zero_le _, by decide⟩
  · refine ⟨fun c => ?_, fun n h => by simp at h, fun _ _ => rfl⟩
    rw [hoff]
    simp
  · rw [reset_not_owns] at h
    exact absurd h (by decide)
  · rw [reset_head]
    unfold Head.inRange
    decide
  · refine ⟨fun p => ?_, fun h => ?_⟩
    · rw [reset_port]
      exact Port.inRange_default
    · simp
  · unfold EventUnit.sound
    decide
  · unfold MemPath.sound
    decide
  · unfold Proc.sound
    decide

/-! ## RESET_N -/

/-- An address in the control block, as a number (R162). -/
theorem controlBase_add (cbsel : BitVec 4) (off : Nat) :
    controlBase cbsel + BitVec.ofNat 40 off = BitVec.ofNat 40 (cbsel.toNat * 2 ^ 36 + off) := by
  have hlt := cbsel.isLt
  apply BitVec.eq_of_toNat_eq
  simp only [controlBase, BitVec.toNat_add, BitVec.toNat_shiftLeft, BitVec.toNat_setWidth, BitVec.toNat_ofNat,
    BitVec.zeroExtend_eq_setWidth, Nat.shiftLeft_eq]
  omega

/-- Settles O3: the fields are those of the state right after reset, but for those that RESET_N takes from its operands and leaves
outside the part. -/
theorem resetNReturnsEveryBlockToItsDefaults : Obligations.ResetNReturnsEveryBlockToItsDefaults := by
  unfold Obligations.ResetNReturnsEveryBlockToItsDefaults
  intro s cb ef
  have hport (p : PortId) : (s.released cb ef).port p = (s.port p).released := by
    show (s.ports.map Port.released).get p = (s.ports.get p).released
    simp [Vector.get]
  have hchan (c : ChanId) : (s.released cb ef).chan c = {} := reset_chan c
  have hhead (d : HeadId) : (s.released cb ef).head d = {} := reset_head d
  refine ⟨s.released cb ef, rfl, rfl, rfl, rfl, rfl, hchan, hhead, fun _ => rfl, fun _ => rfl, fun _ => rfl, rfl, rfl, rfl,
    fun p => ?_, rfl, rfl, rfl, rfl, rfl, rfl, rfl, rfl, rfl, rfl, rfl, rfl, rfl, rfl, rfl, rfl, rfl, rfl, rfl, rfl, rfl, rfl, rfl,
    rfl, rfl, rfl, rfl, rfl, startCmdWrite cb, startEvtWrite cb, rfl, ?_, ?_⟩
  · rw [hport]
    refine ⟨rfl, rfl, rfl, rfl, rfl, rfl, rfl, rfl, rfl, rfl, rfl, rfl, rfl, rfl, rfl, rfl, rfl, rfl, rfl, rfl, rfl, rfl, fun k => ?_⟩
    cases k
    all_goals
      simp only [Port.key, Port.released, KeyLine.released]
      split <;> simp_all
  · rw [startCmdWrite_eq, ← controlBase_add]
    rfl
  · rw [startEvtWrite_eq, ← controlBase_add]
    rfl

end Sys2Proof.Machine
end

section
/-! PROOFS. Commands.lean: what a command of the ring leaves behind, said once in the words of the claims, and the slot operations
that are declined. -/

namespace Sys2Proof.Machine

/-! ## Slot operations (R5, R16) -/

/-- Settles O12: each operation answers `declined` only in branches that hand back the state they were given. -/
theorem declinedSlotOperationsChangeNothing : Obligations.DeclinedSlotOperationsChangeNothing := by
  unfold Obligations.DeclinedSlotOperationsChangeNothing
  intro s n r c
  refine ⟨?take, ?commit, ?empty, ?lock, ?unlock, ?pin, ?unpin⟩
  case take => unfold State.take; split_ifs <;> simp
  case commit => unfold State.commit; split_ifs <;> simp
  case empty => unfold State.empty; split <;> (try split_ifs) <;> simp
  case lock => unfold State.lock; split_ifs <;> simp
  case unlock => unfold State.unlock; split_ifs <;> simp
  case pin => unfold State.pin; split_ifs <;> simp
  case unpin => unfold State.unpin; split_ifs <;> simp

theorem State.holds_iff (s : State) (n r : Nat) : s.holds n r = true ↔ (s.slot n).state = .held ∧ (s.slot n).rfn = r := by
  simp [State.holds]

/-- Settles O14: outside OFF the lookup is one test of one slot record. -/
theorem positionLookupReadsTheSlotRecordAlone : Obligations.PositionLookupReadsTheSlotRecordAlone := by
  unfold Obligations.PositionLookupReadsTheSlotRecordAlone
  intro s c p r hc
  refine ⟨fun n => ?_, fun _ => rfl⟩
  rw [State.positionLookup, if_neg hc]
  split_ifs with h
  · rw [State.holds_iff] at h
    constructor
    · rintro ⟨⟩
      exact ⟨rfl, h⟩
    · rintro ⟨rfl, -⟩
      rfl
  · rw [State.holds_iff] at h
    simp only [reduceCtorEq, false_iff]
    rintro ⟨rfl, hn⟩
    exact h hn

/-! ## The end of a command that its owning block answers as one event -/

/-- From `s` to `t` a command has ended with outcome `o`, and beside the processor and the own-request queue `t` is `u`. -/
structure State.Answered (s t u : State) (kind : Byte) (r : CmdArgs) (o : CmdResult) : Prop where
  ended : s.commandEnded t kind r o
  eq : t = { u with proc := t.proc, mem := u.mem.withOwn t.mem }

section
variable {s t u : State} {kind : Byte} {r : CmdArgs} {o : CmdResult}

theorem State.Answered.chan (h : s.Answered t u kind r o) (c : ChanId) : t.chan c = u.chan c :=
  (congrArg (fun x : State => x.chan c) h.eq :)
theorem State.Answered.head (h : s.Answered t u kind r o) (x : HeadId) : t.head x = u.head x :=
  (congrArg (fun y : State => y.head x) h.eq :)
theorem State.Answered.port (h : s.Answered t u kind r o) (p : PortId) : t.port p = u.port p :=
  (congrArg (fun x : State => x.port p) h.eq :)
theorem State.Answered.slot (h : s.Answered t u kind r o) (n : Nat) : t.slot n = u.slot n :=
  (congrArg (fun x : State => x.slot n) h.eq :)
theorem State.Answered.entry (h : s.Answered t u kind r o) (n : Nat) : t.entry n = u.entry n :=
  (congrArg (fun x : State => x.entry n) h.eq :)
theorem State.Answered.clip (h : s.Answered t u kind r o) (n : Nat) : t.clip n = u.clip n :=
  (congrArg (fun x : State => x.clip n) h.eq :)
theorem State.Answered.evt (h : s.Answered t u kind r o) : t.evt = u.evt := (congrArg State.evt h.eq :)
theorem State.Answered.mail (h : s.Answered t u kind r o) : t.mail = u.mail := (congrArg State.mail h.eq :)
theorem State.Answered.chans (h : s.Answered t u kind r o) : t.chans = u.chans := (congrArg State.chans h.eq :)
theorem State.Answered.heads (h : s.Answered t u kind r o) : t.heads = u.heads := (congrArg State.heads h.eq :)
theorem State.Answered.ports (h : s.Answered t u kind r o) : t.ports = u.ports := (congrArg State.ports h.eq :)
theorem State.Answered.slots (h : s.Answered t u kind r o) : t.slots = u.slots := (congrArg State.slots h.eq :)
theorem State.Answered.index (h : s.Answered t u kind r o) : t.index = u.index := (congrArg State.index h.eq :)
theorem State.Answered.clips (h : s.Answered t u kind r o) : t.clips = u.clips := (congrArg State.clips h.eq :)
theorem State.Answered.ref (h : s.Answered t u kind r o) : t.ref = u.ref := (congrArg State.ref h.eq :)

end

/-- A command that its owning block, met in the state `taken`, answers with `u` but for the processor and the queue. -/
theorem State.carryOut_answered {s : State} {kind : Byte} {r : CmdArgs} {own : State → State × CmdResult} (h : s.awaits)
    (u : State) (o : CmdResult)
    (hown : ∀ k, own (s.taken k kind r) =
      ({ u with proc := (s.taken k kind r).proc, mem := u.mem.withOwn (s.mem.leave k) }, o))
    (hc : u.cbsel = s.cbsel) (hb : u.mem.burstNo = s.mem.burstNo) :
    s.Answered (s.carryOut kind r own) u kind r o := by
  obtain ⟨k, _, hends⟩ := s.carryOut_ends kind r own h
  obtain ⟨hended, heq⟩ := hends _ o (hown k) rfl hc hb rfl rfl
  exact ⟨hended, heq⟩

/-- The same for a block that leaves the memory path alone. -/
theorem State.carryOut_answered_beside {s : State} {kind : Byte} {r : CmdArgs} {own : State → State × CmdResult} (h : s.awaits)
    (u : State) (o : CmdResult)
    (hown : ∀ k, own (s.taken k kind r) = ({ u with proc := (s.taken k kind r).proc, mem := s.mem.leave k }, o))
    (hc : u.cbsel = s.cbsel) (hm : u.mem = s.mem) :
    s.Answered (s.carryOut kind r own) u kind r o := by
  refine s.carryOut_answered h u o (fun k => ?_) hc (by rw [hm])
  rw [hown, hm, ← MemPath.leave_frame]

/-- The same for a block that changes nothing. -/
theorem State.carryOut_refused {s : State} {kind : Byte} {r : CmdArgs} {own : State → State × CmdResult} {why : Reason}
    (h : s.awaits) (hown : ∀ k, own (s.taken k kind r) = (s.taken k kind r, .refused why)) :
    s.commandEnded (s.carryOut kind r own) kind r (refusedFor why) ∧
      s.carryOut kind r own =
        { s with proc := (s.carryOut kind r own).proc, mem := s.mem.withOwn (s.carryOut kind r own).mem } :=
  s.carryOut_unchanged kind r own _ h hown

end Sys2Proof.Machine
end

section
/-! PROOFS. ChannelCommands.lean: setup, arm, stop, abort and clear at their channel. -/

namespace Sys2Proof.Machine

section
variable {s : State} {r : CmdArgs} {c : ChanId}

theorem Channel.atLimit_iff (ch : Channel) : ch.atLimit = true ↔ 4294967040 ≤ ch.nextRfn + ch.phases - 1 := by
  simp [Channel.atLimit, Config.rfnLimit]

/-! ## CHANNEL_SETUP (R19 to R24) -/

theorem channelSetup_of_state (ht : targetChan r = some c) (hm : ¬s.setupTaken c) : channelSetup r s = (s, .refused .state) := by
  rw [← State.mayResetLoop_iff, Bool.not_eq_true] at hm
  simp [channelSetup, ht, hm]

theorem channelSetup_of_zero (ht : targetChan r = some c) (hm : s.setupTaken c) (h0 : r.b.toNat = 0) :
    channelSetup r s = (s.setChan c (s.chan c).turnedOff, .done 0) := by
  rw [← State.mayResetLoop_iff] at hm
  simp [channelSetup, ht, hm, h0, Channel.turnedOff]

theorem channelSetup_of_size (ht : targetChan r = some c) (hm : s.setupTaken c) (h0 : r.b.toNat ≠ 0)
    (hn : r.b.toNat < 64 ∨ 16384 < r.b.toNat ∨ 16384 < r.a.toNat + r.b.toNat) :
    channelSetup r s = (s, .refused .badArg) := by
  rw [← State.mayResetLoop_iff] at hm
  simp only [channelSetup, ht, hm, Bool.not_true, Bool.false_eq_true, if_false, if_neg h0, Config.minLoop, Config.slotCount, hn,
    if_true]

theorem channelSetup_of_overlap (ht : targetChan r = some c) (hm : s.setupTaken c) (h1 : 64 ≤ r.b.toNat)
    (h2 : r.b.toNat ≤ 16384) (h3 : r.a.toNat + r.b.toNat ≤ 16384) (ho : ¬s.loopFree c r.a.toNat r.b.toNat) :
    channelSetup r s = (s, .refused .overlap) := by
  rw [← State.mayResetLoop_iff] at hm
  rw [← State.loopOverlaps_eq_false, Bool.not_eq_false] at ho
  have h0 : r.b.toNat ≠ 0 := by omega
  have hn : ¬(r.b.toNat < 64 ∨ 16384 < r.b.toNat ∨ 16384 < r.a.toNat + r.b.toNat) := by omega
  simp only [channelSetup, ht, hm, Bool.not_true, Bool.false_eq_true, if_false, if_neg h0, Config.minLoop, Config.slotCount,
    if_neg hn, ho, if_true]

theorem channelSetup_of_taken (ht : targetChan r = some c) (hm : s.setupTaken c) (h1 : 64 ≤ r.b.toNat)
    (h2 : r.b.toNat ≤ 16384) (h3 : r.a.toNat + r.b.toNat ≤ 16384) (ho : s.loopFree c r.a.toNat r.b.toNat) {p v : Nat}
    (hp : p = fitPhases r.c.toNat) (hv : v = clampNat (2 * p + 8) (r.b.toNat / 2) r.d.toNat) :
    channelSetup r s =
      ((s.indexClear r.a.toNat r.b.toNat).setChan c ((s.chan c).setUp r.a.toNat r.b.toNat p v),
        doneOrClamped (p ≠ r.c.toNat ∨ v ≠ r.d.toNat) (BitVec.ofNat 32 v)) := by
  rw [← State.mayResetLoop_iff] at hm
  rw [← State.loopOverlaps_eq_false] at ho
  have h0 : r.b.toNat ≠ 0 := by omega
  have hn : ¬(r.b.toNat < 64 ∨ 16384 < r.b.toNat ∨ 16384 < r.a.toNat + r.b.toNat) := by omega
  subst hp hv
  simp only [channelSetup, ht, hm, Bool.not_true, Bool.false_eq_true, if_false, if_neg h0, Config.minLoop, Config.slotCount,
    if_neg hn, ho, ← Bool.decide_or, CmdResult.fitted_eq_doneOrClamped]
  rfl

end

/-- Settles O16: the state is that with the loop's index entries cleared and the channel's record set. -/
theorem channelSetupGivesTheFittedLoop : Obligations.ChannelSetupGivesTheFittedLoop := by
  unfold Obligations.ChannelSetupGivesTheFittedLoop
  intro s r c hawaits hc hm h1 h2 h3 ho
  have ha := State.carryOut_answered_beside (own := channelSetup r) (kind := 0x04) (r := r) hawaits
    ((s.indexClear r.a.toNat r.b.toNat).setChan c ((s.chan c).setUp r.a.toNat r.b.toNat _ _)) _
    (fun k => channelSetup_of_taken (s := s.taken k 0x04 r) (targetChan_of r c hc) hm h1 h2 h3 ho rfl rfl) rfl rfl
  refine ⟨_, _, _, rfl, fittedPhases_fitPhases _, fittedTo_clampNat _ _ _ ?_, ha.ended, ?_, fun d hd => ?_, fun j => ?_, ?_⟩
  · have := fitPhases_le r.c.toNat
    omega
  · rw [ha.chan, State.setChan_chan, if_pos rfl]
    rfl
  · rw [ha.chan, State.setChan_chan, if_neg hd]
    rfl
  · rw [ha.entry]
    exact s.indexClear_entry _ _ _
  · rw [ha.chans, ha.index]
    exact ha.eq

/-! ## Refusals of the channel commands (R19) -/

/-- A channel command with a target id above 7. -/
theorem carryOut_badChannel {s : State} {r : CmdArgs} {kind : Byte} {own : CmdArgs → State → State × CmdResult}
    (hawaits : s.awaits) (hown : ∀ u, targetChan r = none → own r u = (u, .refused .badArg)) (ht : 7 < r.target.toNat) :
    ∃ t, (Host.Outcome.next (s.carryOut kind r (own r)) : Host.Outcome State Fault Refusal) = .next t ∧
      s.commandEnded t kind r (refusedFor .badArg) ∧ t = { s with proc := t.proc, mem := s.mem.withOwn t.mem } :=
  ⟨_, rfl, State.carryOut_refused hawaits fun _ => hown _ (targetChan_none r ht)⟩

theorem exec_channelClear (r : CmdArgs) (s : State) : exec (.channelClear r []) s = .next (s.carryOut 0x08 r (clearNow r)) :=
  exec_channelClear_nil r s

/-- Settles O17: the refusals answer without a change, and L = 0 sets the channel's record alone. -/
theorem channelSetupTurnsOffOrRefuses : Obligations.ChannelSetupTurnsOffOrRefuses := by
  unfold Obligations.ChannelSetupTurnsOffOrRefuses
  intro s r hawaits
  refine ⟨fun i kind ht hi => ?_, fun c hc => ⟨fun hm => ?_, fun hm h0 => ?_, fun hm h0 hn => ?_, fun hm h1 h2 h3 ho => ?_⟩⟩
  · simp only [List.mem_cons, Prod.mk.injEq, List.not_mem_nil, or_false] at hi
    obtain ⟨rfl, rfl⟩ | ⟨rfl, rfl⟩ | ⟨rfl, rfl⟩ | ⟨rfl, rfl⟩ | ⟨rfl, rfl⟩ := hi
    · exact carryOut_badChannel hawaits (fun u h => by simp [channelSetup, h]) ht
    · exact carryOut_badChannel hawaits (fun u h => by simp [channelArm, h]) ht
    · exact carryOut_badChannel hawaits (fun u h => by simp [channelStop, h]) ht
    · exact carryOut_badChannel hawaits (fun u h => by simp [channelAbort, h]) ht
    · rw [exec_channelClear]
      exact carryOut_badChannel hawaits (fun u h => by simp [clearNow, h]) ht
  · exact ⟨_, rfl, State.carryOut_refused hawaits fun k => channelSetup_of_state (targetChan_of r c hc) hm⟩
  · have ha := State.carryOut_answered_beside (own := channelSetup r) (kind := 0x04) (r := r) hawaits
      (s.setChan c (s.chan c).turnedOff) _
      (fun k => channelSetup_of_zero (s := s.taken k 0x04 r) (targetChan_of r c hc) hm (by simp [h0])) rfl rfl
    refine ⟨_, rfl, ha.ended, ?_, fun d hd => ?_, ?_⟩
    · rw [ha.chan, State.setChan_chan, if_pos rfl]
      rfl
    · rw [ha.chan, State.setChan_chan, if_neg hd]
    · rw [ha.chans]
      exact ha.eq
  · exact ⟨_, rfl, State.carryOut_refused hawaits fun k =>
      channelSetup_of_size (targetChan_of r c hc) hm (fun h => h0 (BitVec.eq_of_toNat_eq h)) hn⟩
  · exact ⟨_, rfl, State.carryOut_refused hawaits fun k => channelSetup_of_overlap (targetChan_of r c hc) hm h1 h2 h3 ho⟩

/-! ## CHANNEL_ARM, CHANNEL_STOP and CHANNEL_ABORT (R25 to R27) -/

section
variable {s : State} {r : CmdArgs} {c : ChanId}

theorem channelArm_of_refused (ht : targetChan r = some c) (h : s.mem.active = false ∨ (s.chan c).state = .off ∨
    4294967040 ≤ (s.chan c).nextRfn + (s.chan c).phases - 1) : channelArm r s = (s, .refused .state) := by
  rw [← Channel.atLimit_iff] at h
  simp only [channelArm, ht]
  split_ifs with h1 h2
  · rfl
  · rfl
  · have hoff : (s.chan c).state = .off := by
      rw [Bool.not_eq_true', Bool.not_eq_false] at h1
      simpa [h1, h2] using h
    simp [hoff]

theorem State.setChan_self (s : State) (c : ChanId) : s.setChan c (s.chan c) = s := by
  simp [State.setChan, State.chan, Vector.get]

/-- The record of a channel that takes CHANNEL_ARM (R25). -/
def Channel.armed (ch : Channel) : Channel :=
  match ch.state with
  | .ready => { ch with state := .armed }
  | .stopping => { ch with state := .recording }
  | .off | .armed | .recording => ch

theorem channelArm_of_taken (ht : targetChan r = some c) (ha : s.mem.active = true) (ho : (s.chan c).state ≠ .off)
    (hl : (s.chan c).nextRfn + (s.chan c).phases - 1 < 4294967040) :
    channelArm r s = (s.setChan c (s.chan c).armed, .done (BitVec.ofNat 32 (s.chan c).nextRfn)) := by
  have hl' : (s.chan c).atLimit = false := by
    rw [← Bool.not_eq_true, Channel.atLimit_iff]
    omega
  cases hs : (s.chan c).state <;> simp_all [channelArm, Channel.armed, State.setChan_self]

/-- A channel in READY or STOPPING takes CHANNEL_STOP without a change (R26). -/
theorem channelStop_of_unmoved (ht : targetChan r = some c) (h : (s.chan c).state = .ready ∨ (s.chan c).state = .stopping) :
    channelStop r s = (s, .done (BitVec.ofNat 32 (s.chan c).nextRfn)) := by
  obtain h | h := h <;> simp [channelStop, ht, h]

theorem channelStop_of_armed (ht : targetChan r = some c) (h : (s.chan c).state = .armed) :
    channelStop r s = (s.endRecording c .stop s.ref.count, .done (BitVec.ofNat 32 (s.chan c).nextRfn)) := by
  simp [channelStop, ht, h]

theorem channelStop_of_recording (ht : targetChan r = some c) (h : (s.chan c).state = .recording) :
    channelStop r s =
      (s.setChan c { s.chan c with state := .stopping }, .done (BitVec.ofNat 32 (s.chan c).nextRfn)) := by
  simp [channelStop, ht, h]

theorem channelAbort_of_busy (ht : targetChan r = some c) (h : (s.chan c).busy = true) :
    channelAbort r s = (s.abortChannel c .abort, .done (BitVec.ofNat 32 (s.chan c).nextRfn)) := by
  have hoff : (s.chan c).state ≠ .off := fun hs => by simp [Channel.busy, hs] at h
  simp [channelAbort, ht, h, hoff]

end

theorem State.emptyAll_besides (s : State) (p : Proc) (m : MemPath) (k : Tbl Clip) (ns : List Nat) :
    (s.besides p m k).emptyAll ns = (s.emptyAll ns).besides p m k := by
  unfold State.emptyAll
  induction ns generalizing s with
  | nil => rfl
  | cons n ns ih =>
    have hstep : ((s.besides p m k).empty n).1 = (s.empty n).1.besides p m k := by
      simp only [State.empty, State.besides_slot]
      cases (s.slot n).state with
      | empty | recording => rfl
      | held =>
        by_cases hl : (s.slot n).locks = 0 <;> by_cases hp : (s.slot n).pins = 0 <;> simp [hl, hp] <;> rfl
    rw [List.foldl_cons, hstep, ih, List.foldl_cons]

theorem State.abortChannel_besides (s : State) (p : Proc) (m : MemPath) (k : Tbl Clip) (c : ChanId) (q : StopCause) :
    (s.besides p m k).abortChannel c q = (s.abortChannel c q).besides p m k := by
  simp only [State.abortChannel, State.besides_chan, State.emptyAll_besides]
  exact State.endRecording_besides ..

section
variable (s : State) (k : Nat) (b : Byte) (r : CmdArgs)

theorem State.emptyAll_taken (ns : List Nat) : (s.taken k b r).emptyAll ns =
    { s.emptyAll ns with proc := (s.taken k b r).proc, mem := s.mem.leave k } :=
  (State.emptyAll_besides s _ _ s.clips ns).trans (by rw [State.emptyAll_frame]; rfl)

theorem State.abortChannel_taken (c : ChanId) (q : StopCause) : (s.taken k b r).abortChannel c q =
    { s.abortChannel c q with proc := (s.taken k b r).proc, mem := s.mem.leave k } :=
  (State.abortChannel_besides s _ _ s.clips c q).trans (by rw [State.abortChannel_frame]; rfl)

end

/-- Settles O18: armed or back in recording as its state says, and nothing else. -/
theorem channelArmActsByState : Obligations.ChannelArmActsByState := by
  unfold Obligations.ChannelArmActsByState
  intro s r c hawaits hc
  have ht := targetChan_of r c hc
  refine ⟨fun h => ⟨_, rfl, State.carryOut_refused hawaits fun k =>
    channelArm_of_refused (s := s.taken k 0x05 r) ht (by simpa using h)⟩, fun hact hoff hl => ?_⟩
  have ha := State.carryOut_answered_beside (own := channelArm r) (kind := 0x05) (r := r) hawaits (s.setChan c (s.chan c).armed)
    (.done (BitVec.ofNat 32 (s.chan c).nextRfn))
    (fun k => channelArm_of_taken (s := s.taken k 0x05 r) ht (by simp [hact]) hoff hl) rfl rfl
  have hown : (s.carryOut 0x05 r (channelArm r)).chan c = (s.chan c).armed := by
    rw [ha.chan, State.setChan_chan, if_pos rfl]
  refine ⟨_, rfl, ha.ended, fun h => ?_, fun h => ?_, fun h => ?_, fun d hd => ?_, ?_⟩
  · rw [hown, Channel.armed, h]
  · rw [hown, Channel.armed, h]
  · obtain h | h := h <;> rw [hown, Channel.armed, h]
  · rw [ha.chan, State.setChan_chan, if_neg hd]
  · rw [ha.chans]
    exact ha.eq

/-- Settles O19: by the four states outside OFF. -/
theorem channelStopActsByState : Obligations.ChannelStopActsByState := by
  unfold Obligations.ChannelStopActsByState
  intro s r c hawaits hc
  have ht := targetChan_of r c hc
  refine ⟨fun h => ⟨_, rfl, State.carryOut_refused hawaits fun _ => by simp [channelStop, ht, h]⟩, fun hoff => ?_⟩
  have hunmoved (h : (s.chan c).state = .ready ∨ (s.chan c).state = .stopping) :=
    State.carryOut_answered_beside (own := channelStop r) (kind := 0x06) (r := r) hawaits s
      (.done (BitVec.ofNat 32 (s.chan c).nextRfn))
      (fun k => channelStop_of_unmoved (s := s.taken k 0x06 r) ht h) rfl rfl
  cases hs : (s.chan c).state with
  | off => exact absurd hs hoff
  | ready =>
    have ha := hunmoved (.inl hs)
    exact ⟨_, rfl, ha.ended, nofun, nofun, fun _ => ha.chan c, fun _ => ⟨ha.evt, ha.mail⟩, fun d _ => ha.chan d, by
      rw [ha.chans, ha.evt, ha.mail]
      exact ha.eq⟩
  | stopping =>
    have ha := hunmoved (.inr hs)
    exact ⟨_, rfl, ha.ended, nofun, nofun, fun _ => ha.chan c, fun _ => ⟨ha.evt, ha.mail⟩, fun d _ => ha.chan d, by
      rw [ha.chans, ha.evt, ha.mail]
      exact ha.eq⟩
  | recording =>
    have ha := State.carryOut_answered_beside (own := channelStop r) (kind := 0x06) (r := r) hawaits
      (s.setChan c { s.chan c with state := .stopping })
      (.done (BitVec.ofNat 32 (s.chan c).nextRfn))
      (fun k => channelStop_of_recording (s := s.taken k 0x06 r) ht hs) rfl rfl
    refine ⟨_, rfl, ha.ended, nofun, fun _ => ?_, nofun, fun _ => ⟨ha.evt, ha.mail⟩, fun d hd => ?_, ?_⟩
    · rw [ha.chan, State.setChan_chan, if_pos rfl]
    · rw [ha.chan, State.setChan_chan, if_neg hd]
    · rw [ha.chans, ha.evt, ha.mail]
      exact ha.eq
  | armed =>
    have ha := State.carryOut_answered_beside (own := channelStop r) (kind := 0x06) (r := r) hawaits
      (s.endRecording c .stop s.ref.count)
      (.done (BitVec.ofNat 32 (s.chan c).nextRfn))
      (fun k => channelStop_of_armed (s := s.taken k 0x06 r) ht hs) rfl rfl
    refine ⟨_, rfl, ha.ended, fun _ => ⟨?_, ?_, ?_⟩, nofun, nofun, fun h => absurd rfl h, fun d hd => ?_, ?_⟩
    · rw [ha.chan, State.endRecording_chan, if_pos rfl]
    · rw [ha.evt, State.endRecording_evt]
      rfl
    · rw [ha.mail, State.endRecording_mail]
    · rw [ha.chan, State.endRecording_chan, if_neg hd]
    · rw [ha.chans, ha.evt, ha.mail]
      exact ha.eq

/-- Settles O20: outside READY and OFF the channel is stopped at once with cause ABORT. -/
theorem channelAbortEndsRecordingAtOnce : Obligations.ChannelAbortEndsRecordingAtOnce := by
  unfold Obligations.ChannelAbortEndsRecordingAtOnce
  intro s r c hawaits hc
  have ht := targetChan_of r c hc
  refine ⟨fun h => ⟨_, rfl, State.carryOut_refused hawaits fun _ => by simp [channelAbort, ht, h]⟩,
    fun h => ⟨_, rfl, State.carryOut_unchanged s 0x07 r (channelAbort r) _ hawaits fun _ => ?_⟩, fun h => ?_⟩
  · simp [channelAbort, ht, h, Channel.busy, CmdResult.done]
  · have hb : (s.chan c).busy = true := (Channel.busy_iff _).2 h
    have ha := State.carryOut_answered_beside (own := channelAbort r) (kind := 0x07) (r := r) hawaits (s.abortChannel c .abort)
      (.done (BitVec.ofNat 32 (s.chan c).nextRfn))
      (fun k => (channelAbort_of_busy (s := s.taken k 0x07 r) ht hb).trans
        (congrArg (fun x => (x, CmdResult.done (BitVec.ofNat 32 (s.chan c).nextRfn)))
          (s.abortChannel_taken k 0x07 r c .abort)))
      (by rw [State.abortChannel_frame]) (by rw [State.abortChannel_frame])
    refine ⟨_, rfl, ha.ended, ?_, fun d hd => ?_, fun n => ?_, ?_, ?_, ?_⟩
    · rw [ha.chan, State.abortChannel_chan, if_pos rfl]
    · rw [ha.chan, State.abortChannel_chan, if_neg hd]
    · rw [ha.slot, State.abortChannel_slot]
    · rw [ha.evt, State.abortChannel_evt]
      rfl
    · rw [ha.mail, State.abortChannel_mail]
    · rw [ha.chans, ha.slots, ha.evt, ha.mail]
      refine ha.eq.trans ?_
      rw [State.abortChannel_frame]

/-! ## CHANNEL_CLEAR (R28) -/

theorem clearNow_of_taken {s : State} {r : CmdArgs} {c : ChanId} (ht : targetChan r = some c) (h : s.clearTaken c) :
    clearNow r s =
      (((s.emptyAll (s.chan c).loopSlots).indexClear (s.chan c).firstSlot (s.chan c).len).clearRecord c,
        .done (BitVec.ofNat 32 ((s.chan c).nextRfn - (s.chan c).tail))) := by
  rw [← State.mayClear_iff] at h
  simp [clearNow, ht, h]

/-- Settles O21: with nothing between its operations the clear empties the loop's slots, clears its entries and sets its record. -/
theorem channelClearEmptiesTheLoop : Obligations.ChannelClearEmptiesTheLoop := by
  unfold Obligations.ChannelClearEmptiesTheLoop
  intro s r c hawaits hc
  have ht := targetChan_of r c hc
  simp only [exec_channelClear]
  refine ⟨fun h => ⟨_, rfl, State.carryOut_refused hawaits fun k => ?_⟩, fun h => ?_⟩
  · have hm : (s.taken k 0x08 r).mayClear c = false := Bool.eq_false_iff.2 fun hm => h ((s.mayClear_iff c).1 hm)
    simp only [clearNow, ht, hm, Bool.not_false, if_true]
  · have ha := State.carryOut_answered_beside (own := clearNow r) (kind := 0x08) (r := r) hawaits
      (((s.emptyAll (s.chan c).loopSlots).indexClear (s.chan c).firstSlot (s.chan c).len).clearRecord c)
      (.done (BitVec.ofNat 32 ((s.chan c).nextRfn - (s.chan c).tail)))
      (fun k => (clearNow_of_taken (s := s.taken k 0x08 r) ht h).trans
        (congrArg (fun x : State => ((x.indexClear (s.chan c).firstSlot (s.chan c).len).clearRecord c,
            CmdResult.done (BitVec.ofNat 32 ((s.chan c).nextRfn - (s.chan c).tail))))
          (s.emptyAll_taken k 0x08 r (s.chan c).loopSlots)))
      (by rw [State.emptyAll_frame]; rfl) (by rw [State.emptyAll_frame]; rfl)
    refine ⟨_, rfl, ha.ended, ?_, fun d hd => ?_, fun n => ?_, fun j => ?_, ?_⟩
    · rw [ha.chan]
      simp [State.clearRecord]
    · rw [ha.chan]
      simp [State.clearRecord, hd]
    · rw [ha.slot]
      simp [State.clearRecord, State.emptyAll_slot, Channel.mem_loopSlots]
    · rw [ha.entry]
      simp only [State.clearRecord, State.setChan_entry, State.indexClear_entry]
      rw [State.emptyAll_frame]
      rfl
    · rw [ha.chans, ha.slots, ha.index]
      refine ha.eq.trans ?_
      rw [State.emptyAll_frame]
      rfl

end Sys2Proof.Machine
end

section
/-! PROOFS. Walk.lean: what the allocation walk takes: the first free slots of one circuit of the loop, in loop order from the cursor
on (R35), and where it leaves cursor and tail (R36). -/

namespace Sys2Proof.Machine

/-! ## The words of the walk -/

/-- The `f` slots of the loop in loop order from position `pos` on. -/
def Channel.circuit (ch : Channel) (pos f : Nat) : List Nat := (List.range f).map (fun i => ch.firstSlot + (pos + i) % ch.len)

/-- Slot `m` may be taken, as far as its own record goes (R6). -/
def State.free (s : State) (m : Nat) : Bool :=
  decide ((s.slot m).state ≠ .recording ∧ (s.slot m).locks = 0 ∧ (s.slot m).pins = 0)

/-- The tail after the frame of slot `m` is lost (R36). -/
def State.tailPast (s : State) (c : ChanId) (tail m : Nat) : Nat :=
  if (s.slot m).state = .held ∧ tail ≤ (s.slot m).rfn ∧ (s.slot m).rfn < (s.chan c).nextRfn ∧
      s.entry ((s.chan c).firstSlot + (s.slot m).rfn % (s.chan c).len) = { valid := true, slot := m }
  then (s.slot m).rfn + 1 else tail

/-- The cursor after the slots of a list are taken (R35). -/
def Channel.cursorPast (ch : Channel) (l : List Nat) : Nat :=
  match l.getLast? with
  | none => ch.cursor
  | some m => (m - ch.firstSlot + 1) % ch.len

/-- From `s` to `t` the walk of channel `c` has taken the slots `l`, in turn, for the RFNs `rs`. -/
structure State.WalkTook (s : State) (c : ChanId) (l rs : List Nat) (t : State) : Prop where
  chan : t.chan c = { s.chan c with cursor := (s.chan c).cursorPast l, tail := l.foldl (s.tailPast c) (s.chan c).tail }
  others : ∀ d, d ≠ c → t.chan d = s.chan d
  took : ∀ (j m r : Nat), l[j]? = some m → rs[j]? = some r → t.slot m = { state := .recording, rfn := r, locks := 0, pins := 0 }
  kept : ∀ m, m ∉ l → t.slot m = s.slot m
  frame : t = { s with chans := t.chans, slots := t.slots }

/-! ## The circuit -/

theorem Channel.mem_circuit {ch : Channel} {pos f m : Nat} :
    m ∈ ch.circuit pos f ↔ ∃ i, i < f ∧ ch.firstSlot + (pos + i) % ch.len = m := by
  simp [Channel.circuit]

theorem Channel.circuit_succ (ch : Channel) (pos f : Nat) (h : pos < ch.len) :
    ch.circuit pos (f + 1) = (ch.firstSlot + pos) :: ch.circuit ((pos + 1) % ch.len) f := by
  simp only [Channel.circuit, List.range_succ_eq_map, List.map_cons, List.map_map, Nat.add_zero, Nat.mod_eq_of_lt h,
    List.cons.injEq, true_and]
  refine List.map_congr_left fun i _ => ?_
  simp only [Function.comp_apply, Nat.succ_eq_add_one, Nat.mod_add_mod]
  congr 2
  omega

/-- A circuit meets no position twice. -/
theorem Channel.notMem_circuit_succ (ch : Channel) (pos f : Nat) (h : pos < ch.len) (hf : f + 1 ≤ ch.len) :
    ch.firstSlot + pos ∉ ch.circuit ((pos + 1) % ch.len) f := by
  rw [Channel.mem_circuit]
  rintro ⟨i, hi, he⟩
  have hmod : (pos + 1 + i) % ch.len = pos := by
    rw [Nat.mod_add_mod] at he
    omega
  by_cases hw : pos + 1 + i < ch.len
  · rw [Nat.mod_eq_of_lt hw] at hmod
    omega
  · rw [Nat.mod_eq_sub_mod (by omega), Nat.mod_eq_of_lt (by omega)] at hmod
    omega

theorem Channel.mem_circuit_len {ch : Channel} {pos m : Nat} (hp : pos < ch.len) :
    m ∈ ch.circuit pos ch.len ↔ ch.firstSlot ≤ m ∧ m < ch.firstSlot + ch.len := by
  rw [Channel.mem_circuit]
  constructor
  · rintro ⟨i, hi, rfl⟩
    have := Nat.mod_lt (pos + i) (Nat.zero_lt_of_lt hp)
    omega
  · rintro ⟨h1, h2⟩
    obtain ⟨d, rfl⟩ := Nat.exists_eq_add_of_le h1
    by_cases hd : pos ≤ d
    · exact ⟨d - pos, by omega, by rw [Nat.add_sub_cancel' hd, Nat.mod_eq_of_lt (by omega)]⟩
    · exact ⟨ch.len + d - pos, by omega, by
        rw [show pos + (ch.len + d - pos) = d + ch.len by omega, Nat.add_mod_right, Nat.mod_eq_of_lt (by omega)]⟩

/-! ## Taking in turn -/

section
variable {s t u : State} {c : ChanId}

theorem State.WalkTook.nothing (s : State) (c : ChanId) (rs : List Nat) : s.WalkTook c [] rs s where
  chan := rfl
  others _ _ := rfl
  took _ _ _ h := by simp at h
  kept _ _ := rfl
  frame := rfl

/-- What is read of a slot that the walk has not taken is unchanged. -/
theorem State.WalkTook.tailPast_eq {l rs : List Nat} (h : s.WalkTook c l rs t) {m : Nat} (hm : m ∉ l) (x : Nat) :
    t.tailPast c x m = s.tailPast c x m := by
  have hentry (i : Nat) : t.entry i = s.entry i := (congrArg (fun y : State => y.entry i) h.frame :)
  unfold State.tailPast
  rw [h.kept m hm, hentry, h.chan]

theorem State.WalkTook.free_eq {l rs : List Nat} (h : s.WalkTook c l rs t) {m : Nat} (hm : m ∉ l) : t.free m = s.free m := by
  unfold State.free
  rw [h.kept m hm]

/-- One slot, and then others. -/
theorem State.WalkTook.cons {n r : Nat} {l rs : List Nat} (h : s.WalkTook c [n] [r] t) (h' : t.WalkTook c l rs u) (hn : n ∉ l) :
    s.WalkTook c (n :: l) (r :: rs) u where
  chan := by
    have hfold : l.foldl (t.tailPast c) (s.tailPast c (s.chan c).tail n) =
        l.foldl (s.tailPast c) (s.tailPast c (s.chan c).tail n) :=
      List.foldl_ext _ _ _ fun x m hm => h.tailPast_eq (by rintro hmn; simp_all) x
    have hcursor : (t.chan c).cursorPast l = (s.chan c).cursorPast (n :: l) := by
      simp only [Channel.cursorPast, h.chan]
      cases l with
      | nil => rfl
      | cons m l => rw [List.getLast?_cons_cons]; rfl
    rw [h'.chan, hcursor, h.chan]
    simp only [List.foldl_cons, List.foldl_nil, hfold]
  others d hd := (h'.others d hd).trans (h.others d hd)
  took j m q hj hq := by
    cases j with
    | zero =>
      obtain rfl : n = m := by simpa using hj
      obtain rfl : r = q := by simpa using hq
      rw [h'.kept n hn]
      exact h.took 0 n r rfl rfl
    | succ j => exact h'.took j m q (by simpa using hj) (by simpa using hq)
  kept m hm := by
    rw [List.mem_cons, not_or] at hm
    rw [h'.kept m hm.2, h.kept m (by simpa using hm.1)]
  frame := by
    rw [h'.frame, h.frame]

/-! ## The walk -/

theorem State.take_of_not_free {n r : Nat} (h : s.free n = false) : ∃ why, s.take n r = (s, .declined why) := by
  rcases s.take_cases n r with ⟨_, hs, hl, hp, _⟩ | hdeclined
  · exact absurd (decide_eq_true ⟨hs, hl, hp⟩) (Bool.eq_false_iff.1 h)
  · exact hdeclined

theorem State.take_of_free {n r : Nat} (h : s.free n = true) (ho : s.ownerOf n ≠ none) :
    s.take n r = (s.setSlot n { state := .recording, rfn := r, locks := 0, pins := 0 },
      .done (if (s.slot n).state = .held then some (s.slot n).rfn else none)) := by
  obtain ⟨h1, h2, h3⟩ := of_decide_eq_true h
  simp [State.take, ho, h1, h2, h3]

/-- The state after the walk takes the free slot at position `pos` for RFN `r`. -/
def State.walkStep (s : State) (c : ChanId) (pos r : Nat) : State :=
  ((s.setSlot ((s.chan c).firstSlot + pos) { state := .recording, rfn := r, locks := 0, pins := 0 }).setChan c
    { s.chan c with tail := s.tailPast c (s.chan c).tail ((s.chan c).firstSlot + pos), cursor := (pos + 1) % (s.chan c).len })

theorem State.walkStep_took (s : State) (c : ChanId) (pos r : Nat) :
    s.WalkTook c [(s.chan c).firstSlot + pos] [r] (s.walkStep c pos r) where
  chan := by simp [State.walkStep, Channel.cursorPast]
  others d hd := by simp [State.walkStep, hd]
  took j m q hj hq := by
    cases j with
    | zero =>
      obtain rfl : (s.chan c).firstSlot + pos = m := by simpa using hj
      obtain rfl : r = q := by simpa using hq
      simp [State.walkStep]
    | succ j => simp at hj
  kept m hm := by
    have hne : m ≠ (s.chan c).firstSlot + pos := by simpa using hm
    simp [State.walkStep, hne]
  frame := rfl

theorem State.moveTail_of_lost {n : Nat} {x : Slot} :
    ((s.setSlot n x).moveTail c n (if (s.slot n).state = .held then some (s.slot n).rfn else none)) =
      (s.setSlot n x).setChan c { s.chan c with tail := s.tailPast c (s.chan c).tail n } := by
  have hself : (s.setSlot n x).setChan c (s.chan c) = s.setSlot n x := (s.setSlot n x).setChan_self c
  by_cases hs : (s.slot n).state = .held
  · rw [if_pos hs, State.moveTail]
    by_cases hin : (s.chan c).tail ≤ (s.slot n).rfn ∧ (s.slot n).rfn < (s.chan c).nextRfn ∧
        s.entry ((s.chan c).firstSlot + (s.slot n).rfn % (s.chan c).len) = { valid := true, slot := n }
    · rw [show s.tailPast c (s.chan c).tail n = (s.slot n).rfn + 1 from if_pos ⟨hs, hin⟩]
      exact if_pos hin
    · rw [show s.tailPast c (s.chan c).tail n = (s.chan c).tail from if_neg fun h => hin h.2]
      exact (if_neg hin).trans hself.symm
  · rw [if_neg hs, State.moveTail, show s.tailPast c (s.chan c).tail n = (s.chan c).tail from if_neg fun h => hs h.1]
    exact hself.symm

theorem State.setChan_setChan (s : State) (c : ChanId) (x y : Channel) : (s.setChan c x).setChan c y = s.setChan c y := by
  simp [State.setChan]

theorem walk_took (fuel : Nat) (c : ChanId) (fresh : List Nat) (pos : Nat) (need got : List Nat) (s : State)
    (howned : ∀ p, p < (s.chan c).len → s.ownerOf ((s.chan c).firstSlot + p) ≠ none) (hfuel : fuel ≤ (s.chan c).len)
    (hpos : pos < (s.chan c).len) :
    ∃ l, l = (((s.chan c).circuit pos fuel).filter (fun m => decide (m ∉ fresh) && s.free m)).take need.length ∧
      (walk fuel c fresh pos need got s).2 = got ++ l ∧ s.WalkTook c l need (walk fuel c fresh pos need got s).1 := by
  induction fuel generalizing pos need got s with
  | zero => exact ⟨[], by simp [Channel.circuit], by simp [walk], .nothing s c need⟩
  | succ fuel ih =>
    have hnext : (pos + 1) % (s.chan c).len < (s.chan c).len := Nat.mod_lt _ (by omega)
    cases need with
    | nil => exact ⟨[], by simp, by simp [walk], .nothing s c []⟩
    | cons r rs =>
      rw [Channel.circuit_succ _ _ _ hpos]
      by_cases hfresh : (s.chan c).firstSlot + pos ∈ fresh
      · obtain ⟨l, hl, hgot, htook⟩ := ih ((pos + 1) % (s.chan c).len) (r :: rs) got s howned (by omega) hnext
        refine ⟨l, ?_, ?_, ?_⟩
        · rw [hl, List.filter_cons_of_neg (by simp [hfresh])]
        · rw [walk, if_pos hfresh, hgot]
        · rw [walk, if_pos hfresh]
          exact htook
      cases hfree : s.free ((s.chan c).firstSlot + pos) with
      | false =>
        obtain ⟨why, hwhy⟩ := State.take_of_not_free (r := r) hfree
        obtain ⟨l, hl, hgot, htook⟩ := ih ((pos + 1) % (s.chan c).len) (r :: rs) got s howned (by omega) hnext
        refine ⟨l, ?_, ?_, ?_⟩
        · rw [hl, List.filter_cons_of_neg (by simp [hfree])]
        · rw [walk, if_neg hfresh, hwhy, hgot]
        · rw [walk, if_neg hfresh, hwhy]
          exact htook
      | true =>
        have hwalk : walk (fuel + 1) c fresh pos (r :: rs) got s = walk fuel c fresh ((pos + 1) % (s.chan c).len) rs
            (got ++ [(s.chan c).firstSlot + pos]) (s.walkStep c pos r) := by
          rw [walk, if_neg hfresh, State.take_of_free hfree (howned pos hpos)]
          dsimp only
          rw [State.moveTail_of_lost, State.setChan_setChan, State.setChan_chan, if_pos rfl]
          rfl
        have hstep := s.walkStep_took c pos r
        have hsame : (s.walkStep c pos r).chan c =
            { s.chan c with cursor := ((s.walkStep c pos r).chan c).cursor, tail := ((s.walkStep c pos r).chan c).tail } := by
          rw [hstep.chan]
        have howner (n : Nat) : (s.walkStep c pos r).ownerOf n = s.ownerOf n := by
          refine State.ownerOf_congr fun d => ?_
          by_cases hd : d = c
          · subst hd
            rw [hsame]
            rfl
          · rw [hstep.others d hd]
        obtain ⟨l, hl, hgot, htook⟩ := ih ((pos + 1) % (s.chan c).len) rs (got ++ [(s.chan c).firstSlot + pos])
          (s.walkStep c pos r) (by rw [hsame]; simpa only [howner] using howned) (by rw [hsame]; exact Nat.le_of_succ_le hfuel)
          (by rw [hsame]; exact hnext)
        have hnot := Channel.notMem_circuit_succ _ _ _ hpos hfuel
        have hl' : l = (((s.chan c).circuit ((pos + 1) % (s.chan c).len) fuel).filter
            (fun m => decide (m ∉ fresh) && s.free m)).take rs.length := by
          rw [hl, hsame]
          congr 1
          refine List.filter_congr fun m hm => ?_
          rw [hstep.free_eq (by rw [List.mem_singleton]; rintro rfl; exact hnot hm)]
        have hn : (s.chan c).firstSlot + pos ∉ l := fun h => by
          rw [hl'] at h
          exact hnot (List.mem_of_mem_filter (List.mem_of_mem_take h))
        refine ⟨((s.chan c).firstSlot + pos) :: l, ?_, ?_, ?_⟩
        · rw [List.filter_cons_of_pos (by simp [hfresh, hfree]), hl', List.length_cons, List.take_succ_cons]
        · rw [hwalk, hgot, List.append_assoc, List.singleton_append]
        · rw [hwalk]
          exact hstep.cons htook hn

end

end Sys2Proof.Machine
end

section
/-! PROOFS. ChannelTicks.lean: the commit of a period, and the ticks of a channel in ARMED, RECORDING and STOPPING (R30 to R36). -/

namespace Sys2Proof.Machine

/-! ## The commit of a period (R31) -/

section
variable {s t u : State} {c : ChanId}

/-- From `s` to `t` the slots `ns` are committed, the frame of the first of them being `q` and the others following it. -/
structure State.Committed (s : State) (c : ChanId) (ns : List Nat) (q : Nat) (t : State) : Prop where
  slot : ∀ m, t.slot m = if m ∈ ns then { s.slot m with state := .held } else s.slot m
  named : ∀ (j m : Nat), ns[j]? = some m →
    t.entry ((s.chan c).firstSlot + (q + j) % (s.chan c).len) = { valid := true, slot := m }
  others : ∀ i, (∀ j, j < ns.length → i ≠ (s.chan c).firstSlot + (q + j) % (s.chan c).len) → t.entry i = s.entry i
  frame : t = { s with slots := t.slots, index := t.index }

/-- The slots `ns` are RECORDING slots of channel `c`, taken for the RFNs from `q` on. -/
def State.recordsFrom (s : State) (c : ChanId) (ns : List Nat) (q : Nat) : Prop :=
  ∀ (j n : Nat), ns[j]? = some n → s.ownerOf n = some c ∧ (s.slot n).state = .recording ∧ (s.slot n).rfn = q + j

theorem add_mod_ne {q j n : Nat} (h1 : 0 < j) (h2 : j < n) : (q + j) % n ≠ q % n := by
  intro h
  have hdvd : n ∣ q + j - q := (Nat.modEq_iff_dvd' (Nat.le_add_right q j)).1 h.symm
  rw [Nat.add_sub_cancel_left] at hdvd
  exact absurd (Nat.le_of_dvd h1 hdvd) (by omega)

theorem State.commitAll_committed {ns : List Nat} {q : Nat} (hns : ns.Nodup) (hlen : ns.length ≤ (s.chan c).len)
    (hrec : s.recordsFrom c ns q) : s.Committed c ns q (s.commitAll ns) := by
  induction ns generalizing q s with
  | nil => exact ⟨by simp [State.commitAll], by simp, fun _ _ => rfl, rfl⟩
  | cons n ns ih =>
    obtain ⟨hn, hns⟩ := List.nodup_cons.1 hns
    obtain ⟨howner, hstate, hrfn⟩ := hrec 0 n rfl
    have hcommit : (s.commit n).1 =
        (s.setEntry ((s.chan c).firstSlot + q % (s.chan c).len) { valid := true, slot := n }).setSlot n
          { s.slot n with state := .held } := by
      simp [State.commit, State.indexCommit, hstate, howner, Channel.entryOf, hrfn]
    have hchan : (s.commit n).1.chan c = s.chan c := by rw [hcommit]; rfl
    have hslot (m : Nat) : (s.commit n).1.slot m = if m = n then { s.slot n with state := .held } else s.slot m := by
      rw [hcommit]
      simp
    have hentry (i : Nat) : (s.commit n).1.entry i =
        if i = (s.chan c).firstSlot + q % (s.chan c).len then { valid := true, slot := n } else s.entry i := by
      rw [hcommit]
      simp
    have hrest : (s.commit n).1.recordsFrom c ns (q + 1) := by
      intro j m hj
      obtain ⟨ho, hs, hr⟩ := hrec (j + 1) m hj
      have hne : m ≠ n := by
        rintro rfl
        exact hn (List.mem_of_getElem? hj)
      rw [hslot, if_neg hne]
      refine ⟨?_, hs, by omega⟩
      rw [hcommit]
      exact ho
    have hdone := ih hns (by rw [hchan]; exact Nat.le_of_succ_le hlen) hrest
    have hapart (j : Nat) (hj : j < ns.length) :
        (s.chan c).firstSlot + (q + 1 + j) % (s.chan c).len ≠ (s.chan c).firstSlot + q % (s.chan c).len := by
      have hne := add_mod_ne (q := q) (j := j + 1) (n := (s.chan c).len) (by omega) (by simp at hlen; omega)
      rw [show q + 1 + j = q + (j + 1) by omega]
      omega
    refine ⟨fun m => ?_, fun j m hj => ?_, fun i hi => ?_, ?_⟩
    · rw [State.commitAll, List.foldl_cons]
      refine (hdone.slot m).trans ?_
      rw [hslot]
      by_cases hmn : m = n
      · subst hmn
        simp [hn]
      · simp [hmn]
    · cases j with
      | zero =>
        obtain rfl : n = m := by simpa using hj
        refine (hdone.others _ fun j hj => ?_).trans ?_
        · rw [hchan]
          exact (hapart j hj).symm
        · rw [hentry, Nat.add_zero, if_pos rfl]
      | succ j =>
        have := hdone.named j m (by simpa using hj)
        rw [hchan, show q + 1 + j = q + (j + 1) by omega] at this
        exact this
    · refine (hdone.others i fun j hj => ?_).trans ?_
      · rw [hchan, show q + 1 + j = q + (j + 1) by omega]
        exact hi (j + 1) (by simpa using hj)
      · rw [hentry, if_neg (by simpa using hi 0 (by simp))]
    · exact s.commitAll_frame _

theorem State.phases_le_len (hg : s.geometryOk) (hs : (s.chan c).state ≠ .off) :
    1 ≤ (s.chan c).phases ∧ (s.chan c).phases ≤ (s.chan c).len ∧ (s.chan c).cursor < (s.chan c).len := by
  obtain ⟨hphases, hrest⟩ := hg.1 c
  have h1 : 1 ≤ (s.chan c).phases := by
    simp only [List.mem_cons, List.not_mem_nil, or_false] at hphases
    omega
  cases hstate : (s.chan c).state with
  | off => exact absurd hstate hs
  | ready | armed | recording | stopping =>
    rw [hstate] at hrest
    obtain ⟨_, _, hlow, hhigh, hcursor⟩ := hrest
    exact ⟨h1, by omega, hcursor⟩

/-- What a commit of the period of a channel leaves. -/
theorem State.commitPeriod_committed (hg : s.geometryOk) (hs : (s.chan c).state ≠ .off) (hp : s.periodTaken c) :
    ∃ v, s.Committed c (s.chan c).phaseSlots (s.chan c).nextRfn v ∧
      s.commitPeriod c =
        (v.setChan c { s.chan c with nextRfn := (s.chan c).nextRfn + (s.chan c).phases }).tellClips c
          (.arrival (s.chan c).nextRfn (s.chan c).phases) := by
  obtain ⟨hlen, hnodup, hrec⟩ := hp
  refine ⟨_, State.commitAll_committed hnodup ?_ hrec, ?_⟩
  · rw [hlen]
    exact (State.phases_le_len hg hs).2.1
  · rw [State.commitPeriod, State.commitAll_chan]

/-! ## The allocation (R35) -/

/-- The slots that an allocation takes: the first P free slots of the circuit, the fresh ones passed over. -/
def State.nextSlots (s : State) (c : ChanId) (fresh : List Nat) : List Nat :=
  (((s.chan c).circuit (s.chan c).cursor (s.chan c).len).filter (fun m => decide (m ∉ fresh) && s.free m)).take (s.chan c).phases

/-- What an allocation leaves. -/
theorem State.allocate_took (hg : s.geometryOk) (hs : (s.chan c).state ≠ .off) (fresh : List Nat) :
    ∃ v, s.WalkTook c (s.nextSlots c fresh) (s.chan c).period v ∧
      s.allocate c fresh = v.setChan c { v.chan c with phaseSlots := s.nextSlots c fresh } := by
  have howned (p : Nat) (hp : p < (s.chan c).len) : s.ownerOf ((s.chan c).firstSlot + p) ≠ none := by
    rw [s.ownerOf_of_owns _ c hg.2 (((s.chan c).owns_iff _).2 ⟨hs, by omega, by omega⟩)]
    simp
  obtain ⟨l, hl, hgot, htook⟩ := walk_took (s.chan c).len c fresh (s.chan c).cursor (s.chan c).period [] s howned le_rfl
    (State.phases_le_len hg hs).2.2
  have hnext : l = s.nextSlots c fresh := by
    rw [hl]
    simp [State.nextSlots, Channel.period]
  rw [hnext] at htook hgot
  exact ⟨_, htook, by rw [State.allocate, hgot, List.nil_append]⟩

/-- What is read of the slots, the cursor and the tail after an allocation, in the words of the claims. -/
theorem State.WalkTook.cursor_eq {l rs : List Nat} (h : s.WalkTook c l rs t) :
    (l = [] → (t.chan c).cursor = (s.chan c).cursor) ∧
      ∀ m, l.getLast? = some m → (t.chan c).cursor = (m - (s.chan c).firstSlot + 1) % (s.chan c).len := by
  rw [h.chan]
  refine ⟨?_, fun m hm => ?_⟩
  · rintro rfl
    rfl
  · simp [Channel.cursorPast, hm]

theorem State.WalkTook.took_period {l : List Nat} (h : s.WalkTook c l (s.chan c).period t)
    (hl : l.length ≤ (s.chan c).phases) {j m : Nat} (hj : l[j]? = some m) :
    t.slot m = { state := .recording, rfn := (s.chan c).nextRfn + j, locks := 0, pins := 0 } := by
  have hlt : j < l.length := (List.getElem?_eq_some_iff.1 hj).1
  refine h.took j m _ hj ?_
  simp [Channel.period, Nat.lt_of_lt_of_le hlt hl]

theorem State.length_nextSlots_le (s : State) (c : ChanId) (fresh : List Nat) :
    (s.nextSlots c fresh).length ≤ (s.chan c).phases := List.length_take_le ..

theorem State.nextSlots_of_empty (hp : (s.chan c).phases ≤ (s.chan c).len) (hcur : (s.chan c).cursor < (s.chan c).len)
    (he : ∀ m, (s.chan c).firstSlot ≤ m → m < (s.chan c).firstSlot + (s.chan c).len → s.slot m = {}) :
    s.nextSlots c [] = (s.chan c).circuit (s.chan c).cursor (s.chan c).phases := by
  rw [State.nextSlots, List.filter_eq_self.2 fun m hm => ?_]
  · rw [Channel.circuit, ← List.map_take, List.take_range, Nat.min_eq_left hp]
    rfl
  · obtain ⟨h1, h2⟩ := (Channel.mem_circuit_len hcur).1 hm
    simp [State.free, he m h1 h2]

theorem Channel.cursorPast_circuit (ch : Channel) (pos f : Nat) :
    ch.cursorPast (ch.circuit pos (f + 1)) = (pos + (f + 1)) % ch.len := by
  simp [Channel.cursorPast, Channel.circuit, List.getLast?_range, Nat.add_assoc]

/-- Slots that are EMPTY lose no frame. -/
theorem State.foldl_tailPast_of_empty {l : List Nat} (h : ∀ m ∈ l, s.slot m = {}) (x : Nat) : l.foldl (s.tailPast c) x = x := by
  rw [List.foldl_ext _ (fun x _ => x) x fun y m hm => by simp [State.tailPast, h m hm], List.foldl_fixed]

/-! ## The tick by the channel's state -/

/-- The state in which channel `c` does its work for a tick: the tick is out of its mailbox, its stray flag cleared (R29). -/
def State.ticking (s : State) (c : ChanId) : State :=
  (s.setMail { s.mail with chanTicks := popAt s.mail.chanTicks c }).setChan c { s.chan c with stray := false }

theorem State.ticking_chan (s : State) (c d : ChanId) :
    (s.ticking c).chan d = if d = c then { s.chan c with stray := false } else s.chan d := by
  simp [State.ticking]

theorem State.ticking_chan_self (s : State) (c : ChanId) : (s.ticking c).chan c = { s.chan c with stray := false } := by
  simp [State.ticking]

theorem State.ticking_owns (s : State) (c d : ChanId) (n : Nat) : ((s.ticking c).chan d).owns n = (s.chan d).owns n := by
  rw [State.ticking_chan]
  split_ifs with h
  · rw [h]
    rfl
  · rfl

theorem State.ticking_ownerOf (s : State) (c : ChanId) (n : Nat) : (s.ticking c).ownerOf n = s.ownerOf n :=
  State.ownerOf_congr fun d => s.ticking_owns c d n

theorem State.ticking_geometryOk (hg : s.geometryOk) (c : ChanId) : (s.ticking c).geometryOk := by
  refine ⟨fun d => ?_, fun d e n => ?_⟩
  · rw [State.ticking_chan]
    split_ifs
    · exact hg.1 c
    · exact hg.1 d
  · rw [State.ticking_owns, State.ticking_owns]
    exact hg.2 d e n

theorem State.ticking_periodTaken (hp : s.periodTaken c) : (s.ticking c).periodTaken c := by
  obtain ⟨hlen, hnodup, hrec⟩ := hp
  refine ⟨?_, ?_, fun j n hj => ?_⟩
  · rw [State.ticking_chan_self]
    exact hlen
  · rw [State.ticking_chan_self]
    exact hnodup
  · rw [State.ticking_chan_self] at hj ⊢
    rw [State.ticking_ownerOf]
    exact hrec j n hj

theorem State.tickChannel_eq {u w : State} {n : Word} (hw : w = u.setChan c { u.chan c with stray := false }) :
    u.tickChannel c n = match (w.chan c).state with
      | .off => w
      | .ready => w
      | .armed => (((w.allocate c []).setChan c { (w.allocate c []).chan c with state := .recording }).raiseAt .channelRecording
          .none c.val (w.chan c).phases (BitVec.ofNat 32 (w.chan c).nextRfn) n)
      | .recording => if ((w.commitPeriod c).chan c).atLimit then (w.commitPeriod c).endRecording c .rfnLimit n
          else (w.commitPeriod c).allocate c (w.chan c).phaseSlots
      | .stopping => (w.commitPeriod c).endRecording c .stop n := by
  subst hw
  rfl

section
variable {n : Word} {rest : List Word} (hmail : s.mail.chanTicks.get c = n :: rest)
include hmail

theorem exec_channelTick_armed (hs : (s.chan c).state = .armed) :
    exec (.channelTick c) s = .next ((((s.ticking c).allocate c []).setChan c
      { ((s.ticking c).allocate c []).chan c with state := .recording }).raiseAt .channelRecording .none c.val
        (s.chan c).phases (BitVec.ofNat 32 (s.chan c).nextRfn) n) := by
  rw [exec_channelTick_waiting hmail, State.tickChannel_eq (w := s.ticking c) rfl]
  simp only [State.ticking_chan_self, hs]

theorem exec_channelTick_stopping (hs : (s.chan c).state = .stopping) :
    exec (.channelTick c) s = .next (((s.ticking c).commitPeriod c).endRecording c .stop n) := by
  rw [exec_channelTick_waiting hmail, State.tickChannel_eq (w := s.ticking c) rfl]
  simp only [State.ticking_chan_self, hs]

theorem exec_channelTick_recording (hs : (s.chan c).state = .recording) :
    exec (.channelTick c) s = .next (if (((s.ticking c).commitPeriod c).chan c).atLimit then
        ((s.ticking c).commitPeriod c).endRecording c .rfnLimit n
      else ((s.ticking c).commitPeriod c).allocate c (s.chan c).phaseSlots) := by
  rw [exec_channelTick_waiting hmail, State.tickChannel_eq (w := s.ticking c) rfl]
  simp only [State.ticking_chan_self, hs]

end

end

/-- Settles O23: the channel's work is one allocation with no fresh slot, and a record set to RECORDING. -/
theorem armedChannelStartsRecordingAtItsTick : Obligations.ArmedChannelStartsRecordingAtItsTick := by
  unfold Obligations.ArmedChannelStartsRecordingAtItsTick
  intro s c n rest hmail hg hs
  have hoff : (s.chan c).state ≠ .off := by simp [hs]
  have hself := s.ticking_chan_self c
  obtain ⟨h1, hple, hcur⟩ := State.phases_le_len hg hoff
  obtain ⟨v, htook, halloc⟩ := State.allocate_took (State.ticking_geometryOk hg c) (c := c) (by rw [hself]; exact hoff) []
  have hslots : (s.ticking c).nextSlots c [] = (((List.range (s.chan c).len).map (fun i =>
      (s.chan c).firstSlot + ((s.chan c).cursor + i) % (s.chan c).len)).filter (fun m => decide
        ((s.slot m).state ≠ .recording ∧ (s.slot m).locks = 0 ∧ (s.slot m).pins = 0))).take (s.chan c).phases := by
    rw [State.nextSlots, hself]
    simp only [List.not_mem_nil, not_false_eq_true, decide_true, Bool.true_and]
    rfl
  rw [exec_channelTick_armed hmail hs, halloc]
  refine ⟨_, rfl, ?_⟩
  generalize ht : State.raiseAt _ _ _ _ _ _ _ = t
  have hchan : t.chan c = { v.chan c with phaseSlots := (s.ticking c).nextSlots c [], state := .recording } := by
    rw [← ht]
    simp
  have hlist : (t.chan c).phaseSlots = (s.ticking c).nextSlots c [] := by rw [hchan]
  have hslot (m : Nat) : t.slot m = v.slot m := by
    rw [← ht]
    simp
  rw [hlist]
  refine ⟨?_, fun d hd => ?_, hslots, fun h => ?_, fun m hm => ?_, ?_, fun j m hj => ?_, fun m hm => ?_, fun he => ?_, ?_, ?_⟩
  · rw [hchan, htook.chan, hself]
  · rw [← ht]
    simp only [State.raiseAt_chan, State.setChan_chan, if_neg hd]
    rw [htook.others d hd, State.ticking_chan, if_neg hd]
  · have := htook.cursor_eq.1 h
    rw [hself] at this
    rw [hchan]
    exact this
  · have := htook.cursor_eq.2 m hm
    rw [hself] at this
    rw [hchan]
    exact this
  · rw [hchan, htook.chan]
    show List.foldl ((s.ticking c).tailPast c) _ _ = _
    unfold State.tailPast
    rw [hself]
    rfl
  · rw [hslot, htook.took_period (State.length_nextSlots_le ..) hj, hself]
  · rw [hslot, htook.kept m hm]
    rfl
  · have hall := State.nextSlots_of_empty (s := s.ticking c) (c := c) (by rw [hself]; exact hple) (by rw [hself]; exact hcur)
      (by rw [hself]; exact he)
    have hempty (m : Nat) (hm : m ∈ (s.ticking c).nextSlots c []) : (s.ticking c).slot m = {} := by
      have hcirc := List.mem_of_mem_filter (List.mem_of_mem_take hm)
      rw [hself] at hcirc
      obtain ⟨hlow, hhigh⟩ := (Channel.mem_circuit_len (ch := s.chan c) hcur).1 hcirc
      exact he m hlow hhigh
    refine ⟨?_, ?_, ?_⟩
    · rw [hchan, htook.chan]
      show List.foldl ((s.ticking c).tailPast c) _ _ = _
      rw [State.foldl_tailPast_of_empty hempty, hself]
    · obtain ⟨f, hf⟩ := Nat.exists_eq_add_of_le' h1
      rw [hchan, htook.chan, hall, hself, hf]
      exact Channel.cursorPast_circuit (s.chan c) _ _
    · rw [hall, hself]
      rfl
  · rw [← ht, State.raiseAt_evt, State.setChan_evt, State.setChan_evt, htook.frame]
    rfl
  · rw [← ht, htook.frame]
    rfl

/-! ## The ticks that commit a period -/

/-- From `s` to `w` a tick of channel `c` has committed the period and handed the arrival (R31, R32). -/
structure State.PeriodCommitted (s : State) (c : ChanId) (w : State) : Prop where
  chan : w.chan c = { s.chan c with stray := false, nextRfn := (s.chan c).nextRfn + (s.chan c).phases }
  others : ∀ d, d ≠ c → w.chan d = s.chan d
  slot : ∀ m, w.slot m = if m ∈ (s.chan c).phaseSlots then { s.slot m with state := .held } else s.slot m
  named : ∀ (j m : Nat), (s.chan c).phaseSlots[j]? = some m →
    w.entry ((s.chan c).firstSlot + ((s.chan c).nextRfn + j) % (s.chan c).len) = { valid := true, slot := m }
  unnamed : ∀ i, (∀ j, j < (s.chan c).phases → i ≠ (s.chan c).firstSlot + ((s.chan c).nextRfn + j) % (s.chan c).len) →
    w.entry i = s.entry i
  evt : w.evt = s.evt
  mail : w.mail = { s.mail with
    chanTicks := popAt s.mail.chanTicks c
    chanNotes := pushAt s.mail.chanNotes c (.arrival (s.chan c).nextRfn (s.chan c).phases) }
  frame : w = { s with chans := w.chans, slots := w.slots, index := w.index, mail := w.mail }
  geometry : w.geometryOk

theorem State.ticking_periodCommitted {s : State} {c : ChanId} (hg : s.geometryOk) (hs : (s.chan c).state ≠ .off)
    (hp : s.periodTaken c) : s.PeriodCommitted c ((s.ticking c).commitPeriod c) := by
  have hself := s.ticking_chan_self c
  obtain ⟨v, hv, hcommit⟩ := State.commitPeriod_committed (State.ticking_geometryOk hg c) (c := c)
    (by rw [hself]; exact hs) (State.ticking_periodTaken hp)
  refine ⟨?_, fun d hd => ?_, fun m => ?_, fun j m hj => ?_, fun i hi => ?_, ?_, ?_, ?_, ?_⟩
  · rw [State.commitPeriod_chan, if_pos rfl, hself]
  · rw [State.commitPeriod_chan, if_neg hd, State.ticking_chan, if_neg hd]
  · rw [hcommit]
    refine (hv.slot m).trans ?_
    rw [hself]
    rfl
  · have hnamed := hv.named j m (by rw [hself]; exact hj)
    rw [hself] at hnamed
    rw [hcommit]
    exact hnamed
  · have hothers := hv.others i (by rw [hself, hp.1]; exact hi)
    rw [hcommit]
    exact hothers
  · rw [hcommit, hv.frame]
    rfl
  · rw [hcommit, hv.frame, hself]
    rfl
  · rw [hcommit, hv.frame]
    rfl
  · exact geometryOk_kept.channel.commitPeriod _ c (State.ticking_geometryOk hg c)

/-- Settles O24: one commit of the period, and the end of the recording with cause STOP. -/
theorem stoppingChannelCommitsAndStopsAtItsTick : Obligations.StoppingChannelCommitsAndStopsAtItsTick := by
  unfold Obligations.StoppingChannelCommitsAndStopsAtItsTick
  intro s c n rest hmail hg hs hp
  have hw := State.ticking_periodCommitted hg (by simp [hs]) hp
  rw [exec_channelTick_stopping hmail hs]
  revert hw
  generalize (s.ticking c).commitPeriod c = w
  intro hw
  refine ⟨_, rfl, ?_, fun d hd => ?_, hw.slot, hw.named, hw.unnamed, ?_, ?_, ?_⟩
  · rw [State.endRecording_chan, if_pos rfl, hw.chan]
  · rw [State.endRecording_chan, if_neg hd, hw.others d hd]
  · rw [State.endRecording_evt, hw.evt, hw.chan]
    rfl
  · rw [State.endRecording_mail, hw.mail]
  · rw [State.endRecording_frame, hw.frame]

section
variable {s w : State} {c : ChanId}

theorem State.PeriodCommitted.slot_of_notMem (hw : s.PeriodCommitted c w) {m : Nat} (hm : m ∉ (s.chan c).phaseSlots) :
    w.slot m = s.slot m := by
  rw [hw.slot, if_neg hm]

theorem State.PeriodCommitted.free_eq (hw : s.PeriodCommitted c w) {m : Nat} (hm : m ∉ (s.chan c).phaseSlots) :
    w.free m = s.free m := by
  rw [State.free, hw.slot_of_notMem hm, State.free]

/-- The slots of the next period, in the words of R35. -/
theorem State.PeriodCommitted.nextSlots_eq (hw : s.PeriodCommitted c w) :
    w.nextSlots c (s.chan c).phaseSlots = (((s.chan c).circuit (s.chan c).cursor (s.chan c).len).filter (fun m =>
      decide (m ∉ (s.chan c).phaseSlots) && s.free m)).take (s.chan c).phases := by
  rw [State.nextSlots, hw.chan]
  show List.take _ (List.filter _ ((s.chan c).circuit _ _)) = _
  refine congrArg _ (List.filter_congr fun m _ => ?_)
  by_cases hm : m ∈ (s.chan c).phaseSlots
  · simp [hm]
  · rw [hw.free_eq hm]

theorem State.PeriodCommitted.tailPast_eq (hw : s.PeriodCommitted c w) {m : Nat} (hm : m ∉ (s.chan c).phaseSlots) (x : Nat) :
    w.tailPast c x m =
      if (s.slot m).state = .held ∧ x ≤ (s.slot m).rfn ∧ (s.slot m).rfn < (s.chan c).nextRfn + (s.chan c).phases ∧
          w.entry ((s.chan c).firstSlot + (s.slot m).rfn % (s.chan c).len) = { valid := true, slot := m }
      then (s.slot m).rfn + 1 else x := by
  rw [State.tailPast, hw.slot_of_notMem hm, hw.chan]

end

theorem Channel.atLimit_committed (ch : Channel) :
    ({ ch with stray := false, nextRfn := ch.nextRfn + ch.phases } : Channel).atLimit = true ↔
      4294967040 ≤ ch.nextRfn + 2 * ch.phases - 1 := by
  rw [Channel.atLimit_iff]
  show 4294967040 ≤ ch.nextRfn + ch.phases + ch.phases - 1 ↔ _
  omega

/-- Settles O25: one commit of the period; then the end of the recording at the RFN limit, or an allocation that passes over the slots
just committed. -/
theorem recordingChannelCommitsAtItsTick : Obligations.RecordingChannelCommitsAtItsTick := by
  unfold Obligations.RecordingChannelCommitsAtItsTick
  intro s c n rest hmail hg hs hp
  have hoff : (s.chan c).state ≠ .off := by simp [hs]
  have hcur := (State.phases_le_len hg hoff).2.2
  have hw := State.ticking_periodCommitted hg hoff hp
  have hlim := Channel.atLimit_committed (s.chan c)
  rw [exec_channelTick_recording hmail hs]
  revert hw
  generalize (s.ticking c).commitPeriod c = w
  intro hw
  have hpast : 4294967040 ≤ (s.chan c).nextRfn + 2 * (s.chan c).phases - 1 ∨
      (s.chan c).nextRfn + 2 * (s.chan c).phases - 1 < 4294967040 := le_or_gt _ _
  rcases hpast with hpast | hbelow
  · rw [if_pos (by rw [hw.chan]; exact hlim.2 hpast)]
    have hchan : (w.endRecording c .rfnLimit n).chan c = _ := State.endRecording_chan ..
    rw [if_pos rfl, hw.chan] at hchan
    refine ⟨_, rfl, ?_, fun d hd => ?_, fun m hm _ => ?_, hw.unnamed, fun j m hj => ⟨?_, hw.named j m hj⟩,
      fun _ => ⟨?_, ?_, ?_, ?_, ?_, ?_⟩, fun h => absurd hpast (Nat.not_le.2 h), ?_⟩
    · rw [hchan]
    · rw [State.endRecording_chan, if_neg hd, hw.others d hd]
    · exact (hw.slot m).trans (if_neg hm)
    · exact (hw.slot m).trans (if_pos (List.mem_of_getElem? hj))
    · rw [hchan]
    · rw [hchan]
    · rw [hchan]
    · rw [hchan]
    · rw [State.endRecording_evt, hw.evt, hw.chan]
      rfl
    · rw [State.endRecording_mail, hw.mail]
    · rw [State.endRecording_frame, hw.frame]
  · rw [if_neg (by rw [hw.chan, hlim]; omega)]
    obtain ⟨v, htook, halloc⟩ := State.allocate_took hw.geometry (c := c) (by rw [hw.chan]; exact hoff) (s.chan c).phaseSlots
    rw [halloc]
    refine ⟨_, rfl, ?_⟩
    have hlist := hw.nextSlots_eq
    generalize w.nextSlots c (s.chan c).phaseSlots = l at *
    have hmem (m : Nat) (hm : m ∈ l) : m ∉ (s.chan c).phaseSlots ∧ s.free m = true ∧
        (s.chan c).firstSlot ≤ m ∧ m < (s.chan c).firstSlot + (s.chan c).len := by
      rw [hlist] at hm
      obtain ⟨hcirc, hfree⟩ := List.mem_filter.1 (List.mem_of_mem_take hm)
      rw [Bool.and_eq_true, decide_eq_true_iff] at hfree
      exact ⟨hfree.1, hfree.2, (Channel.mem_circuit_len (ch := s.chan c) hcur).1 hcirc⟩
    have hlen : l.length ≤ (s.chan c).phases := by
      rw [hlist]
      exact List.length_take_le ..
    have hchan : (v.setChan c { v.chan c with phaseSlots := l }).chan c = { v.chan c with phaseSlots := l } := by simp
    have hentry (i : Nat) : v.entry i = w.entry i := (congrArg (fun x : State => x.entry i) htook.frame :)
    have hslot (m : Nat) : (v.setChan c { v.chan c with phaseSlots := l }).slot m = v.slot m := rfl
    rw [hchan]
    refine ⟨?_, fun d hd => ?_, fun m hm hml => ?_, fun i hi => (hentry i).trans (hw.unnamed i hi), fun j m hj => ⟨?_, ?_⟩,
      fun h => absurd hbelow (Nat.not_lt.2 h), fun _ => ⟨?_, hlen, fun m hm => ?_, fun hshort m ho hm hml => ?_, ?_, ?_, ?_, ?_,
        fun j m hj => ?_, ?_, ?_⟩, ?_⟩
    · rw [htook.chan, hw.chan]
    · rw [State.setChan_chan, if_neg hd, htook.others d hd, hw.others d hd]
    · exact (htook.kept m hml).trans (hw.slot_of_notMem hm)
    · have hold := List.mem_of_getElem? hj
      exact (htook.kept m fun hml => (hmem m hml).1 hold).trans ((hw.slot m).trans (if_pos hold))
    · exact (hentry _).trans (hw.named j m hj)
    · rw [htook.chan, hw.chan]
      exact hs
    · obtain ⟨hnew, hfree, hlow, hhigh⟩ := hmem m hm
      exact ⟨hnew, s.ownerOf_of_owns m c hg.2 (((s.chan c).owns_iff m).2 ⟨hoff, hlow, hhigh⟩), of_decide_eq_true hfree⟩
    · by_contra hcan
      rw [not_or, not_or, not_not, not_not] at hcan
      obtain ⟨_, hlow, hhigh⟩ := ((s.chan c).owns_iff m).1 (s.owns_of_ownerOf m c ho)
      have hcirc := (Channel.mem_circuit_len hcur).2 ⟨hlow, hhigh⟩
      rw [hlist, List.length_take] at hshort
      rw [hlist, List.take_of_length_le (by omega), List.mem_filter] at hml
      exact hml ⟨hcirc, by rw [decide_eq_true hm, Bool.true_and]; exact decide_eq_true hcan⟩
    · rw [hlist]
      simp only [State.free, ← Bool.decide_and]
      rfl
    · have hcursor := htook.cursor_eq.1
      rw [hw.chan] at hcursor
      exact hcursor
    · have hcursor := htook.cursor_eq.2
      rw [hw.chan] at hcursor
      exact hcursor
    · rw [htook.chan, hw.chan]
      refine List.foldl_ext _ _ _ fun x m hm => ?_
      simp only [hw.tailPast_eq (hmem m hm).1, State.setChan_entry, hentry]
    · rw [hslot, htook.took_period (by rw [hw.chan]; exact hlen) hj, hw.chan]
    · have hevt : v.evt = w.evt := (congrArg State.evt htook.frame :)
      exact hevt.trans hw.evt
    · have hmail : v.mail = w.mail := (congrArg State.mail htook.frame :)
      exact hmail.trans hw.mail
    · rw [htook.frame, hw.frame]
      rfl

end Sys2Proof.Machine
end

section
/-! PROOFS. HeadCommands.lean: HEAD_SOURCE, HEAD_RATE and HEAD_GOTO (R43, R45 to R50). -/

namespace Sys2Proof.Machine

section
variable {s : State} {r : CmdArgs} {h : HeadId}

/-! ## HEAD_SOURCE at its head -/

theorem chanArg_of {w : Word} {c : ChanId} (hc : w.toNat = c.val) : chanArg w = some c := by
  have hlt : w.toNat < 8 := by omega
  rw [chanArg, dif_pos hlt]
  exact congrArg some (Fin.ext hc)

theorem chanArg_none {w : Word} (hw : 7 < w.toNat) : chanArg w = none := dif_neg (by omega)

/-- The start frame of a LIVE source (R46). -/
def Channel.startAt (ch : Channel) (mode r : Nat) : Nat :=
  if ch.nextRfn = ch.tail then ch.tail
  else match mode with
    | 0 => ch.nextRfn - 1
    | 1 => ch.tail
    | _ => clampNat ch.tail (ch.nextRfn - 1) r

/-- The state after a head takes a source, its old attachment detached (R45, R59). -/
def State.sourced (s : State) (h : HeadId) (x : Head) : State := ({ s with mail := s.mailDetached h } : State).setHead h x

theorem sourceLive_eq (s : State) (h : HeadId) (c : ChanId) (mode q : Nat) : sourceLive s h c mode q =
    (s.sourced h { (s.head h).cleared with src := .live c, pos := (s.chan c).startAt mode q * 256 },
      doneOrClamped (mode = 2 ∧ (s.chan c).startAt mode q ≠ q) (BitVec.ofNat 32 ((s.chan c).startAt mode q))) := by
  have heq : sourceLive s h c mode q =
      ((s.detachHead h).setHead h { (s.head h).cleared with src := .live c, pos := (s.chan c).startAt mode q * 256 },
        .fitted (decide (mode = 2) && decide ((s.chan c).startAt mode q ≠ q))
          (BitVec.ofNat 32 ((s.chan c).startAt mode q))) := rfl
  rw [heq, State.detachHead_frame, ← Bool.decide_and, CmdResult.fitted_eq_doneOrClamped]
  rfl

theorem headSource_live (ht : targetHead r = some h) (ha : s.mem.active = true) (hr : r.a = 1) {c : ChanId}
    (hc : r.b.toNat = c.val) (hm : r.c.toNat ≤ 2) (hs : (s.chan c).state ≠ .off) {p : Nat}
    (hp : p = (s.chan c).startAt r.c.toNat r.d.toNat) :
    headSource r s = (s.sourced h { (s.head h).cleared with src := .live c, pos := p * 256 },
      doneOrClamped (r.c = 2 ∧ p ≠ r.d.toNat) (BitVec.ofNat 32 p)) := by
  have hmode : r.c.toNat = 2 ↔ r.c = 2 := ⟨fun h => BitVec.eq_of_toNat_eq h, fun h => by rw [h]; rfl⟩
  subst hp
  simp only [headSource, ht, ha, hr, chanArg_of hc, Bool.not_true, Bool.false_eq_true, if_false, if_neg (Nat.not_lt.2 hm), if_neg hs]
  refine (sourceLive_eq ..).trans ?_
  simp only [hmode]

theorem headSource_clip (ht : targetHead r = some h) (ha : s.mem.active = true) (hr : r.a = 2) {k : Nat} (hk : r.b.toNat = k)
    (hk' : k < 256) {e : EndMode} (he : r.c = 0 ∧ e = .stop ∨ r.c = 1 ∧ e = .loop) (hs : (s.clip k).state ≠ .free) :
    headSource r s = (s.sourced h { (s.head h).cleared with src := .clip k, endMode := e, pos := (s.clip k).inF * 256 },
      .done (BitVec.ofNat 32 (s.clip k).inF)) := by
  have hmode : (if r.c.toNat = 0 then EndMode.stop else .loop) = e ∧ ¬1 < r.c.toNat := by
    obtain ⟨hc, rfl⟩ | ⟨hc, rfl⟩ := he <;> simp [hc]
  have hbad : ¬(Config.clipCount ≤ r.b.toNat ∨ 1 < r.c.toNat) := by
    rw [not_or, hk]
    exact ⟨Nat.not_le.2 hk', hmode.2⟩
  subst hk
  simp only [headSource, ht, ha, hr, Bool.not_true, Bool.false_eq_true, if_false, if_neg hbad, if_neg hs, hmode.1]
  simp only [sourceClip, State.detachHead_frame]
  rfl

theorem headSource_idle (ht : targetHead r = some h) (ha : s.mem.active = true) (hr : r.a = 0) :
    headSource r s = ((s.unpinIf (s.head h).trailing).sourced h
      { (s.head h).cleared with src := .idle, shown := none, trailing := (s.head h).shown.map (·.slot) }, .done 0) := by
  simp only [headSource, ht, ha, hr, Bool.not_true, Bool.false_eq_true, if_false]
  simp only [sourceIdle, State.detachHead_frame]
  rfl

theorem State.unpinIf_taken (s : State) (k : Nat) (b : Byte) (r : CmdArgs) (o : Option Nat) : (s.taken k b r).unpinIf o =
    { s.unpinIf o with proc := (s.taken k b r).proc, mem := s.mem.leave k } := by
  cases o with
  | none => rfl
  | some n =>
    obtain ⟨hp, h⟩ | ⟨hp, h⟩ := s.unpin_cases n
    · obtain ⟨_, h'⟩ | ⟨hp', _⟩ := (s.taken k b r).unpin_cases n
      · rw [State.unpinIf, State.unpinIf, h, h']
        rfl
      · exact absurd hp' (Nat.pos_iff_ne_zero.1 hp)
    · obtain ⟨hp', _⟩ | ⟨_, h'⟩ := (s.taken k b r).unpin_cases n
      · exact absurd hp (Nat.pos_iff_ne_zero.1 hp')
      · rw [State.unpinIf, State.unpinIf, h, h']
        rfl

end

section
variable {ch : Channel} (hne : ch.nextRfn ≠ ch.tail) (q : Nat)
include hne

theorem Channel.startAt_zero : ch.startAt 0 q = ch.nextRfn - 1 := if_neg hne
theorem Channel.startAt_one : ch.startAt 1 q = ch.tail := if_neg hne
theorem Channel.startAt_two : ch.startAt 2 q = clampNat ch.tail (ch.nextRfn - 1) q := if_neg hne

end

theorem State.sourced_head (s : State) (h g : HeadId) (x : Head) :
    (s.sourced h x).head g = if g = h then x else s.head g := State.setHead_head ..

/-- Settles O26: the three sources set the head's record and hand a detach; IDLE releases the trailing pin as well. -/
theorem headSourceSetsSourceAndPosition : Obligations.HeadSourceSetsSourceAndPosition := by
  unfold Obligations.HeadSourceSetsSourceAndPosition
  intro s r h hawaits htarget hact
  have ht := targetHead_of r h htarget
  have hact' (k : Nat) : (s.taken k 0x09 r).mem.active = true := by simpa using hact
  refine ⟨fun c ha hb hc hs hle => ?_, fun k e ha hb hk he hs => ?_, fun ha => ?_⟩
  · have hans := State.carryOut_answered_beside (own := headSource r) (kind := 0x09) (r := r) hawaits
      (s.sourced h { (s.head h).cleared with src := .live c, pos := (s.chan c).startAt r.c.toNat r.d.toNat * 256 })
      (doneOrClamped (r.c = 2 ∧ (s.chan c).startAt r.c.toNat r.d.toNat ≠ r.d.toNat)
        (BitVec.ofNat 32 ((s.chan c).startAt r.c.toNat r.d.toNat)))
      (fun k => headSource_live (s := s.taken k 0x09 r) ht (hact' k) ha hb hc hs rfl) rfl rfl
    refine ⟨_, (s.chan c).startAt r.c.toNat r.d.toNat, rfl, fun he => if_pos he, fun hne hm => ?_, fun hne hm => ?_,
      fun hne hm => ?_, hans.ended, ?_, fun g hg => ?_, ?_⟩
    · rw [hm]
      exact Channel.startAt_zero hne _
    · rw [hm]
      exact Channel.startAt_one hne _
    · rw [hm]
      refine Eq.subst (Channel.startAt_two hne _).symm (fittedTo_clampNat _ _ _ ?_)
      omega
    · rw [hans.head, State.sourced_head, if_pos rfl]
    · rw [hans.head, State.sourced_head, if_neg hg]
    · rw [hans.heads]
      exact hans.eq
  · have hans := State.carryOut_answered_beside (own := headSource r) (kind := 0x09) (r := r) hawaits
      (s.sourced h { (s.head h).cleared with src := .clip k, endMode := e, pos := (s.clip k).inF * 256 })
      (.done (BitVec.ofNat 32 (s.clip k).inF))
      (fun j => headSource_clip (s := s.taken j 0x09 r) ht (hact' j) ha hb hk he hs) rfl rfl
    refine ⟨_, rfl, hans.ended, ?_, fun g hg => ?_, ?_⟩
    · rw [hans.head, State.sourced_head, if_pos rfl]
    · rw [hans.head, State.sourced_head, if_neg hg]
    · rw [hans.heads]
      exact hans.eq
  · have hans := State.carryOut_answered_beside (own := headSource r) (kind := 0x09) (r := r) hawaits
      ((s.unpinIf (s.head h).trailing).sourced h
        { (s.head h).cleared with src := .idle, shown := none, trailing := (s.head h).shown.map (·.slot) })
      (.done 0)
      (fun k => (headSource_idle (s := s.taken k 0x09 r) ht (hact' k) ha).trans (by
        rw [State.taken_head, State.unpinIf_taken]
        rfl)) (by rw [State.unpinIf_frame]; rfl) (by rw [State.unpinIf_frame]; rfl)
    refine ⟨_, rfl, hans.ended, ?_, fun g hg => ?_, fun n => ?_, ?_⟩
    · rw [hans.head, State.sourced_head, if_pos rfl]
    · rw [hans.head, State.sourced_head, if_neg hg, State.unpinIf_head]
    · rw [hans.slot]
      exact s.unpinIf_slot _ n
    · rw [hans.heads, hans.slots]
      refine hans.eq.trans ?_
      rw [State.unpinIf_frame]
      rfl

/-! ## HEAD_RATE and HEAD_GOTO -/

/-- Settles O27: each sets the head's record alone. -/
theorem headRateAndGotoTakeTheHead : Obligations.HeadRateAndGotoTakeTheHead := by
  unfold Obligations.HeadRateAndGotoTakeTheHead
  intro s r h hawaits htarget hact hs
  have ht := targetHead_of r h htarget
  refine ⟨?_, fun ha => ?_⟩
  · have hans := State.carryOut_answered_beside (own := headRate r) (kind := 0x0A) (r := r) hawaits
      (s.setHead h { s.head h with
        target := clampInt (-2048) 2048 r.a.toInt, slew := clampNat 1 2048 r.b.toNat, owner := .command })
      (doneOrClamped (clampInt (-2048) 2048 r.a.toInt ≠ r.a.toInt ∨ clampNat 1 2048 r.b.toNat ≠ r.b.toNat)
        (BitVec.ofInt 32 (clampInt (-2048) 2048 r.a.toInt)))
      (fun k => by
        simp only [headRate, ht, State.taken_mem, MemPath.leave_active, hact, State.taken_head, hs, Bool.not_true,
          Bool.false_eq_true, if_false, ← Bool.decide_or, CmdResult.fitted_eq_doneOrClamped]
        rfl) rfl rfl
    refine ⟨_, _, _, rfl, fittedRate_clampInt 2048 _ (by decide), fittedTo_clampNat 1 2048 _ (by decide), hans.ended, ?_,
      fun g hg => ?_, ?_⟩
    · rw [hans.head]
      simp
    · rw [hans.head]
      simp [hg]
    · rw [hans.heads]
      exact hans.eq
  · have hans := State.carryOut_answered_beside (own := headGoto r) (kind := 0x0B) (r := r) hawaits
      (s.setHead h { s.head h with goto := some r.a.toNat, owner := .command }) (.done 0)
      (fun k => by
        have hlim : ¬Config.rfnLimit ≤ r.a.toNat := by
          rw [Config.rfnLimit]
          omega
        simp only [headGoto, ht, State.taken_mem, MemPath.leave_active, hact, State.taken_head, hs, Bool.not_true,
          Bool.false_eq_true, if_false, if_neg hlim]
        rfl) rfl rfl
    refine ⟨_, rfl, hans.ended, ?_, fun g hg => ?_, ?_⟩
    · rw [hans.head]
      simp
    · rw [hans.head]
      simp [hg]
    · rw [hans.heads]
      exact hans.eq

/-! ## Refusals -/

theorem headSource_badArg {s : State} {r : CmdArgs} {h : HeadId} (ht : targetHead r = some h) (ha : s.mem.active = true)
    (hr : 2 < r.a.toNat ∨ (r.a = 1 ∧ (7 < r.b.toNat ∨ 2 < r.c.toNat)) ∨ (r.a = 2 ∧ (255 < r.b.toNat ∨ 1 < r.c.toNat))) :
    headSource r s = (s, .refused .badArg) := by
  simp only [headSource, ht, ha, Bool.not_true, Bool.false_eq_true, if_false]
  obtain hbig | ⟨h1, hb⟩ | ⟨h2, hb⟩ := hr
  · split
    · omega
    · omega
    · omega
    · rfl
  · simp only [h1]
    cases hc : chanArg r.b with
    | none => rfl
    | some c =>
      obtain hb | hb := hb
      · rw [chanArg_none hb] at hc
        cases hc
      · exact if_pos hb
  · simp only [h2]
    exact if_pos (hb.imp_left id)

/-- Settles O28: each refusal is met before anything is changed. -/
theorem headCommandsAreRefusedInOrder : Obligations.HeadCommandsAreRefusedInOrder := by
  unfold Obligations.HeadCommandsAreRefusedInOrder
  intro s r hawaits
  refine ⟨fun i kind hi => ⟨fun hbad => ?_, fun hgood hidle => ?_⟩, fun h htarget hact => ?_⟩
  · have ht := targetHead_none r hbad
    obtain ⟨rfl, rfl⟩ | ⟨rfl, rfl⟩ | ⟨rfl, rfl⟩ := hi
    · exact ⟨_, rfl, State.carryOut_refused hawaits fun k => by simp only [headSource, ht]⟩
    · exact ⟨_, rfl, State.carryOut_refused hawaits fun k => by simp only [headRate, ht]⟩
    · exact ⟨_, rfl, State.carryOut_refused hawaits fun k => by simp only [headGoto, ht]⟩
  · have ht := targetHead_of r ⟨r.target.toNat, by omega⟩ rfl
    obtain ⟨rfl, rfl⟩ | ⟨rfl, rfl⟩ | ⟨rfl, rfl⟩ := hi
    · exact ⟨_, rfl, State.carryOut_refused hawaits fun k => by simp [headSource, ht, hidle]⟩
    · exact ⟨_, rfl, State.carryOut_refused hawaits fun k => by simp [headRate, ht, hidle]⟩
    · exact ⟨_, rfl, State.carryOut_refused hawaits fun k => by simp [headGoto, ht, hidle]⟩
  · have ht := targetHead_of r h htarget
    have hact' (k : Nat) (b : Byte) : (s.taken k b r).mem.active = true := by simpa using hact
    refine ⟨fun hr => ?_, fun c ha hb hc hs => ?_, fun ha hb hc hs => ?_, fun ha => ?_, fun hs => ⟨?_, fun ha => ?_⟩⟩
    · exact ⟨_, rfl, State.carryOut_refused hawaits fun k => headSource_badArg ht (hact' k _) hr⟩
    · exact ⟨_, rfl, State.carryOut_refused hawaits fun k => by
        simp [headSource, ht, hact, ha, chanArg_of hb, Nat.not_lt.2 hc, hs]⟩
    · exact ⟨_, rfl, State.carryOut_refused hawaits fun k => by
        have hbad : ¬(Config.clipCount ≤ r.b.toNat ∨ 1 < r.c.toNat) := by
          rw [Config.clipCount]
          omega
        simp [headSource, ht, hact, ha, hbad, hs]⟩
    · exact ⟨_, rfl, State.carryOut_refused hawaits fun k => by
        have hlim : Config.rfnLimit ≤ r.a.toNat := ha
        simp [headGoto, ht, hact, hlim]⟩
    · exact ⟨_, rfl, State.carryOut_refused hawaits fun k => by simp [headRate, ht, hact, hs]⟩
    · exact ⟨_, rfl, State.carryOut_refused hawaits fun k => by
        have hlim : ¬Config.rfnLimit ≤ r.a.toNat := by
          rw [Config.rfnLimit]
          omega
        simp [headGoto, ht, hact, hlim, hs]⟩

end Sys2Proof.Machine
end

section
/-! PROOFS. IdleTick.lean: an event with one operation woven with others, and the tick of an IDLE head (R54). -/

namespace Sys2Proof.Machine

/-! ## Weaving with no event in progress -/

theorem begin_once_nil (s : State) (b : List Agent) (f : State → State) : begin (s, []) (.once b f) = (f s, []) := by
  have hfree : b.any (busyAt []) = false := by simp [busyAt]
  simp [begin, hfree]

/-- An event ends with its first operation, and nothing is in progress. -/
theorem begin_steps_done {s : State} {a : Agent} {b : List Agent} {f : State → State} {next : State → Prog Unit}
    (h : next s = .done ()) : begin (s, []) (.steps a (.op b f next)) = (f s, []) := by
  have hfree : b.any (busyAt []) = false := by simp [busyAt]
  simp [begin, threadOf, goOnce, hfree, h]

/-! ## The port of a head (R130, R138) -/

theorem State.boundPort_eq (s : State) (h : HeadId) : s.boundPort h =
    if (s.port 0).binding = some h then some 0 else if (s.port 1).binding = some h then some 1 else none := by
  simp only [State.boundPort, allPorts, List.find?_cons, List.find?_nil]
  split_ifs <;> simp_all

theorem State.clearJog_port (s : State) (h : HeadId) (p : PortId) : (s.clearJog h).port p =
    if (s.port p).binding = some h ∧ (p = 0 ∨ (s.port 0).binding ≠ some h) then { s.port p with jog := 0 } else s.port p := by
  have hp : p = 0 ∨ p = 1 := (by decide : ∀ q : PortId, q = 0 ∨ q = 1) p
  rw [State.clearJog, State.boundPort_eq]
  by_cases h0 : (s.port 0).binding = some h
  · obtain rfl | rfl := hp <;> simp [h0]
  · by_cases h1 : (s.port 1).binding = some h
    · obtain rfl | rfl := hp <;> simp [h0, h1]
    · obtain rfl | rfl := hp <;> simp [h0, h1]

theorem State.clearJog_frame (s : State) (h : HeadId) : s.clearJog h = { s with ports := (s.clearJog h).ports } := by
  unfold State.clearJog
  split <;> rfl

/-! ## The tick of an IDLE head -/

/-- The state after the tick of an IDLE head. -/
def State.idleTicked (s : State) (h : HeadId) : State :=
  (s.setMail { s.mail with headTicks := popAt s.mail.headTicks h }).tickIdle h

theorem begin_headTick_idle {s : State} {h : HeadId} {n : Word} {rest : List Word} (hmail : s.mail.headTicks.get h = n :: rest)
    (hs : (s.head h).src = .idle) (fuel : Nat) : begin (s, []) (courseOf fuel s (.headTick h)) = (s.idleTicked h, []) := by
  have hbegin : s.beginTick h = s.idleTicked h := by
    simp only [State.beginTick, hmail, hs]
    rfl
  rw [← hbegin]
  refine begin_steps_done ?_
  simp only [hmail, hs]

theorem State.tickIdle_eq (s : State) (h : HeadId) : s.tickIdle h =
    { (s.unpinIf (s.head h).trailing).setHead h { s.head h with trailing := none } with ports := (s.clearJog h).ports } := by
  have hclear (o : Option Nat) : ({ s with ports := (s.clearJog h).ports } : State).unpinIf o =
      { s.unpinIf o with ports := (s.clearJog h).ports } := by
    cases o with
    | none => rfl
    | some n =>
      by_cases hp : (s.slot n).pins = 0
      · have hp' : (({ s with ports := (s.clearJog h).ports } : State).slot n).pins = 0 := hp
        rw [State.unpinIf, State.unpinIf, State.unpin, State.unpin, if_pos hp, if_pos hp']
      · have hp' : ¬(({ s with ports := (s.clearJog h).ports } : State).slot n).pins = 0 := hp
        rw [State.unpinIf, State.unpinIf, State.unpin, State.unpin, if_neg hp, if_neg hp']
        rfl
  rw [State.tickIdle, State.clearJog_frame, hclear]
  rfl

/-- Settles O29: the tick is one operation, so that another event in its row meets the state after it. -/
theorem idleHeadReleasesItsTrailingPin : Obligations.IdleHeadReleasesItsTrailingPin := by
  unfold Obligations.IdleHeadReleasesItsTrailingPin
  intro s h n rest hmail hs
  have hframe := State.tickIdle_eq (s.setMail { s.mail with headTicks := popAt s.mail.headTicks h }) h
  refine ⟨s.idleTicked h, ?_, fun c => ?_, ?_, fun g hg => ?_, fun m => ?_, fun p => ?_, ?_⟩
  · show weave (.headTick h) [] s = _
    rw [weave, begin_headTick_idle hmail hs, List.foldl_nil, finishAll_of_nil]
  · show weave (.headTick h) [.event (.channelTick c)] s = .next ((s.idleTicked h).channelTick c)
    rw [weave, begin_headTick_idle hmail hs, List.foldl_cons, List.foldl_nil, takeTurn]
    simp only [courseOf, onceAt, begin_once_nil]
    rw [finishAll_of_nil]
    rfl
  · rw [State.idleTicked, State.tickIdle]
    simp
  · rw [State.idleTicked, State.tickIdle, State.setHead_head, if_neg hg, State.unpinIf_head, State.clearJog_frame]
    rfl
  · rw [State.idleTicked, hframe]
    exact State.unpinIf_slot ..
  · rw [State.idleTicked, hframe]
    exact State.clearJog_port ..
  · rw [State.idleTicked, hframe, State.unpinIf_frame]
    rfl

end Sys2Proof.Machine
end

section
/-! PROOFS. Notices.lean: the notices between ports, heads and the clip manager (R52, R53, R58, R59, R114). -/

namespace Sys2Proof.Machine

section
variable {s : State}

theorem State.takeTakeover_of {p : PortId} {h : HeadId} {rest : List PortNote}
    (hmail : s.mail.portNotes.get p = .takeover h :: rest) : s.takeTakeover p =
      if (s.head h).src ≠ .idle ∧ (s.head h).owner = .command then
        ((s.setMail { s.mail with portNotes := popAt s.mail.portNotes p }).setHead h { s.head h with owner := .panel }).raise
          .panelTakeover .lever h.val p.val (BitVec.ofInt 32 (s.head h).target)
      else s.setMail { s.mail with portNotes := popAt s.mail.portNotes p } := by
  rw [State.takeTakeover, hmail]
  rfl

theorem State.takePortLost_of {p : PortId} {h : HeadId} {rest : List PortNote}
    (hmail : s.mail.portNotes.get p = .portLost h :: rest) : s.takePortLost p =
      match (s.head h).owner with
      | .panel => (s.setMail { s.mail with portNotes := popAt s.mail.portNotes p }).setHead h
          { s.head h with owner := .command, target := 0 }
      | .command => s.setMail { s.mail with portNotes := popAt s.mail.portNotes p } := by
  rw [State.takePortLost, hmail]
  rfl

theorem State.takeAttach_of {h : HeadId} {k : Nat} {src : Src} {rest : List HeadNote}
    (hmail : s.mail.toHead.get h = .attach k src :: rest) : s.takeAttach h =
      if (s.head h).src = src then
        (s.setMail { s.mail with toHead := popAt s.mail.toHead h }).setHead h { s.head h with attached := some k }
      else (s.setMail { s.mail with toHead := popAt s.mail.toHead h }).tellDetach h k := by
  rw [State.takeAttach, hmail]
  rfl

theorem State.takeHeadDetach_of {h : HeadId} {k : Nat} {rest : List HeadNote}
    (hmail : s.mail.toHead.get h = .detach k :: rest) : s.takeHeadDetach h =
      if (s.head h).attached = some k then
        (s.setMail { s.mail with toHead := popAt s.mail.toHead h }).setHead h { s.head h with attached := none }
      else s.setMail { s.mail with toHead := popAt s.mail.toHead h } := by
  rw [State.takeHeadDetach, hmail]
  rfl

theorem State.takeDetach_of {h : HeadId} {k : Nat} {rest : List Nat} (hmail : s.mail.fromHead.get h = k :: rest) :
    s.takeDetach h =
      if (s.clip k).attached = some h then
        (s.setMail { s.mail with fromHead := popAt s.mail.fromHead h }).setClip k { s.clip k with attached := none }
      else s.setMail { s.mail with fromHead := popAt s.mail.fromHead h } := by
  rw [State.takeDetach, hmail]
  rfl

end

/-- Settles O32: each notice is taken from its mailbox, and sets at most the record it names. -/
theorem noticesReachTheHeadsAndTheClips : Obligations.NoticesReachTheHeadsAndTheClips := by
  unfold Obligations.NoticesReachTheHeadsAndTheClips
  refine ⟨fun s p h rest => ⟨fun hmail => ?_, fun hmail => ?_⟩, fun s h k => ⟨fun src rest hmail => ?_, fun rest hmail => ?_,
    fun rest hmail => ?_⟩⟩
  · refine ⟨s.takeTakeover p, rfl, ?_⟩
    rw [State.takeTakeover_of hmail]
    split_ifs with hyes
    · refine ⟨fun _ _ => ⟨by simp, rfl⟩, fun hno => ?_, fun g hg => by simp [hg], rfl⟩
      obtain hno | hno := hno
      · exact absurd hno hyes.1
      · rw [hyes.2] at hno
        cases hno
    · exact ⟨fun h1 h2 => absurd ⟨h1, h2⟩ hyes, fun _ => ⟨rfl, rfl⟩, fun _ _ => rfl, rfl⟩
  · refine ⟨s.takePortLost p, rfl, ?_⟩
    rw [State.takePortLost_of hmail]
    cases howner : (s.head h).owner with
    | panel => exact ⟨fun _ => by simp, nofun, fun g hg => by simp [hg], rfl⟩
    | command => exact ⟨nofun, fun _ => rfl, fun _ _ => rfl, rfl⟩
  · refine ⟨s.takeAttach h, rfl, ?_⟩
    rw [State.takeAttach_of hmail]
    split_ifs with hsrc
    · exact ⟨fun _ => ⟨by simp, rfl⟩, fun hne => absurd hsrc hne, fun g hg => by simp [hg], rfl⟩
    · exact ⟨fun he => absurd he hsrc, fun _ => ⟨rfl, rfl⟩, fun _ _ => rfl, rfl⟩
  · refine ⟨s.takeHeadDetach h, rfl, ?_⟩
    rw [State.takeHeadDetach_of hmail]
    split_ifs with hon
    · exact ⟨by simp, fun g hg => by simp [hg], rfl⟩
    · exact ⟨rfl, fun _ _ => rfl, rfl⟩
  · refine ⟨s.takeDetach h, rfl, ?_⟩
    rw [State.takeDetach_of hmail]
    split_ifs with hon
    · exact ⟨by simp, fun j hj => by simp [hj], rfl⟩
    · exact ⟨rfl, fun _ _ => rfl, rfl⟩

end Sys2Proof.Machine
end

section
/-! PROOFS. ReferenceTiming.lean: the SYNC_IN filter, the judgement of a pulse, the flywheel timer and REF_RESTART (R117 to R126). -/

namespace Sys2Proof.Machine

section
variable {s : State}

/-! ## The filter (R117) -/

theorem State.syncEdge_fall {time : Nat} (h : s.ref.sync = true) : s.syncEdge false time =
    (s.setTime time).setRef { s.ref with sync := false, qual := some (max s.now time) } := by
  simp [State.syncEdge, h]

theorem State.syncEdge_rise_idle {time : Nat} (h : s.ref.sync = false) (hq : s.ref.qual = none) : s.syncEdge true time =
    (s.setTime time).setRef { s.ref with sync := true } := by
  simp [State.syncEdge, h, hq]

theorem State.syncEdge_rise_early {time e : Nat} (h : s.ref.sync = false) (hq : s.ref.qual = some e)
    (he : max s.now time < e + 2) : s.syncEdge true time =
      (s.setTime time).setRef { s.ref with sync := true, qual := none } := by
  simp only [State.syncEdge, h, hq, Bool.true_eq_false, if_false, State.setTime_ref]
  exact if_pos he

theorem State.syncEdge_rise_late {time e : Nat} (h : s.ref.sync = false) (hq : s.ref.qual = some e)
    (he : e + 2 ≤ max s.now time) : s.syncEdge true time =
      (s.setTime time).setRef { s.ref with sync := true, qual := none, pulses := s.ref.pulses ++ [e + 2] } := by
  simp only [State.syncEdge, h, hq, Bool.true_eq_false, if_false, State.setTime_ref]
  exact if_neg (Nat.not_lt.2 he)

end

/-- Settles O41: a fall, and a rise with no qualification, before 2 us, and later. -/
theorem syncFilterNeedsTwoMicroseconds : Obligations.SyncFilterNeedsTwoMicroseconds := by
  unfold Obligations.SyncFilterNeedsTwoMicroseconds
  intro s level time
  refine ⟨fun h => ?_, fun h => ⟨s.syncEdge level time, rfl, ?_⟩⟩
  · show Host.Outcome.next (s.syncEdge level time) = _
    rw [State.syncEdge, if_pos h]
  cases level with
  | false =>
    rw [State.syncEdge_fall (by simpa using h)]
    exact ⟨rfl, rfl, fun _ => ⟨rfl, rfl⟩, nofun, nofun, nofun, nofun, rfl⟩
  | true =>
    have hsync : s.ref.sync = false := by simpa using h
    cases hq : s.ref.qual with
    | none =>
      rw [State.syncEdge_rise_idle hsync hq]
      exact ⟨rfl, rfl, nofun, fun _ => hq, fun _ _ => rfl, nofun, nofun, rfl⟩
    | some e =>
      rcases lt_or_ge (max s.now time) (e + 2) with he | he
      · rw [State.syncEdge_rise_early hsync hq he]
        refine ⟨rfl, rfl, nofun, fun _ => rfl, nofun, fun _ _ _ _ => rfl, fun e' _ he' hlate => ?_, rfl⟩
        cases he'
        exact absurd he (Nat.not_lt.2 hlate)
      · rw [State.syncEdge_rise_late hsync hq he]
        refine ⟨rfl, rfl, nofun, fun _ => rfl, nofun, fun e' _ he' hearly => ?_, fun e' _ he' _ => ?_, rfl⟩
        · cases he'
          exact absurd hearly (Nat.not_lt.2 he)
        · cases he'
          rfl

/-! ## Pulses (R119, R120, R122, R125, R126) -/

/-- The state after the reference unit has taken a pulse at `p` with record `r` and event unit `e`, and no tick. -/
def State.pulsed (s : State) (p : Nat) (r : Ref) (e : EventUnit) : State := { s with now := max s.now p, ref := r, evt := e }

/-- The state after the reference unit has issued a tick at `p`. -/
def State.pulseTicked (s : State) (p : Nat) (r : Ref) (e : EventUnit) : State :=
  { s with
    now := max s.now p
    ref := { r with count := s.ref.count + 1 }
    evt := e
    mail := { s.mail with
      chanTicks := s.mail.chanTicks.map (fun q => q ++ [s.ref.count + 1])
      headTicks := s.mail.headTicks.map (fun q => q ++ [s.ref.count + 1]) } }

section
variable {s : State} {p : Nat} {r : Ref} {e : EventUnit}

theorem State.pulseTicked_ticks : (∀ c, (s.pulseTicked p r e).mail.chanTicks.get c = s.mail.chanTicks.get c ++ [s.ref.count + 1]) ∧
    ∀ h, (s.pulseTicked p r e).mail.headTicks.get h = s.mail.headTicks.get h ++ [s.ref.count + 1] := by
  constructor <;> intro _ <;> simp [State.pulseTicked, Vector.get] <;> rfl

variable {m : Nat} {u : State} (hu : u = (s.setTime p).setRef r)
include hu

theorem State.judge_absent_first (hs : r.state = .absent) (hm : r.measure = none) :
    u.judge p = s.pulsed p { r with measure := some p } s.evt := by
  subst hu
  simp only [State.judge, State.pulseAbsent, State.setRef_ref, hs, hm]
  rfl

theorem State.judge_absent_again (hs : r.state = .absent) (hm : r.measure = some m) (hp : p - m < 8000 ∨ 50000 < p - m) :
    u.judge p = s.pulsed p { r with measure := some p } s.evt := by
  subst hu
  have hbad : ¬(Config.minPeriod ≤ p - m ∧ p - m ≤ Config.maxPeriod) := by
    rw [Config.minPeriod, Config.maxPeriod]
    omega
  simp only [State.judge, State.pulseAbsent, State.setRef_ref, hs, hm, if_neg hbad]
  rfl

theorem State.judge_absent_locks (hc : r.count = s.ref.count) (hs : r.state = .absent) (hm : r.measure = some m)
    (h1 : 8000 ≤ p - m) (h2 : p - m ≤ 50000) :
    u.judge p = s.pulseTicked p { r with
      state := .locked, period := p - m, measure := none, lastTick := some p, timer := some (p + (p - m) + (p - m) / 8) }
      (s.evt.posted .refLocked .acquired 0 0 (BitVec.ofNat 32 (p - m)) (s.ref.count + 1)) := by
  subst hu
  have hgood : Config.minPeriod ≤ p - m ∧ p - m ≤ Config.maxPeriod := ⟨h1, h2⟩
  simp only [State.judge, State.pulseAbsent, State.setRef_ref, hs, hm, if_pos hgood]
  rw [State.pulseTicked, ← hc]
  rfl

theorem State.judge_locked_early (hc : r.count = s.ref.count) (hs : r.state = .locked)
    (hp : r.elapsed p < r.period - r.period / 8) :
    u.judge p = s.pulsed p r (s.evt.posted .refGlitch .none 0 0 (BitVec.ofNat 32 (r.elapsed p)) s.ref.count) := by
  subst hu
  have hearly : r.elapsed p < r.period - r.tolerance := hp
  simp only [State.judge, State.pulseLocked, State.setRef_ref, hs, if_pos hearly, State.glitch]
  rw [State.pulsed, ← hc]
  rfl

theorem State.judge_locked_tick (hc : r.count = s.ref.count) (hs : r.state = .locked)
    (hp : r.period - r.period / 8 ≤ r.elapsed p) :
    u.judge p = s.pulseTicked p { r with lastTick := some p, timer := some (p + r.period + r.period / 8) } s.evt := by
  subst hu
  have htick : ¬r.elapsed p < r.period - r.tolerance := Nat.not_lt.2 hp
  simp only [State.judge, State.pulseLocked, State.setRef_ref, hs, if_neg htick]
  rw [State.pulseTicked, ← hc]
  rfl

theorem State.judge_flywheel_early (hc : r.count = s.ref.count) (hs : r.state = .flywheel)
    (hp : r.elapsed p < r.period / 2) :
    u.judge p = s.pulsed p r (s.evt.posted .refGlitch .none 0 0 (BitVec.ofNat 32 (r.elapsed p)) s.ref.count) := by
  subst hu
  have hearly : r.elapsed p < r.half := hp
  simp only [State.judge, State.setRef_ref, hs]
  rw [State.pulseFlywheel, if_pos (by exact hearly)]
  rw [State.pulsed, ← hc]
  rfl

theorem State.judge_flywheel_tick (hc : r.count = s.ref.count) (hs : r.state = .flywheel)
    (hp : r.period / 2 ≤ r.elapsed p) :
    u.judge p = s.pulseTicked p { r with state := .locked, lastTick := some p, timer := some (p + r.period + r.period / 8) }
      (s.evt.posted .refLocked .realigned 0 0 (BitVec.ofNat 32 r.period) (s.ref.count + 1)) := by
  subst hu
  have htick : ¬r.elapsed p < r.half := Nat.not_lt.2 hp
  simp only [State.judge, State.setRef_ref, hs]
  rw [State.pulseFlywheel, if_neg (by exact htick)]
  rw [State.pulseTicked, ← hc]
  rfl

end

/-- The record of the reference unit once the pulse at `p` is out of it: `ps` wait still, `q` is the qualification in progress. -/
theorem State.syncPulse_eq {s : State} {p : Nat} {ps : List Nat} {q : Option Nat}
    (hp : (s.ref.pulses = p :: ps ∧ q = s.ref.qual) ∨
      (∃ e, s.ref.pulses = [] ∧ s.ref.qual = some e ∧ p = e + 2 ∧ ps = [] ∧ q = none))
    (ht : ∀ d, s.ref.timer = some d → p ≤ d) :
    s.syncPulse = ((s.setTime p).setRef { s.ref with pulses := ps, qual := q }).judge p := by
  have hnext : s.ref.nextPulse = some p ∧ s.ref.dropPulse = { s.ref with pulses := ps, qual := q } := by
    obtain ⟨h1, rfl⟩ | ⟨e, h1, h2, rfl, rfl, rfl⟩ := hp
    · simp [Ref.nextPulse, Ref.dropPulse, h1]
    · simp [Ref.nextPulse, Ref.dropPulse, h1, h2, Config.syncHold]
  have htimer : s.ref.timer.any (fun d => decide (d < p)) = false := by
    cases hd : s.ref.timer with
    | none => rfl
    | some d =>
      have := ht d hd
      simp only [Option.any_some, decide_eq_false_iff_not]
      omega
  rw [State.syncPulse, hnext.1]
  simp only [htimer, Bool.false_eq_true, if_false]
  rw [hnext.2]

/-- A pulse out of the filter is not taken again (R117). -/
theorem no_further_pulse {t : State} (hp : t.ref.pulses = []) (hq : t.ref.qual = none) :
    exec .syncPulse t = .next t ∧ ∀ time, ∃ v, exec (.syncInEdge true time) t = .next v ∧ v.ref.pulses = [] := by
  refine ⟨?_, fun time => ⟨t.syncEdge true time, rfl, ?_⟩⟩
  · show Host.Outcome.next t.syncPulse = _
    simp [State.syncPulse, Ref.nextPulse, hp, hq]
  · cases hs : t.ref.sync with
    | true =>
      rw [State.syncEdge, if_pos hs.symm]
      exact hp
    | false =>
      rw [State.syncEdge_rise_idle hs hq]
      exact hp

/-- What a taken pulse leaves in every case. -/
structure State.PulseTaken (s t : State) (p : Nat) (ps : List Nat) (q : Option Nat) : Prop where
  now : t.now = max s.now p
  pulses : t.ref.pulses = ps
  qual : t.ref.qual = q
  sync : t.ref.sync = s.ref.sync
  ticks : t.ref.count ≠ s.ref.count →
    (∀ c, t.mail.chanTicks.get c = s.mail.chanTicks.get c ++ [s.ref.count + 1]) ∧
    (∀ h, t.mail.headTicks.get h = s.mail.headTicks.get h ++ [s.ref.count + 1])
  frame : t = { s with now := t.now, ref := t.ref, evt := t.evt,
                       mail := { s.mail with chanTicks := t.mail.chanTicks, headTicks := t.mail.headTicks } }

section
variable {s : State} {p : Nat} {ps : List Nat} {q : Option Nat} {r : Ref} {e : EventUnit} (hps : r.pulses = ps) (hq : r.qual = q)
  (hs : r.sync = s.ref.sync)
include hps hq hs

theorem State.pulsed_taken (hc : r.count = s.ref.count) : s.PulseTaken (s.pulsed p r e) p ps q :=
  ⟨rfl, hps, hq, hs, fun h => absurd hc h, rfl⟩

theorem State.pulseTicked_taken : s.PulseTaken (s.pulseTicked p r e) p ps q :=
  ⟨rfl, hps, hq, hs, fun _ => State.pulseTicked_ticks, rfl⟩

end

/-- Settles O42: the pulse is judged by the state and the time since the last tick, case by case. -/
theorem pulsesAreJudgedByStateAndElapsedTime : Obligations.PulsesAreJudgedByStateAndElapsedTime := by
  unfold Obligations.PulsesAreJudgedByStateAndElapsedTime
  intro s p ps q hp ht
  have hexec : exec .syncPulse s = .next (((s.setTime p).setRef { s.ref with pulses := ps, qual := q }).judge p) :=
    congrArg Host.Outcome.next (State.syncPulse_eq hp ht)
  have hlow : s.ref.pulses = [] → ps = [] ∧ q = none := by
    intro h
    obtain ⟨h1, _⟩ | ⟨_, _, _, _, h1, h2⟩ := hp
    · rw [h] at h1
      cases h1
    · exact ⟨h1, h2⟩
  have hgo (t : State) (htaken : s.PulseTaken t p ps q) (hempty : s.ref.pulses = []) :=
    no_further_pulse (htaken.pulses.trans (hlow hempty).1) (htaken.qual.trans (hlow hempty).2)
  rw [hexec]
  clear hexec
  generalize hr : ({ s.ref with pulses := ps, qual := q } : Ref) = r at *
  have hpulses : r.pulses = ps := by rw [← hr]
  have hqual : r.qual = q := by rw [← hr]
  have hsync : r.sync = s.ref.sync := by rw [← hr]
  have hcount : r.count = s.ref.count := by rw [← hr]
  have hstate : r.state = s.ref.state := by rw [← hr]
  have hmeasure : r.measure = s.ref.measure := by rw [← hr]
  have hlast : r.lastTick = s.ref.lastTick := by rw [← hr]
  have hperiod : r.period = s.ref.period := by rw [← hr]
  have hsilent (x : Ref) (e : EventUnit) (h1 : x.pulses = ps) (h2 : x.qual = q) (h3 : x.sync = s.ref.sync)
      (h4 : x.count = s.ref.count) := State.pulsed_taken (s := s) (p := p) (e := e) h1 h2 h3 h4
  have hticked (x : Ref) (e : EventUnit) (h1 : x.pulses = ps) (h2 : x.qual = q) (h3 : x.sync = s.ref.sync) :=
    State.pulseTicked_taken (s := s) (p := p) (e := e) h1 h2 h3
  cases hs : s.ref.state with
  | absent =>
    rw [hs] at hstate
    cases hm : s.ref.measure with
    | none =>
      rw [State.judge_absent_first rfl hstate (hmeasure.trans hm)]
      have htaken := hsilent { r with measure := some p } s.evt hpulses hqual hsync hcount
      exact ⟨_, rfl, htaken.now, htaken.pulses, htaken.qual, htaken.sync, hgo _ htaken,
        fun _ _ => ⟨by rw [State.pulsed, ← hr], rfl, rfl⟩, nofun, nofun, nofun, nofun, nofun, nofun, htaken.ticks, htaken.frame⟩
    | some m =>
      rcases (by omega : (p - m < 8000 ∨ 50000 < p - m) ∨ (8000 ≤ p - m ∧ p - m ≤ 50000)) with hbad | ⟨h1, h2⟩
      · rw [State.judge_absent_again rfl hstate (hmeasure.trans hm) hbad]
        have htaken := hsilent { r with measure := some p } s.evt hpulses hqual hsync hcount
        refine ⟨_, rfl, htaken.now, htaken.pulses, htaken.qual, htaken.sync, hgo _ htaken,
          nofun, fun _ _ he _ => ?_, fun _ _ he h1 h2 => ?_, nofun, nofun, nofun, nofun, htaken.ticks, htaken.frame⟩
        · exact ⟨by rw [State.pulsed, ← hr], rfl, rfl⟩
        · cases he
          omega
      · rw [State.judge_absent_locks rfl hcount hstate (hmeasure.trans hm) h1 h2]
        have htaken := hticked { r with
          state := .locked, period := p - m, measure := none, lastTick := some p, timer := some (p + (p - m) + (p - m) / 8) }
          (s.evt.posted .refLocked .acquired 0 0 (BitVec.ofNat 32 (p - m)) (s.ref.count + 1)) hpulses hqual hsync
        refine ⟨_, rfl, htaken.now, htaken.pulses, htaken.qual, htaken.sync, hgo _ htaken,
          nofun, fun _ _ he hbad => ?_, fun _ _ he _ _ => ?_, nofun, nofun, nofun, nofun, htaken.ticks, htaken.frame⟩
        · cases he
          omega
        · cases he
          exact ⟨by rw [State.pulseTicked, ← hr], rfl⟩
  | locked =>
    rw [hs] at hstate
    rcases lt_or_ge (r.elapsed p) (r.period - r.period / 8) with hearly | htick
    · rw [State.judge_locked_early rfl hcount hstate hearly]
      have htaken := hsilent r (s.evt.posted .refGlitch .none 0 0 (BitVec.ofNat 32 (r.elapsed p)) s.ref.count) hpulses hqual hsync
        hcount
      refine ⟨_, rfl, htaken.now, htaken.pulses, htaken.qual, htaken.sync, hgo _ htaken,
        nofun, nofun, nofun, fun l _ hl _ => ?_, fun l _ hl h => ?_, nofun, nofun, htaken.ticks, htaken.frame⟩
      · rw [Ref.elapsed, hlast, hl]
        exact ⟨by rw [State.pulsed, ← hr], rfl, rfl⟩
      · rw [Ref.elapsed, hlast, hl, hperiod] at hearly
        exact absurd h (Nat.not_le.2 hearly)
    · rw [State.judge_locked_tick rfl hcount hstate htick]
      have htaken := hticked { r with lastTick := some p, timer := some (p + r.period + r.period / 8) } s.evt hpulses hqual hsync
      refine ⟨_, rfl, htaken.now, htaken.pulses, htaken.qual, htaken.sync, hgo _ htaken,
        nofun, nofun, nofun, fun l _ hl h => ?_, fun l _ hl _ => ?_, nofun, nofun, htaken.ticks, htaken.frame⟩
      · rw [Ref.elapsed, hlast, hl, hperiod] at htick
        exact absurd h (Nat.not_lt.2 htick)
      · exact ⟨by rw [State.pulseTicked, ← hr], rfl⟩
  | flywheel =>
    rw [hs] at hstate
    rcases lt_or_ge (r.elapsed p) (r.period / 2) with hearly | htick
    · rw [State.judge_flywheel_early rfl hcount hstate hearly]
      have htaken := hsilent r (s.evt.posted .refGlitch .none 0 0 (BitVec.ofNat 32 (r.elapsed p)) s.ref.count) hpulses hqual hsync
        hcount
      refine ⟨_, rfl, htaken.now, htaken.pulses, htaken.qual, htaken.sync, hgo _ htaken,
        nofun, nofun, nofun, nofun, nofun, fun l _ hl _ => ?_, fun l _ hl h => ?_, htaken.ticks, htaken.frame⟩
      · rw [Ref.elapsed, hlast, hl]
        exact ⟨by rw [State.pulsed, ← hr], rfl, rfl⟩
      · rw [Ref.elapsed, hlast, hl, hperiod] at hearly
        exact absurd h (Nat.not_le.2 hearly)
    · rw [State.judge_flywheel_tick rfl hcount hstate htick]
      have htaken := hticked { r with state := .locked, lastTick := some p, timer := some (p + r.period + r.period / 8) }
        (s.evt.posted .refLocked .realigned 0 0 (BitVec.ofNat 32 r.period) (s.ref.count + 1)) hpulses hqual hsync
      refine ⟨_, rfl, htaken.now, htaken.pulses, htaken.qual, htaken.sync, hgo _ htaken,
        nofun, nofun, nofun, nofun, nofun, fun l _ hl h => ?_, fun l _ hl _ => ?_, htaken.ticks, htaken.frame⟩
      · rw [Ref.elapsed, hlast, hl, hperiod] at htick
        exact absurd h (Nat.not_lt.2 htick)
      · exact ⟨by rw [State.pulseTicked, ← hr], by rw [hperiod]; rfl⟩

/-! ## The flywheel timer and REF_RESTART (R121 to R124) -/

section
variable {s : State} {d : Nat}

theorem State.flywheel_due (ht : s.ref.timer = some d) (hp : ∀ p, s.ref.nextPulse = some p → d ≤ p) :
    s.flywheel = (s.setTime d).expire d := by
  have hnone : s.ref.nextPulse.any (fun p => decide (p < d)) = false := by
    cases hn : s.ref.nextPulse with
    | none => rfl
    | some p =>
      have := hp p hn
      simp only [Option.any_some, decide_eq_false_iff_not]
      omega
  simp [State.flywheel, ht, hnone]

theorem State.expire_locked (hs : s.ref.state = .locked) : (s.setTime d).expire d =
    s.pulseTicked d { s.ref with state := .flywheel, lastTick := some d, timer := some (d + s.ref.period) }
      (s.evt.posted .refLost .none 0 0 (BitVec.ofNat 32 s.ref.period) (s.ref.count + 1)) := by
  simp only [State.expire, State.setTime_ref, hs]
  rfl

theorem State.expire_flywheel (hs : s.ref.state = .flywheel) : (s.setTime d).expire d =
    s.pulseTicked d { s.ref with lastTick := some d, timer := some (d + s.ref.period) } s.evt := by
  simp only [State.expire, State.setTime_ref, hs]
  rfl

end

/-- Settles O43: an expiry is a tick from LOCKED or in FLYWHEEL; REF_RESTART sets the record of the reference unit. -/
theorem flywheelTicksAndRestartDropsTheReference : Obligations.FlywheelTicksAndRestartDropsTheReference := by
  unfold Obligations.FlywheelTicksAndRestartDropsTheReference
  refine ⟨fun s d ht habsent hp => ?_, fun s r hawaits => ?_⟩
  · have hexec : exec .flywheelExpiry s = .next ((s.setTime d).expire d) :=
      congrArg Host.Outcome.next (State.flywheel_due ht hp)
    rw [hexec]
    cases hs : s.ref.state with
    | absent => exact absurd hs habsent
    | locked =>
      rw [State.expire_locked hs]
      exact ⟨_, rfl, rfl, rfl, fun _ => rfl, nofun, State.pulseTicked_ticks.1, State.pulseTicked_ticks.2, rfl⟩
    | flywheel =>
      rw [State.expire_flywheel hs]
      refine ⟨_, rfl, rfl, ?_, nofun, fun _ => rfl, State.pulseTicked_ticks.1, State.pulseTicked_ticks.2, rfl⟩
      rw [State.pulseTicked, hs]
  · have ha := State.carryOut_answered_beside (own := refRestart) (kind := 0x03) (r := r) hawaits
      (s.setRef { s.ref with state := .absent, period := 0, measure := none, lastTick := none, timer := none })
      (.done (BitVec.ofNat 32 s.ref.period)) (fun _ => rfl) rfl rfl
    refine ⟨_, rfl, ha.ended, ha.ref, ?_⟩
    rw [ha.ref]
    exact ha.eq

end Sys2Proof.Machine
end

section
/-! PROOFS. EnginePort.lean: bursts at the engine port, their routing and their completions (R40, R41, R146, R147, R152 to R156). -/

namespace Sys2Proof.Machine

section
variable {s : State} {b : Burst}

/-! ## Routing inside the window region (8.3) -/

theorem State.routeWindow_record (c : ChanId) {w j o : Nat} {d : Dir} (hw : w = 8 * c.val + j) (hj : j < 8) :
    s.routeWindow w o d = s.routeRecord c j o d := by
  have hdiv : w / 8 = c.val := by omega
  have hmod : w % 8 = j := by omega
  have hlt : w / 8 < 8 := by omega
  have hc : (⟨w / 8, hlt⟩ : ChanId) = c := Fin.ext hdiv
  rw [State.routeWindow, dif_pos hlt, hc, hmod]

theorem State.routeWindow_play (h : HeadId) {w o : Nat} {d : Dir} (hw : w = 64 + h.val) :
    s.routeWindow w o d = s.routePlay h o d := by
  have hlt : w - 64 < 4 := by omega
  have hh : (⟨w - 64, hlt⟩ : HeadId) = h := Fin.ext (by simp [hw])
  rw [State.routeWindow, dif_neg (by omega), dif_pos hlt, hh]

theorem State.routeWindow_unused {w o : Nat} {d : Dir} (hw : 68 ≤ w) : s.routeWindow w o d = .absorbed := by
  rw [State.routeWindow, dif_neg (by omega), dif_neg (by omega)]

theorem State.routeRecord_slot {c : ChanId} {j n o : Nat} {d : Dir} (hj : j < (s.chan c).phases)
    (hs : (s.chan c).state = .recording ∨ (s.chan c).state = .stopping) (hn : (s.chan c).phaseSlots[j]? = some n) :
    s.routeRecord c j o d = .substituted (s.mem.slotAddr n o) := by
  obtain hs | hs := hs <;> simp [State.routeRecord, hs, hj, hn]

theorem State.routeRecord_stray {c : ChanId} {j o : Nat} (hj : (s.chan c).phases ≤ j)
    (hs : (s.chan c).state = .recording ∨ (s.chan c).state = .stopping) : s.routeRecord c j o .write = .stray c j o := by
  obtain hs | hs := hs <;> simp [State.routeRecord, hs, Nat.not_lt.2 hj]

theorem State.routeRecord_absorbed {c : ChanId} {j o : Nat} {d : Dir}
    (h : ((s.chan c).state ≠ .recording ∧ (s.chan c).state ≠ .stopping) ∨
      (j < (s.chan c).phases ∧ (s.chan c).phaseSlots[j]? = none) ∨ ((s.chan c).phases ≤ j ∧ d = .read)) :
    s.routeRecord c j o d = .absorbed := by
  obtain ⟨h1, h2⟩ | ⟨hj, hn⟩ | ⟨hj, rfl⟩ := h
  · cases hs : (s.chan c).state with
    | off | ready | armed => simp [State.routeRecord, hs]
    | recording => exact absurd hs h1
    | stopping => exact absurd hs h2
  · cases hs : (s.chan c).state <;> simp [State.routeRecord, hs, hj, hn]
  · cases hs : (s.chan c).state <;> simp [State.routeRecord, hs, Nat.not_lt.2 hj]

theorem State.routePlay_read (h : HeadId) (o : Nat) : s.routePlay h o .read =
    .substituted (((s.head h).shown.map (fun d => s.mem.slotBase + d.slot * 2 ^ s.mem.stride)).getD s.mem.slate + o) := by
  cases hd : (s.head h).shown <;> simp [State.routePlay, hd, MemPath.slotAddr, MemPath.slotBytes]

/-! ## Acceptance (R146) -/

/-- A burst for which the port and the queue have room is accepted. -/
theorem exec_engineBurst_taken (hheld : s.mem.held = []) (hroom : s.mem.passQ.length < 32) :
    exec (.engineBurst b true) s = .next (s.clearOut.accept b) := by
  have h1 : s.clearOut.mem.held = [] := hheld
  have h2 : s.clearOut.mem.passQ.length < Config.passQueueSize := hroom
  show Host.Outcome.next (s.present b true) = _
  simp only [State.present, h1, h2, List.isEmpty_nil, decide_true, Bool.and_self, if_true]

theorem State.clearOut_acceptPass (a : Addr) (ws : List Watched) : s.clearOut.acceptPass b a ws = s.forwarded b a ws := by
  unfold State.acceptPass State.forwarded
  cases b.dir <;> simp [State.clearOut, State.setMem, MemPath.setOwed, MemPath.owed]

theorem dueCompletions_append_self {os : List Owed} (h : ∀ o, os.head? = some o → o.result = none) (x : Owed)
    {st : Status} {data : List Byte} (hx : x.result = some (st, data)) :
    dueCompletions (os ++ [x]) = if os = [] then ([(x, st, data)], []) else ([], os ++ [x]) := by
  cases os with
  | nil => simp [dueCompletions, hx]
  | cons o os => simp [dueCompletions, h o rfl]

/-- One of the part's own completions hands nothing on. -/
theorem State.flush_appended {t : State} {d : Dir} {os : List Owed} {x : Owed} {data : List Byte} (ht : t.mem.owed d = os ++ [x])
    (h : ∀ o, os.head? = some o → o.result = none) (hx : x.result = some (.good, data)) (hw : x.watched = []) :
    t.flush d = if os = [] then
        t.setMem { t.mem.setOwed d [] with engineOut := t.mem.engineOut ++ [{ dir := d, status := .good, data }] }
      else t.setMem (t.mem.setOwed d (os ++ [x])) := by
  rw [State.flush, ht, dueCompletions_append_self h x hx]
  split_ifs
  · simp only [List.foldl_cons, List.foldl_nil, List.map_cons, List.map_nil, State.handOnAll, hw]
  · simp only [List.foldl_nil, List.map_nil, List.append_nil]
    cases d <;> rfl

theorem State.clearOut_acceptAbsorbed (howed : ∀ o, (s.mem.owed b.dir).head? = some o → o.result = none) :
    s.clearOut.acceptAbsorbed b = s.selfCompleted b := by
  have howed' (x : List Owed) (m : MemPath) : ({ m.setOwed b.dir x with burstNo := m.burstNo + 1 } : MemPath).owed b.dir = x := by
    cases b.dir <;> rfl
  unfold State.acceptAbsorbed
  rw [State.flush_appended (howed' _ _) howed rfl rfl, State.selfCompleted, absorbedData]
  by_cases hnil : s.mem.owed b.dir = []
  · rw [if_pos hnil, if_pos hnil]
    cases hd : b.dir <;> rw [hd] at hnil <;> simp only [MemPath.owed] at hnil <;>
      simp [State.clearOut, State.setMem, MemPath.setOwed, ← hnil]
  · rw [if_neg hnil, if_neg hnil]
    cases hd : b.dir <;> rfl

/-! ## A burst by its route -/

section
variable (hheld : s.mem.held = []) (hroom : s.mem.passQ.length < 32)
include hheld hroom

theorem exec_engineBurst_pass (hr : s.route b = .pass) :
    exec (.engineBurst b true) s = .next (s.forwarded b b.addr (s.watchedOf b)) := by
  have hr' : s.clearOut.route b = .pass := hr
  rw [exec_engineBurst_taken hheld hroom, State.accept, hr', ← State.clearOut_acceptPass]
  rfl

theorem exec_engineBurst_substituted {a : Nat} (hr : s.route b = .substituted a) :
    exec (.engineBurst b true) s = .next (s.forwarded b (BitVec.ofNat 40 a) []) := by
  have hr' : s.clearOut.route b = .substituted a := hr
  rw [exec_engineBurst_taken hheld hroom, State.accept, hr', ← State.clearOut_acceptPass]

variable (howed : ∀ o, (s.mem.owed b.dir).head? = some o → o.result = none)
include howed

theorem exec_engineBurst_absorbed (hr : s.route b = .absorbed) :
    exec (.engineBurst b true) s = .next (s.selfCompleted b) := by
  have hr' : s.clearOut.route b = .absorbed := hr
  rw [exec_engineBurst_taken hheld hroom, State.accept, hr', ← State.clearOut_acceptAbsorbed howed]

theorem exec_engineBurst_stray {c : ChanId} {j o : Nat} (hr : s.route b = .stray c j o) :
    exec (.engineBurst b true) s = .next ((s.selfCompleted b).reportStray c j o) := by
  have hr' : s.clearOut.route b = .stray c j o := hr
  rw [exec_engineBurst_taken hheld hroom, State.accept, hr', ← State.clearOut_acceptAbsorbed howed]

end

theorem exec_engineBurst_heldOff {free : Bool} (h : free = false ∨ s.mem.held ≠ [] ∨ 32 ≤ s.mem.passQ.length) :
    exec (.engineBurst b free) s = .next { s with mem := { s.mem with engineOut := [], held := s.mem.held ++ [b] } } := by
  have hno : (free && s.clearOut.mem.held.isEmpty && decide (s.clearOut.mem.passQ.length < Config.passQueueSize)) = false := by
    have hq : s.clearOut.mem.passQ = s.mem.passQ := rfl
    have hh : s.clearOut.mem.held = s.mem.held := rfl
    rw [hq, hh]
    obtain rfl | h | h := h
    · rfl
    · cases hx : s.mem.held with
      | nil => exact absurd hx h
      | cons => simp
    · simp [Config.passQueueSize, Nat.not_lt.2 h]
  show Host.Outcome.next (s.present b free) = _
  simp only [State.present, hno, Bool.false_eq_true, if_false]
  rfl

end

theorem State.strayReport_of {s : State} {c : ChanId} {x : Stray} {rest : List Stray} (h : s.mail.strays.get c = x :: rest) :
    s.strayReport c =
      if (s.chan c).stray then s.setMail { s.mail with strays := popAt s.mail.strays c }
      else ((s.setMail { s.mail with strays := popAt s.mail.strays c }).setChan c { s.chan c with stray := true }).raise
        .strayWrite .none c.val x.phase (BitVec.ofNat 32 x.offset) := by
  rw [State.strayReport, h]
  rfl

/-- Settles O44: a burst is held off, or goes by its route; the route by its window. -/
theorem engineBurstsAreRoutedAtAcceptance : Obligations.EngineBurstsAreRoutedAtAcceptance := by
  unfold Obligations.EngineBurstsAreRoutedAtAcceptance
  refine ⟨fun s b => ⟨fun free h => exec_engineBurst_heldOff h, fun hheld hroom howed => ⟨fun hout => ?_,
    fun w o hact haddr ho hw => ?_⟩⟩, fun s c x rest hmail => ⟨fun hs => ?_, fun hs => ?_⟩⟩
  · exact exec_engineBurst_pass hheld hroom (s.route_outside b hout)
  · have hroute := s.route_inside b w o hact haddr ho hw
    refine ⟨fun c j n hwin hj hjp hs hn => ?_, fun h hwin hread => ?_, fun c j hwin hj hjp hwrite hs => ?_, fun hrest => ?_⟩
    · rw [State.routeWindow_record c hwin hj, State.routeRecord_slot hjp hs hn] at hroute
      exact exec_engineBurst_substituted hheld hroom hroute
    · rw [State.routeWindow_play h hwin, hread, State.routePlay_read] at hroute
      exact exec_engineBurst_substituted hheld hroom hroute
    · rw [State.routeWindow_record c hwin hj, hwrite, State.routeRecord_stray hjp hs] at hroute
      exact exec_engineBurst_stray hheld hroom howed hroute
    · refine exec_engineBurst_absorbed hheld hroom howed (hroute.trans ?_)
      obtain ⟨c, j, hwin, hj, hcase⟩ | ⟨h1, h2, hwrite⟩ | hunused := hrest
      · rw [State.routeWindow_record c hwin hj, State.routeRecord_absorbed hcase]
      · rw [State.routeWindow_play (⟨w - 64, by omega⟩ : HeadId) (by simp; omega), hwrite]
        rfl
      · exact State.routeWindow_unused hunused
  · show Host.Outcome.next (s.strayReport c) = _
    rw [State.strayReport_of hmail, if_pos hs]
    rfl
  · refine ⟨s.strayReport c, rfl, ?_⟩
    rw [State.strayReport_of hmail, if_neg (by simp [hs])]
    exact ⟨by simp [State.raise], fun d hd => by simp [State.raise, hd], rfl, rfl⟩

end Sys2Proof.Machine
end

section
/-! PROOFS. Arbiter.lean: the beats of an own write, the arbiter's choice, and the bursts held off that are accepted after it (R146,
R157 to R159). -/

namespace Sys2Proof.Machine

/-! ## What an own write carries (R157, 8.1) -/

/-- The bytes of an own write: those before it, its own, and those after it. -/
theorem getElem?_beats {low top i : Nat} {bytes : List Byte} {x : WriteByte}
    (h : (List.replicate low byteOff ++ bytes.map byteOn ++ List.replicate top byteOff)[i]? = some x) :
    (x.en = true ↔ low ≤ i ∧ i < low + bytes.length) ∧ (x.en = true → bytes[i - low]? = some x.val) := by
  rw [List.append_assoc] at h
  rcases lt_or_ge i low with hlow | hlow
  · rw [List.getElem?_append_left (by simpa using hlow), List.getElem?_replicate, if_pos hlow] at h
    cases h
    simp only [byteOff, Bool.false_eq_true, false_iff, false_implies, and_true]
    omega
  · rw [List.getElem?_append_right (by simpa using hlow), List.length_replicate] at h
    rcases lt_or_ge (i - low) bytes.length with hin | hout
    · rw [List.getElem?_append_left (by simpa using hin), List.getElem?_map] at h
      obtain ⟨v, hv, rfl⟩ := Option.map_eq_some_iff.1 h
      refine ⟨⟨fun _ => ⟨hlow, by omega⟩, fun _ => rfl⟩, fun _ => hv⟩
    · rw [List.getElem?_append_right (by simpa using hout), List.getElem?_replicate] at h
      split_ifs at h
      cases h
      simp only [byteOff, Bool.false_eq_true, false_iff, false_implies, and_true]
      omega

theorem OwnReq.write_carries (q : Requester) (a : Addr) (bytes : List Byte) (hne : bytes ≠ [])
    (hfit : a.toNat % 4096 + bytes.length ≤ 4096) : (OwnReq.write q a bytes).carries a bytes := by
  have hlen : 1 ≤ bytes.length := List.length_pos_iff.2 hne
  have haddr : (a - BitVec.ofNat 40 (a.toNat % 32)).toNat = 32 * (a.toNat / 32) := by
    have hlow : a.toNat % 32 % 2 ^ 40 = a.toNat % 32 := Nat.mod_eq_of_lt (by omega)
    rw [BitVec.toNat_sub_of_le]
    · rw [BitVec.toNat_ofNat, hlow]
      omega
    · rw [BitVec.le_def, BitVec.toNat_ofNat, hlow]
      omega
  have hbeats : a.toNat % 32 + bytes.length ≤ 32 * ((a.toNat % 32 + bytes.length + 31) / 32) := by omega
  refine ⟨rfl, haddr, ?_, ?_, ?_, ?_, fun i x hx => ?_⟩
  · show 1 ≤ (a.toNat % 32 + bytes.length + 31) / 32
    omega
  · show (a - BitVec.ofNat 40 (a.toNat % 32)).toNat % 4096 + 32 * ((a.toNat % 32 + bytes.length + 31) / 32) ≤ 4096
    rw [haddr]
    omega
  · simp only [OwnReq.write, List.length_append, List.length_replicate, List.length_map]
    omega
  · show a.toNat + bytes.length ≤ (a - BitVec.ofNat 40 (a.toNat % 32)).toNat + 32 * ((a.toNat % 32 + bytes.length + 31) / 32)
    rw [haddr]
    omega
  · have haddr' : (OwnReq.write q a bytes).addr.toNat = 32 * (a.toNat / 32) := haddr
    rw [haddr']
    obtain ⟨hen, hval⟩ := getElem?_beats hx
    refine ⟨hen.trans (by omega), fun h => ?_⟩
    rw [show 32 * (a.toNat / 32) + i - a.toNat = i - a.toNat % 32 by omega]
    exact hval h

/-! ## Acceptance beside what the port returns and what is held off -/

theorem State.handOnAll_setMem (t : State) (m : MemPath) (st : Status) (ws : List Watched) :
    (t.setMem m).handOnAll st ws = (t.handOnAll st ws).setMem m := by
  cases st with
  | good =>
    simp only [State.handOnAll, State.foldl_handOn]
    rfl
  | error => rfl

theorem foldl_handOnAll_setMem (due : List (Owed × Status × List Byte)) (t : State) (m : MemPath) :
    due.foldl (fun t x => t.handOnAll x.2.1 x.1.watched) (t.setMem m) =
      (due.foldl (fun t x => t.handOnAll x.2.1 x.1.watched) t).setMem m := by
  induction due generalizing t with
  | nil => rfl
  | cons x due ih => rw [List.foldl_cons, State.handOnAll_setMem, ih, List.foldl_cons]

/-- The state with other bursts held off, and with completions returned before those it returns. -/
def State.portBeside (s : State) (h : List Burst) (e : List EngineDone) : State :=
  s.setMem { s.mem with held := h, engineOut := e ++ s.mem.engineOut }

section
variable (s : State) (h : List Burst) (e : List EngineDone) (b : Burst)

theorem State.portBeside_owed (d : Dir) : (s.portBeside h e).mem.owed d = s.mem.owed d := by cases d <;> rfl

theorem State.acceptPass_portBeside (a : Addr) (ws : List Watched) :
    (s.portBeside h e).acceptPass b a ws = (s.acceptPass b a ws).portBeside h e := by
  unfold State.acceptPass
  rw [State.portBeside_owed]
  cases b.dir <;> rfl

theorem State.flush_portBeside (d : Dir) : (s.portBeside h e).flush d = (s.flush d).portBeside h e := by
  have hmem (due : List (Owed × Status × List Byte)) (t : State) (m : MemPath) :
      (due.foldl (fun t x => t.handOnAll x.2.1 x.1.watched) (t.setMem m)).mem = m := by
    rw [foldl_handOnAll_setMem]
    rfl
  have hset (m : MemPath) : (s.portBeside h e).setMem m = s.setMem m := rfl
  have hbeside (t : State) : t.portBeside h e = t.setMem { t.mem with held := h, engineOut := e ++ t.mem.engineOut } := rfl
  rw [hbeside (s.flush d), State.flush, State.flush, State.portBeside_owed, hset]
  dsimp only
  rw [hmem, foldl_handOnAll_setMem, foldl_handOnAll_setMem]
  cases d <;> simp only [State.setMem, MemPath.setOwed, State.portBeside, List.append_assoc]

theorem State.acceptAbsorbed_portBeside : (s.portBeside h e).acceptAbsorbed b = (s.acceptAbsorbed b).portBeside h e := by
  unfold State.acceptAbsorbed
  rw [← State.flush_portBeside, State.portBeside_owed]
  cases b.dir <;> rfl

theorem State.accept_portBeside : (s.portBeside h e).accept b = (s.accept b).portBeside h e := by
  have hroute : (s.portBeside h e).route b = s.route b := rfl
  have hwatched : (s.portBeside h e).watchedOf b = s.watchedOf b := rfl
  unfold State.accept
  rw [hroute]
  cases s.route b with
  | pass => exact State.acceptPass_portBeside ..
  | substituted a => exact State.acceptPass_portBeside ..
  | absorbed => exact State.acceptAbsorbed_portBeside ..
  | stray c j o =>
    dsimp only
    rw [State.acceptAbsorbed_portBeside]
    rfl

/-- No acceptance touches the bursts held off. -/
theorem State.accept_held : (s.accept b).mem.held = s.mem.held := by
  have hself : s.portBeside s.mem.held [] = s := rfl
  have := congrArg (fun x : State => x.mem.held) (s.accept_portBeside s.mem.held [] b)
  rw [hself] at this
  exact this

end

/-- The bursts held off are accepted as the claim says, whatever the state calls held. -/
theorem takesHeld_acceptHeld (bs : List Burst) (x u : State) (hu : u = x.setMem { x.mem with held := [] }) :
    takesHeld bs u (acceptHeld bs x) := by
  induction bs generalizing x u with
  | nil =>
    subst hu
    rfl
  | cons b bs ih =>
    refine ⟨fun hfull => ?_, fun hroom => ?_⟩
    · have hfull' : ¬x.mem.passQ.length < Config.passQueueSize := by
        subst hu
        exact Nat.not_lt.2 hfull
      rw [acceptHeld, if_neg hfull', hu]
      rfl
    · have hroom' : x.mem.passQ.length < Config.passQueueSize := by
        subst hu
        exact hroom
      have hexec := exec_engineBurst_taken (s := { u with mem := { u.mem with held := [] } }) (b := b) rfl hroom
      refine ⟨_, hexec, ?_⟩
      rw [acceptHeld, if_pos hroom']
      refine ih _ _ ?_
      have hx : x = (({ u with mem := { u.mem with held := [] } } : State).clearOut).portBeside x.mem.held x.mem.engineOut := by
        subst hu
        simp [State.clearOut, State.setMem, State.portBeside]
      have hheld := State.accept_held ({ u with mem := { u.mem with held := [] } } : State).clearOut b
      have hout : u.mem.engineOut = x.mem.engineOut := by rw [hu]; rfl
      conv_rhs => rw [hx]
      rw [State.accept_portBeside, hout]
      have hnil : ({ u with mem := { u.mem with held := [] } } : State).clearOut.mem.held = [] := rfl
      rw [hnil] at hheld
      generalize ({ u with mem := { u.mem with held := [] } } : State).clearOut.accept b = v at hheld
      simp only [State.portBeside, State.setMem, ← hheld]

/-! ## The arbiter's choice (R158, R159) -/

section
variable {m : MemPath} {k time : Nat} {r : OwnReq} {b : PassBurst} {bs : List PassBurst}

theorem MemPath.arbitrate_of_no_own (hn : m.unissued = none) : m.arbitrate time = { m.issuePass 0 with runCounter := 0 } := by
  simp only [MemPath.arbitrate, hn]

theorem MemPath.arbitrate_of_before (hk : m.unissued = some k) (hr : m.ownQ[k]? = some r) (hq : m.passQ = b :: bs)
    (h : ∃ x ∈ m.passQ, x.no < r.after ∧ (r.dir = .read → x.dir = .write)) :
    m.arbitrate time = m.issuePass m.runCounter := by
  rw [← m.any_goesBefore r, hq] at h
  simp only [MemPath.arbitrate, hk, hr, hq, h, if_true]

theorem MemPath.arbitrate_of_run (hk : m.unissued = some k) (hr : m.ownQ[k]? = some r) (hq : m.passQ = b :: bs)
    (h : ¬∃ x ∈ m.passQ, x.no < r.after ∧ (r.dir = .read → x.dir = .write)) (hc : m.runCounter < 8) :
    m.arbitrate time = m.issuePass (m.runCounter + 1) := by
  rw [← m.any_goesBefore r, hq] at h
  have hc' : m.runCounter < Config.fairness := hc
  simp only [MemPath.arbitrate, hk, hr, hq, h, hc', if_true, Bool.false_eq_true, if_false]

theorem MemPath.arbitrate_own (hk : m.unissued = some k) (hr : m.ownQ[k]? = some r)
    (h : ¬∃ x ∈ m.passQ, x.no < r.after ∧ (r.dir = .read → x.dir = .write)) (hc : m.passQ = [] ∨ 8 ≤ m.runCounter) :
    m.arbitrate time = m.issueOwn k time := by
  rw [← m.any_goesBefore r] at h
  cases hq : m.passQ with
  | nil => simp only [MemPath.arbitrate, hk, hr, hq]
  | cons b bs =>
    have hc' : ¬m.runCounter < Config.fairness := Nat.not_lt.2 (hc.resolve_left (by simp [hq]))
    rw [hq] at h
    simp only [MemPath.arbitrate, hk, hr, hq, h, hc', Bool.false_eq_true, if_false]

end

/-- With nothing held off the arbiter's choice is all there is. -/
theorem exec_storePortIssue_unheld {s : State} {time : Nat} (h : s.mem.held = []) : exec (.storePortIssue time) s =
    .next { s with now := max s.now time
                   mem := ({ s.mem with engineOut := [] } : MemPath).arbitrate (max s.now time) } := by
  show Host.Outcome.next (s.issue time) = _
  have hheld := MemPath.arbitrate_held { s.mem with engineOut := [] } (max s.now time) []
  have hself : ({ s.mem with engineOut := [], held := [] } : MemPath) = { s.mem with engineOut := [] } := by rw [← h]
  rw [hself] at hheld
  rw [s.issue_eq, h, acceptHeld, State.setMem, hheld]

/-- Settles O45: the arbiter's four cases with nothing held off, and the bursts held off after any of them. -/
theorem theArbiterIssuesByAgeAndFairness : Obligations.TheArbiterIssuesByAgeAndFairness := by
  unfold Obligations.TheArbiterIssuesByAgeAndFairness
  refine ⟨fun q a bytes hne hfit => ⟨rfl, OwnReq.write_carries q a bytes hne hfit⟩, fun s time => ⟨fun hheld => ⟨fun hnone => ?_,
    fun k r hr hi hfirst => ?_⟩, fun bs u hbs hu => ?_⟩⟩
  · have hun : ({ s.mem with engineOut := [] } : MemPath).unissued = none := MemPath.unissued_eq_none _ hnone
    rw [exec_storePortIssue_unheld hheld, MemPath.arbitrate_of_no_own hun]
    refine ⟨fun hq => ?_, fun b bs hq => ?_⟩
    · simp only [MemPath.issuePass, hq]
    · simp only [MemPath.issuePass, hq]
      rfl
  · have hun : ({ s.mem with engineOut := [] } : MemPath).unissued = some k := MemPath.unissued_eq_some _ k r hr hi hfirst
    rw [exec_storePortIssue_unheld hheld]
    refine ⟨fun b bs hq hbefore => ?_, fun hnot => ⟨fun b bs hq hc => ?_, fun hc => ?_⟩⟩
    · rw [MemPath.arbitrate_of_before hun hr hq hbefore]
      simp only [MemPath.issuePass, hq]
      rfl
    · rw [MemPath.arbitrate_of_run hun hr hq (fun ⟨x, hx, h⟩ => hnot x hx h) hc]
      simp only [MemPath.issuePass, hq]
      rfl
    · rw [MemPath.arbitrate_own hun hr (fun ⟨x, hx, h⟩ => hnot x hx h) hc]
      simp only [MemPath.issueOwn, hr]
      rfl
  · refine ⟨s.issue time, rfl, ?_⟩
    rw [s.issue_eq, hbs]
    refine takesHeld_acceptHeld bs _ u ?_
    rw [exec_storePortIssue_unheld (s := { s with mem := { s.mem with held := [] } }) rfl] at hu
    injection hu with hu
    rw [← hu]
    have hheld := MemPath.arbitrate_held { s.mem with engineOut := [] } (max s.now time) []
    simp only [State.setMem]
    rw [← hheld]

end Sys2Proof.Machine
end

section
/-! PROOFS. Completions.lean: pass completions in their order, and the watched words they hand on (R147, R156, R163). -/

namespace Sys2Proof.Machine

/-! ## Completions that are due (R147) -/

theorem dueCompletions_run {os rest : List Owed} {run : List (Owed × Status × List Byte)} (hos : os = run.map (·.1) ++ rest)
    (hrun : ∀ x ∈ run, x.1.result = some x.2) (hrest : ∀ x, rest.head? = some x → x.result = none) :
    dueCompletions os = (run, rest) := by
  induction run generalizing os with
  | nil =>
    rw [hos]
    exact dueCompletions_of_head rest hrest
  | cons x run ih =>
    have hx := hrun x List.mem_cons_self
    have htail := ih rfl fun y hy => hrun y (List.mem_cons_of_mem _ hy)
    rw [hos, List.map_cons, List.cons_append, dueCompletions, hx]
    simp only [htail]

/-- The watched words of completions that are due, handed on in turn, are those of the good ones. -/
theorem foldl_handOnAll (due : List (Owed × Status × List Byte)) (t : State) :
    due.foldl (fun t x => t.handOnAll x.2.1 x.1.watched) t =
      ((due.filter (fun x => decide (x.2.1 = .good))).flatMap (fun x => x.1.watched)).foldl State.handOn t := by
  induction due generalizing t with
  | nil => rfl
  | cons x due ih =>
    obtain ⟨o, st, data⟩ := x
    rw [List.foldl_cons, ih]
    cases st with
    | good => simp [State.handOnAll]
    | error => simp [State.handOnAll]

theorem settleOwed_of_other {no : Nat} {st : Status} {data : List Byte} {os : List Owed} (h : ∀ x ∈ os, x.no ≠ no) :
    settleOwed no st data os = os := by
  rw [settleOwed]
  exact (List.map_congr_left fun x hx => if_neg (h x hx)).trans (List.map_id _)

/-- What the port returns with a completion: data with a read alone. -/
def returnedData (d : Dir) (data : List Byte) : List Byte := if d = .read then data else []

section
variable {s : State} {k : Nat} {st : Status} {data : List Byte} {b : PassBurst}

/-- The state once the completion is noted, before the port returns what is due. -/
def State.settled (s : State) (k : Nat) (b : PassBurst) (os : List Owed) : State :=
  s.setMem { s.mem.setOwed b.dir os with passOut := s.mem.passOut.eraseIdx k, engineOut := [] }

theorem State.passComplete_of (hb : s.mem.passOut[k]? = some b) : s.passComplete k st data =
    (s.settled k b (settleOwed b.no st (returnedData b.dir data) (s.mem.owed b.dir))).flush b.dir := by
  rw [State.passComplete, hb]
  cases hd : b.dir <;> simp only [returnedData, hd, State.settled, reduceCtorEq, if_true, if_false] <;> rfl

theorem State.settled_flush {os : List Owed} {due : List (Owed × Status × List Byte)} {rest : List Owed}
    (h : dueCompletions os = (due, rest)) : (s.settled k b os).flush b.dir =
      ((due.filter (fun x => decide (x.2.1 = .good))).flatMap (fun x => x.1.watched)).foldl State.handOn
        (s.setMem { s.mem.setOwed b.dir rest with
          passOut := s.mem.passOut.eraseIdx k
          engineOut := due.map (fun x => { dir := b.dir, status := x.2.1, data := x.2.2 }) }) := by
  have howed : (s.settled k b os).mem.owed b.dir = os := by
    cases hd : b.dir <;> simp [State.settled, hd, MemPath.setOwed, MemPath.owed]
  rw [State.flush, howed, h, foldl_handOnAll]
  congr 1
  cases hd : b.dir <;> simp [State.settled, hd, State.setMem, MemPath.setOwed]

end

/-! ## Watched words (R156) -/

theorem word_take_drop (l : List Byte) (i : Nat) : word ((l.drop i).take 4) 0 = word l i := by
  have hget (j : Nat) (hj : j < 4) : ((l.drop i).take 4).getD (0 + j) 0 = l.getD (i + j) 0 := by
    rw [List.getD_eq_getElem?_getD, List.getD_eq_getElem?_getD, List.getElem?_take, if_pos (by omega), List.getElem?_drop,
      Nat.zero_add]
  simp only [word, hget 3 (by omega), hget 2 (by omega), hget 1 (by omega)]
  have h0 := hget 0 (by omega)
  simp only [Nat.add_zero] at h0
  rw [h0]

/-- Four bytes are there, and all enabled. -/
theorem full_iff (l : List WriteByte) : (decide ((l.take 4).length = 4) && (l.take 4).all (·.en)) =
    (List.range 4).all (fun j => (l[j]?).any (·.en)) := by
  match l with
  | [] => rfl
  | [a] => simp [List.range_succ]
  | [a, b] => simp [List.range_succ]
  | [a, b, c] => simp [List.range_succ]
  | a :: b :: c :: d :: l => simp [List.range_succ, Bool.and_assoc]

theorem State.watchedAt_eq (s : State) (b : Burst) (isCmd : Bool) (off : Nat) : s.watchedAt b isCmd off =
    if b.addr.toNat ≤ (s.control off).toNat ∧ (s.control off).toNat + 4 ≤ b.addr.toNat + 32 * b.beats then
      [carriedWord b isCmd ((s.control off).toNat - b.addr.toNat)] else [] := by
  unfold State.watchedAt carriedWord
  have hfull := full_iff (b.data.drop ((s.control off).toNat - b.addr.toNat))
  simp only [List.getElem?_drop] at hfull
  simp only [List.map_take, List.map_drop, word_take_drop, hfull]

/-- Settles O46: the completion is noted, and all that is due is returned in its order. -/
theorem passCompletionsReturnInOrder : Obligations.PassCompletionsReturnInOrder := by
  unfold Obligations.PassCompletionsReturnInOrder
  refine ⟨fun s k st data b o os hb howed => ⟨fun run rest ws hno hos hothers hrun hrest hws => ?_, fun hno hresult => ?_⟩,
    fun s b => ⟨fun hd => ?_, fun hd => ?_⟩⟩
  · have hexec : exec (.passBurstComplete k st data) s = .next (s.passComplete k st data) := rfl
    have hdue : dueCompletions (settleOwed b.no st (returnedData b.dir data) (o :: os)) =
        (({ o with result := some (st, returnedData b.dir data) }, st, returnedData b.dir data) :: run, rest) := by
      have hsettle : settleOwed b.no st (returnedData b.dir data) (o :: os) =
          { o with result := some (st, returnedData b.dir data) } :: os := by
        have hos' := settleOwed_of_other (st := st) (data := returnedData b.dir data) hothers
        rw [settleOwed] at hos'
        rw [settleOwed, List.map_cons, if_pos hno, hos']
      rw [hsettle, dueCompletions]
      simp only [dueCompletions_run hos hrun hrest]
    rw [hexec, State.passComplete_of hb, howed, State.settled_flush hdue, State.foldl_handOn]
    have hws' : (((({ o with result := some (st, returnedData b.dir data) }, st, returnedData b.dir data) :
        Owed × Status × List Byte) :: run).filter (fun x => decide (x.2.1 = .good))).flatMap (fun x => x.1.watched) = ws := by
      rw [hws]
      cases st <;> rfl
    rw [hws']
    rfl
  · have hexec : exec (.passBurstComplete k st data) s = .next (s.passComplete k st data) := rfl
    have hdue : dueCompletions (settleOwed b.no st (returnedData b.dir data) (o :: os)) =
        ([], o :: settleOwed b.no st (returnedData b.dir data) os) := by
      rw [settleOwed, List.map_cons, if_neg hno]
      exact dueCompletions_of_head _ fun x hx => by
        cases hx
        exact hresult
    rw [hexec, State.passComplete_of hb, howed, State.settled_flush hdue]
    rfl
  · rw [State.watchedOf, hd]
  · rw [State.watchedOf, hd]
    simp only [State.watchedAt_eq]

end Sys2Proof.Machine
end

section
/-! PROOFS. Engage.lean: ENGAGE at the window decoder (R149, R150). -/

namespace Sys2Proof.Machine

@[simp] theorem MemPath.leave_stride (m : MemPath) (k : Nat) : (m.leave k).stride = m.stride := by
  rw [MemPath.leave_frame]
  rfl

@[simp] theorem MemPath.leave_slotBase (m : MemPath) (k : Nat) : (m.leave k).slotBase = m.slotBase := by
  rw [MemPath.leave_frame]
  rfl

/-- The arguments pass step 2 (R149). -/
def EngageFits (st region base slate : Nat) : Prop :=
  20 ≤ st ∧ st ≤ 25 ∧ region % (128 * 2 ^ st) = 0 ∧ base % 2 ^ st = 0 ∧
    region + 128 * 2 ^ st ≤ 2 ^ 40 ∧ base + 16384 * 2 ^ st ≤ 2 ^ 40 ∧ slate + 2 ^ st ≤ 2 ^ 40

/-- The areas pass step 3 (R149). -/
def EngageApart (control st region base slate : Nat) : Prop :=
  (region + 128 * 2 ^ st ≤ control ∨ control + 65536 ≤ region) ∧
    (region + 128 * 2 ^ st ≤ base ∨ base + 16384 * 2 ^ st ≤ region) ∧
    (slate + 2 ^ st ≤ region ∨ region + 128 * 2 ^ st ≤ slate)

/-- The slot area stays where it is, or no channel has a loop in it (R149 step 4). -/
def State.engageKeeps (s : State) (st base : Nat) : Prop :=
  s.mem.stride = 0 ∨ (st = s.mem.stride ∧ base = s.mem.slotBase) ∨ ∀ c, (s.chan c).state = .off

theorem engageArgsBad_iff (st region base slate : Nat) :
    engageArgsBad st region base slate = true ↔ ¬ EngageFits st region base slate := by
  have hend : Config.addrEnd = 2 ^ 40 := rfl
  simp only [engageArgsBad, EngageFits, hend, Bool.or_eq_true, decide_eq_true_eq, not_and_or, Nat.not_le, or_assoc, ne_eq]

theorem overlaps_iff (a n b k : Nat) : overlaps a n b k = true ↔ ¬ (a + n ≤ b ∨ b + k ≤ a) := by
  simp only [overlaps, Bool.and_eq_true, decide_eq_true_eq]
  omega

theorem engageOverlaps_iff (control st region base slate : Nat) :
    engageOverlaps control st region base slate = true ↔ ¬ EngageApart control st region base slate := by
  have hsize : Config.controlSize = 65536 := rfl
  simp only [engageOverlaps, EngageApart, hsize, Bool.or_eq_true, overlaps_iff, not_and_or, or_assoc]

theorem any_not_off_iff (s : State) :
    allChans.any (fun c => decide ((s.chan c).state ≠ .off)) = true ↔ ¬ ∀ c, (s.chan c).state = .off := by
  simp only [List.any_eq_true, mem_allChans, true_and, decide_eq_true_eq, not_forall, ne_eq]

theorem State.engageKeeps_iff (s : State) (st base : Nat) :
    (s.mem.stride ≠ 0 ∧ (st ≠ s.mem.stride ∨ base ≠ s.mem.slotBase) ∧
      allChans.any (fun c => decide ((s.chan c).state ≠ .off))) ↔ ¬ s.engageKeeps st base := by
  rw [any_not_off_iff, State.engageKeeps]
  tauto

section
variable {s : State} {r : CmdArgs}

theorem engage_of_active (h : s.mem.active = true) : engage r s = (s, .refused .state) := by
  rw [engage, if_pos h]

theorem engage_of_badArg (h : s.mem.active = false) (hargs : ¬ EngageFits r.d.toNat (mibArg r.a) (mibArg r.b) (mibArg r.c)) :
    engage r s = (s, .refused .badArg) := by
  rw [engage, if_neg (by simp [h]), if_pos ((engageArgsBad_iff ..).2 hargs)]

theorem engage_of_overlap (h : s.mem.active = false) (hargs : EngageFits r.d.toNat (mibArg r.a) (mibArg r.b) (mibArg r.c))
    (hapart : ¬ EngageApart (controlBase s.cbsel).toNat r.d.toNat (mibArg r.a) (mibArg r.b) (mibArg r.c)) :
    engage r s = (s, .refused .overlap) := by
  rw [engage, if_neg (by simp [h]), if_neg (by rw [engageArgsBad_iff]; exact not_not.2 hargs),
    if_pos ((engageOverlaps_iff ..).2 hapart)]

theorem engage_of_moved (h : s.mem.active = false) (hargs : EngageFits r.d.toNat (mibArg r.a) (mibArg r.b) (mibArg r.c))
    (hapart : EngageApart (controlBase s.cbsel).toNat r.d.toNat (mibArg r.a) (mibArg r.b) (mibArg r.c))
    (hkept : ¬ s.engageKeeps r.d.toNat (mibArg r.b)) : engage r s = (s, .refused .state) := by
  rw [engage, if_neg (by simp [h]), if_neg (by rw [engageArgsBad_iff]; exact not_not.2 hargs),
    if_neg (by rw [engageOverlaps_iff]; exact not_not.2 hapart), if_pos ((s.engageKeeps_iff ..).2 hkept)]

theorem engage_of_taken (h : s.mem.active = false) (hargs : EngageFits r.d.toNat (mibArg r.a) (mibArg r.b) (mibArg r.c))
    (hapart : EngageApart (controlBase s.cbsel).toNat r.d.toNat (mibArg r.a) (mibArg r.b) (mibArg r.c))
    (hkept : s.engageKeeps r.d.toNat (mibArg r.b)) :
    engage r s = (s.setMem { s.mem with active := true, region := mibArg r.a, slotBase := mibArg r.b, stride := r.d.toNat,
                                        slate := mibArg r.c }, .done 0) := by
  rw [engage, if_neg (by simp [h]), if_neg (by rw [engageArgsBad_iff]; exact not_not.2 hargs),
    if_neg (by rw [engageOverlaps_iff]; exact not_not.2 hapart),
    if_neg (by rw [State.engageKeeps_iff]; exact not_not.2 hkept)]

theorem State.engageKeeps_taken {k : Nat} {kind : Byte} {st base : Nat} :
    (s.taken k kind r).engageKeeps st base ↔ s.engageKeeps st base := by
  simp only [State.engageKeeps, State.taken_mem, MemPath.leave_stride, MemPath.leave_slotBase, State.taken_chan]

theorem State.control_zero (s : State) : s.control 0 = controlBase s.cbsel := by
  simp [State.control]

end

/-- Settles O47: each check of R149 is one branch of the window decoder, met in their order. -/
theorem engageChecksInOrderAndGoesActive : Obligations.EngageChecksInOrderAndGoesActive := by
  unfold Obligations.EngageChecksInOrderAndGoesActive
  rintro s r st region base slate argsGood apart kept hs rfl rfl rfl rfl hargs hapart hkept
  have hargs' : argsGood ↔ EngageFits r.d.toNat (mibArg r.a) (mibArg r.b) (mibArg r.c) := hargs
  have hapart' : apart ↔ EngageApart (controlBase s.cbsel).toNat r.d.toNat (mibArg r.a) (mibArg r.b) (mibArg r.c) := by
    rw [hapart, s.control_zero]
    exact Iff.rfl
  have hkept' : kept ↔ s.engageKeeps r.d.toNat (mibArg r.b) := hkept
  clear hargs hapart hkept
  rw [hargs', hapart', hkept']
  have hmem : ∀ k, (s.taken k 0x01 r).mem.active = s.mem.active := fun k => MemPath.leave_active ..
  constructor
  · intro why hwhy
    refine ⟨_, rfl, State.carryOut_refused hs fun k => ?_⟩
    rcases hwhy with ⟨ha, rfl⟩ | ⟨ha, hbad, rfl⟩ | ⟨ha, hgood, hover, rfl⟩ | ⟨ha, hgood, hap, hmoved, rfl⟩
    · exact engage_of_active ((hmem k).trans ha)
    · exact engage_of_badArg ((hmem k).trans ha) hbad
    · exact engage_of_overlap ((hmem k).trans ha) hgood hover
    · exact engage_of_moved ((hmem k).trans ha) hgood hap (State.engageKeeps_taken.not.2 hmoved)
  · intro ha hgood hap hkeep
    have h := State.carryOut_answered (kind := 0x01) (r := r) (own := engage r) hs
      (s.setMem { s.mem with active := true, region := mibArg r.a, slotBase := mibArg r.b, stride := r.d.toNat,
                             slate := mibArg r.c }) (.done 0)
      (fun k => by
        rw [engage_of_taken ((hmem k).trans ha) hgood hap (State.engageKeeps_taken.2 hkeep), State.taken_mem,
          MemPath.leave_frame]
        rfl) rfl rfl
    exact ⟨_, rfl, h.ended, h.eq⟩

end Sys2Proof.Machine
end

section
/-! PROOFS. Requesters.lean: the ends of the processor's and the start-up's own requests (R160, R165 to R170, R173, R174). -/

namespace Sys2Proof.Machine

/-! ## Requests that have timed out (R160) -/

/-- A processor whose fetch was issued 1,001 us ago. -/
def lateFetch : State :=
  { State.reset with
    now := 1001
    proc := { State.reset.proc with state := .fetching }
    mem := { State.reset.mem with ownQ := [{ req := .fetch, dir := .read, addr := 0, beats := 1, issued := some 0 }] } }

theorem lateFetch_tooLate : lateFetch.tooLate .fetch 0 := ⟨rfl, _, 0, rfl, rfl, by decide⟩

/-- A row UNKNOWN_KIND that carries the kind of a command is no row: it leaves the state as it was. -/
theorem exec_unknownKind_of_command {kind : Byte} (h : isCommandKind kind = true) (r : CmdArgs) (s : State) :
    exec (.unknownKind kind r) s = .next s := by
  show execUnknownKind kind r s = _
  rw [execUnknownKind, if_pos h]

/-- Refutes O49: among the rows that bring a record is UNKNOWN_KIND with the kind of ENGAGE, which the model passes over, so that
a late fetch that completes with it does not halt the processor as the timeout does. -/
theorem not_endedRequestsAreToldToTheirRequester : ¬ Obligations.EndedRequestsAreToldToTheirRequester := by
  unfold Obligations.EndedRequestsAreToldToTheirRequester
  intro h
  obtain ⟨-, hissued, -⟩ := h lateFetch 0 _ rfl
  obtain ⟨-, hfetch, -, hlate⟩ := hissued 0 rfl
  obtain ⟨t, ht, hproc, -⟩ := hfetch rfl rfl
  have hrow := hlate lateFetch_tooLate (.unknownKind 0x01 ⟨0, 0, 0, 0, 0, 0, 0⟩) [] (.inr ⟨rfl, rfl, rfl⟩)
  rw [exec_unknownKind_of_command (by decide), ht] at hrow
  cases hrow
  cases hproc

/-! ## Start-up (R173, R174, R176) -/

theorem exec_startUpWriteComplete {s : State} {w : StartWrite} {k : Nat} (h : s.inTime (startRequester w) k) (st : Status) :
    exec (.startUpWriteComplete w st) s = .next ((s.leaveOwn k).startUpEnd w st) := by
  show execStartUpWriteComplete w st s = _
  rw [execStartUpWriteComplete, State.ownComplete_of_inTime h]

theorem State.startUpEnd_of_waiting {s : State} {w : StartWrite} {st : Status} (h : (s.startUp.ended w st).over = false) :
    s.startUpEnd w st = s.setStartUp (s.startUp.ended w st) :=
  if_neg (show ¬ (s.startUp.ended w st).over = true by simp [h])

theorem State.startUpEnd_of_over {s : State} {w : StartWrite} {st : Status} (h : (s.startUp.ended w st).over = true) :
    s.startUpEnd w st = (s.setStartUp (s.startUp.ended w st)).raiseResetDone.startUpFaults :=
  if_pos h

/-- RESET_DONE is raised as the unit's record, and its write is queued. -/
theorem State.raiseResetDone_eq (s : State) : s.raiseResetDone =
    { s with
      evt := { s.evt with resetDone := some s.resetDoneEvent, phase := .record .resetDone }
      mem := s.mem.queueOwn (.write .eventRecord (s.eventAddr s.evt.producer) (s.resetDoneEvent.bytes s.evt.seq)) } := rfl

/-- The faults of the failed start-up writes change the event unit alone. -/
theorem State.startUpFaults_eq (s : State) : s.startUpFaults =
    { s with evt := match s.startUp.cmdFail, s.startUp.evtFail with
        | false, false => s.evt
        | true, false => s.evt.posted .controlFault .timeout 0 5 0 s.ref.count
        | false, true => s.evt.posted .controlFault .timeout 0 6 0 s.ref.count
        | true, true => (s.evt.posted .controlFault .timeout 0 5 0 s.ref.count).posted .controlFault .timeout 0 6 0
            s.ref.count } := by
  unfold State.startUpFaults
  cases s.startUp.cmdFail <;> cases s.startUp.evtFail <;> rfl

/-- Settles O50: one write that ends before the other is noted; the second raises RESET_DONE and then the faults. -/
theorem startUpEndsWithResetDone : Obligations.StartUpEndsWithResetDone := by
  unfold Obligations.StartUpEndsWithResetDone
  intro s w st q k u hw hin
  have hq : q = startRequester w := by
    rcases hw with ⟨rfl, rfl, -⟩ | ⟨rfl, rfl, -⟩ <;> rfl
  have hu : (s.leaveOwn k).startUp.ended w st = u := by
    rcases hw with ⟨rfl, -, rfl⟩ | ⟨rfl, -, rfl⟩ <;> rfl
  subst hq
  rw [exec_startUpWriteComplete hin st]
  constructor
  · intro hwait
    have hover : u.over = false := by
      rcases hwait with h | h <;> simp [StartUp.over, h]
    rw [State.startUpEnd_of_waiting (hu ▸ hover), hu]
    rfl
  · intro hcmd hevt
    have hover : u.over = true := by simp [StartUp.over, hcmd, hevt]
    rw [State.startUpEnd_of_over (hu ▸ hover), hu, State.startUpFaults_eq, State.raiseResetDone_eq]
    exact ⟨_, _, _, rfl, rfl, rfl, rfl, rfl⟩

/-! ## The index words (R165, R180) -/

theorem pendingOf_eq (x y : Word) : pendingOf x y = (x - y).toNat := rfl

theorem pending_zero_iff (v c : Word) : (v - c).toNat = 0 ↔ v = c := by
  bv_omega

theorem Proc.hasWork_iff (p : Proc) :
    p.hasWork = true ↔ 1 ≤ (p.producer - p.consumer).toNat ∧ (p.producer - p.consumer).toNat ≤ 128 := by
  have hsize : Config.ringSize = 128 := rfl
  rw [Proc.hasWork, pendingOf_eq, hsize, Bool.and_eq_true, decide_eq_true_iff, decide_eq_true_iff]

theorem State.fetchOrIdle_of_work {s : State} (hlo : 1 ≤ (s.proc.producer - s.proc.consumer).toNat)
    (hhi : (s.proc.producer - s.proc.consumer).toNat ≤ 128) : s.fetchOrIdle = s.startFetch :=
  if_pos (s.proc.hasWork_iff.2 ⟨hlo, hhi⟩)

/-- The processor begins a fetch. -/
theorem State.startFetch_eq (s : State) : s.startFetch =
    { s with
      proc := { s.proc with state := .fetching, current := none }
      mem := s.mem.queueOwn (.read .fetch (s.control (0x1000 + 32 * (s.proc.consumer.toNat % 128))) 1) } := rfl

theorem State.fetchOrIdle_of_none {s : State}
    (h : (s.proc.producer - s.proc.consumer).toNat = 0 ∨ 128 < (s.proc.producer - s.proc.consumer).toNat) :
    s.fetchOrIdle = s.setProc { s.proc with state := .idle, current := none } :=
  if_neg (by rw [Proc.hasWork_iff]; omega)

theorem exec_cmdProducer {s : State} {v : Word} {rest : List Word} (h : s.mail.cmdWords = v :: rest) :
    exec .cmdProducer s = .next ((s.setMail { s.mail with cmdWords := rest }).producerWord v) := by
  show execCmdProducer s = _
  rw [execCmdProducer, State.takeProducer, h]

theorem State.producerWord_of_bad {s : State} {v : Word} (h : 128 < (v - s.proc.consumer).toNat) :
    s.producerWord v = s.controlFault .badIndex srcCmdProducer v :=
  if_pos h

theorem State.producerWord_of_good {s : State} {v : Word} (h : (v - s.proc.consumer).toNat ≤ 128) :
    s.producerWord v = (s.setProc { s.proc with producer := v }).resume :=
  if_neg (Nat.not_lt.2 h)

theorem State.resume_of_busy {s : State}
    (h : s.proc.state = .fetching ∨ s.proc.state = .executing ∨ s.proc.state = .writing) : s.resume = s := by
  unfold State.resume
  rcases h with h | h | h <;> rw [h]

/-- From IDLE, and from HALTED with the flag cleared, the processor goes on. -/
theorem State.resume_of_free {s : State} (h : s.proc.state = .idle ∨ s.proc.state = .halted) :
    s.resume = (s.setProc { s.proc with halted := s.proc.halted && decide (s.proc.state = .idle) }).fetchOrIdle := by
  unfold State.resume
  rcases h with h | h
  · simp only [h, decide_true, Bool.and_true]
    rfl
  · simp only [h, reduceCtorEq, decide_false, Bool.and_false]

theorem exec_evtConsumer {s : State} {v : Word} {rest : List Word} (h : s.mail.evtWords = v :: rest) :
    exec .evtConsumer s = .next
      (if 511 < (s.evt.producer - v).toNat then
         (s.setMail { s.mail with evtWords := rest }).controlFault .badIndex srcEvtConsumer v
       else { s with mail := { s.mail with evtWords := rest }
                     evt := { s.evt with consumer := v, intFlag := s.evt.intFlag && decide (v ≠ s.evt.producer) } }) := by
  show execEvtConsumer s = _
  rw [execEvtConsumer, State.takeConsumer, h]
  rfl

/-- Settles O51: the range check comes first; a producer value in range goes on by the processor's state. -/
theorem indexWordsAreJudgedAndTaken : Obligations.IndexWordsAreJudgedAndTaken := by
  unfold Obligations.IndexWordsAreJudgedAndTaken
  intro s v rest
  constructor
  · intro hmail
    rw [exec_cmdProducer hmail]
    constructor
    · intro hbad
      rw [State.producerWord_of_bad (by exact hbad)]
      rfl
    · intro hgood
      rw [State.producerWord_of_good (by exact hgood)]
      refine ⟨fun hbusy => ?_, fun hfree => ⟨fun heq => ?_, fun hne => ?_⟩⟩
      · rw [State.resume_of_busy (by exact hbusy)]
        rfl
      · rw [State.resume_of_free (by exact hfree), State.fetchOrIdle_of_none (.inl (by exact (pending_zero_iff _ _).2 heq))]
        rfl
      · have hpos : 1 ≤ (v - s.proc.consumer).toNat := Nat.one_le_iff_ne_zero.2 (mt (pending_zero_iff _ _).1 hne)
        rw [State.resume_of_free (by exact hfree), State.fetchOrIdle_of_work (by exact hpos) (by exact hgood), State.startFetch_eq]
        rfl
  · intro hmail
    rw [exec_evtConsumer hmail]
    constructor
    · intro hbad
      rw [if_pos hbad]
      rfl
    · intro hgood
      rw [if_neg (Nat.not_lt.2 hgood)]
      refine ⟨_, rfl, rfl, fun heq => ?_, fun hne => ?_, rfl⟩
      · simp [State.intN, heq]
      · simp [State.intN, hne]

/-! ## The processor's own ends (R167, R169, R170) -/

theorem exec_writeBackComplete {s : State} {k : Nat} (h : s.inTime .writeBack k) (st : Status) :
    exec (.writeBackComplete st) s = .next ((s.leaveOwn k).writeBackEnd st) := by
  show execWriteBackComplete st s = _
  rw [execWriteBackComplete, State.ownComplete_of_inTime h]

theorem exec_cmdConsumerWriteComplete {s : State} {k : Nat} (h : s.inTime .consumerWrite k) (st : Status) :
    exec (.cmdConsumerWriteComplete st) s = .next ((s.leaveOwn k).consumerEnd st) := by
  show execCmdConsumerWriteComplete st s = _
  rw [execCmdConsumerWriteComplete, State.ownComplete_of_inTime h]

theorem State.writeBackEnd_of {s : State} (h : s.proc.state = .writing) (st : Status) :
    s.writeBackEnd st =
      { s with
        proc := { s.proc with consumer := s.proc.consumer + 1 }
        evt := if st = .error then s.evt.posted .controlFault .timeout 0 4 s.proc.consumer s.ref.count else s.evt
        mem := s.mem.queueOwn (.write .consumerWrite (s.control 0x4) (bytes32 (s.proc.consumer + 1))) } := by
  unfold State.writeBackEnd
  rw [if_pos h]
  cases st <;> rfl

theorem State.consumerEnd_of {s : State} (h : s.proc.state = .writing) (st : Status) :
    s.consumerEnd st =
      (s.setEvt (if st = .error then s.evt.posted .controlFault .timeout 0 5 s.proc.consumer s.ref.count
        else s.evt)).fetchOrIdle := by
  unfold State.consumerEnd
  rw [if_pos h]
  cases st <;> rfl

theorem exec_unknownKind {kind : Byte} (h : kind = 0 ∨ 0x16 < kind.toNat) (r : CmdArgs) (s : State) :
    exec (.unknownKind kind r) s = .next (s.carryOut kind r (fun t => (t, .refused .unknownKind))) := by
  show execUnknownKind kind r s = _
  rw [execUnknownKind, if_neg]
  simp only [isCommandKind, Bool.and_eq_true, decide_eq_true_eq, not_and]
  rcases h with rfl | h
  · decide
  · omega

/-- Settles O52: the refusal reaches no block; the two ends act in WRITING, the fault posted before they go on. -/
theorem everyRecordIsWrittenBackAndConsumed : Obligations.EveryRecordIsWrittenBackAndConsumed := by
  unfold Obligations.EveryRecordIsWrittenBackAndConsumed
  refine ⟨fun s r kind hs hkind => ?_, fun s st k hproc => ⟨fun hin => ?_, fun hin => ?_⟩⟩
  · rw [exec_unknownKind hkind]
    exact ⟨_, rfl, State.carryOut_refused hs fun _ => rfl⟩
  · rw [exec_writeBackComplete hin, State.writeBackEnd_of (s := s.leaveOwn k) hproc]
    rfl
  · rw [exec_cmdConsumerWriteComplete hin, State.consumerEnd_of (s := s.leaveOwn k) hproc]
    refine ⟨fun hlo hhi => ?_, fun hnone => ?_⟩
    · rw [State.fetchOrIdle_of_work (by exact hlo) (by exact hhi), State.startFetch_eq]
      rfl
    · rw [State.fetchOrIdle_of_none (by exact hnone)]
      rfl

end Sys2Proof.Machine
end

section
/-! PROOFS. PanelCommands.lean: PANEL_BIND, PANEL_TIMING and PANEL_CURVE (R130, R136, R137, R143, R144). -/

namespace Sys2Proof.Machine

/-! ## PANEL_BIND (R130) -/

theorem headArg_of {w : Word} {h : HeadId} (hw : w.toNat = h.val) : headArg w = some h := by
  have hlt : w.toNat < 4 := hw ▸ h.isLt
  simp only [headArg, hlt, dif_pos, Option.some.injEq]
  exact Fin.ext hw

theorem headArg_none {w : Word} (hw : 3 < w.toNat) : headArg w = none := by
  simp only [headArg, Nat.not_lt.2 (show 4 ≤ w.toNat by omega), dif_neg, not_false_eq_true]

theorem bindArg_of {w : Word} {o : Option HeadId}
    (h : o = none ∧ w = 0xFFFFFFFF ∨ ∃ h : HeadId, o = some h ∧ w.toNat = h.val) : bindArg w = some o := by
  rcases h with ⟨rfl, rfl⟩ | ⟨x, rfl, hw⟩
  · rfl
  · have hne : w ≠ 0xFFFFFFFF := by
      rintro rfl
      have hx := x.isLt
      rw [← hw] at hx
      exact absurd hx (by decide)
    rw [bindArg, if_neg hne, headArg_of hw]
    rfl

theorem bindArg_none {w : Word} (h : 3 < w.toNat ∧ w ≠ 0xFFFFFFFF) : bindArg w = none := by
  rw [bindArg, if_neg h.2, headArg_none h.1]
  rfl

theorem panelBind_of_badArg {r : CmdArgs} (h : 1 < r.target.toNat ∨ (3 < r.a.toNat ∧ r.a ≠ 0xFFFFFFFF)) (s : State) :
    panelBind r s = (s, .refused .badArg) := by
  rcases h with h | h
  · rw [panelBind, targetPort_none r h]
  · rw [panelBind, bindArg_none h]
    cases targetPort r <;> rfl

theorem panelBind_of {r : CmdArgs} {p : PortId} {o : Option HeadId} (hp : r.target.toNat = p.val)
    (ho : o = none ∧ r.a = 0xFFFFFFFF ∨ ∃ h : HeadId, o = some h ∧ r.a.toNat = h.val) (s : State) :
    panelBind r s =
      (if o = (s.port p).binding then s else s.bind p o, .done (bindingWord (s.port p).binding)) := by
  rw [panelBind, targetPort_of r p hp, bindArg_of ho]

theorem bindingWord_eq (o : Option HeadId) : bindingWord o = (o.map (fun h => BitVec.ofNat 32 h.val)).getD 0xFFFFFFFF := by
  cases o <;> rfl

theorem otherPort_eq {p q : PortId} (h : q ≠ p) : otherPort p = q := by
  revert p q
  decide

/-- A port-lost notice is one item more in the port's own mailbox. -/
theorem State.noticeLost_eq (s : State) (p : PortId) (o : Option HeadId) :
    s.noticeLost p o = { s with
      mail := { s.mail with portNotes := (s.noticeLost p o).mail.portNotes } } ∧
    (∀ q, (s.noticeLost p o).mail.portNotes.get q =
      s.mail.portNotes.get q ++ (if q = p then o.toList.map PortNote.portLost else [])) := by
  cases o with
  | none => exact ⟨rfl, fun q => by simp [State.noticeLost]⟩
  | some h =>
    refine ⟨rfl, fun q => ?_⟩
    simp only [State.noticeLost, State.tellFromPort_mail, get_pushAt]
    split_ifs <;> simp_all

/-- The other port gives up the head that the port is to have. -/
theorem State.takeFromOther_of_other {s : State} {p q : PortId} {o : Option HeadId} (hq : q ≠ p)
    (h : o = none ∨ o ≠ (s.port q).binding) : s.takeFromOther p o = s := by
  cases o with
  | none => rfl
  | some x =>
    rw [State.takeFromOther, otherPort_eq hq, if_neg]
    rintro heq
    simp [heq] at h

theorem State.takeFromOther_of_same {s : State} {p q : PortId} {x : HeadId} (hq : q ≠ p)
    (h : (s.port q).binding = some x) :
    s.takeFromOther p (some x) =
      (s.setPort q { s.port q with binding := none, jog := 0 }).noticeLost q (some x) := by
  rw [State.takeFromOther, otherPort_eq hq, if_pos h]

/-- What PANEL_BIND changes for a new binding: its two ports and their notices. -/
structure State.Bound (s t : State) (p q : PortId) (o : Option HeadId) : Prop where
  port : t.port p = { s.port p with binding := o, jog := 0 }
  notes : t.mail.portNotes.get p = s.mail.portNotes.get p ++ (s.port p).binding.toList.map PortNote.portLost
  apart : o = none ∨ o ≠ (s.port q).binding →
    t.port q = s.port q ∧ t.mail.portNotes.get q = s.mail.portNotes.get q
  taken : ∀ h, o = some h → (s.port q).binding = some h →
    t.port q = { s.port q with binding := none, jog := 0 } ∧
      t.mail.portNotes.get q = s.mail.portNotes.get q ++ [.portLost h]
  frame : t = { s with ports := t.ports, mail := { s.mail with portNotes := t.mail.portNotes } }

theorem State.bind_bound (s : State) {p q : PortId} (hq : q ≠ p) (o : Option HeadId) : s.Bound (s.bind p o) p q o := by
  obtain ⟨hframe, hnotes⟩ := s.noticeLost_eq p (s.port p).binding
  have hport : ∀ d, (s.noticeLost p (s.port p).binding).port d = s.port d := fun d => by rw [hframe]; rfl
  have hp := hnotes p
  have hqn := hnotes q
  rw [if_pos rfl] at hp
  rw [if_neg hq, List.append_nil] at hqn
  unfold State.bind
  generalize s.noticeLost p (s.port p).binding = u at *
  by_cases hsame : ∃ x, o = some x ∧ (s.port q).binding = some x
  · obtain ⟨x, rfl, hx⟩ := hsame
    rw [State.takeFromOther_of_same hq (by rw [hport]; exact hx)]
    obtain ⟨hframe', hnotes'⟩ := (u.setPort q { u.port q with binding := none, jog := 0 }).noticeLost_eq q (some x)
    have hport' : ∀ d, ((u.setPort q { u.port q with binding := none, jog := 0 }).noticeLost q (some x)).port d =
        (u.setPort q { u.port q with binding := none, jog := 0 }).port d := fun d => by rw [hframe']; rfl
    have hp' := hnotes' p
    have hq' := hnotes' q
    rw [if_neg hq.symm, List.append_nil] at hp'
    rw [if_pos rfl] at hq'
    generalize (u.setPort q { u.port q with binding := none, jog := 0 }).noticeLost q (some x) = v at *
    refine ⟨?_, ?_, ?_, ?_, ?_⟩
    · simp [hport', hport, hq.symm]
    · exact hp'.trans hp
    · rintro (h | h)
      · cases h
      · exact absurd hx.symm h
    · rintro h ⟨⟩ -
      refine ⟨by simp [hport', hport, hq], ?_⟩
      refine hq'.trans ?_
      rw [show (u.setPort q _).mail.portNotes.get q = _ from hqn]
      rfl
    · show _ = _
      rw [hframe', hframe]
      rfl
  · have hapart : o = none ∨ o ≠ (u.port q).binding := by
      rw [hport]
      cases o with
      | none => exact .inl rfl
      | some x => exact .inr fun h => hsame ⟨x, rfl, h.symm⟩
    rw [State.takeFromOther_of_other hq hapart]
    refine ⟨by simp [hport], hp, fun _ => ⟨by simp [hport, hq], hqn⟩, fun x ho hx => absurd ⟨x, ho, hx⟩ hsame, ?_⟩
    rw [hframe]
    rfl

/-! The binding reads neither the processor nor the memory path. -/

theorem State.noticeLost_beside (s : State) (p : PortId) (o : Option HeadId) (x : Proc) (m : MemPath) :
    ({ s with proc := x, mem := m } : State).noticeLost p o = { s.noticeLost p o with proc := x, mem := m } := by
  cases o <;> rfl

theorem State.takeFromOther_beside (s : State) (p : PortId) (o : Option HeadId) (x : Proc) (m : MemPath) :
    ({ s with proc := x, mem := m } : State).takeFromOther p o = { s.takeFromOther p o with proc := x, mem := m } := by
  cases o with
  | none => rfl
  | some h =>
    have hport : ({ s with proc := x, mem := m } : State).port (otherPort p) = s.port (otherPort p) := rfl
    by_cases hb : (s.port (otherPort p)).binding = some h
    · rw [State.takeFromOther, if_pos (by rw [hport]; exact hb), State.takeFromOther, if_pos hb]
      rfl
    · rw [State.takeFromOther, if_neg (by rw [hport]; exact hb), State.takeFromOther, if_neg hb]

theorem State.bind_beside (s : State) (p : PortId) (o : Option HeadId) (x : Proc) (m : MemPath) :
    ({ s with proc := x, mem := m } : State).bind p o = { s.bind p o with proc := x, mem := m } := by
  unfold State.bind
  rw [State.noticeLost_beside, State.takeFromOther_beside]
  rfl

/-! ## PANEL_TIMING (R143, R144) -/

theorem codeBit_none {n : Nat} (h : 1 < n) : codeBit n = none := by
  obtain ⟨m, rfl⟩ : ∃ m, n = m + 2 := ⟨n - 2, by omega⟩
  rfl

theorem codeBit_of {n : Nat} (h : n ≤ 1) : codeBit n = some (decide (n = 1)) := by
  interval_cases n <;> rfl

theorem panelTiming_of_badArg {r : CmdArgs} (h : 1 < r.target.toNat ∨ 1 < r.c.toNat % 65536 ∨ 1 < r.c.toNat / 65536)
    (s : State) : panelTiming r s = (s, .refused .badArg) := by
  rcases h with h | h | h
  · rw [panelTiming, targetPort_none r h]
  · rw [panelTiming, codeBit_none h]
    cases targetPort r <;> rfl
  · rw [panelTiming, codeBit_none h]
    cases targetPort r <;> cases codeBit (r.c.toNat % 65536) <;> rfl

theorem clampNat_zero (hi v : Nat) : clampNat 0 hi v = min v hi := by
  unfold clampNat
  split_ifs <;> omega

theorem not_timingFits_iff (r : CmdArgs) :
    (!timingFits r) = decide (min r.a.toNat 255 ≠ r.a.toNat ∨ clampNat 1 64 r.d.toNat ≠ r.d.toNat ∨
      fitQuarters r.b.toNat ≠ r.b.toNat) := by
  rw [timingFits, Bool.eq_iff_iff, Bool.not_eq_true', Bool.and_eq_false_iff, Bool.and_eq_false_iff, decide_eq_true_iff,
    decide_eq_false_iff_not, decide_eq_false_iff_not, decide_eq_false_iff_not]
  have hmin : r.a.toNat ≤ 255 ↔ min r.a.toNat 255 = r.a.toNat := by omega
  rw [hmin]
  tauto

theorem panelTiming_of {r : CmdArgs} {p : PortId} (hp : r.target.toNat = p.val) (hout : r.c.toNat % 65536 ≤ 1)
    (hlow : r.c.toNat / 65536 ≤ 1) (s : State) :
    panelTiming r s =
      (s.setPort p ((s.port p).retime r (decide (r.c.toNat % 65536 = 1)) (decide (r.c.toNat / 65536 = 1)) s.now),
        doneOrClamped (min r.a.toNat 255 ≠ r.a.toNat ∨ clampNat 1 64 r.d.toNat ≠ r.d.toNat ∨
          fitQuarters r.b.toNat ≠ r.b.toNat) (BitVec.ofNat 32 (s.port p).jogErrors)) := by
  rw [panelTiming, targetPort_of r p hp, codeBit_of hout, codeBit_of hlow]
  show (_, CmdResult.fitted _ _) = _
  rw [not_timingFits_iff, CmdResult.fitted_eq_doneOrClamped]

theorem fitQuarters_mem (n : Nat) : fitQuarters n ∈ [1, 2, 4] := by
  unfold fitQuarters
  split_ifs <;> decide

theorem fitQuarters_of_mem {n : Nat} (h : n ∈ [1, 2, 4]) : fitQuarters n = n := by
  revert n
  decide

theorem fitQuarters_of_gt {n : Nat} (h : 2 < n) : fitQuarters n = 4 := by
  rw [fitQuarters, if_neg (by omega), if_neg (by omega)]

/-- Settles O53: the refusals reach no port; a binding touches the two ports and their notices, a timing the one port. -/
theorem panelBindAndTimingSetThePort : Obligations.PanelBindAndTimingSetThePort := by
  unfold Obligations.PanelBindAndTimingSetThePort
  intro s r hs
  refine ⟨fun hbad => ⟨_, rfl, State.carryOut_refused hs fun k => panelBind_of_badArg hbad _⟩,
    fun hbad => ⟨_, rfl, State.carryOut_refused hs fun k => panelTiming_of_badArg hbad _⟩, fun p q hp hq => ⟨?bind, ?timing⟩⟩
  case bind =>
    intro o ho
    have hans := State.carryOut_answered_beside (kind := 0x12) (r := r) (own := panelBind r) hs
      (if o = (s.port p).binding then s else s.bind p o) (.done (bindingWord (s.port p).binding))
      (fun k => by
        rw [panelBind_of hp ho, State.taken_port]
        split_ifs with hsame
        · rfl
        · exact congrArg (·, _) (s.bind_beside p o _ _)) (by
            split_ifs
            · rfl
            · exact (congrArg State.cbsel (s.bind_bound hq o).frame :)) (by
            split_ifs
            · rfl
            · exact (congrArg State.mem (s.bind_bound hq o).frame :))
    rw [bindingWord_eq] at hans
    refine ⟨_, rfl, hans.ended, fun hsame => ?_, fun hnew => ?_, ?_⟩
    · rw [hans.ports, hans.mail, if_pos hsame]
      exact ⟨rfl, rfl⟩
    · have hb := s.bind_bound hq o
      rw [hans.port, hans.port, hans.mail, if_neg hnew]
      exact ⟨hb.port, hb.notes, hb.apart, hb.taken⟩
    · rw [hans.ports, hans.mail]
      refine hans.eq.trans ?_
      split_ifs
      · rfl
      · rw [(s.bind_bound hq o).frame]
  case timing =>
    intro hout hlow
    have hans := State.carryOut_answered_beside (kind := 0x14) (r := r) (own := panelTiming r) hs
      (s.setPort p ((s.port p).retime r (decide (r.c.toNat % 65536 = 1)) (decide (r.c.toNat / 65536 = 1)) s.now))
      (doneOrClamped (min r.a.toNat 255 ≠ r.a.toNat ∨ clampNat 1 64 r.d.toNat ≠ r.d.toNat ∨
        fitQuarters r.b.toNat ≠ r.b.toNat) (BitVec.ofNat 32 (s.port p).jogErrors))
      (fun k => panelTiming_of (s := s.taken k 0x14 r) hp hout hlow) rfl rfl
    have hport : ∀ d, (s.carryOut 0x14 r (panelTiming r)).port d = _ := fun d =>
      (hans.port d).trans (State.setPort_port ..)
    have hself := (hport p).trans (if_pos rfl)
    refine ⟨_, min r.a.toNat 255, _, rfl, ?_, fittedTo_clampNat 1 64 _ (by decide), ?_⟩
    · rw [← clampNat_zero]
      exact fittedTo_clampNat 0 255 _ (by decide)
    rw [hself]
    refine ⟨fitQuarters_mem _, fitQuarters_of_mem, fun h => ?_, fitQuarters_of_gt, hans.ended, ?_, rfl, rfl, ?_, fun d hd => ?_, ?_⟩
    · show fitQuarters r.b.toNat = 1
      rw [h]
      rfl
    · rfl
    · intro k
      cases k <;> rfl
    · rw [hport, if_neg hd]
    · rw [hans.ports]
      exact hans.eq

end Sys2Proof.Machine
end

section
/-! PROOFS. LongCommands.lean: the commands that stay in execution until their own requests end: PANEL_CURVE, CLIP_QUERY and
STATUS_SNAPSHOT (R136, R137, R182, R183). -/

namespace Sys2Proof.Machine

/-! ## What such a command leaves behind at its fetch (R167) -/

theorem State.foldl_queueOwn (s : State) (qs : List OwnReq) :
    qs.foldl State.queueOwn s = s.setMem (qs.foldl MemPath.queueOwn s.mem) := by
  induction qs generalizing s with
  | nil => rfl
  | cons q qs ih =>
    rw [List.foldl_cons, ih]
    rfl

theorem MemPath.foldl_queueOwn_frame (m : MemPath) (qs : List OwnReq) :
    qs.foldl MemPath.queueOwn m = m.withOwn (qs.foldl MemPath.queueOwn m) := by
  induction qs generalizing m with
  | nil => rfl
  | cons q qs ih =>
    rw [List.foldl_cons, ih, m.queueOwn_frame q]
    rfl

/-- One that its owning block refuses ends at once. -/
theorem State.carryOutLong_refused {s : State} {kind : Byte} {r : CmdArgs} {own : State → State × Option CmdResult} {why : Reason}
    (h : s.awaits) (hown : ∀ k, own (s.taken k kind r) = (s.taken k kind r, some (.refused why))) :
    s.commandEnded (s.carryOutLong kind r own) kind r (refusedFor why) ∧
      s.carryOutLong kind r own =
        { s with proc := (s.carryOutLong kind r own).proc, mem := s.mem.withOwn (s.carryOutLong kind r own).mem } := by
  have heq : s.carryOutLong kind r own = s.carryOut kind r (fun t => (t, .refused why)) := by
    obtain ⟨k, -, hrun⟩ := s.fetched_of_awaits kind r h
    rw [State.carryOutLong, State.carryOut, hrun, hrun, hown]
  rw [heq]
  exact State.carryOut_refused h fun _ => rfl

/-- One that queues requests stays in execution. -/
theorem State.carryOutLong_held {s : State} {kind : Byte} {r : CmdArgs} {own : State → State × Option CmdResult} (h : s.awaits)
    (qs : List OwnReq) (hown : ∀ k, own (s.taken k kind r) = (qs.foldl State.queueOwn (s.taken k kind r), none)) :
    s.commandHeld (s.carryOutLong kind r own) kind r qs ∧
      s.carryOutLong kind r own =
        { s with proc := (s.carryOutLong kind r own).proc, mem := s.mem.withOwn (s.carryOutLong kind r own).mem } := by
  obtain ⟨k, hk, hrun⟩ := s.fetched_of_awaits kind r h
  have heq : s.carryOutLong kind r own = (s.taken k kind r).setMem (qs.foldl MemPath.queueOwn (s.mem.leave k)) := by
    rw [State.carryOutLong, hrun, hown, State.foldl_queueOwn]
    rfl
  rw [heq]
  refine ⟨⟨rfl, k, hk, rfl, rfl⟩, ?_⟩
  rw [MemPath.foldl_queueOwn_frame, MemPath.withOwn_leave]
  rfl

theorem reportFits_iff (a : Addr) (n : Nat) : reportFits a n = true ↔ a.toNat % 64 = 0 ∧ a.toNat + n ≤ 2 ^ 40 := by
  have hend : Config.addrEnd = 2 ^ 40 := rfl
  rw [reportFits, hend, Bool.and_eq_true, decide_eq_true_iff, decide_eq_true_iff]

theorem reportFits_eq_false {a : Addr} {n : Nat} (h : a.toNat % 64 ≠ 0 ∨ 2 ^ 40 < a.toNat + n) : reportFits a n = false := by
  rw [Bool.eq_false_iff, Ne, reportFits_iff]
  omega

theorem addrArg_toNat (r : CmdArgs) : (addrArg r).toNat = r.a.toNat + 2 ^ 32 * (r.b.toNat % 256) := by
  rw [addrArg, BitVec.toNat_append, BitVec.extractLsb'_toNat, Nat.shiftRight_zero, Nat.shiftLeft_eq, Nat.mul_comm,
    ← Nat.two_pow_add_eq_or_of_lt r.a.isLt, Nat.add_comm]

/-! ## PANEL_CURVE (R136, R137) -/

theorem panelCurve_of_badArg {r : CmdArgs}
    (h : 1 < r.target.toNat ∨ (addrArg r).toNat % 64 ≠ 0 ∨ 2 ^ 40 < (addrArg r).toNat + 64) (s : State) :
    panelCurve r s = (s, some (.refused .badArg)) := by
  rcases h with h | h
  · rw [panelCurve, targetPort_none r h]
  · rw [panelCurve, reportFits_eq_false h]
    cases targetPort r <;> rfl

theorem panelCurve_of {r : CmdArgs} (ht : r.target.toNat ≤ 1) (h : reportFits (addrArg r) 64 = true) (s : State) :
    panelCurve r s = (s.queueOwn (.read .curve (addrArg r) 2), none) := by
  rw [panelCurve, targetPort_of r ⟨r.target.toNat, by omega⟩ rfl, h]
  rfl

/-- A raised knot is the greatest of the floor and the knots so far. -/
theorem getElem?_raiseKnots {ks : List Nat} {fl i x : Nat} (h : (raiseKnots fl ks)[i]? = some x) :
    fl ≤ x ∧ (∀ j k, j ≤ i → ks[j]? = some k → k ≤ x) ∧ (x = fl ∨ ∃ j, j ≤ i ∧ ks[j]? = some x) := by
  induction ks generalizing fl i with
  | nil => simp [raiseKnots] at h
  | cons k ks ih =>
    cases i with
    | zero =>
      obtain rfl : max fl k = x := by simpa [raiseKnots] using h
      refine ⟨le_max_left .., fun j y hj hy => ?_, ?_⟩
      · obtain rfl : j = 0 := by omega
        obtain rfl : k = y := by simpa using hy
        exact le_max_right ..
      · rcases le_total k fl with hle | hle
        · exact .inl (max_eq_left hle)
        · exact .inr ⟨0, le_rfl, by simp [hle]⟩
    | succ i =>
      obtain ⟨hfloor, hall, hsome⟩ := ih (fl := max fl k) (i := i) (by simpa [raiseKnots] using h)
      refine ⟨(le_max_left ..).trans hfloor, fun j y hj hy => ?_, ?_⟩
      · cases j with
        | zero =>
          obtain rfl : k = y := by simpa using hy
          exact (le_max_right ..).trans hfloor
        | succ j => exact hall j y (by omega) (by simpa using hy)
      · rcases hsome with hx | ⟨j, hj, hy⟩
        · rcases le_total k fl with hle | hle
          · exact .inl (hx.trans (max_eq_left hle))
          · exact .inr ⟨0, by omega, by simp [hx, hle]⟩
        · exact .inr ⟨j + 1, by omega, by simpa using hy⟩

/-- The field of knot `i`, limited to 2048 (R137 step 1). -/
def knotAt (data : List Byte) (i : Nat) : Nat := min (half data (2 * i)).toNat 2048

theorem getElem?_limitedKnots (data : List Byte) {i : Nat} (hi : i < 17) :
    ((curveKnots data).map (fun k => min k Config.maxRate))[i]? = some (knotAt data i) := by
  rw [curveKnots, List.map_map, List.getElem?_map, List.getElem?_range hi]
  rfl

theorem fitKnots_length (data : List Byte) : (fitKnots (curveKnots data)).length = 17 := by
  rw [fitKnots, raiseKnots_length, List.length_map, curveKnots, List.length_map, List.length_range]

/-- Each fitted knot is the running maximum of the limited ones (R137). -/
theorem getD_fitKnots (data : List Byte) {i : Nat} (hi : i < 17) :
    (∀ j, j ≤ i → knotAt data j ≤ (fitKnots (curveKnots data)).getD i 0) ∧
      ∃ j, j ≤ i ∧ (fitKnots (curveKnots data)).getD i 0 = knotAt data j := by
  have hlen : i < (fitKnots (curveKnots data)).length := (fitKnots_length data).symm ▸ hi
  obtain ⟨x, hx⟩ : ∃ x, (fitKnots (curveKnots data))[i]? = some x := ⟨_, List.getElem?_eq_getElem hlen⟩
  have hget : (fitKnots (curveKnots data)).getD i 0 = x := by rw [List.getD_eq_getElem?_getD, hx, Option.getD_some]
  obtain ⟨-, hall, hsome⟩ := getElem?_raiseKnots hx
  have hle : ∀ j, j ≤ i → knotAt data j ≤ x := fun j hj => hall j _ hj (getElem?_limitedKnots data (by omega))
  rw [hget]
  refine ⟨hle, ?_⟩
  rcases hsome with rfl | ⟨j, hj, hy⟩
  · exact ⟨i, le_rfl, (Nat.le_zero.1 (hle i le_rfl)).symm⟩
  · rw [getElem?_limitedKnots data (by omega), Option.some.injEq] at hy
    exact ⟨j, hj, hy.symm⟩

theorem exec_curveFetchComplete {s : State} {k : Nat} (h : s.inTime .curve k) (data : List Byte) (st : Status) :
    exec (.curveFetchComplete data st) s = .next ((s.leaveOwn k).curveEnd data st) := by
  show execCurveFetchComplete data st s = _
  rw [execCurveFetchComplete, State.ownComplete_of_inTime h]

theorem State.installCurve_of {s : State} {cur : CmdRecord} {p : PortId} (hproc : s.proc.state = .executing)
    (hcur : s.proc.current = some cur) (hp : cur.args.target.toNat = p.val) (data : List Byte) :
    s.installCurve data =
      (s.setPort p ((s.port p).withCurve data).rezone).endCommand (.fitted (curveClamped data) 1) := by
  have hport : s.curvePort = some p := by
    rw [State.curvePort, hcur]
    exact targetPort_of _ p hp
  rw [State.installCurve, hproc, hport]

theorem State.curveFail_of {s : State} (hproc : s.proc.state = .executing) :
    s.curveFail = (s.controlFault .timeout srcCurveFetch s.proc.consumer).endCommand (.done 0) :=
  if_pos hproc

theorem curveClamped_eq (data : List Byte) : curveClamped data = decide
    (fitKnots (curveKnots data) ≠ curveKnots data ∨ clampNat 256 767 (curveField data 0x22) ≠ curveField data 0x22 ∨
      clampNat 0 127 (curveField data 0x24) ≠ curveField data 0x24 ∨
      clampNat 1 2048 (curveField data 0x26) ≠ curveField data 0x26) := by
  simp only [curveClamped, Bool.decide_or, Bool.or_assoc]

/-- Settles O54: the command waits with its one read; its end installs the fitted record, or nothing. -/
theorem panelCurveFetchesAndInstalls : Obligations.PanelCurveFetchesAndInstalls := by
  unfold Obligations.PanelCurveFetchesAndInstalls
  refine ⟨fun s r hs => ⟨addrArg_toNat r, fun hbad => ⟨_, rfl, State.carryOutLong_refused hs fun k => panelCurve_of_badArg hbad _⟩,
    fun ht hmod hfit => ⟨_, rfl, State.carryOutLong_held hs [.read .curve (addrArg r) 2] fun k =>
      panelCurve_of ht ((reportFits_iff ..).2 ⟨hmod, hfit⟩) _⟩⟩, ?_⟩
  intro s cur k p data hproc hcur hin hp hdata
  rw [exec_curveFetchComplete hin, exec_curveFetchComplete hin]
  constructor
  · obtain ⟨hended, hframe⟩ := s.endCommand_of_ended
      ((s.leaveOwn k).setPort p (((s.leaveOwn k).port p).withCurve data).rezone) cur k (.fitted (curveClamped data) 1) rfl hcur rfl rfl
    have hinst : (s.leaveOwn k).curveEnd data .good = _ :=
      State.installCurve_of (s := s.leaveOwn k) hproc hcur hp data
    rw [← hinst] at hended hframe
    have hport : ∀ q, ((s.leaveOwn k).curveEnd data .good).port q =
        if q = p then ((s.port p).withCurve data).rezone else s.port q := fun q =>
      (congrArg (fun x : State => x.port q) hframe).trans (State.setPort_port ..)
    have hself := (hport p).trans (if_pos rfl)
    refine ⟨_, clampNat 256 767 (curveField data 0x22), clampNat 0 127 (curveField data 0x24),
      clampNat 1 2048 (curveField data 0x26), rfl, ?_⟩
    rw [hself]
    refine ⟨fitKnots_length data, fun i hi => getD_fitKnots data hi, fittedTo_clampNat _ _ _ (by decide),
      fittedTo_clampNat _ _ _ (by decide), fittedTo_clampNat _ _ _ (by decide), rfl, fun q hq => (hport q).trans (if_neg hq), ?_, ?_⟩
    · rw [curveClamped_eq, CmdResult.fitted_eq_doneOrClamped] at hended
      exact hended
    · exact hframe.trans (by rw [hframe]; rfl)
  · obtain ⟨hended, hframe⟩ := s.endCommand_of_ended
      ((s.leaveOwn k).controlFault .timeout srcCurveFetch (s.leaveOwn k).proc.consumer) cur k (.done 0) rfl hcur rfl rfl
    have hfail : (s.leaveOwn k).curveEnd data .error = _ := State.curveFail_of (s := s.leaveOwn k) hproc
    rw [← hfail] at hended hframe
    refine ⟨_, rfl, hended, (congrArg State.evt hframe :), ?_⟩
    exact hframe.trans (by rw [hframe]; rfl)

end Sys2Proof.Machine
end

section
/-! PROOFS. Records.lean: the bytes of a record's fields, and the command records read back (11.1, 11.3, 11.7). -/

namespace Sys2Proof.Machine

/-! ## Fields and their bytes (R184) -/

theorem byteAt_eq {n : Nat} (w : BitVec n) (i : Nat) : byteAt w i = BitVec.ofNat 8 (w.toNat / 256 ^ i) := by
  have hpow : 2 ^ (8 * i) = 256 ^ i := by rw [Nat.pow_mul]
  apply BitVec.eq_of_toNat_eq
  rw [byteAt, BitVec.extractLsb'_toNat, BitVec.toNat_ofNat, Nat.shiftRight_eq_div_pow, hpow]

theorem append_byteAt_half (w : Half) : (byteAt w 1 ++ byteAt w 0 : BitVec (8 + 8)) = w := by
  have h : (byteAt w 1 ++ byteAt w 0 : BitVec (8 + 8)) = w.extractLsb' 0 16 :=
    BitVec.extractLsb'_append_extractLsb'_eq_extractLsb' (by decide)
  exact h.trans BitVec.extractLsb'_eq_self

theorem append_byteAt_word (w : Word) :
    (byteAt w 3 ++ byteAt w 2 ++ byteAt w 1 ++ byteAt w 0 : BitVec (8 + 8 + 8 + 8)) = w := by
  have h3 : (byteAt w 3 ++ byteAt w 2 : BitVec (8 + 8)) = w.extractLsb' 16 16 :=
    BitVec.extractLsb'_append_extractLsb'_eq_extractLsb' (by decide)
  have h2 : (byteAt w 3 ++ byteAt w 2 ++ byteAt w 1 : BitVec (8 + 8 + 8)) = w.extractLsb' 8 24 :=
    (congrArg (· ++ byteAt w 1) h3).trans (BitVec.extractLsb'_append_extractLsb'_eq_extractLsb' (by decide))
  have h1 : (byteAt w 3 ++ byteAt w 2 ++ byteAt w 1 ++ byteAt w 0 : BitVec (8 + 8 + 8 + 8)) = w.extractLsb' 0 32 :=
    (congrArg (· ++ byteAt w 0) h2).trans (BitVec.extractLsb'_append_extractLsb'_eq_extractLsb' (by decide))
  exact h1.trans BitVec.extractLsb'_eq_self

/-! ## Command records (11.3) -/

/-- A well-formed command row is that of its kind code and its fields (11.7). -/
theorem commandOf_of_recordOf {i : Instr} {k : Byte} {r : CmdArgs} (hw : i.wf = true) (h : recordOf i = some (k, r)) :
    commandOf k r = i := by
  by_cases hu : ∃ k' r', i = .unknownKind k' r'
  · obtain ⟨k', r', rfl⟩ := hu
    exact Sys2Proof.Laws.KindCodes.unknownKind k' r' k r hw h
  · unfold recordOf at h
    split at h
    case h_1 k' r' => exact absurd ⟨k', r', rfl⟩ hu
    all_goals cases h
    all_goals rfl

/-- The record software writes for a command (11.3). -/
def recordBytes (k : Byte) (r : CmdArgs) : List Byte :=
  [k, 0, 0, r.flags] ++ bytes16 r.tag ++ bytes16 r.target ++ bytes32 r.a ++ bytes32 r.b ++ bytes32 r.c ++ bytes32 r.d
    ++ bytes32 0 ++ bytes32 0

theorem encodeRecord_of {i : Instr} {k : Byte} {r : CmdArgs} (h : recordOf i = some (k, r)) :
    encodeRecord i = some (recordBytes k r) := by
  rw [encodeRecord, h]
  rfl

theorem decodeRecord_recordBytes (k : Byte) (r : CmdArgs) : decodeRecord (recordBytes k r) = some (commandOf k r) := by
  have htag : half (recordBytes k r) 4 = r.tag := append_byteAt_half _
  have htarget : half (recordBytes k r) 6 = r.target := append_byteAt_half _
  have ha : word (recordBytes k r) 8 = r.a := append_byteAt_word _
  have hb : word (recordBytes k r) 12 = r.b := append_byteAt_word _
  have hc : word (recordBytes k r) 16 = r.c := append_byteAt_word _
  have hd : word (recordBytes k r) 20 = r.d := append_byteAt_word _
  rw [decodeRecord, if_pos (by rfl), htag, htarget, ha, hb, hc, hd]
  rfl

/-- A byte of a 32-bit field, found at its offset in a record. -/
theorem getD_bytes32 (w : Word) {j : Nat} (hj : j < 4) : (bytes32 w).getD j 0 = BitVec.ofNat 8 (w.toNat / 256 ^ j) := by
  interval_cases j <;> exact byteAt_eq w _

/-- Settles O60: the fields stand in the record at their offsets, and the kind code gives back the row. -/
theorem commandRecordsReadBackAsWritten : Obligations.CommandRecordsReadBackAsWritten := by
  unfold Obligations.CommandRecordsReadBackAsWritten
  intro i k r hw h
  refine ⟨_, encodeRecord_of h, rfl, ?_, rfl, rfl, ?_, ?_, ?_, ?_, fun j hj => ⟨?_, ?_, ?_, ?_⟩⟩
  · rw [decodeRecord_recordBytes, commandOf_of_recordOf hw h]
  · exact (byteAt_eq r.tag 0).trans (by rw [Nat.pow_zero, Nat.div_one])
  · exact byteAt_eq r.tag 1
  · exact (byteAt_eq r.target 0).trans (by rw [Nat.pow_zero, Nat.div_one])
  · exact byteAt_eq r.target 1
  · rw [← getD_bytes32 r.a hj]
    interval_cases j <;> rfl
  · rw [← getD_bytes32 r.b hj]
    interval_cases j <;> rfl
  · rw [← getD_bytes32 r.c hj]
    interval_cases j <;> rfl
  · rw [← getD_bytes32 r.d hj]
    interval_cases j <;> rfl

end Sys2Proof.Machine
end

section
/-! PROOFS. PanelLines.lean: the lines of a panel port: the lever, the jog wheel and the keys (R131 to R134, R139 to R142). -/

namespace Sys2Proof.Machine

/-! ## What the lever can change -/

/-- From `s` to `t` nothing changes but port `p`, the event unit and the notices of the ports. -/
structure State.OnPort (s t : State) (p : PortId) : Prop where
  others : ∀ q, q ≠ p → t.port q = s.port q
  frame : t = { s with ports := t.ports, evt := t.evt, mail := { s.mail with portNotes := t.mail.portNotes } }

section
variable {s t u : State} {p : PortId}

theorem State.OnPort.refl (s : State) (p : PortId) : s.OnPort s p := ⟨fun _ _ => rfl, rfl⟩

theorem State.OnPort.trans (h : s.OnPort t p) (h' : t.OnPort u p) : s.OnPort u p :=
  ⟨fun q hq => (h'.others q hq).trans (h.others q hq), by rw [h'.frame, h.frame]⟩

theorem State.onPort_setPort (s : State) (p : PortId) (x : Port) : s.OnPort (s.setPort p x) p :=
  ⟨fun q hq => by rw [State.setPort_port, if_neg hq], rfl⟩

theorem State.onPort_raise (s : State) (p : PortId) (k : EventKind) (why : Reason) (o a : Nat) (v : Word) :
    s.OnPort (s.raise k why o a v) p :=
  ⟨fun _ _ => rfl, rfl⟩

theorem State.onPort_noticeTakeover (s : State) (p : PortId) : s.OnPort (s.noticeTakeover p) p := by
  unfold State.noticeTakeover
  split
  · exact .refl s p
  · exact ⟨fun _ _ => rfl, rfl⟩

theorem State.onPort_faultLever (s : State) (p : PortId) (why : Reason) (v : Nat) : s.OnPort (s.faultLever p why v) p := by
  unfold State.faultLever
  split
  · exact s.onPort_setPort p _
  · exact (s.onPort_setPort p _).trans (State.onPort_raise ..)

theorem State.onPort_validCycle (s : State) (p : PortId) (u : Nat) : s.OnPort (s.validCycle p u) p := by
  refine (s.onPort_setPort p { s.port p with lever := u }).trans ?_
  show State.OnPort _ (if ((s.setPort p { s.port p with lever := u }).port p).fault then _ else _) p
  generalize s.setPort p { s.port p with lever := u } = x
  split
  · unfold State.restoreLever
    split
    · exact x.onPort_setPort p _
    · exact (x.onPort_setPort p _).trans (State.onPort_raise ..)
  · unfold State.zoneCycle
    dsimp only
    split
    · exact (x.onPort_setPort p _).trans (State.onPort_noticeTakeover ..)
    · exact x.onPort_setPort p _

theorem State.onPort_closeCycle (s : State) (p : PortId) (per act : Nat) : s.OnPort (s.closeCycle p per act) p := by
  unfold State.closeCycle
  split
  · exact s.onPort_faultLever ..
  · exact s.onPort_validCycle ..

end

/-! ## Faults, restores and the zone (R132 to R134) -/

theorem State.faultLever_of_fault {s : State} {p : PortId} (h : (s.port p).fault = true) (why : Reason) (v : Nat) :
    s.faultLever p why v = s.setPort p { s.port p with restore := 0 } :=
  if_pos h

theorem State.faultLever_of_good {s : State} {p : PortId} (h : (s.port p).fault = false) (why : Reason) (v : Nat) :
    s.faultLever p why v =
      (s.setPort p { s.port p with fault := true, restore := 0, outside := false }).raise .panelFault why p.val 0
        (BitVec.ofNat 32 v) :=
  if_neg (by simp [h])

theorem cycleFault_eq {per act : Nat} {why : Reason} {v : Nat}
    (h : (per < 200 ∨ 10000 < per) ∧ why = Reason.badPeriod ∧ v = per ∨
      200 ≤ per ∧ per ≤ 10000 ∧ (act = 0 ∨ act = per) ∧ why = .badActive ∧ v = act) :
    cycleFault per act = some (why, v) := by
  have hmin : Config.minLever = 200 := rfl
  have hmax : Config.maxLever = 10000 := rfl
  rw [cycleFault, hmin, hmax]
  rcases h with ⟨hper, rfl, rfl⟩ | ⟨hlo, hhi, hact, rfl, rfl⟩
  · rw [if_pos hper]
  · rw [if_neg (by omega), if_pos hact]

theorem State.closeCycle_invalid {s : State} {p : PortId} {per act : Nat} {why : Reason} {v : Nat}
    (h : cycleFault per act = some (why, v)) : s.closeCycle p per act = s.faultLever p why v := by
  rw [State.closeCycle, h]

theorem State.validCycle_of_good {s : State} {p : PortId} {u : Nat} (h : (s.port p).fault = false) :
    s.validCycle p u = (s.setPort p { s.port p with lever := u }).zoneCycle p :=
  if_neg (by simp [h])

theorem State.validCycle_of_fault {s : State} {p : PortId} {u : Nat} (h : (s.port p).fault = true) :
    s.validCycle p u = (s.setPort p { s.port p with lever := u }).restoreLever p :=
  if_pos (by simp [h])

theorem State.noticeTakeover_eq (s : State) (p : PortId) : s.noticeTakeover p =
    { s with mail := { s.mail with portNotes := (s.noticeTakeover p).mail.portNotes } } ∧
    (s.noticeTakeover p).mail.portNotes.get p = s.mail.portNotes.get p ++ (s.port p).binding.toList.map PortNote.takeover ∧
    ∀ q, q ≠ p → (s.noticeTakeover p).mail.portNotes.get q = s.mail.portNotes.get q := by
  unfold State.noticeTakeover
  cases (s.port p).binding with
  | none => exact ⟨rfl, by simp, fun _ _ => rfl⟩
  | some h => exact ⟨rfl, by simp, fun q hq => by simp [hq]⟩

/-- The zone check: the zone is set, and a move outside is told to the bound head. -/
theorem State.zoneCycle_eq (s : State) (p : PortId) :
    (s.zoneCycle p).port p = { s.port p with outside := (s.port p).leverOutside } ∧ (s.zoneCycle p).evt = s.evt ∧
    (s.zoneCycle p).mail.portNotes.get p = s.mail.portNotes.get p ++
      (if (s.port p).outside = false ∧ (s.port p).leverOutside = true then (s.port p).binding.toList.map PortNote.takeover
        else []) ∧
    ∀ q, q ≠ p → (s.zoneCycle p).mail.portNotes.get q = s.mail.portNotes.get q := by
  unfold State.zoneCycle
  obtain ⟨hframe, hself, hother⟩ :=
    (s.setPort p { s.port p with outside := (s.port p).leverOutside }).noticeTakeover_eq p
  dsimp only
  split_ifs with hmove
  · refine ⟨?_, ?_, ?_, hother⟩
    · rw [hframe]
      exact (State.setPort_port ..).trans (if_pos rfl)
    · rw [hframe]
      rfl
    · rw [hself, State.setPort_port, if_pos rfl]
      rfl
  · exact ⟨(State.setPort_port ..).trans (if_pos rfl), rfl, (List.append_nil _).symm, fun _ _ => rfl⟩

/-! ## Edges (R131) -/

section
variable {s : State} {p : PortId} {level : Bool}

theorem State.edge_inactive (h : level = (s.port p).activeLow) : s.edge p level =
    s.setPort p { s.port p with
      lev := level, noEdge := s.now
      cycle := (s.port p).cycle.map (fun c => { c with active := some (s.now - c.start) }) } := by
  have hne : ¬ level = !(s.port p).activeLow := by simp [h]
  unfold State.edge State.inactiveEdge
  dsimp only
  rw [if_neg hne, State.setPort_port, if_pos rfl]
  cases hc : (s.port p).cycle with
  | none => rfl
  | some c => exact State.setPort_setPort ..

theorem State.edge_active (h : level ≠ (s.port p).activeLow) : s.edge p level =
    (s.setPort p { s.port p with lev := level, noEdge := s.now }).activeEdge p :=
  if_pos (Bool.eq_not.2 h)

theorem State.edge_first (h : level ≠ (s.port p).activeLow) (hc : (s.port p).cycle = none) : s.edge p level =
    s.setPort p { s.port p with lev := level, noEdge := s.now, cycle := some { start := s.now } } := by
  rw [State.edge_active h, State.activeEdge, State.setPort_port, if_pos rfl, State.setPort_setPort]
  dsimp only
  rw [hc]
  rfl

theorem State.edge_closes {c : LevCycle} (h : level ≠ (s.port p).activeLow) (hc : (s.port p).cycle = some c) : s.edge p level =
    (s.setPort p { s.port p with lev := level, noEdge := s.now, cycle := some { start := s.now } }).closeCycle p
      (s.now - c.start) (c.active.getD 0) := by
  rw [State.edge_active h, State.activeEdge, State.setPort_port, if_pos rfl, State.setPort_setPort]
  dsimp only
  rw [hc]
  rfl

theorem State.onPort_edge (s : State) (p : PortId) (level : Bool) : s.OnPort (s.edge p level) p := by
  by_cases h : level = (s.port p).activeLow
  · rw [State.edge_inactive h]
    exact s.onPort_setPort p _
  · cases hc : (s.port p).cycle with
    | none =>
      rw [State.edge_first h hc]
      exact s.onPort_setPort p _
    | some c =>
      rw [State.edge_closes h hc]
      exact (s.onPort_setPort p _).trans (State.onPort_closeCycle ..)

end

/-! ## A valid cycle (R131, R133, R134) -/

section
variable {s : State} {p : PortId} {u : Nat}

theorem State.validCycle_zone (h : (s.port p).fault = false) {out : Bool}
    (hout : out = decide ((s.port p).dead < ((u : Int) - ((s.port p).centre : Int)).natAbs)) :
    (s.validCycle p u).port p = { s.port p with lever := u, outside := out } ∧ (s.validCycle p u).evt = s.evt ∧
    (s.validCycle p u).mail.portNotes.get p = s.mail.portNotes.get p ++
      (if (s.port p).outside = false ∧ out = true then (s.port p).binding.toList.map PortNote.takeover else []) ∧
    ∀ q, q ≠ p → (s.validCycle p u).mail.portNotes.get q = s.mail.portNotes.get q := by
  obtain ⟨hport, hevt, hself, hother⟩ := (s.setPort p { s.port p with lever := u }).zoneCycle_eq p
  rw [State.setPort_port, if_pos rfl] at hport hself
  rw [State.validCycle_of_good h]
  subst hout
  exact ⟨hport, hevt, hself, hother⟩

theorem State.validCycle_counts (h : (s.port p).fault = true) (hr : (s.port p).restore < 3) :
    s.validCycle p u = s.setPort p { s.port p with lever := u, restore := (s.port p).restore + 1 } := by
  rw [State.validCycle_of_fault h, State.restoreLever, State.setPort_port, if_pos rfl,
    if_pos (show (s.port p).restore + 1 < 4 by omega), State.setPort_setPort]

theorem State.validCycle_restores (h : (s.port p).fault = true) (hr : 3 ≤ (s.port p).restore) {out : Bool}
    (hout : out = decide ((s.port p).dead < ((u : Int) - ((s.port p).centre : Int)).natAbs)) :
    s.validCycle p u =
      (s.setPort p { s.port p with lever := u, fault := false, restore := 0, outside := out }).raise .panelRestored .none
        p.val 0 (BitVec.ofNat 32 u) := by
  subst hout
  rw [State.validCycle_of_fault h, State.restoreLever, State.setPort_port, if_pos rfl,
    if_neg (show ¬ (s.port p).restore + 1 < 4 by omega), State.setPort_setPort]
  rfl

end

/-! ## The no-edge timer (R132) -/

theorem State.noEdgeExpiry_eq (s : State) (p : PortId) : s.noEdgeExpiry p =
    ((s.setTime ((s.port p).noEdge + 25000)).setPort p
      { s.port p with cycle := none, noEdge := (s.port p).noEdge + 25000 }).faultLever p .noEdge 25000 := rfl

section
variable (s : State) (p : PortId) (y : Port)

/-- What a fault leaves of the port, the event unit and the mail, where the edge has set the port to `y`. -/
theorem State.faultLever_leaves (why : Reason) (v : Nat) :
    ((s.setPort p y).faultLever p why v).mail = s.mail ∧
    (y.fault = false →
      ((s.setPort p y).faultLever p why v).port p = { y with fault := true, restore := 0, outside := false } ∧
      ((s.setPort p y).faultLever p why v).evt = s.evt.posted .panelFault why p.val 0 (BitVec.ofNat 32 v) s.ref.count) ∧
    (y.fault = true →
      ((s.setPort p y).faultLever p why v).port p = { y with restore := 0 } ∧
      ((s.setPort p y).faultLever p why v).evt = s.evt) := by
  have hport : (s.setPort p y).port p = y := (State.setPort_port ..).trans (if_pos rfl)
  have hself (z : Port) : ((s.setPort p y).setPort p z).port p = z := (State.setPort_port ..).trans (if_pos rfl)
  refine ⟨?_, fun h => ?_, fun h => ?_⟩
  · unfold State.faultLever
    split <;> rfl
  · rw [State.faultLever_of_good (by rw [hport, h]), hport]
    exact ⟨hself _, rfl⟩
  · rw [State.faultLever_of_fault (by rw [hport, h]), hport]
    exact ⟨hself _, rfl⟩

/-- What a valid cycle leaves of them: the zone out of fault; in fault the restore count, or at its end the restore. -/
theorem State.validCycle_leaves (u : Nat) {out : Bool} (hout : out = decide (y.dead < ((u : Int) - (y.centre : Int)).natAbs)) :
    (y.fault = false →
      ((s.setPort p y).validCycle p u).port p = { y with lever := u, outside := out } ∧
      ((s.setPort p y).validCycle p u).evt = s.evt ∧
      ((s.setPort p y).validCycle p u).mail.portNotes.get p = s.mail.portNotes.get p ++
        (if y.outside = false ∧ out = true then y.binding.toList.map PortNote.takeover else []) ∧
      ∀ q, q ≠ p → ((s.setPort p y).validCycle p u).mail.portNotes.get q = s.mail.portNotes.get q) ∧
    (y.fault = true → y.restore < 3 →
      ((s.setPort p y).validCycle p u).evt = s.evt ∧ ((s.setPort p y).validCycle p u).mail = s.mail ∧
      ((s.setPort p y).validCycle p u).port p = { y with lever := u, restore := y.restore + 1 }) ∧
    (y.fault = true → 3 ≤ y.restore →
      ((s.setPort p y).validCycle p u).mail = s.mail ∧
      ((s.setPort p y).validCycle p u).port p = { y with lever := u, fault := false, restore := 0, outside := out } ∧
      ((s.setPort p y).validCycle p u).evt = s.evt.posted .panelRestored .none p.val 0 (BitVec.ofNat 32 u) s.ref.count) := by
  have hport : (s.setPort p y).port p = y := (State.setPort_port ..).trans (if_pos rfl)
  have hself (z : Port) : ((s.setPort p y).setPort p z).port p = z := (State.setPort_port ..).trans (if_pos rfl)
  refine ⟨fun hf => ?_, fun hf hr => ?_, fun hf hr => ?_⟩
  · obtain ⟨hy, hevt, hnotes, hother⟩ := State.validCycle_zone (s := s.setPort p y) (u := u) (out := out) (by rw [hport, hf]) (by rw [hport, hout])
    rw [hport] at hy hnotes
    exact ⟨hy, hevt, hnotes, hother⟩
  · rw [State.validCycle_counts (by rw [hport, hf]) (by rw [hport]; exact hr), hport]
    exact ⟨rfl, rfl, hself _⟩
  · rw [State.validCycle_restores (out := out) (by rw [hport, hf]) (by rw [hport]; exact hr) (by rw [hport, hout]), hport]
    exact ⟨rfl, hself _, rfl⟩

end

/-- Settles O55: an edge changes its port, the event unit and the port's notices; which of them, the closed cycle decides. -/
theorem leverCyclesAreJudged : Obligations.LeverCyclesAreJudged := by
  unfold Obligations.LeverCyclesAreJudged
  rintro s p level time now rfl
  refine ⟨fun hsame => ?same, fun hlev hdue => ?edge, ?timer⟩
  case same =>
    show Host.Outcome.next (s.levEdge p level time) = _
    rw [State.levEdge, if_pos hsame]
  case edge =>
    have hexec : exec (.levEdge p level time) s = .next ((s.setTime time).edge p level) :=
      congrArg Host.Outcome.next (s.levEdge_eq p level time hlev hdue)
    have hbeside := (s.setTime time).onPort_edge p level
    refine ⟨_, hexec, hbeside.others, hbeside.frame, fun hact => ?inactive, fun hact hc => ?first,
      fun c per act hact hc hper hactive => ?closes⟩
    case inactive =>
      rw [State.edge_inactive (s := s.setTime time) hact]
      exact ⟨rfl, rfl, (State.setPort_port ..).trans (if_pos rfl)⟩
    case first =>
      rw [State.edge_first (s := s.setTime time) hact hc]
      exact ⟨rfl, rfl, (State.setPort_port ..).trans (if_pos rfl)⟩
    case closes =>
      rw [State.edge_closes (s := s.setTime time) hact hc, show (s.setTime time).now - c.start = per from hper.symm, ← hactive]
      refine ⟨fun why v hbad => ?_, fun u out hlo hhi hpos hne hu hout => ?_⟩
      · rw [State.closeCycle_invalid (cycleFault_eq hbad)]
        exact State.faultLever_leaves ..
      · rw [State.closeCycle_valid _ _ _ _ hlo hhi hpos hne, ← hu]
        obtain ⟨hzone, hcount, hrestore⟩ := (s.setTime time).validCycle_leaves p { s.port p with
          lev := level, noEdge := max s.now time, cycle := some { start := max s.now time } } u hout
        refine ⟨fun hf => ?_, fun hf hr => ?_, fun hf hr => ?_⟩
        · obtain ⟨hy, hevt, hself, hother⟩ := hzone hf
          exact ⟨hy, hevt, hself, hother⟩
        · exact hcount hf hr
        · exact hrestore hf hr
  case timer =>
    obtain ⟨hm, hgood, hfault⟩ := (s.setTime ((s.port p).noEdge + 25000)).faultLever_leaves p
      { s.port p with cycle := none, noEdge := (s.port p).noEdge + 25000 } .noEdge 25000
    have hbeside := (State.onPort_setPort (s.setTime ((s.port p).noEdge + 25000)) p
      { s.port p with cycle := none, noEdge := (s.port p).noEdge + 25000 }).trans
        (State.onPort_faultLever _ p .noEdge 25000)
    rw [← State.noEdgeExpiry_eq] at hm hgood hfault hbeside
    have hframe := hbeside.frame
    rw [hm] at hframe
    exact ⟨_, _, rfl, rfl, (congrArg State.now hframe :), hgood, hfault, hbeside.others, hframe.trans (by rw [hframe]; rfl)⟩

end Sys2Proof.Machine
end

section
/-! PROOFS. JogAndKeys.lean: the jog lines, the decoder behind them, and the key lines (R139 to R142). -/

namespace Sys2Proof.Machine

/-! ## The decoder (R138, R140) -/

theorem Port.step_frame (x : Port) (d : Int) : x.step d = { x with jog := (x.step d).jog } := by
  unfold Port.step
  split <;> rfl

theorem Port.step_jog (x : Port) (d : Int) :
    (x.binding = none → (x.step d).jog = x.jog) ∧ (x.binding ≠ none → fittedRate 127 (x.jog + d) (x.step d).jog) := by
  unfold Port.step
  cases hb : x.binding with
  | none => exact ⟨fun _ => rfl, fun h => absurd rfl h⟩
  | some h => exact ⟨fun h => (Option.some_ne_none _ h).elim, fun _ => fittedRate_clampInt 127 _ (by decide)⟩

theorem Port.quarter_frame (x : Port) (d : Int) :
    x.quarter d = { x with quarters := (x.quarter d).quarters, jog := (x.quarter d).jog } := by
  unfold Port.quarter
  split_ifs
  · rw [Port.step_frame]
  · rw [Port.step_frame]
  · rfl

/-- A quarter that forms no step is counted. -/
theorem Port.quarter_of_counted {x : Port} {d : Int} (hlo : -(x.quartersPerStep : Int) < x.quarters + d)
    (hhi : x.quarters + d < x.quartersPerStep) : x.quarter d = { x with quarters := x.quarters + d } := by
  rw [Port.quarter, if_neg (by omega), if_neg (by omega)]

/-- A quarter that completes a step forms it. -/
theorem Port.quarter_of_step {x : Port} {d : Int} (hd : d = 1 ∨ d = -1) (h : x.quarters + d = d * x.quartersPerStep)
    (hq : 1 ≤ x.quartersPerStep) : x.quarter d = Port.step { x with quarters := 0 } d := by
  rcases hd with rfl | rfl
  · rw [Port.quarter, if_pos (by omega)]
  · rw [Port.quarter, if_neg (by omega), if_pos (by omega)]

theorem Port.decode_frame (x : Port) (turn : Nat) : x.decode turn =
    { x with quarters := (x.decode turn).quarters, jog := (x.decode turn).jog, jogErrors := (x.decode turn).jogErrors } := by
  unfold Port.decode
  split
  · rfl
  · rw [Port.quarter_frame]
  · rfl
  · rw [Port.quarter_frame]

theorem Port.quarter_jogErrors (x : Port) (d : Int) : (x.quarter d).jogErrors = x.jogErrors := by
  rw [Port.quarter_frame]

/-- A quarter in direction `dir`, counted or formed into a step. -/
theorem Port.quarter_counts {x : Port} {dir : Int} (hd : dir = 1 ∨ dir = -1) :
    (-(x.quartersPerStep : Int) < x.quarters + dir → x.quarters + dir < x.quartersPerStep →
      (x.quarter dir).quarters = x.quarters + dir ∧ (x.quarter dir).jog = x.jog) ∧
    (x.quarters + dir = dir * x.quartersPerStep → 1 ≤ x.quartersPerStep →
      (x.quarter dir).quarters = 0 ∧ (x.binding = none → (x.quarter dir).jog = x.jog) ∧
        (x.binding ≠ none → fittedRate 127 (x.jog + dir) (x.quarter dir).jog)) := by
  refine ⟨fun hlo hhi => ?_, fun hstep hq => ?_⟩
  · rw [Port.quarter_of_counted hlo hhi]
    exact ⟨rfl, rfl⟩
  · rw [Port.quarter_of_step hd hstep hq]
    exact ⟨by rw [Port.step_frame], Port.step_jog { x with quarters := 0 } dir⟩

/-- The decoder does with a turn of the filtered pair what R140 says. -/
theorem Port.turned_decode (x : Port) {turn : Nat} (h : turn < 4) : x.turned (x.decode turn) turn := by
  interval_cases turn
  · refine ⟨fun h => absurd h (by decide), fun _ => rfl, fun _ => ⟨rfl, rfl⟩, fun dir hdir => ?_⟩
    rcases hdir with ⟨h, -⟩ | ⟨h, -⟩ <;> exact absurd h (by decide)
  · refine ⟨fun h => absurd h (by decide), fun _ => x.quarter_jogErrors 1, fun h => absurd h (by decide), fun dir hdir => ?_⟩
    obtain rfl : dir = 1 := by
      rcases hdir with ⟨-, h⟩ | ⟨h, -⟩
      · exact h
      · exact absurd h (by decide)
    exact Port.quarter_counts (.inl rfl)
  · refine ⟨fun _ => rfl, fun h => absurd rfl h, fun _ => ⟨rfl, rfl⟩, fun dir hdir => ?_⟩
    rcases hdir with ⟨h, -⟩ | ⟨h, -⟩ <;> exact absurd h (by decide)
  · refine ⟨fun h => absurd h (by decide), fun _ => x.quarter_jogErrors (-1), fun h => absurd h (by decide), fun dir hdir => ?_⟩
    obtain rfl : dir = -1 := by
      rcases hdir with ⟨h, -⟩ | ⟨-, h⟩
      · exact absurd h (by decide)
      · exact h
    exact Port.quarter_counts (.inr rfl)

/-- The jog lines take new records: the decoder takes the turn of the filtered pair. -/
theorem Port.setJog_turned (x : Port) (ja jb : JogLine) {turn : Nat}
    (h : turn = (jogPlace ja.filtered jb.filtered + 4 - jogPlace x.ja.filtered x.jb.filtered) % 4) :
    (x.setJog ja jb).ja = ja ∧ (x.setJog ja jb).jb = jb ∧
    x.setJog ja jb = { x with
      ja := ja, jb := jb, quarters := (x.setJog ja jb).quarters, jog := (x.setJog ja jb).jog
      jogErrors := (x.setJog ja jb).jogErrors } ∧
    x.turned (x.setJog ja jb) turn := by
  have hset : x.setJog ja jb = Port.decode { x with ja, jb } turn := h ▸ rfl
  rw [hset]
  have hframe := Port.decode_frame { x with ja, jb } turn
  exact ⟨(congrArg Port.ja hframe :), (congrArg Port.jb hframe :), hframe,
    Port.turned_decode { x with ja, jb } (h ▸ Nat.mod_lt _ (by decide))⟩

/-! ## The jog lines (R139) -/

/-- The earlier end of the two lines' qualifications. -/
theorem Port.jogDue_eq {x : Port} {d : Nat} (hone : x.ja.due x.filter = some d ∨ x.jb.due x.filter = some d)
    (hmin : ∀ e, x.ja.due x.filter = some e ∨ x.jb.due x.filter = some e → d ≤ e) : x.jogDue = some d := by
  unfold Port.jogDue
  cases ha : x.ja.due x.filter with
  | none =>
    rw [ha] at hone
    rcases hone with h | h
    · cases h
    · exact h
  | some a =>
    have hda : d ≤ a := hmin a (.inl ha)
    cases hb : x.jb.due x.filter with
    | none =>
      rw [ha, hb] at hone
      rcases hone with h | h
      · exact h
      · cases h
    | some b =>
      have hdb : d ≤ b := hmin b (.inr hb)
      rw [ha, hb, Option.some.injEq, Option.some.injEq] at hone
      exact congrArg some (by omega)

/-- A completion that is not due is not taken. -/
theorem Port.jogSettle_of_later {x : Port} {t : Nat}
    (h : ∀ e, x.ja.due x.filter = some e ∨ x.jb.due x.filter = some e → t < e) : x.jogSettle t = x := by
  have hdue : ∀ d, x.jogDue = some d → t < d := by
    intro d hd
    unfold Port.jogDue at hd
    cases ha : x.ja.due x.filter with
    | none =>
      rw [ha] at hd
      exact h d (.inr hd)
    | some a =>
      have hta := h a (.inl ha)
      cases hb : x.jb.due x.filter with
      | none =>
        rw [ha, hb] at hd
        cases hd
        exact hta
      | some b =>
        have htb := h b (.inr hb)
        rw [ha, hb] at hd
        cases hd
        omega
  rw [Port.jogSettle, if_neg]
  cases hd : x.jogDue with
  | none => simp
  | some d => simpa using hdue d hd

theorem Port.jogSettle_of_due {x : Port} {d t : Nat} (h : x.jogDue = some d) (hle : d ≤ t) :
    x.jogSettle t = x.setJog (if x.ja.due x.filter = some d then x.ja.accepted else x.ja)
      (if x.jb.due x.filter = some d then x.jb.accepted else x.jb) := by
  rw [Port.jogSettle, if_pos (by rw [h]; simpa using hle), Port.jogComplete, h]

theorem JogLine.due_eq_some {l : JogLine} {f e : Nat} : l.due f = some e ↔ ∃ q, l.qual = some q ∧ q + f = e := by
  simp [JogLine.due]

/-- A line's change, by its level and its filtered level. -/
theorem JogLine.change_eq (l : JogLine) (level : Bool) (t : Nat) : l.change level t =
    { level := level, filtered := l.filtered
      qual := if level = l.level then l.qual else if level = l.filtered then none else some t } := by
  unfold JogLine.change
  split_ifs with h1 h2
  · subst h1
    rfl
  · rfl
  · rfl

theorem exec_jogLineChange (s : State) (p : PortId) (ja jb : Bool) (time : Nat) :
    exec (.jogLineChange p ja jb time) s =
      .next ((s.setTime time).setPort p ((s.port p).jogChange ja jb (max s.now time))) := rfl

theorem exec_jogFilterExpiry {s : State} {p : PortId} {d : Nat} (h : (s.port p).jogDue = some d) :
    exec (.jogFilterExpiry p) s = .next ((s.setTime d).setPort p (s.port p).jogComplete) := by
  show Host.Outcome.next (s.jogExpiry p) = _
  rw [State.jogExpiry, h]

/-- A new level with no completion due: the lines change, and nothing is decoded. -/
theorem Port.jogChange_of_later {x : Port} {now : Nat} (hf : 0 < x.filter)
    (h : ∀ e, x.ja.qual = some e ∨ x.jb.qual = some e → now < e + x.filter) (ja jb : Bool) :
    x.jogChange ja jb now = { x with ja := x.ja.change ja now, jb := x.jb.change jb now } := by
  have hlater : ∀ e, x.ja.due x.filter = some e ∨ x.jb.due x.filter = some e → now < e := by
    rintro e (he | he) <;> obtain ⟨q, hq, rfl⟩ := JogLine.due_eq_some.1 he
    · exact h q (.inl hq)
    · exact h q (.inr hq)
  have hchanged : ∀ (l : JogLine) (level : Bool), (∀ e, l.qual = some e → now < e + x.filter) →
      ∀ e, (l.change level now).due x.filter = some e → now < e := by
    intro l level hl e he
    rw [JogLine.change_eq] at he
    obtain ⟨q, hq, rfl⟩ := JogLine.due_eq_some.1 he
    dsimp only at hq
    split_ifs at hq
    · exact hl q hq
    · cases hq
      omega
  rw [Port.jogChange, Port.jogSettle_of_later hlater, Port.jogSettle_of_later hlater]
  refine Port.jogSettle_of_later fun e he => ?_
  rcases he with he | he
  · exact hchanged x.ja ja (fun e he => h e (.inl he)) e he
  · exact hchanged x.jb jb (fun e he => h e (.inr he)) e he

/-- The filtered level of a line after a change with F = 0. -/
def JogLine.taken (l : JogLine) (level : Bool) : Bool := if level = l.level then l.filtered else level

/-- With F = 0 a line without a qualification takes a change at once. -/
theorem JogLine.settled_of_zero {l : JogLine} (h : l.qual = none) (level : Bool) (now : Nat) :
    (∀ e, (l.change level now).due 0 = some e → e = now) ∧
    (if (l.change level now).due 0 = some now then (l.change level now).accepted else l.change level now) =
      { level := level, filtered := l.taken level, qual := none } ∧
    ((l.change level now).due 0 = none → l.taken level = l.filtered) := by
  rw [JogLine.change_eq, JogLine.taken, h]
  by_cases hsame : level = l.level
  · simp [hsame, JogLine.due]
  · by_cases hback : level = l.filtered
    · simp [hsame, hback, JogLine.due]
    · simp [hsame, hback, JogLine.due, JogLine.accepted]

theorem Port.setJog_same {x : Port} {ja jb : JogLine} (ha : ja.filtered = x.ja.filtered) (hb : jb.filtered = x.jb.filtered) :
    x.setJog ja jb = { x with ja, jb } := by
  rw [Port.setJog, ha, hb, Nat.add_sub_cancel_left]
  rfl

/-- With F = 0 the lines take their levels at once, and the decoder takes the turn. -/
theorem Port.jogChange_of_zero {x : Port} (hf : x.filter = 0) (hja : x.ja.qual = none) (hjb : x.jb.qual = none)
    (ja jb : Bool) (now : Nat) :
    x.jogChange ja jb now =
      x.setJog { level := ja, filtered := x.ja.taken ja, qual := none } { level := jb, filtered := x.jb.taken jb, qual := none } := by
  have hnone : ∀ e, x.ja.due x.filter = some e ∨ x.jb.due x.filter = some e → now < e := by
    rintro e (he | he) <;> obtain ⟨q, hq, -⟩ := JogLine.due_eq_some.1 he
    · rw [hja] at hq
      cases hq
    · rw [hjb] at hq
      cases hq
  obtain ⟨hatA, haA, hstayA⟩ := JogLine.settled_of_zero hja ja now
  obtain ⟨hatB, haB, hstayB⟩ := JogLine.settled_of_zero hjb jb now
  have hfilA : (x.ja.change ja now).filtered = x.ja.filtered := by rw [JogLine.change_eq]
  have hfilB : (x.jb.change jb now).filtered = x.jb.filtered := by rw [JogLine.change_eq]
  rw [Port.jogChange, Port.jogSettle_of_later hnone, Port.jogSettle_of_later hnone]
  rw [← hf] at hatA haA hstayA hatB haB hstayB
  by_cases hdue : (x.ja.change ja now).due x.filter = some now ∨ (x.jb.change jb now).due x.filter = some now
  · rw [Port.jogSettle_of_due (d := now) (Port.jogDue_eq hdue fun e he => ?_) le_rfl]
    · dsimp only
      rw [haA, haB]
      show Port.decode _ _ = Port.decode _ _
      dsimp only
      rw [hfilA, hfilB]
    · rcases he with he | he
      · exact (hatA e he).ge
      · exact (hatB e he).ge
  · obtain ⟨hnA, hnB⟩ := not_or.1 hdue
    have hoffA : (x.ja.change ja now).due x.filter = none :=
      Option.eq_none_iff_forall_ne_some.2 fun e he => hnA (hatA e he ▸ he)
    have hoffB : (x.jb.change jb now).due x.filter = none :=
      Option.eq_none_iff_forall_ne_some.2 fun e he => hnB (hatB e he ▸ he)
    rw [if_neg hnA] at haA
    rw [if_neg hnB] at haB
    rw [Port.jogSettle_of_later, Port.setJog_same (hstayA hoffA) (hstayB hoffB), haA, haB]
    rintro e (he | he)
    · exact absurd (he.symm.trans hoffA) (Option.some_ne_none _)
    · exact absurd (he.symm.trans hoffB) (Option.some_ne_none _)

/-- The qualifications that end at the due time complete together. -/
theorem Port.jogComplete_of {x : Port} {d : Nat} (h : x.jogDue = some d) {a b : Bool}
    (ha : a = true ↔ x.ja.due x.filter = some d) (hb : b = true ↔ x.jb.due x.filter = some d) :
    x.jogComplete = x.setJog (if a then x.ja.accepted else x.ja) (if b then x.jb.accepted else x.jb) := by
  rw [Port.jogComplete, h]
  simp only [ha, hb]

theorem JogLine.filtered_ite (a : Bool) (l : JogLine) :
    (if a then l.accepted else l).filtered = if a then l.level else l.filtered := by
  cases a <;> rfl

/-! ## The keys (R141, R142) -/

theorem Port.setKey_key (x : Port) (k : Key) (y : KeyLine) : (x.setKey k y).key k = y := by
  cases k <;> rfl

theorem Port.setKey_key_of_ne (x : Port) {k j : Key} (y : KeyLine) (h : j ≠ k) : (x.setKey k y).key j = x.key j := by
  cases k <;> cases j <;> first | rfl | exact absurd rfl h

theorem KeyLine.change_eq (x : KeyLine) (level : Bool) (t : Nat) : x.change level t =
    { level := level, pressed := x.pressed
      qual := if level = x.level then x.qual else if x.pressed = !level then none else some t } := by
  unfold KeyLine.change
  split_ifs with h1 h2
  · subst h1
    rfl
  · rfl
  · rfl

theorem exec_keyLineChange {s : State} {p : PortId} {k : Key} {time : Nat}
    (h : ∀ e, ((s.port p).key k).qual = some e → max s.now time < e + (s.port p).debounce * 1000) (level : Bool) :
    exec (.keyLineChange p k level time) s =
      .next ((s.setTime time).setPort p ((s.port p).setKey k (((s.port p).key k).change level (max s.now time)))) := by
  have hlater : ¬ ((s.port p).keyDue k).any (fun d => decide (d ≤ max s.now time)) = true := by
    unfold Port.keyDue
    cases hq : ((s.port p).key k).qual with
    | none => simp
    | some e => simpa using h e hq
  show Host.Outcome.next (s.keyChange p k level time) = _
  rw [State.keyChange, if_neg hlater]

theorem exec_keyDebounceExpiry {s : State} {p : PortId} {k : Key} {e : Nat} (h : ((s.port p).key k).qual = some e) :
    exec (.keyDebounceExpiry p k) s = .next ((s.setTime (e + (s.port p).debounce * 1000)).keyAccept p k) := by
  show Host.Outcome.next (s.keyExpiry p k) = _
  rw [State.keyExpiry, Port.keyDue, h]
  rfl

/-- The accepted state becomes that of the line, and a press on a bound port hands a mark. -/
theorem State.keyAccept_eq (s : State) (p : PortId) (k : Key) :
    s.keyAccept p k =
      { s.setPort p ((s.port p).setKey k { (s.port p).key k with pressed := !((s.port p).key k).level, qual := none }) with
        mail := (s.keyAccept p k).mail } ∧
    (∀ h, ((s.port p).key k).level = false → ((s.port p).key k).pressed = false → (s.port p).binding = some h →
      (s.keyAccept p k).mail =
        { s.mail with portMarks := pushAt s.mail.portMarks p { head := h, kind := markOfKey k } }) ∧
    (((s.port p).key k).level = true ∨ ((s.port p).key k).pressed = true ∨ (s.port p).binding = none →
      (s.keyAccept p k).mail = s.mail) := by
  have hbind : ((s.setPort p ((s.port p).setKey k
      { (s.port p).key k with pressed := !((s.port p).key k).level, qual := none })).port p).binding = (s.port p).binding := by
    rw [State.setPort_port, if_pos rfl]
    cases k <;> rfl
  unfold State.keyAccept
  dsimp only
  split_ifs with hpress
  · unfold State.press
    rw [hbind]
    cases hb : (s.port p).binding with
    | none => exact ⟨rfl, fun h _ _ hh => (Option.some_ne_none _ hh.symm).elim, fun _ => rfl⟩
    | some h =>
      refine ⟨rfl, fun h' _ _ hh => Option.some.inj hh ▸ rfl, fun hno => ?_⟩
      rcases hno with hl | hl | hl
      · exact absurd (hpress.1.symm.trans hl) Bool.false_ne_true
      · exact absurd (hpress.2.symm.trans hl) Bool.false_ne_true
      · cases hl
  · exact ⟨rfl, fun h hl hp _ => absurd ⟨hl, hp⟩ hpress, fun _ => rfl⟩

/-- Settles O56: a jog line and a key line each take a change by their level and their accepted one; what completes goes to the
decoder, or as a mark to the clip manager. -/
theorem jogAndKeyLinesAreQualified : Obligations.JogAndKeyLinesAreQualified := by
  unfold Obligations.JogAndKeyLinesAreQualified
  have hself (s : State) (p : PortId) (x : Port) : (s.setPort p x).port p = x := (State.setPort_port ..).trans (if_pos rfl)
  have hother (s : State) (p : PortId) (x : Port) (q : PortId) (hq : q ≠ p) : (s.setPort p x).port q = s.port q :=
    (State.setPort_port ..).trans (if_neg hq)
  refine ⟨fun s p => ⟨?later, ?zero, ?expiry⟩, fun s p k kind hkind => ⟨?change, ?accept⟩⟩
  case later =>
    rintro ja jb time now rfl hf hlater
    rw [exec_jogLineChange, Port.jogChange_of_later hf hlater]
    refine ⟨_, rfl, ?_, ?_, ?_, hother _ p _, rfl⟩
    · rw [hself]
    · rw [hself]
      exact JogLine.change_eq ..
    · rw [hself]
      exact JogLine.change_eq ..
  case zero =>
    rintro ja jb a b time now turn rfl hf hja hjb rfl rfl hturn
    rw [exec_jogLineChange, Port.jogChange_of_zero hf hja hjb]
    obtain ⟨ha, hb, hframe, hturned⟩ := (s.port p).setJog_turned
      { level := ja, filtered := (s.port p).ja.taken ja, qual := none }
      { level := jb, filtered := (s.port p).jb.taken jb, qual := none } hturn
    refine ⟨_, rfl, ?_, ?_, ?_, ?_, hother _ p _, rfl⟩
    · rw [hself, ha]
      rfl
    · rw [hself, hb]
      rfl
    · rw [hself, ha, hb]
      exact hframe
    · rw [hself]
      exact hturned
  case expiry =>
    intro due a b turn ha hb hone hmin hturn
    have hdue : (s.port p).jogDue = some due := Port.jogDue_eq (hone.imp ha.1 hb.1) fun e he => by
      rcases he with he | he <;> obtain ⟨q, hq, rfl⟩ := JogLine.due_eq_some.1 he
      · exact hmin q (.inl hq)
      · exact hmin q (.inr hq)
    rw [exec_jogFilterExpiry hdue, Port.jogComplete_of hdue ha hb]
    obtain ⟨hja, hjb, hframe, hturned⟩ := (s.port p).setJog_turned (turn := turn)
      (if a then (s.port p).ja.accepted else (s.port p).ja) (if b then (s.port p).jb.accepted else (s.port p).jb)
      (by rw [JogLine.filtered_ite, JogLine.filtered_ite]; exact hturn)
    refine ⟨_, rfl, rfl, ?_, ?_, ?_, ?_, hother _ p _, rfl⟩
    · rw [hself, hja]
      rfl
    · rw [hself, hjb]
      rfl
    · rw [hself, hja, hjb]
      exact hframe
    · rw [hself]
      exact hturned
  case change =>
    rintro level time now rfl hlater
    rw [exec_keyLineChange hlater]
    refine ⟨_, rfl, ?_, ?_, fun j hj => ?_, hother _ p _, rfl⟩
    · rw [hself, Port.setKey_key]
      exact KeyLine.change_eq ..
    · rw [hself, Port.setKey_key]
    · rw [hself, Port.setKey_key_of_ne _ _ hj]
  case accept =>
    intro e he
    have hmark : markOfKey k = kind := by
      rcases hkind with ⟨rfl, rfl⟩ | ⟨rfl, rfl⟩ | ⟨rfl, rfl⟩ <;> rfl
    rw [exec_keyDebounceExpiry he]
    obtain ⟨hframe, hpress, hnone⟩ := (s.setTime (e + (s.port p).debounce * 1000)).keyAccept_eq p k
    have hport : ∀ q, ((s.setTime (e + (s.port p).debounce * 1000)).keyAccept p k).port q = _ := fun q =>
      (congrArg (fun x : State => x.port q) hframe).trans (State.setPort_port ..)
    have hown := (hport p).trans (if_pos rfl)
    refine ⟨_, rfl, (congrArg State.now hframe :), ?_, ?_, fun j hj => ?_, fun q hq => (hport q).trans (if_neg hq), ?_, hnone, ?_⟩
    · rw [hown, Port.setKey_key]
      rfl
    · rw [hown, Port.setKey_key]
      rfl
    · rw [hown, Port.setKey_key_of_ne _ _ hj]
      rfl
    · rw [hmark] at hpress
      exact hpress
    · exact hframe.trans (by rw [hframe]; rfl)

end Sys2Proof.Machine
end

section
/-! PROOFS. EventRing.lean: EVENT_MASK, and the records written to the event ring (R175, R177 to R179). -/

namespace Sys2Proof.Machine

/-! ## EVENT_MASK (R175) -/

theorem EventClass.ofCode_none {n : Nat} (h : 2 < n) : EventClass.ofCode n = none := by
  obtain ⟨m, rfl⟩ : ∃ m, n = m + 3 := ⟨n - 3, by omega⟩
  rfl

theorem eventMask_of_badArg {r : CmdArgs} (h : r.target.toNat = 0 ∨ 20 < r.target.toNat ∨ 2 < r.a.toNat) (s : State) :
    eventMask r s = (s, .refused .badArg) := by
  unfold eventMask
  dsimp only
  by_cases ha : 2 < r.a.toNat
  · rw [EventClass.ofCode_none ha]
  · have hcode : r.target.toNat = 0 ∨ eventKindCount < r.target.toNat := by
      rcases h with h | h | h
      · exact .inl h
      · exact .inr h
      · exact absurd h ha
    cases EventClass.ofCode r.a.toNat with
    | none => rfl
    | some c => exact if_pos hcode

/-- The class that EVENT_MASK gives kind `i + 1`. -/
def fittedClass (i : Nat) (c : EventClass) : EventClass := if i < 3 ∧ c = .off then .log else c

theorem eventMask_of_class {r : CmdArgs} {i : Nat} {c : EventClass} (ht : r.target.toNat = i + 1) (hi : i < 20)
    (hc : EventClass.ofCode r.a.toNat = some c) (s : State) :
    eventMask r s =
      (s.setEvt { s.evt with classes := s.evt.classes.set i (fittedClass i c) },
        doneOrClamped (i < 3 ∧ c = .off) (BitVec.ofNat 32 (s.evt.classes.getD i .off).code)) := by
  have hkept : isKeptKind (i + 1) = decide (i < 3) := by
    rw [isKeptKind, Bool.eq_iff_iff, Bool.and_eq_true, decide_eq_true_iff, decide_eq_true_iff, decide_eq_true_iff]
    omega
  have hfit : (if isKeptKind (i + 1) = true ∧ c = .off then EventClass.log else c) = fittedClass i c := by
    simp only [hkept, decide_eq_true_iff, fittedClass]
  have hclamp : (fittedClass i c ≠ c) ↔ (i < 3 ∧ c = .off) := by
    unfold fittedClass
    split_ifs with h
    · exact ⟨fun _ => h, fun _ => by rw [h.2]; decide⟩
    · exact ⟨fun hne => absurd rfl hne, fun h' => absurd h' h⟩
  have hcode : ¬ (i + 1 = 0 ∨ eventKindCount < i + 1) := by
    show ¬ (i + 1 = 0 ∨ 20 < i + 1)
    omega
  unfold eventMask
  dsimp only
  rw [hc, ht]
  dsimp only
  rw [if_neg hcode, hfit, Nat.add_sub_cancel, CmdResult.fitted_eq_doneOrClamped]
  simp only [hclamp]

/-- Settles O57: the class of the code is set, raised for the kept kinds. -/
theorem eventMaskSetsOneClass : Obligations.EventMaskSetsOneClass := by
  unfold Obligations.EventMaskSetsOneClass
  intro s r i old new hs hsound
  refine ⟨fun hbad => ⟨_, rfl, State.carryOut_refused hs fun k => eventMask_of_badArg hbad _⟩, fun ht hi ha hold hnew => ?_⟩
  obtain ⟨c, hc, hfit, hoff⟩ : ∃ c, EventClass.ofCode r.a.toNat = some c ∧ fittedClass i c = new ∧ (c = .off ↔ r.a.toNat = 0) := by
    unfold fittedClass
    rcases hnew with ⟨hlow, h0, rfl⟩ | ⟨hhigh, h0, rfl⟩ | ⟨h1, rfl⟩ | ⟨h2, rfl⟩
    · exact ⟨.off, by rw [h0]; rfl, if_pos ⟨hlow, rfl⟩, by simp [h0]⟩
    · exact ⟨.off, by rw [h0]; rfl, if_neg (by omega), by simp [h0]⟩
    · exact ⟨.log, by rw [h1]; rfl, if_neg (by simp), by simp [h1]⟩
    · exact ⟨.logInt, by rw [h2]; rfl, if_neg (by simp), by simp [h2]⟩
  have hget : s.evt.classes.getD i .off = old := by rw [List.getD_eq_getElem?_getD, hold, Option.getD_some]
  have hans := State.carryOut_answered_beside (kind := 0x15) (r := r) (own := eventMask r) hs
    (s.setEvt { s.evt with classes := s.evt.classes.set i (fittedClass i c) })
    (doneOrClamped (i < 3 ∧ c = .off) (BitVec.ofNat 32 (s.evt.classes.getD i .off).code))
    (fun k => eventMask_of_class ht hi hc (s.taken k 0x15 r)) rfl rfl
  have hevt : (s.carryOut 0x15 r (eventMask r)).evt.classes = s.evt.classes.set i new := by
    rw [hans.evt, hfit]
    rfl
  have hlt : i < s.evt.classes.length := (List.getElem?_eq_some_iff.1 hold).1
  refine ⟨_, rfl, ?_, ?_, fun j hj => ?_, ?_⟩
  · have hended := hans.ended
    simp only [hget, hoff] at hended
    exact hended
  · rw [hevt, List.getElem?_set_self hlt]
  · rw [hevt, List.getElem?_set_ne hj.symm]
  · rw [hevt, ← hfit]
    exact hans.eq

/-! ## A record begun (R178) -/

section
variable {s : State} {x : Event} {rest : List Event}

/-- The event unit may begin its oldest staged record. -/
theorem State.beginRecord_eq (hphase : s.evt.phase = .idle) (hfifo : s.evt.fifo = x :: rest) (hcmd : s.startUp.cmdWait = false)
    (hevt : s.startUp.evtWait = false) :
    s.beginRecord =
      if 0 < s.evt.lost ∧ s.evt.lostDone = false then
        if 2 ≤ s.evt.free then s.writeRecord (s.lostRecord s.evt.lost) (.lost s.evt.lost (s.evt.classOf .eventsLost))
        else s.setEvt s.evt.dropFront
      else if s.evt.free = 0 then s.setEvt s.evt.dropFront
      else s.writeRecord x .staged := by
  have hover : ¬ (!s.startUp.over) = true := by simp [StartUp.over, hcmd, hevt]
  rw [State.beginRecord, hphase, hfifo]
  dsimp only
  rw [if_neg hover]

theorem EventUnit.free_eq (e : EventUnit) : e.free = 511 - (e.producer - e.consumer).toNat := rfl

end

/-! ## A record ended (R178, R179) -/

theorem exec_eventRecordWriteComplete {s : State} {k : Nat} (h : s.inTime .eventRecord k) (st : Status) :
    exec (.eventRecordWriteComplete st) s = .next ((s.leaveOwn k).recordEnd st) := by
  show Host.Outcome.next (s.eventRecordEnd st) = _
  rw [State.eventRecordEnd, State.ownComplete_of_inTime h]

theorem exec_evtProducerWriteComplete {s : State} {k : Nat} (h : s.inTime .eventProducer k) (st : Status) :
    exec (.evtProducerWriteComplete st) s = .next ((s.leaveOwn k).producerEnd st) := by
  show Host.Outcome.next (s.evtProducerEnd st) = _
  rw [State.evtProducerEnd, State.ownComplete_of_inTime h]

theorem State.recordEnd_good {s : State} {w : Writing} (h : s.evt.phase = .record w) :
    s.recordEnd .good = s.recordWritten w := by
  rw [State.recordEnd, h]

theorem State.recordEnd_error {s : State} {w : Writing} (h : s.evt.phase = .record w) :
    s.recordEnd .error = s.recordFailed w := by
  rw [State.recordEnd, h]

theorem flagAfter_eq (old : Bool) (c : EventClass) : flagAfter old c = (old || decide (c = .logInt)) := by
  cases c <;> simp [flagAfter]

/-- What every record written changes in the unit. -/
theorem EventUnit.written_eq (e : EventUnit) (w : Writing) :
    (e.written w).producer = e.producer + 1 ∧ (e.written w).seq = e.seq + 1 ∧ (e.written w).phase = .producer ∧
    e.written w = { e with
      producer := (e.written w).producer, seq := (e.written w).seq, phase := (e.written w).phase, fifo := (e.written w).fifo
      lost := (e.written w).lost, intFlag := (e.written w).intFlag, resetDone := (e.written w).resetDone
      lostDone := (e.written w).lostDone } := by
  cases w <;> exact ⟨rfl, rfl, rfl, rfl⟩

theorem State.recordWritten_eq (s : State) (w : Writing) : s.recordWritten w =
    { s with
      evt := s.evt.written w
      mem := s.mem.queueOwn (.write .eventProducer (s.control 0x8) (bytes32 (s.evt.producer + 1))) } := by
  rw [State.recordWritten, (s.evt.written_eq w).1]
  rfl

/-- Settles O58: each branch of the unit's steps, in the order the unit takes them. -/
theorem eventRecordsAreWrittenInOrder : Obligations.EventRecordsAreWrittenInOrder := by
  unfold Obligations.EventRecordsAreWrittenInOrder
  refine ⟨fun s x rest free hphase hfifo hcmd hevt hfree => ?begun, fun s k => ⟨fun w hphase hin => ⟨?good, ?staged, ?lost, ?reset⟩,
    fun hphase hin => ⟨?producerGood, ?producerError⟩⟩⟩
  case begun =>
    have hexec : exec .eventRecordWrite s = .next s.beginRecord := rfl
    have hdrop : s.evt.dropFront =
        { s.evt with fifo := rest, lost := min (s.evt.lost + 1) 4294967295, lostDone := false } := by
      rw [EventUnit.dropFront, hfifo]
      rfl
    rw [hexec, State.beginRecord_eq hphase hfifo hcmd hevt, EventUnit.free_eq, ← hfree]
    refine ⟨fun hnone hroom => ?_, fun hlost hdone hroom => ?_, fun hfull => ?_⟩
    · rw [if_neg (by rintro ⟨h, h'⟩; rcases hnone with e | e
                     · omega
                     · exact absurd (h'.symm.trans e) Bool.false_ne_true), if_neg (by omega)]
      rfl
    · rw [if_pos ⟨hlost, hdone⟩, if_pos hroom]
      rfl
    · rw [hdrop]
      rcases hfull with ⟨hlost, hdone, hroom⟩ | ⟨hnone, hroom⟩
      · rw [if_pos ⟨hlost, hdone⟩, if_neg (by omega)]
        rfl
      · rw [if_neg (by rintro ⟨h, h'⟩; rcases hnone with e | e
                       · omega
                       · exact absurd (h'.symm.trans e) Bool.false_ne_true), if_pos hroom]
        rfl
  case good =>
    have hexec : exec (.eventRecordWriteComplete .good) s = .next ((s.leaveOwn k).recordWritten w) := by
      rw [exec_eventRecordWriteComplete hin, State.recordEnd_good (by exact hphase)]
    obtain ⟨hproducer, hseq, hnext, hframe⟩ := s.evt.written_eq w
    rw [State.recordWritten_eq] at hexec
    refine ⟨_, hexec, hproducer, hseq, hnext, ?_, ?_, ?_, hframe, rfl⟩
    · rintro rfl
      refine ⟨rfl, rfl, rfl, rfl, fun x hx => ?_⟩
      show flagAfter s.evt.intFlag (s.evt.resetDone.map (·.cls) |>.getD .off) = _
      rw [hx, flagAfter_eq]
      rfl
    · rintro n c rfl
      exact ⟨rfl, rfl, rfl, rfl, flagAfter_eq ..⟩
    · rintro x rest rfl hfifo
      refine ⟨?_, rfl, rfl, rfl, ?_⟩
      · show s.evt.fifo.tail = rest
        rw [hfifo]
        rfl
      · show flagAfter s.evt.intFlag (s.evt.fifo.head?.map (·.cls) |>.getD .off) = _
        rw [hfifo, flagAfter_eq]
        rfl
  case staged =>
    rintro rfl
    rw [exec_eventRecordWriteComplete hin, State.recordEnd_error (by exact hphase)]
    rfl
  case lost =>
    rintro n c rfl
    rw [exec_eventRecordWriteComplete hin, State.recordEnd_error (by exact hphase)]
    rfl
  case reset =>
    rintro x rfl hx
    have hsame : s.evt = { s.evt with phase := .record .resetDone } := by rw [← hphase]
    rw [exec_eventRecordWriteComplete hin, State.recordEnd_error (by exact hphase)]
    have hfailed : (s.leaveOwn k).recordFailed .resetDone = (s.leaveOwn k).writeRecord x .resetDone := by
      rw [State.recordFailed, State.writeResetDone, show (s.leaveOwn k).evt.resetDone = some x from hx]
    rw [hfailed]
    refine congrArg Host.Outcome.next ?_
    conv_rhs => rw [show s = { s with evt := { s.evt with phase := .record .resetDone } } from by rw [← hsame]]
    rfl
  case producerGood =>
    rw [exec_evtProducerWriteComplete hin, State.producerEnd, show (s.leaveOwn k).evt.phase = .producer from hphase]
    rfl
  case producerError =>
    rw [exec_evtProducerWriteComplete hin, State.producerEnd, show (s.leaveOwn k).evt.phase = .producer from hphase]
    dsimp only
    cases hfault : (s.leaveOwn k).evt.producerFault with
    | true =>
      refine ⟨_, rfl, fun _ => ?_, fun h => absurd (hfault.symm.trans h) (by decide)⟩
      show { s.evt with phase := .idle, producerFault := true } = _
      rw [← hfault]
      rfl
    | false => exact ⟨_, rfl, fun h => absurd (hfault.symm.trans h) (by decide), fun _ => rfl⟩

end Sys2Proof.Machine
end

section
/-! PROOFS. Reports.lean: the fields of the reports at their offsets (11.6). -/

namespace Sys2Proof.Machine

/-! ## Reading a record from an offset on -/

theorem getD_drop (bs : List Byte) (n i : Nat) : (bs.drop n).getD i 0 = bs.getD (n + i) 0 := by
  rw [List.getD_eq_getElem?_getD, List.getElem?_drop, ← List.getD_eq_getElem?_getD]

theorem half_drop (bs : List Byte) (n i : Nat) : half (bs.drop n) i = half bs (n + i) := by
  rw [half, half, getD_drop, getD_drop, Nat.add_assoc]

theorem word_drop (bs : List Byte) (n i : Nat) : word (bs.drop n) i = word bs (n + i) := by
  simp only [word, getD_drop, Nat.add_assoc]

/-- Entries of one length: the entry of an item begins at its place. -/
theorem drop_flatten_map {α : Type} {f : α → List Byte} {n : Nat} (hn : ∀ x, (f x).length = n) (tail : List Byte) {l : List α}
    {i : Nat} {x : α} (h : l[i]? = some x) : ∃ rest, ((l.map f).flatten ++ tail).drop (n * i) = f x ++ rest := by
  induction l generalizing i with
  | nil => simp at h
  | cons y l ih =>
    rw [List.map_cons, List.flatten_cons, List.append_assoc]
    cases i with
    | zero =>
      obtain rfl : y = x := by simpa using h
      exact ⟨_, List.drop_zero⟩
    | succ i =>
      obtain ⟨rest, hrest⟩ := ih (by simpa using h)
      refine ⟨rest, ?_⟩
      rw [Nat.mul_succ, Nat.add_comm, ← List.drop_drop, List.drop_left' (hn y), hrest]

theorem length_flatten_map {α : Type} {f : α → List Byte} {n : Nat} (hn : ∀ x, (f x).length = n) (l : List α) :
    ((l.map f).flatten).length = n * l.length := by
  induction l with
  | nil => rfl
  | cons y l ih => rw [List.map_cons, List.flatten_cons, List.length_append, ih, hn, List.length_cons, Nat.mul_succ, Nat.add_comm]

/-! ## The entries of a snapshot -/

theorem flagIs_flag (b : Bool) : flagIs (BitVec.ofNat 8 (if b then 1 else 0)) b := by
  cases b <;> rfl

theorem generalBytes_fields (d r p e : State) (rest : List Byte)
    (hcur : ∀ cur, p.proc.current = some cur → rest.take 32 = cur.bytes cur.args.flags) :
    generalFields d r p e (generalBytes d r p e ++ rest) := by
  simp only [generalFields, half, word, generalBytes, u8, u16, u32, flagByte, u8OrNone, u16OrNone, u32OrNone, bytes16, bytes32, 
    List.cons_append, List.nil_append, List.getD_cons_succ, List.getD_cons_zero,
    append_byteAt_half, append_byteAt_word, true_and, and_true, List.drop_succ_cons, List.drop_zero]
  refine ⟨flagIs_flag _, fun h => ?_, fun h => ?_, fun h => ?_, fun h => ?_, flagIs_flag _, flagIs_flag _, flagIs_flag _, hcur⟩
  all_goals
    rw [h]
    rfl

theorem Channel.bytes_fields (c : Channel) (rest : List Byte) : channelFields c (c.bytes ++ rest) := by
  simp only [channelFields, half, word, Channel.bytes, u8, u16, u32, flagByte, u8OrNone, u16OrNone, u32OrNone, bytes16, bytes32, 
    List.cons_append, List.nil_append, List.getD_cons_succ, List.getD_cons_zero,
    append_byteAt_half, append_byteAt_word, true_and, and_true]
  cases c.state <;> exact ⟨rfl, rfl⟩

theorem sourceFields_of (x : Src) : sourceFields (BitVec.ofNat 8 x.kind) (BitVec.ofNat 8 x.object) x := by
  cases x <;> exact ⟨rfl, rfl⟩

theorem Head.bytes_fields (h : Head) (rest : List Byte) : headFields h (h.bytes ++ rest) := by
  simp only [headFields, half, word, Head.bytes, u8, u16, u32, flagByte, u8OrNone, u16OrNone, u32OrNone, bytes16, bytes32, 
    List.cons_append, List.nil_append, List.getD_cons_succ, List.getD_cons_zero,
    append_byteAt_half, append_byteAt_word, true_and, and_true]
  refine ⟨sourceFields_of h.src, ?mode, ?owner, ?flags, ?pos, ?chan, ?goto, ?slot, ?rfn, ?trailing, fun d hd => ?shown,
    fun hd => ?nothing⟩
  case mode => cases h.endMode <;> rfl
  case owner => cases h.owner <;> rfl
  case flags => cases h.attached <;> rfl
  case pos => exact BitVec.eq_of_toNat_eq (by simp)
  case chan => cases h.shown <;> rfl
  case goto => cases h.goto <;> rfl
  case slot => cases h.shown <;> rfl
  case rfn => cases h.shown <;> rfl
  case trailing => cases h.trailing <;> rfl
  case shown =>
    rw [hd]
    exact sourceFields_of d.src
  case nothing =>
    rw [hd]
    exact ⟨rfl, rfl⟩

/-- A port's entry before its knots. -/
def Port.headBytes (p : Port) : List Byte :=
  u8OrNone (p.binding.map (·.val)) ++ flagByte p.fault ++ flagByte p.outside ++ u8 p.restore ++ flagByte p.activeLow
    ++ flagByte p.outputUnit ++ u8 p.quartersPerStep ++ u8 p.filter ++ u8 p.debounce ++ [BitVec.ofInt 8 p.jog] ++ u8 p.jogErrors
    ++ u8 p.keyFlags ++ u16 p.lever ++ u16 p.centre ++ u16 p.dead ++ u16 p.panelSlew

theorem Port.bytes_eq (p : Port) (rest : List Byte) : p.bytes ++ rest =
    p.headBytes ++ (((List.range 17).map (fun i => u16 (p.knots.getD i 0))).flatten ++ (u16 0 ++ rest)) := by
  rw [Port.bytes, ← Port.headBytes, List.append_assoc, List.append_assoc]

theorem Port.headBytes_length (p : Port) : p.headBytes.length = 0x14 := rfl

theorem Port.bytes_knots (p : Port) (rest : List Byte) {i : Nat} (hi : i < 17) :
    half (p.bytes ++ rest) (0x14 + 2 * i) = BitVec.ofNat 16 (p.knots.getD i 0) := by
  obtain ⟨after, hafter⟩ := drop_flatten_map (n := 2) (f := fun i => u16 (p.knots.getD i 0)) (fun _ => rfl) (u16 0 ++ rest)
    (List.getElem?_range hi)
  have h := half_drop (p.bytes ++ rest) (0x14 + 2 * i) 0
  rw [← List.drop_drop, Port.bytes_eq, List.drop_left' p.headBytes_length, hafter, ← Port.bytes_eq] at h
  exact h.symm.trans (append_byteAt_half _)

theorem Port.bytes_last (p : Port) (rest : List Byte) : half (p.bytes ++ rest) 0x36 = 0 := by
  have hknots : (((List.range 17).map (fun i => u16 (p.knots.getD i 0))).flatten).length = 0x22 :=
    length_flatten_map (n := 2) (fun _ => rfl) _
  have h := half_drop (p.bytes ++ rest) (0x14 + 0x22) 0
  rw [← List.drop_drop, Port.bytes_eq, List.drop_left' p.headBytes_length, List.drop_left' hknots, ← Port.bytes_eq] at h
  exact h.symm.trans (append_byteAt_half _)

theorem Port.bytes_fields (p : Port) (rest : List Byte) : portFields p (p.bytes ++ rest) := by
  have hknots := fun i => p.bytes_knots rest (i := i)
  have hlast := p.bytes_last rest
  generalize hbs : p.bytes ++ rest = bs at hknots hlast
  have hfixed : ∃ tail, bs = p.headBytes ++ tail := ⟨_, hbs.symm.trans (p.bytes_eq rest)⟩
  obtain ⟨tail, rfl⟩ := hfixed
  refine ⟨?binding, ?_, ?_, ?_, ?_, ?_, ?_, ?_, ?_, ?_, ?_, ?keys, ?_, ?_, ?_, ?_, hknots, hlast⟩
  all_goals simp only [half, Port.headBytes, u8, u16, u32, flagByte, u8OrNone, u16OrNone, u32OrNone, bytes16, bytes32,
    List.cons_append, List.nil_append, List.getD_cons_succ, List.getD_cons_zero,
    append_byteAt_half, append_byteAt_word, true_and, and_true, flagIs_flag]
  case binding => cases p.binding <;> rfl
  case keys => rfl

theorem CmdRecord.bytes_length (r : CmdRecord) (flags : Byte) : (r.bytes flags).length = 32 := by
  simp only [CmdRecord.bytes, bytes16, bytes32, List.cons_append, List.nil_append, List.length_cons, List.length_nil]

theorem State.currentBytes_length (s : State) : s.currentBytes.length = 32 := by
  unfold State.currentBytes
  split
  · exact List.length_replicate
  · exact CmdRecord.bytes_length ..

theorem generalBytes_length (d r p e : State) : (generalBytes d r p e).length = 48 := by
  simp only [generalBytes, u8, u16, u32, flagByte, u8OrNone, u16OrNone, u32OrNone, bytes16, bytes32,
    List.cons_append, List.nil_append, List.length_cons, List.length_nil]

theorem Channel.bytes_length (c : Channel) : c.bytes.length = 24 := by
  simp only [Channel.bytes, u8, u16, u32, flagByte, u8OrNone, u16OrNone, u32OrNone, bytes16, bytes32,
    List.cons_append, List.nil_append, List.length_cons, List.length_nil]

theorem Head.bytes_length (h : Head) : h.bytes.length = 32 := by
  simp only [Head.bytes, u8, u16, u32, flagByte, u8OrNone, u16OrNone, u32OrNone, bytes16, bytes32,
    List.cons_append, List.nil_append, List.length_cons, List.length_nil]

theorem Port.bytes_length (p : Port) : p.bytes.length = 56 := by
  have hknots : (((List.range 17).map (fun i => u16 (p.knots.getD i 0))).flatten).length = 34 :=
    length_flatten_map (n := 2) (fun _ => rfl) _
  have hlen := congrArg List.length (p.bytes_eq [])
  rw [List.append_nil, List.append_nil, List.length_append, List.length_append, hknots, p.headBytes_length] at hlen
  exact hlen

theorem State.currentBytes_of {s : State} {cur : CmdRecord} (h : s.proc.current = some cur) :
    s.currentBytes = cur.bytes cur.args.flags := by
  rw [State.currentBytes, h]

/-- A snapshot gives each part as it was read (R182, 11.6). -/
theorem snapshotOf_fields (seen : SnapPart → State) : snapshotFields seen (snapshotOf seen) := by
  obtain ⟨g, hg⟩ : ∃ g, g = generalBytes (seen .decoder) (seen .reference) (seen .processor) (seen .events) := ⟨_, rfl⟩
  obtain ⟨q, hq⟩ : ∃ q, q = (seen .processor).currentBytes := ⟨_, rfl⟩
  obtain ⟨cs, hcs⟩ : ∃ cs, cs = (allChans.map (fun c => ((seen (.channel c)).chan c).bytes)).flatten := ⟨_, rfl⟩
  obtain ⟨hs, hhs⟩ : ∃ hs, hs = (allHeads.map (fun h => ((seen (.head h)).head h).bytes)).flatten := ⟨_, rfl⟩
  obtain ⟨ps, hps⟩ : ∃ ps, ps = (allPorts.map (fun p => ((seen (.port p)).port p).bytes)).flatten := ⟨_, rfl⟩
  have hsnap : snapshotOf seen = g ++ (q ++ (cs ++ (hs ++ ps))) := by
    rw [snapshotOf, ← hg, ← hq, ← hcs, ← hhs, ← hps, List.append_assoc, List.append_assoc, List.append_assoc]
  have hgl : g.length = 48 := hg ▸ generalBytes_length ..
  have hql : q.length = 32 := hq ▸ State.currentBytes_length _
  have hcl : cs.length = 192 := hcs ▸ length_flatten_map (fun _ => Channel.bytes_length _) allChans
  have hhl : hs.length = 128 := hhs ▸ length_flatten_map (fun _ => Head.bytes_length _) allHeads
  have hpl : ps.length = 112 := hps ▸ length_flatten_map (fun _ => Port.bytes_length _) allPorts
  have hdropQ : (g ++ (q ++ (cs ++ (hs ++ ps)))).drop 0x50 = cs ++ (hs ++ ps) := by
    rw [show (0x50 : Nat) = 48 + 32 from rfl, ← List.drop_drop, List.drop_left' hgl, List.drop_left' hql]
  have hdropC : (g ++ (q ++ (cs ++ (hs ++ ps)))).drop 0x110 = hs ++ ps := by
    rw [show (0x110 : Nat) = 0x50 + 192 from rfl, ← List.drop_drop, hdropQ, List.drop_left' hcl]
  have hdropH : (g ++ (q ++ (cs ++ (hs ++ ps)))).drop 0x190 = ps ++ [] := by
    rw [show (0x190 : Nat) = 0x110 + 128 from rfl, ← List.drop_drop, hdropC, List.drop_left' hhl, List.append_nil]
  rw [hsnap]
  refine ⟨?_, ?_, fun c => ?_, fun h => ?_, fun p => ?_⟩
  · simp only [List.length_append, hgl, hql, hcl, hhl, hpl]
  · rw [hg]
    refine generalBytes_fields _ _ _ _ _ fun cur hcur => ?_
    rw [List.take_left' hql, hq, State.currentBytes_of hcur]
  · obtain ⟨rest, hrest⟩ := drop_flatten_map (f := fun c : ChanId => ((seen (.channel c)).chan c).bytes) (fun _ => Channel.bytes_length _)
      (hs ++ ps) (show allChans[c.val]? = some c by revert c; decide)
    rw [← List.drop_drop, hdropQ, hcs, hrest]
    exact Channel.bytes_fields _ _
  · obtain ⟨rest, hrest⟩ := drop_flatten_map (f := fun h : HeadId => ((seen (.head h)).head h).bytes) (fun _ => Head.bytes_length _)
      ps (show allHeads[h.val]? = some h by revert h; decide)
    rw [← List.drop_drop, hdropC, hhs, hrest]
    exact Head.bytes_fields _ _
  · obtain ⟨rest, hrest⟩ := drop_flatten_map (f := fun p : PortId => ((seen (.port p)).port p).bytes) (fun _ => Port.bytes_length _)
      [] (show allPorts[p.val]? = some p by revert p; decide)
    rw [← List.drop_drop, hdropH, hps, hrest]
    exact Port.bytes_fields _ _

/-! ## The entries of a clip query -/

theorem Extent.bytes_length (e : Extent) : e.bytes.length = 8 := rfl

/-- The part of a clip's report before its extents. -/
def Clip.headBytes (c : Clip) (k : Nat) : List Byte :=
  u8 k ++ u8 c.state.code ++ u8 c.chan.val ++ u8 c.extents.length ++ u32 c.inF ++ u32 c.outF ++ u8 c.flags
    ++ u8OrNone (c.attached.map (·.val)) ++ u8 c.rating ++ u8 c.reason.code ++ bytes16 c.tag ++ u16 0
    ++ u32OrNone c.quick ++ bytes32 c.creation ++ u32 (c.outF - c.inF + 1)

theorem Clip.bytes_eq (c : Clip) (k : Nat) : c.bytes k = c.headBytes k ++ extentBytes c.extents := rfl

theorem extentBytes_of {es : List Extent} (h : es.length ≤ 16) :
    extentBytes es = (es.map Extent.bytes).flatten ++ List.replicate (8 * (16 - es.length)) 0 := by
  rw [extentBytes, List.take_of_length_le h]

theorem Clip.headBytes_length (c : Clip) (k : Nat) : (c.headBytes k).length = 32 := by
  simp only [Clip.headBytes, u8, u16, u32, flagByte, u8OrNone, u16OrNone, u32OrNone, bytes16, bytes32,
    List.cons_append, List.nil_append, List.length_cons, List.length_nil]

theorem Clip.bytes_fields (c : Clip) (k : Nat) (hused : c.state ≠ .free) (hlen : c.extents.length ≤ 16) :
    queryFields c k (c.bytes k) := by
  have hhead := c.headBytes_length k
  have hes : ((c.extents.map Extent.bytes).flatten).length = 8 * c.extents.length := length_flatten_map Extent.bytes_length _
  have hdrop (j : Nat) : (c.headBytes k ++ extentBytes c.extents).drop (0x20 + j) = (extentBytes c.extents).drop j := by
    rw [← List.drop_drop, List.drop_left' hhead]
  rw [Clip.bytes_eq]
  refine ⟨?length, ?_, fun h => ?opened, fun h => ?closed, ?_, ?_, ?_, ?_, ?_, ?attached, ?_, ?_, ?_, ?_, ?quick, ?_, ?_,
    fun j e he => ?extent, fun i hi => ?rest⟩
  case length =>
    rw [extentBytes_of hlen, List.length_append, List.length_append, hhead, hes, List.length_replicate]
    omega
  case extent =>
    obtain ⟨rest, hrest⟩ := drop_flatten_map Extent.bytes_length (List.replicate (8 * (16 - c.extents.length)) 0) he
    rw [← extentBytes_of hlen, ← hdrop] at hrest
    have hword := word_drop (c.headBytes k ++ extentBytes c.extents) (0x20 + 8 * j) 0
    have hpos := half_drop (c.headBytes k ++ extentBytes c.extents) (0x20 + 8 * j) 4
    have hend := half_drop (c.headBytes k ++ extentBytes c.extents) (0x20 + 8 * j) 6
    rw [hrest] at hword hpos hend
    refine ⟨hword.symm.trans (append_byteAt_word _), ?_, ?_⟩
    · rw [show 0x24 + 8 * j = 0x20 + 8 * j + 4 by omega]
      exact hpos.symm.trans (append_byteAt_half _)
    · rw [show 0x26 + 8 * j = 0x20 + 8 * j + 6 by omega]
      exact hend.symm.trans (append_byteAt_half _)
  case rest =>
    rw [extentBytes_of hlen, ← List.append_assoc, List.getD_eq_getElem?_getD,
      List.getElem?_append_right (by rw [List.length_append, hhead, hes]; omega), List.getElem?_replicate]
    split_ifs <;> rfl
  all_goals simp only [half, word, Clip.headBytes, u8, u16, u32, flagByte, u8OrNone, u16OrNone, u32OrNone, bytes16, bytes32,
    List.cons_append, List.nil_append, List.getD_cons_succ, List.getD_cons_zero,
    append_byteAt_half, append_byteAt_word, true_and, and_true]
  case opened =>
    rw [h]
    rfl
  case closed =>
    rw [h]
    rfl
  case attached => cases c.attached <;> rfl
  case quick => cases c.quick <;> rfl
  all_goals rfl

end Sys2Proof.Machine
end

section
/-! PROOFS. Turns.lean: one event in progress, taken on by turns of its own, with another event between them (0.4, R182). -/

namespace Sys2Proof.Machine

/-! ## An event that goes on by its own turns -/

/-- The event in progress after an operation at blocks `b`, with `p` still to be made. -/
def Prog.thread (a : Agent) (b : List Agent) : Prog Unit → List Thread
  | .done _ => []
  | .never => [{ who := a, inAt := [], rest := .never }]
  | .op b' f next => [{ who := a, inAt := b.filter (fun c => decide (c ∈ b')), rest := .op b' f next }]

theorem goOnce_nil (a : Agent) (s : State) (b : List Agent) (f : State → State) (next : State → Prog Unit) :
    goOnce [] a s (.op b f next) = some (f s, (next s).thread a b) := by
  rw [goOnce, if_neg (by rw [any_busyAt_nil]; exact Bool.false_ne_true)]
  cases next s <;> rfl

theorem begin_steps_nil (a : Agent) (s : State) (b : List Agent) (f : State → State) (next : State → Prog Unit) :
    begin (s, []) (.steps a (.op b f next)) = (f s, (next s).thread a b) := by
  rw [begin, goOnce_nil]
  rfl

theorem takeTurn_move (fuel : Nat) (a : Agent) (i : List Agent) (s : State) (b : List Agent) (f : State → State)
    (next : State → Prog Unit) :
    takeTurn fuel (s, [{ who := a, inAt := i, rest := .op b f next }]) (.move a) = (f s, (next s).thread a b) := by
  have hthread : threadOf [{ who := a, inAt := i, rest := .op b f next }] a =
      some { who := a, inAt := i, rest := .op b f next } := by simp [threadOf]
  have hothers : othersOf [{ who := a, inAt := i, rest := .op b f next }] a = [] := by simp [othersOf]
  rw [takeTurn, hthread]
  dsimp only
  rw [hothers, goOnce_nil]
  rfl

/-- After an operation at no block the event is in progress at none. -/
theorem Prog.thread_nil {p : Prog Unit} (a : Agent) (h : ∀ u, p ≠ .done u) :
    p.thread a [] = [{ who := a, inAt := [], rest := p }] := by
  cases p with
  | done u => exact absurd rfl (h u)
  | never => rfl
  | op b f next => rfl

theorem Prog.bind_assoc {α β γ : Type} (p : Prog α) (g : α → Prog β) (k : β → Prog γ) :
    (p.bind g).bind k = p.bind (fun a => (g a).bind k) := by
  induction p with
  | done a => rfl
  | never => rfl
  | op b f next ih => exact congrArg (Prog.op b f) (funext fun s => ih s)

/-! ## Another event beside one that is in progress at no block -/

section
variable {th : Thread}

theorem busyAt_idle (h : th.inAt = []) (a : Agent) : busyAt [th] a = false := by
  simp [busyAt, h]

theorem any_busyAt_idle (h : th.inAt = []) (b : List Agent) : b.any (busyAt [th]) = false := by
  induction b with
  | nil => rfl
  | cons a b ih => rw [List.any_cons, busyAt_idle h, ih, Bool.or_false]

/-- An event that ends goes on to its end beside one that is in progress at no block. -/
theorem goOn_idle (h : th.inAt = []) {p : Prog Unit} {s t : State} (hr : p.run s = some (t, ())) :
    goOn [th] p s = (t, .done ()) := by
  induction p generalizing s with
  | done a =>
    cases hr
    rfl
  | never => cases hr
  | op b f next ih =>
    rw [goOn, if_neg (by rw [any_busyAt_idle h]; exact Bool.false_ne_true)]
    exact ih s hr

theorem finish_front (h : th.inAt = []) {a : Agent} (ha : th.who ≠ a) {i : List Agent} {p : Prog Unit} {s t : State}
    (hr : p.run s = some (t, ())) : finish (s, [{ who := a, inAt := i, rest := p }, th]) a = (t, [th]) := by
  have hthread : threadOf [{ who := a, inAt := i, rest := p }, th] a = some { who := a, inAt := i, rest := p } := by
    simp [threadOf]
  have hothers : othersOf [{ who := a, inAt := i, rest := p }, th] a = [th] := by simp [othersOf, ha]
  rw [finish, hthread]
  dsimp only
  rw [hothers, goOn_idle h hr]

/-- The event beside a command between two of its parts ends before the command goes on. -/
theorem finishAll_front (h : th.inAt = []) (hwho : th.who = .processor) {a : Agent} (hp : a ≠ .processor)
    (hc : ∀ c, a ≠ .channel c) {i : List Agent} {p : Prog Unit} {s t : State} (hr : p.run s = some (t, ())) :
    finishAll (s, [{ who := a, inAt := i, rest := p }, th]) = finishAll (t, [th]) := by
  have hother : ∀ c, c ≠ a → c ≠ .processor →
      finish (s, [{ who := a, inAt := i, rest := p }, th]) c = (s, [{ who := a, inAt := i, rest := p }, th]) := fun c hca hcp =>
    finish_of_none (by simp [threadOf, hca.symm, hwho, hcp.symm])
  have hown := finish_front h (hwho ▸ hp.symm) (i := i) hr
  have hcmd : finishCommand (s, [{ who := a, inAt := i, rest := p }, th]) = (s, [{ who := a, inAt := i, rest := p }, th]) := by
    simp [finishCommand, threadOf, hp, hwho, h]
  have hafter : ∀ c, c ≠ .processor → finish (t, [th]) c = (t, [th]) := fun c hcp =>
    finish_of_none (by simp [threadOf, hwho, hcp.symm])
  have hcmd' : finishCommand (t, [th]) = (t, [th]) := by simp [finishCommand, threadOf, hwho, h]
  cases a with
  | processor => exact absurd rfl hp
  | channel c => exact absurd rfl (hc c)
  | clips => rw [finishAll, finishAll, hown, hafter .clips (by decide)]
  | head g =>
    have hheads : allHeads.foldl (fun y x => finish y (.head x)) (s, [{ who := .head g, inAt := i, rest := p }, th]) = (t, [th]) := by
      have hpass : ∀ x, x ≠ g → finish (s, [{ who := .head g, inAt := i, rest := p }, th]) (.head x) =
          (s, [{ who := .head g, inAt := i, rest := p }, th]) := fun x hx => hother _ (by simpa using hx) (by simp)
      have hdone : ∀ x, finish (t, [th]) (.head x) = (t, [th]) := fun x => hafter _ (by simp)
      have hg : g = 0 ∨ g = 1 ∨ g = 2 ∨ g = 3 := (by decide : ∀ x : HeadId, x = 0 ∨ x = 1 ∨ x = 2 ∨ x = 3) g
      rcases hg with rfl | rfl | rfl | rfl <;> simp [allHeads, hpass, hown, hdone]
    have hheads' : allHeads.foldl (fun y x => finish y (.head x)) (t, [th]) = (t, [th]) := by
      simp [allHeads, hafter]
    rw [finishAll, finishAll, hother .clips (by simp) (by simp), hcmd, hheads, hafter .clips (by simp), hcmd', hheads']

/-- An event under the processor's name is a command. -/
theorem courseOf_processor {fuel : Nat} {s : State} {e : BlockEvent} {p : Prog Unit}
    (h : courseOf fuel s e = .steps .processor p) : ∃ kind r own, p = longCommandProg kind r own := by
  cases e <;> simp only [courseOf, onceAt, onceFree, commandCourse, reduceCtorEq] at h
  case command kind r =>
    split at h <;> simp only [Course.steps.injEq, true_and, reduceCtorEq] at h
    all_goals exact ⟨_, _, _, h.symm⟩
  case statusSnapshot r order =>
    simp only [Course.steps.injEq, true_and] at h
    exact ⟨_, _, _, h.symm⟩
  all_goals simp at h

/-- A command that finds the processor busy is not taken. -/
theorem longCommandProg_busy {s : State} (h : s.takesRecord = false) (kind : Byte) (r : CmdArgs) (own : Prog (Option CmdResult)) :
    (longCommandProg kind r own).run s = some (s.fetched kind r id, ()) := by
  rw [longCommandProg, Prog.run_op, if_neg (by rw [h]; exact Bool.false_ne_true), Prog.run_done]

/-- Beside a command between two parts, with the processor EXECUTING, an event does what it does alone, and the command goes on
after it. -/
theorem finishAll_event (h : th.inAt = []) (hwho : th.who = .processor) {fuel : Nat} {e : BlockEvent} {u v : State}
    (hexec : u.proc.state = .executing) (he : takeAlone fuel e u = some v) :
    finishAll (takeTurn fuel (u, [th]) (.event e)) = finishAll (v, [th]) := by
  unfold takeAlone at he
  rw [takeTurn]
  cases hc : courseOf fuel u e with
  | once b f =>
    rw [hc] at he
    cases he
    rw [begin, if_neg (by rw [any_busyAt_idle h]; exact Bool.false_ne_true)]
  | steps who p =>
    rw [hc] at he
    obtain ⟨⟨w, x⟩, hr, rfl⟩ := Option.map_eq_some_iff.1 he
    by_cases hp : who = .processor
    · subst hp
      obtain ⟨kind, r, own, rfl⟩ := courseOf_processor hc
      have hbusy : u.takesRecord = false := by rw [State.takesRecord, hexec]
      rw [longCommandProg_busy hbusy] at hr
      have hsame : u.fetched kind r id = u := by rw [State.fetched, hexec]
      rw [hsame] at hr
      cases hr
      rw [begin, if_pos (by simp [threadOf, hwho])]
    · have hnone : ¬ (threadOf [th] who).isSome = true := by simp [threadOf, hwho, Ne.symm hp]
      rw [begin, if_neg hnone]
      cases p with
      | done a =>
        cases hr
        rfl
      | never => cases hr
      | op b f next =>
        rw [goOnce, if_neg (by rw [any_busyAt_idle h]; exact Bool.false_ne_true)]
        rw [Prog.run_op] at hr
        cases hn : next u with
        | done a =>
          rw [hn] at hr
          cases hr
          rfl
        | never =>
          rw [hn] at hr
          cases hr
        | op b' f' next' =>
          rw [hn] at hr
          exact finishAll_front h hwho hp (courseOf_who hc) hr

end

end Sys2Proof.Machine
end

section
/-! PROOFS. ReportCommands.lean: STATUS_SNAPSHOT with another event between its parts, CLIP_QUERY, and the ends of their writes
(R182, R183). -/

namespace Sys2Proof.Machine

/-! ## The writes of a report -/

theorem State.queueReport_eq (s : State) (a : Addr) (bytes : List Byte) :
    s.queueReport a bytes = (reportRequests a bytes).foldl State.queueOwn s := by
  have hmod : a.toNat % 4096 < 4096 := Nat.mod_lt _ (by decide)
  unfold State.queueReport reportRequests
  by_cases h : a.toNat % 4096 + bytes.length ≤ 4096
  · rw [if_pos h, if_pos (by omega)]
    rfl
  · rw [if_neg h, if_neg (by omega)]
    rfl

/-! ## The parts of a snapshot, read by turns -/

/-- The next part is read, and what follows has the state it was read in. -/
theorem readParts_bind_cons (p : SnapPart) (ps : List SnapPart) (k : List (SnapPart × State) → Prog Unit) :
    (readParts (p :: ps)).bind k = .op [] id (fun s => (readParts ps).bind (fun got => k ((p, s) :: got))) := by
  refine congrArg (Prog.op [] id) (funext fun s => ?_)
  rw [Prog.bind_assoc]
  rfl

theorem readParts_bind_append (ps qs : List SnapPart) (k : List (SnapPart × State) → Prog Unit) :
    (readParts (ps ++ qs)).bind k = (readParts ps).bind (fun got => (readParts qs).bind (fun more => k (got ++ more))) := by
  induction ps generalizing k with
  | nil => rfl
  | cons p ps ih =>
    rw [List.cons_append, readParts_bind_cons, readParts_bind_cons]
    exact congrArg (Prog.op [] id) (funext fun s => ih _)

theorem readParts_bind_ne_done {ps : List SnapPart} {k : List (SnapPart × State) → Prog Unit}
    (h : ∀ got u, k got ≠ .done u) (u : Unit) : (readParts ps).bind k ≠ .done u := by
  cases ps with
  | nil => exact h [] u
  | cons p ps =>
    rw [readParts_bind_cons]
    exact nofun

/-- Turns of the processor read the parts one by one in a state that stays. -/
theorem turns_readParts (fuel : Nat) (u : State) (ps : List SnapPart) {k : List (SnapPart × State) → Prog Unit}
    (h : ∀ got a, k got ≠ .done a) :
    (List.replicate ps.length (Turn.move .processor)).foldl (takeTurn fuel)
        (u, [{ who := .processor, inAt := [], rest := (readParts ps).bind k }]) =
      (u, [{ who := .processor, inAt := [], rest := k (ps.map (fun p => (p, u))) }]) := by
  induction ps generalizing k with
  | nil => rfl
  | cons p ps ih =>
    rw [List.length_cons, List.replicate_succ, List.foldl_cons, readParts_bind_cons, takeTurn_move,
      Prog.thread_nil _ (readParts_bind_ne_done fun got a => h _ a)]
    exact ih fun got a => h _ a

theorem readAt_append (ps qs : List SnapPart) (u v : State) (p : SnapPart) :
    readAt (ps.map (fun p => (p, u)) ++ qs.map (fun p => (p, v))) v p = if p ∈ ps then u else v := by
  induction ps with
  | nil => exact congrFun (readAt_same qs v) p
  | cons q ps ih =>
    unfold readAt at ih ⊢
    rw [List.map_cons, List.cons_append, List.find?_cons]
    by_cases hq : q = p
    · simp [hq]
    · simp only [hq, decide_false, List.mem_cons, Ne.symm hq, false_or]
      exact ih

/-! ## STATUS_SNAPSHOT -/

/-- What follows the parts of a snapshot: its writes are queued, and the command waits for them. -/
def snapshotEnd (r : CmdArgs) (got : List (SnapPart × State)) : Prog Unit :=
  .op [] (fun s => s.queueReport (addrArg r) (snapshotOf (readAt got s))) (fun _ => .done ())

theorem snapshotEnd_ne_done (r : CmdArgs) (got : List (SnapPart × State)) (a : Unit) : snapshotEnd r got ≠ .done a := by
  unfold snapshotEnd
  exact nofun

theorem snapshotEnd_run (r : CmdArgs) (got : List (SnapPart × State)) (s : State) :
    (snapshotEnd r got).run s = some (s.queueReport (addrArg r) (snapshotOf (readAt got s)), ()) := rfl

/-- A snapshot that is taken reads the given parts, then all of them, and then queues its writes. -/
theorem longCommandProg_statusSnapshot {s : State} {r : CmdArgs} (ht : s.takesRecord = true)
    (hfit : reportFits (addrArg r) 512 = true) (order : List SnapPart) :
    ∃ next, longCommandProg 0x16 r (statusSnapshot r order) = .op [] (fun s => s.fetched 0x16 r id) next ∧
      next s = (readParts order).bind
        (fun got => (readParts allParts).bind (fun more => snapshotEnd r (got ++ more))) := by
  refine ⟨_, rfl, ?_⟩
  rw [if_pos ht, statusSnapshot, if_pos hfit, Prog.bind_assoc, readParts_bind_append]
  rfl

theorem State.takesRecord_of_awaits {s : State} (h : s.awaits) : s.takesRecord = true := by
  obtain ⟨hproc, k, hin⟩ := h
  rw [State.takesRecord, hproc, hin.1]
  simp [State.overdue_of_inTime hin]

/-- An event between the parts of a snapshot: the parts before it are read before it, the others after it. -/
theorem exec_statusSnapshot_event {s : State} {r : CmdArgs} (hs : s.awaits) (hfit : reportFits (addrArg r) 512 = true) :
    ∃ u, s.commandHeld u 0x16 r [] ∧ u = { s with proc := u.proc, mem := s.mem.withOwn u.mem } ∧
      ∀ (ps : List SnapPart) (e : BlockEvent) (v : State) (seen : SnapPart → State), takeAlone (ps.length + 3) e u = some v →
        (∀ p, seen p = if p ∈ ps then u else v) →
        exec (.statusSnapshot r ps (List.replicate ps.length (.move .processor) ++ [.event e])) s = .next
          { v with mem := (reportRequests (addrArg r) (snapshotOf seen)).foldl MemPath.queueOwn v.mem } := by
  obtain ⟨k, hk, hrun⟩ := s.fetched_of_awaits 0x16 r hs
  have hu : s.fetched 0x16 r id = s.taken k 0x16 r := hrun id
  refine ⟨s.taken k 0x16 r, ⟨rfl, k, hk, rfl, rfl⟩, ?_, fun ps e v seen he hseen => ?_⟩
  · exact congrArg (fun m => { s with proc := (s.taken k 0x16 r).proc, mem := m }) (s.mem.leave_frame k)
  · obtain ⟨next, hprog, hnext⟩ :=
      longCommandProg_statusSnapshot (State.takesRecord_of_awaits hs) hfit ps
    have hend (got : List (SnapPart × State)) (a : Unit) :
        (readParts allParts).bind (fun more => snapshotEnd r (got ++ more)) ≠ .done a :=
      readParts_bind_ne_done (fun _ a => snapshotEnd_ne_done _ _ a) a
    have hlen : pickFuel (List.replicate ps.length (Turn.move .processor) ++ [.event e]) = ps.length + 3 := by
      rw [pickFuel, List.length_append, List.length_replicate]
      rfl
    have hcourse : courseOf (ps.length + 3) s (.statusSnapshot r ps) =
        .steps .processor (longCommandProg 0x16 r (statusSnapshot r ps)) := rfl
    have hlast : ((readParts allParts).bind (fun more => snapshotEnd r (ps.map (fun p => (p, s.taken k 0x16 r)) ++ more))).run v =
        some ((v.queueReport (addrArg r) (snapshotOf seen)), ()) := by
      rw [Prog.run_bind, readParts_run, Option.bind_some, snapshotEnd_run]
      have hread : readAt (ps.map (fun p => (p, s.taken k 0x16 r)) ++ allParts.map (fun p => (p, v))) v = seen :=
        funext fun p => (readAt_append ..).trans (hseen p).symm
      rw [hread]
    show weave (.statusSnapshot r ps) _ s = _
    rw [weave, hlen, hcourse, hprog, begin_steps_nil, hu, hnext, Prog.thread_nil _ (readParts_bind_ne_done hend), List.foldl_append,
      turns_readParts _ _ _ hend, List.foldl_cons, List.foldl_nil, finishAll_event rfl rfl rfl he,
      finishAll_one (by simp) hlast, State.queueReport_eq, State.foldl_queueOwn]
    rfl

/-- The own-request queue is no part of a snapshot. -/
theorem State.snapshotBytes_withOwn (s : State) (m : MemPath) :
    ({ s with mem := s.mem.withOwn m } : State).snapshotBytes = s.snapshotBytes := rfl

/-- The state in which a snapshot that has been taken is read, but for the own-request queue. -/
def State.snapping (s : State) (r : CmdArgs) : State :=
  { s with proc := { s.proc with state := .executing, current := some { kind := 0x16, args := r }, reportFailed := false } }

theorem State.taken_snapshotBytes (s : State) (k : Nat) (r : CmdArgs) :
    (s.taken k 0x16 r).snapshotBytes = (s.snapping r).snapshotBytes := by
  have h : s.taken k 0x16 r = { s.snapping r with mem := (s.snapping r).mem.withOwn (s.mem.leave k) } :=
    congrArg (fun m => { s.snapping r with mem := m }) (s.mem.leave_frame k)
  rw [h, State.snapshotBytes_withOwn]

theorem snapshotNow_of_badArg {r : CmdArgs} (h : (addrArg r).toNat % 64 ≠ 0 ∨ 2 ^ 40 < (addrArg r).toNat + 512) (s : State) :
    snapshotNow r s = (s, some (.refused .badArg)) :=
  if_neg (by rw [reportFits_eq_false h]; exact Bool.false_ne_true)

theorem snapshotNow_of {r : CmdArgs} (h : reportFits (addrArg r) 512 = true) (s : State) :
    snapshotNow r s = ((reportRequests (addrArg r) s.snapshotBytes).foldl State.queueOwn s, none) := by
  rw [← State.queueReport_eq]
  exact if_pos h

/-! ## CLIP_QUERY -/

theorem targetClip_none {r : CmdArgs} (h : 255 < r.target.toNat) : targetClip r = none :=
  if_neg (show ¬ r.target.toNat < 256 by omega)

theorem clipQuery_of_badArg {r : CmdArgs}
    (h : 255 < r.target.toNat ∨ (addrArg r).toNat % 64 ≠ 0 ∨ 2 ^ 40 < (addrArg r).toNat + 160) (s : State) :
    clipQuery r s = (s, some (.refused .badArg)) := by
  rcases h with h | h
  · rw [clipQuery, targetClip_none h]
  · rw [clipQuery, reportFits_eq_false h]
    cases targetClip r <;> rfl

theorem clipQuery_of_noClip {r : CmdArgs} {k : Nat} (hk : r.target.toNat = k) (hk' : k ≤ 255)
    (hfit : reportFits (addrArg r) 160 = true) {s : State} (h : (s.clip k).state = .free) :
    clipQuery r s = (s, some (.refused .noClip)) := by
  rw [clipQuery, targetClip_of r k hk hk', hfit]
  exact if_pos h

theorem clipQuery_of {r : CmdArgs} {k : Nat} (hk : r.target.toNat = k) (hk' : k ≤ 255)
    (hfit : reportFits (addrArg r) 160 = true) {s : State} (h : (s.clip k).state ≠ .free) :
    clipQuery r s = ((reportRequests (addrArg r) ((s.clip k).bytes k)).foldl State.queueOwn s, none) := by
  rw [clipQuery, targetClip_of r k hk hk', hfit, ← State.queueReport_eq]
  exact if_neg h

/-! ## The end of a report write -/

theorem exec_reportWriteComplete {s : State} {k : Nat} (h : s.inTime .report k) (st : Status) :
    exec (.reportWriteComplete st) s = .next ((s.leaveOwn k).reportEnd st) := by
  show execReportWriteComplete st s = _
  rw [execReportWriteComplete, State.ownComplete_of_inTime h]

/-- A failed write is posted once for the command. -/
def State.reportNoted (s : State) (st : Status) : State :=
  match st with
  | .good => s
  | .error => s.reportFail

theorem State.reportNoted_eq {s : State} {cur : CmdRecord} (hcur : s.proc.current = some cur) (st : Status) :
    s.reportNoted st =
      { s with
        proc := { s.proc with reportFailed := s.proc.reportFailed || decide (st = .error) }
        evt := if st = .error ∧ s.proc.reportFailed = false then
            s.evt.posted .controlFault .timeout 0 (if cur.kind = 0x11 then 8 else 7) s.proc.consumer s.ref.count
          else s.evt } := by
  have hsource : ∀ x : State, x.proc.current = some cur → x.reportSource = if cur.kind = 0x11 then 8 else 7 := by
    intro x hx
    rw [State.reportSource, hx]
  cases st with
  | good => cases hf : s.proc.reportFailed <;> simp [State.reportNoted, ← hf]
  | error =>
    cases hf : s.proc.reportFailed with
    | true =>
      show s.reportFail = _
      have hsame : s = { s with proc := { s.proc with reportFailed := true } } := by rw [← hf]
      rw [State.reportFail, if_pos hf, if_neg (by simp)]
      exact hsame
    | false =>
      show s.reportFail = _
      rw [State.reportFail, if_neg (by rw [hf]; exact Bool.false_ne_true), hsource _ hcur]
      simp only [and_self, if_true]
      rfl

theorem State.reportEnd_eq (s : State) (st : Status) (h : (s.reportNoted st).proc.state = .executing) :
    s.reportEnd st =
      if ((s.reportNoted st).mem.ownQ.any (fun r => decide (r.req = .report)) ||
          (s.reportNoted st).mem.ownWait.any (fun r => decide (r.req = .report))) = true then s.reportNoted st
      else (s.reportNoted st).endCommand (.done (if (s.reportNoted st).proc.reportFailed then 0 else 1)) := by
  show (match (s.reportNoted st).proc.state with
    | .executing => _
    | .idle => _
    | .fetching => _
    | .writing => _
    | .halted => _) = _
  rw [h]
  rfl

theorem any_report_iff (m : MemPath) :
    (m.ownQ.any (fun r => decide (r.req = .report)) || m.ownWait.any (fun r => decide (r.req = .report))) = true ↔
      ∃ x ∈ m.ownQ ++ m.ownWait, x.req = .report := by
  simp only [Bool.or_eq_true, List.any_eq_true, decide_eq_true_iff, List.mem_append, or_and_right, exists_or]

/-- Settles O59: the two commands queue the writes of their bytes and wait; the last write's end answers. -/
theorem reportsAreWrittenAndAnswered : Obligations.ReportsAreWrittenAndAnswered := by
  unfold Obligations.ReportsAreWrittenAndAnswered
  refine ⟨fun s r hs => ⟨?snapRefused, ?snapTaken, ?snapEvent, ?queryRefused, ?queryTaken⟩, fun s cur k st hproc hcur hin => ?ended⟩
  case snapRefused =>
    intro hbad
    exact ⟨_, exec_statusSnapshot_nil r [] s, State.carryOutLong_refused hs fun k => snapshotNow_of_badArg hbad _⟩
  case snapTaken =>
    intro hmod hfit
    obtain ⟨hheld, hframe⟩ := State.carryOutLong_held (kind := 0x16) (r := r) (own := snapshotNow r) hs
      (reportRequests (addrArg r) (s.snapping r).snapshotBytes) (fun k => by
        rw [snapshotNow_of ((reportFits_iff ..).2 ⟨hmod, hfit⟩), State.taken_snapshotBytes])
    have hbytes : (s.carryOutLong 0x16 r (snapshotNow r)).snapshotBytes = (s.snapping r).snapshotBytes := by
      rw [hframe, hheld.1]
      exact (s.snapping r).snapshotBytes_withOwn _
    refine ⟨_, exec_statusSnapshot_nil r [] s, snapshotOf_fields _, ?_, hframe⟩
    rw [hbytes]
    exact hheld
  case snapEvent =>
    intro ps e hmod hfit
    obtain ⟨u, hheld, hframe, hevent⟩ := exec_statusSnapshot_event hs ((reportFits_iff ..).2 ⟨hmod, hfit⟩)
    exact ⟨u, hheld, hframe, fun v seen he hseen => ⟨snapshotOf_fields seen, hevent ps e v seen he hseen⟩⟩
  case queryRefused =>
    intro why hwhy
    refine ⟨_, rfl, State.carryOutLong_refused hs fun k => ?_⟩
    rcases hwhy with ⟨hbad, rfl⟩ | ⟨⟨ht, hmod, hfit, hfree⟩, rfl⟩
    · exact clipQuery_of_badArg hbad _
    · exact clipQuery_of_noClip rfl ht ((reportFits_iff ..).2 ⟨hmod, hfit⟩) hfree
  case queryTaken =>
    intro k hk hk' hmod hfit hused hlen
    exact ⟨_, rfl, Clip.bytes_fields _ k hused hlen, State.carryOutLong_held hs _ fun j =>
      clipQuery_of hk hk' ((reportFits_iff ..).2 ⟨hmod, hfit⟩) hused⟩
  case ended =>
    have hnoted := State.reportNoted_eq (s := s.leaveOwn k) hcur st
    obtain ⟨x, hx⟩ : ∃ x, x = (s.leaveOwn k).reportNoted st := ⟨_, rfl⟩
    rw [← hx] at hnoted
    have hxproc : x.proc = { s.proc with reportFailed := s.proc.reportFailed || decide (st = .error) } := hnoted ▸ rfl
    have hxevt : x.evt = if st = .error ∧ s.proc.reportFailed = false then
        s.evt.posted .controlFault .timeout 0 (if cur.kind = 0x11 then 8 else 7) s.proc.consumer s.ref.count
      else s.evt := hnoted ▸ rfl
    have hxmem : x.mem = s.mem.leave k := hnoted ▸ rfl
    have hend := State.reportEnd_eq (s.leaveOwn k) st (by rw [← hx, hxproc]; exact hproc)
    rw [← hx, hxmem] at hend
    have hframe : x = { s with proc := x.proc, evt := x.evt, mem := s.mem.leave k } := by rw [hxproc, hxevt, hnoted]; rfl
    rw [exec_reportWriteComplete hin]
    by_cases hmore : ∃ y ∈ (s.mem.leave k).ownQ ++ (s.mem.leave k).ownWait, y.req = .report
    · rw [if_pos ((any_report_iff _).2 hmore)] at hend
      rw [hend]
      refine ⟨x, _, rfl, rfl, hxevt, fun _ => ?_, fun hnone => ?_⟩
      · rw [← hxproc]
        exact hframe
      · obtain ⟨y, hy, hreq⟩ := hmore
        exact absurd hreq (hnone y hy)
    · rw [if_neg (mt (any_report_iff _).1 hmore)] at hend
      obtain ⟨hended, hrest⟩ := State.endCommand_of_ended { s with proc := x.proc } x cur k
        (.done (if x.proc.reportFailed then 0 else 1)) rfl (by rw [hxproc]; exact hcur) (hframe ▸ rfl) hxmem
      rw [← hend] at hended hrest
      refine ⟨_, _, rfl, rfl, ?_, fun h => absurd h hmore, fun _ => ⟨?_, ?_⟩⟩
      · rw [hrest]
        exact hxevt
      · rw [hxproc] at hended
        exact hended
      · rw [hframe] at hrest
        exact hrest.trans (by rw [hrest])

end Sys2Proof.Machine
end

section
/-! PROOFS. CommandTurns.lean: a command with a channel's tick before its first operation at a block, or after its last (R167). -/

namespace Sys2Proof.Machine

/-! ## Programs of at most so many operations -/

/-- From state `s` on, with nothing between its operations, the program ends within `n` of them. -/
def Prog.Within {α : Type} : Nat → Prog α → State → Prop
  | _, .done _, _ => True
  | n + 1, .op _ f next, s => (next s).Within n (f s)
  | _, _, _ => False

theorem Prog.Within.mono {α : Type} {p : Prog α} {n m : Nat} {s : State} (h : p.Within n s) (hnm : n ≤ m) : p.Within m s := by
  induction p generalizing n m s with
  | done a => cases m <;> trivial
  | never => cases n <;> exact h.elim
  | op b f next ih =>
    obtain _ | n := n
    · exact h.elim
    · obtain ⟨m, rfl⟩ : ∃ k, m = k + 1 := ⟨m - 1, by omega⟩
      exact ih s (n := n) h (by omega)

theorem Prog.Within.bind {α β : Type} {p : Prog α} {g : α → Prog β} {n m : Nat} {s t : State} {a : α} (h : p.Within n s)
    (hr : p.run s = some (t, a)) (hg : (g a).Within m t) : (p.bind g).Within (n + m) s := by
  induction p generalizing n s with
  | done x =>
    cases hr
    exact hg.mono (by omega)
  | never => cases hr
  | op b f next ih =>
    obtain _ | n := n
    · exact h.elim
    · rw [Nat.succ_add]
      exact ih s h hr

theorem Prog.within_each {ι : Type} (b : ι → List Agent) (f : ι → State → State) (is : List ι) (s : State) :
    (Prog.each b f is).Within is.length s := by
  induction is generalizing s with
  | nil => trivial
  | cons i is ih => exact ih _

/-- On a clip table of its own a program makes as many operations. -/
theorem Prog.Within.onTable {α : Type} {p : Prog α} {n : Nat} {cl : Tbl Clip} {s : State} (h : p.Within n { s with clips := cl }) :
    (p.onTable cl).Within n s := by
  induction p generalizing n cl s with
  | done a => cases n <;> trivial
  | never => cases n <;> exact h.elim
  | op b f next ih =>
    obtain _ | n := n
    · exact h.elim
    · refine ih _ ?_
      dsimp only
      cases hn : next { s with clips := cl } with
      | done a => cases n <;> trivial
      | never =>
        have h' : (next { s with clips := cl }).Within n (f { s with clips := cl }) := h
        rw [hn] at h'
        cases n <;> exact h'.elim
      | op b' f' next' =>
        have h' : (next { s with clips := cl }).Within n (f { s with clips := cl }) := h
        rw [hn] at h'
        exact h'

/-- Turns of an event that is alone take it to its end. -/
theorem turns_within {p : Prog Unit} {n : Nat} {s t : State} (h : p.Within n s) (hr : p.run s = some (t, ())) (fuel : Nat)
    (a : Agent) (b : List Agent) : (List.replicate n (Turn.move a)).foldl (takeTurn fuel) (s, p.thread a b) = (t, []) := by
  induction n generalizing p s b with
  | zero =>
    cases p with
    | done x =>
      cases hr
      rfl
    | never => exact h.elim
    | op b f next => exact h.elim
  | succ n ih =>
    rw [List.replicate_succ, List.foldl_cons]
    cases p with
    | done x => exact ih (p := .done x) (by cases n <;> trivial) hr b
    | never => exact h.elim
    | op b' f next =>
      show List.foldl _ (takeTurn fuel (s, [_]) (.move a)) _ = _
      rw [takeTurn_move]
      exact ih h hr b'

/-! ## What a channel's tick reads and writes -/

/-- State `x` with all that a channel's tick reads and writes taken from `s`: the slot, index and channel tables, the event unit,
and the channels' own mail. -/
def State.channelPart (x s : State) : State :=
  { x with
    slots := s.slots, index := s.index, chans := s.chans, evt := s.evt
    mail := { x.mail with chanTicks := s.mail.chanTicks, chanNotes := s.mail.chanNotes } }

section
variable (x s : State)

@[simp] theorem State.channelPart_slot (n : Nat) : (x.channelPart s).slot n = s.slot n := rfl

@[simp] theorem State.channelPart_chan (c : ChanId) : (x.channelPart s).chan c = s.chan c := rfl

@[simp] theorem State.channelPart_ownerOf (n : Nat) : (x.channelPart s).ownerOf n = s.ownerOf n := rfl

theorem State.take_channelPart (n r : Nat) : (x.channelPart s).take n r = (x.channelPart (s.take n r).1, (s.take n r).2) := by
  by_cases howner : s.ownerOf n = none
  · simp [State.take, howner]
  by_cases hrec : (s.slot n).state = .recording
  · simp [State.take, howner, hrec]
  by_cases hlocks : (s.slot n).locks = 0
  · by_cases hpins : (s.slot n).pins = 0
    · by_cases hheld : (s.slot n).state = .held <;> simp [State.take, howner, hrec, hlocks, hpins, hheld] <;> rfl
    · simp [State.take, howner, hrec, hlocks, hpins]
  · simp [State.take, howner, hrec, hlocks]

theorem State.moveTail_channelPart (c : ChanId) (n : Nat) (lost : Option Nat) :
    (x.channelPart s).moveTail c n lost = x.channelPart (s.moveTail c n lost) := by
  cases lost with
  | none => rfl
  | some q =>
    unfold State.moveTail
    change (if _ ∧ _ ∧ _ then _ else _) = _
    by_cases h : (s.chan c).tail ≤ q ∧ q < (s.chan c).nextRfn ∧ s.entry ((s.chan c).entryOf q) = { valid := true, slot := n }
    · simp only [if_pos h]
      exact if_pos h
    · simp only [if_neg h]
      exact if_neg h

theorem walk_channelPart (fuel : Nat) (c : ChanId) (fresh : List Nat) (pos : Nat) (need got : List Nat) (s : State) :
    walk fuel c fresh pos need got (x.channelPart s) =
      (x.channelPart (walk fuel c fresh pos need got s).1, (walk fuel c fresh pos need got s).2) := by
  induction fuel generalizing pos need got s with
  | zero => rfl
  | succ fuel ih =>
    cases need with
    | nil => rfl
    | cons r rs =>
      simp only [walk, State.channelPart_chan, State.take_channelPart]
      split_ifs with hf
      · exact ih _ _ _ _
      · rcases s.take ((s.chan c).firstSlot + pos) r with ⟨t, (lost | _)⟩
        · simp only [State.moveTail_channelPart, State.channelPart_chan]
          exact ih _ _ _ ((t.moveTail c ((s.chan c).firstSlot + pos) lost).setChan c _)
        · exact ih _ _ _ _

theorem State.allocate_channelPart (c : ChanId) (fresh : List Nat) :
    (x.channelPart s).allocate c fresh = x.channelPart (s.allocate c fresh) := by
  unfold State.allocate
  simp only [State.channelPart_chan, walk_channelPart]
  rfl

theorem State.commit_channelPart (n : Nat) : ((x.channelPart s).commit n).1 = x.channelPart (s.commit n).1 := by
  by_cases hrec : (s.slot n).state = .recording
  · cases howner : s.ownerOf n <;> simp [State.commit, State.indexCommit, hrec, howner] <;> rfl
  · simp [State.commit, hrec]

theorem State.commitAll_channelPart (ns : List Nat) : (x.channelPart s).commitAll ns = x.channelPart (s.commitAll ns) := by
  unfold State.commitAll
  induction ns generalizing s with
  | nil => rfl
  | cons n ns ih => rw [List.foldl_cons, List.foldl_cons, State.commit_channelPart, ih]

theorem State.commitPeriod_channelPart (c : ChanId) : (x.channelPart s).commitPeriod c = x.channelPart (s.commitPeriod c) := by
  unfold State.commitPeriod
  simp only [State.channelPart_chan, State.commitAll_channelPart]
  rfl

theorem State.tickChannel_channelPart (c : ChanId) (t : Word) :
    (x.channelPart s).tickChannel c t = x.channelPart (s.tickChannel c t) := by
  unfold State.tickChannel
  have hs : (x.channelPart s).setChan c { (x.channelPart s).chan c with stray := false } =
    x.channelPart (s.setChan c { s.chan c with stray := false }) := rfl
  simp only [hs]
  generalize s.setChan c { s.chan c with stray := false } = u
  change (match (u.chan c).state with
    | .off => x.channelPart u
    | .ready => x.channelPart u
    | .armed => _
    | .recording => _
    | .stopping => _) = _
  cases (u.chan c).state with
  | off => rfl
  | ready => rfl
  | armed =>
    simp only [State.allocate_channelPart]
    rfl
  | recording =>
    simp only [State.commitPeriod_channelPart]
    change (if ((u.commitPeriod c).chan c).atLimit then _ else _) = _
    split_ifs
    · rfl
    · exact State.allocate_channelPart ..
  | stopping =>
    simp only [State.commitPeriod_channelPart]
    rfl

/-- A channel's tick reads and writes the channels' part alone. -/
theorem State.channelTick_channelPart (c : ChanId) : (x.channelPart s).channelTick c = x.channelPart (s.channelTick c) := by
  unfold State.channelTick
  have hmail : (x.channelPart s).mail.chanTicks = s.mail.chanTicks := rfl
  rw [hmail]
  cases s.mail.chanTicks.get c with
  | nil => rfl
  | cons t ts => exact State.tickChannel_channelPart x (s.setMail { s.mail with chanTicks := popAt s.mail.chanTicks c }) c t

theorem State.channelTick_frame (c : ChanId) : s.channelTick c = s.channelPart (s.channelTick c) :=
  State.channelTick_channelPart s s c

end

theorem State.channelTick_taken (s : State) (k : Nat) (kind : Byte) (r : CmdArgs) (c : ChanId) :
    (s.taken k kind r).channelTick c = (s.channelTick c).taken k kind r := by
  refine (State.channelTick_channelPart (s.taken k kind r) s c).trans ?_
  rw [s.channelTick_frame c]
  rfl

theorem State.awaits_channelTick {s : State} (h : s.awaits) (c : ChanId) : (s.channelTick c).awaits := by
  rw [s.channelTick_frame c]
  exact h

/-! ## A tick beside a command -/

section
variable {e : BlockEvent} {kind : Byte} {r : CmdArgs} {own : Prog CmdResult} {f : State → State × CmdResult} {s : State}

/-- What follows the fetch of a command that is taken. -/
def answering (own : Prog CmdResult) : Prog Unit := own.bind (fun o => .act [] (fun t => t.endCommand o))

theorem answering_run (hown : ∀ u, own.run u = some (f u)) (u : State) :
    (answering own).run u = some ((f u).1.endCommand (f u).2, ()) := by
  rw [answering, Prog.run_bind, hown]
  rfl

theorem answering_ne_done (u : Unit) : answering own ≠ .done u := by
  cases own <;> exact nofun

theorem commandProg_eq : commandProg kind r own =
    .op [] (fun s => s.fetched kind r id) (fun s => if s.takesRecord then answering own else .done ()) := by
  rw [commandProg, longCommandProg]
  refine congrArg (Prog.op [] _) (funext fun u => ?_)
  split_ifs
  · rw [Prog.bind_assoc]
    rfl
  · rfl

/-- The fetch of a command that is taken is one operation, at no block. -/
theorem begin_command (hs : s.awaits) : ∃ k, s.mem.outstanding .fetch = some k ∧ (∀ g, s.fetched kind r g = g (s.taken k kind r)) ∧
    begin (s, []) (.steps .processor (commandProg kind r own)) =
      (s.taken k kind r, [{ who := .processor, inAt := [], rest := answering own }]) := by
  obtain ⟨k, hk, hrun⟩ := s.fetched_of_awaits kind r hs
  refine ⟨k, hk, hrun, ?_⟩
  rw [commandProg_eq, begin_steps_nil, if_pos (State.takesRecord_of_awaits hs), hrun, Prog.thread_nil _ answering_ne_done]
  rfl

section
variable (hcourse : ∀ fuel w, courseOf fuel w e = .steps .processor (commandProg kind r own)) (hown : ∀ u, own.run u = some (f u))
include hcourse hown

theorem weave_command_nil : weave e [] s = .next (s.carryOut kind r f) :=
  weave_of_alone (by
    rw [takeAlone, hcourse]
    exact congrArg (Option.map _) (commandProg_run hown s))

/-- A channel's tick after the fetch is one before the command. -/
theorem weave_command_tick (hs : s.awaits) (c : ChanId) :
    weave e [.event (.channelTick c)] s = weave e [] (s.channelTick c) := by
  obtain ⟨k, hk, hrun, hbegin⟩ := begin_command (kind := kind) (r := r) (own := own) hs
  obtain ⟨k', hk', hrun'⟩ := (s.channelTick c).fetched_of_awaits kind r (State.awaits_channelTick hs c)
  have hsame : k' = k := by
    rw [s.channelTick_frame c] at hk'
    exact Option.some.inj (hk'.symm.trans hk)
  have htick : takeAlone (pickFuel [.event (.channelTick c)]) (.channelTick c) (s.taken k kind r) =
      some ((s.channelTick c).taken k kind r) := congrArg some (s.channelTick_taken k kind r c)
  rw [weave_command_nil hcourse hown, weave, hcourse, hbegin, List.foldl_cons, List.foldl_nil,
    finishAll_event rfl rfl rfl htick, finishAll_one (by simp) (answering_run hown _), State.carryOut, hrun', hsame]

/-- A channel's tick after enough turns of the processor is one after the command. -/
theorem weave_command_moves (hs : s.awaits) {n : Nat}
    (hwithin : ∀ k, own.Within n (s.taken k kind r)) (c : ChanId) :
    weave e (List.replicate (n + 1) (.move .processor) ++ [.event (.channelTick c)]) s =
      .next ((s.carryOut kind r f).channelTick c) := by
  obtain ⟨k, -, hrun, hbegin⟩ := begin_command (kind := kind) (r := r) (own := own) hs
  have hw : (answering own).Within (n + 1) (s.taken k kind r) := (hwithin k).bind (hown _) trivial
  have hturns := turns_within hw (answering_run hown _)
    (pickFuel (List.replicate (n + 1) (.move .processor) ++ [.event (.channelTick c)])) .processor []
  rw [Prog.thread_nil _ answering_ne_done] at hturns
  rw [weave, hcourse, hbegin, List.foldl_append, hturns, State.carryOut, hrun]
  rfl

end

end

end Sys2Proof.Machine
end

section
/-! PROOFS. ClipCommands.lean: CLIP_CLOSE and CLIP_DELETE (R111, R112). -/

namespace Sys2Proof.Machine

/-! ## A clip's end beside the processor and the memory path -/

section
variable (s : State) (x : Proc) (m : MemPath)

theorem State.unlock_beside (n : Nat) :
    (({ s with proc := x, mem := m } : State).unlock n).1 = { (s.unlock n).1 with proc := x, mem := m } := by
  have hslot : ({ s with proc := x, mem := m } : State).slot n = s.slot n := rfl
  have howner : ({ s with proc := x, mem := m } : State).ownerOf n = s.ownerOf n := rfl
  by_cases h0 : (s.slot n).locks = 0
  · simp [State.unlock, hslot, h0]
  by_cases h1 : (s.slot n).locks = 1
  · cases hc : s.ownerOf n <;> simp [State.unlock, State.countLocked, hslot, howner, h1, hc] <;> rfl
  · simp [State.unlock, hslot, h0, h1]
    rfl

theorem State.unlockEach_beside (ns : List Nat) :
    ({ s with proc := x, mem := m } : State).unlockEach ns = { s.unlockEach ns with proc := x, mem := m } := by
  unfold State.unlockEach
  induction ns generalizing s with
  | nil => rfl
  | cons n ns ih => rw [List.foldl_cons, List.foldl_cons, State.unlock_beside, ih]

theorem State.recordClose_beside (k o : Nat) (why : Reason) :
    ({ s with proc := x, mem := m } : State).recordClose k o why = { s.recordClose k o why with proc := x, mem := m } := by
  have hclip : ({ s with proc := x, mem := m } : State).clip k = s.clip k := rfl
  unfold State.recordClose
  rw [hclip]
  dsimp only
  cases (s.clip k).attached <;> rfl

theorem State.recordDelete_beside (k : Nat) (why : Reason) :
    ({ s with proc := x, mem := m } : State).recordDelete k why = { s.recordDelete k why with proc := x, mem := m } := by
  have hclip : ({ s with proc := x, mem := m } : State).clip k = s.clip k := rfl
  unfold State.recordDelete
  rw [hclip]
  dsimp only
  cases (s.clip k).attached <;> rfl

theorem State.closeNow_beside (k o : Nat) (why : Reason) :
    ({ s with proc := x, mem := m } : State).closeNow k o why = { s.closeNow k o why with proc := x, mem := m } := by
  unfold State.closeNow
  rw [State.unlockEach_beside, State.recordClose_beside]
  rfl

theorem State.deleteNow_beside (k : Nat) (why : Reason) :
    ({ s with proc := x, mem := m } : State).deleteNow k why = { s.deleteNow k why with proc := x, mem := m } := by
  unfold State.deleteNow
  rw [State.unlockEach_beside, State.recordDelete_beside]
  rfl

end

/-! ## A clip's deletion (R112) -/

section
variable (s : State) (k : Nat) (why : Reason)

theorem State.recordDelete_frame :
    s.recordDelete k why = { s with clips := (s.recordDelete k why).clips, evt := (s.recordDelete k why).evt
                                    mail := (s.recordDelete k why).mail } := by
  unfold State.recordDelete
  dsimp only
  cases (s.clip k).attached <;> rfl

theorem State.deleteNow_frame :
    s.deleteNow k why =
      { s with slots := (s.deleteNow k why).slots, chans := (s.deleteNow k why).chans, clips := (s.deleteNow k why).clips
               evt := (s.deleteNow k why).evt, mail := (s.deleteNow k why).mail } := by
  unfold State.deleteNow
  rw [State.recordDelete_frame, State.unlockEach_frame]

theorem State.deleteNow_clip (j : Nat) : (s.deleteNow k why).clip j = if j = k then {} else s.clip j := by
  simp [State.deleteNow, State.recordDelete, State.raise, State.raiseAt]

theorem State.deleteNow_slot (n : Nat) :
    (s.deleteNow k why).slot n = (s.slot n).unlockedBy ((s.clipSlots (s.clip k) (s.clip k).inF (s.clip k).outF).count n) := by
  simp [State.deleteNow, State.recordDelete, State.raise, State.raiseAt, State.unlockEach_slot]

theorem State.deleteNow_chan (d : ChanId) :
    (s.deleteNow k why).chan d = { s.chan d with locked := ((s.deleteNow k why).chan d).locked } := by
  simp only [State.deleteNow, State.recordDelete, State.raise, State.raiseAt, State.setClip_chan, State.setEvt_chan, State.detachClip_chan]
  exact State.unlockEach_chan _ _ _

theorem State.deleteNow_mail :
    (s.deleteNow k why).mail = (match (s.clip k).attached with
      | none => s.mail
      | some h => { s.mail with toHead := pushAt s.mail.toHead h (.detach k) }) := by
  simp only [State.deleteNow, State.recordDelete, State.raise, State.raiseAt, State.setClip_mail, State.setEvt_mail, State.unlockEach_clip]
  unfold State.detachClip
  cases (s.clip k).attached <;> simp [State.tellHead]

theorem State.deleteNow_evt :
    (s.deleteNow k why).evt = s.evt.posted .clipDeleted why k { s.clip k with growing := false }.flags
      (BitVec.ofNat 32 ((s.clip k).outF - (s.clip k).inF + 1)) s.ref.count := by
  simp only [State.deleteNow, State.recordDelete, State.raise, State.raiseAt, State.setClip_evt, State.detachClip_evt, State.unlockEach_evt, State.detachClip_ref,
    State.unlockEach_ref, State.unlockEach_clip]
  rfl

end

/-! ## How many operations they are -/

theorem State.clipSlots_length_le (s : State) (c : Clip) (lo hi : Nat) : (s.clipSlots c lo hi).length ≤ hi + 1 - lo := by
  unfold State.clipSlots
  exact (List.length_filterMap_le _ _).trans_eq List.length_range

theorem closeClip_within (s t : State) (k o : Nat) (why : Reason) :
    (closeClip s k o why).Within ((s.clip k).outF - o + 1) t := by
  have hlen := s.clipSlots_length_le (s.clip k) (o + 1) (s.clip k).outF
  exact ((Prog.within_each _ _ _ t).mono (by omega)).bind (unlockAll_run _ t) trivial

theorem deleteClip_within (s t : State) (k : Nat) (why : Reason) :
    (deleteClip s k why).Within ((s.clip k).outF - (s.clip k).inF + 2) t := by
  have hlen := s.clipSlots_length_le (s.clip k) (s.clip k).inF (s.clip k).outF
  exact ((Prog.within_each (fun _ => [.clips]) (fun n u => (u.unlock n).1) _ t).mono
    (m := (s.clip k).outF - (s.clip k).inF + 1) (by omega)).bind (m := 1) (unlockAll_run _ t) trivial

section
variable {r : CmdArgs} {k : Nat} {s : State}

theorem clipClose_within (hk : targetClip r = some k) (hopen : (s.clip k).state = .opened) :
    (clipClose r).Within ((s.clip k).outF - clampNat (s.clip k).inF (s.clip k).outF r.a.toNat + 2) s := by
  unfold clipClose
  rw [hk]
  change (match (s.clip k).state with | .free => _ | .closed => _ | .opened => _ : Prog CmdResult).Within
    ((s.clip k).outF - clampNat (s.clip k).inF (s.clip k).outF r.a.toNat + 1) s
  rw [hopen]
  exact ((closeClip_within s _ k _ .command).onTable).bind (m := 0) (by rw [Prog.onTable_run, closeClip_run]) trivial

theorem clipDelete_within (hk : targetClip r = some k) (hused : (s.clip k).state ≠ .free) (hno : s.hasClipHead k = false) :
    (clipDelete r).Within ((s.clip k).outF - (s.clip k).inF + 3) s := by
  unfold clipDelete
  rw [hk]
  change (if (s.clip k).state = .free then _ else if s.hasClipHead k then _ else _ : Prog CmdResult).Within
    ((s.clip k).outF - (s.clip k).inF + 2) s
  rw [if_neg hused, hno]
  exact ((deleteClip_within s _ k .command).onTable).bind (m := 0) (by rw [Prog.onTable_run, deleteClip_run]) trivial

end

/-! ## A channel's tick beside them -/

section
variable (r : CmdArgs) {k : Nat} {s : State} (hs : s.awaits) (c : ChanId)
include hs

theorem exec_clipClose_tick : exec (.clipClose r [.event (.channelTick c)]) s = exec (.clipClose r []) (s.channelTick c) :=
  weave_command_tick (e := .command 0x0E r) (kind := 0x0E) (r := r) (fun _ _ => rfl) (clipClose_run r) hs c

theorem exec_clipDelete_tick : exec (.clipDelete r [.event (.channelTick c)]) s = exec (.clipDelete r []) (s.channelTick c) :=
  weave_command_tick (e := .command 0x0F r) (kind := 0x0F) (r := r) (fun _ _ => rfl) (clipDelete_run r) hs c

variable {r}

theorem exec_clipClose_moves (hk : targetClip r = some k) (hopen : (s.clip k).state = .opened) {o : Nat}
    (ho : clampNat (s.clip k).inF (s.clip k).outF r.a.toNat = o) :
    exec (.clipClose r (List.replicate ((s.clip k).outF - o + 3) (.move .processor) ++ [.event (.channelTick c)])) s =
      exec (.channelTick c) (s.carryOut 0x0E r (clipCloseNow r)) := by
  have hwithin (j : Nat) : (clipClose r).Within ((s.clip k).outF - o + 2) (s.taken j 0x0E r) := by
    have h := clipClose_within (s := s.taken j 0x0E r) hk hopen
    have hclip : (s.taken j 0x0E r).clip k = s.clip k := rfl
    rw [hclip, ho] at h
    exact h
  exact weave_command_moves (e := .command 0x0E r) (kind := 0x0E) (r := r) (fun _ _ => rfl) (clipClose_run r) hs hwithin c

theorem exec_clipDelete_moves (hk : targetClip r = some k) (hused : (s.clip k).state ≠ .free) (hno : s.hasClipHead k = false) :
    exec (.clipDelete r (List.replicate ((s.clip k).outF - (s.clip k).inF + 4) (.move .processor) ++ [.event (.channelTick c)])) s =
      exec (.channelTick c) (s.carryOut 0x0F r (clipDeleteNow r)) :=
  weave_command_moves (e := .command 0x0F r) (kind := 0x0F) (r := r) (fun _ _ => rfl) (clipDelete_run r) hs
    (n := (s.clip k).outF - (s.clip k).inF + 3) (fun j => clipDelete_within (s := s.taken j 0x0F r) hk hused hno) c

end

/-! ## The commands as their clip manager answers them -/

section
variable {r : CmdArgs} {k : Nat} {s : State}

theorem clipCloseNow_of_badArg (h : 255 < r.target.toNat) (s : State) : clipCloseNow r s = (s, .refused .badArg) := by
  rw [clipCloseNow, targetClip_none h]

theorem clipDeleteNow_of_badArg (h : 255 < r.target.toNat) (s : State) : clipDeleteNow r s = (s, .refused .badArg) := by
  rw [clipDeleteNow, targetClip_none h]

theorem clipTag_of_badArg (h : 255 < r.target.toNat) (s : State) : clipTag r s = (s, .refused .badArg) := by
  rw [clipTag, targetClip_none h]

theorem clipCloseNow_of_free (hk : targetClip r = some k) (h : (s.clip k).state = .free) :
    clipCloseNow r s = (s, .refused .noClip) := by
  simp only [clipCloseNow, hk, h]

theorem clipCloseNow_of_closed (hk : targetClip r = some k) (h : (s.clip k).state = .closed) :
    clipCloseNow r s = (s, .refused .state) := by
  simp only [clipCloseNow, hk, h]

theorem clipCloseNow_of_opened (hk : targetClip r = some k) (h : (s.clip k).state = .opened) {o : Nat}
    (ho : clampNat (s.clip k).inF (s.clip k).outF r.a.toNat = o) :
    clipCloseNow r s = (s.closeNow k o .command, doneOrClamped (o ≠ r.a.toNat) (BitVec.ofNat 32 o)) := by
  simp only [clipCloseNow, hk, h, ho, CmdResult.fitted_eq_doneOrClamped]

theorem State.hasClipHead_iff : s.hasClipHead k = true ↔ ∃ h, (s.head h).src = .clip k := by
  simp [State.hasClipHead, mem_allHeads]

theorem clipDeleteNow_of_free (hk : targetClip r = some k) (h : (s.clip k).state = .free) :
    clipDeleteNow r s = (s, .refused .noClip) := by
  simp only [clipDeleteNow, hk, h, if_true]

theorem clipDeleteNow_of_inUse (hk : targetClip r = some k) (h : (s.clip k).state ≠ .free) (hu : ∃ h, (s.head h).src = .clip k) :
    clipDeleteNow r s = (s, .refused .inUse) := by
  simp only [clipDeleteNow, hk, if_neg h, State.hasClipHead_iff.2 hu, if_true]

theorem clipDeleteNow_of (hk : targetClip r = some k) (h : (s.clip k).state ≠ .free) (hno : s.hasClipHead k = false) :
    clipDeleteNow r s = (s.deleteNow k .command, .done (BitVec.ofNat 32 ((s.clip k).outF - (s.clip k).inF + 1))) := by
  simp only [clipDeleteNow, hk, if_neg h, hno]
  rfl

end

/-- Settles O38: a refusal changes nothing; a close and a delete are their program's run, which reads nothing of the processor and
the memory path; a tick falls before the program's first operation or after its last. -/
theorem clipCloseAndDeleteReleaseTheFrames : Obligations.ClipCloseAndDeleteReleaseTheFrames := by
  unfold Obligations.ClipCloseAndDeleteReleaseTheFrames
  refine ⟨fun s r i kind hs hbad hi => ?badArg, fun s r k hs hk hk' => ?_, fun s r k hs hk hk' => ?_⟩
  case badArg =>
    simp only [List.mem_cons, Prod.mk.injEq, List.not_mem_nil, or_false] at hi
    obtain ⟨rfl, rfl⟩ | ⟨rfl, rfl⟩ | ⟨rfl, rfl⟩ | ⟨rfl, rfl⟩ := hi
    · exact ⟨_, exec_clipClose_nil r s, State.carryOut_refused hs fun _ => clipCloseNow_of_badArg hbad _⟩
    · exact ⟨_, exec_clipDelete_nil r s, State.carryOut_refused hs fun _ => clipDeleteNow_of_badArg hbad _⟩
    · exact ⟨_, rfl, State.carryOut_refused hs fun _ => clipTag_of_badArg hbad _⟩
    · exact ⟨_, rfl, State.carryOutLong_refused hs fun _ => clipQuery_of_badArg (.inl hbad) _⟩
  · have ht := targetClip_of r k hk hk'
    refine ⟨fun hf => ?_, fun hc => ?_, fun ho hio => ?closed⟩
    · exact ⟨_, exec_clipClose_nil r s, State.carryOut_refused hs fun j => clipCloseNow_of_free (s := s.taken j 0x0E r) ht hf⟩
    · exact ⟨_, exec_clipClose_nil r s, State.carryOut_refused hs fun j => clipCloseNow_of_closed (s := s.taken j 0x0E r) ht hc⟩
    case closed =>
      obtain ⟨o, hfit⟩ : ∃ o, clampNat (s.clip k).inF (s.clip k).outF r.a.toNat = o := ⟨_, rfl⟩
      have ha := State.carryOut_answered_beside (own := clipCloseNow r) (kind := 0x0E) (r := r) hs (s.closeNow k o .command)
        (doneOrClamped (o ≠ r.a.toNat) (BitVec.ofNat 32 o))
        (fun j => by
          rw [clipCloseNow_of_opened (s := s.taken j 0x0E r) ht ho hfit]
          exact congrArg (·, _) (s.closeNow_beside _ _ k o .command))
        (by rw [State.closeNow_frame]) (by rw [State.closeNow_frame])
      have hcl := s.closeNow_closed k o .command
      obtain ⟨hclip, hext, hothers, hslots, hchans, hmail, hevt⟩ := hcl
      refine ⟨_, o, exec_clipClose_nil r s, ?_, ha.ended, ⟨?_, ?_, fun j hj => ?_, fun n => ?_, fun d => ?_, ?_, ?_⟩,
        fun c w hw => ?_, fun c => ?_, ?_⟩
      · rw [← hfit]
        exact fittedTo_clampNat _ _ _ hio
      · rw [ha.clip]
        exact hclip
      · rw [ha.clip]
        exact hext
      · rw [ha.clip]
        exact hothers j hj
      · rw [ha.slot]
        exact hslots n
      · rw [ha.chan]
        exact hchans d
      · rw [ha.mail]
        exact hmail
      · rw [ha.evt]
        exact hevt
      · obtain rfl : s.channelTick c = w := Host.Outcome.next.inj hw
        exact exec_clipClose_tick r hs c
      · exact exec_clipClose_moves hs c ht ho hfit
      · rw [ha.slots, ha.chans, ha.clips, ha.evt, ha.mail]
        refine ha.eq.trans ?_
        rw [State.closeNow_frame]
  · have ht := targetClip_of r k hk hk'
    refine ⟨fun hf => ?_, fun hu hin => ?_, fun hu hno => ?deleted⟩
    · exact ⟨_, exec_clipDelete_nil r s, State.carryOut_refused hs fun j => clipDeleteNow_of_free (s := s.taken j 0x0F r) ht hf⟩
    · exact ⟨_, exec_clipDelete_nil r s, State.carryOut_refused hs fun j => clipDeleteNow_of_inUse (s := s.taken j 0x0F r) ht hu hin⟩
    case deleted =>
      have hnone : s.hasClipHead k = false := by
        rw [Bool.eq_false_iff, Ne, State.hasClipHead_iff]
        rintro ⟨h, hh⟩
        exact hno h hh
      have ha := State.carryOut_answered_beside (own := clipDeleteNow r) (kind := 0x0F) (r := r) hs (s.deleteNow k .command)
        (.done (BitVec.ofNat 32 ((s.clip k).outF - (s.clip k).inF + 1)))
        (fun j => by
          rw [clipDeleteNow_of (s := s.taken j 0x0F r) ht hu hnone]
          exact congrArg (·, _) (s.deleteNow_beside _ _ k .command))
        (by rw [State.deleteNow_frame]) (by rw [State.deleteNow_frame])
      refine ⟨_, exec_clipDelete_nil r s, ha.ended, fun c w hw => ?_, fun c => ?_, ?_, fun j hj => ?_, fun n => ?_, fun d => ?_, ?_,
        ?_, ?_⟩
      · obtain rfl : s.channelTick c = w := Host.Outcome.next.inj hw
        exact exec_clipDelete_tick r hs c
      · exact exec_clipDelete_moves hs c ht hu hnone
      · rw [ha.clip, State.deleteNow_clip, if_pos rfl]
      · rw [ha.clip, State.deleteNow_clip, if_neg hj]
      · rw [ha.slot]
        exact s.deleteNow_slot k .command n
      · rw [ha.chan]
        exact s.deleteNow_chan k .command d
      · rw [ha.mail]
        exact s.deleteNow_mail k .command
      · rw [ha.evt]
        exact s.deleteNow_evt k .command
      · rw [ha.slots, ha.chans, ha.clips, ha.evt, ha.mail]
        refine ha.eq.trans ?_
        rw [State.deleteNow_frame]

end Sys2Proof.Machine
end

section
/-! PROOFS. LocksAndStops.lean: what a lock does (R9), and the clips that a stop notice closes (R110). -/

namespace Sys2Proof.Machine

/-! ## A lock, taken or declined (R9) -/

section
variable (s : State) (n r : Nat)

theorem State.hasAllowance_iff :
    s.hasAllowance n = true ↔ ∃ c, s.ownerOf n = some c ∧ (s.chan c).locked < (s.chan c).len - (s.chan c).reserve := by
  unfold State.hasAllowance
  cases s.ownerOf n <;> simp

theorem State.setSlot_lockTaken {x : Slot} (hx : x = { s.slot n with locks := (s.slot n).locks + 1 }) (h0 : (s.slot n).locks ≠ 0) :
    s.lockTaken (s.setSlot n x) n := by
  subst hx
  refine ⟨fun m => s.setSlot_slot n m _, fun d => ?_⟩
  rw [if_neg (fun h => h0 h.2)]
  rfl

theorem State.countLocked_chan_eq (f : Nat → Nat) (d : ChanId) :
    (s.countLocked n f).chan d = if s.ownerOf n = some d then { s.chan d with locked := f (s.chan d).locked } else s.chan d := by
  unfold State.countLocked
  cases s.ownerOf n with
  | none => simp
  | some c =>
    rw [State.setChan_chan]
    by_cases h : d = c
    · subst h
      simp
    · simp [h, Ne.symm h]

variable {s n r}

/-- A lock that can be taken is taken. -/
theorem State.lock_of_lockable (h : s.lockable n r) : (s.lock n r).2 = .done none ∧ s.lockTaken (s.lock n r).1 n := by
  obtain ⟨hheld, hrfn, hmax, hroom⟩ := h
  have hlimit : ¬ Config.maxLocks ≤ (s.slot n).locks := Nat.not_le.mpr hmax
  by_cases h0 : (s.slot n).locks = 0
  · have hall := (s.hasAllowance_iff n).2 (hroom h0)
    have hlock : s.lock n r = ((s.countLocked n (· + 1)).setSlot n { s.slot n with locks := 1 }, .done none) := by
      simp [State.lock, hheld, hrfn, h0, hall]
    rw [hlock]
    refine ⟨rfl, fun m => ?_, fun d => ?_⟩
    · rw [State.setSlot_slot, h0, State.countLocked_frame]
      rfl
    · rw [State.setSlot_chan, State.countLocked_chan_eq]
      simp [h0]
  · have hlock : s.lock n r = (s.setSlot n { s.slot n with locks := (s.slot n).locks + 1 }, .done none) := by
      simp [State.lock, hheld, hrfn, h0, hlimit]
    rw [hlock]
    exact ⟨rfl, s.setSlot_lockTaken n rfl h0⟩

theorem State.lock_of_gone (h : (s.slot n).state ≠ .held ∨ (s.slot n).rfn ≠ r) : s.lock n r = (s, .declined .notHeld) :=
  if_pos h

/-- A lock on the frame that the slot holds, and that cannot be taken, is declined. -/
theorem State.lock_of_not_lockable (h : ¬ s.lockable n r) (hheld : (s.slot n).state = .held) (hrfn : (s.slot n).rfn = r) :
    ∃ x, x ≠ .notHeld ∧ s.lock n r = (s, .declined x) := by
  have hthere : ¬ ((s.slot n).state ≠ .held ∨ (s.slot n).rfn ≠ r) := by simp [hheld, hrfn]
  by_cases hlimit : Config.maxLocks ≤ (s.slot n).locks
  · exact ⟨.atLimit, by decide, by rw [State.lock, if_neg hthere, if_pos hlimit]⟩
  · have h0 : (s.slot n).locks = 0 := by
      by_contra h0
      exact h ⟨hheld, hrfn, Nat.not_le.1 hlimit, fun h' => absurd h' h0⟩
    have hnone : ¬ s.hasAllowance n = true := fun ha =>
      h ⟨hheld, hrfn, Nat.not_le.1 hlimit, fun _ => (s.hasAllowance_iff n).1 ha⟩
    exact ⟨.noAllowance, by decide, by rw [State.lock, if_neg hthere, if_neg hlimit, if_pos h0, if_neg hnone]⟩

/-- A lock that cannot be taken changes nothing. -/
theorem State.lock_declined (h : ¬ s.lockable n r) : ∃ x, s.lock n r = (s, .declined x) := by
  by_cases hthere : (s.slot n).state = .held ∧ (s.slot n).rfn = r
  · obtain ⟨x, -, hx⟩ := State.lock_of_not_lockable h hthere.1 hthere.2
    exact ⟨x, hx⟩
  · exact ⟨.notHeld, State.lock_of_gone (not_and_or.1 hthere)⟩

end

/-! ## Clips closed at their outs (R92, R110) -/

section
variable (s : State) (k : Nat) (why : Reason)

theorem State.closeAtOut_closed : s.clipClosed (s.closeAtOut k why) k (s.clip k).outF (s.clip k) why := by
  rw [← State.closeNow_out]
  exact s.closeNow_closed k _ why

theorem State.closeAtOut_clip (j : Nat) :
    (s.closeAtOut k why).clip j = if j = k then (s.clip k).closedAt (s.clip k).outF why else s.clip j := by
  unfold State.closeAtOut State.recordClose
  simp [State.raise, State.raiseAt]

theorem State.closeAtOut_evt :
    (s.closeAtOut k why).evt = s.evt.posted .clipClosed why k { s.clip k with growing := false }.flags
      (BitVec.ofNat 32 (s.clip k).outF) s.ref.count := by
  obtain ⟨-, -, -, -, -, -, hevt⟩ := s.closeAtOut_closed k why
  exact hevt

theorem State.closeAtOut_mail :
    (s.closeAtOut k why).mail = (match (s.clip k).attached with
      | none => s.mail
      | some h => { s.mail with toHead := pushAt s.mail.toHead h (.detach k) }) := by
  obtain ⟨-, -, -, -, -, hmail, -⟩ := s.closeAtOut_closed k why
  exact hmail

theorem State.closeAtOut_frame :
    s.closeAtOut k why = { s with clips := (s.closeAtOut k why).clips, evt := (s.closeAtOut k why).evt
                                  mail := { s.mail with toHead := (s.closeAtOut k why).mail.toHead } } := by
  have hmail : (s.closeAtOut k why).mail = { s.mail with toHead := (s.closeAtOut k why).mail.toHead } := by
    rw [State.closeAtOut_mail]
    cases (s.clip k).attached <;> rfl
  rw [← hmail]
  exact s.recordClose_frame k _ why

theorem State.closeAtOut_work : s.clipWork (s.closeAtOut k why) := by
  have h := s.recordClose_frame k (s.clip k).outF why
  have hslots : (s.closeAtOut k why).slots = s.slots := (congrArg State.slots h :)
  have hchans : (s.closeAtOut k why).chans = s.chans := (congrArg State.chans h :)
  rw [State.clipWork, hslots, hchans]
  exact h

end

theorem State.closeAll_cons (s : State) (k : Nat) (ks : List Nat) (why : Reason) :
    s.closeAll (k :: ks) why = (s.closeAtOut k why).closeAll ks why := rfl

theorem State.closeAll_closesEach (ks : List Nat) (why : Reason) (s : State) : closesEach why ks s (s.closeAll ks why) := by
  induction ks generalizing s with
  | nil => rfl
  | cons k ks ih => exact ⟨s.closeAtOut k why, s.closeAtOut_closed k why, s.closeAtOut_work k why, ih _⟩

theorem State.closeAll_clip_of_not_mem {ks : List Nat} (why : Reason) {j : Nat} (hj : j ∉ ks) (s : State) :
    (s.closeAll ks why).clip j = s.clip j := by
  induction ks generalizing s with
  | nil => rfl
  | cons k ks ih =>
    rw [List.mem_cons, not_or] at hj
    rw [State.closeAll_cons, ih hj.2, State.closeAtOut_clip, if_neg hj.1]

theorem State.closeAll_clip_of_mem {ks : List Nat} (why : Reason) {j : Nat} (hj : j ∈ ks) (hnodup : ks.Nodup) (s : State) :
    (s.closeAll ks why).clip j = (s.clip j).closedAt (s.clip j).outF why := by
  induction ks generalizing s with
  | nil => cases hj
  | cons k ks ih =>
    obtain ⟨hk, hnodup⟩ := List.nodup_cons.1 hnodup
    rw [State.closeAll_cons]
    obtain rfl | hj := List.mem_cons.1 hj
    · rw [State.closeAll_clip_of_not_mem why hk, State.closeAtOut_clip, if_pos rfl]
    · rw [ih hj hnodup, State.closeAtOut_clip, if_neg (ne_of_mem_of_not_mem hj hk)]

/-- What the closes post and hand on, read from the clips as they stood: `g` is the clip table before the closes. -/
theorem State.closeAll_told {ks : List Nat} (why : Reason) (hnodup : ks.Nodup) (g : Nat → Clip) (s : State) (hg : ∀ j ∈ ks, s.clip j = g j) :
    (s.closeAll ks why).evt = ks.foldl (fun e k =>
        e.posted .clipClosed why k { g k with growing := false }.flags (BitVec.ofNat 32 (g k).outF) s.ref.count) s.evt ∧
      ∀ h, (s.closeAll ks why).mail.toHead.get h = s.mail.toHead.get h ++
        (ks.filter (fun k => decide ((g k).attached = some h))).map HeadNote.detach := by
  induction ks generalizing s with
  | nil => exact ⟨rfl, fun h => by simp [State.closeAll]⟩
  | cons k ks ih =>
    obtain ⟨hk, hnodup⟩ := List.nodup_cons.1 hnodup
    have hkeep : ∀ j ∈ ks, (s.closeAtOut k why).clip j = g j := fun j hj => by
      rw [State.closeAtOut_clip, if_neg (ne_of_mem_of_not_mem hj hk), hg j (List.mem_cons_of_mem _ hj)]
    have href : (s.closeAtOut k why).ref = s.ref := by rw [State.closeAtOut_frame]
    obtain ⟨hevt, htold⟩ := ih hnodup (s.closeAtOut k why) hkeep
    rw [State.closeAll_cons]
    refine ⟨?_, fun h => ?_⟩
    · rw [hevt, href, State.closeAtOut_evt, List.foldl_cons, hg k List.mem_cons_self]
    · rw [htold, State.closeAtOut_mail, hg k List.mem_cons_self]
      cases ha : (g k).attached with
      | none => simp [ha]
      | some x =>
        by_cases hx : h = x
        · subst hx
          simp [ha]
        · simp [ha, hx, Ne.symm hx]

theorem State.closeAll_frame (ks : List Nat) (why : Reason) (s : State) :
    s.closeAll ks why = { s with clips := (s.closeAll ks why).clips, evt := (s.closeAll ks why).evt
                                 mail := { s.mail with toHead := (s.closeAll ks why).mail.toHead } } := by
  induction ks generalizing s with
  | nil => rfl
  | cons k ks ih =>
    rw [State.closeAll_cons]
    refine (ih _).trans ?_
    rw [State.closeAtOut_frame]

theorem State.growers_nodup (s : State) (c : ChanId) (f : Clip → Bool) : (s.growers c f).Nodup :=
  List.nodup_range.filter _

/-- Settles O40: the growers are closed at their outs in turn; each close leaves the records of the others as they were. -/
theorem stopNoticeClosesGrowingClips : Obligations.StopNoticeClosesGrowingClips := by
  unfold Obligations.StopNoticeClosesGrowingClips
  intro s c cause rest why growers hnote hlimit hstop hgrowers
  have hwhy : cause.closeReason = why := by
    cases cause with
    | rfnLimit => exact (hlimit rfl).symm
    | stop => exact (hstop (by decide)).symm
    | abort => exact (hstop (by decide)).symm
    | disengage => exact (hstop (by decide)).symm
  have hgrow : s.growers c (fun _ => true) = growers := by
    rw [hgrowers, State.growers]
    simp [Config.clipCount]
  have htake : s.takeStop c = (s.setMail { s.mail with chanNotes := popAt s.mail.chanNotes c }).closeAll growers why := by
    rw [State.takeStop, hnote, ← hwhy, ← hgrow]
  have hnodup : growers.Nodup := hgrow ▸ s.growers_nodup c _
  obtain ⟨hevt, htold⟩ := State.closeAll_told why hnodup s.clip (s.setMail { s.mail with chanNotes := popAt s.mail.chanNotes c })
    (fun _ _ => rfl)
  refine ⟨_, congrArg Host.Outcome.next htake, fun k hk => ?_, fun k hk => State.closeAll_clip_of_not_mem why hk _, hevt, htold,
    State.closeAll_frame growers why _⟩
  rw [State.closeAll_clip_of_mem why hk hnodup]
  exact ⟨rfl, fun lo hcover hlo => extentsCover_trimTop _ _ _ _ hcover hlo le_rfl⟩

end Sys2Proof.Machine
end

section
/-! PROOFS. ClipPart.lean: what the clip manager's operations read and write. -/

namespace Sys2Proof.Machine

/-- State `x` with all that the operations of the clip manager read and write taken from `s`: the slot, index, channel and clip
tables, the event unit, the reference's count of ticks and the notices to the heads. -/
def State.clipPart (x s : State) : State :=
  { x with
    slots := s.slots, index := s.index, chans := s.chans, clips := s.clips, evt := s.evt, ref := s.ref
    mail := { x.mail with toHead := s.mail.toHead } }

/-- Every operation of the program reads the clip manager's part alone, and writes of it all but the index pool and the count of
ticks. -/
def Prog.OnClips {α : Type} : Prog α → Prop
  | .done _ => True
  | .never => True
  | .op _ f next =>
    (∀ x s : State, f (x.clipPart s) = x.clipPart (f s)) ∧ (∀ s, (f s).index = s.index ∧ (f s).ref = s.ref) ∧
      (∀ x s : State, next (x.clipPart s) = next s) ∧ ∀ s, (next s).OnClips

section
variable {α β : Type}

theorem Prog.OnClips.bind {p : Prog α} {g : α → Prog β} (hp : p.OnClips) (hg : ∀ a, (g a).OnClips) : (p.bind g).OnClips := by
  induction p with
  | done a => exact hg a
  | never => trivial
  | op b f next ih =>
    obtain ⟨hf, hkeep, hnext, hrest⟩ := hp
    exact ⟨hf, hkeep, fun x s => congrArg (·.bind g) (hnext x s), fun s => ih s (hrest s)⟩

/-- A run sees nothing beside the clip manager's part. -/
theorem Prog.OnClips.run_clipPart {p : Prog α} (hp : p.OnClips) (x s : State) :
    p.run (x.clipPart s) = (p.run s).map (fun y => (x.clipPart y.1, y.2)) := by
  induction p generalizing s with
  | done a => rfl
  | never => rfl
  | op b f next ih =>
    obtain ⟨hf, -, hnext, hrest⟩ := hp
    rw [Prog.run_op, Prog.run_op, hf, hnext, ih s (hrest s)]

theorem Prog.OnClips.run_eq {p : Prog α} (hp : p.OnClips) {s t : State} {a : α} (h : p.run s = some (t, a)) (x : State) :
    p.run (x.clipPart s) = some (x.clipPart t, a) := by
  rw [hp.run_clipPart, h]
  rfl

/-- A run leaves all that is beside the clip manager's part. -/
theorem Prog.OnClips.frame {p : Prog α} (hp : p.OnClips) {s t : State} {a : α} (h : p.run s = some (t, a)) : t = s.clipPart t := by
  have hrun : some (t, a) = some (s.clipPart t, a) := h.symm.trans (hp.run_eq h s)
  exact congrArg Prod.fst (Option.some.inj hrun)

/-- A run leaves the index pool and the count of ticks. -/
theorem Prog.OnClips.keeps {p : Prog α} (hp : p.OnClips) {s t : State} {a : α} (h : p.run s = some (t, a)) :
    t.index = s.index ∧ t.ref = s.ref := by
  induction p generalizing s with
  | done a =>
    cases h
    exact ⟨rfl, rfl⟩
  | never => cases h
  | op b f next ih =>
    obtain ⟨-, hkeep, -, hrest⟩ := hp
    obtain ⟨hindex, href⟩ := ih s (hrest s) h
    exact ⟨hindex.trans (hkeep s).1, href.trans (hkeep s).2⟩

end

theorem Prog.onClips_act {b : List Agent} {f : State → State} (hf : ∀ x s : State, f (x.clipPart s) = x.clipPart (f s))
    (hkeep : ∀ s, (f s).index = s.index ∧ (f s).ref = s.ref) : (Prog.act b f).OnClips :=
  ⟨hf, hkeep, fun _ _ => rfl, fun _ => trivial⟩

theorem Prog.onClips_each {ι : Type} {b : ι → List Agent} {f : ι → State → State}
    (hf : ∀ i (x s : State), f i (x.clipPart s) = x.clipPart (f i s)) (hkeep : ∀ i s, (f i s).index = s.index ∧ (f i s).ref = s.ref) (is : List ι) : (Prog.each b f is).OnClips := by
  induction is with
  | nil => trivial
  | cons i is ih => exact ⟨hf i, hkeep i, fun _ _ => rfl, fun _ => ih⟩

/-! ## The operations -/

section
variable (x s : State)

theorem State.countLocked_clipPart (n : Nat) (f : Nat → Nat) :
    (x.clipPart s).countLocked n f = x.clipPart (s.countLocked n f) := by
  unfold State.countLocked
  change (match s.ownerOf n with
    | none => x.clipPart s
    | some c => (x.clipPart s).setChan c { s.chan c with locked := f (s.chan c).locked }) = _
  cases s.ownerOf n <;> rfl

theorem State.lock_clipPart (n r : Nat) : (x.clipPart s).lock n r = (x.clipPart (s.lock n r).1, (s.lock n r).2) := by
  have hslot : (x.clipPart s).slot n = s.slot n := rfl
  have hall : (x.clipPart s).hasAllowance n = s.hasAllowance n := rfl
  unfold State.lock
  rw [hslot, hall, State.countLocked_clipPart]
  by_cases hgone : (s.slot n).state ≠ .held ∨ (s.slot n).rfn ≠ r
  · rw [if_pos hgone, if_pos hgone]
  · rw [if_neg hgone, if_neg hgone]
    split_ifs <;> rfl

theorem State.unlock_clipPart (n : Nat) : ((x.clipPart s).unlock n).1 = x.clipPart (s.unlock n).1 := by
  have hslot : (x.clipPart s).slot n = s.slot n := rfl
  unfold State.unlock
  rw [hslot, State.countLocked_clipPart]
  split_ifs <;> rfl

theorem State.recordClose_clipPart (k o : Nat) (why : Reason) :
    (x.clipPart s).recordClose k o why = x.clipPart (s.recordClose k o why) := by
  have hclip : (x.clipPart s).clip k = s.clip k := rfl
  unfold State.recordClose
  rw [hclip]
  dsimp only
  cases (s.clip k).attached <;> rfl

theorem State.recordDelete_clipPart (k : Nat) (why : Reason) :
    (x.clipPart s).recordDelete k why = x.clipPart (s.recordDelete k why) := by
  have hclip : (x.clipPart s).clip k = s.clip k := rfl
  unfold State.recordDelete
  rw [hclip]
  dsimp only
  cases (s.clip k).attached <;> rfl

theorem State.closeAtOut_clipPart (k : Nat) (why : Reason) :
    (x.clipPart s).closeAtOut k why = x.clipPart (s.closeAtOut k why) := x.recordClose_clipPart s k _ why

theorem State.closeAll_clipPart (ks : List Nat) (why : Reason) :
    (x.clipPart s).closeAll ks why = x.clipPart (s.closeAll ks why) := by
  induction ks generalizing s with
  | nil => rfl
  | cons k ks ih => rw [State.closeAll_cons, State.closeAll_cons, State.closeAtOut_clipPart, ih]

theorem State.growClip_clipPart (k r p : Nat) : (x.clipPart s).growClip k r p = x.clipPart (s.growClip k r p) := by
  have hset (c : Clip) : (x.clipPart s).setClip k c = x.clipPart (s.setClip k c) := rfl
  have hclip : (x.clipPart s).clip k = s.clip k := rfl
  have hlen : ((x.clipPart s).chan (s.clip k).chan).len = (s.chan (s.clip k).chan).len := rfl
  unfold State.growClip
  rw [hclip]
  dsimp only
  rw [hset, hlen, State.recordClose_clipPart]
  split_ifs <;> rfl

theorem State.growTaker_clipPart (k : Nat) (ks : List Nat) (r n p : Nat) :
    (x.clipPart s).growTaker k ks r n p = (x.clipPart (s.growTaker k ks r n p).1, (s.growTaker k ks r n p).2) := by
  have hfull : topFull ((x.clipPart s).chan ((x.clipPart s).clip k).chan).len ((x.clipPart s).clip k).extents p =
    topFull (s.chan (s.clip k).chan).len (s.clip k).extents p := rfl
  unfold State.growTaker
  rw [hfull, State.lock_clipPart, State.closeAtOut_clipPart]
  split_ifs
  · rfl
  · obtain ⟨t, ans⟩ := s.lock n r
    cases ans with
    | done lost => exact congrArg (·, none) (x.growClip_clipPart t k r p)
    | declined why =>
      cases why <;> exact congrArg (·, _) (x.closeAll_clipPart t _ _)

theorem State.growLookup_clipPart (c : ChanId) (r : Nat) : (x.clipPart s).growLookup c r = x.clipPart (s.growLookup c r) := by
  unfold State.growLookup
  change (match s.indexLookup c r with
    | none => (x.clipPart s).closeAll (s.takers c r) .frameGone
    | some _ => x.clipPart s) = _
  cases s.indexLookup c r with
  | none => exact x.closeAll_clipPart s _ _
  | some n => rfl

end

/-! ## What they leave -/

section
variable (s : State)

theorem State.lock_keeps (n r : Nat) : (s.lock n r).1.index = s.index ∧ (s.lock n r).1.ref = s.ref := by
  rw [State.lock_frame]
  exact ⟨rfl, rfl⟩

theorem State.unlock_keeps (n : Nat) : (s.unlock n).1.index = s.index ∧ (s.unlock n).1.ref = s.ref := by
  rw [State.unlock_frame]
  exact ⟨rfl, rfl⟩

theorem State.recordClose_keeps (k o : Nat) (why : Reason) : (s.recordClose k o why).index = s.index ∧ (s.recordClose k o why).ref = s.ref := by
  rw [State.recordClose_frame]
  exact ⟨rfl, rfl⟩

theorem State.recordDelete_keeps (k : Nat) (why : Reason) : (s.recordDelete k why).index = s.index ∧ (s.recordDelete k why).ref = s.ref := by
  rw [State.recordDelete_frame]
  exact ⟨rfl, rfl⟩

theorem State.closeAll_keeps (ks : List Nat) (why : Reason) : (s.closeAll ks why).index = s.index ∧ (s.closeAll ks why).ref = s.ref := by
  rw [State.closeAll_frame]
  exact ⟨rfl, rfl⟩

theorem State.growClip_keeps (k r p : Nat) : (s.growClip k r p).index = s.index ∧ (s.growClip k r p).ref = s.ref := by
  unfold State.growClip
  dsimp only
  split_ifs
  · exact State.recordClose_keeps ..
  · exact ⟨rfl, rfl⟩

theorem State.growTaker_keeps (k : Nat) (ks : List Nat) (r n p : Nat) :
    (s.growTaker k ks r n p).1.index = s.index ∧ (s.growTaker k ks r n p).1.ref = s.ref := by
  unfold State.growTaker
  split_ifs
  · exact State.recordClose_keeps ..
  · have hlock := s.lock_keeps n r
    generalize s.lock n r = y at hlock ⊢
    obtain ⟨t, ans⟩ := y
    obtain ⟨hindex, href⟩ := hlock
    dsimp only at hindex href
    rw [← hindex, ← href]
    cases ans with
    | done lost => exact State.growClip_keeps ..
    | declined why => cases why <;> exact State.closeAll_keeps ..

theorem State.growLookup_keeps (c : ChanId) (r : Nat) : (s.growLookup c r).index = s.index ∧ (s.growLookup c r).ref = s.ref := by
  unfold State.growLookup
  cases s.indexLookup c r with
  | none => exact State.closeAll_keeps ..
  | some n => exact ⟨rfl, rfl⟩

end

/-! ## The programs -/

theorem onClips_unlockAll (ns : List Nat) : (unlockAll ns).OnClips :=
  Prog.onClips_each (fun n x s => x.unlock_clipPart s n) (fun n s => s.unlock_keeps n) ns

theorem onClips_closeClip (s : State) (k o : Nat) (why : Reason) : (closeClip s k o why).OnClips :=
  (onClips_unlockAll _).bind fun _ => Prog.onClips_act (fun x t => x.recordClose_clipPart t k o why) fun t => t.recordClose_keeps k o why

theorem onClips_deleteClip (s : State) (k : Nat) (why : Reason) : (deleteClip s k why).OnClips :=
  (onClips_unlockAll _).bind fun _ => Prog.onClips_act (fun x t => x.recordDelete_clipPart t k why) fun t => t.recordDelete_keeps k why

theorem onClips_growTakers (ks : List Nat) (r n p : Nat) : (growTakers ks r n p).OnClips := by
  induction ks with
  | nil => trivial
  | cons k ks ih =>
    refine ⟨fun x s => congrArg Prod.fst (x.growTaker_clipPart s k ks r n p), fun s => s.growTaker_keeps k ks r n p, fun x s => ?_, fun s => ?_⟩
    · dsimp only
      rw [State.growTaker_clipPart]
    · dsimp only
      cases (s.growTaker k ks r n p).2
      · exact ih
      · trivial

theorem onClips_growFrame (c : ChanId) (r : Nat) : (growFrame c r).OnClips := by
  refine ⟨fun x s => x.growLookup_clipPart s c r, fun s => s.growLookup_keeps c r, fun x s => rfl, fun s => ?_⟩
  dsimp only
  cases s.indexLookup c r
  · trivial
  · exact onClips_growTakers ..

theorem onClips_build (m : MarkSource) (fuel r : Nat) (es : List Extent) : (build m fuel r es).OnClips := by
  induction fuel generalizing r es with
  | zero => trivial
  | succ fuel ih =>
    refine ⟨fun _ _ => rfl, fun _ => ⟨rfl, rfl⟩, fun _ _ => rfl, fun s => ?_⟩
    dsimp only
    cases s.locate m r with
    | none => trivial
    | some y =>
      obtain ⟨n, p⟩ := y
      dsimp only
      split_ifs
      · trivial
      · refine ⟨fun x t => congrArg Prod.fst (x.lock_clipPart t n r), fun t => t.lock_keeps n r, fun x t => ?_, fun t => ?_⟩
        · dsimp only
          rw [State.lock_clipPart]
        · dsimp only
          cases (t.lock n r).2
          · exact ih _ _
          · trivial

end Sys2Proof.Machine
end

section
/-! PROOFS. Growth.lean: the growth of open clips by an arrival (R105 to R109). -/

namespace Sys2Proof.Machine

/-! ## A join at the top (R89) -/

theorem joinTop_append (len : Nat) (front : List Extent) (e : Extent) (r p : Nat) :
    joinTop len (front ++ [e]) r p =
      front ++ (if p = (e.pos + e.len) % len then [{ e with len := e.len + 1 }] else [e, { rfn := r, pos := p, len := 1 }]) := by
  induction front with
  | nil => rfl
  | cons x xs ih =>
    cases xs with
    | nil => simpa [joinTop] using ih
    | cons y ys => simpa [joinTop] using ih

theorem joinsLast_append (len : Nat) (front : List Extent) (e : Extent) (p : Nat) :
    joinsLast len (front ++ [e]) p ↔ p = (e.pos + e.len) % len := by
  constructor
  · rintro ⟨front', e', heq, hp⟩
    obtain ⟨-, rfl⟩ := List.append_inj' heq rfl |>.imp_right List.singleton_inj.1
    exact hp
  · exact fun h => ⟨front, e, rfl, h⟩

theorem joinedTop_joinTop (len : Nat) (es : List Extent) (r p : Nat) : joinedTop len es (joinTop len es r p) r p := by
  rcases List.eq_nil_or_concat es with rfl | ⟨front, e, rfl⟩
  · exact ⟨fun front e h => absurd h (by simp), fun _ => rfl⟩
  · rw [List.concat_eq_append, joinTop_append]
    refine ⟨fun front' e' heq hp => ?_, fun hno => ?_⟩
    · obtain ⟨rfl, rfl⟩ := List.append_inj' heq rfl |>.imp_right List.singleton_inj.1
      rw [if_pos hp]
    · rw [joinsLast_append] at hno
      rw [if_neg hno]
      simp

theorem topFull_iff (len : Nat) (es : List Extent) (p : Nat) : topFull len es p = true ↔ 16 ≤ es.length ∧ ¬ joinsLast len es p := by
  rcases List.eq_nil_or_concat es with rfl | ⟨front, e, rfl⟩
  · simp [topFull]
  · rw [List.concat_eq_append, joinsLast_append]
    simp [topFull, Config.maxExtents, and_comm]

/-! ## One taker (R106, R109) -/

/-- Closing at its own out a clip that has just been set to record `c`. -/
theorem State.setClip_closeAtOut (s : State) (k : Nat) (c : Clip) (why : Reason) :
    s.clipClosed ((s.setClip k c).recordClose k c.outF why) k c.outF c why ∧ s.clipWork ((s.setClip k c).recordClose k c.outF why) := by
  have hset : (s.setClip k c).clip k = c := by simp
  have hout : (s.setClip k c).recordClose k c.outF why = (s.setClip k c).closeAtOut k why := by rw [State.closeAtOut, hset]
  rw [hout]
  obtain ⟨hclip, hext, hothers, hslots, hchans, hmail, hevt⟩ := (s.setClip k c).closeAtOut_closed k why
  rw [hset] at hclip hext hslots hmail hevt
  refine ⟨⟨hclip, hext, fun j hj => ?_, hslots, hchans, hmail, hevt⟩, ?_⟩
  · rw [hothers j hj, State.setClip_clip, if_neg hj]
  · exact (s.setClip k c).closeAtOut_work k why

theorem State.growClip_grown (s : State) (k f n : Nat) :
    s.grown (s.growClip k f (n - (s.chan (s.clip k).chan).firstSlot)) k f n := by
  refine ⟨{ s.clip k with extents := joinTop (s.chan (s.clip k).chan).len (s.clip k).extents f
                                       (n - (s.chan (s.clip k).chan).firstSlot), outF := f }, rfl, joinedTop_joinTop .., ?_, ?_⟩
  · intro hq
    have hgrow : s.growClip k f (n - (s.chan (s.clip k).chan).firstSlot) = s.setClip k _ := if_neg hq
    rw [hgrow]
    exact ⟨by simp, fun j hj => by simp [hj], rfl⟩
  · intro hq
    have hgrow : s.growClip k f (n - (s.chan (s.clip k).chan).firstSlot) = (s.setClip k _).recordClose k f .quickDone := if_pos hq
    rw [hgrow]
    exact s.setClip_closeAtOut k _ .quickDone

/-! ## The takers in turn -/

/-- Before the takers `ks` of frame `f`: the frame stands HELD in slot `n`, position `p`, of channel `c`. -/
structure State.GrowsAt (s : State) (c : ChanId) (f n p : Nat) (ks : List Nat) : Prop where
  held : (s.slot n).state = .held
  rfn : (s.slot n).rfn = f
  chan : ∀ k ∈ ks, (s.clip k).chan = c
  place : p = n - (s.chan c).firstSlot
  nodup : ks.Nodup

section
variable {s u : State} {c : ChanId} {f n p k : Nat} {ks : List Nat}

theorem State.GrowsAt.next (h : s.GrowsAt c f n p (k :: ks)) (hstate : (u.slot n).state = (s.slot n).state)
    (hrfn : (u.slot n).rfn = (s.slot n).rfn) (hfirst : (u.chan c).firstSlot = (s.chan c).firstSlot)
    (hclips : ∀ j, j ≠ k → u.clip j = s.clip j) : u.GrowsAt c f n p ks := by
  obtain ⟨hk, hnodup⟩ := List.nodup_cons.1 h.nodup
  refine ⟨hstate.trans h.held, hrfn.trans h.rfn, fun j hj => ?_, hfirst ▸ h.place, hnodup⟩
  rw [hclips j (ne_of_mem_of_not_mem hj hk)]
  exact h.chan j (List.mem_cons_of_mem _ hj)

theorem State.GrowsAt.closed (h : s.GrowsAt c f n p (k :: ks)) {o : Nat} {x : Clip} {why : Reason} (hc : s.clipClosed u k o x why) :
    u.GrowsAt c f n p ks := by
  obtain ⟨-, -, hothers, hslots, hchans, -, -⟩ := hc
  exact h.next (by rw [hslots]; rfl) (by rw [hslots]; rfl) (by rw [hchans]) hothers

theorem State.GrowsAt.grown (h : s.GrowsAt c f n p (k :: ks)) (hg : s.grown u k f n) : u.GrowsAt c f n p ks := by
  obtain ⟨x, -, -, hgoes, hends⟩ := hg
  by_cases hq : (s.clip k).quick = some f
  · exact h.closed (hends hq).1
  · obtain ⟨-, hothers, hframe⟩ := hgoes hq
    rw [hframe]
    exact h.next rfl rfl rfl (fun j hj => by rw [← hothers j hj]; rfl)

theorem State.GrowsAt.locked (h : s.GrowsAt c f n p ks) (hl : s.lockTaken u n) (hframe : u = { s with slots := u.slots, chans := u.chans }) :
    u.GrowsAt c f n p ks := by
  obtain ⟨hslots, hchans⟩ := hl
  have hslot : u.slot n = { s.slot n with locks := (s.slot n).locks + 1 } := by rw [hslots, if_pos rfl]
  have hclip : ∀ j, u.clip j = s.clip j := fun j => (congrArg (fun x : State => x.clip j) hframe :)
  have hfirst : (u.chan c).firstSlot = (s.chan c).firstSlot := by
    rw [hchans]
    split_ifs <;> rfl
  exact ⟨by rw [hslot]; exact h.held, by rw [hslot]; exact h.rfn, fun k hk => by rw [hclip]; exact h.chan k hk,
    by rw [hfirst]; exact h.place, h.nodup⟩

end

theorem growTakers_cons_run (k : Nat) (ks : List Nat) (f n p : Nat) (s : State) :
    (growTakers (k :: ks) f n p).run s =
      (match (s.growTaker k ks f n p).2 with
        | none => growTakers ks f n p
        | some _ => Prog.done ()).run (s.growTaker k ks f n p).1 := rfl

/-- The takers come to an end. -/
theorem growTakers_ends (ks : List Nat) (f n p : Nat) (s : State) : ∃ t, (growTakers ks f n p).run s = some (t, ()) := by
  induction ks generalizing s with
  | nil => exact ⟨s, rfl⟩
  | cons k ks ih =>
    rw [growTakers_cons_run]
    cases (s.growTaker k ks f n p).2 with
    | none => exact ih _
    | some x => exact ⟨_, rfl⟩

/-- The takers of a frame that is there take it in turn. -/
theorem growTakers_growsEach {c : ChanId} {f n p : Nat} {ks : List Nat} {s t : State} (h : s.GrowsAt c f n p ks)
    (hr : (growTakers ks f n p).run s = some (t, ())) : growsEach f n ks s t := by
  induction ks generalizing s with
  | nil =>
    cases hr
    rfl
  | cons k ks ih =>
    have hplace : p = n - (s.chan (s.clip k).chan).firstSlot := by
      rw [h.chan k List.mem_cons_self]
      exact h.place
    have hfull := topFull_iff (s.chan (s.clip k).chan).len (s.clip k).extents p
    rw [growTakers_cons_run] at hr
    simp only [growsEach]
    rw [← hplace, ← hfull]
    by_cases hf : topFull (s.chan (s.clip k).chan).len (s.clip k).extents p = true
    · have hgrow : s.growTaker k ks f n p = (s.closeAtOut k .extents, none) := if_pos hf
      rw [hgrow] at hr
      have hclosed := s.closeAtOut_closed k .extents
      exact ⟨fun _ => ⟨_, hclosed, s.closeAtOut_work k _, ih (h.closed hclosed) hr⟩, fun hn => absurd hf hn, fun hn => absurd hf hn⟩
    · by_cases hl : s.lockable n f
      · obtain ⟨hdone, htaken⟩ := State.lock_of_lockable hl
        have hframe := s.lock_frame n f
        have hgrow : s.growTaker k ks f n p = ((s.lock n f).1.growClip k f p, none) := by
          rw [State.growTaker, if_neg hf]
          generalize s.lock n f = y at hdone ⊢
          obtain ⟨u, ans⟩ := y
          obtain rfl : ans = .done none := hdone
          rfl
        rw [hgrow] at hr
        obtain ⟨u, hu⟩ : ∃ u, (s.lock n f).1 = u := ⟨_, rfl⟩
        rw [hu] at hr htaken hframe
        have hlocked := h.locked htaken hframe
        have hplace' : p = n - (u.chan (u.clip k).chan).firstSlot := by
          rw [hlocked.chan k List.mem_cons_self]
          exact hlocked.place
        have hgrown : u.grown (u.growClip k f p) k f n := by
          rw [hplace']
          exact u.growClip_grown k f n
        exact ⟨fun hn => absurd hn hf, fun _ _ => ⟨u, _, htaken, hframe, hgrown, ih (hlocked.grown hgrown) hr⟩,
          fun _ _ hn => absurd hl hn⟩
      · obtain ⟨x, hx, hlock⟩ := State.lock_of_not_lockable hl h.held h.rfn
        have hgrow : s.growTaker k ks f n p = (s.closeAll (k :: ks) .allowance, some x) := by
          rw [State.growTaker, if_neg hf, hlock]
          cases x
          case notHeld => exact absurd rfl hx
          all_goals rfl
        rw [hgrow] at hr
        cases hr
        exact ⟨fun hn => absurd hn hf, fun _ hn => absurd hn hl, fun _ _ _ => s.closeAll_closesEach _ _⟩

/-! ## One frame of an arrival -/

theorem State.takers_eq (s : State) (c : ChanId) (f : Nat) : s.takers c f = s.takersOf c f := by
  unfold State.takers State.growers State.takersOf
  refine List.filter_congr fun k _ => ?_
  simp [Bool.decide_and, Bool.and_assoc]

theorem growFrame_run (c : ChanId) (f : Nat) (s : State) :
    (growFrame c f).run s =
      (match s.indexLookup c f with
        | none => Prog.done ()
        | some n => growTakers (s.takers c f) f n (n - (s.chan c).firstSlot)).run (s.growLookup c f) := rfl

theorem growFrame_ends (c : ChanId) (f : Nat) (s : State) : ∃ t, (growFrame c f).run s = some (t, ()) := by
  rw [growFrame_run]
  cases s.indexLookup c f with
  | none => exact ⟨_, rfl⟩
  | some n => exact growTakers_ends ..

theorem growFrames_ends (c : ChanId) (fs : List Nat) (s : State) : ∃ t, (growFrames c fs).run s = some (t, ()) := by
  induction fs generalizing s with
  | nil => exact ⟨s, rfl⟩
  | cons f fs ih =>
    obtain ⟨u, hu⟩ := growFrame_ends c f s
    rw [growFrames, Prog.run_bind, hu]
    exact ih u

theorem State.indexLookup_of_absent {s : State} {c : ChanId} {f : Nat} (h : ∀ n, ¬ s.presentAt c f n) : s.indexLookup c f = none := by
  rw [Option.eq_none_iff_forall_ne_some]
  exact fun n hn => h n (State.indexLookup_eq_some.1 hn)

section
variable {s t : State} {c : ChanId} {f : Nat}

theorem growFrame_without_taker (h : s.takers c f = []) : (growFrame c f).run s = some (s, ()) := by
  rw [growFrame_run, State.growLookup, h]
  cases s.indexLookup c f <;> rfl

theorem growFrame_of_absent (h : ∀ n, ¬ s.presentAt c f n) :
    (growFrame c f).run s = some (s.closeAll (s.takers c f) .frameGone, ()) := by
  rw [growFrame_run, State.growLookup, State.indexLookup_of_absent h]
  rfl

theorem growFrame_of_present {n : Nat} (h : s.presentAt c f n) :
    (growFrame c f).run s = (growTakers (s.takers c f) f n (n - (s.chan c).firstSlot)).run s := by
  rw [growFrame_run, State.growLookup, State.indexLookup_eq_some.2 h]

theorem State.growsAt_takers {n : Nat} (h : s.presentAt c f n) : s.GrowsAt c f n (n - (s.chan c).firstSlot) (s.takers c f) := by
  obtain ⟨-, -, hheld, hrfn⟩ := h
  refine ⟨hheld, hrfn, fun k hk => ?_, rfl, s.growers_nodup c _⟩
  rw [State.takers_eq, State.takersOf, List.mem_filter, decide_eq_true_iff] at hk
  exact hk.2.2.2.1

/-- A walk that takes the frame before its takers lock it closes them. -/
theorem growTakers_of_gone {k : Nat} {ks : List Nat} {n p : Nat}
    (hfits : ¬ topFull (s.chan (s.clip k).chan).len (s.clip k).extents p = true) (hgone : (s.slot n).state ≠ .held ∨ (s.slot n).rfn ≠ f) :
    (growTakers (k :: ks) f n p).run s = some (s.closeAll (k :: ks) .frameGone, ()) := by
  have hgrow : s.growTaker k ks f n p = (s.closeAll (k :: ks) .frameGone, some .notHeld) := by
    rw [State.growTaker, if_neg hfits, State.lock_of_gone hgone]
  rw [growTakers_cons_run, hgrow]
  rfl

end

/-! ## An arrival alone -/

section
variable {s t : State} {c : ChanId}

theorem exec_arrival_nil {f m : Nat} {rest : List ChanNote} (hnote : s.mail.chanNotes.get c = .arrival f m :: rest)
    (hr : (growFrames c ((List.range m).map (f + ·))).run (s.setMail { s.mail with chanNotes := popAt s.mail.chanNotes c }) = some (t, ())) :
    exec (.framesCommittedArrival c []) s = .next t := by
  have hpop : s.popArrival c = s.setMail { s.mail with chanNotes := popAt s.mail.chanNotes c } := by rw [State.popArrival, hnote]
  have hclips : s.clips = (s.setMail { s.mail with chanNotes := popAt s.mail.chanNotes c }).clips := rfl
  refine weave_of_alone ?_
  show ((arrivalProg c).run s).map (·.1) = _
  rw [arrivalProg, Prog.run_op, hpop, hnote]
  dsimp only
  rw [hclips, Prog.onTable_run, hr]
  rfl

theorem growFrames_one_run (c : ChanId) (f : Nat) (s : State) :
    (growFrames c ((List.range 1).map (f + ·))).run s = (growFrame c f).run s := by
  show ((growFrame c f).bind (fun _ => .done ())).run s = _
  rw [Prog.run_bind]
  obtain ⟨t, ht⟩ := growFrame_ends c f s
  rw [ht]
  rfl

theorem exec_arrival_one {f : Nat} {rest : List ChanNote} (hnote : s.mail.chanNotes.get c = .arrival f 1 :: rest)
    (hr : (growFrame c f).run (s.setMail { s.mail with chanNotes := popAt s.mail.chanNotes c }) = some (t, ())) :
    exec (.framesCommittedArrival c []) s = .next t :=
  exec_arrival_nil hnote (by rw [growFrames_one_run, hr])

end

/-! ## A channel's tick beside an event in progress -/

section
variable {p : Prog Unit} {a x : Agent} {b : List Agent} {s t : State}

theorem busyAt_thread (h : x ∉ b) : busyAt (p.thread a b) x = false := by
  cases p with
  | done u => rfl
  | never => simp [Prog.thread, busyAt]
  | op b' f next => simp [Prog.thread, busyAt, h]

theorem takeTurn_channelTick {ts : List Thread} (fuel : Nat) (s : State) {c : ChanId} (h : busyAt ts (.channel c) = false) :
    takeTurn fuel (s, ts) (.event (.channelTick c)) = (s.channelTick c, ts) := by
  rw [takeTurn]
  exact if_neg (by simp [h])

theorem takeTurn_move_op (fuel : Nat) (a : Agent) (s : State) (b b' : List Agent) (f : State → State) (next : State → Prog Unit) :
    takeTurn fuel (s, (Prog.op b' f next).thread a b) (.move a) = (f s, (next s).thread a b') := takeTurn_move ..

theorem finishAll_thread (ha : ∀ c, a ≠ .channel c) (h : p.run s = some (t, ())) : finishAll (s, p.thread a b) = (t, []) := by
  cases p with
  | done u =>
    cases h
    simp [Prog.thread, finishAll, finish, finishCommand, threadOf, allHeads]
  | never => cases h
  | op b' f next => exact finishAll_one ha h

end

/-- An operation that is not the last leaves the clip table to the other blocks as it was (R90). -/
theorem Prog.onTable_op_of_more {α : Type} {b : List Agent} {f : State → State} {next : State → Prog α} {s : State} {p : Prog α}
    (hnext : next s = p) (hp : ∀ a, p ≠ .done a) (hf : f s = s) :
    ∃ g rest, (Prog.op b f next).onTable s.clips = .op b g rest ∧ g s = s ∧ rest s = p.onTable s.clips := by
  refine ⟨_, _, rfl, ?_, ?_⟩
  · change (match next s with
      | .done _ => f s
      | .never | .op _ _ _ => { f s with clips := s.clips }) = s
    rw [hnext, hf]
    cases p with
    | done a => exact absurd rfl (hp a)
    | never => rfl
    | op b' f' next' => rfl
  · change (next s).onTable (f s).clips = _
    rw [hnext, hf]

theorem weave_of_turns {e : BlockEvent} {turns : List Turn} {s t : State}
    (h : finishAll (turns.foldl (takeTurn (pickFuel turns)) (begin (s, []) (courseOf (pickFuel turns) s e))) = (t, [])) :
    weave e turns s = .next t := by
  rw [weave, h]

theorem exec_arrival (c : ChanId) (turns : List Turn) (s : State) :
    exec (.framesCommittedArrival c turns) s = weave (.arrival c) turns s := rfl

/-- A tick of the channel between the lookup of the frame and its first lock. -/
theorem exec_arrival_tick {s w u : State} {c : ChanId} {f n k : Nat} {ks : List Nat} {rest : List ChanNote}
    (hnote : s.mail.chanNotes.get c = .arrival f 1 :: rest) (hw : s.popArrival c = w) (hpresent : w.presentAt c f n)
    (htakers : w.takers c f = k :: ks) (hu : w.channelTick c = u)
    (hfits : ¬ topFull (u.chan (u.clip k).chan).len (u.clip k).extents (n - (w.chan c).firstSlot) = true)
    (hgone : (u.slot n).state ≠ .held ∨ (u.slot n).rfn ≠ f) :
    exec (.framesCommittedArrival c [.move .clips, .event (.channelTick c)]) s = .next (u.closeAll (k :: ks) .frameGone) := by
  have hclips : s.clips = w.clips := by
    rw [← hw, State.popArrival, hnote]
    rfl
  have huclips : u.clips = w.clips := by
    rw [← hu, w.channelTick_frame c]
    rfl
  obtain ⟨g, more, hlook, hstay, hmore⟩ := Prog.onTable_op_of_more (b := [.clips]) (f := fun v => v.growLookup c f) (s := w)
    (next := fun v => (match v.indexLookup c f with
      | none => Prog.done ()
      | some m => growTakers (v.takers c f) f m (m - (v.chan c).firstSlot)).bind (fun _ => growFrames c []))
    (p := (growTakers (k :: ks) f n (n - (w.chan c).firstSlot)).bind (fun _ => growFrames c []))
    (by rw [State.indexLookup_eq_some.2 hpresent, htakers]) nofun
    (by rw [State.growLookup, State.indexLookup_eq_some.2 hpresent])
  have hrun : (growTakers (k :: ks) f n (n - (w.chan c).firstSlot)).run u = some (u.closeAll (k :: ks) .frameGone, ()) :=
    growTakers_of_gone hfits hgone
  have hframes : (growFrames c ((List.range 1).map (f + ·))).onTable s.clips = Prog.op [.clips] g more := by
    rw [hclips]
    exact hlook
  have hbegin : begin (s, []) (.steps .clips (arrivalProg c)) = (w, (Prog.op [.clips] g more).thread .clips [.clips]) := by
    rw [arrivalProg, begin_steps_nil, hw, hnote]
    exact congrArg (fun p => (w, p.thread .clips [.clips])) hframes
  have hrest : (((growTakers (k :: ks) f n (n - (w.chan c).firstSlot)).bind (fun _ => growFrames c [])).onTable u.clips).run u =
      some (u.closeAll (k :: ks) .frameGone, ()) := by
    rw [Prog.onTable_run, Prog.run_bind, hrun]
    rfl
  rw [huclips] at hrest
  rw [exec_arrival]
  refine weave_of_turns ?_
  rw [courseOf, hbegin, List.foldl_cons, takeTurn_move_op, hstay, hmore, List.foldl_cons, List.foldl_nil,
    takeTurn_channelTick _ _ (busyAt_thread (by simp)), hu]
  exact finishAll_thread (a := .clips) (by simp) hrest

/-! ## A channel's tick leaves its loop -/

/-- Every loop lies where it lies in `s`. -/
def State.LoopsOf (s t : State) : Prop := ∀ d, (t.chan d).firstSlot = (s.chan d).firstSlot ∧ (t.chan d).len = (s.chan d).len

theorem State.LoopsOf.of_chan {s t u : State} (h : s.LoopsOf t) (hc : ∀ d, u.chan d = t.chan d) : s.LoopsOf u := fun d => by
  rw [hc]
  exact h d

theorem State.loopsOf_kept (s : State) : ChannelKept s.LoopsOf where
  raiseAt _ _ _ _ _ _ _ h := h
  mail _ _ h := h
  record t c x hx h d := by
    rw [State.setChan_chan]
    split_ifs with hd
    · subst hd
      rw [hx.firstSlot, hx.len]
      exact h d
    · exact h d
  take t n r h := h.of_chan (t.take_chan n r)
  commit t n h := h.of_chan fun d => (congrArg (fun x : State => x.chan d) (t.commit_frame n) :)
  empty t n h := h.of_chan fun d => (congrArg (fun x : State => x.chan d) (t.empty_frame n) :)

theorem State.channelTick_loops (s : State) (c : ChanId) : s.LoopsOf (s.channelTick c) := by
  unfold State.channelTick
  cases s.mail.chanTicks.get c with
  | nil => exact fun _ => ⟨rfl, rfl⟩
  | cons t ts => exact s.loopsOf_kept.tickChannel _ c t (fun _ => ⟨rfl, rfl⟩)

/-! ## The obligation -/

theorem popAt_ext {α : Type} {n : Nat} {v w : Vector (List α) n} (h : ∀ i, v.get i = w.get i) : v = w :=
  Vector.ext fun i hi => h ⟨i, hi⟩

theorem range_succ_map_add (f m : Nat) : (List.range (m + 1)).map (f + ·) = f :: (List.range m).map (f + 1 + ·) := by
  rw [List.range_succ_eq_map, List.map_cons, List.map_map]
  refine congrArg (f :: ·) (List.map_congr_left fun i _ => ?_)
  simp only [Function.comp_apply]
  omega

/-- Settles O39: the growth of one frame is its lookup and its takers in turn; growth reads and writes nothing of the hand-overs,
so an arrival may be cut after its first frame. -/
theorem arrivalGrowsItsTaker : Obligations.ArrivalGrowsItsTaker := by
  unfold Obligations.ArrivalGrowsItsTaker
  refine ⟨fun s w c f rest hnote hw => ?one, fun s s₁ c f m rest hnote hnote₁ hothers hs₁ => ?split⟩
  case one =>
    have hpop : s.popArrival c = w := by
      rw [State.popArrival, hnote, hw]
      rfl
    have hone {t : State} (hr : (growFrame c f).run w = some (t, ())) : exec (.framesCommittedArrival c []) s = .next t :=
      exec_arrival_one hnote (by rw [hw] at hr; exact hr)
    have htakers : w.takers c f = s.takersOf c f := by
      rw [State.takers_eq, hw]
      rfl
    have hpresent (n : Nat) (h : s.presentAt c f n) : w.presentAt c f n := by
      rw [hw]
      exact h
    refine ⟨fun hnone => hone (growFrame_without_taker (htakers.trans hnone)), fun habsent => ?_, fun n hn hfirst hlocks => ⟨?_, ?_⟩⟩
    · refine ⟨_, hone (growFrame_of_absent fun n h => habsent n (by rw [hw] at h; exact h)), ?_⟩
      rw [htakers]
      exact w.closeAll_closesEach _ _
    · obtain ⟨t, ht⟩ := growFrame_ends c f w
      refine ⟨t, hone ht, ?_⟩
      rw [growFrame_of_present (hpresent n hn)] at ht
      rw [← htakers]
      exact growTakers_growsEach (State.growsAt_takers (hpresent n hn)) ht
    · intro k ks hks hjoins u hu hgone
      have hu : w.channelTick c = u := Host.Outcome.next.inj hu
      have hchan : (w.clip k).chan = c := (State.growsAt_takers (hpresent n hn)).chan k (by rw [htakers, hks]; exact List.mem_cons_self)
      have hclip : u.clip k = w.clip k := by
        rw [← hu, w.channelTick_frame c]
        rfl
      have hsame (d : ChanId) : w.chan d = s.chan d := by
        rw [hw]
        rfl
      have hsclip : w.clip k = s.clip k := by
        rw [hw]
        rfl
      have hlen : (u.chan c).len = (s.chan c).len := by rw [← hu, (w.channelTick_loops c c).2, hsame]
      refine ⟨_, exec_arrival_tick hnote hpop (hpresent n hn) (htakers.trans hks) hu ?_ hgone, u.closeAll_closesEach _ _⟩
      rw [topFull_iff, hclip, hchan, hlen, hsclip, hsame]
      exact fun h => h.2 (hjoins h.1)
  case split =>
    obtain ⟨w, hw⟩ : ∃ w, s.setMail { s.mail with chanNotes := popAt s.mail.chanNotes c } = w := ⟨_, rfl⟩
    obtain ⟨w₁, hw₁⟩ : ∃ w₁, s₁.setMail { s₁.mail with chanNotes := popAt s₁.mail.chanNotes c } = w₁ := ⟨_, rfl⟩
    have hpart : w₁ = w₁.clipPart w := by
      rw [← hw₁, hs₁, ← hw]
      rfl
    obtain ⟨t, ht⟩ := growFrame_ends c f w
    have hframe := (onClips_growFrame c f).frame ht
    have ht₁ : (growFrame c f).run w₁ = some (w₁.clipPart t, ()) := by
      have h := (onClips_growFrame c f).run_eq ht w₁
      rw [← hpart] at h
      exact h
    have hnote' : (w₁.clipPart t).mail.chanNotes.get c = .arrival (f + 1) m :: rest := by
      rw [← hw₁]
      show (popAt s₁.mail.chanNotes c).get c = _
      rw [get_popAt, if_pos rfl, hnote₁]
      rfl
    have hpop : (w₁.clipPart t).setMail { (w₁.clipPart t).mail with chanNotes := popAt (w₁.clipPart t).mail.chanNotes c } = t := by
      have hnotes : popAt (popAt s₁.mail.chanNotes c) c = popAt s.mail.chanNotes c := by
        refine popAt_ext fun d => ?_
        simp only [get_popAt]
        split_ifs with hd
        · rw [hnote, hnote₁]
          rfl
        · exact hothers d hd
      rw [hframe, ← hw₁, ← hw, ← hnotes, hs₁]
      rfl
    obtain ⟨v, hv⟩ := growFrames_ends c ((List.range m).map (f + 1 + ·)) t
    refine ⟨w₁.clipPart t, exec_arrival_one hnote₁ (by rw [hw₁, ht₁]), ?_⟩
    rw [exec_arrival_nil hnote' (t := v) (by rw [hpop, hv])]
    refine exec_arrival_nil hnote ?_
    rw [hw, range_succ_map_add, growFrames, Prog.run_bind, ht]
    exact hv

end Sys2Proof.Machine
end

section
/-! PROOFS. BackwardBuild.lean: what the backward build locks, and the extents it gathers (R87, R89, R96). -/

namespace Sys2Proof.Machine

/-! ## Positions that extents give (R87) -/

theorem positionOf_cons (e : Extent) (es : List Extent) (len r : Nat) :
    positionOf (e :: es) len r = if e.rfn ≤ r ∧ r < e.rfn + e.len then some ((e.pos + (r - e.rfn)) % len) else positionOf es len r := by
  unfold positionOf
  rw [List.find?_cons]
  have hcovers : e.covers r = decide (e.rfn ≤ r ∧ r < e.rfn + e.len) := by simp [Extent.covers, Bool.decide_and]
  rw [hcovers]
  by_cases h : e.rfn ≤ r ∧ r < e.rfn + e.len <;> simp [h]

theorem positionOf_mod {es : List Extent} {len r p : Nat} (h : positionOf es len r = some p) : p % len = p := by
  unfold positionOf at h
  obtain ⟨e, -, rfl⟩ := Option.map_eq_some_iff.1 h
  exact Nat.mod_mod _ _

/-- Frames joined at the bottom leave the positions of the frames above. -/
theorem positionOf_joinBottom_above {es : List Extent} {len r p y hi : Nat} (hc : extentsCover es (r + 1) hi) (hy : r + 1 ≤ y) :
    positionOf (joinBottom len es r p) len y = positionOf es len y := by
  cases es with
  | nil =>
    rw [joinBottom, positionOf_cons, if_neg (fun h => by have := h.2; dsimp only at this; omega)]
  | cons e es =>
    obtain ⟨hrfn, hlen, -, -⟩ := hc
    rw [joinBottom]
    split_ifs with hp
    · rw [positionOf_cons, positionOf_cons]
      by_cases hin : y < e.rfn + e.len
      · rw [if_pos ⟨by dsimp only; omega, by dsimp only; omega⟩, if_pos ⟨by omega, hin⟩, ← hp]
        simp only [Nat.mod_add_mod]
        congr 2
        omega
      · rw [if_neg (fun h => hin (by have := h.2; dsimp only at this; omega)), if_neg (fun h => hin h.2)]
    · rw [positionOf_cons (len := len) { rfn := r, pos := p, len := 1 }, if_neg (fun h => by have := h.2; dsimp only at this; omega)]

theorem positionOf_joinBottom_self (es : List Extent) {len r p : Nat} (hp : p % len = p) :
    positionOf (joinBottom len es r p) len r = some p := by
  cases es with
  | nil => rw [joinBottom, positionOf_cons, if_pos (by simp), Nat.sub_self, Nat.add_zero, hp]
  | cons e es =>
    rw [joinBottom]
    split_ifs
    · rw [positionOf_cons, if_pos (by simp), Nat.sub_self, Nat.add_zero, hp]
    · rw [positionOf_cons, if_pos (by simp), Nat.sub_self, Nat.add_zero, hp]

theorem extentsCover_joinBottom {es : List Extent} {r hi : Nat} (len p : Nat) (hc : extentsCover es (r + 1) hi) (hr : r ≤ hi) :
    extentsCover (joinBottom len es r p) r hi := by
  cases es with
  | nil => exact ⟨rfl, le_rfl, hr, hc⟩
  | cons e es =>
    obtain ⟨hrfn, hlen, hle, hrest⟩ := hc
    rw [joinBottom]
    split_ifs
    · refine ⟨rfl, Nat.le_add_left .., hr, ?_⟩
      rw [show r + (e.len + 1) = r + 1 + e.len by omega]
      exact hrest
    · exact ⟨rfl, le_rfl, hr, hrfn, hlen, hle, hrest⟩

theorem joinBottom_length_le (len : Nat) (es : List Extent) (r p : Nat) : (joinBottom len es r p).length ≤ es.length + 1 := by
  cases es with
  | nil => simp [joinBottom]
  | cons e es =>
    rw [joinBottom]
    split_ifs <;> simp

theorem joinBottom_length_of_joins {len : Nat} {e : Extent} {p : Nat} (h : (p + 1) % len = e.pos) (es : List Extent) (r : Nat) :
    (joinBottom len (e :: es) r p).length = (e :: es).length := by
  rw [joinBottom, if_pos h]
  rfl

theorem bottomFull_iff (len : Nat) (es : List Extent) (p : Nat) :
    bottomFull len es p = true ↔ 16 ≤ es.length ∧ ∃ e rest, es = e :: rest ∧ (p + 1) % len ≠ e.pos := by
  cases es with
  | nil => simp [bottomFull]
  | cons e es => simp [bottomFull, Config.maxExtents, and_comm]

/-- Extents in the loop, none of which goes on where the one before it ends: no two of them could be one. -/
def Tight (len : Nat) (es : List Extent) : Prop :=
  (∀ e ∈ es, e.pos % len = e.pos) ∧ es.IsChain (fun e f => (e.pos + e.len) % len ≠ f.pos)

theorem Tight.joinBottom {len : Nat} {es : List Extent} {p : Nat} (h : Tight len es) (hp : p % len = p) (r : Nat) :
    Tight len (joinBottom len es r p) := by
  obtain ⟨hpos, hchain⟩ := h
  cases es with
  | nil => exact ⟨by simpa [Machine.joinBottom] using hp, .singleton _⟩
  | cons e es =>
    rw [Machine.joinBottom]
    split_ifs with hjoin
    · refine ⟨fun x hx => ?_, ?_⟩
      · obtain rfl | hx := List.mem_cons.1 hx
        · exact hp
        · exact hpos x (List.mem_cons_of_mem _ hx)
      · cases es with
        | nil => exact .singleton _
        | cons f es =>
          obtain ⟨hne, hrest⟩ := List.isChain_cons_cons.1 hchain
          refine List.isChain_cons_cons.2 ⟨?_, hrest⟩
          rw [← hjoin, Nat.mod_add_mod] at hne
          rwa [show p + (e.len + 1) = p + 1 + e.len by omega]
    · refine ⟨fun x hx => ?_, List.isChain_cons_cons.2 ⟨hjoin, hchain⟩⟩
      obtain rfl | hx := List.mem_cons.1 hx
      · exact hp
      · exact hpos x hx

/-! ## How many extents a run needs -/

/-- Number of the extents that have frames of `lo` to `hi`. -/
def extentsOn (xs : List Extent) (lo hi : Nat) : Nat := (xs.filter (fun x => decide (lo < x.rfn + x.len ∧ x.rfn ≤ hi))).length

theorem extentsOn_le_length (xs : List Extent) (lo hi : Nat) : extentsOn xs lo hi ≤ xs.length := List.length_filter_le _ _

theorem extentsOn_narrow (xs : List Extent) {lo lo' : Nat} (h : lo ≤ lo') (hi : Nat) :
    xs.filter (fun x => decide (lo' < x.rfn + x.len ∧ x.rfn ≤ hi)) =
      (xs.filter (fun x => decide (lo < x.rfn + x.len ∧ x.rfn ≤ hi))).filter (fun x => decide (lo' < x.rfn + x.len)) := by
  rw [List.filter_filter]
  refine List.filter_congr fun x _ => ?_
  rw [← Bool.decide_and, decide_eq_decide]
  omega

theorem extentsOn_mono (xs : List Extent) {lo lo' : Nat} (h : lo ≤ lo') (hi : Nat) : extentsOn xs lo' hi ≤ extentsOn xs lo hi := by
  unfold extentsOn
  rw [extentsOn_narrow xs h hi]
  exact List.length_filter_le _ _

theorem extentsOn_lt {xs : List Extent} {x : Extent} {r hi : Nat} (hx : x ∈ xs) (hend : x.rfn + x.len = r + 1) (hlen : 1 ≤ x.len)
    (hr : r ≤ hi) : extentsOn xs (r + 1) hi < extentsOn xs r hi := by
  unfold extentsOn
  rw [extentsOn_narrow xs (Nat.le_succ r) hi, List.length_filter_lt_length_iff_exists]
  refine ⟨x, List.mem_filter.2 ⟨hx, by rw [decide_eq_true_iff]; omega⟩, ?_⟩
  rw [decide_eq_true_iff]
  omega

theorem positionOf_of_cover {es : List Extent} {lo hi r : Nat} (len : Nat) (h : extentsCover es lo hi) (hlo : lo ≤ r) (hr : r ≤ hi) :
    ∃ x ∈ es, x.rfn ≤ r ∧ r < x.rfn + x.len ∧ 1 ≤ x.len ∧ positionOf es len r = some ((x.pos + (r - x.rfn)) % len) := by
  induction es generalizing lo with
  | nil =>
    have : lo = hi + 1 := h
    omega
  | cons e es ih =>
    obtain ⟨hrfn, hlen, -, hrest⟩ := h
    by_cases hin : r < e.rfn + e.len
    · exact ⟨e, List.mem_cons_self, by omega, hin, hlen, by rw [positionOf_cons, if_pos ⟨by omega, hin⟩]⟩
    · obtain ⟨x, hx, h1, h2, h3, h4⟩ := ih hrest (by omega)
      exact ⟨x, List.mem_cons_of_mem _ hx, h1, h2, h3, by rw [positionOf_cons, if_neg (fun h => hin h.2), h4]⟩

/-- Where the positions of two frames in turn do not follow each other, an extent ends. -/
theorem extent_ends {xs : List Extent} {lo hi r p q len : Nat} (h : extentsCover xs lo hi) (hlo : lo ≤ r) (hr : r + 1 ≤ hi)
    (hp : positionOf xs len r = some p) (hq : positionOf xs len (r + 1) = some q) (hne : (p + 1) % len ≠ q) :
    ∃ x ∈ xs, x.rfn + x.len = r + 1 ∧ 1 ≤ x.len := by
  induction xs generalizing lo with
  | nil =>
    have : lo = hi + 1 := h
    omega
  | cons e es ih =>
    obtain ⟨hrfn, hlen, -, hrest⟩ := h
    rw [positionOf_cons] at hp hq
    by_cases hin : r < e.rfn + e.len
    · by_cases hnext : r + 1 < e.rfn + e.len
      · rw [if_pos ⟨by omega, hin⟩] at hp
        rw [if_pos ⟨by omega, hnext⟩] at hq
        refine absurd ?_ hne
        rw [← Option.some.inj hp, ← Option.some.inj hq, Nat.mod_add_mod, show r + 1 - e.rfn = r - e.rfn + 1 by omega, Nat.add_assoc]
      · exact ⟨e, List.mem_cons_self, by omega, hlen⟩
    · rw [if_neg (fun h => hin h.2)] at hp
      rw [if_neg (fun h => hin (by omega))] at hq
      obtain ⟨x, hx, hend⟩ := ih hrest (by omega) hp hq
      exact ⟨x, List.mem_cons_of_mem _ hx, hend⟩

/-- Tight extents of a run are at most as many as any others of the same positions have on it. -/
theorem Tight.length_le {len : Nat} {es xs : List Extent} {lo hi xin xout : Nat} (ht : Tight len es) (hc : extentsCover es lo hi)
    (hx : extentsCover xs xin xout) (hin : xin ≤ lo) (hout : hi ≤ xout)
    (hsame : ∀ r, lo ≤ r → r ≤ hi → positionOf es len r = positionOf xs len r) : es.length ≤ extentsOn xs lo hi := by
  induction es generalizing lo with
  | nil => exact Nat.zero_le _
  | cons e es ih =>
    obtain ⟨hrfn, hlen, hle, hrest⟩ := hc
    obtain ⟨x, hmem, hxr, hxend, hxlen, -⟩ := positionOf_of_cover len hx hin (Nat.le_trans hle hout)
    cases es with
    | nil =>
      refine List.length_pos_iff_exists_mem.2 ⟨x, List.mem_filter.2 ⟨hmem, ?_⟩⟩
      rw [decide_eq_true_iff]
      exact ⟨hxend, Nat.le_trans hxr hle⟩
    | cons f es =>
      obtain ⟨hpos, hchain⟩ := ht
      obtain ⟨hne, hchain⟩ := List.isChain_cons_cons.1 hchain
      have hfirst : f.rfn = lo + e.len := hrest.1
      have hflen : 1 ≤ f.len := hrest.2.1
      have hfhi : lo + e.len ≤ hi := hrest.2.2.1
      have htail := ih ⟨fun y hy => hpos y (List.mem_cons_of_mem _ hy), hchain⟩ hrest (by omega) fun r hr hr' => by
        rw [← hsame r (by omega) hr', positionOf_cons e, if_neg (fun h => by omega)]
      obtain ⟨r, hr⟩ : ∃ r, lo + e.len = r + 1 := ⟨lo + e.len - 1, by omega⟩
      have hp : positionOf xs len r = some ((e.pos + (r - e.rfn)) % len) := by
        rw [← hsame r (by omega) (by omega), positionOf_cons, if_pos ⟨by omega, by omega⟩]
      have hq : positionOf xs len (r + 1) = some f.pos := by
        rw [← hsame (r + 1) (by omega) (by omega), positionOf_cons, if_neg (fun h => by omega), positionOf_cons,
          if_pos ⟨by omega, by omega⟩, show r + 1 - f.rfn = 0 by omega, Nat.add_zero, hpos f (by simp)]
      obtain ⟨y, hy, hyend, hylen⟩ := extent_ends hx (by omega) (by omega) hp hq (by
        rw [Nat.mod_add_mod, show e.pos + (r - e.rfn) + 1 = e.pos + e.len by omega]
        exact hne)
      have hlt := extentsOn_lt (hi := hi) hy hyend hylen (by omega)
      have hmono := extentsOn_mono xs (show lo ≤ r by omega) hi
      rw [hr] at htail
      rw [List.length_cons]
      omega

/-! ## Where the build finds a frame (R96) -/

section
variable {s : State} {m : MarkSource} {r n p : Nat}

/-- The build finds a frame just where the source has it. -/
theorem State.locate_eq_some : s.locate m r = some (n, p) ↔ s.foundAt m r n ∧ p = n - (s.chan m.chan).firstSlot := by
  unfold State.locate State.foundAt
  cases m.sub with
  | none =>
    simp only [Option.map_eq_some_iff, State.indexLookup_eq_some, Prod.mk.injEq, forall_const, reduceCtorEq, false_imp_iff, implies_true,
      and_true]
    constructor
    · rintro ⟨j, hj, rfl, rfl⟩
      exact ⟨hj, rfl⟩
    · rintro ⟨hn, rfl⟩
      exact ⟨n, hn, rfl, rfl⟩
  | some es =>
    simp only [reduceCtorEq, false_imp_iff, true_and, Option.some.injEq, forall_eq']
    cases hpos : positionOf es (s.chan m.chan).len r with
    | none => simp
    | some q =>
      have hmod := positionOf_mod hpos
      simp only [State.positionLookup, hmod]
      by_cases hoff : (s.chan m.chan).state = .off
      · simp [hoff]
      · by_cases hh : s.holds ((s.chan m.chan).firstSlot + q) r = true
        · rw [if_neg hoff, if_pos hh]
          have hthere := (s.holds_iff _ _).1 hh
          simp only [Option.map_some, Option.some.injEq, Prod.mk.injEq]
          constructor
          · rintro ⟨rfl, rfl⟩
            exact ⟨⟨hoff, hthere.1, hthere.2, q, rfl, rfl⟩, rfl⟩
          · rintro ⟨⟨-, -, -, q', hq, rfl⟩, rfl⟩
            subst hq
            exact ⟨rfl, rfl⟩
        · rw [if_neg hoff, if_neg hh]
          simp only [Option.map_none, reduceCtorEq, false_iff]
          rintro ⟨⟨-, hheld, hrfn, q', hq, rfl⟩, -⟩
          cases hq
          exact hh ((s.holds_iff _ _).2 ⟨hheld, hrfn⟩)

theorem State.locate_eq_none : s.locate m r = none ↔ ∀ n, ¬ s.foundAt m r n := by
  rw [Option.eq_none_iff_forall_ne_some]
  constructor
  · exact fun h n hn => h _ (State.locate_eq_some.2 ⟨hn, rfl⟩)
  · rintro h ⟨n, p⟩ hy
    exact h n (State.locate_eq_some.1 hy).1

theorem State.held_of_foundAt (h : s.foundAt m r n) : (s.slot n).state = .held ∧ (s.slot n).rfn = r ∧ (s.chan m.chan).state ≠ .off := by
  obtain ⟨hlive, hsub⟩ := h
  cases hm : m.sub with
  | none =>
    obtain ⟨hoff, -, hheld, hrfn⟩ := hlive hm
    exact ⟨hheld, hrfn, hoff⟩
  | some es =>
    obtain ⟨hoff, hheld, hrfn, -⟩ := hsub es hm
    exact ⟨hheld, hrfn, hoff⟩

/-- Two frames are found in two slots. -/
theorem State.foundAt_frame {q : Nat} (h : s.foundAt m r n) (h' : s.foundAt m q n) : r = q :=
  (State.held_of_foundAt h).2.1.symm.trans (State.held_of_foundAt h').2.1

/-- The build finds frames alike in states with the same frames in the same places. -/
theorem State.foundAt_congr {t : State} (hslot : ∀ n, (t.slot n).state = (s.slot n).state ∧ (t.slot n).rfn = (s.slot n).rfn)
    (hindex : t.index = s.index) (hstate : (t.chan m.chan).state = (s.chan m.chan).state)
    (hfirst : (t.chan m.chan).firstSlot = (s.chan m.chan).firstSlot) (hlen : (t.chan m.chan).len = (s.chan m.chan).len) (r n : Nat) :
    t.foundAt m r n ↔ s.foundAt m r n := by
  have hentry (i : Nat) : t.entry i = s.entry i := by rw [State.entry, State.entry, hindex]
  unfold State.foundAt State.presentAt
  rw [hstate, hfirst, hlen, hentry, (hslot n).1, (hslot n).2]

end

/-! ## The run of frames that is built -/

/-- Every frame that the source of the mark has lies in the loop of its channel, which owns its slot. -/
def State.placesOk (s : State) (m : MarkSource) : Prop :=
  ∀ r n, s.foundAt m r n → s.ownerOf n = some m.chan ∧ (s.chan m.chan).firstSlot ≤ n ∧
    (n - (s.chan m.chan).firstSlot) % (s.chan m.chan).len = n - (s.chan m.chan).firstSlot

/-- From `s` to `u` the frames from `lo` to `start`, `j` of them, have been locked, and the extents gathered are `es` (R96). -/
structure State.BuiltTo (s u : State) (m : MarkSource) (start j : Nat) (es : List Extent) : Prop where
  cover : extentsCover es (start + 1 - j) start
  tight : Tight (s.chan m.chan).len es
  found : ∀ r, start + 1 - j ≤ r → r ≤ start → ∃ n, s.foundAt m r n ∧
    positionOf es (s.chan m.chan).len r = some (n - (s.chan m.chan).firstSlot) ∧
    u.slot n = { s.slot n with locks := (s.slot n).locks + 1 }
  others : ∀ n, (∀ r, start + 1 - j ≤ r → r ≤ start → ¬ s.foundAt m r n) → u.slot n = s.slot n
  chan : u.chan m.chan = { s.chan m.chan with locked := (s.chan m.chan).locked + ((List.range j).filter (fun i =>
    decide ((s.slot ((s.chan m.chan).firstSlot + (positionOf es (s.chan m.chan).len (start - i)).getD 0)).locks = 0))).length }
  chans : ∀ d, d ≠ m.chan → u.chan d = s.chan d
  frame : u = { s with slots := u.slots, chans := u.chans }

section
variable {s u : State} {m : MarkSource} {start j : Nat} {es : List Extent}

theorem State.BuiltTo.nil (s : State) (m : MarkSource) (start : Nat) : s.BuiltTo s m start 0 [] where
  cover := rfl
  tight := ⟨fun e he => by simp at he, .nil⟩
  found r hlo hhi := by omega
  others _ _ := rfl
  chan := rfl
  chans _ _ := rfl
  frame := rfl

theorem State.BuiltTo.slot_same (h : s.BuiltTo u m start j es) (n : Nat) :
    (u.slot n).state = (s.slot n).state ∧ (u.slot n).rfn = (s.slot n).rfn := by
  by_cases hn : ∃ r, start + 1 - j ≤ r ∧ r ≤ start ∧ s.foundAt m r n
  · obtain ⟨r, hlo, hhi, hf⟩ := hn
    obtain ⟨n', hf', -, hslot⟩ := h.found r hlo hhi
    obtain rfl : n' = n := congrArg Prod.fst (Option.some.inj
      ((State.locate_eq_some.2 ⟨hf', rfl⟩).symm.trans (State.locate_eq_some.2 ⟨hf, rfl⟩)))
    rw [hslot]
    exact ⟨rfl, rfl⟩
  · rw [h.others n fun r hlo hhi hf => hn ⟨r, hlo, hhi, hf⟩]
    exact ⟨rfl, rfl⟩

theorem State.BuiltTo.foundAt_iff (h : s.BuiltTo u m start j es) (r n : Nat) : u.foundAt m r n ↔ s.foundAt m r n :=
  State.foundAt_congr h.slot_same (by rw [h.frame]) (by rw [h.chan]) (by rw [h.chan]) (by rw [h.chan]) r n

theorem State.BuiltTo.ownerOf (h : s.BuiltTo u m start j es) (n : Nat) : u.ownerOf n = s.ownerOf n := by
  refine State.ownerOf_congr fun d => ?_
  by_cases hd : d = m.chan
  · subst hd
    rw [h.chan]
    rfl
  · rw [h.chans d hd]

/-- One frame more is locked. -/
theorem State.BuiltTo.next (h : s.BuiltTo u m start j es) (hplaces : s.placesOk m) (hj : j ≤ start) {n : Nat}
    (hf : s.foundAt m (start - j) n) (hl : u.lockable n (start - j)) :
    s.BuiltTo (u.lock n (start - j)).1 m start (j + 1)
      (joinBottom (s.chan m.chan).len es (start - j) (n - (s.chan m.chan).firstSlot)) := by
  obtain ⟨-, hslots, hchans⟩ := State.lock_of_lockable hl
  have hframe := u.lock_frame n (start - j)
  generalize (u.lock n (start - j)).1 = v at hslots hchans hframe ⊢
  obtain ⟨howner, hfirst, hmod⟩ := hplaces _ _ hf
  have hcover : extentsCover es (start - j + 1) start := by
    have := h.cover
    rwa [show start + 1 - j = start - j + 1 by omega] at this
  have hfresh : ∀ r, start + 1 - j ≤ r → r ≤ start → ¬ s.foundAt m r n := fun r hlo _ hf' => by
    have := State.foundAt_frame hf hf'
    omega
  have hkept : u.slot n = s.slot n := h.others n hfresh
  have habove (r : Nat) (hlo : start + 1 - j ≤ r) :
      positionOf (joinBottom (s.chan m.chan).len es (start - j) (n - (s.chan m.chan).firstSlot)) (s.chan m.chan).len r =
        positionOf es (s.chan m.chan).len r := positionOf_joinBottom_above hcover (by omega)
  have hself := positionOf_joinBottom_self es (r := start - j) hmod
  have hlo : start + 1 - (j + 1) = start - j := by omega
  refine ⟨?_, h.tight.joinBottom hmod _, fun r hr hr' => ?_, fun x hx => ?_, ?_, fun d hd => ?_, ?_⟩
  · rw [hlo]
    exact extentsCover_joinBottom _ _ hcover (Nat.sub_le ..)
  · by_cases hbelow : r = start - j
    · subst hbelow
      refine ⟨n, hf, hself, ?_⟩
      rw [hslots, if_pos rfl, hkept]
    · obtain ⟨x, hfx, hpos, hslot⟩ := h.found r (by omega) hr'
      refine ⟨x, hfx, by rw [habove r (by omega), hpos], ?_⟩
      have hne : x ≠ n := fun e => hfresh r (by omega) hr' (e ▸ hfx)
      rw [hslots, if_neg hne, hslot]
  · have hne : x ≠ n := fun e => hx (start - j) (by omega) (Nat.sub_le ..) (e ▸ hf)
    rw [hslots, if_neg hne]
    exact h.others x fun r hr hr' => hx r (by omega) hr'
  · have hcount : (List.range j).filter (fun i => decide ((s.slot ((s.chan m.chan).firstSlot +
          (positionOf (joinBottom (s.chan m.chan).len es (start - j) (n - (s.chan m.chan).firstSlot)) (s.chan m.chan).len
            (start - i)).getD 0)).locks = 0)) =
        (List.range j).filter (fun i => decide ((s.slot ((s.chan m.chan).firstSlot +
          (positionOf es (s.chan m.chan).len (start - i)).getD 0)).locks = 0)) :=
      List.filter_congr fun i hi => by rw [habove _ (by have := List.mem_range.1 hi; omega)]
    rw [hchans, h.ownerOf, howner, hkept, List.range_succ, List.filter_append, hcount, List.length_append, h.chan]
    rw [List.filter_singleton, hself, Option.getD_some, Nat.add_sub_cancel' hfirst]
    by_cases h0 : (s.slot n).locks = 0
    · simp [h0, Nat.add_assoc]
    · simp [h0]
  · rw [hchans, h.ownerOf, howner, if_neg (fun e => hd (Option.some.inj e.1).symm), h.chans d hd]
  · rw [hframe, h.frame]

end

/-! ## The build (R96) -/

theorem build_succ_run {m : MarkSource} {fuel r : Nat} {es : List Extent} {u v : State} {es' : List Extent}
    (hr : (build m (fuel + 1) r es).run u = some (v, es')) :
    (v = u ∧ es' = es ∧ (u.locate m r = none ∨ ∃ n p, u.locate m r = some (n, p) ∧
      (bottomFull (u.chan m.chan).len es p = true ∨ ¬ u.lockable n r))) ∨
    ∃ n p, u.locate m r = some (n, p) ∧ ¬ bottomFull (u.chan m.chan).len es p = true ∧ u.lockable n r ∧
      (build m fuel (r - 1) (joinBottom (u.chan m.chan).len es r p)).run (u.lock n r).1 = some (v, es') := by
  rw [build, Prog.run_read] at hr
  cases hloc : u.locate m r with
  | none =>
    rw [hloc] at hr
    cases hr
    exact .inl ⟨rfl, rfl, .inl rfl⟩
  | some y =>
    obtain ⟨n, p⟩ := y
    rw [hloc] at hr
    dsimp only at hr
    by_cases hfull : bottomFull (u.chan m.chan).len es p = true
    · rw [if_pos hfull] at hr
      cases hr
      exact .inl ⟨rfl, rfl, .inr ⟨n, p, rfl, .inl hfull⟩⟩
    · rw [if_neg hfull, Prog.run_op] at hr
      by_cases hl : u.lockable n r
      · rw [(State.lock_of_lockable hl).1] at hr
        exact .inr ⟨n, p, rfl, hfull, hl, hr⟩
      · obtain ⟨x, hx⟩ := State.lock_declined hl
        rw [hx] at hr
        cases hr
        exact .inl ⟨rfl, rfl, .inr ⟨n, p, rfl, .inr hl⟩⟩

/-- The build goes down from a run of frames that is built, and ends as the rule says. -/
theorem build_goesOn {s : State} {m : MarkSource} {start : Nat} (hplaces : s.placesOk m) {fuel j : Nat} {es : List Extent} {u v : State}
    {es' : List Extent} (h : s.BuiltTo u m start j es) (hlen : es.length ≤ 16) (hj : j + fuel ≤ start + 1)
    (hr : (build m fuel (start - j) es).run u = some (v, es')) :
    ∃ i, i ≤ j + fuel ∧ s.BuiltTo v m start i es' ∧ es'.length ≤ 16 ∧
      (i = j + fuel ∨ (∀ n, ¬ s.foundAt m (start - i) n) ∨ ∃ n, s.foundAt m (start - i) n ∧
        (¬ v.lockable n (start - i) ∨
          bottomFull (s.chan m.chan).len es' (n - (s.chan m.chan).firstSlot) = true)) := by
  induction fuel generalizing j es u with
  | zero =>
    cases hr
    exact ⟨j, le_rfl, h, hlen, .inl rfl⟩
  | succ fuel ih =>
    have hlen' : (u.chan m.chan).len = (s.chan m.chan).len := by rw [h.chan]
    have hfirst : (u.chan m.chan).firstSlot = (s.chan m.chan).firstSlot := by rw [h.chan]
    rcases build_succ_run hr with ⟨rfl, rfl, hend⟩ | ⟨n, p, hloc, hroom, hl, hmore⟩
    · refine ⟨j, by omega, h, hlen, .inr ?_⟩
      rcases hend with hnone | ⟨n, p, hloc, hend⟩
      · rw [State.locate_eq_none] at hnone
        exact .inl fun n hn => hnone n ((h.foundAt_iff _ _).2 hn)
      · obtain ⟨hf, rfl⟩ := State.locate_eq_some.1 hloc
        rw [hlen', hfirst] at hend
        exact .inr ⟨n, (h.foundAt_iff _ _).1 hf, hend.symm⟩
    · obtain ⟨hf, rfl⟩ := State.locate_eq_some.1 hloc
      rw [hlen', hfirst] at hroom hmore
      have hnext := h.next hplaces (by omega) ((h.foundAt_iff _ _).1 hf) hl
      have hshort : (joinBottom (s.chan m.chan).len es (start - j) (n - (s.chan m.chan).firstSlot)).length ≤ 16 := by
        rw [bottomFull_iff] at hroom
        cases es with
        | nil => simp [joinBottom]
        | cons e rest =>
          by_cases hjoin : (n - (s.chan m.chan).firstSlot + 1) % (s.chan m.chan).len = e.pos
          · rw [joinBottom_length_of_joins hjoin]
            exact hlen
          · have hle := joinBottom_length_le (s.chan m.chan).len (e :: rest) (start - j) (n - (s.chan m.chan).firstSlot)
            have : ¬ 16 ≤ (e :: rest).length := fun h16 => hroom ⟨h16, e, rest, rfl, hjoin⟩
            omega
      rw [show start - j - 1 = start - (j + 1) by omega] at hmore
      obtain ⟨i, hi, hbuilt, hlen'', hend⟩ := ih hnext hshort (by omega) hmore
      exact ⟨i, by omega, hbuilt, hlen'', hend.imp_left fun e => by omega⟩

/-! ## The two kinds of source -/

section
variable {s : State} {c : ChanId}

theorem State.loop_of_geometryOk (h : s.geometryOk) (hoff : (s.chan c).state ≠ .off) : 0 < (s.chan c).len := by
  obtain ⟨-, -, hon⟩ := (Channel.shaped_iff _).1 (h.1 c)
  exact Nat.lt_of_lt_of_le (by decide) (hon hoff).1

theorem State.place_of_owns (h : s.geometryOk) {n : Nat} (hn : (s.chan c).owns n = true) :
    s.ownerOf n = some c ∧ (s.chan c).firstSlot ≤ n ∧ (n - (s.chan c).firstSlot) % (s.chan c).len = n - (s.chan c).firstSlot := by
  obtain ⟨-, hlo, hhi⟩ := (Channel.owns_iff _ _).1 hn
  exact ⟨s.ownerOf_of_owns n c h.2 hn, hlo, Nat.mod_eq_of_lt (by omega)⟩

theorem State.foundAt_live (lo hi r n : Nat) : s.foundAt { chan := c, lo, hi, sub := none } r n ↔ s.presentAt c r n := by
  simp [State.foundAt]

theorem State.placesOk_live (h : s.geometryOk) (he : s.entriesInLoop c) (lo hi : Nat) :
    s.placesOk { chan := c, lo, hi, sub := none } := by
  intro r n hf
  obtain ⟨hoff, hentry, -, -⟩ := (State.foundAt_live lo hi r n).1 hf
  have hpos := State.loop_of_geometryOk h hoff
  have hown : (s.chan c).owns ((s.chan c).firstSlot + r % (s.chan c).len) = true :=
    (Channel.owns_iff _ _).2 ⟨hoff, Nat.le_add_right .., Nat.add_lt_add_left (Nat.mod_lt _ hpos) _⟩
  have hn := he _ hown (by rw [hentry])
  rw [hentry] at hn
  exact State.place_of_owns h hn

theorem State.foundAt_clip {lo hi r n : Nat} {xs : List Extent} (h : s.foundAt { chan := c, lo, hi, sub := some xs } r n) :
    positionOf xs (s.chan c).len r = some (n - (s.chan c).firstSlot) ∧ (s.chan c).firstSlot ≤ n ∧
      n = (s.chan c).firstSlot + (n - (s.chan c).firstSlot) := by
  obtain ⟨-, -, -, p, hp, rfl⟩ := h.2 xs rfl
  rw [Nat.add_sub_cancel_left]
  exact ⟨hp, Nat.le_add_right .., rfl⟩

theorem State.placesOk_clip (h : s.geometryOk) (hoff : (s.chan c).state ≠ .off) (lo hi : Nat) (xs : List Extent) :
    s.placesOk { chan := c, lo, hi, sub := some xs } := by
  intro r n hf
  obtain ⟨hp, hlo, heq⟩ := State.foundAt_clip hf
  have hlt := Nat.mod_lt (n - (s.chan c).firstSlot) (State.loop_of_geometryOk h hoff)
  rw [positionOf_mod hp] at hlt
  exact State.place_of_owns h ((Channel.owns_iff _ _).2 ⟨hoff, hlo, by rw [heq]; exact Nat.add_lt_add_left hlt _⟩)

end

/-- A build whose frames are all locked in the source clip reaches its last frame. -/
theorem State.BuiltTo.reaches {s u : State} {c : ChanId} {fuel lo hi start xin xout i : Nat} {xs es : List Extent}
    (hbuilt : s.BuiltTo u { chan := c, lo, hi, sub := some xs } start i es) (hstart : fuel ≤ start + 1) (hxlen : xs.length ≤ 16)
    (hx : extentsCover xs xin xout) (hxin : xin ≤ start + 1 - fuel) (hxout : start ≤ xout) (hfar : i < fuel)
    (hfound : ∀ r, start + 1 - fuel ≤ r → r ≤ start → ∃ n, s.foundAt { chan := c, lo, hi, sub := some xs } r n ∧
      1 ≤ (s.slot n).locks ∧ (s.slot n).locks < 256) :
    ∃ n, s.foundAt { chan := c, lo, hi, sub := some xs } (start - i) n ∧ u.lockable n (start - i) ∧
      ¬ bottomFull (s.chan c).len es (n - (s.chan c).firstSlot) = true := by
  obtain ⟨n, hf, hlocks, hmax⟩ := hfound (start - i) (by omega) (Nat.sub_le ..)
  obtain ⟨hheld, hrfn, -⟩ := State.held_of_foundAt hf
  have hkept : u.slot n = s.slot n := hbuilt.others n fun r hr hr' hf' => by
    have := State.foundAt_frame hf hf'
    omega
  refine ⟨n, hf, ⟨by rw [hkept, hheld], by rw [hkept, hrfn], by rw [hkept]; exact hmax, fun h0 => by rw [hkept] at h0; omega⟩, ?_⟩
  rw [bottomFull_iff]
  rintro ⟨h16, e, rest, rfl, hne⟩
  have hsame (r : Nat) (hr : start + 1 - i ≤ r) (hr' : r ≤ start) :
      positionOf (e :: rest) (s.chan c).len r = positionOf xs (s.chan c).len r := by
    obtain ⟨n', hf', hpos, -⟩ := hbuilt.found r hr hr'
    rw [hpos, (State.foundAt_clip hf').1]
  obtain ⟨hrfn', hlen', hle, -⟩ := hbuilt.cover
  have hcount := hbuilt.tight.length_le hbuilt.cover hx (by omega) hxout hsame
  have hq : positionOf xs (s.chan c).len (start - i + 1) = some e.pos := by
    rw [← hsame _ (by omega) (by omega), positionOf_cons, if_pos ⟨by omega, by omega⟩, show start - i + 1 - e.rfn = 0 by omega,
      Nat.add_zero, hbuilt.tight.1 e List.mem_cons_self]
  obtain ⟨y, hy, hyend, hylen⟩ := extent_ends hx (by omega) (by omega) (State.foundAt_clip hf).1 hq hne
  have hlt := extentsOn_lt (hi := start) hy hyend hylen (Nat.sub_le ..)
  have htotal := extentsOn_le_length xs (start - i) start
  rw [show start + 1 - i = start - i + 1 by omega] at hcount
  omega

/-- Settles O33: the run built is an invariant of the build; extents that are never to be joined are no more than the source's own,
so a build on a source clip is not stopped by the seventeenth. -/
theorem backwardBuildLocksTheRunItsExtentsCover : Obligations.BackwardBuildLocksTheRunItsExtentsCover := by
  unfold Obligations.BackwardBuildLocksTheRunItsExtentsCover
  refine ⟨fun s u c fuel lo hi start es hgeo hent hoff hfuel hrun => ?live,
    fun s u c fuel lo hi start xin xout xs es hgeo hoff hfuel hxlen hx hxin hxout hheld hrun => ?clip⟩
  case live =>
    have hplaces := State.placesOk_live hgeo hent lo hi
    obtain ⟨j, hj, hbuilt, hlen, hend⟩ := build_goesOn (s := s) (j := 0) hplaces (.nil ..) (by simp) (by omega) hrun
    refine ⟨j, by omega, hlen, hbuilt.cover, fun r hr hr' => ?_, fun n hn => ?_, hbuilt.chan, hbuilt.chans, hbuilt.frame, ?_⟩
    · obtain ⟨n, hf, hpos, hslot⟩ := hbuilt.found r hr hr'
      have hn : (s.chan c).firstSlot + (n - (s.chan c).firstSlot) = n := Nat.add_sub_cancel' (hplaces r n hf).2.1
      refine ⟨_, hpos, ?_, ?_⟩
      · rw [hn]
        exact (State.foundAt_live lo hi r n).1 hf
      · rw [hn]
        exact hslot
    · exact hbuilt.others n fun r hr hr' hf => hn r hr hr' ((State.foundAt_live lo hi r n).1 hf)
    · simp only [State.foundAt_live] at hend
      refine hend.imp (fun h => by omega) (Or.imp_right ?_)
      rintro ⟨n, hn, hstop⟩
      refine ⟨n, hn, hstop.imp_right fun hfull => ?_⟩
      obtain ⟨h16, hne⟩ := (bottomFull_iff ..).1 hfull
      exact ⟨by omega, hne⟩
  case clip =>
    have hplaces := State.placesOk_clip hgeo hoff lo hi xs
    have hfound (r : Nat) (hr : start + 1 - fuel ≤ r) (hr' : r ≤ start) : ∃ n, s.foundAt { chan := c, lo, hi, sub := some xs } r n ∧
        1 ≤ (s.slot n).locks ∧ (s.slot n).locks < 256 := by
      obtain ⟨p, hp, hstate, hrfn, hlocks⟩ := hheld r hr hr'
      refine ⟨(s.chan c).firstSlot + p, ⟨nofun, fun ys hys => ?_⟩, hlocks⟩
      obtain rfl : xs = ys := Option.some.inj hys
      exact ⟨hoff, hstate, hrfn, p, hp, rfl⟩
    obtain ⟨i, hi', hbuilt, hlen, hend⟩ := build_goesOn (s := s) (j := 0) hplaces (.nil ..) (by simp) (by omega) hrun
    obtain rfl : i = fuel := by
      by_contra hne
      obtain ⟨n, hf, hl, hroom⟩ := hbuilt.reaches hfuel hxlen hx hxin hxout (by omega) hfound
      rcases hend with h | h | ⟨n', hf', hstop⟩
      · omega
      · exact h n hf
      · obtain rfl : n' = n := congrArg Prod.fst (Option.some.inj
          ((State.locate_eq_some.2 ⟨hf', rfl⟩).symm.trans (State.locate_eq_some.2 ⟨hf, rfl⟩)))
        exact hstop.elim (fun h => h hl) hroom
    have hat (r p : Nat) (hr : start + 1 - i ≤ r) (hr' : r ≤ start) (hp : positionOf xs (s.chan c).len r = some p) :
        positionOf es (s.chan c).len r = some p ∧ s.foundAt { chan := c, lo, hi, sub := some xs } r ((s.chan c).firstSlot + p) ∧
          u.slot ((s.chan c).firstSlot + p) =
            { s.slot ((s.chan c).firstSlot + p) with locks := (s.slot ((s.chan c).firstSlot + p)).locks + 1 } := by
      obtain ⟨n, hf, hpos, hslot⟩ := hbuilt.found r hr hr'
      obtain ⟨hp', -, hn⟩ := State.foundAt_clip hf
      obtain rfl : n - (s.chan c).firstSlot = p := Option.some.inj (hp'.symm.trans hp)
      rw [← hn]
      exact ⟨hpos, hf, hslot⟩
    have hlocked : ∀ r p, start + 1 - i ≤ r → r ≤ start → positionOf xs (s.chan c).len r = some p →
        1 ≤ (s.slot ((s.chan c).firstSlot + p)).locks := fun r p hr hr' hp => by
      obtain ⟨p', hp', -, -, hlocks, -⟩ := hheld r hr hr'
      obtain rfl : p' = p := Option.some.inj (hp'.symm.trans hp)
      exact hlocks
    have hchan : u.chan c = s.chan c := by
      have hzero : (List.range i).filter (fun k =>
          decide ((s.slot ((s.chan c).firstSlot + (positionOf es (s.chan c).len (start - k)).getD 0)).locks = 0)) = [] := by
        refine List.filter_eq_nil_iff.2 fun k hk => ?_
        have hk := List.mem_range.1 hk
        obtain ⟨p, hp, -⟩ := hheld (start - k) (by omega) (Nat.sub_le ..)
        have hone := hlocked _ p (by omega) (Nat.sub_le ..) hp
        rw [(hat _ p (by omega) (Nat.sub_le ..) hp).1, Option.getD_some, decide_eq_true_iff]
        omega
      have h := hbuilt.chan
      dsimp only at h
      rw [hzero] at h
      exact h
    refine ⟨hlen, hbuilt.cover, fun r p hr hr' hp => ?_, fun n hn => ?_, ?_⟩
    · obtain ⟨hpos, -, hslot⟩ := hat r p hr hr' hp
      exact ⟨hpos, hslot⟩
    · refine hbuilt.others n fun r hr hr' hf => ?_
      obtain ⟨hp, -, heq⟩ := State.foundAt_clip hf
      exact hn r _ hr hr' hp heq
    · have hchans : u.chans = s.chans := Vector.ext fun d hd => by
        by_cases hdc : (⟨d, hd⟩ : ChanId) = c
        · subst hdc
          exact hchan
        · exact hbuilt.chans ⟨d, hd⟩ hdc
      have h := hbuilt.frame
      rw [hchans] at h
      exact h

end Sys2Proof.Machine
end

section
/-! PROOFS. MarkRuns.lean: a mark as one run of the clip manager, by command and by key (R93, R94), and the marks that are refused. -/

namespace Sys2Proof.Machine

/-! ## Marks read and write the clip manager's part alone -/

theorem onClips_remark (s : State) (h : HeadId) : (remark s h).OnClips := by
  unfold remark
  cases s.attachedOpen h with
  | none => trivial
  | some k =>
    dsimp only
    split_ifs
    · exact onClips_closeClip ..
    · exact onClips_deleteClip ..

/-- What a MARK IN does after its remark: `tick` and `src` are the count of ticks and the head's source at its arrival (R99, R100). -/
def markInRest (tick : Word) (src : Src) (h : HeadId) (d : Shown) (m : MarkSource) : Prog MarkAnswer :=
  .read [.clips] (fun u =>
    match u.freeClip with
    | none => .done (.refused .tableFull)
    | some k =>
      (build m (m.hi + 1 - clampNat m.lo m.hi d.rfn) m.hi []).bind (fun es =>
        match es with
        | [] => .done (.refused .lockFull)
        | e :: es =>
          .op [.clips] (fun t => t.makeIn h k { builtClip m (e :: es) e.rfn m.hi d.rfn tick with
            growing := m.sub.isNone, attached := some h } src)
            (fun _ => .done (.made k (builtClip m (e :: es) e.rfn m.hi d.rfn tick).inClamped))))

theorem markIn_eq (s : State) (h : HeadId) (d : Shown) (m : MarkSource) :
    markIn s h d m = (remark s h).bind (fun _ => markInRest s.ref.count (s.head h).src h d m) := rfl

theorem onClips_markInRest (tick : Word) (src : Src) (h : HeadId) (d : Shown) (m : MarkSource) : (markInRest tick src h d m).OnClips := by
  refine ⟨fun _ _ => rfl, fun _ => ⟨rfl, rfl⟩, fun _ _ => rfl, fun u => ?_⟩
  dsimp only
  cases u.freeClip with
  | none => trivial
  | some k =>
    refine (onClips_build ..).bind fun es => ?_
    cases es with
    | nil => trivial
    | cons e es => exact ⟨fun _ _ => rfl, fun _ => ⟨rfl, rfl⟩, fun _ _ => rfl, fun _ => trivial⟩

theorem onClips_markOut (s : State) (h : HeadId) (d : Shown) : (markOut s h d).OnClips := by
  unfold markOut
  cases s.outClip h with
  | none => trivial
  | some k =>
    dsimp only
    split_ifs
    · trivial
    · exact (onClips_unlockAll _).bind fun _ => ⟨fun x t => x.recordClose_clipPart (t.setClip k _) k _ .mark,
        fun t => (t.setClip k _).recordClose_keeps k _ .mark, fun _ _ => rfl, fun _ => trivial⟩

theorem State.makeQuick_clipPart (x t : State) (k b target : Nat) (c : Clip) :
    (x.clipPart t).makeQuick k b target c = x.clipPart (t.makeQuick k b target c) :=
  x.recordClose_clipPart (((t.setClip k c).postOpened k .quick).setClip k { c with outClamped := decide (b ≠ target) }) k b .quickDone

theorem State.makeQuick_keeps (t : State) (k b target : Nat) (c : Clip) :
    (t.makeQuick k b target c).index = t.index ∧ (t.makeQuick k b target c).ref = t.ref :=
  (((t.setClip k c).postOpened k .quick).setClip k { c with outClamped := decide (b ≠ target) }).recordClose_keeps k b .quickDone

theorem onClips_markQuick (s : State) (d : Shown) (m : MarkSource) : (markQuick s d m).OnClips := by
  unfold markQuick
  cases s.freeClip with
  | none => trivial
  | some k =>
    refine (onClips_build ..).bind fun es => ?_
    cases es with
    | nil => trivial
    | cons e es =>
      dsimp only
      split_ifs
      · exact ⟨fun _ _ => rfl, fun _ => ⟨rfl, rfl⟩, fun _ _ => rfl, fun _ => trivial⟩
      · exact ⟨fun x t => x.makeQuick_clipPart t .., fun t => t.makeQuick_keeps .., fun _ _ => rfl, fun _ => trivial⟩

theorem onClips_markAt (s : State) (h : HeadId) (kind : MarkKind) : (markAt s h kind).OnClips := by
  unfold markAt
  split_ifs
  · trivial
  · cases s.markSource h with
    | none => trivial
    | some y =>
      obtain ⟨d, m⟩ := y
      cases kind with
      | markIn => exact (onClips_remark s h).bind fun _ => onClips_markInRest ..
      | markOut => exact onClips_markOut ..
      | markQuick => exact onClips_markQuick ..

/-! ## A mark comes to an end -/

/-- The program ends from every state. -/
def Prog.Ends {α : Type} (p : Prog α) : Prop := ∀ s, ∃ y, p.run s = some y

theorem Prog.Ends.bind {α β : Type} {p : Prog α} {g : α → Prog β} (hp : p.Ends) (hg : ∀ a, (g a).Ends) : (p.bind g).Ends := by
  intro s
  obtain ⟨⟨t, a⟩, hr⟩ := hp s
  obtain ⟨y, hy⟩ := hg a t
  exact ⟨y, by rw [Prog.run_bind, hr]; exact hy⟩

theorem Prog.ends_done {α : Type} (a : α) : (Prog.done a).Ends := fun s => ⟨(s, a), rfl⟩

theorem Prog.ends_op {α : Type} {b : List Agent} {f : State → State} {next : State → Prog α} (h : ∀ s, (next s).Ends) :
    (Prog.op b f next).Ends := fun s => h s (f s)

theorem ends_unlockAll (ns : List Nat) : (unlockAll ns).Ends := fun s => ⟨_, unlockAll_run ns s⟩

theorem ends_remark (s : State) (h : HeadId) : (remark s h).Ends := by
  unfold remark
  cases s.attachedOpen h with
  | none => exact Prog.ends_done _
  | some k =>
    dsimp only
    split_ifs
    · exact (ends_unlockAll _).bind fun _ => Prog.ends_op fun _ => Prog.ends_done _
    · exact (ends_unlockAll _).bind fun _ => Prog.ends_op fun _ => Prog.ends_done _

theorem ends_build (m : MarkSource) (fuel r : Nat) (es : List Extent) : (build m fuel r es).Ends := by
  induction fuel generalizing r es with
  | zero => exact Prog.ends_done _
  | succ fuel ih =>
    refine Prog.ends_op fun s => ?_
    cases s.locate m r with
    | none => exact Prog.ends_done _
    | some y =>
      obtain ⟨n, p⟩ := y
      dsimp only
      split_ifs
      · exact Prog.ends_done _
      · refine Prog.ends_op fun t => ?_
        cases (t.lock n r).2
        · exact ih _ _
        · exact Prog.ends_done _

theorem ends_markInRest (tick : Word) (src : Src) (h : HeadId) (d : Shown) (m : MarkSource) : (markInRest tick src h d m).Ends := by
  refine Prog.ends_op fun u => ?_
  cases u.freeClip with
  | none => exact Prog.ends_done _
  | some k =>
    refine Prog.Ends.bind (ends_build _ _ _ _) fun es => ?_
    cases es with
    | nil => exact Prog.ends_done _
    | cons e es => exact Prog.ends_op fun _ => Prog.ends_done _

theorem ends_markOut (s : State) (h : HeadId) (d : Shown) : (markOut s h d).Ends := by
  unfold markOut
  cases s.outClip h with
  | none => exact Prog.ends_done _
  | some k =>
    dsimp only
    split_ifs
    · exact Prog.ends_done _
    · exact (ends_unlockAll _).bind fun _ => Prog.ends_op fun _ => Prog.ends_done _

theorem ends_markQuick (s : State) (d : Shown) (m : MarkSource) : (markQuick s d m).Ends := by
  unfold markQuick
  cases s.freeClip with
  | none => exact Prog.ends_done _
  | some k =>
    refine Prog.Ends.bind (ends_build _ _ _ _) fun es => ?_
    cases es with
    | nil => exact Prog.ends_done _
    | cons e es =>
      dsimp only
      split_ifs
      · exact Prog.ends_op fun _ => Prog.ends_done _
      · exact Prog.ends_op fun _ => Prog.ends_done _

theorem ends_markAt (s : State) (h : HeadId) (kind : MarkKind) : (markAt s h kind).Ends := by
  unfold markAt
  split_ifs
  · exact Prog.ends_done _
  · cases s.markSource h with
    | none => exact Prog.ends_done _
    | some y =>
      obtain ⟨d, m⟩ := y
      cases kind with
      | markIn => exact (ends_remark s h).bind fun _ => ends_markInRest _ _ _ _ _
      | markOut => exact ends_markOut _ _ _
      | markQuick => exact ends_markQuick _ _ _

/-! ## The MARK command and the key mark -/

/-- The MARK command all at once (R93, R94). -/
def markNow (r : CmdArgs) (s : State) : State × CmdResult := ((markCommand r).run s).getD (s, .refused .badArg)

/-- The state after a key mark `x` of port `p`: `t` is what the mark made of the clips (R94, R142). -/
def State.keyMarked (s t : State) (p : PortId) (x : KeyMark) : MarkAnswer → State
  | .made _ _ => (s.popMark p).clipPart t
  | .refused why => ((s.popMark p).clipPart t).postRefused s p x why

section
variable {r : CmdArgs} {h : HeadId} {kind : MarkKind} {s t : State} {ans : MarkAnswer}

theorem markCommand_of (ht : targetHead r = some h) (hk : MarkKind.ofCode r.a.toNat = some kind) :
    markCommand r = .read [.clips] (fun s => ((markAt s h kind).onTable s.clips).bind (fun x => .done x.result)) := by
  rw [markCommand, ht, hk]

theorem markCommand_of_badArg (hbad : 3 < r.target.toNat ∨ 2 < r.a.toNat) : markCommand r = .done (.refused .badArg) := by
  rcases hbad with hbad | hbad
  · rw [markCommand, targetHead_none r hbad]
  · have hnone : MarkKind.ofCode r.a.toNat = none := by
      obtain ⟨n, hn⟩ : ∃ n, r.a.toNat = n + 3 := ⟨r.a.toNat - 3, by omega⟩
      rw [hn]
      rfl
    rw [markCommand, hnone]
    cases targetHead r <;> rfl

theorem markCommand_run_of (ht : targetHead r = some h) (hk : MarkKind.ofCode r.a.toNat = some kind)
    (hr : (markAt s h kind).run s = some (t, ans)) : (markCommand r).run s = some (t, ans.result) := by
  rw [markCommand_of ht hk, Prog.run_read, Prog.run_bind, Prog.onTable_run, hr]
  rfl

theorem markNow_run (r : CmdArgs) (s : State) : (markCommand r).run s = some (markNow r s) := by
  have hends : ∃ y, (markCommand r).run s = some y := by
    cases ht : targetHead r with
    | none =>
      rw [markCommand, ht]
      exact ⟨_, rfl⟩
    | some h =>
      cases hk : MarkKind.ofCode r.a.toNat with
      | none =>
        rw [markCommand, ht, hk]
        exact ⟨_, rfl⟩
      | some kind =>
        obtain ⟨⟨t, ans⟩, hr⟩ := ends_markAt s h kind s
        exact ⟨_, markCommand_run_of ht hk hr⟩
  obtain ⟨y, hy⟩ := hends
  rw [markNow, hy]
  rfl

theorem markNow_of (ht : targetHead r = some h) (hk : MarkKind.ofCode r.a.toNat = some kind)
    (hr : (markAt s h kind).run s = some (t, ans)) : markNow r s = (t, ans.result) := by
  rw [markNow, markCommand_run_of ht hk hr]
  rfl

theorem exec_mark_nil (r : CmdArgs) (s : State) : exec (.mark r []) s = .next (s.carryOut 0x0C r (markNow r)) :=
  weave_command_nil (e := .command 0x0C r) (kind := 0x0C) (r := r) (fun _ _ => rfl) (markNow_run r)

/-- A mark reads nothing of the processor and the own-request queue. -/
theorem markAt_taken (s : State) (k : Nat) (x : Byte) (r : CmdArgs) (h : HeadId) (kind : MarkKind) :
    markAt (s.taken k x r) h kind = markAt s h kind := by
  have hact : (s.taken k x r).mem.active = s.mem.active := MemPath.leave_active ..
  have hsource : (s.taken k x r).markSource h = s.markSource h := rfl
  rw [markAt, markAt, hact, hsource]
  cases s.markSource h with
  | none => rfl
  | some y => cases kind <;> rfl

theorem markNow_taken (ht : targetHead r = some h) (hk : MarkKind.ofCode r.a.toNat = some kind)
    (hr : (markAt s h kind).run s = some (t, ans)) (k : Nat) :
    markNow r (s.taken k 0x0C r) = ((s.taken k 0x0C r).clipPart t, ans.result) :=
  markNow_of ht hk (by
    rw [markAt_taken]
    exact (onClips_markAt s h kind).run_eq hr (s.taken k 0x0C r))

/-- What the clip manager's operations made of `s`, in one equation. -/
theorem Prog.OnClips.frame_eq {α : Type} {p : Prog α} (hp : p.OnClips) {a : α} (hr : p.run s = some (t, a)) :
    t = { s with slots := t.slots, chans := t.chans, clips := t.clips, evt := t.evt
                 mail := { s.mail with toHead := t.mail.toHead } } := by
  obtain ⟨hindex, href⟩ := hp.keeps hr
  have hframe := hp.frame hr
  rw [State.clipPart, hindex, href] at hframe
  exact hframe

/-- A MARK command that ends. -/
theorem mark_answered (hs : s.awaits) (ht : targetHead r = some h) (hk : MarkKind.ofCode r.a.toNat = some kind)
    (hr : (markAt s h kind).run s = some (t, ans)) :
    s.Answered (s.carryOut 0x0C r (markNow r)) t 0x0C r ans.result := by
  have hframe := (onClips_markAt s h kind).frame_eq hr
  refine State.carryOut_answered_beside hs t _ (fun k => ?_) (by rw [hframe]) (by rw [hframe])
  rw [markNow_taken ht hk hr, hframe]
  rfl

/-- A key mark. -/
theorem exec_panelMark_of {p : PortId} {rest : List KeyMark} (hp : s.mail.portMarks.get p = { head := h, kind } :: rest)
    (hr : (markAt s h kind).run s = some (t, ans)) :
    exec (.panelMark p []) s = .next (s.keyMarked t p { head := h, kind } ans) := by
  refine weave_of_alone ?_
  show ((panelMarkProg p).run s).map (·.1) = _
  have hclips : s.clips = (s.popMark p).clips := rfl
  have hrun : (markAt s h kind).run (s.popMark p) = some ((s.popMark p).clipPart t, ans) :=
    (onClips_markAt s h kind).run_eq hr (s.popMark p)
  rw [panelMarkProg, Prog.run_op, hp]
  dsimp only
  rw [Prog.run_bind, hclips, Prog.onTable_run]
  rw [hrun]
  cases ans <;> rfl

end

/-! ## What a mark reads (R91, R93, R95) -/

section
variable {s : State} {h : HeadId} {d : Shown} {m : MarkSource} {k : Nat}

theorem State.freeClip_of (hk : s.lowestFree k) : s.freeClip = some k := by
  obtain ⟨hlt, hfree, hlow⟩ := hk
  rw [State.freeClip, List.find?_range_eq_some]
  exact ⟨by simpa using hfree, List.mem_range.2 hlt, fun j hj => by simpa using hlow j hj⟩

theorem State.freeClip_none (hk : ∀ k, k < 256 → (s.clip k).state ≠ .free) : s.freeClip = none := by
  rw [State.freeClip, List.find?_eq_none]
  intro k hk'
  simpa using hk k (List.mem_range.1 hk')

theorem State.markSource_of_window (hshown : (s.head h).shown = some d) (hsrc : d.src = (s.head h).src)
    (hm : s.markWindow (s.head h).src m) : s.markSource h = some (d, m) := by
  obtain ⟨-, ⟨c, hc, hhi, hm⟩ | ⟨y, hy, -, hm⟩⟩ := hm
  · rw [State.markSource, hc, hshown]
    dsimp only
    rw [if_pos (hsrc.trans hc), hm, hhi]
    rfl
  · rw [State.markSource, hy, hshown]
    dsimp only
    rw [if_pos (hsrc.trans hy), hm]

theorem State.markSource_isSome (hsource : (s.head h).src ≠ .idle) (hshown : (s.head h).shown = some d)
    (hsrc : d.src = (s.head h).src) : ∃ m, s.markSource h = some (d, m) := by
  cases hx : (s.head h).src with
  | idle => exact absurd hx hsource
  | live c =>
    rw [State.markSource, hx, hshown]
    exact ⟨_, if_pos (hsrc.trans hx)⟩
  | clip y =>
    rw [State.markSource, hx, hshown]
    exact ⟨_, if_pos (hsrc.trans hx)⟩

theorem State.markSource_none (hno : (s.head h).src = .idle ∨ (s.head h).shown = none ∨
    ∃ d, (s.head h).shown = some d ∧ d.src ≠ (s.head h).src) : s.markSource h = none := by
  unfold State.markSource
  cases hx : (s.head h).src with
  | idle => rfl
  | live c =>
    rcases hno with hno | hno | ⟨d, hd, hne⟩
    · exact absurd (hx.symm.trans hno) nofun
    · rw [hno]
    · rw [hd]
      exact if_neg (fun e => hne (e.trans hx.symm))
  | clip y =>
    rcases hno with hno | hno | ⟨d, hd, hne⟩
    · exact absurd (hx.symm.trans hno) nofun
    · rw [hno]
    · rw [hd]
      exact if_neg (fun e => hne (e.trans hx.symm))

theorem MarkKind.ofCode_code (kind : MarkKind) : MarkKind.ofCode kind.code = some kind := by cases kind <;> rfl

theorem clampNat_of_fittedTo {lo hi q v : Nat} (h : fittedTo lo hi q v) : clampNat lo hi q = v := by
  obtain ⟨h1, h2, h3, h4, h5⟩ := h
  unfold clampNat
  split_ifs <;> omega

/-! ## The marks step by step -/

theorem markAt_of (hact : s.mem.active = true) (hsource : s.markSource h = some (d, m)) (kind : MarkKind) :
    markAt s h kind = match kind with
      | .markIn => markIn s h d m
      | .markOut => markOut s h d
      | .markQuick => markQuick s d m := by
  rw [markAt, hact, hsource]
  rfl

theorem remark_of_none (hn : s.noneAttached h) : remark s h = .done () := by
  rw [remark, (s.attachedOpen_eq_none h).2 hn]

theorem markIn_of_none (hn : s.noneAttached h) : markIn s h d m = markInRest s.ref.count (s.head h).src h d m := by
  rw [markIn_eq, remark_of_none hn]
  rfl

/-- A build whose first frame is gone or cannot be locked gathers nothing. -/
theorem build_nothing {b : Nat} (hstop : (∀ n, ¬ s.foundAt m b n) ∨ ∃ n, s.foundAt m b n ∧ ¬ s.lockable n b) (fuel : Nat) :
    (build m fuel b []).run s = some (s, []) := by
  cases fuel with
  | zero => rfl
  | succ fuel =>
    rw [build, Prog.run_read]
    rcases hstop with hnone | ⟨n, hf, hl⟩
    · rw [State.locate_eq_none.2 hnone]
      rfl
    · obtain ⟨x, hx⟩ := State.lock_declined hl
      rw [State.locate_eq_some.2 ⟨hf, rfl⟩]
      dsimp only
      rw [if_neg (by simp [bottomFull]), Prog.run_op, hx]
      rfl

end

/-! ## The obligation -/

/-- A refused mark, as a run of the clip manager, leaves the state. -/
theorem markAt_refused {s : State} {h : HeadId} {kind : MarkKind} {why : Reason}
    (hwhy : s.mem.active = false ∧ why = .state ∨
      s.mem.active = true ∧ why = .noSource ∧ ((s.head h).src = .idle ∨ (s.head h).shown = none ∨
        ∃ d, (s.head h).shown = some d ∧ d.src ≠ (s.head h).src) ∨
      s.mem.active = true ∧ (s.head h).src ≠ .idle ∧ ∃ d, (s.head h).shown = some d ∧ d.src = (s.head h).src ∧
        (why = .noClip ∧ kind = .markOut ∧ s.noneAttached h ∧ (∀ k ∈ s.mail.fromHead.get h, ¬s.heldOpen h k) ∨
          why = .order ∧ kind = .markOut ∧ (∃ k, s.outActsOn h k ∧ d.rfn < (s.clip k).inF) ∨
          why = .tableFull ∧ kind ≠ .markOut ∧ (kind = .markIn → s.noneAttached h) ∧
            (∀ k, k < 256 → (s.clip k).state ≠ .free) ∨
          why = .lockFull ∧ kind ≠ .markOut ∧ (kind = .markIn → s.noneAttached h) ∧
            ∃ k m b, s.lowestFree k ∧ s.markWindow (s.head h).src m ∧ (kind = .markIn → b = m.hi) ∧
              (kind = .markQuick →
                fittedTo m.lo m.hi (min (d.rfn + s.postRoll * (s.chan m.chan).phases) 4294967039) b) ∧
              ((∀ n, ¬s.foundAt m b n) ∨ ∃ n, s.foundAt m b n ∧ ¬s.lockable n b))) :
    (markAt s h kind).run s = some (s, .refused why) := by
  rcases hwhy with ⟨hact, rfl⟩ | ⟨hact, rfl, hno⟩ | ⟨hact, hsource, d, hshown, hsrc, hwhy⟩
  · rw [markAt, hact]
    rfl
  · rw [markAt, hact, State.markSource_none hno]
    rfl
  · obtain ⟨m, hm⟩ := State.markSource_isSome hsource hshown hsrc
    rcases hwhy with ⟨rfl, rfl, hnone, hwaits⟩ | ⟨rfl, rfl, k, hk, hlow⟩ | ⟨rfl, hkind, hnone, hfull⟩ |
      ⟨rfl, hkind, hnone, k, m', b, hk, hwindow, hin, hquick, hstop⟩
    · rw [markAt_of hact hm]
      dsimp only
      rw [markOut, State.outClip_eq_none hnone hwaits]
      rfl
    · rw [markAt_of hact hm]
      dsimp only
      rw [markOut, State.outClip_of_outActsOn hk]
      dsimp only
      rw [if_pos hlow]
      rfl
    · rw [markAt_of hact hm]
      cases kind with
      | markOut => exact absurd rfl hkind
      | markIn =>
        dsimp only
        rw [markIn_of_none (hnone rfl), markInRest, Prog.run_read, State.freeClip_none hfull]
        rfl
      | markQuick =>
        dsimp only
        rw [markQuick, State.freeClip_none hfull]
        rfl
    · rw [markAt_of hact (State.markSource_of_window hshown hsrc hwindow)]
      cases kind with
      | markOut => exact absurd rfl hkind
      | markIn =>
        obtain rfl := hin rfl
        dsimp only
        rw [markIn_of_none (hnone rfl), markInRest, Prog.run_read, State.freeClip_of hk]
        dsimp only
        rw [Prog.run_bind, build_nothing hstop]
        rfl
      | markQuick =>
        have hb : clampNat m'.lo m'.hi (min (d.rfn + s.postRoll * (s.chan m'.chan).phases) (Config.rfnLimit - 1)) = b :=
          clampNat_of_fittedTo (hquick rfl)
        dsimp only
        rw [markQuick, State.freeClip_of hk]
        dsimp only
        rw [Prog.run_bind, hb, build_nothing hstop]
        rfl

/-- Settles O36: a refused mark is a run that leaves the state, and by command and by key it is that run. -/
theorem refusedMarksChangeNothing : Obligations.RefusedMarksChangeNothing := by
  unfold Obligations.RefusedMarksChangeNothing
  refine ⟨fun s r hs hbad => ?_, fun s h kind why hwhy => ?_⟩
  · refine ⟨_, exec_mark_nil r s, State.carryOut_refused hs fun k => ?_⟩
    rw [markNow, markCommand_of_badArg hbad]
    rfl
  · have hr := markAt_refused hwhy
    refine ⟨fun r hs ht hk => ?_, fun p rest hp => ?_⟩
    · have ha := mark_answered hs (targetHead_of r h ht) (by rw [hk, MarkKind.ofCode_code]) hr
      exact ⟨_, exec_mark_nil r s, ha.ended, ha.eq⟩
    · refine ⟨_, exec_panelMark_of hp hr, ?_, rfl⟩
      show s.evt.posted .markRefused why h.val (kind.code + 256 * p.val) _ s.ref.count = _
      cases (s.head h).shown <;> rfl

end Sys2Proof.Machine
end

section
/-! PROOFS. MarksMade.lean: MARK_SETUP, and the marks that make or close a clip (R97 to R104). -/

namespace Sys2Proof.Machine

/-! ## MARK OUT and REMARK (R98, R101) -/

section
variable {s : State} {h : HeadId} {d : Shown} {m : MarkSource} {k : Nat}

/-- The clip record that a MARK OUT closes: OUT_CLAMPED tells that the displayed frame lies above its out (R101). -/
def Clip.outMarked (c : Clip) (d : Shown) : Clip := { c with outClamped := c.outClamped || decide (c.outF < d.rfn) }

/-- The clips after a MARK OUT (R101). -/
def State.markedOut (s : State) (k : Nat) (d : Shown) : State :=
  ((s.unlockEach (s.clipSlots (s.clip k) (min d.rfn (s.clip k).outF + 1) (s.clip k).outF)).setClip k ((s.clip k).outMarked d)).recordClose k
    (min d.rfn (s.clip k).outF) .mark

theorem markOut_run (hk : s.outActsOn h k) (hlow : (s.clip k).inF ≤ d.rfn) :
    (markOut s h d).run s = some (s.markedOut k d, .made k (decide ((s.clip k).outF < d.rfn))) := by
  rw [markOut, State.outClip_of_outActsOn hk]
  dsimp only
  rw [if_neg (Nat.not_lt.2 hlow), Prog.run_bind, unlockAll_run]
  rfl

theorem State.unlock_setClip (s : State) (k n : Nat) (c : Clip) : ((s.setClip k c).unlock n).1 = (s.unlock n).1.setClip k c := by
  have hslot : (s.setClip k c).slot n = s.slot n := rfl
  have howner : (s.setClip k c).ownerOf n = s.ownerOf n := rfl
  unfold State.unlock State.countLocked
  rw [hslot, howner]
  cases s.ownerOf n <;> split_ifs <;> rfl

theorem State.unlockEach_setClip (s : State) (k : Nat) (c : Clip) (ns : List Nat) :
    (s.setClip k c).unlockEach ns = (s.unlockEach ns).setClip k c := by
  unfold State.unlockEach
  induction ns generalizing s with
  | nil => rfl
  | cons n ns ih => rw [List.foldl_cons, List.foldl_cons, State.unlock_setClip, ih]

/-- A MARK OUT is a close of the clip with its flag set. -/
theorem State.markedOut_eq (s : State) (k : Nat) (d : Shown) :
    s.markedOut k d = (s.setClip k ((s.clip k).outMarked d)).closeNow k (min d.rfn (s.clip k).outF) .mark := by
  have hclip : (s.setClip k ((s.clip k).outMarked d)).clip k = (s.clip k).outMarked d := by simp
  rw [State.closeNow, hclip, State.unlockEach_setClip]
  rfl

/-- What a MARK OUT does to the clips. -/
theorem State.markedOut_closed (s : State) (k : Nat) (d : Shown) :
    s.clipClosed (s.markedOut k d) k (min d.rfn (s.clip k).outF) ((s.clip k).outMarked d) .mark := by
  rw [State.markedOut_eq]
  obtain ⟨hclip, hext, hothers, hslots, hchans, hmail, hevt⟩ :=
    (s.setClip k ((s.clip k).outMarked d)).closeNow_closed k (min d.rfn (s.clip k).outF) .mark
  rw [State.setClip_clip, if_pos rfl] at hclip hext hslots hmail hevt
  refine ⟨hclip, hext, fun j hj => ?_, hslots, hchans, hmail, hevt⟩
  rw [hothers j hj, State.setClip_clip, if_neg hj]

/-- The clips after a remark of the attached clip `k` (R98). -/
def State.remarked (s : State) (k : Nat) : State :=
  if s.hasClipHead k then s.closeNow k (s.clip k).outF .remark else s.deleteNow k .remark

theorem remark_run (ha : (s.head h).attached = some k) (hk : s.heldOpen h k) : (remark s h).run s = some (s.remarked k, ()) := by
  rw [remark, (s.attachedOpen_eq_some h k).2 ⟨ha, hk⟩, State.remarked]
  dsimp only
  split_ifs
  · exact closeClip_run ..
  · exact deleteClip_run ..

theorem State.remarked_work (s : State) (k : Nat) : s.clipWork (s.remarked k) := by
  unfold State.remarked
  split_ifs
  · exact s.closeNow_frame ..
  · exact s.deleteNow_frame ..

/-- The cut of covering extents at their end leaves them. -/
theorem trimTop_of_cover {es : List Extent} {lo hi : Nat} (hc : extentsCover es lo hi) : trimTop es hi = es := by
  induction es generalizing lo with
  | nil => rfl
  | cons e es ih =>
    obtain ⟨hrfn, hlen, hle, hrest⟩ := hc
    have htail := ih hrest
    have hin : e.rfn ≤ hi := by omega
    have hend : e.rfn + e.len ≤ hi + 1 := by
      cases es with
      | nil =>
        have : lo + e.len = hi + 1 := hrest
        omega
      | cons f es =>
        have := hrest.2.2.1
        omega
    unfold trimTop at htail ⊢
    rw [List.filter_cons_of_pos (by simpa using hin), List.map_cons, htail]
    by_cases hcut : hi < e.rfn + e.len
    · rw [if_pos hcut]
      have hl : hi + 1 - e.rfn = e.len := by omega
      rw [hl]
    · rw [if_neg hcut]

theorem State.markSource_congr {s t : State} {h : HeadId} (hsrc : (t.head h).src = (s.head h).src)
    (hshown : (t.head h).shown = (s.head h).shown) (htail : ∀ c, (t.chan c).tail = (s.chan c).tail)
    (hnext : ∀ c, (t.chan c).nextRfn = (s.chan c).nextRfn)
    (hclip : ∀ y, (s.head h).src = .clip y → (t.clip y).chan = (s.clip y).chan ∧ (t.clip y).inF = (s.clip y).inF ∧
      (t.clip y).outF = (s.clip y).outF ∧ (t.clip y).extents = (s.clip y).extents) :
    t.markSource h = s.markSource h := by
  unfold State.markSource
  rw [hsrc, hshown]
  cases hx : (s.head h).src with
  | idle => rfl
  | live c =>
    cases (s.head h).shown with
    | none => rfl
    | some d =>
      dsimp only
      rw [htail, hnext]
  | clip y =>
    obtain ⟨hc, hi, ho, he⟩ := hclip y hx
    cases (s.head h).shown with
    | none => rfl
    | some d =>
      dsimp only
      rw [hc, hi, ho, he]

/-- What the mark reads of its source is not changed by the remark before it. -/
theorem State.markSource_remarked (hk : s.heldOpen h k) (hin : (s.clip k).inF ≤ (s.clip k).outF)
    (hcover : extentsCover (s.clip k).extents (s.clip k).inF (s.clip k).outF) (hm : s.markSource h = some (d, m)) :
    ((s.remarked k).setHead h { s.head h with attached := none }).markSource h = some (d, m) := by
  have hhead : ((s.remarked k).setHead h { s.head h with attached := none }).head h = { s.head h with attached := none } := by simp
  have hchan (c : ChanId) : ((s.remarked k).setHead h { s.head h with attached := none }).chan c =
      { s.chan c with locked := ((s.remarked k).chan c).locked } := by
    show (s.remarked k).chan c = _
    unfold State.remarked
    split_ifs
    · obtain ⟨-, -, -, -, hchans, -, -⟩ := s.closeNow_closed k (s.clip k).outF .remark
      exact hchans c
    · exact s.deleteNow_chan ..
  have hclip (y : Nat) (hy : (s.head h).src = .clip y) :
      (((s.remarked k).setHead h { s.head h with attached := none }).clip y).chan = (s.clip y).chan ∧
      (((s.remarked k).setHead h { s.head h with attached := none }).clip y).inF = (s.clip y).inF ∧
      (((s.remarked k).setHead h { s.head h with attached := none }).clip y).outF = (s.clip y).outF ∧
      (((s.remarked k).setHead h { s.head h with attached := none }).clip y).extents = (s.clip y).extents := by
    have hset : ((s.remarked k).setHead h { s.head h with attached := none }).clip y = (s.remarked k).clip y := rfl
    rw [hset, State.remarked]
    by_cases hyk : y = k
    · subst hyk
      rw [if_pos (State.hasClipHead_iff.2 ⟨h, hy⟩), State.closeNow_out, State.closeAtOut_clip, if_pos rfl]
      exact ⟨rfl, rfl, rfl, trimTop_of_cover hcover⟩
    · split_ifs
      · rw [State.closeNow_out, State.closeAtOut_clip, if_neg hyk]
        exact ⟨rfl, rfl, rfl, rfl⟩
      · rw [State.deleteNow_clip, if_neg hyk]
        exact ⟨rfl, rfl, rfl, rfl⟩
  rw [← hm]
  exact State.markSource_congr (by rw [hhead]) (by rw [hhead]) (fun c => by rw [hchan]) (fun c => by rw [hchan]) hclip

end

theorem State.endCommand_heads (s : State) (v : Vector Head 4) (o : CmdResult) :
    ({ s with heads := v } : State).endCommand o = { s.endCommand o with heads := v } := by
  unfold State.endCommand
  cases s.proc.current <;> rfl

/-! ## The obligation -/

/-- Settles O35: a MARK OUT is a close with OUT_CLAMPED set; a MARK IN is its remark and then what it does where none is attached,
for the remark leaves the source's frames, and the rest of the mark does not read the head record again. -/
theorem markOutClosesTheAttachedClip : Obligations.MarkOutClosesTheAttachedClip := by
  unfold Obligations.MarkOutClosesTheAttachedClip
  intro s h d k hact hsource hshown hsrc
  obtain ⟨m, hm⟩ := State.markSource_isSome hsource hshown hsrc
  have hout (hk : s.outActsOn h k) (hlow : (s.clip k).inF ≤ d.rfn) :
      (markAt s h .markOut).run s = some (s.markedOut k d, .made k (decide ((s.clip k).outF < d.rfn))) := by
    rw [markAt_of hact hm]
    exact markOut_run hk hlow
  obtain ⟨hclip, hext, hothers, hslots, hchans, hmail, hevt⟩ := s.markedOut_closed k d
  refine ⟨fun hk hlow r hs ht hr => ?command, fun hk hlow p rest hp => ?key, fun hatt hk r hs ht hr hin hcover => ?remark⟩
  case command =>
    have ha := mark_answered hs (targetHead_of r h ht) (kind := .markOut) (by rw [hr]; rfl) (hout hk hlow)
    have hframe := (onClips_markAt s h .markOut).frame_eq (hout hk hlow)
    refine ⟨_, exec_mark_nil r s, ?_, ⟨?_, ?_, fun j hj => ?_, fun n => ?_, fun c => ?_, ?_, ?_⟩, ?_⟩
    · rw [← CmdResult.fitted_eq_doneOrClamped]
      exact ha.ended
    · rw [ha.clip]
      exact hclip
    · rw [ha.clip]
      exact hext
    · rw [ha.clip]
      exact hothers j hj
    · rw [ha.slot]
      exact hslots n
    · rw [ha.chan]
      exact hchans c
    · rw [ha.mail]
      exact hmail
    · rw [ha.evt]
      exact hevt
    · rw [ha.slots, ha.chans, ha.clips, ha.evt, ha.mail]
      refine ha.eq.trans ?_
      rw [hframe]
  case key =>
    have hframe := (onClips_markAt s h .markOut).frame_eq (hout hk hlow)
    refine ⟨_, exec_panelMark_of hp (hout hk hlow), ⟨hclip, hext, hothers, hslots, hchans, ?_, hevt⟩, ?_⟩
    · show { (s.popMark p).mail with toHead := (s.markedOut k d).mail.toHead } = _
      rw [hmail]
      dsimp only [Clip.outMarked]
      cases (s.clip k).attached <;> rfl
    · show (s.popMark p).clipPart (s.markedOut k d) = _
      rw [hframe]
      rfl
  case remark =>
    obtain ⟨u, hu⟩ : ∃ u, s.remarked k = u := ⟨_, rfl⟩
    have hrun := remark_run hatt hk
    rw [hu] at hrun
    have hpart := (onClips_remark s h).frame hrun
    obtain ⟨x, hx⟩ : ∃ x, u.setHead h { s.head h with attached := none } = x := ⟨_, rfl⟩
    have hxpart : x.clipPart u = x := by
      rw [← hx]
      rfl
    obtain ⟨⟨t, ans⟩, ht'⟩ := ends_markInRest s.ref.count (s.head h).src h d m u
    have hrunS : (markAt s h .markIn).run s = some (t, ans) := by
      rw [markAt_of hact hm]
      dsimp only
      rw [markIn_eq, Prog.run_bind, hrun]
      exact ht'
    have hactX : x.mem.active = true := by
      rw [← hx, hpart]
      exact hact
    have hheadX : x.head h = { s.head h with attached := none } := by
      rw [← hx]
      simp
    have hnoneX : x.noneAttached h := fun j hj => by
      rw [hheadX] at hj
      cases hj
    have hmX : x.markSource h = some (d, m) := by
      rw [← hx, ← hu]
      exact State.markSource_remarked hk hin hcover hm
    have hrefX : x.ref = s.ref := by
      rw [← hx]
      exact ((onClips_remark s h).keeps hrun).2
    have hrunX : (markAt x h .markIn).run x = some (x.clipPart t, ans) := by
      rw [markAt_of hactX hmX]
      dsimp only
      rw [markIn_of_none hnoneX, hrefX, hheadX]
      have h := (onClips_markInRest s.ref.count (s.head h).src h d m).run_eq ht' x
      rwa [hxpart] at h
    have hsX : x.awaits := by
      rw [← hx, hpart]
      exact hs
    have hth := targetHead_of r h ht
    have hkind : MarkKind.ofCode r.a.toNat = some .markIn := by
      rw [hr]
      rfl
    obtain ⟨j, hj, hfetch⟩ := s.fetched_of_awaits 0x0C r hs
    obtain ⟨j', hj', hfetch'⟩ := x.fetched_of_awaits 0x0C r hsX
    obtain rfl : j' = j := by
      rw [← hx, hpart] at hj'
      exact Option.some.inj (hj'.symm.trans hj)
    refine ⟨u, _, hu ▸ s.remarked_work k, fun hno => ?_, fun hin' => ?_, by rw [hx]; exact exec_mark_nil r x, ?_⟩
    · have hfalse : s.hasClipHead k = false := by
        rw [Bool.eq_false_iff, Ne, State.hasClipHead_iff]
        rintro ⟨g, hg⟩
        exact hno g hg
      rw [← hu, State.remarked, hfalse]
      exact ⟨by rw [if_neg Bool.false_ne_true, State.deleteNow_clip, if_pos rfl],
        fun i hi => by rw [if_neg Bool.false_ne_true, State.deleteNow_clip, if_neg hi],
        s.deleteNow_slot k .remark, s.deleteNow_chan k .remark, s.deleteNow_mail k .remark, s.deleteNow_evt k .remark⟩
    · rw [← hu, State.remarked, if_pos (State.hasClipHead_iff.2 hin')]
      exact s.closeNow_closed k (s.clip k).outF .remark
    · rw [exec_mark_nil, State.carryOut, State.carryOut, hfetch, hfetch', markNow_taken hth hkind hrunS, markNow_taken hth hkind hrunX]
      have hsame : (s.taken j' 0x0C r).clipPart t = { (x.taken j' 0x0C r).clipPart (x.clipPart t) with heads := s.heads } := by
        rw [← hx, hpart]
        rfl
      dsimp only
      rw [hsame, State.endCommand_heads]

end Sys2Proof.Machine
end

section
/-! PROOFS. ClipsMade.lean: MARK_SETUP, and the clips that MARK IN and MARK QUICK make (R97 to R100, R102 to R104). -/

namespace Sys2Proof.Machine

/-! ## MARK_SETUP (R102) -/

theorem fittedTo_min (q : Nat) : fittedTo 0 1023 q (min q Config.maxRoll) := by
  have hmax : Config.maxRoll = 1023 := rfl
  unfold fittedTo
  omega

theorem exec_markSetup {s : State} {r : CmdArgs} (hs : s.awaits) : ∃ t p q, exec (.markSetup r) s = .next t ∧
    fittedTo 0 1023 r.a.toNat p ∧ fittedTo 0 1023 r.b.toNat q ∧
    s.commandEnded t 0x0D r (doneOrClamped (p ≠ r.a.toNat ∨ q ≠ r.b.toNat) 0) ∧
    t = { s with proc := t.proc, mem := s.mem.withOwn t.mem, preRoll := p, postRoll := q } := by
  have hmax : Config.maxRoll = 1023 := rfl
  have hclamped : (decide (Config.maxRoll < r.a.toNat) || decide (Config.maxRoll < r.b.toNat)) =
      decide (min r.a.toNat Config.maxRoll ≠ r.a.toNat ∨ min r.b.toNat Config.maxRoll ≠ r.b.toNat) := by
    rw [← Bool.decide_or, decide_eq_decide]
    omega
  have ha := State.carryOut_answered_beside (own := markSetup r) (kind := 0x0D) (r := r) hs
    { s with preRoll := min r.a.toNat Config.maxRoll, postRoll := min r.b.toNat Config.maxRoll }
    (doneOrClamped (min r.a.toNat Config.maxRoll ≠ r.a.toNat ∨ min r.b.toNat Config.maxRoll ≠ r.b.toNat) 0)
    (fun k => by
      rw [markSetup, hclamped, CmdResult.fitted_eq_doneOrClamped]
      rfl) rfl rfl
  exact ⟨_, _, _, rfl, fittedTo_min _, fittedTo_min _, ha.ended, ha.eq⟩

/-! ## What a build leaves (R96) -/

theorem build_frame {m : MarkSource} {fuel r : Nat} {es es' : List Extent} {u v : State}
    (hr : (build m fuel r es).run u = some (v, es')) : v = { u with slots := v.slots, chans := v.chans } := by
  induction fuel generalizing r es u with
  | zero =>
    cases hr
    rfl
  | succ fuel ih =>
    rcases build_succ_run hr with ⟨rfl, -, -⟩ | ⟨n, p, -, -, -, hmore⟩
    · rfl
    · have hrest := ih hmore
      rw [u.lock_frame n r] at hrest
      exact hrest

theorem build_one {s : State} {m : MarkSource} {d n : Nat} (hf : s.foundAt m d n) (hl : s.lockable n d) :
    (build m 1 d []).run s = some ((s.lock n d).1, [{ rfn := d, pos := n - (s.chan m.chan).firstSlot, len := 1 }]) := by
  rw [build, Prog.run_read, State.locate_eq_some.2 ⟨hf, rfl⟩]
  dsimp only
  rw [if_neg (by simp [bottomFull]), Prog.run_op, (State.lock_of_lockable hl).1]
  rfl

/-! ## The clips made -/

section
variable {s u : State} {h : HeadId} {d : Shown} {m : MarkSource} {k : Nat} {e : Extent} {es : List Extent}

/-- The record of the clip that a MARK IN makes (R97, R99, R100). -/
def inClip (m : MarkSource) (e : Extent) (es : List Extent) (h : HeadId) (d : Shown) (tick : Word) : Clip :=
  { builtClip m (e :: es) e.rfn m.hi d.rfn tick with growing := m.sub.isNone, attached := some h }

theorem markIn_run (hact : s.mem.active = true) (hm : s.markSource h = some (d, m)) (hn : s.noneAttached h) (hk : s.freeClip = some k)
    (hb : (build m (m.hi + 1 - clampNat m.lo m.hi d.rfn) m.hi []).run s = some (u, e :: es)) :
    (markAt s h .markIn).run s = some (u.makeIn h k (inClip m e es h d s.ref.count) (s.head h).src, .made k (decide ((e.rfn : Int) ≠ d.rfn))) := by
  rw [markAt_of hact hm]
  dsimp only
  rw [markIn_of_none hn, markInRest, Prog.run_read, hk]
  dsimp only
  rw [Prog.run_bind, hb]
  rfl

theorem inClip_eq (m : MarkSource) (e : Extent) (es : List Extent) (h : HeadId) (d : Shown) (tick : Word) :
    inClip m e es h d tick = { state := .opened, chan := m.chan, inF := e.rfn, outF := m.hi, extents := e :: es
                               growing := decide (m.sub = none), attached := some h, inClamped := decide (e.rfn ≠ d.rfn)
                               isSub := decide (m.sub ≠ none), creation := tick } := by
  have hclamped : decide ((e.rfn : Int) ≠ d.rfn) = decide (e.rfn ≠ d.rfn) := by
    rw [decide_eq_decide]
    omega
  rw [inClip, builtClip, hclamped]
  cases m.sub <;> rfl

theorem inClip_flags (m : MarkSource) (e : Extent) (es : List Extent) (h : HeadId) (d : Shown) (tick : Word) :
    (inClip m e es h d tick).flags = (if e.rfn ≠ d.rfn then 1 else 0) + (if m.sub = none then 16 else 8) := by
  rw [inClip_eq, Clip.flags]
  by_cases he : e.rfn = d.rfn <;> by_cases hs : m.sub = none <;> simp [bit, he, hs]

/-- What a MARK QUICK spans (R103, R104): where it starts, before it is clamped, and its target. -/
def State.quickRaw (s : State) (d : Shown) (m : MarkSource) : Int := (d.rfn : Int) - (s.preRoll * (s.chan m.chan).phases : Nat)

def State.quickTarget (s : State) (d : Shown) (m : MarkSource) : Nat :=
  min (d.rfn + s.postRoll * (s.chan m.chan).phases) (Config.rfnLimit - 1)

/-- The record of the clip that a MARK QUICK makes, before it grows or is closed (R97, R104). -/
def quickClip (m : MarkSource) (e : Extent) (es : List Extent) (b : Nat) (raw : Int) (tick : Word) : Clip :=
  { builtClip m (e :: es) e.rfn b raw tick with isQuick := true }

theorem markQuick_run (hact : s.mem.active = true) (hm : s.markSource h = some (d, m)) (hk : s.freeClip = some k) {a b : Nat}
    (ha : clampNat m.lo m.hi (s.quickRaw d m).toNat = a) (hb : clampNat m.lo m.hi (s.quickTarget d m) = b)
    (hrun : (build m (b + 1 - a) b []).run s = some (u, e :: es)) :
    (markAt s h .markQuick).run s =
      if m.hi < s.quickTarget d m ∧ m.sub.isNone then
        some ((u.setClip k { quickClip m e es b (s.quickRaw d m) s.ref.count with
            growing := true, quick := some (s.quickTarget d m) }).postOpened k .quick,
          .made k (decide ((e.rfn : Int) ≠ s.quickRaw d m)))
      else
        some (u.makeQuick k b (s.quickTarget d m) (quickClip m e es b (s.quickRaw d m) s.ref.count),
          .made k (decide ((e.rfn : Int) ≠ s.quickRaw d m) || decide (b ≠ s.quickTarget d m))) := by
  rw [markAt_of hact hm]
  dsimp only
  have hquick : markQuick s d m = (build m (b + 1 - a) b []).bind (fun es =>
      match es with
      | [] => .done (.refused .lockFull)
      | e :: es =>
        if m.hi < s.quickTarget d m ∧ m.sub.isNone then
          .op [.clips] (fun t => (t.setClip k { quickClip m e es b (s.quickRaw d m) s.ref.count with
              growing := true, quick := some (s.quickTarget d m) }).postOpened k .quick)
            (fun _ => .done (.made k (decide ((e.rfn : Int) ≠ s.quickRaw d m))))
        else
          .op [.clips] (fun t => t.makeQuick k b (s.quickTarget d m) (quickClip m e es b (s.quickRaw d m) s.ref.count))
            (fun _ => .done (.made k (decide ((e.rfn : Int) ≠ s.quickRaw d m) || decide (b ≠ s.quickTarget d m))))) := by
    rw [markQuick, hk, ← ha, ← hb]
    rfl
  rw [hquick, Prog.run_bind, hrun]
  dsimp only
  split_ifs <;> rfl

theorem quickClip_eq (m : MarkSource) (e : Extent) (es : List Extent) (b : Nat) (raw : Int) (tick : Word) :
    quickClip m e es b raw tick =
      { state := .opened, chan := m.chan, inF := e.rfn, outF := b, extents := e :: es, inClamped := decide ((e.rfn : Int) ≠ raw)
        isQuick := true, isSub := decide (m.sub ≠ none), creation := tick } := by
  rw [quickClip, builtClip]
  cases m.sub <;> rfl

end

/-! ## What making a clip does -/

section
variable (u : State) (h : HeadId) (k : Nat) (c : Clip) (src : Src)

theorem State.makeIn_clip (j : Nat) : (u.makeIn h k c src).clip j = if j = k then c else u.clip j := u.setClip_clip k j c

theorem State.makeIn_evt : (u.makeIn h k c src).evt = u.evt.posted .clipOpened .inEnd k c.flags (BitVec.ofNat 32 c.inF) u.ref.count := by
  have hclip : ((u.setClip k c).tellHead h (.attach k src)).clip k = c := by
    show (u.setClip k c).clip k = c
    simp
  rw [State.makeIn, State.postOpened, hclip]
  rfl

theorem State.makeIn_frame :
    u.makeIn h k c src = { u with clips := (u.makeIn h k c src).clips, evt := (u.makeIn h k c src).evt
                                  mail := { u.mail with toHead := pushAt u.mail.toHead h (.attach k src) } } := rfl

/-- A quick clip that waits for its target (R104). -/
theorem State.postOpened_evt (why : Reason) :
    ((u.setClip k c).postOpened k why).evt = u.evt.posted .clipOpened why k c.flags (BitVec.ofNat 32 c.inF) u.ref.count := by
  have hclip : (u.setClip k c).clip k = c := by simp
  rw [State.postOpened, hclip]
  rfl

variable {c}

theorem State.makeQuick_clip {b : Nat} (hb : c.outF = b) (target j : Nat) :
    (u.makeQuick k b target c).clip j =
      if j = k then { c with outClamped := decide (b ≠ target) }.closedAt b .quickDone else u.clip j := by
  subst hb
  obtain ⟨w, hw⟩ : ∃ w, ((u.setClip k c).postOpened k .quick).setClip k { c with outClamped := decide (c.outF ≠ target) } = w := ⟨_, rfl⟩
  have hown : w.clip k = { c with outClamped := decide (c.outF ≠ target) } := by
    rw [← hw]
    simp
  have hclose : u.makeQuick k c.outF target c = w.closeAtOut k .quickDone := by
    rw [State.closeAtOut, hown, State.makeQuick, hw]
  rw [hclose, State.closeAtOut_clip, hown]
  split_ifs with hj
  · rfl
  · rw [← hw, State.setClip_clip, if_neg hj]
    exact (u.setClip_clip k j c).trans (if_neg hj)

theorem State.makeQuick_told {b : Nat} (hb : c.outF = b) (target : Nat) (hno : c.attached = none) :
    (u.makeQuick k b target c).mail = u.mail ∧
      (u.makeQuick k b target c).evt = (u.evt.posted .clipOpened .quick k c.flags (BitVec.ofNat 32 c.inF) u.ref.count).posted
        .clipClosed .quickDone k { c with outClamped := decide (b ≠ target), growing := false }.flags (BitVec.ofNat 32 b) u.ref.count := by
  obtain ⟨⟨-, -, -, -, -, hmail, hevt⟩, -⟩ := State.setClip_closeAtOut ((u.setClip k c).postOpened k .quick) k
    { c with outClamped := decide (b ≠ target) } .quickDone
  subst hb
  dsimp only at hmail hevt
  rw [State.postOpened_evt] at hevt
  refine ⟨hmail.trans ?_, hevt⟩
  rw [hno]
  rfl

theorem State.makeQuick_frame {b : Nat} (target : Nat) (hmail : (u.makeQuick k b target c).mail = u.mail) :
    u.makeQuick k b target c = { u with clips := (u.makeQuick k b target c).clips, evt := (u.makeQuick k b target c).evt } := by
  have hframe := State.recordClose_frame (((u.setClip k c).postOpened k .quick).setClip k { c with outClamped := decide (b ≠ target) }) k b
    .quickDone
  have hlift : u.makeQuick k b target c = { u with clips := (u.makeQuick k b target c).clips, evt := (u.makeQuick k b target c).evt
                                                   mail := (u.makeQuick k b target c).mail } := hframe
  rw [hmail] at hlift
  exact hlift

end

/-- The extents gathered end at the frame that the build starts from. -/
theorem build_covers {m : MarkSource} {fuel r hi : Nat} {es es' : List Extent} {u v : State} (hc : extentsCover es (r + 1) hi)
    (hr : r ≤ hi) (hfuel : fuel ≤ r + 1) (hrun : (build m fuel r es).run u = some (v, es')) : ∃ lo, extentsCover es' lo hi := by
  induction fuel generalizing r es u with
  | zero =>
    cases hrun
    exact ⟨_, hc⟩
  | succ fuel ih =>
    rcases build_succ_run hrun with ⟨-, rfl, -⟩ | ⟨n, p, -, -, -, hmore⟩
    · exact ⟨_, hc⟩
    · have hjoin := extentsCover_joinBottom (u.chan m.chan).len p hc hr
      cases r with
      | zero =>
        obtain rfl : fuel = 0 := by omega
        cases hmore
        exact ⟨_, hjoin⟩
      | succ r => exact ih hjoin (by omega) (by omega) hmore

/-! ## The obligation -/

section
variable {s u : State} {r : CmdArgs} {h : HeadId} {d : Shown} {m : MarkSource} {k : Nat} {e : Extent} {es : List Extent}

/-- MARK IN by command. -/
theorem exec_markIn (hs : s.awaits) (ht : r.target.toNat = h.val) (hact : s.mem.active = true) (hm : s.markSource h = some (d, m))
    (hk : s.freeClip = some k) {a : Nat} (hr : r.a = 0) (hn : s.noneAttached h) (hfit : fittedTo m.lo m.hi d.rfn a)
    (hb : (build m (m.hi + 1 - a) m.hi []).run s = some (u, e :: es)) :
    ∃ t, exec (.mark r []) s = .next t ∧
      s.commandEnded t 0x0C r (doneOrClamped (e.rfn ≠ d.rfn) (BitVec.ofNat 32 k)) ∧
      t.clip k = { state := .opened, chan := m.chan, inF := e.rfn, outF := m.hi, extents := e :: es
                   growing := decide (m.sub = none), attached := some h, inClamped := decide (e.rfn ≠ d.rfn)
                   isSub := decide (m.sub ≠ none), creation := s.ref.count } ∧
      (∀ j, j ≠ k → t.clip j = s.clip j) ∧
      t.evt = s.evt.posted .clipOpened .inEnd k ((if e.rfn ≠ d.rfn then 1 else 0) + (if m.sub = none then 16 else 8))
        (BitVec.ofNat 32 e.rfn) s.ref.count ∧
      t = { s with proc := t.proc, mem := s.mem.withOwn t.mem, slots := u.slots, chans := u.chans, clips := t.clips
                   evt := t.evt, mail := { s.mail with toHead := pushAt s.mail.toHead h (.attach k (s.head h).src) } } := by
  rw [← clampNat_of_fittedTo hfit] at hb
  have hrun := markIn_run hact hm hn hk hb
  have hframe := build_frame hb
  have ha := mark_answered hs (targetHead_of r h ht) (kind := .markIn) (by rw [hr]; rfl) hrun
  have hres : (MarkAnswer.made k (decide ((e.rfn : Int) ≠ d.rfn))).result = doneOrClamped (e.rfn ≠ d.rfn) (BitVec.ofNat 32 k) := by
    have hiff : decide ((e.rfn : Int) ≠ d.rfn) = decide (e.rfn ≠ d.rfn) := by
      rw [decide_eq_decide]
      omega
    rw [MarkAnswer.result, hiff, CmdResult.fitted_eq_doneOrClamped]
  refine ⟨_, exec_mark_nil r s, hres ▸ ha.ended, ?_, fun j hj => ?_, ?_, ?_⟩
  · rw [ha.clip, State.makeIn_clip, if_pos rfl, inClip_eq]
  · rw [ha.clip, State.makeIn_clip, if_neg hj, hframe]
    rfl
  · rw [ha.evt, State.makeIn_evt, inClip_flags, hframe]
    rfl
  · rw [ha.clips, ha.evt]
    refine ha.eq.trans ?_
    rw [State.makeIn_frame, hframe]

/-- MARK QUICK by command. -/
theorem exec_markQuick (hs : s.awaits) (ht : r.target.toNat = h.val) (hact : s.mem.active = true) (hm : s.markSource h = some (d, m))
    (hk : s.freeClip = some k) {a b : Nat} (hr : r.a = 2) (ha : fittedTo m.lo m.hi (s.quickRaw d m).toNat a)
    (hb : fittedTo m.lo m.hi (s.quickTarget d m) b) (hbuild : (build m (b + 1 - a) b []).run s = some (u, e :: es)) {x : Clip}
    (hx : x = { state := .opened, chan := m.chan, inF := e.rfn, outF := b, extents := e :: es
                inClamped := decide ((e.rfn : Int) ≠ s.quickRaw d m), isQuick := true, isSub := decide (m.sub ≠ none)
                creation := s.ref.count }) :
    ∃ t, exec (.mark r []) s = .next t ∧
      (m.hi < s.quickTarget d m → m.sub = none →
        s.commandEnded t 0x0C r (doneOrClamped ((e.rfn : Int) ≠ s.quickRaw d m) (BitVec.ofNat 32 k)) ∧
        t.clip k = { x with growing := true, quick := some (s.quickTarget d m) } ∧
        t.evt = s.evt.posted .clipOpened .quick k ((if (e.rfn : Int) ≠ s.quickRaw d m then 1 else 0) + 20) (BitVec.ofNat 32 e.rfn)
          s.ref.count) ∧
      (s.quickTarget d m ≤ m.hi ∨ m.sub ≠ none →
        s.commandEnded t 0x0C r (doneOrClamped ((e.rfn : Int) ≠ s.quickRaw d m ∨ b ≠ s.quickTarget d m) (BitVec.ofNat 32 k)) ∧
        t.clip k = { x with state := .closed, outClamped := decide (b ≠ s.quickTarget d m), reason := .quickDone } ∧
        t.evt = (s.evt.posted .clipOpened .quick k
            ((if (e.rfn : Int) ≠ s.quickRaw d m then 1 else 0) + 4 + (if m.sub = none then 0 else 8)) (BitVec.ofNat 32 e.rfn)
            s.ref.count).posted .clipClosed .quickDone k
            ((if (e.rfn : Int) ≠ s.quickRaw d m then 1 else 0) + (if b ≠ s.quickTarget d m then 2 else 0) + 4 +
              (if m.sub = none then 0 else 8))
            (BitVec.ofNat 32 b) s.ref.count) ∧
      (∀ j, j ≠ k → t.clip j = s.clip j) ∧
      t = { s with proc := t.proc, mem := s.mem.withOwn t.mem, slots := u.slots, chans := u.chans, clips := t.clips
                   evt := t.evt } := by
  have hrun := markQuick_run hact hm hk (clampNat_of_fittedTo ha) (clampNat_of_fittedTo hb) hbuild
  have hframe := build_frame hbuild
  have hq : quickClip m e es b (s.quickRaw d m) s.ref.count = x := (quickClip_eq ..).trans hx.symm
  have hclips (j : Nat) : u.clip j = s.clip j := (congrArg (fun y : State => y.clip j) hframe :)
  have hevt : u.evt = s.evt := (congrArg State.evt hframe :)
  have href : u.ref = s.ref := (congrArg State.ref hframe :)
  have hmail : u.mail = s.mail := (congrArg State.mail hframe :)
  rw [hq] at hrun
  by_cases hwaits : m.hi < s.quickTarget d m ∧ m.sub.isNone
  · rw [if_pos hwaits] at hrun
    obtain ⟨habove, hlive⟩ := hwaits
    have hlive : m.sub = none := Option.isNone_iff_eq_none.1 hlive
    have hans := mark_answered hs (targetHead_of r h ht) (kind := .markQuick) (by rw [hr]; rfl) hrun
    refine ⟨_, exec_mark_nil r s, fun _ _ => ⟨?_, ?_, ?_⟩, fun hno => ?_, fun j hj => ?_, ?_⟩
    · rw [← CmdResult.fitted_eq_doneOrClamped]
      exact hans.ended
    · rw [hans.clip]
      exact (u.setClip_clip k k _).trans (if_pos rfl)
    · rw [hans.evt, State.postOpened_evt, hevt, href, hx]
      have hflags : ({ x with growing := true, quick := some (s.quickTarget d m) } : Clip).flags =
          (if (e.rfn : Int) ≠ s.quickRaw d m then 1 else 0) + 20 := by
        rw [hx, Clip.flags]
        by_cases he : (e.rfn : Int) = s.quickRaw d m <;> simp [bit, he, hlive]
      rw [hx] at hflags
      rw [hflags]
    · rcases hno with hno | hno
      · omega
      · exact absurd hlive hno
    · rw [hans.clip]
      exact ((u.setClip_clip k j _).trans (if_neg hj)).trans (hclips j)
    · rw [hans.clips, hans.evt]
      refine hans.eq.trans ?_
      rw [hframe]
      rfl
  · rw [if_neg hwaits] at hrun
    have hout : x.outF = b := by rw [hx]
    have hans := mark_answered hs (targetHead_of r h ht) (kind := .markQuick) (by rw [hr]; rfl) hrun
    have hmk := u.makeQuick_told k hout (s.quickTarget d m) (by rw [hx])
    have hmkframe := u.makeQuick_frame k (s.quickTarget d m) hmk.1
    obtain ⟨lo, hcover⟩ := build_covers (hi := b) (show extentsCover [] (b + 1) b from rfl) le_rfl (by omega) hbuild
    refine ⟨_, exec_mark_nil r s, fun habove hlive => absurd ⟨habove, by rw [hlive]; rfl⟩ hwaits, fun _ => ⟨?_, ?_, ?_⟩,
      fun j hj => ?_, ?_⟩
    · rw [← CmdResult.fitted_eq_doneOrClamped, Bool.decide_or]
      exact hans.ended
    · rw [hans.clip, State.makeQuick_clip _ _ hout, if_pos rfl, hx, Clip.closedAt]
      dsimp only
      rw [trimTop_of_cover hcover]
    · have hopened : x.flags = (if (e.rfn : Int) ≠ s.quickRaw d m then 1 else 0) + 4 + (if m.sub = none then 0 else 8) := by
        rw [hx, Clip.flags]
        by_cases he : (e.rfn : Int) = s.quickRaw d m <;> by_cases hsub : m.sub = none <;> simp [bit, he, hsub]
      have hclosed : ({ x with outClamped := decide (b ≠ s.quickTarget d m), growing := false } : Clip).flags =
          (if (e.rfn : Int) ≠ s.quickRaw d m then 1 else 0) + (if b ≠ s.quickTarget d m then 2 else 0) + 4 +
            (if m.sub = none then 0 else 8) := by
        rw [hx, Clip.flags]
        by_cases he : (e.rfn : Int) = s.quickRaw d m <;> by_cases hb : b = s.quickTarget d m <;>
          by_cases hsub : m.sub = none <;> simp [bit, he, hb, hsub]
      have hin : x.inF = e.rfn := by rw [hx]
      rw [hans.evt, hmk.2, hopened, hclosed, hin, hevt, href]
    · rw [hans.clip, State.makeQuick_clip _ _ hout, if_neg hj, hclips]
    · rw [hans.clips, hans.evt]
      refine hans.eq.trans ?_
      rw [hmkframe, hframe]

/-- A mark that is not refused, by key. -/
theorem exec_panelMark_as_command {kind : MarkKind} {p : PortId} {rest : List KeyMark} {t : State} (hs : s.awaits)
    (ht : r.target.toNat = h.val) (hr : r.a.toNat = kind.code)
    (hp : s.mail.portMarks.get p = { head := h, kind := kind } :: rest) (hexec : exec (.mark r []) s = .next t)
    (hdone : ∀ cur, t.proc.current = some cur → cur.status ≠ .refused) :
    exec (.panelMark p []) s = .next
      { s with slots := t.slots, chans := t.chans, clips := t.clips, evt := t.evt
               mail := { t.mail with portMarks := popAt s.mail.portMarks p } } := by
  obtain ⟨⟨v, ans⟩, hrun⟩ := ends_markAt s h kind s
  have ha := mark_answered hs (targetHead_of r h ht) (by rw [hr, MarkKind.ofCode_code]) hrun
  rw [exec_mark_nil] at hexec
  obtain rfl : s.carryOut 0x0C r (markNow r) = t := Host.Outcome.next.inj hexec
  cases ans with
  | refused why =>
    obtain ⟨hproc, -⟩ := ha.ended
    exact absurd rfl (hdone _ (by rw [hproc]))
  | made j clamped =>
    have hframe := (onClips_markAt s h kind).frame_eq hrun
    rw [exec_panelMark_of hp hrun, ha.slots, ha.chans, ha.clips, ha.evt, ha.mail, State.keyMarked, hframe]
    rfl

end

/-- Settles O34: a mark is one run of the clip manager, by command and by key; its build starts from no extents, so the clip made
covers the frames down from the top of the window. -/
theorem markSetupClampsAndMarksMakeClips : Obligations.MarkSetupClampsAndMarksMakeClips := by
  unfold Obligations.MarkSetupClampsAndMarksMakeClips
  refine ⟨fun s r hs => exec_markSetup hs, fun s m d n hf _ hl => ⟨_, build_one hf hl, (State.lock_of_lockable hl).2, s.lock_frame n d⟩, ?_⟩
  intro s r h d m k hs ht hact hshown hsrc hwindow hk
  have hm := State.markSource_of_window hshown hsrc hwindow
  have hfree := State.freeClip_of hk
  refine ⟨fun a u e es hr hn hfit hb => exec_markIn hs ht hact hm hfree hr hn hfit hb, ?_,
    fun kind p rest t hr hp hexec hdone => exec_panelMark_as_command hs ht hr hp hexec hdone⟩
  rintro a b target P raw u e es x hr rfl rfl rfl ha hb hbuild hx
  exact exec_markQuick hs ht hact hm hfree hr ha hb hbuild hx

end Sys2Proof.Machine
end

section
/-! PROOFS. Disengage.lean: DISENGAGE at the channels and the heads, and what may fall between its parts (R42, R62, R151). -/

namespace Sys2Proof.Machine

/-! ## The channels stop (R42) -/

/-- The channels of a list take their parts of DISENGAGE in turn. -/
def State.stopAll (s : State) (cs : List ChanId) : State := cs.foldl State.stopChannel s

section
variable (s : State) (c : ChanId)

theorem State.stopChannel_chan (d : ChanId) :
    (s.stopChannel c).chan d = if d = c ∧ (s.chan c).busy = true then { s.chan c with state := .ready, phaseSlots := [] } else s.chan d := by
  unfold State.stopChannel
  by_cases hb : (s.chan c).busy = true
  · simp [hb]
  · simp [hb]

theorem State.stopChannel_slot (n : Nat) :
    (s.stopChannel c).slot n = if (s.chan c).busy = true ∧ n ∈ (s.chan c).phaseSlots then (s.slot n).emptied else s.slot n := by
  unfold State.stopChannel
  by_cases hb : (s.chan c).busy = true
  · simp [hb]
  · simp [hb]

theorem State.stopChannel_evt :
    (s.stopChannel c).evt = if (s.chan c).busy = true then
      s.evt.posted .channelStopped .disengage c.val 0 (BitVec.ofNat 32 (s.chan c).nextRfn) s.ref.count else s.evt := by
  unfold State.stopChannel
  split_ifs
  · rw [State.abortChannel_evt]
    rfl
  · rfl

theorem State.stopChannel_notes (d : ChanId) :
    (s.stopChannel c).mail.chanNotes.get d =
      s.mail.chanNotes.get d ++ (if d = c ∧ (s.chan c).busy = true then [.stopped .disengage] else []) := by
  unfold State.stopChannel
  by_cases hb : (s.chan c).busy = true
  · by_cases hd : d = c
    · subst hd
      simp [hb]
    · simp [hb, hd]
  · simp [hb]

/-- A channel's part of DISENGAGE touches the channels, the slots, the events and the hand-overs alone. -/
theorem State.stopChannel_frame :
    s.stopChannel c = { s with slots := (s.stopChannel c).slots, chans := (s.stopChannel c).chans, evt := (s.stopChannel c).evt
                               mail := { s.mail with chanNotes := (s.stopChannel c).mail.chanNotes } } := by
  unfold State.stopChannel
  split_ifs
  · have hmail : (s.abortChannel c .disengage).mail = { s.mail with chanNotes := (s.abortChannel c .disengage).mail.chanNotes } := by
      rw [State.abortChannel_mail]
    rw [← hmail]
    exact s.abortChannel_frame c .disengage
  · rfl

theorem State.stopChannel_beside (x : Proc) (m : MemPath) :
    ({ s with proc := x, mem := m } : State).stopChannel c = { s.stopChannel c with proc := x, mem := m } := by
  have hchan : ({ s with proc := x, mem := m } : State).chan c = s.chan c := rfl
  unfold State.stopChannel
  rw [hchan]
  split_ifs
  · exact (State.abortChannel_besides s x m s.clips c .disengage).trans (by
      rw [State.abortChannel_frame]
      rfl)
  · rfl

end

theorem State.stopAll_cons (s : State) (c : ChanId) (cs : List ChanId) : s.stopAll (c :: cs) = (s.stopChannel c).stopAll cs := rfl

section
variable {cs : List ChanId} (s : State)

theorem State.stopAll_chan_of_not_mem {d : ChanId} (hd : d ∉ cs) : (s.stopAll cs).chan d = s.chan d := by
  induction cs generalizing s with
  | nil => rfl
  | cons c cs ih =>
    rw [List.mem_cons, not_or] at hd
    rw [State.stopAll_cons, ih _ hd.2, State.stopChannel_chan, if_neg (fun h => hd.1 h.1)]

theorem State.stopAll_chan_of_mem (hn : cs.Nodup) {d : ChanId} (hd : d ∈ cs) :
    (s.stopAll cs).chan d = if (s.chan d).busy = true then { s.chan d with state := .ready, phaseSlots := [] } else s.chan d := by
  induction cs generalizing s with
  | nil => cases hd
  | cons c cs ih =>
    obtain ⟨hc, hn⟩ := List.nodup_cons.1 hn
    rw [State.stopAll_cons]
    obtain rfl | hd := List.mem_cons.1 hd
    · rw [State.stopAll_chan_of_not_mem _ hc, State.stopChannel_chan]
      simp
    · have hne : d ≠ c := ne_of_mem_of_not_mem hd hc
      have hkeep : (s.stopChannel c).chan d = s.chan d := (s.stopChannel_chan c d).trans (if_neg fun h => hne h.1)
      rw [ih _ hn hd, hkeep]

theorem State.stopAll_slot (hn : cs.Nodup) (n : Nat) :
    (s.stopAll cs).slot n =
      if ∃ c ∈ cs, (s.chan c).busy = true ∧ n ∈ (s.chan c).phaseSlots then (s.slot n).emptied else s.slot n := by
  induction cs generalizing s with
  | nil => simp [State.stopAll]
  | cons c cs ih =>
    obtain ⟨hc, hn⟩ := List.nodup_cons.1 hn
    have hlater : (∃ d ∈ cs, ((s.stopChannel c).chan d).busy = true ∧ n ∈ ((s.stopChannel c).chan d).phaseSlots) ↔
        ∃ d ∈ cs, (s.chan d).busy = true ∧ n ∈ (s.chan d).phaseSlots := by
      refine exists_congr fun d => and_congr_right fun hd => ?_
      rw [State.stopChannel_chan, if_neg (fun h => ne_of_mem_of_not_mem hd hc h.1)]
    rw [State.stopAll_cons, ih _ hn, State.stopChannel_slot]
    simp only [hlater, List.exists_mem_cons_iff]
    by_cases hown : (s.chan c).busy = true ∧ n ∈ (s.chan c).phaseSlots
    · rw [if_pos hown, if_pos (Or.inl hown), Slot.emptied_emptied, ite_self]
    · rw [if_neg hown]
      simp only [hown, false_or]

theorem State.stopAll_frame :
    s.stopAll cs = { s with slots := (s.stopAll cs).slots, chans := (s.stopAll cs).chans, evt := (s.stopAll cs).evt
                            mail := { s.mail with chanNotes := (s.stopAll cs).mail.chanNotes } } := by
  induction cs generalizing s with
  | nil => rfl
  | cons c cs ih =>
    rw [State.stopAll_cons]
    refine (ih _).trans ?_
    rw [State.stopChannel_frame]

theorem State.stopAll_beside (x : Proc) (m : MemPath) :
    ({ s with proc := x, mem := m } : State).stopAll cs = { s.stopAll cs with proc := x, mem := m } := by
  induction cs generalizing s with
  | nil => rfl
  | cons c cs ih => rw [State.stopAll_cons, State.stopAll_cons, State.stopChannel_beside, ih]

/-- What the channels post and hand on, read from the records as they stood: `g` is the channel table before. -/
theorem State.stopAll_told (hn : cs.Nodup) (g : ChanId → Channel) (hg : ∀ c ∈ cs, s.chan c = g c) :
    (s.stopAll cs).evt = (cs.filter (fun c => (g c).busy)).foldl
        (fun e c => e.posted .channelStopped .disengage c.val 0 (BitVec.ofNat 32 (g c).nextRfn) s.ref.count) s.evt ∧
      ∀ d, (s.stopAll cs).mail.chanNotes.get d =
        s.mail.chanNotes.get d ++ (if d ∈ cs ∧ (g d).busy = true then [.stopped .disengage] else []) := by
  induction cs generalizing s with
  | nil => exact ⟨rfl, fun d => by simp [State.stopAll]⟩
  | cons c cs ih =>
    obtain ⟨hc, hn⟩ := List.nodup_cons.1 hn
    have hkeep : ∀ d ∈ cs, (s.stopChannel c).chan d = g d := fun d hd => by
      rw [State.stopChannel_chan, if_neg (fun h => ne_of_mem_of_not_mem hd hc h.1), hg d (List.mem_cons_of_mem _ hd)]
    have href : (s.stopChannel c).ref = s.ref := by rw [State.stopChannel_frame]
    have hown := hg c List.mem_cons_self
    obtain ⟨hevt, hnotes⟩ := ih (s.stopChannel c) hn hkeep
    rw [State.stopAll_cons]
    refine ⟨?_, fun d => ?_⟩
    · rw [hevt, href, State.stopChannel_evt, hown]
      by_cases hb : (g c).busy = true
      · rw [if_pos hb, List.filter_cons_of_pos (p := fun c => (g c).busy) hb, List.foldl_cons]
      · rw [if_neg hb, List.filter_cons_of_neg (p := fun c => (g c).busy) hb]
    · rw [hnotes, State.stopChannel_notes, hown]
      by_cases hd : d = c
      · subst hd
        simp [hc]
      · simp [hd]

end

/-! ## The heads turn IDLE (R62) -/

/-- The heads of a list take their parts of DISENGAGE in turn. -/
def State.idleAll (s : State) (hs : List HeadId) : State := hs.foldl State.idleHead s

/-- State `x` with all that a head's part of DISENGAGE reads and writes taken from `s`. -/
def State.headPart (x s : State) : State :=
  { x with slots := s.slots, heads := s.heads, mail := { x.mail with fromHead := s.mail.fromHead } }

section
variable (x s : State)

theorem State.unpinIf_headPart (o : Option Nat) : (x.headPart s).unpinIf o = x.headPart (s.unpinIf o) := by
  cases o with
  | none => rfl
  | some n =>
    have hslot : (x.headPart s).slot n = s.slot n := rfl
    unfold State.unpinIf State.unpin
    dsimp only
    rw [hslot]
    split_ifs <;> rfl

theorem State.detachHead_headPart (h : HeadId) : (x.headPart s).detachHead h = x.headPart (s.detachHead h) := by
  have hhead : (x.headPart s).head h = s.head h := rfl
  unfold State.detachHead
  rw [hhead]
  cases (s.head h).attached <;> rfl

theorem State.idleHead_headPart (h : HeadId) : (x.headPart s).idleHead h = x.headPart (s.idleHead h) := by
  have hhead : (x.headPart s).head h = s.head h := rfl
  by_cases hidle : (s.head h).src = .idle
  · rw [s.idleHead_of_idle h hidle, (x.headPart s).idleHead_of_idle h hidle, hhead, State.unpinIf_headPart]
    rfl
  · rw [s.idleHead_of_sourced h hidle, (x.headPart s).idleHead_of_sourced h hidle, hhead, State.unpinIf_headPart,
      State.unpinIf_headPart, State.detachHead_headPart]
    rfl

theorem State.idleAll_headPart (hs : List HeadId) : (x.headPart s).idleAll hs = x.headPart (s.idleAll hs) := by
  unfold State.idleAll
  induction hs generalizing s with
  | nil => rfl
  | cons h hs ih => rw [List.foldl_cons, List.foldl_cons, State.idleHead_headPart, ih]

theorem State.idleAll_frame (hs : List HeadId) : s.idleAll hs = s.headPart (s.idleAll hs) := State.idleAll_headPart s s hs

end

section
variable (s : State) (hs : List HeadId)

theorem State.idleAll_beside (x : Proc) (m : MemPath) :
    ({ s with proc := x, mem := m } : State).idleAll hs = { s.idleAll hs with proc := x, mem := m } := by
  have h := ({ s with proc := x, mem := m } : State).idleAll_headPart s hs
  have hframe := s.idleAll_frame hs
  generalize s.idleAll hs = w at h hframe ⊢
  rw [hframe]
  exact h

theorem State.idleAll_chan (c : ChanId) : (s.idleAll hs).chan c = s.chan c := by
  rw [State.idleAll_frame]
  rfl

theorem State.idleAll_evt : (s.idleAll hs).evt = s.evt := by
  rw [State.idleAll_frame]
  rfl

theorem State.idleAll_notes : (s.idleAll hs).mail.chanNotes = s.mail.chanNotes := by
  rw [State.idleAll_frame]
  rfl

end

theorem State.idleAll_cons (s : State) (h : HeadId) (hs : List HeadId) : s.idleAll (h :: hs) = (s.idleHead h).idleAll hs := rfl

section
variable {hs : List HeadId} (s : State)

theorem State.idleAll_head_of_not_mem {g : HeadId} (hg : g ∉ hs) : (s.idleAll hs).head g = s.head g := by
  induction hs generalizing s with
  | nil => rfl
  | cons h hs ih =>
    rw [List.mem_cons, not_or] at hg
    rw [State.idleAll_cons, ih _ hg.2, State.idleHead_head, if_neg hg.1]

theorem State.idleAll_head_of_mem (hn : hs.Nodup) {g : HeadId} (hg : g ∈ hs) :
    (s.idleAll hs).head g = if (s.head g).src = .idle then { s.head g with trailing := none } else
      { (s.head g).cleared with src := .idle, shown := none, trailing := none } := by
  induction hs generalizing s with
  | nil => cases hg
  | cons h hs ih =>
    obtain ⟨hh, hn⟩ := List.nodup_cons.1 hn
    rw [State.idleAll_cons]
    obtain rfl | hg := List.mem_cons.1 hg
    · rw [State.idleAll_head_of_not_mem _ hh, State.idleHead_head, if_pos rfl]
    · rw [ih _ hn hg, State.idleHead_head, if_neg (ne_of_mem_of_not_mem hg hh)]

/-- The heads' parts lower pin counts alone. -/
theorem State.idleAll_slot (n : Nat) : (s.idleAll hs).slot n = { s.slot n with pins := ((s.idleAll hs).slot n).pins } ∧
    ((s.idleAll hs).slot n).pins ≤ (s.slot n).pins := by
  induction hs generalizing s with
  | nil => exact ⟨rfl, le_rfl⟩
  | cons h hs ih =>
    obtain ⟨hslot, hpins⟩ := ih (s.idleHead h)
    rw [State.idleAll_cons]
    rw [State.idleHead_slot] at hslot hpins
    exact ⟨hslot, by dsimp only at hpins; omega⟩

/-- Where IDLE heads show nothing, the parts release all pins of the heads. -/
theorem State.idleAll_pins (hn : hs.Nodup) (hshown : ∀ h ∈ hs, (s.head h).src = .idle → (s.head h).shown = none) (n : Nat) :
    ((s.idleAll hs).slot n).pins = (s.slot n).pins - (hs.map (fun h => (s.head h).pinsOn n)).sum := by
  induction hs generalizing s with
  | nil => simp [State.idleAll]
  | cons h hs ih =>
    obtain ⟨hh, hn⟩ := List.nodup_cons.1 hn
    have hkeep : ∀ g ∈ hs, (s.idleHead h).head g = s.head g := fun g hg => by
      rw [State.idleHead_head, if_neg (ne_of_mem_of_not_mem hg hh)]
    have hrest : hs.map (fun g => ((s.idleHead h).head g).pinsOn n) = hs.map (fun g => (s.head g).pinsOn n) :=
      List.map_congr_left fun g hg => by rw [hkeep g hg]
    rw [State.idleAll_cons, ih _ hn (fun g hg => by rw [hkeep g hg]; exact hshown g (List.mem_cons_of_mem _ hg)), hrest,
      State.idleHead_slot, List.map_cons, List.sum_cons]
    dsimp only
    rw [Nat.sub_sub, Nat.sub_sub, ← Nat.add_assoc]
    refine congrArg (fun k => (s.slot n).pins - (k + (hs.map (fun g => (s.head g).pinsOn n)).sum)) ?_
    unfold Head.pinsOn
    by_cases hidle : (s.head h).src = .idle
    · rw [hshown h List.mem_cons_self hidle]
      simp [hidle]
    · rw [if_neg hidle]

theorem State.idleAll_detached (hn : hs.Nodup) (g : HeadId) :
    (s.idleAll hs).mail.fromHead.get g = s.mail.fromHead.get g ++
      (if g ∈ hs ∧ (s.head g).src ≠ .idle then (s.head g).attached.toList else []) := by
  induction hs generalizing s with
  | nil => simp [State.idleAll]
  | cons h hs ih =>
    obtain ⟨hh, hn⟩ := List.nodup_cons.1 hn
    rw [State.idleAll_cons, ih _ hn, State.idleHead_mail, State.idleHead_head]
    by_cases hg : g = h
    · subst hg
      by_cases hidle : (s.head g).src = .idle
      · simp [hh, hidle]
      · rw [if_neg hidle, State.mailDetached]
        cases hatt : (s.head g).attached <;> simp [hh, hidle, hatt]
    · rw [if_neg hg]
      split_ifs <;> simp_all [State.mailDetached]
      all_goals cases (s.head h).attached <;> simp [hg]

end

/-! ## DISENGAGE with nothing between its parts -/

/-- The state after all parts. -/
def State.disengaged (s : State) : State := (s.goTransparent.stopAll allChans).idleAll allHeads

theorem disengageNow_eq (s : State) :
    disengageNow s = (s.disengaged, .done (BitVec.ofNat 32 (allChans.filter (fun c => (s.chan c).busy)).length)) := rfl

section
variable (s : State)

theorem State.disengaged_frame : s.disengaged = { s with
    mem := { s.mem with active := false }, chans := s.disengaged.chans, heads := s.disengaged.heads, slots := s.disengaged.slots
    evt := s.disengaged.evt
    mail := { s.mail with chanNotes := s.disengaged.mail.chanNotes, fromHead := s.disengaged.mail.fromHead } } := by
  unfold State.disengaged
  have hstop := s.goTransparent.stopAll_frame (cs := allChans)
  generalize s.goTransparent.stopAll allChans = v at hstop ⊢
  have hidle := v.idleAll_frame allHeads
  generalize v.idleAll allHeads = w at hidle ⊢
  rw [hidle, hstop]
  rfl

theorem State.disengaged_beside (x : Proc) (m : MemPath) :
    ({ s with proc := x, mem := m } : State).disengaged = { s.disengaged with proc := x, mem := { m with active := false } } := by
  have hstop : ({ s with proc := x, mem := m } : State).goTransparent.stopAll allChans =
      { s.goTransparent.stopAll allChans with proc := x, mem := { m with active := false } } :=
    s.goTransparent.stopAll_beside x { m with active := false }
  unfold State.disengaged
  rw [hstop, State.idleAll_beside]

theorem State.disengaged_chan (c : ChanId) :
    s.disengaged.chan c = if (s.chan c).busy = true then { s.chan c with state := .ready, phaseSlots := [] } else s.chan c := by
  rw [State.disengaged, State.idleAll_chan, State.stopAll_chan_of_mem _ (by decide) (mem_allChans c)]
  rfl

theorem State.stopAll_head {cs : List ChanId} (g : HeadId) : (s.stopAll cs).head g = s.head g := by
  rw [State.stopAll_frame]
  rfl

theorem State.stopAll_fromHead {cs : List ChanId} : (s.stopAll cs).mail.fromHead = s.mail.fromHead := by
  rw [State.stopAll_frame]

theorem State.disengaged_head (g : HeadId) :
    s.disengaged.head g = if (s.head g).src = .idle then { s.head g with trailing := none } else
      { (s.head g).cleared with src := .idle, shown := none, trailing := none } := by
  rw [State.disengaged, State.idleAll_head_of_mem _ (by decide) (mem_allHeads g), State.stopAll_head]
  rfl

theorem State.disengaged_evt :
    s.disengaged.evt = (allChans.filter (fun c => (s.chan c).busy)).foldl
      (fun e c => e.posted .channelStopped .disengage c.val 0 (BitVec.ofNat 32 (s.chan c).nextRfn) s.ref.count) s.evt := by
  rw [State.disengaged, State.idleAll_evt, (s.goTransparent.stopAll_told (cs := allChans) (by decide) s.chan (fun _ _ => rfl)).1]
  rfl

theorem State.disengaged_notes (c : ChanId) :
    s.disengaged.mail.chanNotes.get c = s.mail.chanNotes.get c ++ (if (s.chan c).busy = true then [.stopped .disengage] else []) := by
  rw [State.disengaged, State.idleAll_notes, (s.goTransparent.stopAll_told (cs := allChans) (by decide) s.chan (fun _ _ => rfl)).2 c]
  simp only [mem_allChans, true_and]
  rfl

theorem State.disengaged_detached (g : HeadId) :
    s.disengaged.mail.fromHead.get g = s.mail.fromHead.get g ++ (if (s.head g).src = .idle then [] else (s.head g).attached.toList) := by
  have hmail : (s.goTransparent.stopAll allChans).mail.fromHead = s.mail.fromHead := s.goTransparent.stopAll_fromHead
  rw [State.disengaged, State.idleAll_detached _ (by decide), State.stopAll_head, hmail]
  have hhead : s.goTransparent.head g = s.head g := rfl
  rw [hhead]
  by_cases hidle : (s.head g).src = .idle <;> simp [hidle, mem_allHeads]

variable {s}

theorem State.disengaged_slot_of_idle {n : Nat} (hn : ∀ c, (s.chan c).busy = true → n ∉ (s.chan c).phaseSlots) :
    s.disengaged.slot n = { s.slot n with pins := (s.disengaged.slot n).pins } ∧
      (s.pinsAgree → (∀ h, (s.head h).src = .idle → (s.head h).shown = none) → (s.disengaged.slot n).pins = 0) := by
  have hstop : (s.goTransparent.stopAll allChans).slot n = s.slot n := by
    rw [State.stopAll_slot _ (by decide)]
    exact if_neg fun ⟨c, _, hb, hmem⟩ => hn c hb hmem
  obtain ⟨hslot, -⟩ := (s.goTransparent.stopAll allChans).idleAll_slot (hs := allHeads) n
  rw [hstop] at hslot
  refine ⟨hslot, fun hpins hshown => ?_⟩
  rw [State.disengaged, State.idleAll_pins _ (by decide) (fun h _ => by rw [State.stopAll_head]; exact hshown h), hstop]
  simp only [State.stopAll_head]
  rw [hpins n]
  exact Nat.sub_self _

theorem State.disengaged_slot_of_phase {n : Nat} {c : ChanId} (hb : (s.chan c).busy = true) (hn : n ∈ (s.chan c).phaseSlots)
    (hrec : (s.slot n).state = .recording) : s.disengaged.slot n = {} := by
  have hstop : (s.goTransparent.stopAll allChans).slot n = {} := by
    rw [State.stopAll_slot _ (by decide), if_pos ⟨c, mem_allChans c, hb, hn⟩]
    exact if_pos (.inl hrec)
  obtain ⟨hslot, hpins⟩ := (s.goTransparent.stopAll allChans).idleAll_slot (hs := allHeads) n
  rw [hstop] at hslot hpins
  have hzero : ((s.goTransparent.stopAll allChans).idleAll allHeads |>.slot n).pins = 0 := Nat.le_zero.1 hpins
  rw [hzero] at hslot
  exact hslot

end

theorem disengage_answered {s : State} {r : CmdArgs} (hs : s.awaits) :
    s.Answered (s.carryOut 0x02 r disengageNow) s.disengaged 0x02 r
      (.done (BitVec.ofNat 32 (allChans.filter (fun c => (s.chan c).busy)).length)) := by
  have hmem : s.disengaged.mem = { s.mem with active := false } := (congrArg State.mem s.disengaged_frame :)
  have hc : s.disengaged.cbsel = s.cbsel := (congrArg State.cbsel s.disengaged_frame :)
  refine State.carryOut_answered hs s.disengaged _ (fun k => ?_) hc (by rw [hmem])
  have hleave : ({ s.mem.leave k with active := false } : MemPath) = s.disengaged.mem.withOwn (s.mem.leave k) := by
    rw [hmem, MemPath.leave_frame]
    rfl
  have htaken : (s.taken k 0x02 r).disengaged = { s.disengaged with proc := (s.taken k 0x02 r).proc,
                                                                    mem := { s.mem.leave k with active := false } } :=
    s.disengaged_beside _ _
  rw [disengageNow_eq, htaken, hleave]
  rfl

/-! ## A key mark between the channels and the heads -/

/-- Turns take a DISENGAGE through its channels. -/
theorem turns_disengageChannels {cs : List ChanId} {n : Nat} {g : Nat → Prog Unit} {s : State} {b : List Agent} (fuel : Nat)
    (hb : ∀ a ∈ b, ∃ c, a = .channel c) :
    ∃ b' n', (∀ a ∈ b', ∃ c, a = .channel c) ∧ (disengageChannels cs n).run s = some (s.stopAll cs, n') ∧
      (List.replicate cs.length (Turn.move .processor)).foldl (takeTurn fuel)
        (s, ((disengageChannels cs n).bind g).thread .processor b) = (s.stopAll cs, (g n').thread .processor b') := by
  induction cs generalizing n s b with
  | nil => exact ⟨b, n, hb, rfl, rfl⟩
  | cons c cs ih =>
    obtain ⟨b', n', hb', hrun, hturns⟩ := ih (n := if (s.chan c).busy then n + 1 else n) (s := s.stopChannel c) (b := [.channel c])
      (fun a ha => ⟨c, List.mem_singleton.1 ha⟩)
    refine ⟨b', n', hb', hrun, ?_⟩
    rw [List.length_cons, List.replicate_succ, List.foldl_cons]
    exact (congrArg (fun x => (List.replicate cs.length (Turn.move .processor)).foldl (takeTurn fuel) x)
      (takeTurn_move_op fuel .processor s b [.channel c] _ _)).trans hturns

/-- Another part of the state, beside a head's part. -/
theorem State.idleAll_postRefused (u : State) (e : EventUnit) (q : Vector (List KeyMark) 2) (hs : List HeadId) :
    ({ u with evt := e, mail := { u.mail with portMarks := q } } : State).idleAll hs =
      { u.idleAll hs with evt := e, mail := { (u.idleAll hs).mail with portMarks := q } } := by
  have h := ({ u with evt := e, mail := { u.mail with portMarks := q } } : State).idleAll_headPart u hs
  have hframe := u.idleAll_frame hs
  generalize u.idleAll hs = w at h hframe ⊢
  rw [hframe]
  exact h

theorem State.endCommand_postRefused (u : State) (e : EventUnit) (q : Vector (List KeyMark) 2) (o : CmdResult) :
    ({ u with evt := e, mail := { u.mail with portMarks := q } } : State).endCommand o =
      { u.endCommand o with evt := e, mail := { (u.endCommand o).mail with portMarks := q } } := by
  unfold State.endCommand
  cases u.proc.current <;> rfl

theorem State.endCommand_evt (u : State) (o : CmdResult) : (u.endCommand o).evt = u.evt := by
  unfold State.endCommand
  cases u.proc.current <;> rfl

theorem State.endCommand_mail (u : State) (o : CmdResult) : (u.endCommand o).mail = u.mail := by
  unfold State.endCommand
  cases u.proc.current <;> rfl

/-- A key mark in TRANSPARENT is refused. -/
theorem panelMark_transparent {u : State} {p : PortId} {x : KeyMark} {rest : List KeyMark} (hact : u.mem.active = false)
    (hp : u.mail.portMarks.get p = x :: rest) (fuel : Nat) :
    takeAlone fuel (.panelMark p) u = some { u with
      evt := u.evt.posted .markRefused .state x.head.val (x.kind.code + 256 * p.val)
        (((u.head x.head).shown.map (fun d => BitVec.ofNat 32 d.rfn)).getD 0) u.ref.count
      mail := { u.mail with portMarks := popAt u.mail.portMarks p } } := by
  show ((panelMarkProg p).run u).map (·.1) = _
  rw [panelMarkProg, Prog.run_op, hp]
  dsimp only
  rw [markAt, hact]
  show some ((u.popMark p).postRefused u p x .state) = _
  unfold State.postRefused
  cases (u.head x.head).shown <;> rfl

theorem exec_disengage (r : CmdArgs) (turns : List Turn) (s : State) : exec (.disengage r turns) s = weave (.command 0x02 r) turns s := rfl

/-- What follows the channels. -/
def idlingHeads (n : Nat) : Prog Unit :=
  ((Prog.each (fun h => [.head h]) (fun h (s : State) => s.idleHead h) allHeads).bind
    (fun _ => .done (.done (BitVec.ofNat 32 n)))).bind (fun o => .act [] (fun t => t.endCommand o))

theorem idlingHeads_run (n : Nat) (s : State) :
    (idlingHeads n).run s = some ((s.idleAll allHeads).endCommand (.done (BitVec.ofNat 32 n)), ()) := by
  rw [idlingHeads, Prog.run_bind, Prog.run_bind, Prog.each_run]
  rfl

theorem answering_disengage : answering disengage = .op [] State.goTransparent (fun _ => (disengageChannels allChans 0).bind idlingHeads) := by
  rw [answering, disengage]
  show Prog.op [] State.goTransparent _ = _
  refine congrArg (Prog.op [] State.goTransparent) (funext fun s => ?_)
  dsimp only
  rw [Prog.bind_assoc]
  rfl

theorem exec_disengage_mark {s : State} {r : CmdArgs} (hs : s.awaits) {p : PortId} {x : KeyMark} {rest : List KeyMark}
    (hp : s.mail.portMarks.get p = x :: rest) :
    ∃ t u, exec (.disengage r []) s = .next u ∧
      exec (.disengage r (List.replicate 9 (.move .processor) ++ [.event (.panelMark p)])) s = .next t ∧
      t = { u with
        evt := u.evt.posted .markRefused .state x.head.val (x.kind.code + 256 * p.val)
          (((s.head x.head).shown.map (fun d => BitVec.ofNat 32 d.rfn)).getD 0) s.ref.count
        mail := { u.mail with portMarks := popAt s.mail.portMarks p } } := by
  obtain ⟨k, -, hrun, hbegin⟩ := begin_command (kind := 0x02) (r := r) (own := disengage) hs
  obtain ⟨fuel, hfuel⟩ : ∃ f, pickFuel (List.replicate 9 (Turn.move .processor) ++ [Turn.event (.panelMark p)]) = f := ⟨_, rfl⟩
  obtain ⟨b, n, hb, hstopped, hturns⟩ := turns_disengageChannels (cs := allChans) (n := 0) (g := idlingHeads)
    (s := (s.taken k 0x02 r).goTransparent) (b := []) fuel (by simp)
  obtain ⟨w, hw⟩ : ∃ w, (s.taken k 0x02 r).goTransparent.stopAll allChans = w := ⟨_, rfl⟩
  have hwframe := (s.taken k 0x02 r).goTransparent.stopAll_frame (cs := allChans)
  rw [hw] at hturns hstopped hwframe
  have hfirst : takeTurn fuel (s.taken k 0x02 r, [{ who := .processor, inAt := [], rest := answering disengage }]) (.move .processor) =
      ((s.taken k 0x02 r).goTransparent, ((disengageChannels allChans 0).bind idlingHeads).thread .processor []) := by
    rw [answering_disengage]
    exact takeTurn_move ..
  have hthread : (idlingHeads n).thread .processor b = [{ who := .processor, inAt := [], rest := idlingHeads n }] := by
    have hin : b.filter (fun a => decide (a ∈ [Agent.head 0])) = [] := by
      refine List.filter_eq_nil_iff.2 fun a ha => ?_
      obtain ⟨c, rfl⟩ := hb a ha
      simp
    show [({ who := .processor, inAt := b.filter (fun a => decide (a ∈ [Agent.head 0])), rest := _ } : Thread)] = _
    rw [hin]
    rfl
  have hmark := panelMark_transparent (u := w) (p := p) (x := x) (rest := rest) (by rw [hwframe]; rfl) (by rw [hwframe]; exact hp) fuel
  have hproc : w.proc.state = .executing := by
    rw [hwframe]
    rfl
  have hturnsAll : (List.replicate 9 (Turn.move .processor) ++ [Turn.event (.panelMark p)]).foldl (takeTurn fuel)
      (s.taken k 0x02 r, [{ who := .processor, inAt := [], rest := answering disengage }]) =
        takeTurn fuel (w, [{ who := .processor, inAt := [], rest := idlingHeads n }]) (.event (.panelMark p)) := by
    have h8 : allChans.length = 8 := rfl
    rw [h8] at hturns
    rw [List.foldl_append, List.replicate_succ, List.foldl_cons (l := List.replicate 8 _), hfirst, hturns, hthread]
    rfl
  have hu : exec (.disengage r []) s = .next ((w.idleAll allHeads).endCommand (.done (BitVec.ofNat 32 n))) := by
    rw [exec_disengage, weave_command_nil (kind := 0x02) (r := r) (fun _ _ => rfl) disengage_run, State.carryOut, hrun]
    have hnow : disengageNow (s.taken k 0x02 r) = (w.idleAll allHeads, .done (BitVec.ofNat 32 n)) := by
      have h := disengage_run (s.taken k 0x02 r)
      rw [disengage, Prog.run_op, Prog.run_bind, hstopped] at h
      rw [← Option.some.inj h]
      rfl
    rw [hnow]
  refine ⟨_, _, hu, ?_, rfl⟩
  rw [exec_disengage]
  refine weave_of_turns ?_
  rw [hfuel]
  show finishAll (List.foldl _ (begin (s, []) (.steps .processor (commandProg 0x02 r disengage))) _) = _
  rw [hbegin, hturnsAll, finishAll_event rfl rfl hproc hmark, finishAll_one (by simp) (idlingHeads_run n _), State.idleAll_postRefused,
    State.endCommand_postRefused, State.endCommand_evt, State.endCommand_mail]
  have hevt : (w.idleAll allHeads).evt = w.evt := w.idleAll_evt allHeads
  have hhead : w.head x.head = s.head x.head := by
    rw [hwframe]
    rfl
  have href : w.ref = s.ref := by
    rw [hwframe]
    rfl
  have hmarks : w.mail.portMarks = s.mail.portMarks := by
    rw [hwframe]
    rfl
  rw [hevt, hhead, href, hmarks]

/-- Settles O48: the channels' parts, then the heads', each read off the fold over them; a tick falls before the first, and a key
mark, refused in TRANSPARENT, beside the heads' parts, which read nothing it changes. -/
theorem disengageStopsChannelsAndIdlesHeads : Obligations.DisengageStopsChannelsAndIdlesHeads := by
  unfold Obligations.DisengageStopsChannelsAndIdlesHeads
  refine ⟨fun s r busy hs hbusy => ?alone, fun s r hs => ⟨fun c w hw => ?tick, fun p x rest hp => exec_disengage_mark hs hp⟩⟩
  case tick =>
    obtain rfl : s.channelTick c = w := Host.Outcome.next.inj hw
    exact weave_command_tick (e := .command 0x02 r) (kind := 0x02) (r := r) (fun _ _ => rfl) disengage_run hs c
  case alone =>
    obtain rfl : busy = fun c => (s.chan c).busy := funext fun c => by
      rw [Bool.eq_iff_iff, hbusy, Channel.busy_iff]
    have ha := disengage_answered (r := r) hs
    refine ⟨_, exec_disengage_nil r s, ha.ended, fun c => ?_, fun h => ?_, fun n hn => ?_, fun n c hb hn hrec => ?_, ?_, fun c => ?_,
      fun h => ?_, ?_⟩
    · rw [ha.chan]
      exact s.disengaged_chan c
    · rw [ha.head]
      exact s.disengaged_head h
    · rw [ha.slot]
      obtain ⟨hslot, hpins⟩ := State.disengaged_slot_of_idle hn
      exact ⟨by rw [hslot], by rw [hslot], by rw [hslot], fun _ => hpins⟩
    · rw [ha.slot]
      exact State.disengaged_slot_of_phase hb hn hrec
    · rw [ha.evt]
      exact s.disengaged_evt
    · rw [ha.mail]
      exact s.disengaged_notes c
    · rw [ha.mail]
      exact s.disengaged_detached h
    · rw [ha.chans, ha.heads, ha.slots, ha.evt, ha.mail]
      refine ha.eq.trans ?_
      have hframe := s.disengaged_frame
      generalize s.disengaged = u at hframe ⊢
      rw [hframe]
      rfl

end Sys2Proof.Machine
end

section
/-! PROOFS. HeadInput.lean: what a sourced head takes from its port at its tick, and the motion before the bounds step (R52, R63 to
R68). -/

namespace Sys2Proof.Machine

/-! ## The port's answer (R63, R135) -/

section
variable {pt : Port} {p : PortId} {i : PanelInput} {T : Int}

theorem Port.atRest_iff : pt.atRest = true ↔ pt.fault = true ∨ pt.outside = false := by
  simp [Port.atRest]

theorem Port.leverTarget_of_gives (h : pt.leverGives T) : T = pt.leverTarget := by
  obtain ⟨hrest, hcurve⟩ := h
  unfold Port.leverTarget
  by_cases hr : pt.atRest = true
  · rw [if_pos hr]
    exact hrest (Port.atRest_iff.1 hr)
  · rw [if_neg hr]
    have hfault : pt.fault = false ∧ pt.outside = true := by
      rw [Port.atRest_iff] at hr
      simpa using hr
    refine hcurve _ (curveAt pt.knots _) _ hfault.1 hfault.2 rfl rfl (fun hm => ?_) fun hm => ?_
    · rw [curveAt, hm, if_pos rfl]
    · rw [curveAt, if_neg (by omega)]

theorem Port.answer_of_gives (h : pt.gives p i) : i = pt.answer p i.steps := by
  obtain ⟨port, steps, atRest, target, slew, unit⟩ := i
  obtain ⟨hport, hslew, hunit, hrest, hlever⟩ := h
  have hatRest : atRest = pt.atRest := Bool.eq_iff_iff.2 (hrest.trans Port.atRest_iff.symm)
  obtain rfl : port = p.val := hport
  obtain rfl : slew = pt.panelSlew := hslew
  obtain rfl : unit = pt.outputUnit := hunit
  obtain rfl : target = pt.leverTarget := Port.leverTarget_of_gives hlever
  rw [Port.answer, hatRest]

end

/-! ## What the head reads (R54, R61, R63) -/

section
variable {s t : State} {h : HeadId} {i : PanelInput}

theorem findPort_eq_some {f : PortId → Bool} {p : PortId} (hp : f p = true) (hq : ∀ q, q ≠ p → f q = false) :
    allPorts.find? f = some p := by
  have hcases : p = 0 ∨ p = 1 := (by decide : ∀ q : PortId, q = 0 ∨ q = 1) p
  obtain rfl | rfl := hcases
  · simp [allPorts, hp]
  · simp [allPorts, hp, hq 0 (by decide)]

theorem findPort_eq_none {f : PortId → Bool} (hq : ∀ q, f q = false) : allPorts.find? f = none := by
  simp [hq]

/-- Two port answers that a head takes alike: the same, or both without steps at a COMMAND-owned head. -/
def Head.takesAlike (h : Head) (i j : PanelInput) : Prop := i = j ∨ h.owner = .command ∧ i.steps = 0 ∧ j.steps = 0

theorem State.panelInput_of_gives (hi : s.portGives h i) : (s.head h).takesAlike (s.panelInput h) i := by
  unfold State.portGives at hi
  obtain ⟨p, hbound, hothers, hgives, hsteps⟩ | ⟨hunbound, hsteps, hlost⟩ := hi
  · have hport : s.boundPort h = some p := findPort_eq_some (by simpa using hbound) (fun q hq => by simpa using hothers q hq)
    have hanswer := Port.answer_of_gives hgives
    rw [hsteps] at hanswer
    left
    rw [State.panelInput, hport, hanswer]
  · have hport : s.boundPort h = none := findPort_eq_none fun q => by simpa using hunbound q
    rw [State.panelInput, hport]
    obtain hcmd | ⟨p, hnote, hothers, hgives⟩ := hlost
    · refine Or.inr ⟨hcmd, ?_, hsteps⟩
      cases s.leavingPort h <;> rfl
    · have hleaving : s.leavingPort h = some p :=
        findPort_eq_some (by simpa using hnote) (fun q hq => by simpa using hothers q hq)
      have hanswer := Port.answer_of_gives hgives
      rw [hsteps] at hanswer
      left
      rw [hleaving, hanswer]

theorem State.clearJog_stepsTaken (hi : s.portGives h i) (ht : t.ports = (s.clearJog h).ports) : s.stepsTaken t h := by
  intro p
  have hport : t.port p = (s.clearJog h).port p := by rw [State.port, State.port, ht]
  rw [hport, State.clearJog_port]
  obtain ⟨q, hbound, hothers, -, -⟩ | ⟨hunbound, -, -⟩ := hi
  · refine if_congr ⟨And.left, fun hp => ⟨hp, ?_⟩⟩ rfl rfl
    have hpq : p = q := by
      by_contra hne
      exact hothers p hne hp
    by_cases h0 : p = 0
    · exact Or.inl h0
    · exact Or.inr (hothers 0 (by rw [← hpq]; exact Ne.symm h0))
  · rw [if_neg (hunbound p), if_neg (fun hp => hunbound p hp.1)]

end

/-! ## Owner, T, R and the candidate (R52, R64 to R68) -/

section
variable {h : Head} {i j : PanelInput} {phases : Nat} {owner : Owner} {T R cand : Int}

theorem Head.jogTakeover_iff : h.jogTakeover i = true ↔ h.takesOver i := by
  simp [Head.jogTakeover, Head.takesOver, and_assoc]

theorem Head.jogTakeover_alike (hij : h.takesAlike i j) : h.jogTakeover i = h.jogTakeover j := by
  obtain rfl | ⟨-, hi, hj⟩ := hij
  · rfl
  · simp [Head.jogTakeover, hi, hj]

theorem Head.move_alike (hij : h.takesAlike i j) : h.move i phases = h.move j phases := by
  have hjog := Head.jogTakeover_alike hij
  obtain rfl | ⟨howner, hi, hj⟩ := hij
  · rfl
  · have hno : h.jogTakeover j = false := by simp [Head.jogTakeover, hj]
    unfold Head.move
    cases h.goto <;> simp [hjog, hno, howner]

theorem Head.owner_of_afterInput (ha : h.afterInput i phases owner T R cand) :
    (if h.jogTakeover i = true then Owner.panel else h.owner) = owner := by
  obtain ⟨howner, -, -⟩ := ha
  rw [← Head.jogTakeover_iff] at howner
  cases owner with
  | panel =>
    split_ifs with hjog
    · rfl
    · exact (howner.1 rfl).resolve_right hjog
  | command =>
    have hno : ¬(h.owner = .panel ∨ h.jogTakeover i = true) := fun hp => by cases howner.2 hp
    rw [if_neg fun hj => hno (Or.inr hj)]
    cases howner' : h.owner with
    | command => rfl
    | panel => exact absurd (Or.inl howner') hno

theorem slewToward_eq {target rate : Int} {slew : Nat} (hnear : (target - rate).natAbs ≤ slew → R = target)
    (hfar : slew < (target - rate).natAbs → R = if rate < target then rate + slew else rate - slew) :
    slewToward target rate slew = R := by
  unfold slewToward
  by_cases hle : (target - rate).natAbs ≤ slew
  · rw [if_pos hle, hnear hle]
  · rw [if_neg hle, hfar (by omega)]

/-- What the motion before the bounds step comes to (R52, R64 to R68). -/
structure Moved.Comes (m : Moved) (owner : Owner) (T R cand : Int) (jumps : Prop) : Prop where
  owner : m.owner = owner
  target : m.target = T
  rate : m.rate = R
  cand : m.cand = cand
  tickRate : m.tickRate = R
  jumps : m.origin = .goto ↔ jumps

/-- T toward which a head moves under an owner (R64). -/
def Head.targetAt (h : Head) (i : PanelInput) : Owner → Int
  | .panel => i.target
  | .command => h.target

/-- The slew a head moves with under an owner (R67). -/
def Head.slewAt (h : Head) (i : PanelInput) : Owner → Nat
  | .panel => i.slew
  | .command => h.slew

theorem Head.move_goto {g : Nat} (hg : h.goto = some g) (howner : (if h.jogTakeover i = true then Owner.panel else h.owner) = owner) :
    h.move i phases = { owner, target := 0, rate := 0, cand := (g * 256 : Nat), origin := .goto, tickRate := 0 } := by
  rw [Head.move, howner, hg]

theorem Head.move_jog (hg : h.goto = none) (howner : (if h.jogTakeover i = true then Owner.panel else h.owner) = owner)
    (hjog : owner = .panel ∧ i.atRest = true ∧ h.rate = 0 ∧ i.steps ≠ 0) :
    h.move i phases =
      { owner, target := h.targetAt i owner, rate := 0,
        cand := ((h.pos / 256 : Nat) + i.steps * (if i.outputUnit = true then (phases : Int) else 1)) * 256,
        origin := .jog, tickRate := 0 } := by
  rw [Head.move, howner, hg]
  exact if_pos hjog

theorem Head.move_advance (hg : h.goto = none) (howner : (if h.jogTakeover i = true then Owner.panel else h.owner) = owner)
    (hjog : ¬(owner = .panel ∧ i.atRest = true ∧ h.rate = 0 ∧ i.steps ≠ 0)) :
    h.move i phases =
      { owner, target := h.targetAt i owner, rate := slewToward (h.targetAt i owner) h.rate (h.slewAt i owner),
        cand := (h.pos : Int) + slewToward (h.targetAt i owner) h.rate (h.slewAt i owner) * phases, origin := .advance,
        tickRate := slewToward (h.targetAt i owner) h.rate (h.slewAt i owner) } := by
  rw [Head.move, howner, hg]
  exact if_neg hjog

theorem Head.move_comes (ha : h.afterInput i phases owner T R cand) : (h.move i phases).Comes owner T R cand (h.goto ≠ none) := by
  have howner := Head.owner_of_afterInput ha
  obtain ⟨-, hjump, hgo⟩ := ha
  cases hgoto : h.goto with
  | some g =>
    obtain ⟨rfl, rfl, rfl⟩ := hjump g hgoto
    rw [Head.move_goto hgoto howner]
    exact ⟨rfl, rfl, rfl, by push_cast; rfl, rfl, by simp⟩
  | none =>
    obtain ⟨hcommand, hpanel, hjog, hadvance⟩ := hgo hgoto
    have htarget : h.targetAt i owner = T := by
      cases owner with
      | panel => exact (hpanel rfl).symm
      | command => exact (hcommand rfl).symm
    by_cases hcond : owner = .panel ∧ i.atRest = true ∧ h.rate = 0 ∧ i.steps ≠ 0
    · obtain ⟨hR, hcand⟩ := hjog hcond
      rw [Head.move_jog hgoto howner hcond]
      exact ⟨rfl, htarget, hR.symm, hcand.symm, hR.symm, by simp⟩
    · obtain ⟨hcand, hslew⟩ := hadvance hcond
      obtain ⟨hnear, hfar⟩ := hslew (h.slewAt i owner) (fun hc => by subst hc; rfl) (fun hp => by subst hp; rfl)
      rw [Head.move_advance hgoto howner hcond, htarget, slewToward_eq hnear hfar]
      exact ⟨rfl, rfl, rfl, hcand.symm, rfl, by simp⟩

end

/-! ## The first operation of a sourced head's tick (R52, R54) -/

/-- The state once head `h` has taken its oldest tick, its steps, and its jog takeover with event unit `e`. -/
def State.tickBegun (s : State) (h : HeadId) (e : EventUnit) : State :=
  { s with ports := (s.clearJog h).ports, evt := e, mail := { s.mail with headTicks := popAt s.mail.headTicks h } }

section
variable {s : State} {h : HeadId} {n : Word} {rest : List Word} {i : PanelInput} {e : EventUnit}

theorem State.clearJog_setMail (s : State) (h : HeadId) (m : Mail) :
    (s.setMail m).clearJog h = { s with ports := (s.clearJog h).ports, mail := m } := by
  have hbound : (s.setMail m).boundPort h = s.boundPort h := rfl
  unfold State.clearJog
  rw [hbound]
  cases s.boundPort h <;> rfl

theorem State.tickInput_eq (s : State) (h : HeadId) (n : Word) : s.tickInput h n =
    if (s.head h).jogTakeover (s.panelInput h) = true then
      (s.clearJog h).raiseAt .panelTakeover .jog h.val (s.panelInput h).port 0 n
    else s.clearJog h := rfl

theorem State.beginTick_eq (hmail : s.mail.headTicks.get h = n :: rest) (hsrc : (s.head h).src ≠ .idle) (hi : s.portGives h i)
    (he : s.afterTakeover h i n e) : s.beginTick h = s.tickBegun h e := by
  have hbegin : s.beginTick h = (s.setMail { s.mail with headTicks := popAt s.mail.headTicks h }).tickInput h n := by
    unfold State.beginTick
    rw [hmail]
    cases hcase : (s.head h).src with
    | idle => exact absurd hcase hsrc
    | live c => rfl
    | clip k => rfl
  have halike := State.panelInput_of_gives hi
  have hread : (s.setMail { s.mail with headTicks := popAt s.mail.headTicks h }).panelInput h = s.panelInput h := by
    unfold State.panelInput
    rfl
  obtain ⟨hover, hstay⟩ := he
  have hhead : (s.setMail { s.mail with headTicks := popAt s.mail.headTicks h }).head h = s.head h := rfl
  rw [hbegin, State.tickInput_eq, hread, hhead, State.clearJog_setMail, Head.jogTakeover_alike halike, State.tickBegun]
  by_cases hjog : (s.head h).jogTakeover i = true
  · have htakes := Head.jogTakeover_iff.1 hjog
    have hsame : s.panelInput h = i := halike.resolve_right fun hc => htakes.2.1 hc.2.2
    rw [if_pos hjog, hsame, hover htakes]
    rfl
  · rw [if_neg hjog, hstay fun ht => hjog (Head.jogTakeover_iff.2 ht)]

end

end Sys2Proof.Machine
end

section
/-! PROOFS. HeadPick.lean: the pick of a sourced head and the end of its tick (R54 to R56, R79, R81). -/

namespace Sys2Proof.Machine

/-! ## The lookup beside an unpin (R13, R15, R16) -/

section
variable (s : State) (o : Option Nat)

theorem State.unpinIf_holds (n r : Nat) : (s.unpinIf o).holds n r = s.holds n r := by
  rw [State.holds, State.holds, State.unpinIf_slot]
  split_ifs <;> rfl

theorem State.unpinIf_locateShown (src : Src) (es : List Extent) (d : Nat) :
    (s.unpinIf o).locateShown src es d = s.locateShown src es d := by
  have hchan (c : ChanId) : (s.unpinIf o).chan c = s.chan c := (congrArg (fun x : State => x.chan c) (s.unpinIf_frame o) :)
  have hentry (n : Nat) : (s.unpinIf o).entry n = s.entry n := (congrArg (fun x : State => x.entry n) (s.unpinIf_frame o) :)
  have hclip (k : Nat) : (s.unpinIf o).clip k = s.clip k := (congrArg (fun x : State => x.clip k) (s.unpinIf_frame o) :)
  cases src with
  | idle => rfl
  | live c => simp only [State.locateShown, State.indexLookup, hchan, hentry, State.unpinIf_holds]
  | clip k => simp only [State.locateShown, State.positionLookup, hchan, hclip, State.unpinIf_holds]

theorem State.unpinIf_chanOf (src : Src) : (s.unpinIf o).chanOf src = s.chanOf src :=
  (congrArg (fun x : State => x.chanOf src) (s.unpinIf_frame o) :)

theorem State.unpinIf_refit (before : Head) (m : Moved) (f : Fit) : (s.unpinIf o).refit before m f = s.refit before m f :=
  (congrArg (fun x : State => x.refit before m f) (s.unpinIf_frame o) :)

end

/-- A lookup by the extents answers the slot they give, where it holds the frame (R16, R56). -/
theorem State.locateShown_clip {s : State} {k d p : Nat} {es : List Extent} {c : ChanId} (hc : (s.clip k).chan = c)
    (hon : (s.chan c).state ≠ .off) (hp : positionOf es (s.chan c).len d = some p)
    (hheld : (s.slot ((s.chan c).firstSlot + p)).state = .held) (hrfn : (s.slot ((s.chan c).firstSlot + p)).rfn = d) :
    s.locateShown (.clip k) es d = some ((s.chan c).firstSlot + p) := by
  have hmod : p % (s.chan c).len = p := by
    unfold positionOf at hp
    obtain ⟨e, -, rfl⟩ := Option.map_eq_some_iff.1 hp
    exact Nat.mod_mod _ _
  subst hc
  simp [State.locateShown, hp, State.positionLookup, hon, hmod, State.holds, hheld, hrfn]

/-- A lookup by the extents finds nothing where no slot they give holds the frame (R16, R56). -/
theorem State.locateShown_clip_none {s : State} {k d : Nat} {es : List Extent} {c : ChanId} (hc : (s.clip k).chan = c)
    (hgone : ∀ p, positionOf es (s.chan c).len d = some p →
      (s.slot ((s.chan c).firstSlot + p)).state ≠ .held ∨ (s.slot ((s.chan c).firstSlot + p)).rfn ≠ d) :
    s.locateShown (.clip k) es d = none := by
  subst hc
  rw [State.locateShown]
  cases hp : positionOf es (s.chan (s.clip k).chan).len d with
  | none => rfl
  | some p =>
    have hmod : p % (s.chan (s.clip k).chan).len = p := by
      unfold positionOf at hp
      obtain ⟨e, -, rfl⟩ := Option.map_eq_some_iff.1 hp
      exact Nat.mod_mod _ _
    have hno : s.holds ((s.chan (s.clip k).chan).firstSlot + p) d = false := by
      obtain h | h := hgone p hp <;> simp [State.holds, h]
    simp [State.positionLookup, hmod, hno]

/-! ## The pin (R12, R54) -/

section
variable {s : State} {h : HeadId} {before : Head} {m : Moved} {fuel d n : Nat} {sight : Sight} {f : Fit} {o : Option Nat}

/-- Once the trailing pin is gone, a slot that holds the frame and can be pinned is pinned. -/
theorem State.pin_after_unpin (hheld : (s.slot n).state = .held) (hrfn : (s.slot n).rfn = d) (hpin : s.pinnableAfter o n) :
    ∃ u, (s.unpinIf o).pin n d = (u, .done none) ∧ s.pinMoved u o n ∧ u = { s with slots := u.slots } := by
  obtain ⟨htrailing, hother⟩ := hpin
  have hslot := s.unpinIf_slot o n
  have hstate : ((s.unpinIf o).slot n).state = .held ∧ ((s.unpinIf o).slot n).rfn = d := by
    rw [hslot]
    split_ifs <;> exact ⟨hheld, hrfn⟩
  have hpins : ((s.unpinIf o).slot n).pins < Config.maxPins := by
    rw [hslot]
    split_ifs with hn
    · have h8 := htrailing hn
      simp only [Slot.unpinned, Config.maxPins]
      omega
    · exact hother hn
  refine ⟨(s.unpinIf o).setSlot n { (s.unpinIf o).slot n with pins := ((s.unpinIf o).slot n).pins + 1 }, ?_, fun j => ?_, ?_⟩
  · rw [State.pin, if_neg (by simp [hstate]), if_neg (Nat.not_le.2 hpins)]
  · rw [State.setSlot_slot]
    by_cases hj : j = n
    · subst hj
      rw [if_pos rfl, if_pos rfl, hslot]
      by_cases ho : o = some j
      · simp only [if_pos ho, Slot.unpinned]
      · simp only [if_neg ho, Nat.sub_zero]
    · rw [if_neg hj, if_neg hj, State.unpinIf_slot]
      by_cases ho : o = some j
      · simp only [if_pos ho, Slot.unpinned, Nat.add_zero]
      · simp only [if_neg ho, Nat.sub_zero, Nat.add_zero]
  · rw [State.unpinIf_frame]
    rfl

/-- The pick latches the frame that its lookup finds and that can be pinned. -/
theorem pickFrame_after_unpin (hd : f.frame = some d) (hl : s.locateShown before.src sight.extents d = some n)
    (hheld : (s.slot n).state = .held) (hrfn : (s.slot n).rfn = d) (hpin : s.pinnableAfter o n) :
    ∃ u, (pickFrame h before m (fuel + 1) sight f).run (s.unpinIf o) =
        some (u, f, some { src := before.src, chan := s.chanOf before.src, rfn := d, slot := n }) ∧
      s.pinMoved u o n ∧ u = { s with slots := u.slots } := by
  obtain ⟨u, hu, hmoved, hframe⟩ := State.pin_after_unpin hheld hrfn hpin
  refine ⟨u, ?_, hmoved, hframe⟩
  rw [pickFrame_latched hd (by rw [State.unpinIf_locateShown]; exact hl) hu, State.unpinIf_chanOf]

/-- A pick whose frame has gone goes on with the bounds read again. -/
theorem pickFrame_gone (hd : f.frame = some d) (hl : s.locateShown before.src sight.extents d = none) :
    (pickFrame h before m (fuel + 1) sight f).run (s.unpinIf o) =
      (pickFrame h before m fuel (s.refit before m f).1 (s.refit before m f).2).run (s.unpinIf o) := by
  rw [pickFrame_again hd (by rw [State.unpinIf_locateShown]; exact hl), State.unpinIf_refit]

end

/-! ## The end of the tick (R54 step 5, R79) -/

section
variable (s : State) (h : HeadId) (m : Moved) (f : Fit) (x : Option Shown) (t : Word)

theorem State.postFit_eq :
    s.postFit h f t = { s with evt := s.evt.postedIf f.event h.val (headFlags f.atLive f.atTail f.atEnd) t } := by
  unfold State.postFit EventUnit.postedIf
  cases f.event <;> rfl

theorem State.endTick_eq : s.endTick h m f x t =
    { s.setHead h ((s.head h).ticked m f x) with
      evt := s.evt.postedIf f.event h.val (headFlags f.atLive f.atTail f.atEnd) t } := by
  rw [State.endTick, State.postFit_eq]
  rfl

theorem State.endTick_head (g : HeadId) :
    (s.endTick h m f x t).head g = if g = h then (s.head h).ticked m f x else s.head g := by
  rw [State.endTick_eq, ← State.setHead_head]
  rfl

end

/-! ## The whole tick, with nothing between its operations or with other turns -/

section
variable {s : State} {h : HeadId} {n : Word} {rest : List Word} {i : PanelInput} {e : EventUnit}

/-- What is left of a sourced head's tick once its source is read, in state `s` with port answer `i`. -/
def tickRest (h : HeadId) (fuel : Nat) (t : Word) (i : PanelInput) (s : State) : Prog Unit :=
  .op [.head h] (fun u => u.unpinIf (u.head h).trailing) (fun _ =>
    (pickFrame h (s.head h) (s.firstMove h i).1 fuel (s.firstMove h i).2.1 (s.firstMove h i).2.2).bind (fun x =>
      .act [.head h] (fun u => u.endTick h (s.firstMove h i).1 x.1 x.2 t)))

theorem tickSourced_eq (h : HeadId) (fuel : Nat) (t : Word) (i : PanelInput) :
    tickSourced h fuel t i = .op [.head h] id (tickRest h fuel t i) := rfl

theorem tickRest_run {fuel : Nat} {t : Word} {u v : State} {f : Fit} {x : Option Shown}
    (hr : (pickFrame h (s.head h) (s.firstMove h i).1 fuel (s.firstMove h i).2.1 (s.firstMove h i).2.2).run
      (u.unpinIf (u.head h).trailing) = some (v, f, x)) :
    (tickRest h fuel t i s).run u = some (v.endTick h (s.firstMove h i).1 f x t, ()) := by
  rw [tickRest, Prog.run_op, Prog.run_bind, hr]
  rfl

/-- The first turn of a sourced head: it has taken its tick, and its source is still to be read. -/
theorem begin_headTick (hmail : s.mail.headTicks.get h = n :: rest) (hsrc : (s.head h).src ≠ .idle) (fuel : Nat) :
    begin (s, []) (courseOf fuel s (.headTick h)) =
      (s.beginTick h, (tickSourced h fuel n (s.panelInput h)).thread (.head h) [.head h]) := by
  show begin (s, []) (.steps (.head h) (headTickProg h fuel)) = _
  rw [headTickProg, begin_steps_nil, hmail]
  dsimp only
  cases hcase : (s.head h).src with
  | idle => exact absurd hcase hsrc
  | live c => rfl
  | clip k => rfl

theorem exec_headTick (h : HeadId) (turns : List Turn) (s : State) : exec (.headTick h turns) s = weave (.headTick h) turns s := rfl

theorem exec_headTick_nil {u v : State} {f : Fit} {x : Option Shown} (hmail : s.mail.headTicks.get h = n :: rest)
    (hsrc : (s.head h).src ≠ .idle) (hu : s.beginTick h = u)
    (hr : (pickFrame h (u.head h) (u.firstMove h (s.panelInput h)).1 2 (u.firstMove h (s.panelInput h)).2.1
      (u.firstMove h (s.panelInput h)).2.2).run (u.unpinIf (u.head h).trailing) = some (v, f, x)) :
    exec (.headTick h []) s = .next (v.endTick h (u.firstMove h (s.panelInput h)).1 f x n) := by
  rw [exec_headTick]
  refine weave_of_turns ?_
  rw [begin_headTick hmail hsrc, hu, List.foldl_nil]
  refine finishAll_thread (by simp) ?_
  exact tickRest_run hr

/-- A tick of a channel once the head has read its source. -/
theorem exec_headTick_channelTick {c : ChanId} {u w v : State} {f : Fit} {x : Option Shown}
    (hmail : s.mail.headTicks.get h = n :: rest) (hsrc : (s.head h).src ≠ .idle) (hu : s.beginTick h = u)
    (hw : u.channelTick c = w)
    (hr : (pickFrame h (u.head h) (u.firstMove h (s.panelInput h)).1 4 (u.firstMove h (s.panelInput h)).2.1
      (u.firstMove h (s.panelInput h)).2.2).run (w.unpinIf (w.head h).trailing) = some (v, f, x)) :
    exec (.headTick h [.move (.head h), .event (.channelTick c)]) s =
      .next (v.endTick h (u.firstMove h (s.panelInput h)).1 f x n) := by
  rw [exec_headTick]
  refine weave_of_turns ?_
  rw [begin_headTick hmail hsrc, hu, tickSourced_eq, List.foldl_cons, takeTurn_move_op, List.foldl_cons, List.foldl_nil,
    takeTurn_channelTick _ _ (busyAt_thread (by simp))]
  change finishAll (u.channelTick c, _) = _
  rw [hw]
  exact finishAll_thread (by simp) (tickRest_run hr)

end

/-! ## The state a head's tick goes on from -/

section
variable {s : State} {h : HeadId} {e : EventUnit} {i : PanelInput}

theorem State.tickBegun_firstMove (s : State) (h : HeadId) (e : EventUnit) (i : PanelInput) :
    (s.tickBegun h e).firstMove h i = s.firstMove h i := by
  unfold State.firstMove
  rfl

/-- A channel's tick beside a head's tick does what it does alone on the event unit of that moment. -/
theorem State.tickBegun_channelTick {w : State} {c : ChanId} (hw : exec (.channelTick c) { s with evt := e } = .next w) :
    (s.tickBegun h e).channelTick c =
      { w with ports := (s.clearJog h).ports, mail := { w.mail with headTicks := popAt s.mail.headTicks h } } := by
  have hw : State.channelTick { s with evt := e } c = w := Host.Outcome.next.inj hw
  have htick := State.channelTick_channelPart (s.tickBegun h e) { s with evt := e } c
  have hframe := State.channelTick_frame { s with evt := e } c
  rw [hw] at htick hframe
  refine htick.trans ?_
  rw [hframe]
  rfl

end

end Sys2Proof.Machine
end

section
/-! PROOFS. LiveTick.lean: the tick of a LIVE head (R55, R69 to R73, R77 to R81). -/

namespace Sys2Proof.Machine

/-! ## What a tick leaves (R54, R81) -/

theorem exists_next {o : Host.Outcome State Fault Refusal} {t : State} (h : o = .next t) : ∃ t, o = .next t := ⟨t, h⟩

section
variable {s v u t : State} {h : HeadId} {m : Moved} {f : Fit} {x : Option Shown} {n : Word}

theorem State.endTick_leaves (ht : u.endTick h m f x n = t) (hframe : u = { v with slots := u.slots }) :
    t.head h = (v.head h).ticked m f x ∧ (∀ g, g ≠ h → t.head g = v.head g) ∧ (∀ j, t.slot j = u.slot j) ∧ t.ports = v.ports ∧
      t.evt = v.evt.postedIf f.event h.val (headFlags f.atLive f.atTail f.atEnd) n ∧
      t = { v with heads := t.heads, slots := t.slots, ports := t.ports, evt := t.evt } := by
  have hhead (g : HeadId) : u.head g = v.head g := (congrArg (fun x : State => x.head g) hframe :)
  have hports : u.ports = v.ports := (congrArg (fun x : State => x.ports) hframe :)
  have hevt : u.evt = v.evt := (congrArg (fun x : State => x.evt) hframe :)
  have hends := u.endTick_eq h m f x n
  rw [ht] at hends
  refine ⟨?_, fun g hg => ?_, fun j => ?_, ?_, ?_, ?_⟩
  · rw [← ht, State.endTick_head, if_pos rfl, hhead]
  · rw [← ht, State.endTick_head, if_neg hg, hhead]
  · exact (congrArg (fun x : State => x.slot j) hends :)
  · exact (congrArg (fun x : State => x.ports) hends :).trans hports
  · rw [← hevt]
    exact (congrArg (fun x : State => x.evt) hends :)
  · rw [hends, hframe]
    rfl

end

/-! ## The fit into tail..newest (R70, R71, R78, R79) -/

theorem stoppedTarget_eq (owner : Owner) (T : Int) : stoppedTarget owner T = if owner = .command then 0 else T := by
  cases owner <;> rfl

section
variable {hd : Head} {m : Moved} {owner : Owner} {T₀ R cand : Int} {jumps : Prop} {tail newest phases : Nat}

theorem boundsStep_live_above (h : (newest * 256 : Nat) < cand) : boundsStep (.live tail newest) phases hd m cand R T₀ =
    { pos := newest * 256, rate := R, target := T₀, atLive := true, atTail := staysTail hd (newest * 256) tail phases,
      atEnd := false, frame := some newest, event := if hd.atLive then none else some (.headAtLive, .none, newest) } := if_pos h

theorem boundsStep_live_below (hle : tail ≤ newest) (h : cand < (tail * 256 : Nat)) :
    boundsStep (.live tail newest) phases hd m cand R T₀ = fitLow hd m R T₀ tail true newest phases :=
  (if_neg (by omega)).trans (if_pos h)

theorem boundsStep_live_within (hlo : (tail * 256 : Nat) ≤ cand) (hhi : cand ≤ (newest * 256 : Nat)) :
    boundsStep (.live tail newest) phases hd m cand R T₀ =
      { pos := cand.toNat, rate := R, target := T₀, atLive := staysLive hd cand.toNat newest phases,
        atTail := staysTail hd cand.toNat tail phases, atEnd := false, frame := some (cand.toNat / 256), event := none } :=
  (if_neg (by omega)).trans (if_neg (by omega))

/-- The clamp at the lower bound, with R and T as the tick's motion gave them or as a clamp left them (R71). -/
theorem fitLow_eq (hm : m.Comes owner T₀ R cand jumps) {rate target R' T : Int} {lo : Nat} {live : Bool}
    (hneg : R < 0 → R' = 0 ∧ T = if owner = .command then 0 else T₀) (hpos : 0 ≤ R → R' = R ∧ T = T₀)
    (htarget : R < 0 → stoppedTarget owner target = stoppedTarget owner T₀) (hkeep : 0 ≤ R → rate = R ∧ target = T₀) :
    fitLow hd m rate target lo live newest phases =
      { pos := lo * 256, rate := R', target := T, atLive := live && staysLive hd (lo * 256) newest phases, atTail := true,
        atEnd := false, frame := some lo
        event := if hd.atTail then none else some (.headAtTail, if R < 0 then .reverse else .swept, lo) } := by
  rw [fitLow, hm.tickRate, hm.owner]
  by_cases hR : R < 0
  · obtain ⟨rfl, rfl⟩ := hneg hR
    rw [if_pos hR, if_pos hR, if_pos hR, htarget hR, stoppedTarget_eq]
  · obtain ⟨rfl, rfl⟩ := hpos (by omega)
    obtain ⟨rfl, rfl⟩ := hkeep (by omega)
    rw [if_neg hR, if_neg hR, if_neg hR]

/-- A bounds step that leaves the tick rate's R and T, or clamps them. -/
structure Fit.Leaves (f : Fit) (owner : Owner) (T₀ R : Int) (d : Nat) : Prop where
  frame : f.frame = some d
  pos : f.pos / 256 = d
  rate : 0 ≤ R → f.rate = R ∧ f.target = T₀
  stopped : stoppedTarget owner f.target = stoppedTarget owner T₀

theorem boundsStep_live_leaves (hm : m.Comes owner T₀ R cand jumps) (hle : tail ≤ newest) {d : Nat}
    (habove : (newest : Int) * 256 < cand → d = newest) (hbelow : cand < (tail : Int) * 256 → d = tail)
    (hwithin : (tail : Int) * 256 ≤ cand → cand ≤ (newest : Int) * 256 → (d : Int) = cand / 256) :
    (boundsStep (.live tail newest) phases hd m m.cand m.rate m.target).Leaves owner T₀ R d := by
  rw [hm.cand, hm.rate, hm.target]
  by_cases hhi : (newest * 256 : Nat) < cand
  · rw [boundsStep_live_above hhi, habove (by omega)]
    exact ⟨rfl, by simp, fun _ => ⟨rfl, rfl⟩, rfl⟩
  by_cases hlo : cand < (tail * 256 : Nat)
  · rw [boundsStep_live_below hle hlo, hbelow (by omega),
      fitLow_eq (R' := if R < 0 then 0 else R) (T := if R < 0 then (if owner = .command then 0 else T₀) else T₀) hm
        (fun h => by simp [h]) (fun h => by simp [Int.not_lt.2 h]) (fun _ => rfl) (fun _ => ⟨rfl, rfl⟩)]
    refine ⟨rfl, by simp, fun h => by simp [Int.not_lt.2 h], ?_⟩
    dsimp only
    split_ifs <;> simp_all [stoppedTarget_eq]
  · rw [boundsStep_live_within (by omega) (by omega)]
    have hd' := hwithin (by omega) (by omega)
    exact ⟨congrArg some (by omega), by dsimp only; omega, fun _ => ⟨rfl, rfl⟩, rfl⟩

/-- The bounds step of a repeat whose tail has passed the position. -/
theorem boundsStep_live_repeat (hm : m.Comes owner T₀ R cand jumps) {f : Fit} {d : Nat} (hf : f.Leaves owner T₀ R d) {R' T : Int}
    (hd' : d < tail) (hle : tail ≤ newest) (hneg : R < 0 → R' = 0 ∧ T = if owner = .command then 0 else T₀)
    (hpos : 0 ≤ R → R' = R ∧ T = T₀) :
    boundsStep (.live tail newest) phases hd m f.pos f.rate f.target =
      { pos := tail * 256, rate := R', target := T, atLive := hd.atLive && decide (newest ≤ tail + phases), atTail := true,
        atEnd := false, frame := some tail
        event := if hd.atTail then none else some (.headAtTail, if R < 0 then .reverse else .swept, tail) } := by
  have hbelow : (f.pos : Int) < (tail * 256 : Nat) := by
    have := hf.pos
    omega
  rw [boundsStep_live_below hle hbelow, fitLow_eq hm hneg hpos (fun _ => hf.stopped) hf.rate, Bool.true_and, staysLive]
  have hiff : newest * 256 ≤ tail * 256 + phases * 256 ↔ newest ≤ tail + phases := by omega
  rw [decide_eq_decide.2 hiff]

/-- The fit of a tick into tail..newest. -/
theorem boundsStep_live_fits (hm : m.Comes owner T₀ R cand jumps) (hle : tail ≤ newest) {pos T R' : Int} {live low : Bool}
    {ev : Option (EventKind × Reason × Nat)}
    (habove : (newest : Int) * 256 < cand → pos = (newest : Int) * 256 ∧ R' = R ∧ T = T₀ ∧ live = true ∧
      low = (hd.atTail && decide (pos ≤ (tail + phases : Nat) * 256)) ∧
      ev = if hd.atLive then none else some (.headAtLive, .none, newest))
    (hbelow : cand < (tail : Int) * 256 → pos = (tail : Int) * 256 ∧ (R < 0 → R' = 0 ∧ T = if owner = .command then 0 else T₀) ∧
      (0 ≤ R → R' = R ∧ T = T₀) ∧ live = (hd.atLive && decide ((newest : Int) * 256 ≤ pos + phases * 256)) ∧ low = true ∧
      ev = if hd.atTail then none else some (.headAtTail, if R < 0 then .reverse else .swept, tail))
    (hwithin : (tail : Int) * 256 ≤ cand → cand ≤ (newest : Int) * 256 → pos = cand ∧ R' = R ∧ T = T₀ ∧ ev = none ∧
      live = (hd.atLive && decide ((newest : Int) * 256 ≤ pos + phases * 256)) ∧
      low = (hd.atTail && decide (pos ≤ (tail + phases : Nat) * 256))) :
    boundsStep (.live tail newest) phases hd m m.cand m.rate m.target =
      { pos := pos.toNat, rate := R', target := T, atLive := live, atTail := low, atEnd := false,
        frame := some (pos / 256).toNat, event := ev } := by
  have hstays (q : Nat) (hq : pos = q) : staysTail hd q tail phases = (hd.atTail && decide (pos ≤ (tail + phases : Nat) * 256)) := by
    rw [staysTail, decide_eq_decide.2 (show q ≤ tail * 256 + phases * 256 ↔ pos ≤ (tail + phases : Nat) * 256 by omega)]
  have hlives (q : Nat) (hq : pos = q) : staysLive hd q newest phases =
      (hd.atLive && decide ((newest : Int) * 256 ≤ pos + phases * 256)) := by
    rw [staysLive, decide_eq_decide.2 (show newest * 256 ≤ q + phases * 256 ↔ (newest : Int) * 256 ≤ pos + phases * 256 by omega)]
  rw [hm.cand, hm.rate, hm.target]
  by_cases hhi : (newest * 256 : Nat) < cand
  · obtain ⟨hpos, rfl, rfl, rfl, rfl, rfl⟩ := habove (by omega)
    have hq : pos = (newest * 256 : Nat) := by omega
    have hframe : (pos / 256).toNat = newest := by omega
    rw [boundsStep_live_above hhi, hstays _ hq, hframe, hq, Int.toNat_natCast]
  by_cases hlo : cand < (tail * 256 : Nat)
  · obtain ⟨hpos, hneg, hnn, rfl, rfl, rfl⟩ := hbelow (by omega)
    have hq : pos = (tail * 256 : Nat) := by omega
    have hframe : (pos / 256).toNat = tail := by omega
    rw [boundsStep_live_below hle hlo, fitLow_eq hm hneg hnn (fun _ => rfl) (fun _ => ⟨rfl, rfl⟩), hlives _ hq, hframe, hq,
      Int.toNat_natCast, Bool.true_and]
  · obtain ⟨rfl, rfl, rfl, rfl, rfl, rfl⟩ := hwithin (by omega) (by omega)
    have hq : pos = (pos.toNat : Nat) := by omega
    have hframe : (pos / 256).toNat = pos.toNat / 256 := by omega
    rw [boundsStep_live_within (by omega) (by omega), hlives _ hq, hstays _ hq, hframe]

end

/-! ## A channel's tick leaves the shape of the loops -/

theorem Channel.SameLoop.trans {x y z : Channel} (h : x.SameLoop y) (h' : y.SameLoop z) : x.SameLoop z where
  off := h.off.trans h'.off
  firstSlot := h.firstSlot.trans h'.firstSlot
  len := h.len.trans h'.len
  phases := h.phases.trans h'.phases
  reserve := h.reserve.trans h'.reserve
  locked := h.locked.trans h'.locked
  cursor hc := h.cursor (h'.cursor hc)

/-- Every channel has the loop it has in `s`. -/
def State.ShapesOf (s t : State) : Prop := ∀ d, (t.chan d).SameLoop (s.chan d)

theorem State.ShapesOf.of_chan {s t u : State} (h : s.ShapesOf t) (hc : ∀ d, u.chan d = t.chan d) : s.ShapesOf u := fun d => by
  rw [hc]
  exact h d

theorem State.shapesOf_kept (s : State) : ChannelKept s.ShapesOf where
  raiseAt _ _ _ _ _ _ _ h := h
  mail _ _ h := h
  record t c x hx h d := by
    rw [State.setChan_chan]
    split_ifs with hd
    · subst hd
      exact hx.trans (h d)
    · exact h d
  take t n r h := h.of_chan (t.take_chan n r)
  commit t n h := h.of_chan fun d => (congrArg (fun x : State => x.chan d) (t.commit_frame n) :)
  empty t n h := h.of_chan fun d => (congrArg (fun x : State => x.chan d) (t.empty_frame n) :)

theorem State.channelTick_sameLoop (s : State) (c d : ChanId) : ((s.channelTick c).chan d).SameLoop (s.chan d) := by
  have hkept : s.ShapesOf (s.channelTick c) := by
    unfold State.channelTick
    cases s.mail.chanTicks.get c with
    | nil => exact fun _ => Channel.SameLoop.refl
    | cons t ts => exact s.shapesOf_kept.tickChannel _ c t (fun _ => Channel.SameLoop.refl)
  exact hkept d

/-! ## The obligation -/

section
variable {s : State} {h : HeadId} {c : ChanId} {i : PanelInput} {owner : Owner} {T₀ R cand : Int}

/-- The motion of a tick is what the port gives it (R63 to R68). -/
theorem State.firstMove_comes (hi : s.portGives h i)
    (ha : (s.head h).afterInput i (s.chan (s.chanOf (s.head h).src)).phases owner T₀ R cand) :
    (s.firstMove h (s.panelInput h)).1.Comes owner T₀ R cand ((s.head h).goto ≠ none) := by
  have hmove : (s.firstMove h (s.panelInput h)).1 = (s.head h).move i (s.chan (s.chanOf (s.head h).src)).phases :=
    Head.move_alike (State.panelInput_of_gives hi)
  rw [hmove]
  exact Head.move_comes ha

theorem State.firstMove_eq (s : State) (h : HeadId) (i : PanelInput) :
    s.firstMove h i = ((s.firstMove h i).1, s.sightOf (s.head h).src (s.head h).endMode,
      boundsStep (s.viewOf (s.head h).src (s.head h).endMode) (s.chan (s.chanOf (s.head h).src)).phases (s.head h)
        (s.firstMove h i).1 (s.firstMove h i).1.cand (s.firstMove h i).1.rate (s.firstMove h i).1.target) := rfl

theorem State.viewOf_live {e : EndMode} (hlt : (s.chan c).tail < (s.chan c).nextRfn) :
    s.viewOf (.live c) e = .live (s.chan c).tail ((s.chan c).nextRfn - 1) := if_neg (by omega)

end

/-- Settles O30: the three ticks differ in the bounds step and in the state the frame is latched in. -/
theorem liveHeadAdvancesAndLatchesItsFrame : Obligations.LiveHeadAdvancesAndLatchesItsFrame := by
  unfold Obligations.LiveHeadAdvancesAndLatchesItsFrame
  intro s h c n rest i owner T₀ R cand e hmail hsrc hi ha he
  have hsourced : (s.head h).src ≠ .idle := by simp [hsrc]
  have hbegin := State.beginTick_eq hmail hsourced hi he
  have hm := State.firstMove_comes hi (by rw [hsrc]; exact ha)
  have hfirst := s.firstMove_eq h (s.panelInput h)
  have hmove := s.tickBegun_firstMove h e (s.panelInput h)
  have hchan : s.chanOf (.live c) = c := rfl
  rw [hsrc, hchan] at hfirst
  generalize (s.firstMove h (s.panelInput h)).1 = m at hm hfirst
  rw [← hmove] at hfirst
  have hsteps {t : State} (ht : t.ports = (s.tickBegun h e).ports) : s.stepsTaken t h := State.clearJog_stepsTaken hi ht
  refine ⟨fun hempty => ?empty, fun w d tail k R' T live ev hlt hw htail habove hbelow hwithin hpassed hgone hneg hpos hlive hev
    hlt' hpresent hpin => ?retry, fun pos T R' live low ev k hlt habove hbelow hwithin hpresent hpin => ?fitted⟩
  case empty =>
    have hview : s.viewOf (.live c) (s.head h).endMode = .liveEmpty (s.chan c).tail := if_pos hempty
    rw [hview] at hfirst
    have hexec := exec_headTick_nil hmail hsourced hbegin
      (by rw [hfirst]; exact pickFrame_none _ rfl)
    rw [hfirst] at hexec
    obtain ⟨t, hnext⟩ := exists_next hexec
    have ht := Host.Outcome.next.inj (hexec.symm.trans hnext)
    obtain ⟨hhead, hothers, hslots, hports, hevt, hframe⟩ := State.endTick_leaves ht (State.unpinIf_frame _ _)
    refine ⟨t, hnext, ?_, hothers, fun j => ?_, hsteps hports, ?_⟩
    · rw [hhead, Head.ticked, hm.owner, hm.rate, hm.target]
      rfl
    · rw [hslots, State.unpinIf_slot]
      rfl
    · rw [hevt] at hframe
      exact hframe
  case retry =>
    rw [State.viewOf_live hlt] at hfirst
    have hleaves := boundsStep_live_leaves (hd := s.head h) (phases := (s.chan c).phases) hm (by omega) habove hbelow hwithin
    generalize boundsStep (.live (s.chan c).tail ((s.chan c).nextRfn - 1)) (s.chan c).phases (s.head h) m m.cand m.rate m.target =
      f at hfirst hleaves
    have htick := State.tickBegun_channelTick (h := h) hw
    have hw : State.channelTick { s with evt := e } c = w := Host.Outcome.next.inj hw
    have hhead (g : HeadId) : w.head g = s.head g := by
      rw [← hw, State.channelTick_frame]
      rfl
    have hphases : (w.chan c).phases = (s.chan c).phases := by
      rw [← hw]
      exact (State.channelTick_sameLoop _ c c).phases
    obtain ⟨v, hv⟩ : ∃ v, ({ w with ports := (s.clearJog h).ports
                                    mail := { w.mail with headTicks := popAt s.mail.headTicks h } } : State) = v := ⟨_, rfl⟩
    have hvhead (g : HeadId) : v.head g = s.head g := by
      rw [← hv]
      exact hhead g
    have hvchan : v.chan c = w.chan c := by
      rw [← hv]
      rfl
    have hvpresent (r q : Nat) : v.presentAt c r q ↔ w.presentAt c r q := by
      rw [← hv]
      exact Iff.rfl
    subst htail hlive hev
    have hrefit : v.refit (s.head h) m f = (v.sightOf (.live c) (s.head h).endMode,
        { pos := (w.chan c).tail * 256, rate := R', target := T
          atLive := (s.head h).atLive && decide ((w.chan c).nextRfn - 1 ≤ (w.chan c).tail + (s.chan c).phases), atTail := true,
          atEnd := false, frame := some (w.chan c).tail
          event := if (s.head h).atTail then none else
            some (.headAtTail, if R < 0 then .reverse else .swept, (w.chan c).tail) }) := by
      have hchan' : v.chanOf (.live c) = c := rfl
      rw [State.refit, hsrc, State.sightOf, hchan', State.viewOf_live (by rw [hvchan]; exact hlt'), hvchan, hphases]
      exact congrArg (Prod.mk _) (boundsStep_live_repeat hm hleaves hpassed (by omega) hneg hpos)
    have hgone' : v.locateShown (s.head h).src (s.sightOf (.live c) (s.head h).endMode).extents d = none := by
      rw [hsrc]
      exact State.indexLookup_of_absent fun q hq => hgone q ((hvpresent d q).1 hq)
    have hfound : v.locateShown (s.head h).src (v.sightOf (.live c) (s.head h).endMode).extents (w.chan c).tail = some k := by
      rw [hsrc]
      exact State.indexLookup_eq_some.2 ((hvpresent _ k).2 hpresent)
    obtain ⟨-, -, hheld, hrfn⟩ := (hvpresent _ k).2 hpresent
    have hvpin : v.pinnableAfter (s.head h).trailing k := by
      rw [← hv]
      exact hpin
    obtain ⟨u, hrun, hmoved, hpinned⟩ := pickFrame_after_unpin (h := h) (before := s.head h) (m := m) (fuel := 2)
      (f := (v.refit (s.head h) m f).2) (by rw [hrefit]) hfound hheld hrfn hvpin
    have hexec := exec_headTick_channelTick hmail hsourced hbegin (htick.trans hv)
      (x := some { src := .live c, chan := c, rfn := (w.chan c).tail, slot := k }) (f := (v.refit (s.head h) m f).2) (v := u) (by
        rw [hfirst, hvhead]
        refine (pickFrame_gone (o := (s.head h).trailing) hleaves.frame hgone').trans ?_
        rw [hrefit] at hrun ⊢
        rw [hsrc] at hrun
        exact hrun)
    rw [hfirst, hrefit] at hexec
    obtain ⟨t, hnext⟩ := exists_next hexec
    have ht := Host.Outcome.next.inj (hexec.symm.trans hnext)
    obtain ⟨hthead, hothers, hslots, hports, hevt, hframe⟩ := State.endTick_leaves ht hpinned
    have hvslot (j : Nat) : v.slot j = w.slot j := by
      rw [← hv]
      rfl
    refine ⟨t, hnext, ?_, fun g hg => (hothers g hg).trans (hvhead g), fun j => ?_, hsteps ?_, ?_, ?_⟩
    · rw [hthead, hvhead, Head.ticked, hm.owner]
    · rw [hslots, hmoved, hvslot]
    · rw [hports, ← hv]
      rfl
    · rw [hevt, ← hv]
    · rw [hframe, ← hv]
  case fitted =>
    rw [State.viewOf_live hlt, boundsStep_live_fits hm (by omega) habove hbelow hwithin] at hfirst
    have ⟨_, _, hheld, hrfn⟩ := hpresent
    obtain ⟨u, hrun, hmoved, hpinned⟩ := pickFrame_after_unpin (s := s.tickBegun h e) (h := h) (before := s.head h) (m := m) (fuel := 1)
      (sight := s.sightOf (.live c) (s.head h).endMode) (o := (s.head h).trailing) (d := (pos / 256).toNat) (n := k)
      (f := { pos := pos.toNat, rate := R', target := T, atLive := live, atTail := low, atEnd := false,
              frame := some (pos / 256).toNat, event := ev }) rfl
      (by rw [hsrc]; exact State.indexLookup_eq_some.2 hpresent) hheld hrfn hpin
    have hexec := exec_headTick_nil hmail hsourced hbegin (by rw [hfirst]; exact hrun)
    rw [hfirst] at hexec
    obtain ⟨t, hnext⟩ := exists_next hexec
    have ht := Host.Outcome.next.inj (hexec.symm.trans hnext)
    obtain ⟨hhead, hothers, hslots, hports, hevt, hframe⟩ := State.endTick_leaves ht hpinned
    refine ⟨t, hnext, ?_, hothers, fun j => (hslots j).trans (hmoved j), hsteps hports, hevt, ?_⟩
    · rw [hhead, Head.ticked, hm.owner, hsrc]
      rfl
    · exact hframe

end Sys2Proof.Machine
end

section
/-! PROOFS. ClipFit.lean: the bounds step of a CLIP head (R73 to R76, R78 to R80). -/

namespace Sys2Proof.Machine

section
variable {hd : Head} {m : Moved} {owner : Owner} {T₀ R cand : Int} {jumps : Prop} {lo hi phases : Nat} {rate target : Int}

/-! ## Each outcome of the step -/

theorem boundsStep_opened_above (h : (hi * 256 : Nat) < cand) : boundsStep (.opened lo hi) phases hd m cand rate target =
    { pos := hi * 256, rate, target, atLive := false, atTail := staysTail hd (hi * 256) lo phases, atEnd := false,
      frame := some hi, event := none } := if_pos h

theorem boundsStep_opened_below (hle : lo ≤ hi) (h : cand < (lo * 256 : Nat)) :
    boundsStep (.opened lo hi) phases hd m cand rate target = fitLow hd m rate target lo false 0 phases :=
  (if_neg (by omega)).trans (if_pos h)

theorem boundsStep_opened_within (hlo : (lo * 256 : Nat) ≤ cand) (hhi : cand ≤ (hi * 256 : Nat)) :
    boundsStep (.opened lo hi) phases hd m cand rate target =
      { pos := cand.toNat, rate, target, atLive := false, atTail := staysTail hd cand.toNat lo phases, atEnd := false,
        frame := some (cand.toNat / 256), event := none } :=
  (if_neg (by omega)).trans (if_neg (by omega))

theorem boundsStep_stopAt_above (h : (hi * 256 + 255 : Nat) < cand) : boundsStep (.stopAt lo hi) phases hd m cand rate target =
    fitStop hd m target hi .outEnd := if_pos h

theorem boundsStep_stopAt_below (hle : lo ≤ hi) (h : cand < (lo * 256 : Nat)) :
    boundsStep (.stopAt lo hi) phases hd m cand rate target = fitStop hd m target lo .inEnd :=
  (if_neg (by omega)).trans (if_pos h)

theorem boundsStep_stopAt_within (hlo : (lo * 256 : Nat) ≤ cand) (hhi : cand ≤ (hi * 256 + 255 : Nat)) :
    boundsStep (.stopAt lo hi) phases hd m cand rate target =
      { pos := cand.toNat, rate, target, atLive := false, atTail := false,
        atEnd := hd.atEnd && (decide (cand.toNat / 256 = lo) || decide (cand.toNat / 256 = hi)),
        frame := some (cand.toNat / 256), event := none } :=
  (if_neg (by omega)).trans (if_neg (by omega))

/-- The fit of a LOOP, which leaves R and T. -/
def loopFit (pos : Nat) (rate target : Int) (event : Option (EventKind × Reason × Nat)) : Fit :=
  { pos, rate, target, atLive := false, atTail := false, atEnd := false, frame := some (pos / 256), event }

/-- The position a LOOP wraps to (R75). -/
def loopWrap (lo hi : Nat) (cand : Int) : Nat :=
  ((lo * 256 : Nat) + (cand - (lo * 256 : Nat)) % (((hi : Int) - lo + 1) * 256)).toNat

theorem boundsStep_loop_within (hlo : (lo * 256 : Nat) ≤ cand) (hhi : cand ≤ (hi * 256 + 255 : Nat)) :
    boundsStep (.loopOver lo hi) phases hd m cand rate target = loopFit cand.toNat rate target none :=
  (if_neg (by omega)).trans (if_neg (by omega))

theorem boundsStep_loop_goto (hgoto : m.origin = .goto) (hle : lo ≤ hi) :
    (cand < (lo * 256 : Nat) → boundsStep (.loopOver lo hi) phases hd m cand rate target = loopFit (lo * 256) rate target none) ∧
      ((hi * 256 + 255 : Nat) < cand →
        boundsStep (.loopOver lo hi) phases hd m cand rate target = loopFit (hi * 256) rate target none) := by
  constructor
  · intro h
    refine (if_neg (by omega)).trans ((if_pos h).trans ?_)
    rw [hgoto]
    rfl
  · intro h
    refine (if_pos h).trans ?_
    rw [hgoto]
    rfl

theorem boundsStep_loop_wrap (hgoto : m.origin ≠ .goto) (hle : lo ≤ hi) (hout : cand < (lo * 256 : Nat) ∨ (hi * 256 + 255 : Nat) < cand) :
    boundsStep (.loopOver lo hi) phases hd m cand rate target =
      loopFit (loopWrap lo hi cand) rate target
        (some (.headLooped, if cand < (lo * 256 : Nat) then .inEnd else .outEnd, loopWrap lo hi cand / 256)) := by
  obtain h | h := hout
  · refine (if_neg (by omega)).trans ((if_pos h).trans ?_)
    rw [if_pos h]
    cases horigin : m.origin with
    | goto => exact absurd horigin hgoto
    | advance => rfl
    | jog => rfl
  · refine (if_pos h).trans ?_
    rw [if_neg (by omega)]
    cases horigin : m.origin with
    | goto => exact absurd horigin hgoto
    | advance => rfl
    | jog => rfl

/-- A wrap is the one position within the span that lies a whole number of spans from the candidate. -/
theorem loopWrap_eq {pos : Int} (hle : lo ≤ hi) (h1 : (lo : Int) * 256 ≤ pos) (h2 : pos ≤ (hi : Int) * 256 + 255)
    (hdvd : ((hi : Int) * 256 + 256 - (lo : Int) * 256) ∣ (cand - pos)) : loopWrap lo hi cand = pos.toNat := by
  have hspan : ((hi : Int) - lo + 1) * 256 = (hi : Int) * 256 + 256 - (lo : Int) * 256 := by ring
  have hmod : (cand - (lo * 256 : Nat)) % ((hi : Int) * 256 + 256 - (lo : Int) * 256) = pos - (lo * 256 : Nat) := by
    have hdiff : (cand - (lo * 256 : Nat)) - (pos - (lo * 256 : Nat)) = cand - pos := by ring
    rw [Int.emod_eq_emod_iff_emod_sub_eq_zero.2 (by rw [hdiff]; exact Int.emod_eq_zero_of_dvd hdvd)]
    exact Int.emod_eq_of_lt (by push_cast; omega) (by push_cast; omega)
  rw [loopWrap, hspan, hmod]
  congr 1
  ring

/-! ## The fit of a tick -/

theorem boundsStep_opened_fits (hm : m.Comes owner T₀ R cand jumps) (hle : lo ≤ hi) {pos T R' : Int} {low : Bool}
    {ev : Option (EventKind × Reason × Nat)}
    (habove : (hi : Int) * 256 < cand → pos = (hi : Int) * 256 ∧ R' = R ∧ T = T₀ ∧ ev = none)
    (hbelow : cand < (lo : Int) * 256 → pos = (lo : Int) * 256 ∧ (R < 0 → R' = 0 ∧ T = if owner = .command then 0 else T₀) ∧
      (0 ≤ R → R' = R ∧ T = T₀) ∧ low = true ∧
      ev = if hd.atTail then none else some (.headAtTail, if R < 0 then .reverse else .swept, lo))
    (hwithin : (lo : Int) * 256 ≤ cand → cand ≤ (hi : Int) * 256 → pos = cand ∧ R' = R ∧ T = T₀ ∧ ev = none)
    (hlow : (lo : Int) * 256 ≤ cand → low = (hd.atTail && decide (pos ≤ (lo : Int) * 256 + phases * 256))) :
    boundsStep (.opened lo hi) phases hd m m.cand m.rate m.target =
      { pos := pos.toNat, rate := R', target := T, atLive := false, atTail := low, atEnd := false,
        frame := some (pos / 256).toNat, event := ev } := by
  have hstays (q : Nat) (hq : pos = q) : staysTail hd q lo phases = (hd.atTail && decide (pos ≤ (lo : Int) * 256 + phases * 256)) := by
    rw [staysTail, decide_eq_decide.2 (show q ≤ lo * 256 + phases * 256 ↔ pos ≤ (lo : Int) * 256 + phases * 256 by omega)]
  rw [hm.cand, hm.rate, hm.target]
  by_cases hhi : (hi * 256 : Nat) < cand
  · obtain ⟨hpos, rfl, rfl, rfl⟩ := habove (by omega)
    have hq : pos = (hi * 256 : Nat) := by omega
    have hframe : (pos / 256).toNat = hi := by omega
    rw [boundsStep_opened_above hhi, hstays _ hq, ← hlow (by omega), hframe, hq, Int.toNat_natCast]
  by_cases hlo : cand < (lo * 256 : Nat)
  · obtain ⟨hpos, hneg, hnn, rfl, rfl⟩ := hbelow (by omega)
    have hq : pos = (lo * 256 : Nat) := by omega
    have hframe : (pos / 256).toNat = lo := by omega
    rw [boundsStep_opened_below hle hlo, fitLow_eq hm hneg hnn (fun _ => rfl) (fun _ => ⟨rfl, rfl⟩), hframe, hq, Int.toNat_natCast,
      Bool.false_and]
  · obtain ⟨rfl, rfl, rfl, rfl⟩ := hwithin (by omega) (by omega)
    have hq : pos = (pos.toNat : Nat) := by omega
    have hframe : (pos / 256).toNat = pos.toNat / 256 := by omega
    rw [boundsStep_opened_within (by omega) (by omega), hstays _ hq, ← hlow (by omega), hframe]

theorem fitStop_eq (hm : m.Comes owner T₀ R cand jumps) {o : Nat} {why : Reason} (htarget : target = T₀) : fitStop hd m target o why =
    { pos := o * 256, rate := 0, target := if owner = .command then 0 else T₀, atLive := false, atTail := false, atEnd := true,
      frame := some o
      event := if hd.atEnd ∧ hd.shown.map (·.rfn) = some o then none else some (.headAtEnd, why, o) } := by
  rw [fitStop, hm.owner, stoppedTarget_eq, htarget]

theorem boundsStep_stopAt_fits (hm : m.Comes owner T₀ R cand jumps) (hle : lo ≤ hi) {pos T R' : Int} {atEnd : Bool}
    {ev : Option (EventKind × Reason × Nat)}
    (habove : (hi : Int) * 256 + 255 < cand → pos = (hi : Int) * 256 ∧ R' = 0 ∧ (T = if owner = .command then 0 else T₀) ∧ atEnd = true ∧
      ev = if hd.atEnd ∧ hd.shown.map (·.rfn) = some hi then none else some (.headAtEnd, .outEnd, hi))
    (hbelow : cand < (lo : Int) * 256 → pos = (lo : Int) * 256 ∧ R' = 0 ∧ (T = if owner = .command then 0 else T₀) ∧ atEnd = true ∧
      ev = if hd.atEnd ∧ hd.shown.map (·.rfn) = some lo then none else some (.headAtEnd, .inEnd, lo))
    (hwithin : (lo : Int) * 256 ≤ cand → cand ≤ (hi : Int) * 256 + 255 → pos = cand ∧ R' = R ∧ T = T₀ ∧ ev = none ∧
      atEnd = (hd.atEnd && (decide (pos < (lo : Int) * 256 + 256) || decide ((hi : Int) * 256 ≤ pos)))) :
    boundsStep (.stopAt lo hi) phases hd m m.cand m.rate m.target =
      { pos := pos.toNat, rate := R', target := T, atLive := false, atTail := false, atEnd := atEnd,
        frame := some (pos / 256).toNat, event := ev } := by
  rw [hm.cand, hm.rate, hm.target]
  by_cases hhi : (hi * 256 + 255 : Nat) < cand
  · obtain ⟨hpos, rfl, rfl, rfl, rfl⟩ := habove (by omega)
    have hq : pos = (hi * 256 : Nat) := by omega
    have hframe : (pos / 256).toNat = hi := by omega
    rw [boundsStep_stopAt_above hhi, fitStop_eq hm rfl, hframe, hq, Int.toNat_natCast]
  by_cases hlo : cand < (lo * 256 : Nat)
  · obtain ⟨hpos, rfl, rfl, rfl, rfl⟩ := hbelow (by omega)
    have hq : pos = (lo * 256 : Nat) := by omega
    have hframe : (pos / 256).toNat = lo := by omega
    rw [boundsStep_stopAt_below hle hlo, fitStop_eq hm rfl, hframe, hq, Int.toNat_natCast]
  · obtain ⟨rfl, rfl, rfl, rfl, rfl⟩ := hwithin (by omega) (by omega)
    have hframe : (pos / 256).toNat = pos.toNat / 256 := by omega
    rw [boundsStep_stopAt_within (by omega) (by omega), hframe,
      decide_eq_decide.2 (show pos.toNat / 256 = lo ↔ pos < (lo : Int) * 256 + 256 by omega),
      decide_eq_decide.2 (show pos.toNat / 256 = hi ↔ (hi : Int) * 256 ≤ pos by omega)]

theorem boundsStep_loop_fits (hm : m.Comes owner T₀ R cand jumps) (hle : lo ≤ hi) {pos : Int} {ev : Option (EventKind × Reason × Nat)}
    (hwithin : (lo : Int) * 256 ≤ cand → cand ≤ (hi : Int) * 256 + 255 → pos = cand ∧ ev = none)
    (hwrap : ¬jumps → cand < (lo : Int) * 256 ∨ (hi : Int) * 256 + 255 < cand →
      (lo : Int) * 256 ≤ pos ∧ pos ≤ (hi : Int) * 256 + 255 ∧ ((hi : Int) * 256 + 256 - (lo : Int) * 256) ∣ (cand - pos) ∧
      ev = some (.headLooped, if cand < (lo : Int) * 256 then .inEnd else .outEnd, (pos / 256).toNat))
    (hjump : jumps → (cand < (lo : Int) * 256 → pos = (lo : Int) * 256 ∧ ev = none) ∧
      ((hi : Int) * 256 + 255 < cand → pos = (hi : Int) * 256 ∧ ev = none)) :
    boundsStep (.loopOver lo hi) phases hd m m.cand m.rate m.target =
      { pos := pos.toNat, rate := R, target := T₀, atLive := false, atTail := false, atEnd := false,
        frame := some (pos / 256).toNat, event := ev } := by
  rw [hm.cand, hm.rate, hm.target]
  by_cases hin : (lo * 256 : Nat) ≤ cand ∧ cand ≤ (hi * 256 + 255 : Nat)
  · obtain ⟨rfl, rfl⟩ := hwithin (by omega) (by omega)
    have hframe : (pos / 256).toNat = pos.toNat / 256 := by omega
    rw [boundsStep_loop_within hin.1 hin.2, hframe, loopFit]
  have hout : cand < (lo * 256 : Nat) ∨ (hi * 256 + 255 : Nat) < cand := by omega
  by_cases hj : jumps
  · obtain ⟨hbelow, habove⟩ := boundsStep_loop_goto (cand := cand) (phases := phases) (hd := hd) (rate := R) (target := T₀) (hm.jumps.2 hj) hle
    obtain ⟨hjbelow, hjabove⟩ := hjump hj
    obtain h | h := hout
    · obtain ⟨hpos, rfl⟩ := hjbelow (by omega)
      have hq : pos = (lo * 256 : Nat) := by omega
      have hframe : (pos / 256).toNat = lo * 256 / 256 := by omega
      rw [hbelow h, hframe, hq, Int.toNat_natCast, loopFit]
    · obtain ⟨hpos, rfl⟩ := hjabove (by omega)
      have hq : pos = (hi * 256 : Nat) := by omega
      have hframe : (pos / 256).toNat = hi * 256 / 256 := by omega
      rw [habove h, hframe, hq, Int.toNat_natCast, loopFit]
  · obtain ⟨h1, h2, hdvd, rfl⟩ := hwrap hj (by omega)
    have hframe : (pos / 256).toNat = pos.toNat / 256 := by omega
    have hlo : ((lo * 256 : Nat) : Int) = (lo : Int) * 256 := by push_cast; rfl
    rw [boundsStep_loop_wrap (fun hg => hj (hm.jumps.1 hg)) hle hout, loopWrap_eq hle h1 h2 hdvd, hframe, loopFit, hlo]

end

end Sys2Proof.Machine
end

section
/-! PROOFS. CommandBeside.lean: a command taken beside another event in progress (R90, R167). -/

namespace Sys2Proof.Machine

/-! ## Programs whose operations do not wait -/

/-- No operation of the program waits for the events `ts`. -/
def Prog.Clear {α : Type} (ts : List Thread) : Prog α → Prop
  | .done _ => True
  | .never => True
  | .op b _ next => b.any (busyAt ts) = false ∧ ∀ s, (next s).Clear ts

section
variable {α β : Type} {ts : List Thread}

theorem Prog.Clear.bind {p : Prog α} {g : α → Prog β} (hp : p.Clear ts) (hg : ∀ a, (g a).Clear ts) : (p.bind g).Clear ts := by
  induction p with
  | done a => exact hg a
  | never => trivial
  | op b f next ih => exact ⟨hp.1, fun s => ih s (hp.2 s)⟩

theorem Prog.Clear.onTable {p : Prog α} {cl : Tbl Clip} (hp : p.Clear ts) : (p.onTable cl).Clear ts := by
  induction p generalizing cl with
  | done a => trivial
  | never => trivial
  | op b f next ih => exact ⟨hp.1, fun s => ih _ (hp.2 _)⟩

theorem Prog.clear_each {ι : Type} {b : ι → List Agent} {f : ι → State → State} (h : ∀ i, (b i).any (busyAt ts) = false)
    (is : List ι) : (Prog.each b f is).Clear ts := by
  induction is with
  | nil => trivial
  | cons i is ih => exact ⟨h i, fun _ => ih⟩

theorem clipClose_clear (h : busyAt ts .clips = false) (r : CmdArgs) : (clipClose r).Clear ts := by
  have hclips : [Agent.clips].any (busyAt ts) = false := by simp [h]
  unfold clipClose
  cases targetClip r with
  | none => trivial
  | some k =>
    refine ⟨hclips, fun s => ?_⟩
    dsimp only
    cases (s.clip k).state with
    | free => trivial
    | closed => trivial
    | opened =>
      refine Prog.Clear.bind (Prog.Clear.onTable ?_) fun _ => trivial
      exact (Prog.clear_each (fun _ => hclips) _).bind fun _ => ⟨hclips, fun _ => trivial⟩

end

/-! ## Turns of one event beside others -/

section
variable {ts : List Thread} {a : Agent}

theorem threadOf_eq_none (h : ∀ th ∈ ts, th.who ≠ a) : threadOf ts a = none := by
  simpa [threadOf] using h

theorem othersOf_eq_self (h : ∀ th ∈ ts, th.who ≠ a) : othersOf ts a = ts := by
  simpa [othersOf] using h

theorem goOnce_clear {b : List Agent} (hb : b.any (busyAt ts) = false) (s : State) (f : State → State) (next : State → Prog Unit) :
    goOnce ts a s (.op b f next) = some (f s, (next s).thread a b ++ ts) := by
  rw [goOnce, if_neg (by rw [hb]; exact Bool.false_ne_true)]
  cases next s <;> rfl

theorem begin_steps_clear {b : List Agent} (hb : b.any (busyAt ts) = false) (hts : ∀ th ∈ ts, th.who ≠ a) (s : State)
    (f : State → State) (next : State → Prog Unit) :
    begin (s, ts) (.steps a (.op b f next)) = (f s, (next s).thread a b ++ ts) := by
  rw [begin, threadOf_eq_none hts, goOnce_clear hb]
  rfl

theorem takeTurn_move_clear {b : List Agent} (hb : b.any (busyAt ts) = false) (hts : ∀ th ∈ ts, th.who ≠ a) (fuel : Nat)
    (i : List Agent) (s : State) (f : State → State) (next : State → Prog Unit) :
    takeTurn fuel (s, { who := a, inAt := i, rest := .op b f next } :: ts) (.move a) = (f s, (next s).thread a b ++ ts) := by
  have hthread : threadOf ({ who := a, inAt := i, rest := .op b f next } :: ts) a =
      some { who := a, inAt := i, rest := .op b f next } := by simp [threadOf]
  have hothers : othersOf ({ who := a, inAt := i, rest := .op b f next } :: ts) a = ts := by
    rw [othersOf, List.filter_cons_of_neg (by simp)]
    exact othersOf_eq_self hts
  rw [takeTurn, hthread]
  dsimp only
  rw [hothers, goOnce_clear hb]
  rfl

theorem takeTurn_move_none (hts : ∀ th ∈ ts, th.who ≠ a) (fuel : Nat) (s : State) : takeTurn fuel (s, ts) (.move a) = (s, ts) := by
  rw [takeTurn, threadOf_eq_none hts]

/-- Turns of an event that need not wait for the others take it to its end. -/
theorem turns_clear {p : Prog Unit} {n : Nat} {s t : State} (hw : p.Within n s) (hc : p.Clear ts) (hr : p.run s = some (t, ()))
    (hts : ∀ th ∈ ts, th.who ≠ a) (fuel : Nat) (b : List Agent) :
    (List.replicate n (Turn.move a)).foldl (takeTurn fuel) (s, p.thread a b ++ ts) = (t, ts) := by
  induction n generalizing p s b with
  | zero =>
    cases p with
    | done x =>
      cases hr
      rfl
    | never => exact hw.elim
    | op b f next => exact hw.elim
  | succ n ih =>
    rw [List.replicate_succ, List.foldl_cons]
    cases p with
    | done x =>
      show List.foldl _ (takeTurn fuel (s, ts) (.move a)) _ = _
      rw [takeTurn_move_none hts]
      exact ih (p := .done x) (by cases n <;> trivial) trivial hr b
    | never => exact hw.elim
    | op b' f next =>
      show List.foldl _ (takeTurn fuel (s, _ :: ts) (.move a)) _ = _
      rw [takeTurn_move_clear hc.1 hts]
      exact ih hw (hc.2 s) hr b'

end

/-! ## A command beside an event that is not at its blocks -/

section
variable {ts : List Thread} {e : BlockEvent} {kind : Byte} {r : CmdArgs} {own : Prog CmdResult} {f : State → State × CmdResult}
  {s : State}

/-- A command is taken by its own turns, beside an event it need not wait for, as it is taken alone. -/
theorem turns_command (hcourse : ∀ fuel w, courseOf fuel w e = .steps .processor (commandProg kind r own))
    (hown : ∀ u, own.run u = some (f u)) (hs : s.awaits) {n : Nat} (hwithin : ∀ k, own.Within n (s.taken k kind r))
    (hc : own.Clear ts) (hts : ∀ th ∈ ts, th.who ≠ .processor) (fuel : Nat) :
    (Turn.event e :: List.replicate (n + 1) (.move .processor)).foldl (takeTurn fuel) (s, ts) = (s.carryOut kind r f, ts) := by
  obtain ⟨k, -, hrun⟩ := s.fetched_of_awaits kind r hs
  have hw : (answering own).Within (n + 1) (s.taken k kind r) := (hwithin k).bind (hown _) trivial
  have hclear : (answering own).Clear ts := hc.bind fun _ => ⟨rfl, fun _ => trivial⟩
  rw [List.foldl_cons, takeTurn, hcourse, commandProg_eq, begin_steps_clear rfl hts, if_pos (State.takesRecord_of_awaits hs), hrun,
    id_eq, turns_clear hw hclear (answering_run hown _) hts, State.carryOut, hrun]

end

/-! ## CLIP_CLOSE beside a head's tick -/

/-- The state with the ports and the heads' ticks of a head's tick in progress. -/
def State.withTick (s : State) (ports : Vector Port 2) (ticks : Vector (List Word) 4) : State :=
  { s with ports := ports, mail := { s.mail with headTicks := ticks } }

section
variable (s : State) (ports : Vector Port 2) (ticks : Vector (List Word) 4)

theorem State.closeClip_clipPart (x : State) (k o : Nat) (why : Reason) : closeClip (x.clipPart s) k o why = closeClip s k o why := rfl

theorem State.closeNow_clipPart (x : State) (k o : Nat) (why : Reason) :
    (x.clipPart s).closeNow k o why = x.clipPart (s.closeNow k o why) := by
  have hrun := (onClips_closeClip s k o why).run_eq (closeClip_run s k o why) x
  rw [← State.closeClip_clipPart s x, closeClip_run] at hrun
  exact congrArg Prod.fst (Option.some.inj hrun)

theorem State.closeNow_withTick (k o : Nat) (why : Reason) :
    (s.withTick ports ticks).closeNow k o why = (s.closeNow k o why).withTick ports ticks := by
  have hframe := (onClips_closeClip s k o why).frame (closeClip_run s k o why)
  have hclose := s.closeNow_clipPart (s.withTick ports ticks) k o why
  refine hclose.trans ?_
  rw [hframe]
  rfl

theorem State.endCommand_withTick (o : CmdResult) : (s.withTick ports ticks).endCommand o = (s.endCommand o).withTick ports ticks := by
  have hproc : (s.withTick ports ticks).proc = s.proc := rfl
  unfold State.endCommand
  rw [hproc]
  cases s.proc.current <;> rfl

theorem State.channelTick_withTick (c : ChanId) : (s.withTick ports ticks).channelTick c = (s.channelTick c).withTick ports ticks := by
  refine (State.channelTick_channelPart (s.withTick ports ticks) s c).trans ?_
  rw [s.channelTick_frame c]
  rfl

variable {s}

theorem State.carryOut_clipClose {k o : Nat} {r : CmdArgs} (hs : s.awaits) (hk : targetClip r = some k) (hopen : (s.clip k).state = .opened)
    (ho : clampNat (s.clip k).inF (s.clip k).outF r.a.toNat = o) :
    ∃ j, s.mem.outstanding .fetch = some j ∧ s.carryOut 0x0E r (clipCloseNow r) =
      ((s.taken j 0x0E r).closeNow k o .command).endCommand (doneOrClamped (o ≠ r.a.toNat) (BitVec.ofNat 32 o)) := by
  obtain ⟨j, hj, hrun⟩ := s.fetched_of_awaits 0x0E r hs
  refine ⟨j, hj, ?_⟩
  rw [State.carryOut, hrun, clipCloseNow_of_opened (s := s.taken j 0x0E r) hk hopen ho]

theorem State.carryOut_clipClose_withTick {k : Nat} {r : CmdArgs} (hs : s.awaits) (hk : targetClip r = some k)
    (hopen : (s.clip k).state = .opened) :
    (s.withTick ports ticks).carryOut 0x0E r (clipCloseNow r) = (s.carryOut 0x0E r (clipCloseNow r)).withTick ports ticks := by
  obtain ⟨j, hj, hcarry⟩ := State.carryOut_clipClose hs hk hopen rfl
  obtain ⟨j', hj', hcarry'⟩ := State.carryOut_clipClose (s := s.withTick ports ticks) (k := k) (r := r) hs hk hopen rfl
  obtain rfl : j' = j := Option.some.inj (hj'.symm.trans hj)
  have htaken : (s.withTick ports ticks).taken j' 0x0E r = (s.taken j' 0x0E r).withTick ports ticks := rfl
  rw [hcarry, hcarry', htaken, State.closeNow_withTick, State.endCommand_withTick]
  rfl

end

end Sys2Proof.Machine
end

section
/-! PROOFS. ClipTick.lean: the tick of a CLIP head (R56, R73 to R76). -/

namespace Sys2Proof.Machine

section
variable {s : State} {h : HeadId} {c : ChanId} {k : Nat} {r : CmdArgs} {n : Word} {rest : List Word} {i : PanelInput} {e : EventUnit}
  {owner : Owner} {T₀ R cand : Int}

/-! ## The course with CLIP_CLOSE and a channel's tick between the read and the lookup -/

theorem tickRest_thread_who (fuel : Nat) (u : State) : ∀ th ∈ (tickRest h fuel n i u).thread (.head h) [.head h], th.who = .head h := by
  simp [tickRest, Prog.thread]

theorem exec_headTick_clipClose {u v w y : State} {f : Fit} {x : Option Shown} {m : Nat} (hmail : s.mail.headTicks.get h = n :: rest)
    (hsrc : (s.head h).src ≠ .idle) (hu : s.beginTick h = u) (hs : u.awaits)
    (hwithin : ∀ j, (clipClose r).Within m (u.taken j 0x0E r)) (hv : u.carryOut 0x0E r (clipCloseNow r) = v)
    (hw : v.channelTick c = w)
    (hr : (pickFrame h (u.head h) (u.firstMove h (s.panelInput h)).1 (m + 6) (u.firstMove h (s.panelInput h)).2.1
      (u.firstMove h (s.panelInput h)).2.2).run (w.unpinIf (w.head h).trailing) = some (y, f, x)) :
    exec (.headTick h ([.move (.head h), .event (.command 0x0E r)] ++ List.replicate (m + 1) (.move .processor) ++
      [.event (.channelTick c)])) s = .next (y.endTick h (u.firstMove h (s.panelInput h)).1 f x n) := by
  rw [exec_headTick]
  refine weave_of_turns ?_
  have hfuel : pickFuel ([.move (.head h), .event (.command 0x0E r)] ++ List.replicate (m + 1) (.move .processor) ++
      [.event (.channelTick c)]) = m + 6 := by
    simp [pickFuel]
  rw [hfuel, begin_headTick hmail hsrc, hu, tickSourced_eq, List.foldl_append, List.foldl_cons, List.foldl_nil, List.cons_append,
    List.cons_append, List.nil_append, List.foldl_cons, takeTurn_move_op, id_eq,
    turns_command (e := .command 0x0E r) (kind := 0x0E) (r := r) (fun _ _ => rfl) (clipClose_run r) hs hwithin
      (clipClose_clear (busyAt_thread (by simp)) r) (fun th hth => by rw [tickRest_thread_who _ _ th hth]; simp), hv,
    takeTurn_channelTick _ _ (busyAt_thread (by simp)), hw]
  exact finishAll_thread (by simp) (tickRest_run hr)

/-! ## What a close leaves to the heads (R92, R111) -/

/-- After a CLIP_CLOSE and a channel's tick: the clip is CLOSED in..o, its channel has the loop it had, the heads are as they were. -/
structure State.Trimmed (s w : State) (k : Nat) (c : ChanId) : Prop where
  closed : (w.clip k).state = .closed
  chan : (w.clip k).chan = (s.clip k).chan
  inF : (w.clip k).inF = (s.clip k).inF
  loop : (w.chan c).len = (s.chan c).len ∧ (w.chan c).firstSlot = (s.chan c).firstSlot ∧ ((w.chan c).state = .off ↔ (s.chan c).state = .off)
  head : ∀ g, w.head g = s.head g

theorem State.closeNow_chan (s : State) (k o : Nat) (why : Reason) (d : ChanId) :
    (s.closeNow k o why).chan d = { s.chan d with locked := ((s.closeNow k o why).chan d).locked } := by
  obtain ⟨-, -, -, -, hchans, -, -⟩ := s.closeNow_closed k o why
  exact hchans d

theorem State.closeNow_head (s : State) (k o : Nat) (why : Reason) (g : HeadId) : (s.closeNow k o why).head g = s.head g :=
  (congrArg (fun x : State => x.head g) (s.closeNow_frame k o why) :)

theorem State.endCommand_beside (s : State) (o : CmdResult) :
    s.endCommand o = { s with proc := (s.endCommand o).proc, mem := (s.endCommand o).mem } := by
  unfold State.endCommand
  cases s.proc.current <;> rfl

theorem State.carryOut_clipClose_trimmed {w : State} {o : Nat} (hs : s.awaits) (hk : targetClip r = some k)
    (hopen : (s.clip k).state = .opened) (ho : clampNat (s.clip k).inF (s.clip k).outF r.a.toNat = o)
    (hw : (s.carryOut 0x0E r (clipCloseNow r)).channelTick c = w) : s.Trimmed w k c ∧ (w.clip k).outF = o := by
  obtain ⟨j, -, hcarry⟩ := State.carryOut_clipClose hs hk hopen ho
  obtain ⟨x, hx⟩ : ∃ x, s.taken j 0x0E r = x := ⟨_, rfl⟩
  have hxs : (∀ k, x.clip k = s.clip k) ∧ (∀ c, x.chan c = s.chan c) ∧ ∀ g, x.head g = s.head g := by
    rw [← hx]
    exact ⟨fun _ => rfl, fun _ => rfl, fun _ => rfl⟩
  obtain ⟨hxclip, hxchan, hxhead⟩ := hxs
  obtain ⟨v, hv⟩ : ∃ v, s.carryOut 0x0E r (clipCloseNow r) = v := ⟨_, rfl⟩
  have hvx : v = { x.closeNow k o .command with proc := v.proc, mem := v.mem } := by
    rw [← hv, hcarry, hx]
    exact State.endCommand_beside ..
  have hvclip : v.clip k = (x.closeNow k o .command).clip k := (congrArg (fun y : State => y.clip k) hvx :)
  have hvchan : v.chan c = (x.closeNow k o .command).chan c := (congrArg (fun y : State => y.chan c) hvx :)
  have hvhead (g : HeadId) : v.head g = (x.closeNow k o .command).head g := (congrArg (fun y : State => y.head g) hvx :)
  obtain ⟨hclip, -, -, -, -, -, -⟩ := x.closeNow_closed k o .command
  have hwv := v.channelTick_frame c
  rw [hv] at hw
  rw [hw] at hwv
  have hwclip : w.clip k = v.clip k := (congrArg (fun y : State => y.clip k) hwv :)
  have hwhead (g : HeadId) : w.head g = v.head g := (congrArg (fun y : State => y.head g) hwv :)
  have hloop := v.channelTick_sameLoop c c
  rw [hw, hvchan, State.closeNow_chan, hxchan] at hloop
  rw [← hvclip, ← hwclip, hxclip] at hclip
  refine ⟨⟨?_, ?_, ?_, ⟨hloop.len, hloop.firstSlot, hloop.off⟩, fun g => ?_⟩, ?_⟩
  · rw [hclip]
  · rw [hclip]
  · rw [hclip]
  · rw [hwhead, hvhead, State.closeNow_head, hxhead]
  · rw [hclip]

/-! ## The bounds step -/

theorem State.viewOf_opened {em : EndMode} (h : (s.clip k).state = .opened) :
    s.viewOf (.clip k) em = .opened (s.clip k).inF (s.clip k).outF := if_pos h

theorem State.viewOf_stop (h : (s.clip k).state = .closed) : s.viewOf (.clip k) .stop = .stopAt (s.clip k).inF (s.clip k).outF :=
  if_neg (by simp [h])

theorem State.viewOf_loop (h : (s.clip k).state = .closed) : s.viewOf (.clip k) .loop = .loopOver (s.clip k).inF (s.clip k).outF :=
  if_neg (by simp [h])

end

/-- Settles O31: the fit is the bounds step of the clip's state and the head's mode; a trim with a walk between the read and the
lookup has the pick repeated by the trimmed extents. -/
theorem clipHeadIsFittedIntoItsClip : Obligations.ClipHeadIsFittedIntoItsClip := by
  unfold Obligations.ClipHeadIsFittedIntoItsClip
  intro s h k x c n rest i owner T₀ R cand pos lo hi T R' e tail atEnd ev p j hmail hsrc hi' hx hc hio hlo hhi ha he hopened hstop hloop
    hfree
  have hsourced : (s.head h).src ≠ .idle := by simp [hsrc]
  have hbegin := State.beginTick_eq hmail hsourced hi' he
  have hchan : s.chanOf (.clip k) = c := by rw [hc, hx]; rfl
  have hm := State.firstMove_comes hi' (by rw [hsrc, hchan]; exact ha)
  have hfirst := s.firstMove_eq h (s.panelInput h)
  rw [hsrc, hchan] at hfirst
  have hmove := s.tickBegun_firstMove h e (s.panelInput h)
  have hsteps {t : State} (ht : t.ports = (s.tickBegun h e).ports) : s.stepsTaken t h := State.clearJog_stepsTaken hi' ht
  generalize (s.firstMove h (s.panelInput h)).1 = m at hm hfirst
  have hfit : boundsStep (s.viewOf (.clip k) (s.head h).endMode) (s.chan c).phases (s.head h) m m.cand m.rate m.target =
      { pos := pos.toNat, rate := R', target := T, atLive := false, atTail := tail, atEnd := atEnd,
        frame := some (pos / 256).toNat, event := ev } := by
    subst hlo hhi hx
    cases hstate : (s.clip k).state with
    | free => exact absurd hstate hfree
    | opened =>
      obtain ⟨rfl, habove, hbelow, hwithin, hlow⟩ := hopened hstate
      rw [State.viewOf_opened hstate]
      exact boundsStep_opened_fits hm hio habove hbelow hwithin hlow
    | closed =>
      cases hend : (s.head h).endMode with
      | stop =>
        obtain ⟨rfl, habove, hbelow, hwithin⟩ := hstop hstate hend
        rw [State.viewOf_stop hstate]
        exact boundsStep_stopAt_fits hm hio habove hbelow hwithin
      | loop =>
        obtain ⟨rfl, rfl, rfl, rfl, hwithin, hwrap, hjump⟩ := hloop hstate hend
        rw [State.viewOf_loop hstate]
        exact boundsStep_loop_fits hm hio hwithin (fun hj => hwrap (not_not.1 hj)) hjump
  rw [hfit, ← hmove] at hfirst
  refine ⟨fun r v w o q a ev' hs hk hk' hopen hend hv hw ho hcand hpassed hon hgone hq ha hheld hrfn hpin hev => ?trimmed,
    fun hon hp hj hheld hrfn hpin => ?fitted⟩
  case trimmed =>
    have ht := targetClip_of r k hk hk'
    obtain ⟨z, hz⟩ : ∃ z : State, { s with evt := e } = z := ⟨_, rfl⟩
    have hzclip (q : Nat) : z.clip q = s.clip q := by rw [← hz]; rfl
    have hzchan (d : ChanId) : z.chan d = s.chan d := by rw [← hz]; rfl
    have hzhead (g : HeadId) : z.head g = s.head g := by rw [← hz]; rfl
    have hzs : z.awaits := by rw [← hz]; exact hs
    have hopen' : (z.clip k).state = .opened := by rw [hzclip, ← hx]; exact hopen
    have hbegun : s.tickBegun h e = z.withTick (s.clearJog h).ports (popAt s.mail.headTicks h) := by rw [← hz]; rfl
    rw [hz] at hv
    have hv : z.carryOut 0x0E r (clipCloseNow r) = v := Host.Outcome.next.inj ((exec_clipClose_nil r z).symm.trans hv)
    have hw : v.channelTick c = w := Host.Outcome.next.inj hw
    obtain ⟨⟨hclosed, hwchan, hwin, ⟨hlen, hfirstSlot, hoff⟩, hwhead⟩, hout⟩ :=
      State.carryOut_clipClose_trimmed (c := c) hzs ht hopen' rfl (by rw [hv, hw])
    rw [← ho] at hout
    obtain ⟨y, hy⟩ : ∃ y, w.withTick (s.clearJog h).ports (popAt s.mail.headTicks h) = y := ⟨_, rfl⟩
    have hyv : (s.tickBegun h e).carryOut 0x0E r (clipCloseNow r) = v.withTick (s.clearJog h).ports (popAt s.mail.headTicks h) := by
      rw [hbegun, State.carryOut_clipClose_withTick _ _ hzs ht hopen', hv]
    have hyw : (v.withTick (s.clearJog h).ports (popAt s.mail.headTicks h)).channelTick c = y := by
      rw [State.channelTick_withTick, hw, hy]
    have hwithin (a : Nat) : (clipClose r).Within (x.outF - o + 2) ((s.tickBegun h e).taken a 0x0E r) := by
      have hbound := clipClose_within (s := (s.tickBegun h e).taken a 0x0E r) ht (k := k) (by rw [hx] at hopen; exact hopen)
      have hclip : ((s.tickBegun h e).taken a 0x0E r).clip k = x := hx.symm
      rw [hclip] at hbound
      rw [hzclip, ← hx] at hout
      rw [hout]
      exact hbound
    have hyclip : (y.clip k).chan = c := by rw [← hy]; exact hwchan.trans (by rw [hzclip, ← hx, ← hc])
    have hychan : y.chan c = w.chan c := by rw [← hy]; rfl
    have hyslot (q : Nat) : y.slot q = w.slot q := by rw [← hy]; rfl
    have hyhead (g : HeadId) : y.head g = s.head g := by rw [← hy, ← hzhead]; exact hwhead g
    have hysight : y.sightOf (.clip k) (s.head h).endMode = { view := .stopAt x.inF o, extents := (w.clip k).extents } := by
      rw [hend, State.sightOf, State.viewOf_stop (by rw [← hy]; exact hclosed), ← hy]
      have hin : (w.clip k).inF = x.inF := by rw [hwin, hzclip, hx]
      rw [← hin, ho]
      rfl
    rw [hzchan] at hlen hfirstSlot hoff
    subst hlo hhi
    obtain ⟨rfl, habove, -, hwithin', hlow⟩ := hopened hopen
    have hkeep : pos ≤ (x.outF : Int) * 256 ∧ T = T₀ := by
      by_cases hhi : (x.outF : Int) * 256 < cand
      · obtain ⟨rfl, -, hT, -⟩ := habove hhi
        exact ⟨le_refl _, hT⟩
      · obtain ⟨rfl, -, hT, -⟩ := hwithin' hcand (by omega)
        exact ⟨by omega, hT⟩
    have hrefit : y.refit (s.head h) m
        { pos := pos.toNat, rate := R', target := T, atLive := false, atTail := tail, atEnd := false,
          frame := some (pos / 256).toNat, event := ev } =
        ({ view := .stopAt x.inF o, extents := (w.clip k).extents },
          { pos := o * 256, rate := 0, target := if owner = .command then 0 else T₀, atLive := false, atTail := false,
            atEnd := true, frame := some o, event := ev' }) := by
      rw [State.refit, hsrc, hysight, hev, ← fitStop_eq hm (why := .outEnd) hkeep.2]
      exact congrArg (Prod.mk _) (boundsStep_stopAt_above (by dsimp only; omega))
    have hes : (s.sightOf (.clip k) (s.head h).endMode).extents = x.extents := by rw [hx]; rfl
    have hgone' : y.locateShown (s.head h).src (s.sightOf (.clip k) (s.head h).endMode).extents (pos / 256).toNat = none := by
      rw [hsrc, hes]
      refine State.locateShown_clip_none hyclip fun a' ha' => ?_
      rw [hychan, hlen] at ha'
      rw [hyslot, hychan, hfirstSlot]
      exact hgone a' ha'
    subst ha
    have hfound : y.locateShown (s.head h).src (w.clip k).extents o = some ((s.chan c).firstSlot + q) := by
      have hlocate := State.locateShown_clip (s := y) (k := k) (d := o) (p := q) (es := (w.clip k).extents) hyclip
        (by rw [hychan]; exact fun h => hon (hoff.1 h)) (by rw [hychan, hlen]; exact hq)
        (by rw [hyslot, hychan, hfirstSlot]; exact hheld) (by rw [hyslot, hychan, hfirstSlot]; exact hrfn)
      rw [hychan, hfirstSlot] at hlocate
      rw [hsrc]
      exact hlocate
    have hypin : y.pinnableAfter (s.head h).trailing ((s.chan c).firstSlot + q) := by rw [← hy]; exact hpin
    obtain ⟨u, hrun, hmoved, hpinned⟩ := pickFrame_after_unpin (h := h) (before := s.head h) (m := m) (fuel := x.outF - o + 6)
      (sight := { view := .stopAt x.inF o, extents := (w.clip k).extents })
      (f := { pos := o * 256, rate := 0, target := if owner = .command then 0 else T₀, atLive := false, atTail := false,
              atEnd := true, frame := some o, event := ev' }) rfl hfound (by rw [hyslot]; exact hheld) (by rw [hyslot]; exact hrfn) hypin
    have hexec := exec_headTick_clipClose (c := c) (m := x.outF - o + 2) hmail hsourced hbegin (s := s) hs hwithin hyv hyw
      (x := some { src := .clip k, chan := c, rfn := o, slot := (s.chan c).firstSlot + q })
      (f := { pos := o * 256, rate := 0, target := if owner = .command then 0 else T₀, atLive := false, atTail := false,
              atEnd := true, frame := some o, event := ev' }) (y := u) (by
        rw [hfirst, hyhead]
        refine (pickFrame_gone (o := (s.head h).trailing) rfl hgone').trans ?_
        rw [hrefit]
        rw [hsrc] at hrun
        exact hrun.trans (by rw [State.chanOf, hyclip]))
    rw [hfirst] at hexec
    obtain ⟨t, hnext⟩ := exists_next hexec
    have htick := Host.Outcome.next.inj (hexec.symm.trans hnext)
    obtain ⟨hthead, hothers, hslots, hports, hevt, hframe⟩ := State.endTick_leaves htick hpinned
    refine ⟨t, hnext, ?_, fun g hg => (hothers g hg).trans (hyhead g), fun a => ?_, hsteps ?_, ?_, ?_⟩
    · rw [hthead, hyhead, Head.ticked, hm.owner]
    · rw [hslots, hmoved, hyslot]
    · rw [hports, ← hy]
      rfl
    · rw [hevt, ← hy]
      rfl
    · rw [hframe, ← hy]
      rfl
  case fitted =>
    subst hj
    obtain ⟨u, hrun, hpinned, hframe⟩ := pickFrame_after_unpin (s := s.tickBegun h e) (h := h) (before := s.head h) (m := m) (fuel := 1)
      (sight := s.sightOf (.clip k) (s.head h).endMode) (o := (s.head h).trailing) (d := (pos / 256).toNat)
      (f := { pos := pos.toNat, rate := R', target := T, atLive := false, atTail := tail, atEnd := atEnd,
              frame := some (pos / 256).toNat, event := ev }) rfl
      (by
        rw [hsrc]
        have hes : (s.sightOf (.clip k) (s.head h).endMode).extents = x.extents := by rw [hx]; rfl
        rw [hes]
        exact State.locateShown_clip (s := s.tickBegun h e) hchan hon hp hheld hrfn) hheld hrfn hpin
    have hexec := exec_headTick_nil hmail hsourced hbegin (by rw [hfirst]; exact hrun)
    rw [hfirst] at hexec
    obtain ⟨t, hnext⟩ := exists_next hexec
    have ht := Host.Outcome.next.inj (hexec.symm.trans hnext)
    obtain ⟨hhead, hothers, hslots, hports, hevt, hleft⟩ := State.endTick_leaves ht hframe
    refine ⟨t, hnext, ?_, hothers, fun j => (hslots j).trans (hpinned j), hsteps hports, hevt, hleft⟩
    rw [hhead, Head.ticked, hm.owner, hsrc]
    have hchan' : (s.tickBegun h e).chanOf (.clip k) = c := hchan
    rw [hchan']
    rfl

end Sys2Proof.Machine
end

section
/-! PROOFS. Windows.lean: what the live windows and the slots in RECORDING rest on, and what leaves them (R31, R35 to R37). -/

namespace Sys2Proof.Machine

/-! ## One channel's window beside the work of others -/

/-- In `t` channel `c` has the record it has in `s`, but for the locked count and the stray flag, and its loop the same slot states,
frames and index entries. -/
structure State.SameWindow (s t : State) (c : ChanId) : Prop where
  chan : t.chan c = { s.chan c with locked := (t.chan c).locked, stray := (t.chan c).stray }
  slot : ∀ n, (s.chan c).owns n = true → (t.slot n).state = (s.slot n).state ∧ (t.slot n).rfn = (s.slot n).rfn
  entry : ∀ i, (s.chan c).owns i = true → t.entry i = s.entry i

section
variable {s t u : State} {c d : ChanId}

theorem State.SameWindow.refl (s : State) (c : ChanId) : s.SameWindow s c := ⟨rfl, fun _ _ => ⟨rfl, rfl⟩, fun _ _ => rfl⟩

theorem State.SameWindow.owns (h : s.SameWindow t c) (n : Nat) : (t.chan c).owns n = (s.chan c).owns n := by
  rw [h.chan]
  rfl

theorem State.SameWindow.trans (h : s.SameWindow t c) (h' : t.SameWindow u c) : s.SameWindow u c where
  chan := by rw [h'.chan, h.chan]
  slot n hn := by
    obtain ⟨hstate, hrfn⟩ := h.slot n hn
    obtain ⟨hstate', hrfn'⟩ := h'.slot n (by rw [h.owns]; exact hn)
    exact ⟨hstate'.trans hstate, hrfn'.trans hrfn⟩
  entry i hi := (h'.entry i (by rw [h.owns]; exact hi)).trans (h.entry i hi)

/-- The index entry of a frame lies in the loop. -/
theorem Channel.owns_entryOf {ch : Channel} (hon : ch.state ≠ .off) (hlen : 0 < ch.len) (r : Nat) :
    ch.owns (ch.firstSlot + r % ch.len) = true := by
  rw [Channel.owns_iff]
  have := Nat.mod_lt r hlen
  exact ⟨hon, by omega, by omega⟩

theorem State.SameWindow.windowOk (h : s.SameWindow t c) (hon : (s.chan c).state ≠ .off) (hs : s.windowOk c) : t.windowOk c := by
  obtain ⟨hlen, hframes⟩ := hs
  have hchan := h.chan
  have hfields : (t.chan c).state = (s.chan c).state ∧ (t.chan c).firstSlot = (s.chan c).firstSlot ∧
      (t.chan c).len = (s.chan c).len ∧ (t.chan c).tail = (s.chan c).tail ∧ (t.chan c).nextRfn = (s.chan c).nextRfn := by
    rw [hchan]
    exact ⟨rfl, rfl, rfl, rfl, rfl⟩
  obtain ⟨hstate, hfirst, hlen', htail, hnext⟩ := hfields
  refine ⟨by rw [hnext, htail, hlen']; exact hlen, fun r hlo hhi => ?_⟩
  rw [htail] at hlo
  rw [hnext] at hhi
  obtain ⟨n, ⟨-, hentry, hheld, hrfn⟩, hown⟩ := hframes r hlo hhi
  obtain ⟨hslot, hslotRfn⟩ := h.slot n hown
  refine ⟨n, ⟨by rw [hstate]; exact hon, ?_, hslot.trans hheld, hslotRfn.trans hrfn⟩, by rw [h.owns]; exact hown⟩
  rw [hfirst, hlen', h.entry _ (Channel.owns_entryOf hon (by omega) r)]
  exact hentry

/-! ## Changes that leave every window -/

/-- From `s` to `t` the channels' records change in the locked count and the stray flag alone, and no slot changes its state or
frame. -/
structure State.WindowsLeft (s t : State) : Prop where
  chan : ∀ c, t.chan c = { s.chan c with locked := (t.chan c).locked, stray := (t.chan c).stray }
  slot : ∀ n, (t.slot n).state = (s.slot n).state ∧ (t.slot n).rfn = (s.slot n).rfn
  entry : ∀ i, t.entry i = s.entry i

theorem State.WindowsLeft.refl (s : State) : s.WindowsLeft s := ⟨fun _ => rfl, fun _ => ⟨rfl, rfl⟩, fun _ => rfl⟩

theorem State.WindowsLeft.trans (h : s.WindowsLeft t) (h' : t.WindowsLeft u) : s.WindowsLeft u where
  chan c := by rw [h'.chan, h.chan]
  slot n := ⟨(h'.slot n).1.trans (h.slot n).1, (h'.slot n).2.trans (h.slot n).2⟩
  entry i := (h'.entry i).trans (h.entry i)

theorem State.WindowsLeft.sameWindow (h : s.WindowsLeft t) (c : ChanId) : s.SameWindow t c :=
  ⟨h.chan c, fun n _ => h.slot n, fun i _ => h.entry i⟩

theorem State.WindowsLeft.ownerOf (h : s.WindowsLeft t) (n : Nat) : t.ownerOf n = s.ownerOf n :=
  State.ownerOf_congr fun c => (h.sameWindow c).owns n

/-- An EMPTY slot that obeys the laws is as it was after reset. -/
theorem Slot.eq_empty {x : Slot} (h : x.lawful) (he : x.state = .empty) : x = {} := by
  obtain ⟨hfree, hzero, -, -⟩ := h
  obtain ⟨hl, hp⟩ := hfree (by simp [he])
  have hr := hzero he
  cases x
  simp_all

theorem State.WindowsLeft.recordingOk (h : s.WindowsLeft t) (hlaw : t.slotsLawful) (hs : s.recordingOk) : t.recordingOk := by
  obtain ⟨hlists, hlisted, hfree⟩ := hs
  refine ⟨fun c => ?_, fun n hn => ?_, fun n hn => ?_⟩
  · have hc := hlists c
    rw [h.chan c]
    dsimp only
    split_ifs at hc ⊢ with hbusy
    · obtain ⟨hlen, hnodup, hrec⟩ := hc
      refine ⟨?_, ?_, fun j n hj => ?_⟩
      · rw [h.chan c]
        exact hlen
      · rw [h.chan c]
        exact hnodup
      · rw [h.chan c] at hj ⊢
        obtain ⟨howner, hstate, hrfn⟩ := hrec j n hj
        exact ⟨(h.ownerOf n).trans howner, (h.slot n).1.trans hstate, (h.slot n).2.trans hrfn⟩
    · exact hc
  · obtain ⟨c, hc⟩ := hlisted n (by rw [← (h.slot n).1]; exact hn)
    refine ⟨c, ?_⟩
    rw [h.chan c]
    exact hc
  · rw [h.ownerOf] at hn
    refine Slot.eq_empty (hlaw n) ?_
    rw [(h.slot n).1, hfree n hn]

/-! ## The work of one channel -/

/-- From `s` to `t` channel `c` has worked: the loops are the same, and beside its own nothing has changed of records, slots and index
entries. -/
structure State.WorksAt (s t : State) (c : ChanId) : Prop where
  loops : ∀ d n, (t.chan d).owns n = (s.chan d).owns n
  others : ∀ d, d ≠ c → t.chan d = s.chan d
  slot : ∀ n, (s.chan c).owns n ≠ true → t.slot n = s.slot n
  entry : ∀ i, (s.chan c).owns i ≠ true → t.entry i = s.entry i

theorem State.WorksAt.trans (h : s.WorksAt t c) (h' : t.WorksAt u c) : s.WorksAt u c where
  loops d n := (h'.loops d n).trans (h.loops d n)
  others d hd := (h'.others d hd).trans (h.others d hd)
  slot n hn := (h'.slot n (by rw [h.loops]; exact hn)).trans (h.slot n hn)
  entry i hi := (h'.entry i (by rw [h.loops]; exact hi)).trans (h.entry i hi)

/-- A change of the channel's record that leaves its loop, with events raised and mail sent. -/
theorem State.WorksAt.of_record (hloop : (t.chan c).SameLoop (s.chan c)) (hothers : ∀ d, d ≠ c → t.chan d = s.chan d)
    (hslots : t.slots = s.slots) (hindex : t.index = s.index) : s.WorksAt t c where
  loops d n := by
    by_cases hd : d = c
    · subst hd
      exact hloop.owns n
    · rw [hothers d hd]
  others := hothers
  slot n _ := State.slot_congr hslots n
  entry i _ := State.entry_congr hindex i

theorem State.WorksAt.sameWindow (h : s.WorksAt t c) (hg : s.geometryOk) (hd : d ≠ c) : s.SameWindow t d := by
  have hapart (n : Nat) (hn : (s.chan d).owns n = true) : (s.chan c).owns n ≠ true := fun hc => hg.2 d c n hd ⟨hn, hc⟩
  refine ⟨by rw [h.others d hd], fun n hn => ?_, fun i hi => h.entry i (hapart i hi)⟩
  rw [h.slot n (hapart n hn)]
  exact ⟨rfl, rfl⟩

/-- The slots in RECORDING after the work of one channel. -/
theorem State.WorksAt.recordingOk (h : s.WorksAt t c) (hg : s.geometryOk) (hs : s.recordingOk)
    (hlist : if (t.chan c).state = .recording ∨ (t.chan c).state = .stopping then t.periodTaken c else (t.chan c).phaseSlots = [])
    (hlisted : ∀ n, (s.chan c).owns n = true → (t.slot n).state = .recording → n ∈ (t.chan c).phaseSlots) : t.recordingOk := by
  obtain ⟨hlists, hrecording, hfree⟩ := hs
  have howner (n : Nat) : t.ownerOf n = s.ownerOf n := State.ownerOf_congr fun d => h.loops d n
  refine ⟨fun d => ?_, fun n hn => ?_, fun n hn => ?_⟩
  · by_cases hd : d = c
    · subst hd
      exact hlist
    · have hdlist := hlists d
      rw [h.others d hd]
      split_ifs at hdlist ⊢ with hbusy
      · obtain ⟨hlen, hnodup, hrec⟩ := hdlist
        refine ⟨by rw [h.others d hd]; exact hlen, by rw [h.others d hd]; exact hnodup, fun j n hj => ?_⟩
        rw [h.others d hd] at hj ⊢
        obtain ⟨hown, hstate, hrfn⟩ := hrec j n hj
        have hn : (s.chan c).owns n ≠ true := fun hc => hg.2 d c n hd ⟨s.owns_of_ownerOf n d hown, hc⟩
        rw [howner, h.slot n hn]
        exact ⟨hown, hstate, hrfn⟩
      · exact hdlist
  · by_cases hc : (s.chan c).owns n = true
    · exact ⟨c, hlisted n hc hn⟩
    · rw [h.slot n hc] at hn
      obtain ⟨d, hd⟩ := hrecording n hn
      by_cases hdc : d = c
      · subst hdc
        have hdlist := hlists d
        split_ifs at hdlist
        · obtain ⟨-, -, hrec⟩ := hdlist
          obtain ⟨j, hj, hget⟩ := List.getElem_of_mem hd
          exact absurd (s.owns_of_ownerOf n d (hrec j n (by rw [List.getElem?_eq_getElem hj, hget])).1) hc
        · rw [hdlist] at hd
          cases hd
      · exact ⟨d, by rw [h.others d hdc]; exact hd⟩
  · rw [howner] at hn
    have hc : (s.chan c).owns n ≠ true := fun hc => by
      rw [s.ownerOf_of_owns n c hg.2 hc] at hn
      cases hn
    rw [h.slot n hc]
    exact hfree n hn

/-- A slot in RECORDING of a loop is in its channel's list. -/
theorem State.recordingOk_listed (hg : s.geometryOk) (hs : s.recordingOk) {n : Nat} (hn : (s.chan c).owns n = true)
    (hrec : (s.slot n).state = .recording) : n ∈ (s.chan c).phaseSlots := by
  obtain ⟨hlists, hrecording, -⟩ := hs
  obtain ⟨d, hd⟩ := hrecording n hrec
  have hdlist := hlists d
  split_ifs at hdlist
  · obtain ⟨-, -, htaken⟩ := hdlist
    obtain ⟨j, hj, hget⟩ := List.getElem_of_mem hd
    have howner := (htaken j n (by rw [List.getElem?_eq_getElem hj, hget])).1
    rw [s.ownerOf_of_owns n c hg.2 hn, Option.some.injEq] at howner
    rw [howner]
    exact hd
  · rw [hdlist] at hd
    cases hd

theorem State.recordingOk_idle (hs : s.recordingOk) (hidle : ¬((s.chan c).state = .recording ∨ (s.chan c).state = .stopping)) :
    (s.chan c).phaseSlots = [] := by
  have h := hs.1 c
  rwa [if_neg hidle] at h

theorem State.recordingOk_taken (hs : s.recordingOk) (hbusy : (s.chan c).state = .recording ∨ (s.chan c).state = .stopping) :
    s.periodTaken c := by
  have h := hs.1 c
  rwa [if_pos hbusy] at h

end

end Sys2Proof.Machine
end

section
/-! PROOFS. FullPeriod.lean: the reserve leaves the allocation its P slots, and the window and the period in RECORDING fit into the
loop together (R11, R24, R35, R37). -/

namespace Sys2Proof.Machine

/-! ## Pinned slots -/

/-- The slots that the heads hold pins on. -/
def Pins.slots (g : Pins) : Finset Nat := Finset.univ.biUnion fun d : HeadId => (g d).1.toFinset ∪ (g d).2.toFinset

theorem Pins.card_slots_le (g : Pins) : g.slots.card ≤ 8 := by
  have hhead (d : HeadId) : ((g d).1.toFinset ∪ (g d).2.toFinset).card ≤ 2 := by
    have hone (o : Option Nat) : o.toFinset.card ≤ 1 := by cases o <;> simp
    have h1 := hone (g d).1
    have h2 := hone (g d).2
    have := Finset.card_union_le (g d).1.toFinset (g d).2.toFinset
    omega
  have hsum := Finset.card_biUnion_le_card_mul Finset.univ (fun d : HeadId => (g d).1.toFinset ∪ (g d).2.toFinset) 2
    fun d _ => hhead d
  simpa [Pins.slots] using hsum

theorem Pins.mem_slots {g : Pins} {n : Nat} (h : g.on n ≠ 0) : n ∈ g.slots := by
  obtain ⟨d, -, hd⟩ := Finset.exists_ne_zero_of_sum_ne_zero h
  refine Finset.mem_biUnion.2 ⟨d, Finset.mem_univ d, ?_⟩
  simp only [Finset.mem_union, Option.mem_toFinset, Option.mem_def]
  by_contra hno
  rw [not_or] at hno
  exact hd (by simp [heldPins, pinOn, hno])

/-! ## The reserve (R11, R24, R35) -/

section
variable {s : State} {c : ChanId} {g : Pins}

theorem State.loop_of_shaped (hg : s.geometryOk) (hon : (s.chan c).state ≠ .off) :
    2 * (s.chan c).phases + 8 ≤ (s.chan c).reserve ∧ (s.chan c).reserve ≤ (s.chan c).len / 2 ∧
      (s.chan c).cursor < (s.chan c).len := by
  obtain ⟨-, -, hshape⟩ := (Channel.shaped_iff _).1 (hg.1 c)
  obtain ⟨-, -, hlow, hhigh, hcursor⟩ := hshape hon
  exact ⟨hlow, hhigh, hcursor⟩

theorem Channel.circuit_nodup {ch : Channel} {pos f : Nat} (hpos : pos < ch.len) (hf : f ≤ ch.len) : (ch.circuit pos f).Nodup := by
  induction f generalizing pos with
  | zero => simp [Channel.circuit]
  | succ f ih =>
    rw [Channel.circuit_succ _ _ _ hpos, List.nodup_cons]
    exact ⟨ch.notMem_circuit_succ pos f hpos hf, ih (Nat.mod_lt _ (by omega)) (by omega)⟩

theorem Channel.circuit_length (ch : Channel) (pos f : Nat) : (ch.circuit pos f).length = f := by simp [Channel.circuit]

/-- A slot of the loop that is not RECORDING and cannot be taken is locked or pinned. -/
theorem State.used_of_not_free {n : Nat} (hrec : (s.slot n).state ≠ .recording) (hfree : s.free n = false) :
    (s.slot n).locks ≠ 0 ∨ (s.slot n).pins ≠ 0 := by
  rw [State.free, decide_eq_false_iff_not] at hfree
  by_contra hno
  rw [not_or, not_not, not_not] at hno
  exact hfree ⟨hrec, hno⟩

/-- The allocation finds P free slots: locks leave the reserve, and of it at most eight slots are pinned and P fresh. -/
theorem State.nextSlots_full (hg : s.geometryOk) (hl : s.locksAgree) (hp : PinsTrue (s, g)) (hon : (s.chan c).state ≠ .off)
    {fresh : List Nat} (hfresh : fresh.length ≤ (s.chan c).phases)
    (hrec : ∀ n, (s.chan c).owns n = true → (s.slot n).state ≠ .recording) :
    (s.nextSlots c fresh).length = (s.chan c).phases := by
  obtain ⟨hlow, hhigh, hcursor⟩ := State.loop_of_shaped hg hon
  obtain ⟨hlocked, hallowed⟩ := hl.1 c
  obtain ⟨l, hl'⟩ : ∃ l, (s.chan c).circuit (s.chan c).cursor (s.chan c).len = l := ⟨_, rfl⟩
  have hnodup : l.Nodup := hl' ▸ Channel.circuit_nodup hcursor le_rfl
  have hlen : l.length = (s.chan c).len := hl' ▸ Channel.circuit_length ..
  have hmem (n : Nat) (hn : n ∈ l) : (s.chan c).owns n = true ∧ n ∈ (s.chan c).loopSlots := by
    rw [← hl', Channel.mem_circuit_len hcursor] at hn
    exact ⟨((s.chan c).owns_iff n).2 ⟨hon, hn⟩, ((s.chan c).mem_loopSlots n).2 hn⟩
  obtain ⟨p, hpdef⟩ : ∃ p : Nat → Bool, (fun m => decide (m ∉ fresh) && s.free m) = p := ⟨_, rfl⟩
  have hsplit : (l.filter p).length + (l.filter (fun m => !p m)).length = l.length :=
    (List.length_eq_length_filter_add p).symm
  have hused : (l.filter (fun m => !p m)).length ≤ fresh.length + (s.chan c).locked + 8 := by
    obtain ⟨locked, hlk⟩ : ∃ locked, (s.chan c).loopSlots.filter (fun n => decide ((s.slot n).locks ≠ 0)) = locked := ⟨_, rfl⟩
    have hsub : (l.filter (fun m => !p m)).toFinset ⊆ fresh.toFinset ∪ locked.toFinset ∪ g.slots := by
      intro n hn
      rw [List.mem_toFinset, List.mem_filter] at hn
      obtain ⟨hnl, hnp⟩ := hn
      obtain ⟨hown, hloop⟩ := hmem n hnl
      rw [Finset.mem_union, Finset.mem_union, List.mem_toFinset, List.mem_toFinset]
      by_cases hf : n ∈ fresh
      · exact .inl (.inl hf)
      have hfree : s.free n = false := by
        rw [← hpdef] at hnp
        simpa [hf] using hnp
      obtain hlocks | hpins := State.used_of_not_free (hrec n hown) hfree
      · refine .inl (.inr ?_)
        rw [← hlk, List.mem_filter]
        exact ⟨hloop, by simpa using hlocks⟩
      · exact .inr (Pins.mem_slots (by rw [← hp.count n]; exact hpins))
    have hcard := Finset.card_le_card hsub
    rw [List.toFinset_card_of_nodup (hnodup.filter _)] at hcard
    have h1 := Finset.card_union_le (fresh.toFinset ∪ locked.toFinset) g.slots
    have h2 := Finset.card_union_le fresh.toFinset locked.toFinset
    have h3 := g.card_slots_le
    have h4 := fresh.toFinset_card_le
    have h5 := locked.toFinset_card_le
    have h6 : locked.length = (s.chan c).locked := by
      rw [hlocked, State.lockedSlots, hlk]
    omega
  rw [State.nextSlots, hl', hpdef, List.length_take]
  omega

/-! ## The window and the period fit into the loop (R37) -/

/-- The window's frames and P slots in RECORDING lie apart in the loop. -/
theorem State.windowOk_room (hw : s.windowOk c) (htail : (s.chan c).tail ≤ (s.chan c).nextRfn) {ns : List Nat} (hns : ns.Nodup)
    (hrec : ∀ n ∈ ns, (s.chan c).owns n = true ∧ (s.slot n).state = .recording) :
    (s.chan c).nextRfn + ns.length ≤ (s.chan c).tail + (s.chan c).len := by
  obtain ⟨-, hframes⟩ := hw
  obtain ⟨f, hf⟩ : ∃ f : Nat → Nat, f = fun r => (s.entry ((s.chan c).firstSlot + r % (s.chan c).len)).slot := ⟨_, rfl⟩
  have hat (r : Nat) (hr : r ∈ Finset.Ico (s.chan c).tail (s.chan c).nextRfn) :
      (s.chan c).owns (f r) = true ∧ (s.slot (f r)).state = .held ∧ (s.slot (f r)).rfn = r := by
    rw [Finset.mem_Ico] at hr
    obtain ⟨n, ⟨-, hentry, hheld, hrfn⟩, hown⟩ := hframes r hr.1 hr.2
    have hfr : f r = n := by rw [hf]; exact congrArg IndexEntry.slot hentry
    rw [hfr]
    exact ⟨hown, hheld, hrfn⟩
  have hinj : Set.InjOn f (Finset.Ico (s.chan c).tail (s.chan c).nextRfn) := fun a ha b hb hab => by
    rw [← (hat a ha).2.2, ← (hat b hb).2.2, hab]
  have hdisjoint : Disjoint ((Finset.Ico (s.chan c).tail (s.chan c).nextRfn).image f) ns.toFinset := by
    rw [Finset.disjoint_left]
    intro n hn hmem
    obtain ⟨r, hr, rfl⟩ := Finset.mem_image.1 hn
    have h1 := (hat r hr).2.1
    have h2 := (hrec _ (List.mem_toFinset.1 hmem)).2
    rw [h1] at h2
    cases h2
  have hsub : (Finset.Ico (s.chan c).tail (s.chan c).nextRfn).image f ∪ ns.toFinset ⊆ (s.chan c).loopSlots.toFinset := by
    intro n hn
    rw [List.mem_toFinset, Channel.mem_loopSlots]
    rw [Finset.mem_union] at hn
    have hown : (s.chan c).owns n = true := by
      obtain hn | hn := hn
      · obtain ⟨r, hr, rfl⟩ := Finset.mem_image.1 hn
        exact (hat r hr).1
      · exact (hrec n (List.mem_toFinset.1 hn)).1
    exact (((s.chan c).owns_iff n).1 hown).2
  have hcard := Finset.card_le_card hsub
  rw [Finset.card_union_of_disjoint hdisjoint, Finset.card_image_of_injOn hinj, List.toFinset_card_of_nodup hns, Nat.card_Ico,
    List.toFinset_card_of_nodup (Channel.loopSlots_nodup _), Channel.loopSlots, List.length_map, List.length_range] at hcard
  omega

end

end Sys2Proof.Machine
end

section
/-! PROOFS. WindowTick.lean: a channel's tick keeps its window, its period and its phase slot list (R30 to R37). -/

namespace Sys2Proof.Machine

/-! ## The commit of a period (R31, R37) -/

section
variable {s t : State} {c : ChanId}

/-- The slots of a period in RECORDING lie in the loop. -/
theorem State.periodTaken_mem (hp : s.periodTaken c) {n : Nat} (hn : n ∈ (s.chan c).phaseSlots) :
    (s.chan c).owns n = true ∧ (s.slot n).state = .recording := by
  obtain ⟨-, -, hrec⟩ := hp
  obtain ⟨j, hj, hget⟩ := List.getElem_of_mem hn
  obtain ⟨howner, hstate, -⟩ := hrec j n (by rw [List.getElem?_eq_getElem hj, hget])
  exact ⟨s.owns_of_ownerOf n c howner, hstate⟩

/-- What the commit of a period leaves: channel `c` has worked, and its window holds the period. -/
structure State.PeriodKept (s t : State) (c : ChanId) : Prop where
  works : s.WorksAt t c
  chan : t.chan c = { s.chan c with nextRfn := (s.chan c).nextRfn + (s.chan c).phases }
  window : t.windowOk c
  committed : ∀ n, (s.chan c).owns n = true → (t.slot n).state ≠ .recording

theorem State.commitPeriod_kept (hg : s.geometryOk) (hs : s.recordingOk) (hw : s.windowOk c)
    (htail : (s.chan c).tail ≤ (s.chan c).nextRfn) (hbusy : (s.chan c).state = .recording ∨ (s.chan c).state = .stopping) :
    s.PeriodKept (s.commitPeriod c) c := by
  have hon : (s.chan c).state ≠ .off := by rcases hbusy with h | h <;> simp [h]
  have hp := State.recordingOk_taken hs hbusy
  have ⟨hlen, hnodup, _⟩ := hp
  have hroom := State.windowOk_room hw htail hnodup fun n hn => State.periodTaken_mem hp hn
  obtain ⟨v, hv, hu⟩ := State.commitPeriod_committed hg hon hp
  obtain ⟨h1, hple, hcursor⟩ := State.phases_le_len hg hon
  have hchan := State.commitPeriod_chan s c
  have hslot (n : Nat) : (s.commitPeriod c).slot n = v.slot n := by rw [hu]; rfl
  have hentry (i : Nat) : (s.commitPeriod c).entry i = v.entry i := by rw [hu]; rfl
  generalize s.commitPeriod c = u at hchan hslot hentry
  have hself := (hchan c).trans (if_pos rfl)
  have hworks : s.WorksAt u c := by
    refine ⟨fun d n => ?_, fun d hd => (hchan d).trans (if_neg hd), fun n hn => ?_, fun i hi => ?_⟩
    · rw [hchan d]
      split_ifs with hd
      · subst hd
        rfl
      · rfl
    · rw [hslot, hv.slot, if_neg fun hmem => hn (State.periodTaken_mem hp hmem).1]
    · rw [hentry]
      refine hv.others i fun j _ hij => hi ?_
      rw [hij]
      exact Channel.owns_entryOf hon (by omega) _
  refine ⟨hworks, hself, ⟨?_, fun r hlo hhi => ?_⟩, fun n hn hrec => ?_⟩
  · rw [hself]
    dsimp only
    omega
  · rw [hself] at hlo hhi
    dsimp only at hlo hhi
    obtain ⟨n, hn, hown⟩ : ∃ n, (v.entry ((s.chan c).firstSlot + r % (s.chan c).len) = { valid := true, slot := n } ∧
        (v.slot n).state = .held ∧ (v.slot n).rfn = r) ∧ (s.chan c).owns n = true := by
      by_cases hr : r < (s.chan c).nextRfn
      · obtain ⟨n, ⟨-, hent, hheld, hrfn⟩, hown⟩ := hw.2 r hlo hr
        have hnot : n ∉ (s.chan c).phaseSlots := fun hmem => by
          have hrec := (State.periodTaken_mem hp hmem).2
          rw [hheld] at hrec
          cases hrec
        refine ⟨n, ⟨?_, ?_⟩, hown⟩
        · rw [hv.others _ fun j hj => ?_]
          · exact hent
          · have hne := add_mod_ne (q := r) (j := (s.chan c).nextRfn + j - r) (n := (s.chan c).len) (by omega) (by omega)
            rw [show r + ((s.chan c).nextRfn + j - r) = (s.chan c).nextRfn + j by omega] at hne
            omega
        · rw [hv.slot, if_neg hnot]
          exact ⟨hheld, hrfn⟩
      · have hj : r - (s.chan c).nextRfn < (s.chan c).phaseSlots.length := by omega
        obtain ⟨n, hget⟩ : ∃ n, (s.chan c).phaseSlots[r - (s.chan c).nextRfn]? = some n := ⟨_, List.getElem?_eq_getElem hj⟩
        obtain ⟨howner, hstate, hrfn⟩ := hp.2.2 _ n hget
        refine ⟨n, ⟨?_, ?_⟩, s.owns_of_ownerOf n c howner⟩
        · have hnamed := hv.named _ n hget
          rwa [show (s.chan c).nextRfn + (r - (s.chan c).nextRfn) = r by omega] at hnamed
        · rw [hv.slot, if_pos (List.mem_of_getElem? hget)]
          exact ⟨rfl, by rw [hrfn]; omega⟩
    obtain ⟨hent, hheld, hrfn⟩ := hn
    refine ⟨n, ⟨?_, ?_, ?_, ?_⟩, ?_⟩
    · rw [hself]
      exact hon
    · rw [hself, hentry]
      exact hent
    · rw [hslot]
      exact hheld
    · rw [hslot]
      exact hrfn
    · rw [hworks.loops]
      exact hown
  · rw [hslot, hv.slot] at hrec
    split_ifs at hrec with hmem
    exact hmem (State.recordingOk_listed hg hs hn hrec)

/-! ## The allocation (R35, R36) -/

theorem State.tailPast_le (s : State) (c : ChanId) (x m : Nat) : x ≤ s.tailPast c x m := by
  unfold State.tailPast
  split_ifs with h
  · omega
  · exact le_rfl

theorem State.foldl_tailPast_le (s : State) (c : ChanId) (l : List Nat) (x : Nat) : x ≤ l.foldl (s.tailPast c) x := by
  induction l generalizing x with
  | nil => exact le_rfl
  | cons m l ih => exact (s.tailPast_le c x m).trans (ih _)

/-- The tail passes every frame of the window whose slot is taken. -/
theorem State.lt_foldl_tailPast {l : List Nat} {n r : Nat} (hn : n ∈ l) (hr : r < (s.chan c).nextRfn) (hat : s.presentAt c r n)
    (x : Nat) : r < l.foldl (s.tailPast c) x := by
  obtain ⟨-, hent, hheld, hrfn⟩ := hat
  induction l generalizing x with
  | nil => cases hn
  | cons m l ih =>
    rw [List.foldl_cons]
    obtain rfl | hn := List.mem_cons.1 hn
    · refine Nat.lt_of_lt_of_le ?_ (s.foldl_tailPast_le c l _)
      unfold State.tailPast
      split_ifs with h
      · omega
      · by_contra hx
        exact h ⟨hheld, by omega, by omega, by rw [hrfn]; exact hent⟩
    · exact ih hn _

/-- What the allocation of a period leaves: channel `c` has worked, its window has lost the frames of the slots taken, and its list
names the slots taken. -/
structure State.PeriodBegun (s t : State) (c : ChanId) : Prop where
  works : s.WorksAt t c
  chan : t.chan c = { s.chan c with cursor := (t.chan c).cursor, tail := (t.chan c).tail, phaseSlots := (t.chan c).phaseSlots }
  window : t.windowOk c
  taken : t.periodTaken c
  listed : ∀ n, (s.chan c).owns n = true → (t.slot n).state = .recording → n ∈ (t.chan c).phaseSlots

theorem State.allocate_begun (hg : s.geometryOk) (hon : (s.chan c).state ≠ .off) (hw : s.windowOk c) {fresh : List Nat}
    (hfull : (s.nextSlots c fresh).length = (s.chan c).phases)
    (hrec : ∀ n, (s.chan c).owns n = true → (s.slot n).state ≠ .recording) : s.PeriodBegun (s.allocate c fresh) c := by
  obtain ⟨v, htook, halloc⟩ := State.allocate_took hg hon fresh
  obtain ⟨-, -, hcursor⟩ := State.phases_le_len hg hon
  obtain ⟨l, hl⟩ : ∃ l, s.nextSlots c fresh = l := ⟨_, rfl⟩
  have hmem (n : Nat) (hn : n ∈ l) : (s.chan c).owns n = true := by
    rw [← hl, State.nextSlots] at hn
    have hcirc := List.mem_of_mem_filter (List.mem_of_mem_take hn)
    rw [Channel.mem_circuit_len hcursor] at hcirc
    exact ((s.chan c).owns_iff n).2 ⟨hon, hcirc⟩
  have hnodup : l.Nodup := by
    rw [← hl, State.nextSlots]
    exact ((Channel.circuit_nodup hcursor le_rfl).filter _).sublist (List.take_sublist _ _)
  rw [hl] at htook halloc hfull
  have hchan (d : ChanId) : (s.allocate c fresh).chan d = if d = c then { v.chan c with phaseSlots := l } else v.chan d := by
    rw [halloc, State.setChan_chan]
  have hslot (n : Nat) : (s.allocate c fresh).slot n = v.slot n := by rw [halloc]; rfl
  have hentry (i : Nat) : (s.allocate c fresh).entry i = s.entry i := by
    rw [halloc]
    exact (congrArg (fun x : State => x.entry i) htook.frame :)
  generalize s.allocate c fresh = u at hchan hslot hentry
  have hself : u.chan c = { s.chan c with
      cursor := (s.chan c).cursorPast l, tail := l.foldl (s.tailPast c) (s.chan c).tail, phaseSlots := l } := by
    rw [hchan, if_pos rfl, htook.chan]
  have hworks : s.WorksAt u c := by
    refine ⟨fun d n => ?_, fun d hd => ?_, fun n hn => ?_, fun i _ => hentry i⟩
    · by_cases hd : d = c
      · subst hd
        rw [hself]
        rfl
      · rw [hchan, if_neg hd, htook.others d hd]
    · rw [hchan, if_neg hd, htook.others d hd]
    · rw [hslot, htook.kept n fun h => hn (hmem n h)]
  have htaken {j m : Nat} (hj : l[j]? = some m) :
      u.slot m = { state := .recording, rfn := (s.chan c).nextRfn + j, locks := 0, pins := 0 } := by
    rw [hslot]
    exact htook.took_period hfull.le hj
  refine ⟨hworks, by rw [hself], ⟨?_, fun r hlo hhi => ?_⟩, ⟨?_, ?_, fun j n hj => ?_⟩, fun n hn hstate => ?_⟩
  · rw [hself]
    have := s.foldl_tailPast_le c l (s.chan c).tail
    have := hw.1
    dsimp only
    omega
  · rw [hself] at hlo hhi
    have hpast := s.foldl_tailPast_le c l (s.chan c).tail
    obtain ⟨n, hat, hown⟩ := hw.2 r (hpast.trans hlo) hhi
    have hnot : n ∉ l := fun hn => absurd (State.lt_foldl_tailPast hn hhi hat (s.chan c).tail) (Nat.not_lt.2 hlo)
    obtain ⟨-, hent, hheld, hrfn⟩ := hat
    have hkept : u.slot n = s.slot n := by rw [hslot, htook.kept n hnot]
    refine ⟨n, ⟨by rw [hself]; exact hon, ?_, by rw [hkept]; exact hheld, by rw [hkept]; exact hrfn⟩, ?_⟩
    · rw [hself, hentry]
      exact hent
    · rw [hworks.loops]
      exact hown
  · rw [hself]
    exact hfull
  · rw [hself]
    exact hnodup
  · rw [hself] at hj ⊢
    have howner : u.ownerOf n = s.ownerOf n := State.ownerOf_congr fun d => hworks.loops d n
    rw [howner, s.ownerOf_of_owns n c hg.2 (hmem n (List.mem_of_getElem? hj)), htaken hj]
    exact ⟨rfl, rfl, rfl⟩
  · rw [hself]
    by_contra hnot
    rw [hslot, htook.kept n hnot] at hstate
    exact hrec n hn hstate

end

end Sys2Proof.Machine
end

section
/-! PROOFS. WindowWork.lean: the work of a channel keeps its window and the slots in RECORDING, and leaves the other windows (R21 to
R37). -/

namespace Sys2Proof.Machine

/-! ## What holds between the operations of the events -/

/-- The slot laws, the loops, the locked counts, the numbering and the slots in RECORDING. -/
structure State.Recorded (s : State) : Prop where
  books : s.lockBooks
  numbers : s.numbersOk
  recording : s.recordingOk

/-- From `s` to `t` channel `c` has worked: the other windows are left, and its own is a window. -/
structure State.WindowWork (s t : State) (c : ChanId) : Prop where
  recording : t.recordingOk
  others : ∀ d, d ≠ c → s.SameWindow t d
  window : (t.chan c).state ≠ .off → t.windowOk c

section
variable {s t u : State} {c : ChanId}

theorem State.Recorded.lawful (h : s.Recorded) : s.slotsLawful := h.books.1
theorem State.Recorded.geometry (h : s.Recorded) : s.geometryOk := h.books.2.1
theorem State.Recorded.locks (h : s.Recorded) : s.locksAgree := h.books.2.2

theorem State.WindowsLeft.windowWork (h : s.WindowsLeft t) (hlaw : t.slotsLawful) (hs : s.recordingOk)
    (hw : (s.chan c).state ≠ .off → s.windowOk c) : s.WindowWork t c := by
  have hstate : (t.chan c).state = (s.chan c).state := by rw [h.chan c]
  exact ⟨h.recordingOk hlaw hs, fun d _ => h.sameWindow d, fun hon => (h.sameWindow c).windowOk (hstate ▸ hon) (hw (hstate ▸ hon))⟩

theorem State.WorksAt.windowWork (h : s.WorksAt t c) (hg : s.geometryOk) (hs : s.recordingOk)
    (hlist : if (t.chan c).state = .recording ∨ (t.chan c).state = .stopping then t.periodTaken c else (t.chan c).phaseSlots = [])
    (hlisted : ∀ n, (s.chan c).owns n = true → (t.slot n).state = .recording → n ∈ (t.chan c).phaseSlots) (hw : t.windowOk c) :
    s.WindowWork t c :=
  ⟨h.recordingOk hg hs hlist hlisted, fun _ hd => h.sameWindow hg hd, fun _ => hw⟩

/-- A window is a window where the record keeps the numbering and the loop, and slots and index are as they were. -/
theorem State.windowOk_of_record (hw : s.windowOk c) (hon : (t.chan c).state ≠ .off)
    (hchan : (t.chan c).firstSlot = (s.chan c).firstSlot ∧ (t.chan c).len = (s.chan c).len ∧ (t.chan c).tail = (s.chan c).tail ∧
      (t.chan c).nextRfn = (s.chan c).nextRfn) (hslot : ∀ n, t.slot n = s.slot n) (hentry : ∀ i, t.entry i = s.entry i) :
    t.windowOk c := by
  obtain ⟨hfirst, hlen, htail, hnext⟩ := hchan
  obtain ⟨hle, hframes⟩ := hw
  refine ⟨by rw [hnext, htail, hlen]; exact hle, fun r hlo hhi => ?_⟩
  obtain ⟨n, ⟨-, hent, hheld, hrfn⟩, hown⟩ := hframes r (by rw [← htail]; exact hlo) (by rw [← hnext]; exact hhi)
  refine ⟨n, ⟨hon, by rw [hfirst, hlen, hentry]; exact hent, by rw [hslot]; exact hheld, by rw [hslot]; exact hrfn⟩, ?_⟩
  rw [Channel.owns_iff] at hown ⊢
  rw [hfirst, hlen]
  exact ⟨hon, hown.2⟩

/-! ## The end of a recording (R26, R27, R33, R34) -/

theorem State.endRecording_windowWork (hg : s.geometryOk) (hs : s.recordingOk) (hu : s.WorksAt u c) (hon : (u.chan c).state ≠ .off)
    (hw : u.windowOk c) (hrec : ∀ n, (s.chan c).owns n = true → (u.slot n).state ≠ .recording) (q : StopCause) (n : Word) :
    s.WindowWork (u.endRecording c q n) c := by
  have hchan := fun d => u.endRecording_chan c d q n
  have hself := (hchan c).trans (if_pos rfl)
  have hslot (m : Nat) : (u.endRecording c q n).slot m = u.slot m := rfl
  have hentry (i : Nat) : (u.endRecording c q n).entry i = u.entry i := rfl
  have hslots : (u.endRecording c q n).slots = u.slots := rfl
  have hindex : (u.endRecording c q n).index = u.index := rfl
  generalize u.endRecording c q n = t at hchan hself hslot hentry hslots hindex
  have hworks : u.WorksAt t c := by
    refine .of_record ?_ (fun d hd => (hchan d).trans (if_neg hd)) hslots hindex
    rw [hself]
    exact .of rfl (iff_of_false (by simp) hon) id
  refine (hu.trans hworks).windowWork hg hs ?_ (fun m hm hstate => absurd hstate (by rw [hslot]; exact hrec m hm)) ?_
  · rw [hself]
    simp
  · exact State.windowOk_of_record hw (by rw [hself]; simp) (by rw [hself]; exact ⟨rfl, rfl, rfl, rfl⟩) hslot hentry

/-! ## The tick (R29 to R36) -/

end

section
variable {s t u : State} {c : ChanId} {g : Pins}

/-- A change of the stray flag. -/
theorem State.strayed_left (s : State) (c : ChanId) (b : Bool) : s.WindowsLeft (s.setChan c { s.chan c with stray := b }) where
  chan d := by
    rw [State.setChan_chan]
    split_ifs with hd
    · subst hd
      rfl
    · rfl
  slot _ := ⟨rfl, rfl⟩
  entry _ := rfl

theorem State.WindowWork.after (h : s.WindowsLeft t) (h' : t.WindowWork u c) : s.WindowWork u c :=
  ⟨h'.recording, fun d hd => (h.sameWindow d).trans (h'.others d hd), h'.window⟩

theorem PinsTrue.of_slots (hp : PinsTrue (s, g)) (hlaw : t.slotsLawful) (hpins : ∀ n, (t.slot n).pins = (s.slot n).pins) :
    PinsTrue (t, g) := ⟨hlaw, fun n => (hpins n).trans (hp.count n)⟩

/-- The first period of an ARMED channel. -/
theorem State.armed_windowWork (hs : s.Recorded) (hp : PinsTrue (s, g)) (harmed : (s.chan c).state = .armed) (hw : s.windowOk c)
    (n : Word) : s.WindowWork (((s.allocate c []).setChan c { (s.allocate c []).chan c with state := .recording }).raiseAt
      .channelRecording .none c.val (s.chan c).phases (BitVec.ofNat 32 (s.chan c).nextRfn) n) c := by
  have hon : (s.chan c).state ≠ .off := by simp [harmed]
  have hlist := State.recordingOk_idle hs.recording (c := c) (by simp [harmed])
  have hrec (m : Nat) (hm : (s.chan c).owns m = true) : (s.slot m).state ≠ .recording := fun h => by
    have hmem := State.recordingOk_listed hs.geometry hs.recording hm h
    rw [hlist] at hmem
    cases hmem
  have hfull := State.nextSlots_full hs.geometry hs.locks hp hon (fresh := []) (by simp) hrec
  obtain ⟨hworks, hchan, hwindow, htaken, hlisted⟩ := State.allocate_begun hs.geometry hon hw hfull hrec
  generalize s.allocate c [] = u at hworks hchan hwindow htaken hlisted
  generalize ht : State.raiseAt _ _ _ _ _ _ _ = t
  have hself : t.chan c = { u.chan c with state := .recording } := by
    rw [← ht]
    simp
  have hothers (d : ChanId) (hd : d ≠ c) : t.chan d = u.chan d := by
    rw [← ht]
    simp [hd]
  have hslot (m : Nat) : t.slot m = u.slot m := by
    rw [← ht]
    rfl
  have hentry (i : Nat) : t.entry i = u.entry i := by
    rw [← ht]
    rfl
  have huon : (u.chan c).state ≠ .off := by
    rw [hchan]
    exact hon
  have hset : u.WorksAt t c := by
    refine .of_record ?_ hothers (by rw [← ht]; rfl) (by rw [← ht]; rfl)
    rw [hself]
    exact .of rfl (iff_of_false (by simp) huon) id
  refine (hworks.trans hset).windowWork hs.geometry hs.recording ?_ (fun m hm hstate => ?_)
    (State.windowOk_of_record hwindow (by rw [hself]; simp) (by rw [hself]; exact ⟨rfl, rfl, rfl, rfl⟩) hslot hentry)
  · rw [if_pos (by rw [hself]; exact .inl rfl)]
    obtain ⟨hlen, hnodup, hslots⟩ := htaken
    refine ⟨by rw [hself]; exact hlen, by rw [hself]; exact hnodup, fun j m hj => ?_⟩
    rw [hself] at hj ⊢
    rw [State.ownerOf_congr fun d => hset.loops d m, hslot]
    exact hslots j m hj
  · rw [hself]
    exact hlisted m hm (by rw [← hslot]; exact hstate)

/-- The next period of a RECORDING channel. -/
theorem State.nextPeriod_windowWork (hs : s.Recorded) (hp : PinsTrue (s, g)) (hrecording : (s.chan c).state = .recording)
    (hw : s.windowOk c) : s.WindowWork ((s.commitPeriod c).allocate c (s.chan c).phaseSlots) c := by
  have hbusy : (s.chan c).state = .recording ∨ (s.chan c).state = .stopping := .inl hrecording
  obtain ⟨hlen, -, -⟩ := State.recordingOk_taken hs.recording hbusy
  obtain ⟨hworks, hchan, hwindow, hcommitted⟩ := State.commitPeriod_kept hs.geometry hs.recording hw (hs.numbers c).1 hbusy
  have hbooks := lockBooks_kept.channel.commitPeriod s c hs.books
  have hpins := (s.samePins_kept.commitPeriod s c (.refl hs.lawful)).pins
  generalize s.commitPeriod c = u at hworks hchan hwindow hcommitted hbooks hpins
  have hon : (u.chan c).state ≠ .off := by
    rw [hchan]
    simp [hrecording]
  have howns (m : Nat) : (u.chan c).owns m = (s.chan c).owns m := hworks.loops c m
  have hrec (m : Nat) (hm : (u.chan c).owns m = true) : (u.slot m).state ≠ .recording := hcommitted m (by rw [← howns]; exact hm)
  have hfull := State.nextSlots_full hbooks.2.1 hbooks.2.2 (hp.of_slots hbooks.1 hpins) hon
    (fresh := (s.chan c).phaseSlots) (by rw [hlen, hchan]) hrec
  obtain ⟨hworks', hchan', hwindow', htaken, hlisted⟩ := State.allocate_begun hbooks.2.1 hon hwindow hfull hrec
  refine (hworks.trans hworks').windowWork hs.geometry hs.recording ?_ (fun m hm => hlisted m (by rw [howns]; exact hm)) hwindow'
  rw [if_pos (by rw [hchan', hchan]; exact hbusy)]
  exact htaken

/-- The last period of a channel. -/
theorem State.lastPeriod_windowWork (hs : s.Recorded) (hbusy : (s.chan c).state = .recording ∨ (s.chan c).state = .stopping)
    (hw : s.windowOk c) (q : StopCause) (n : Word) : s.WindowWork ((s.commitPeriod c).endRecording c q n) c := by
  obtain ⟨hworks, hchan, hwindow, hcommitted⟩ := State.commitPeriod_kept hs.geometry hs.recording hw (hs.numbers c).1 hbusy
  refine State.endRecording_windowWork hs.geometry hs.recording hworks ?_ hwindow hcommitted q n
  rw [hchan]
  rcases hbusy with h | h <;> simp [h]

theorem State.tickChannel_windowWork (hs : s.Recorded) (hp : PinsTrue (s, g)) (hw : (s.chan c).state ≠ .off → s.windowOk c)
    (n : Word) : s.WindowWork (s.tickChannel c n) c := by
  have hleft := s.strayed_left c false
  have hbooks := lockBooks_kept.record s c { s.chan c with stray := false } (.of rfl .rfl id) hs.books
  have hnumbers : (s.setChan c { s.chan c with stray := false }).numbersOk :=
    State.numbersOk_setChan (c := c) (Channel.numbered_of (hs.numbers c) rfl id) hs.numbers
  obtain ⟨w, hw'⟩ : ∃ w, s.setChan c { s.chan c with stray := false } = w := ⟨_, rfl⟩
  rw [State.tickChannel_eq (w := w) hw'.symm]
  have hpins (m : Nat) : (w.slot m).pins = (s.slot m).pins := by
    rw [← hw']
    rfl
  rw [hw'] at hleft hbooks hnumbers
  have hrecorded : w.Recorded := ⟨hbooks, hnumbers, hleft.recordingOk hbooks.1 hs.recording⟩
  have hp' : PinsTrue (w, g) := hp.of_slots hbooks.1 hpins
  have hsame := hleft.sameWindow c
  have hstate : (w.chan c).state = (s.chan c).state := by rw [hsame.chan]
  have hwindow (hon : (w.chan c).state ≠ .off) : w.windowOk c := hsame.windowOk (hstate ▸ hon) (hw (hstate ▸ hon))
  have hstays : s.WindowWork w c := hleft.windowWork hbooks.1 hs.recording hw
  cases hcase : (w.chan c).state with
  | off => exact hstays
  | ready => exact hstays
  | armed => exact .after hleft (State.armed_windowWork hrecorded hp' hcase (hwindow (by simp [hcase])) n)
  | recording =>
    dsimp only
    split_ifs
    · exact .after hleft (State.lastPeriod_windowWork hrecorded (.inl hcase) (hwindow (by simp [hcase])) _ n)
    · exact .after hleft (State.nextPeriod_windowWork hrecorded hp' hcase (hwindow (by simp [hcase])))
  | stopping => exact .after hleft (State.lastPeriod_windowWork hrecorded (.inr hcase) (hwindow (by simp [hcase])) _ n)

/-! ## CHANNEL_ARM, CHANNEL_STOP and CHANNEL_ABORT (R25 to R27) -/

/-- A change of the channel's state that keeps its list: none for none, a full one for a full one. -/
theorem State.setState_windowWork (hs : s.Recorded) (hon : (s.chan c).state ≠ .off) (hw : s.windowOk c) {x : ChanState} (hx : x ≠ .off)
    (hsame : (x = .recording ∨ x = .stopping) ↔ ((s.chan c).state = .recording ∨ (s.chan c).state = .stopping)) :
    s.WindowWork (s.setChan c { s.chan c with state := x }) c := by
  have hself : (s.setChan c { s.chan c with state := x }).chan c = { s.chan c with state := x } := by simp
  have hothers (d : ChanId) (hd : d ≠ c) : (s.setChan c { s.chan c with state := x }).chan d = s.chan d := by simp [hd]
  have hslots : (s.setChan c { s.chan c with state := x }).slots = s.slots := rfl
  have hindex : (s.setChan c { s.chan c with state := x }).index = s.index := rfl
  generalize s.setChan c { s.chan c with state := x } = t at hself hothers hslots hindex
  have hslot := State.slot_congr hslots
  have hworks : s.WorksAt t c := by
    refine .of_record ?_ hothers hslots hindex
    rw [hself]
    exact .of rfl (iff_of_false hx hon) id
  refine hworks.windowWork hs.geometry hs.recording ?_ (fun m hm hstate => ?_)
    (State.windowOk_of_record hw (by rw [hself]; exact hx) (by rw [hself]; exact ⟨rfl, rfl, rfl, rfl⟩) hslot
      (State.entry_congr hindex))
  · rw [hself]
    dsimp only
    split_ifs with hbusy
    · obtain ⟨hlen, hnodup, hrec⟩ := State.recordingOk_taken hs.recording (hsame.1 hbusy)
      refine ⟨by rw [hself]; exact hlen, by rw [hself]; exact hnodup, fun j m hj => ?_⟩
      rw [hself] at hj ⊢
      rw [State.ownerOf_congr fun d => hworks.loops d m, hslot]
      exact hrec j m hj
    · exact State.recordingOk_idle hs.recording (fun h => hbusy (hsame.2 h))
  · rw [hself]
    exact State.recordingOk_listed hs.geometry hs.recording hm (by rw [← hslot]; exact hstate)

theorem State.windowWork_refl (hs : s.Recorded) (hw : (s.chan c).state ≠ .off → s.windowOk c) : s.WindowWork s c :=
  (State.WindowsLeft.refl s).windowWork hs.lawful hs.recording hw

theorem channelArm_windowWork {r : CmdArgs} (hs : s.Recorded) (ht : targetChan r = some c)
    (hw : (s.chan c).state ≠ .off → s.windowOk c) : s.WindowWork (channelArm r s).1 c := by
  have hstays := State.windowWork_refl hs hw
  unfold channelArm
  rw [ht]
  dsimp only
  split_ifs
  · exact hstays
  · exact hstays
  · cases hstate : (s.chan c).state with
    | off => exact hstays
    | ready => exact State.setState_windowWork hs (by simp [hstate]) (hw (by simp [hstate])) (by simp) (by simp [hstate])
    | armed => exact hstays
    | recording => exact hstays
    | stopping => exact State.setState_windowWork hs (by simp [hstate]) (hw (by simp [hstate])) (by simp) (by simp [hstate])

theorem channelStop_windowWork {r : CmdArgs} (hs : s.Recorded) (ht : targetChan r = some c)
    (hw : (s.chan c).state ≠ .off → s.windowOk c) : s.WindowWork (channelStop r s).1 c := by
  have hstays := State.windowWork_refl hs hw
  unfold channelStop
  rw [ht]
  dsimp only
  cases hstate : (s.chan c).state with
  | off => exact hstays
  | ready => exact hstays
  | armed =>
    have hon : (s.chan c).state ≠ .off := by simp [hstate]
    refine State.endRecording_windowWork hs.geometry hs.recording (.of_record .refl (fun _ _ => rfl) rfl rfl) hon (hw hon)
      (fun m hm h => ?_) _ _
    have hmem := State.recordingOk_listed hs.geometry hs.recording hm h
    rw [State.recordingOk_idle hs.recording (by simp [hstate])] at hmem
    cases hmem
  | recording => exact State.setState_windowWork hs (by simp [hstate]) (hw (by simp [hstate])) (by simp) (by simp [hstate])
  | stopping => exact hstays

/-- The slots of the list are emptied: none of them holds a frame of the window. -/
theorem State.abortChannel_windowWork (hs : s.Recorded) (hbusy : (s.chan c).busy = true) (hw : s.windowOk c) (q : StopCause) :
    s.WindowWork (s.abortChannel c q) c := by
  have hon : (s.chan c).state ≠ .off := by
    rw [Channel.busy_iff] at hbusy
    rcases hbusy with h | h | h <;> simp [h]
  have hlist (m : Nat) (hm : m ∈ (s.chan c).phaseSlots) : (s.chan c).owns m = true ∧ (s.slot m).state = .recording := by
    by_cases hrec : (s.chan c).state = .recording ∨ (s.chan c).state = .stopping
    · exact State.periodTaken_mem (State.recordingOk_taken hs.recording hrec) hm
    · rw [State.recordingOk_idle hs.recording hrec] at hm
      cases hm
  have hslot := s.emptyAll_slot (s.chan c).phaseSlots
  have hchan := s.emptyAll_chan (s.chan c).phaseSlots
  have hentry (i : Nat) : (s.emptyAll (s.chan c).phaseSlots).entry i = s.entry i :=
    (congrArg (fun x : State => x.entry i) (s.emptyAll_frame _) :)
  unfold State.abortChannel
  generalize s.emptyAll (s.chan c).phaseSlots = u at hslot hchan hentry
  have hworks : s.WorksAt u c :=
    ⟨fun d _ => by rw [hchan], fun d _ => hchan d, fun m hm => by rw [hslot, if_neg fun h => hm (hlist m h).1], fun i _ => hentry i⟩
  refine State.endRecording_windowWork hs.geometry hs.recording hworks (by rw [hchan]; exact hon) ⟨?_, fun r hlo hhi => ?_⟩
    (fun m hm h => ?_) q _
  · rw [hchan]
    exact hw.1
  · rw [hchan] at hlo hhi
    obtain ⟨m, ⟨-, hent, hheld, hrfn⟩, hown⟩ := hw.2 r hlo hhi
    have hnot : m ∉ (s.chan c).phaseSlots := fun h => by
      have hrec := (hlist m h).2
      rw [hheld] at hrec
      cases hrec
    have hkept : u.slot m = s.slot m := by rw [hslot, if_neg hnot]
    refine ⟨m, ⟨by rw [hchan]; exact hon, by rw [hchan, hentry]; exact hent, by rw [hkept]; exact hheld, by rw [hkept]; exact hrfn⟩, ?_⟩
    rw [hchan]
    exact hown
  · rw [hslot] at h
    split_ifs at h with hmem
    · simp [Slot.emptied, (hlist m hmem).2] at h
    · exact hmem (State.recordingOk_listed hs.geometry hs.recording hm h)

/-! ## CHANNEL_SETUP (R21 to R24) -/

/-- A channel that may be set up gets a record that is OFF or READY, with an empty window; no other loop is touched. -/
theorem State.setChan_windowWork {x : Channel} (hs : s.Recorded) (htaken : s.setupTaken c) (hg : (u.setChan c x).geometryOk)
    (hu : u = { s with index := u.index }) (hentry : ∀ d, d ≠ c → ∀ i, (s.chan d).owns i = true → u.entry i = s.entry i)
    (hidle : ¬(x.state = .recording ∨ x.state = .stopping)) (hlist : x.phaseSlots = []) (hnew : x.nextRfn = 0 ∧ x.tail = 0) :
    s.WindowWork (u.setChan c x) c := by
  obtain ⟨hlists, hrecording, hfree⟩ := hs.recording
  have hold : (s.chan c).phaseSlots = [] := State.recordingOk_idle hs.recording (by
    rcases htaken with h | ⟨h, -⟩ <;> simp [h])
  have hempty (n : Nat) (hn : (s.chan c).owns n = true) : s.slot n = {} := by
    obtain ⟨hon, hlo, hhi⟩ := ((s.chan c).owns_iff n).1 hn
    rcases htaken with hoff | ⟨-, -, -, hall, -⟩
    · exact absurd hoff hon
    · exact Slot.eq_empty (hs.lawful n) (hall n hlo hhi)
  have hself : (u.setChan c x).chan c = x := by simp
  have hothers (d : ChanId) (hd : d ≠ c) : (u.setChan c x).chan d = s.chan d := by
    rw [State.setChan_chan, if_neg hd, hu]
    rfl
  have hslot (n : Nat) : (u.setChan c x).slot n = s.slot n := by
    rw [hu]
    rfl
  have hent (i : Nat) : (u.setChan c x).entry i = u.entry i := rfl
  generalize u.setChan c x = t at hg hself hothers hslot hent
  have howner {d : ChanId} (hd : d ≠ c) {n : Nat} (hn : s.ownerOf n = some d) : t.ownerOf n = some d :=
    t.ownerOf_of_owns n d hg.2 (by rw [hothers d hd]; exact s.owns_of_ownerOf n d hn)
  refine ⟨⟨fun d => ?_, fun n hn => ?_, fun n hn => ?_⟩, fun d hd => ?_, fun _ => ⟨?_, fun r hlo hhi => ?_⟩⟩
  · by_cases hd : d = c
    · subst hd
      rw [hself, if_neg hidle]
      exact hlist
    · have hdlist := hlists d
      rw [hothers d hd]
      split_ifs at hdlist ⊢ with hbusy
      · obtain ⟨hlen, hnodup, hrec⟩ := hdlist
        refine ⟨by rw [hothers d hd]; exact hlen, by rw [hothers d hd]; exact hnodup, fun j n hj => ?_⟩
        rw [hothers d hd] at hj ⊢
        obtain ⟨hown, hstate, hrfn⟩ := hrec j n hj
        rw [hslot]
        exact ⟨howner hd hown, hstate, hrfn⟩
      · exact hdlist
  · rw [hslot] at hn
    obtain ⟨d, hd⟩ := hrecording n hn
    have hdc : d ≠ c := by
      rintro rfl
      rw [hold] at hd
      cases hd
    exact ⟨d, by rw [hothers d hdc]; exact hd⟩
  · rw [hslot]
    cases hown : s.ownerOf n with
    | none => exact hfree n hown
    | some d =>
      by_cases hd : d = c
      · subst hd
        exact hempty n (s.owns_of_ownerOf n d hown)
      · rw [howner hd hown] at hn
        cases hn
  · refine ⟨by rw [hothers d hd], fun n _ => by rw [hslot]; exact ⟨rfl, rfl⟩, fun i hi => ?_⟩
    rw [hent]
    exact hentry d hd i hi
  · rw [hself, hnew.1]
    exact Nat.zero_le _
  · rw [hself, hnew.1] at hhi
    cases hhi

theorem channelSetup_windowWork {r : CmdArgs} (hs : s.Recorded) (ht : targetChan r = some c)
    (hw : (s.chan c).state ≠ .off → s.windowOk c) : s.WindowWork (channelSetup r s).1 c := by
  have hstays := State.windowWork_refl hs hw
  have hg := channelSetup_geometryOk r hs.geometry
  unfold channelSetup at hg ⊢
  rw [ht] at hg ⊢
  dsimp only at hg ⊢
  split_ifs at hg ⊢ with hmay hzero hbad hover
  · exact hstays
  · have htaken := (s.mayResetLoop_iff c).mp (by simpa using hmay)
    exact State.setChan_windowWork hs htaken hg rfl (fun _ _ _ _ => rfl) (by simp) rfl ⟨rfl, rfl⟩
  · exact hstays
  · exact hstays
  · have htaken := (s.mayResetLoop_iff c).mp (by simpa using hmay)
    have hfree : s.loopFree c r.a.toNat r.b.toNat := (s.loopOverlaps_eq_false c _ _).mp (by simpa using hover)
    refine State.setChan_windowWork hs htaken hg rfl (fun d hd i hi => ?_) (by simp) rfl ⟨rfl, rfl⟩
    obtain ⟨hon, hlo, hhi⟩ := ((s.chan d).owns_iff i).mp hi
    have hapart := hfree d hd hon
    rw [State.indexClear_entry, if_neg (by omega)]

/-! ## CHANNEL_CLEAR (R28) -/

/-- An operation on the loop of a READY channel that puts no slot in RECORDING. -/
theorem State.WorksAt.recordingOk_of_ready (h : s.WorksAt t c) (hg : s.geometryOk) (hs : s.recordingOk)
    (hready : (s.chan c).state = .ready) (hchan : (t.chan c).state = .ready ∧ (t.chan c).phaseSlots = (s.chan c).phaseSlots)
    (hslot : ∀ n, (t.slot n).state = .recording → (s.slot n).state = .recording) : t.recordingOk := by
  have hlist := State.recordingOk_idle hs (c := c) (by simp [hready])
  obtain ⟨hstate, hphases⟩ := hchan
  refine h.recordingOk hg hs ?_ fun n hn hrec => ?_
  · rw [if_neg (by simp [hstate]), hphases, hlist]
  · rw [hphases]
    exact State.recordingOk_listed hg hs hn (hslot n hrec)

/-- Emptying a slot of the loop. -/
theorem State.empty_worksAt {n : Nat} (hn : (s.chan c).owns n = true) :
    s.WorksAt (s.empty n).1 c ∧ (∀ d, (s.empty n).1.chan d = s.chan d) ∧
      ∀ m, ((s.empty n).1.slot m).state = .recording → (s.slot m).state = .recording := by
  rcases s.empty_cases n with ⟨-, h⟩ | ⟨-, h⟩ | ⟨-, _, h⟩ <;> rw [h]
  · refine ⟨⟨fun _ _ => rfl, fun _ _ => rfl, fun m hm => ?_, fun _ _ => rfl⟩, fun _ => rfl, fun m hm => ?_⟩
    · rw [State.setSlot_slot, if_neg (by rintro rfl; exact hm hn)]
    · rw [State.setSlot_slot] at hm
      split_ifs at hm
      exact hm
  · exact ⟨.of_record .refl (fun _ _ => rfl) rfl rfl, fun _ => rfl, fun _ hm => hm⟩
  · exact ⟨.of_record .refl (fun _ _ => rfl) rfl rfl, fun _ => rfl, fun _ hm => hm⟩

theorem State.indexClear_worksAt (hon : (s.chan c).state ≠ .off) :
    s.WorksAt (s.indexClear (s.chan c).firstSlot (s.chan c).len) c where
  loops _ _ := rfl
  others _ _ := rfl
  slot _ _ := rfl
  entry i hi := by
    rw [State.indexClear_entry, if_neg fun h => hi (((s.chan c).owns_iff i).mpr ⟨hon, h⟩)]

/-- The cleared record has an empty window. -/
theorem State.clearRecord_worksAt (s : State) (c : ChanId) :
    s.WorksAt (s.clearRecord c) c ∧ ((s.clearRecord c).chan c).state = (s.chan c).state ∧
      ((s.clearRecord c).chan c).phaseSlots = (s.chan c).phaseSlots ∧ (s.clearRecord c).windowOk c := by
  have hself : (s.clearRecord c).chan c = { s.chan c with nextRfn := 0, tail := 0, cursor := 0 } := by simp [State.clearRecord]
  refine ⟨.of_record ?_ (fun d hd => by simp [State.clearRecord, hd]) rfl rfl, by rw [hself], by rw [hself], ?_, fun r _ hhi => ?_⟩
  · rw [hself]
    exact .of rfl .rfl fun h => Nat.zero_lt_of_lt h
  · rw [hself]
    exact Nat.zero_le _
  · rw [hself] at hhi
    cases hhi

end

end Sys2Proof.Machine
end

section
/-! PROOFS. WindowDiscipline.lean: every event keeps the live windows and the slots in RECORDING, a channel's window resting while
an event is in progress at the channel (R28 to R37). -/

namespace Sys2Proof.Machine

/-! ## The discipline -/

theorem State.SameWindow.state {s t : State} {c : ChanId} (h : s.SameWindow t c) : (t.chan c).state = (s.chan c).state := by
  rw [h.chan]

/-- The live window of a channel that is not OFF. -/
def State.windowRests (s : State) (c : ChanId) : Prop := (s.chan c).state ≠ .off → s.windowOk c

theorem State.SameWindow.rests {s t : State} {c : ChanId} (h : s.SameWindow t c) (hs : s.windowRests c) : t.windowRests c := fun hon =>
  h.windowOk (h.state ▸ hon) (hs (h.state ▸ hon))

/-- Events that keep the live windows: a channel with no event in progress has its window, and nothing else touches the loop of a
channel while an event is in progress there. -/
def windowDiscipline : Discipline Pins where
  Inv x := pinsDiscipline.Inv x ∧ x.1.Recorded
  Idle a x := pinsDiscipline.Idle a x ∧ ∀ c, a = .channel c → x.1.windowRests c
  Rely a x y := pinsDiscipline.Rely a x y ∧ ∀ c, a = .channel c → x.1.SameWindow y.1 c
  refl a x := ⟨pinsDiscipline.refl a x, fun c _ => .refl x.1 c⟩
  trans h h' := ⟨pinsDiscipline.trans h.1 h'.1, fun c hc => (h.2 c hc).trans (h'.2 c hc)⟩
  stable h hidle := ⟨pinsDiscipline.stable h.1 hidle.1, fun c hc => (h.2 c hc).rests (hidle.2 c hc)⟩

section
variable {s t u : State} {b : List Agent} {c : ChanId} {r : CmdArgs}

/-- A move of the pins that leaves the windows of the channels not among its blocks, and keeps those of its own. -/
theorem window_move (hpins : pinsDiscipline.Move b s t)
    (h : ∀ g, PinsTrue (s, g) → s.Recorded → (∀ c, .channel c ∈ b → s.windowRests c) →
      t.Recorded ∧ (∀ c, .channel c ∉ b → s.SameWindow t c) ∧ ∀ c, .channel c ∈ b → t.windowRests c) :
    windowDiscipline.Move b s t := by
  rintro g ⟨hinv, hrec⟩ hidle
  obtain ⟨hrec', hothers, hown⟩ := h g hinv hrec fun c hc => (hidle _ hc).2 c rfl
  obtain ⟨g', hinv', hrely, hidle'⟩ := hpins g hinv fun a ha => (hidle a ha).1
  refine ⟨g', ⟨hinv', hrec'⟩, fun a ha => ⟨hrely a ha, ?_⟩, fun a ha => ⟨hidle' a ha, ?_⟩⟩
  · rintro c rfl
    exact hothers c ha
  · rintro c rfl
    exact hown c ha

/-- From `s` to `t` every window is left, and the books and the numbering are kept. -/
structure State.Aside (s t : State) : Prop where
  left : s.WindowsLeft t
  books : s.lockBooks → t.lockBooks
  numbers : s.numbersOk → t.numbersOk

theorem State.Aside.refl (s : State) : s.Aside s := ⟨.refl s, id, id⟩

theorem State.Aside.recorded (h : s.Aside t) (hs : s.Recorded) : t.Recorded :=
  ⟨h.books hs.books, h.numbers hs.numbers, h.left.recordingOk (h.books hs.books).1 hs.recording⟩

theorem window_move_aside (hpins : pinsDiscipline.Move b s t) (h : s.Aside t) : windowDiscipline.Move b s t :=
  window_move hpins fun _ _ hs hw => ⟨h.recorded hs, fun c _ => h.left.sameWindow c, fun c hc => (h.left.sameWindow c).rests (hw c hc)⟩

/-- The work of a channel that is among the blocks. -/
theorem window_move_work (hpins : pinsDiscipline.Move b s t) (hc : .channel c ∈ b) (hbooks : s.lockBooks → t.lockBooks)
    (hnumbers : s.numbersOk → t.numbersOk)
    (hwork : ∀ g, PinsTrue (s, g) → s.Recorded → s.windowRests c → s.WindowWork t c) : windowDiscipline.Move b s t := by
  refine window_move hpins fun g hp hs hw => ?_
  obtain ⟨hrecording, hothers, hwindow⟩ := hwork g hp hs (hw c hc)
  refine ⟨⟨hbooks hs.books, hnumbers hs.numbers, hrecording⟩, fun d hd => hothers d fun h => hd (h ▸ hc), fun d hd => ?_⟩
  by_cases hdc : d = c
  · subst hdc
    exact hwindow
  · exact (hothers d hdc).rests (hw d hd)

/-- A command for a channel, which does nothing where it names none. -/
theorem window_move_command (hb : chanBlock r ⊆ b) (hpins : pinsDiscipline.Move b s t) (hbooks : s.lockBooks → t.lockBooks)
    (hnumbers : s.numbersOk → t.numbersOk) (hnone : targetChan r = none → t = s)
    (hwork : ∀ c, targetChan r = some c → s.Recorded → s.windowRests c → s.WindowWork t c) : windowDiscipline.Move b s t := by
  cases hr : targetChan r with
  | none =>
    rw [hnone hr]
    exact .refl b s
  | some c => exact window_move_work hpins (hb (by simp [chanBlock, hr])) hbooks hnumbers fun _ _ => hwork c hr

end

/-! ## What leaves the windows -/

section
variable {s t : State}

theorem State.WindowsLeft.of_tables (hslots : t.slots = s.slots) (hindex : t.index = s.index) (hchans : t.chans = s.chans) :
    s.WindowsLeft t where
  chan c := by rw [State.chan_congr hchans]
  slot n := by rw [State.slot_congr hslots]; exact ⟨rfl, rfl⟩
  entry := State.entry_congr hindex

/-- A change of a slot's counts. -/
theorem State.setSlot_left {n : Nat} {x : Slot} (hstate : x.state = (s.slot n).state) (hrfn : x.rfn = (s.slot n).rfn) :
    s.WindowsLeft (s.setSlot n x) where
  chan _ := rfl
  slot m := by
    rw [State.setSlot_slot]
    split_ifs with hm
    · subst hm
      exact ⟨hstate, hrfn⟩
    · exact ⟨rfl, rfl⟩
  entry _ := rfl

theorem State.countLocked_left (s : State) (n : Nat) (f : Nat → Nat) : s.WindowsLeft (s.countLocked n f) where
  chan c := by
    rw [State.countLocked_chan_eq]
    split_ifs <;> rfl
  slot m := by
    rw [State.countLocked_slot]
    exact ⟨rfl, rfl⟩
  entry i := by
    rw [State.countLocked_frame]
    rfl

theorem State.lock_left (s : State) (n r : Nat) : s.WindowsLeft (s.lock n r).1 := by
  rcases s.lock_cases n r with ⟨_, _, _, _, h⟩ | ⟨_, _, _, _, h⟩ | ⟨_, h⟩ <;> rw [h]
  · exact (s.countLocked_left n _).trans (State.setSlot_left (by simp) (by simp))
  · exact State.setSlot_left rfl rfl
  · exact .refl s

theorem State.unlock_left (s : State) (n : Nat) : s.WindowsLeft (s.unlock n).1 := by
  rcases s.unlock_cases n with ⟨_, h⟩ | ⟨_, h⟩ | ⟨_, h⟩ <;> rw [h]
  · exact (s.countLocked_left n _).trans (State.setSlot_left (by simp) (by simp))
  · exact State.setSlot_left rfl rfl
  · exact .refl s

theorem State.pin_left (s : State) (n r : Nat) : s.WindowsLeft (s.pin n r).1 := by
  rcases s.pin_cases n r with ⟨_, _, _, h⟩ | ⟨_, h⟩ <;> rw [h]
  · exact State.setSlot_left rfl rfl
  · exact .refl s

theorem State.unpin_left (s : State) (n : Nat) : s.WindowsLeft (s.unpin n).1 := by
  rcases s.unpin_cases n with ⟨_, h⟩ | ⟨_, h⟩ <;> rw [h]
  · exact State.setSlot_left rfl rfl
  · exact .refl s

/-- The head commands, the notices and a tick's first operation leave the windows. -/
theorem State.aside_kept (s : State) : HeadsKept s.Aside where
  beside hb h := ⟨h.left.trans (.of_tables hb.slots hb.index hb.chans), fun hs => lockBooks_kept.beside hb (h.books hs),
    fun hs => numbersOk_kept.beside hb (h.numbers hs)⟩
  heads t v h := ⟨h.left.trans (.of_tables rfl rfl rfl), fun hs => lockBooks_kept.heads t v (h.books hs), h.numbers⟩
  unpin t n h := ⟨h.left.trans (t.unpin_left n), fun hs => lockBooks_kept.unpin t n (h.books hs),
    fun hs => numbersOk_kept.unpin t n (h.numbers hs)⟩

theorem State.setClips_aside (s : State) (cl : Tbl Clip) : s.Aside { s with clips := cl } :=
  ⟨.of_tables rfl rfl rfl, lockBooks_kept.clips s cl trivial, id⟩

end

/-! ## The moves -/

/-- The events made in one operation, and the operations of those that are no head's tick, keep the windows. -/
theorem windowMoves : BookMoves windowDiscipline.Move (fun _ => True) where
  trans := .trans
  table _ _ := trivial
  clips b s cl hq := window_move_aside (pinsMoves.clips b s cl hq) (s.setClips_aside cl)
  aside {b s u cl} hq h :=
    .trans (window_move_aside (pinsMoves.clips b s cl hq) (s.setClips_aside cl))
      (.trans h (window_move_aside (pinsMoves.clips b u s.clips trivial) (u.setClips_aside s.clips)))
  setClip b s k x := window_move_aside (pinsMoves.setClip b s k x) ⟨.of_tables rfl rfl rfl, lockBooks_kept.setClip s k x, id⟩
  beside b {s _} hb := window_move_aside (pinsMoves.beside b hb) (s.aside_kept.beside hb (.refl s))
  headSource b r s hb := window_move_aside (pinsMoves.headSource b r s hb) (s.aside_kept.headSource r s (.refl s))
  headRate b r s hb := window_move_aside (pinsMoves.headRate b r s hb) (s.aside_kept.headRate r s (.refl s))
  headGoto b r s hb := window_move_aside (pinsMoves.headGoto b r s hb) (s.aside_kept.headGoto r s (.refl s))
  idleHead b s d hd := window_move_aside (pinsMoves.idleHead b s d hd) (s.aside_kept.idleHead s d (.refl s))
  takeTakeover b s p hb := window_move_aside (pinsMoves.takeTakeover b s p hb) (s.aside_kept.takeTakeover s p (.refl s))
  takePortLost b s p hb := window_move_aside (pinsMoves.takePortLost b s p hb) (s.aside_kept.takePortLost s p (.refl s))
  takeAttach b s d hd := window_move_aside (pinsMoves.takeAttach b s d hd) (s.aside_kept.takeAttach s d (.refl s))
  takeHeadDetach b s d hd := window_move_aside (pinsMoves.takeHeadDetach b s d hd) (s.aside_kept.takeHeadDetach s d (.refl s))
  setup b r s hb := window_move_command hb (pinsMoves.setup b r s hb) (lockBooks_kept.setup r s) (numbersOk_kept.setup r s)
    (fun hr => by simp [channelSetup, hr]) fun _ hr hs => channelSetup_windowWork hs hr
  arm b r s hb := window_move_command hb (pinsMoves.arm b r s hb) (lockBooks_kept.books.arm r s) (numbersOk_kept.arm r s)
    (fun hr => by simp [channelArm, hr]) fun _ hr hs => channelArm_windowWork hs hr
  stop b r s hb := window_move_command hb (pinsMoves.stop b r s hb) (lockBooks_kept.books.stop r s) (numbersOk_kept.stop r s)
    (fun hr => by simp [channelStop, hr]) fun _ hr hs => channelStop_windowWork hs hr
  abort b s c q hc hbusy := window_move_work (pinsMoves.abort b s c q hc hbusy) hc (lockBooks_kept.books.abort s c q hbusy)
    (numbersOk_kept.abort s c q hbusy) fun _ _ hs hw =>
      State.abortChannel_windowWork hs hbusy (hw (by rcases (Channel.busy_iff _).1 hbusy with h | h | h <;> simp [h])) q
  tick b s c t hc := window_move_work (pinsMoves.tick b s c t hc) hc (lockBooks_kept.books.tick s c t) (numbersOk_kept.tick s c t)
    fun _ hp hs hw => State.tickChannel_windowWork hs hp hw t
  stray b s c hc := window_move_aside (pinsMoves.stray b s c hc)
    ⟨s.strayed_left c true, lockBooks_kept.books.stray s c, numbersOk_kept.stray s c⟩
  lock b s n r := window_move_aside (pinsMoves.lock b s n r) ⟨s.lock_left n r, lockBooks_kept.lock s n r, numbersOk_kept.lock s n r⟩
  unlock b s n := window_move_aside (pinsMoves.unlock b s n) ⟨s.unlock_left n, lockBooks_kept.unlock s n, numbersOk_kept.unlock s n⟩

end Sys2Proof.Machine
end

section
/-! PROOFS. WindowSteps.lean: a head's tick and CHANNEL_CLEAR keep the live windows, and with them every step does (O8). -/

namespace Sys2Proof.Machine

/-! ## A head's tick -/

/-- What the pins' side says of an operation that leaves the windows, said of both sides. -/
theorem window_beside {t : State} {y : State × Pins} {a : Agent} {Q : Pins → Prop} (hside : y.1.Aside t) (hinv : windowDiscipline.Inv y)
    (h : ∃ g, pinsDiscipline.Inv (t, g) ∧ (∀ e, e ≠ a → pinsDiscipline.Rely e y (t, g)) ∧ Q g) :
    ∃ g, windowDiscipline.Inv (t, g) ∧ (∀ e, e ≠ a → windowDiscipline.Rely e y (t, g)) ∧ Q g := by
  obtain ⟨g, hinv', hrely, hq⟩ := h
  exact ⟨g, ⟨hinv', hside.recorded hinv.2⟩, fun e he => ⟨hrely e he, fun c _ => hside.left.sameWindow c⟩, hq⟩

theorem State.pin_aside (s : State) (n r : Nat) : s.Aside (s.pin n r).1 :=
  ⟨s.pin_left n r, lockBooks_kept.pin s n r, numbersOk_kept.pin s n r⟩

theorem State.endTick_aside (s : State) (d : HeadId) (m : Moved) (f : Fit) (x : Option Shown) (t : Word) :
    s.Aside (s.endTick d m f x t) :=
  s.aside_kept.units (State.postFit_units _ d f t) (s.aside_kept.setHead s d _ (.refl s))

/-- A head's tick leaves the windows at each of its operations. -/
def windowTick (d : HeadId) : TickProof windowDiscipline d where
  Before := (pinsTick d).Before
  Latched := (pinsTick d).Latched
  Good := (pinsTick d).Good
  before_head := (pinsTick d).before_head
  before_stable hrely := (pinsTick d).before_stable hrely.1
  latched_stable hrely := (pinsTick d).latched_stable hrely.1
  idle {s} hsrc := window_move_aside ((pinsTick d).idle hsrc) (s.aside_kept.beginTick s d (.refl s))
  start {y} hsrc hinv hidle :=
    window_beside (y.1.aside_kept.beginTick y.1 d (.refl y.1)) hinv ((pinsTick d).start hsrc hinv.1 hidle.1)
  first := (pinsTick d).first
  again := (pinsTick d).again
  unpin {hd _ y} h hinv := window_beside (y.1.aside_kept.unpinIf y.1 hd.trailing (.refl y.1)) hinv ((pinsTick d).unpin h hinv.1)
  pin {_ _ n r _ y} h hinv hpin := window_beside (y.1.pin_aside n r) hinv ((pinsTick d).pin h hinv.1 hpin)
  stop {_ _ m f x t y} h hgood hinv := by
    obtain ⟨g, hinv', hrely, hidle⟩ := window_beside (y.1.endTick_aside d m f x t) hinv ((pinsTick d).stop h hgood hinv.1)
    exact ⟨g, hinv', hrely, hidle, nofun⟩

/-! ## CHANNEL_CLEAR (R28) -/

/-- The channel is READY with the loop of `n` slots from `f`. -/
structure State.ReadyWith (s : State) (c : ChanId) (f n : Nat) : Prop where
  state : (s.chan c).state = .ready
  first : (s.chan c).firstSlot = f
  len : (s.chan c).len = n

section
variable {s t : State} {c : ChanId} {f n : Nat}

theorem State.ReadyWith.of_sameWindow (h : s.ReadyWith c f n) (hw : s.SameWindow t c) : t.ReadyWith c f n := by
  obtain ⟨hstate, hfirst, hlen⟩ := h
  have hchan := hw.chan
  exact ⟨hw.state.trans hstate, by rw [hchan]; exact hfirst, by rw [hchan]; exact hlen⟩

theorem State.ReadyWith.owns (h : s.ReadyWith c f n) {m : Nat} (hm : f ≤ m ∧ m < f + n) : (s.chan c).owns m = true :=
  ((s.chan c).owns_iff m).mpr ⟨by simp [h.state], by rw [h.first, h.len]; exact hm⟩

/-- An operation of a clear: the channel stays READY, and no slot comes to be in RECORDING. -/
structure State.ClearStep (s t : State) (c : ChanId) : Prop where
  pins : pinsDiscipline.Move [.channel c] s t
  books : s.lockBooks → t.lockBooks
  numbers : s.numbersOk → t.numbersOk
  works : s.WorksAt t c
  chan : (t.chan c).state = (s.chan c).state ∧ (t.chan c).phaseSlots = (s.chan c).phaseSlots
  slot : ∀ m, (t.slot m).state = .recording → (s.slot m).state = .recording

theorem State.empty_clearStep {m : Nat} (hm : (s.chan c).owns m = true) : s.ClearStep (s.empty m).1 c := by
  obtain ⟨hworks, hchan, hslot⟩ := State.empty_worksAt hm
  exact ⟨pins_move_same _ fun hs => s.samePins_kept.empty s m (.refl hs), lockBooks_kept.empty s m, numbersOk_kept.empty s m, hworks,
    by rw [hchan]; exact ⟨rfl, rfl⟩, hslot⟩

theorem State.indexClear_clearStep (h : s.ReadyWith c f n) : s.ClearStep (s.indexClear f n) c :=
  ⟨pins_move_same _ fun hs => ⟨hs, fun _ => rfl, rfl⟩, lockBooks_kept.indexClear s f n, id, by
    have := State.indexClear_worksAt (s := s) (c := c) (by simp [h.state])
    rwa [h.first, h.len] at this, ⟨rfl, rfl⟩, fun _ hm => hm⟩

theorem State.clearRecord_clearStep (s : State) (c : ChanId) : s.ClearStep (s.clearRecord c) c := by
  obtain ⟨hworks, hstate, hphases, -⟩ := s.clearRecord_worksAt c
  exact ⟨pins_move_same _ fun hs => ⟨hs, fun _ => rfl, rfl⟩, lockBooks_kept.books.clearRecord s c, numbersOk_kept.clearRecord s c,
    hworks, ⟨hstate, hphases⟩, fun _ hm => hm⟩

/-- What an operation of a clear leaves to the other blocks. -/
theorem State.ClearStep.goes {y : State × Pins} (h : y.1.ClearStep t c) (hinv : windowDiscipline.Inv y)
    (hready : (y.1.chan c).state = .ready) :
    ∃ g, windowDiscipline.Inv (t, g) ∧ (∀ a, a ≠ .channel c → windowDiscipline.Rely a y (t, g)) := by
  obtain ⟨g, hinv', hrely, -⟩ := h.pins y.2 hinv.1 (by simp [pinsDiscipline])
  obtain ⟨hstate, hphases⟩ := h.chan
  refine ⟨g, ⟨hinv', h.books hinv.2.books, h.numbers hinv.2.numbers,
    h.works.recordingOk_of_ready hinv.2.geometry hinv.2.recording hready ⟨hstate.trans hready, hphases⟩ h.slot⟩,
    fun a ha => ⟨hrely a (by simpa using ha), ?_⟩⟩
  rintro d rfl
  exact h.works.sameWindow hinv.2.geometry fun hd => ha (congrArg Agent.channel hd)

end

section
variable {s : State} {c : ChanId} {f n : Nat} {w : CmdResult} {x : State × Pins}

/-- The answer of a command. -/
theorem window_goes_answer (w : CmdResult) (x : State × Pins) : windowDiscipline.Goes (.act [] (fun t => t.endCommand w)) [] x :=
  Discipline.goes_of_each (Q := fun _ => True) (fun _ _ => trivial) (Prog.each_act (by simp) fun t => windowMoves.events.endCommand _ t w)
    (by simp)

theorem Prog.stays_nil (p : Prog Unit) : p.stays [] = [] := by
  cases p <;> rfl

/-- A program that stays at its block is in progress there. -/
theorem Discipline.goes_staying {a : Agent} {p : Prog Unit} (hat : p.StaysAt a) (hp : p ≠ .never)
    (hgo : windowDiscipline.Goes p [a] x) : (∀ e ∈ [a], e ∈ p.stays [a]) ∧ windowDiscipline.Goes p (p.stays [a]) x := by
  rw [hat.stays hp]
  exact ⟨fun _ he => he, hgo⟩

/-- The operations of a clear after its check (R28). -/
def clearing (c : ChanId) (f n : Nat) (w : CmdResult) (ms : List Nat) : Prog Unit :=
  answering ((Prog.each (fun _ => [.channel c]) (fun m u => (u.empty m).1) ms).bind (fun _ =>
    .op [.channel c] (fun u => u.indexClear f n) (fun _ => .op [.channel c] (fun u => u.clearRecord c) (fun _ => .done w))))

theorem clearing_staysAt (c : ChanId) (f n : Nat) (w : CmdResult) (ms : List Nat) : (clearing c f n w ms).StaysAt (.channel c) := by
  cases ms <;> exact .inr ⟨_, _, rfl⟩

theorem clearing_ne_never (c : ChanId) (f n : Nat) (w : CmdResult) (ms : List Nat) : clearing c f n w ms ≠ .never := by
  cases ms <;> exact nofun

/-- The last operation of a clear leaves an empty window. -/
theorem window_goes_clearRecord (hx : x.1.ReadyWith c f n) :
    windowDiscipline.Goes (.op [.channel c] (fun u => u.clearRecord c) (fun _ => .act [] (fun t => t.endCommand w))) [.channel c] x := by
  refine ⟨by simp, fun y hrely _ hinv => .inr ?_⟩
  have hy := hx.of_sameWindow ((hrely _ (by simp)).2 c rfl)
  obtain ⟨g, hinv', hothers⟩ := (y.1.clearRecord_clearStep c).goes hinv hy.state
  obtain ⟨-, -, -, hwindow⟩ := y.1.clearRecord_worksAt c
  refine ⟨g, hinv', fun a ha => hothers a (by simpa using ha), fun a ha _ => ?_, window_goes_answer w _⟩
  rw [List.mem_singleton.mp ha]
  refine ⟨trivial, fun d hd _ => ?_⟩
  cases hd
  exact hwindow

/-- The slots of the loop are emptied one by one, the index entries cleared, and the record. -/
theorem window_goes_clearing (ms : List Nat) (hms : ∀ m ∈ ms, f ≤ m ∧ m < f + n) (hx : x.1.ReadyWith c f n) :
    windowDiscipline.Goes (clearing c f n w ms) [.channel c] x := by
  induction ms generalizing x with
  | nil =>
    refine Discipline.goes_on fun y hrely _ hinv => ⟨.inr ⟨_, _, rfl⟩, ?_⟩
    have hy := hx.of_sameWindow ((hrely _ (by simp)).2 c rfl)
    obtain ⟨g, hinv', hothers⟩ := (State.indexClear_clearStep hy).goes hinv hy.state
    exact ⟨g, hinv', hothers, window_goes_clearRecord ⟨hy.state, hy.first, hy.len⟩⟩
  | cons m ms ih =>
    refine Discipline.goes_on fun y hrely _ hinv => ⟨clearing_staysAt c f n w ms, ?_⟩
    have hy := hx.of_sameWindow ((hrely _ (by simp)).2 c rfl)
    have hown := hy.owns (hms m (by simp))
    obtain ⟨g, hinv', hothers⟩ := (State.empty_clearStep hown).goes hinv hy.state
    have hchan (d : ChanId) : (y.1.empty m).1.chan d = y.1.chan d := (State.empty_worksAt hown).2.1 d
    exact ⟨g, hinv', hothers, ih (fun k hk => hms k (by simp [hk]))
      ⟨by rw [hchan]; exact hy.state, by rw [hchan]; exact hy.first, by rw [hchan]; exact hy.len⟩⟩

/-- CHANNEL_CLEAR at its channel. -/
theorem window_goes_channelClear (r : CmdArgs) (x : State × Pins) : windowDiscipline.Goes (answering (channelClear r)) [] x := by
  unfold channelClear
  cases hr : targetChan r with
  | none => exact window_goes_answer _ x
  | some c =>
    refine ⟨by simp, fun y _ hidle hinv => .inr ?_⟩
    have hidle := hidle (.channel c) (by simp) (by simp)
    dsimp only
    split_ifs with hmay
    · refine ⟨y.2, hinv, fun a _ => windowDiscipline.refl a y, fun a ha _ => ?_, window_goes_answer _ _⟩
      rw [List.mem_singleton.mp ha]
      exact hidle
    · obtain ⟨hready, -⟩ := (y.1.mayClear_iff c).mp (by simpa using hmay)
      have hgo := window_goes_clearing (c := c) (x := y) (w := .done (BitVec.ofNat 32 ((y.1.chan c).nextRfn - (y.1.chan c).tail)))
        (y.1.chan c).loopSlots (fun m hm => (Channel.mem_loopSlots _ _).mp hm) ⟨hready, rfl, rfl⟩
      obtain ⟨hkeeps, hgo⟩ := Discipline.goes_staying (clearing_staysAt _ _ _ _ _) (clearing_ne_never _ _ _ _ _) hgo
      exact ⟨y.2, hinv, fun a _ => windowDiscipline.refl a y, fun a ha hleft => absurd (hkeeps a ha) hleft, hgo⟩

theorem window_goes_clear (kind : Byte) (r : CmdArgs) (x : State × Pins) :
    windowDiscipline.Goes (commandProg kind r (channelClear r)) [] x := by
  rw [commandProg_eq]
  refine ⟨by simp, fun y _ _ hinv => .inr ?_⟩
  obtain ⟨g, hinv', hrely, -⟩ := windowMoves.events.fetched (b := []) (kind := kind) (r := r) (s := y.1)
    (fun u => windowMoves.events.refl _ u) y.2 hinv (by simp)
  refine ⟨g, hinv', hrely, by simp, ?_⟩
  dsimp only
  split_ifs
  · rw [Prog.stays_nil]
    exact window_goes_channelClear r _
  · trivial

end

/-! ## The steps -/

theorem window_begins (fuel : Nat) (s : State) (e : BlockEvent) : windowDiscipline.Begins s (courseOf fuel s e) :=
  windowMoves.events.begins (fun _ _ => trivial) (fun d fuel x => (windowTick d).goes fuel x) window_goes_clear fuel s e

/-- At rest, the discipline says what the obligation says. -/
theorem window_rest (s : State) :
    (∃ g, windowDiscipline.Inv (s, g) ∧ ∀ a, windowDiscipline.Idle a (s, g)) ↔
      s.pinsAgree ∧ s.Recorded ∧ ∀ c, (s.chan c).state ≠ .off → s.windowOk c := by
  constructor
  · rintro ⟨g, ⟨hinv, hrec⟩, hidle⟩
    exact ⟨((pins_rest s).mp ⟨g, hinv, fun a => (hidle a).1⟩).2, hrec, fun c => (hidle (.channel c)).2 c rfl⟩
  · rintro ⟨hpins, hrec, hwindow⟩
    obtain ⟨g, hinv, hidle⟩ := (pins_rest s).mpr ⟨hrec.lawful, hpins⟩
    exact ⟨g, ⟨hinv, hrec⟩, fun a => ⟨hidle a, fun c _ => hwindow c⟩⟩

/-- After RESET_N every channel is OFF and no slot is in RECORDING. -/
theorem State.released_recorded {s : State} (hs : s.Recorded) (cb : BitVec 4) (ef : Bool) :
    (s.released cb ef).Recorded ∧ ∀ c, ((s.released cb ef).chan c).state = .off := by
  have hchan (c : ChanId) : (s.released cb ef).chan c = {} := by
    show (Vector.replicate 8 ({} : Channel)).get c = {}
    simp [Vector.get]
  have hslot (n : Nat) : (s.released cb ef).slot n = {} := rfl
  refine ⟨⟨lockBooks_kept.reset s cb ef hs.books, numbersOk_kept.reset s cb ef hs.numbers, fun c => ?_, fun n hn => ?_, fun n _ => hslot n⟩,
    fun c => by rw [hchan]⟩
  · rw [hchan]
    simp
  · rw [hslot] at hn
    cases hn

/-- Settles O8: each operation of an event keeps the window of every channel with no event in progress, and touches no loop but that of
its own channel. -/
theorem everyStepKeepsTheRfnLimit : Obligations.EveryStepKeepsTheRfnLimit := by
  unfold Obligations.EveryStepKeepsTheRfnLimit
  refine ⟨fun s t hs ht => numbersOk_kept.step hs ht, fun s t hlaw hpins hg hlocks hnumbers hrec hwindow ht => ?_⟩
  have hkept := Discipline.step window_begins
    (fun s q g hinv hidle => ?_) (fun s cb ef g hinv _ => ?_)
    ((window_rest s).mpr ⟨hpins, ⟨⟨hlaw, hg, hlocks⟩, hnumbers, hrec⟩, hwindow⟩) ht
  · obtain ⟨-, hrec', hwindow'⟩ := (window_rest t).mp hkept
    exact ⟨hrec'.recording, hwindow'⟩
  · obtain ⟨hpins, ⟨hbooks, hnumbers, hrec⟩, hwindow⟩ := (window_rest s).mp ⟨g, hinv, hidle⟩
    exact (window_rest _).mpr ⟨hpins, ⟨hbooks, hnumbers, hrec⟩, hwindow⟩
  · obtain ⟨hreset, hoff⟩ := State.released_recorded hinv.2 cb ef
    exact (window_rest _).mpr ⟨s.released_pinsAgree cb ef, hreset, fun c hon => absurd (hoff c) hon⟩

end Sys2Proof.Machine
end
